-- ==== Sys2Proof/Word.lean ====
section
/-! DEFINITION. The words every other file names: bytes, byte strings and queue IDs. -/

namespace Sys2Proof

/-- One byte (00 R6, R7). -/
abbrev Byte := BitVec 8

/-- A byte string, the byte at the lowest address first (00 R7). -/
abbrev Bytes := List (BitVec 8)

/-- A queue ID of 20 bit (06 R161). -/
abbrev Qid := BitVec 20

end Sys2Proof
end

