-- ==== Sys2Proof/Syntax.lean ====
section
/-! DEFINITION. The commands of the block: one constructor per row of spec/opcode_table.json, in its order, with the
operands the row needs. `q` is a queue ID (06 R161), `k` a partition index 0 to 15 for partition 1 to 16 (11 R321),
`vc` a logical vector core (die * 16 + VC), `mu` a logical matrix unit. -/

namespace Sys2Proof

/-- How a frame came in: whether its reception was cut, and the FEC codewords corrected and not correctable since the frame before
(09 R257, R261, R265). -/
structure RxNote where
  aborted : Bool := false
  corrected : BitVec 16 := 0
  uncorrectable : BitVec 16 := 0
  deriving DecidableEq, Repr

/-- What the companion's side of link training gives: its widths, its credit grants, and that it does not advertise native mode (10
R291, Table 10.2). -/
structure TrainPeer where
  widths : BitVec 3 := 7
  grants : List Nat := []
  forerunner : Bool := false
  deriving DecidableEq, Repr

/-- A transaction of a P-die at the SerDes firewall (11 Table 11.10): a write or a read, the region of hub addresses it names, its
bytes. -/
structure PdieAccess where
  pdie : Fin 2
  write : Bool
  region : BitVec 2
  bytes : BitVec 16
  deriving DecidableEq, Repr

/-- What a restore has pulled: from storage or from a buddy, each part with the byte count of its LSEAL (12 R379). -/
structure PulledParts where
  storage : Bool
  parts : List (Bytes × BitVec 64)
  deriving DecidableEq, Repr

/-- The address of a standby device (12 R381; 08 R227). -/
structure StandbyAddr where
  v4 : Bool
  addr : BitVec 128
  deriving DecidableEq, Repr

/-- One command of the block: a row of spec/opcode_table.json. -/
inductive Instr where
  /-- WAIT (R183). -/
  | wait (q : Qid)
  /-- SIGNAL (R182). -/
  | signal (q : Qid)
  /-- RSIGNAL (R184). -/
  | rsignal (q : Qid)
  /-- NOP (R164). -/
  | nop (q : Qid)
  /-- MATMUL (R85). -/
  | matmul (q : Qid)
  /-- FILL_TILE (R181). -/
  | fillTile (q : Qid) (mu : Fin 96)
  /-- MODE_CHANGE (R67). -/
  | modeChange (mu : Fin 96) (quad : Bool)
  /-- PLANE_LOAD (R64). -/
  | planeLoad (mu : Fin 96) (qrow : Fin 2) (qcol : Fin 2) (plane : Fin 2) (row : Fin 8)
  /-- INBOX_WRITE (R99). -/
  | inboxWrite (vc : Fin 64)
  /-- ADD48 (R153). -/
  | add48 (k : Fin 16) (addr : BitVec 48) (img : BitVec 64)
  /-- ADD32E (R153). -/
  | add32e (k : Fin 16) (addr : BitVec 48) (val : BitVec 32) (exp : BitVec 8)
  /-- VPROG (R118). -/
  | vprog (q : Qid)
  /-- NOP_INSTRUCTION (R104). -/
  | vNop (vc : Fin 64)
  /-- END (R118). -/
  | vEnd (vc : Fin 64)
  /-- SETA (R104). -/
  | vSeta (vc : Fin 64)
  /-- ADDA (R104). -/
  | vAdda (vc : Fin 64)
  /-- LOOP (R104). -/
  | vLoop (vc : Fin 64)
  /-- ADD (R105). -/
  | vAdd (vc : Fin 64)
  /-- SUB (R105). -/
  | vSub (vc : Fin 64)
  /-- ADDS (R105). -/
  | vAdds (vc : Fin 64)
  /-- SUBS (R105). -/
  | vSubs (vc : Fin 64)
  /-- MULLO (R105). -/
  | vMullo (vc : Fin 64)
  /-- MULHI (R105). -/
  | vMulhi (vc : Fin 64)
  /-- SHL (R105). -/
  | vShl (vc : Fin 64)
  /-- SHR (R105). -/
  | vShr (vc : Fin 64)
  /-- MIN (R105). -/
  | vMin (vc : Fin 64)
  /-- MAX (R105). -/
  | vMax (vc : Fin 64)
  /-- AND (R104). -/
  | vAnd (vc : Fin 64)
  /-- OR (R104). -/
  | vOr (vc : Fin 64)
  /-- XOR (R104). -/
  | vXor (vc : Fin 64)
  /-- SEL (R104). -/
  | vSel (vc : Fin 64)
  /-- CMPEQ (R105). -/
  | vCmpeq (vc : Fin 64)
  /-- CMPLT (R105). -/
  | vCmplt (vc : Fin 64)
  /-- CMPLE (R105). -/
  | vCmple (vc : Fin 64)
  /-- IOTA (R104). -/
  | vIota (vc : Fin 64)
  /-- ALIGN (R106). -/
  | vAlign (vc : Fin 64)
  /-- NORM (R106). -/
  | vNorm (vc : Fin 64)
  /-- EXP2 (R108). -/
  | vExp2 (vc : Fin 64)
  /-- LOG2 (R108). -/
  | vLog2 (vc : Fin 64)
  /-- RCP (R108). -/
  | vRcp (vc : Fin 64)
  /-- RSQRT (R108). -/
  | vRsqrt (vc : Fin 64)
  /-- LOGISTIC (R108). -/
  | vLogistic (vc : Fin 64)
  /-- RSUM (R109). -/
  | vRsum (vc : Fin 64)
  /-- RSSQ (R109). -/
  | vRssq (vc : Fin 64)
  /-- RMAX (R109). -/
  | vRmax (vc : Fin 64)
  /-- RMIN (R109). -/
  | vRmin (vc : Fin 64)
  /-- RARGMAX (R109). -/
  | vRargmax (vc : Fin 64)
  /-- RARGMIN (R109). -/
  | vRargmin (vc : Fin 64)
  /-- RCOUNT (R109). -/
  | vRcount (vc : Fin 64)
  /-- RMEAN (R109). -/
  | vRmean (vc : Fin 64)
  /-- MOV (R104). -/
  | vMov (vc : Fin 64)
  /-- TRANS (R115). -/
  | vTrans (vc : Fin 64)
  /-- SHUF (R104). -/
  | vShuf (vc : Fin 64)
  /-- SETEXP (R104). -/
  | vSetexp (vc : Fin 64)
  /-- PAND (R104). -/
  | vPand (vc : Fin 64)
  /-- POR (R104). -/
  | vPor (vc : Fin 64)
  /-- PXOR (R104). -/
  | vPxor (vc : Fin 64)
  /-- PNOT (R104). -/
  | vPnot (vc : Fin 64)
  /-- LD (R112). -/
  | vLd (vc : Fin 64)
  /-- ST (R112). -/
  | vSt (vc : Fin 64)
  /-- GATHER (R114). -/
  | vGather (vc : Fin 64)
  /-- SCATTER (R114). -/
  | vScatter (vc : Fin 64)
  /-- LDEXP (R104). -/
  | vLdexp (vc : Fin 64)
  /-- STTAG (R104). -/
  | vSttag (vc : Fin 64)
  /-- CVT (R116). -/
  | vCvt (vc : Fin 64)
  /-- RAND (R122). -/
  | vRand (vc : Fin 64)
  /-- PROMOTE (R141). -/
  | promote (q : Qid)
  /-- DEMOTE (R141). -/
  | demote (q : Qid)
  /-- PIN (R147). -/
  | pin (q : Qid)
  /-- UNPIN (R141). -/
  | unpin (q : Qid)
  /-- AFFINITY (R141). -/
  | affinity (q : Qid)
  /-- CLEAN (R141). -/
  | clean (q : Qid)
  /-- PAGE_REQUEST_ACCEPT (R142). -/
  | pageRequestAccept (k : Fin 16)
  /-- PROMOTION_COMPLETES (R135). -/
  | promotionCompletes (k : Fin 16) (page : BitVec 27)
  /-- WRITE_BACK_COMPLETES (R136). -/
  | writeBackCompletes (k : Fin 16) (page : BitVec 27)
  /-- CXFER (R316). -/
  | cxfer (q : Qid)
  /-- SXFER_READ (R285). -/
  | sxferRead (q : Qid) (per : Fin 15)
  /-- SXFER_WRITE (R285). -/
  | sxferWrite (q : Qid)
  /-- EXPOSE (R287). -/
  | expose (q : Qid)
  /-- QCONFIG (R166). -/
  | qconfig (q : Qid)
  /-- QPAUSE (R175). -/
  | qpause (q : Qid)
  /-- QRESUME (R175). -/
  | qresume (q : Qid)
  /-- QRESET (R176). -/
  | qreset (q : Qid)
  /-- QREAD (R177). -/
  | qread (q : Qid)
  /-- CTR_RESET (R182). -/
  | ctrReset (q : Qid)
  /-- COMMAND_COMPLETES (R172). -/
  | commandCompletes (q : Qid)
  /-- SGD_WITH_MOMENTUM (R200). -/
  | sgdWithMomentum (q : Qid)
  /-- ADAMW (R200). -/
  | adamw (q : Qid)
  /-- LION (R200). -/
  | lion (q : Qid)
  /-- FACTORED (R201). -/
  | factored (q : Qid)
  /-- CUSTOM (R202). -/
  | custom (q : Qid)
  /-- COPY (R200). -/
  | copy (q : Qid)
  /-- MICRO_END (R198). -/
  | microEnd (pipe : Fin 16) (w : BitVec 32)
  /-- MICRO_MOV (R197). -/
  | microMov (pipe : Fin 16) (w : BitVec 32)
  /-- MICRO_ADD (R197). -/
  | microAdd (pipe : Fin 16) (w : BitVec 32)
  /-- MICRO_SUB (R197). -/
  | microSub (pipe : Fin 16) (w : BitVec 32)
  /-- MICRO_MUL (R197). -/
  | microMul (pipe : Fin 16) (w : BitVec 32)
  /-- MICRO_MULH (R197). -/
  | microMulh (pipe : Fin 16) (w : BitVec 32)
  /-- MICRO_ADDH (R197). -/
  | microAddh (pipe : Fin 16) (w : BitVec 32)
  /-- MICRO_DIV (R197). -/
  | microDiv (pipe : Fin 16) (w : BitVec 32)
  /-- MICRO_SQRT (R197). -/
  | microSqrt (pipe : Fin 16) (w : BitVec 32)
  /-- MICRO_SIGN (R197). -/
  | microSign (pipe : Fin 16) (w : BitVec 32)
  /-- MICRO_NEG (R197). -/
  | microNeg (pipe : Fin 16) (w : BitVec 32)
  /-- MICRO_MAX (R197). -/
  | microMax (pipe : Fin 16) (w : BitVec 32)
  /-- ENC (R198). -/
  | enc (pipe : Fin 16) (w : BitVec 32)
  /-- BACK_PAGE_WRITE (R204). -/
  | backPageWrite (q : Qid)
  /-- LOSS (R212). -/
  | loss (q : Qid)
  /-- LATCH (R215). -/
  | latch (q : Qid)
  /-- COMMIT (R217). -/
  | commit (q : Qid)
  /-- REFUSE (R218). -/
  | refuse (q : Qid)
  /-- DEFINE_DAMASK_PAIR (R205). -/
  | defineDamaskPair (q : Qid)
  /-- DEFINE_STEP_SCRATCH_RANGE (R188). -/
  | defineStepScratchRange (q : Qid)
  /-- REMOVE_ENTRY (R208). -/
  | removeEntry (q : Qid)
  /-- DEFINE_BUDDY_RANGE (R377). -/
  | defineBuddyRange (q : Qid)
  /-- DSTEP (R208). -/
  | dstep (q : Qid)
  /-- PHASE (R222). -/
  | phase (q : Qid)
  /-- JOIN (R225). -/
  | join (q : Qid)
  /-- SLOTOPEN (R230). -/
  | slotopen (q : Qid)
  /-- CONTRIB (R232). -/
  | contrib (q : Qid)
  /-- BCAST (R245). -/
  | bcast (q : Qid)
  /-- PUT (R246). -/
  | put (q : Qid)
  /-- FGATHER (R249). -/
  | fgather (q : Qid)
  /-- LADD48 (R247). -/
  | ladd48 (q : Qid)
  /-- HVOTE (R251). -/
  | hvote (q : Qid)
  /-- JERSEY (R252). -/
  | jersey (q : Qid)
  /-- RANKSET (R248). -/
  | rankset (q : Qid)
  /-- CLAIM (R236). -/
  | claim (k : Fin 16)
  /-- ANSWER (R236). -/
  | answer (k : Fin 16)
  /-- DATA (R238). -/
  | data (k : Fin 16)
  /-- PLACED (R238). -/
  | placed (k : Fin 16)
  /-- SEAL (R238). -/
  | seal (k : Fin 16)
  /-- CONFIRM (R240). -/
  | confirm (k : Fin 16)
  /-- RESEND (R240). -/
  | resend (k : Fin 16)
  /-- CALL (R241). -/
  | call (k : Fin 16)
  /-- RELEASE (R241). -/
  | release (k : Fin 16)
  /-- FAILED (R240). -/
  | failed (k : Fin 16)
  /-- LAND (R245). -/
  | land (k : Fin 16)
  /-- LSEAL (R235). -/
  | lseal (k : Fin 16)
  /-- LACK (R245). -/
  | lack (k : Fin 16)
  /-- GREQ (R249). -/
  | greq (k : Fin 16)
  /-- GDATA (R249). -/
  | gdata (k : Fin 16)
  /-- GEND (R249). -/
  | gend (k : Fin 16)
  /-- RSIG (R235). -/
  | rsig (k : Fin 16)
  /-- RSIG_ACK (R235). -/
  | rsigAck (k : Fin 16)
  /-- VOTE (R251). -/
  | vote (k : Fin 16)
  /-- VOTE_BC (R251). -/
  | voteBc (k : Fin 16)
  /-- DEADLINE (R242). -/
  | deadline (k : Fin 16) (epoch : BitVec 16) (slot : BitVec 16)
  /-- SEAL_TO (R243). -/
  | sealTo (k : Fin 16) (epoch : BitVec 16) (slot : BitVec 16) (mbid : BitVec 16)
  /-- BUSY_RECLAIM (R237). -/
  | busyReclaim (q : Qid)
  /-- VOTE_DEADLINE (R251). -/
  | voteDeadline (k : Fin 16)
  /-- VOTE_BC_TIMEOUT (R251). -/
  | voteBcTimeout (k : Fin 16)
  /-- GHOLD_T (R249). -/
  | gholdT (k : Fin 16) (n : Nat)
  /-- XFT_DATA (R275). -/
  | xftData (k : Fin 16)
  /-- XFT_ACK (R271). -/
  | xftAck (k : Fin 16)
  /-- XFT_NACK (R276). -/
  | xftNack (k : Fin 16)
  /-- PROBE (R271). -/
  | probe (k : Fin 16)
  /-- ACK_TIMER (R271). -/
  | ackTimer (k : Fin 16) (rank : BitVec 16)
  /-- RETRANSMISSION_TIMER (R278). -/
  | retransmissionTimer (k : Fin 16) (rank : BitVec 16)
  /-- PROBE_TIMER (R278). -/
  | probeTimer (k : Fin 16) (rank : BitVec 16)
  /-- REASM_TO (R276). -/
  | reasmTo (k : Fin 16) (rank : BitVec 16) (msn : BitVec 32)
  /-- DEAD_T (R279). -/
  | deadT (k : Fin 16) (rank : BitVec 16)
  /-- SLOT_EMPTIED (R336). -/
  | slotEmptied (k : Fin 16) (slot : Fin 4)
  /-- RECEIVE_FRAME (R261). -/
  | receiveFrame (port : Fin 17) (frame : Bytes) (rx : RxNote)
  /-- ARP (R260). -/
  | arp (port : Fin 17)
  /-- LLDP (R266). -/
  | lldp (port : Fin 17) (stepDown : Bool) (eee : Bool) (wake : BitVec 16)
  /-- TX_UNDERRUN (R264). -/
  | txUnderrun (port : Fin 17)
  /-- PORT_LINK_LOSS (R260). -/
  | portLinkLoss (port : Fin 17)
  /-- PORT_LINK_UP (R267). -/
  | portLinkUp (port : Fin 17) (speed : BitVec 2)
  /-- RATE_STEP_DOWN (R266). -/
  | rateStepDown (port : Fin 17)
  /-- STEP_UP (R267). -/
  | stepUp (port : Fin 17)
  /-- LOW_POWER_IDLE (R268). -/
  | lowPowerIdle (port : Fin 17) (enter : Bool)
  /-- RDMA_READ (R283). -/
  | rdmaRead (k : Fin 16) (qp : BitVec 8) (rkey : BitVec 32) (raddr : BitVec 64) (len : BitVec 32)
  /-- RDMA_WRITE (R283). -/
  | rdmaWrite (k : Fin 16) (qp : BitVec 8) (rkey : BitVec 32) (raddr : BitVec 64) (data : Bytes)
  /-- SEND (R287). -/
  | send (k : Fin 16) (qp : BitVec 8) (token : BitVec 32) (status : BitVec 32)
  /-- ROCE_NAK (R282). -/
  | roceNak (k : Fin 16) (qp : BitVec 8)
  /-- CNP (R282). -/
  | cnp (k : Fin 16) (qp : BitVec 8)
  /-- FLIT_RECEIVE (R302). -/
  | flitReceive (flit : BitVec 2048)
  /-- ACK (R302). -/
  | ack
  /-- NAK (R302). -/
  | nak
  /-- CREDIT (R300). -/
  | credit
  /-- PM_REQ (R318). -/
  | pmReq
  /-- PM_ACK (R318). -/
  | pmAck
  /-- PM_NAK (R318). -/
  | pmNak
  /-- NAK_REPEAT (R302). -/
  | nakRepeat
  /-- CONTROL_FLIT (R300). -/
  | controlFlit
  /-- RD_SHARED (R307). -/
  | rdShared
  /-- RD_OWN (R307). -/
  | rdOwn
  /-- RD_NC (R310). -/
  | rdNc
  /-- WR_NC (R311). -/
  | wrNc
  /-- WR_PART (R311). -/
  | wrPart
  /-- EVICT_DIRTY (R306). -/
  | evictDirty
  /-- EVICT_CLEAN (R306). -/
  | evictClean
  /-- SNP_INV (R306). -/
  | snpInv
  /-- SNP_SHARE (R306). -/
  | snpShare
  /-- CMP (R299). -/
  | cmp
  /-- DATA_NC (R298). -/
  | dataNc
  /-- DATA_S (R306). -/
  | dataS
  /-- DATA_E (R306). -/
  | dataE
  /-- SRSP_I (R309). -/
  | srspI
  /-- SRSP_S (R307). -/
  | srspS
  /-- SRSP_DATA_I (R307). -/
  | srspDataI
  /-- SRSP_DATA_S (R307). -/
  | srspDataS
  /-- CL_STALL_T (R303). -/
  | clStallT
  /-- LINK_IDLE_T (R318). -/
  | linkIdleT
  /-- TRAINING (R291). -/
  | training (lanes : BitVec 32) (peer : TrainPeer)
  /-- TRAINING_RETRY (R291). -/
  | trainingRetry
  /-- RETRAIN (R292). -/
  | retrain (lanes : BitVec 32) (forerunner : Bool)
  /-- LINK_LOSS (R305). -/
  | linkLoss
  /-- Q_DOORBELL (R170). -/
  | qDoorbell (k : Fin 16) (val : BitVec 64)
  /-- RW1C_WRITE (R186). -/
  | rw1cWrite (addr : BitVec 64) (val : BitVec 64)
  /-- SYNC_ARM_VAL (R449). -/
  | syncArmVal (k : Fin 16) (val : BitVec 64)
  /-- CL_BOOT_DONE (R320). -/
  | clBootDone (val : BitVec 64)
  /-- BOOT_REGION_TIMEOUT (R320). -/
  | bootRegionTimeout
  /-- MBX_REQ_LEN (R315). -/
  | mbxReqLen (m : Fin 17) (len : BitVec 64)
  /-- RSP_READY (R411). -/
  | rspReady (m : Fin 17)
  /-- INTERRUPT_MASK_WRITE (R314). -/
  | interruptMaskWrite (v : Fin 64) (mask : Bool)
  /-- REGISTER_WRITE (R448). -/
  | registerWrite (addr : BitVec 64) (val : BitVec 64)
  /-- HELLO (R413). -/
  | hello
  /-- AUTH (R413). -/
  | auth
  /-- CLOSE (R416). -/
  | close
  /-- READ (R418). -/
  | read
  /-- WRITE (R418). -/
  | write
  /-- SUBSCRIBE (R420). -/
  | subscribe
  /-- EVENT_ACK (R420). -/
  | eventAck
  /-- POLL (R420). -/
  | poll
  /-- ATTEST (R338). -/
  | attest
  /-- KEYREQ (R339). -/
  | keyreq
  /-- KEYSET (R339). -/
  | keyset
  /-- KEYLOAD (R339). -/
  | keyload
  /-- DECAPSULATION_KEY_EXPIRY (R339). -/
  | decapsulationKeyExpiry (k : Fin 16)
  /-- FRAGMENT_TIMEOUT (R411). -/
  | fragmentTimeout (sid : BitVec 32) (seq : BitVec 64)
  /-- AUTH_TIMEOUT (R415). -/
  | authTimeout (sid : BitVec 32)
  /-- SESSION_IDLE_T (R416). -/
  | sessionIdleT (sid : BitVec 32)
  /-- EVENT_RESEND (R420). -/
  | eventResend (sid : BitVec 32)
  /-- PERIODIC_SUBSCRIPTION (R420). -/
  | periodicSubscription (sid : BitVec 32) (index : BitVec 16) (sub : BitVec 8)
  /-- DEVICE_RESET (R404). -/
  | deviceReset
  /-- CPRST_PULSE (R320). -/
  | cprstPulse
  /-- LC_SEAL (R348). -/
  | lcSeal (key : Bytes)
  /-- LC_RMA (R348). -/
  | lcRma (token : Bytes)
  /-- LC_DECOMMISSION (R348). -/
  | lcDecommission (serial : BitVec 128)
  /-- ALERT_CLEAR (R395). -/
  | alertClear
  /-- FENCE_CLEAR (R356). -/
  | fenceClear (val : BitVec 64)
  /-- PORT_RESET (R404). -/
  | portReset (port : Fin 17)
  /-- RELEASE_HOLD_DOWN (R364). -/
  | releaseHoldDown (port : Fin 17)
  /-- CREATE (R324). -/
  | create (k : Fin 16)
  /-- RESIZE (R325). -/
  | resize (k : Fin 16)
  /-- PART_RESET (R326). -/
  | partReset (k : Fin 16)
  /-- DESTROY (R326). -/
  | destroy (k : Fin 16)
  /-- QP_OPEN (R286). -/
  | qpOpen (k : Fin 16) (qp : BitVec 8)
  /-- QP_CLOSE (R286). -/
  | qpClose (k : Fin 16) (qp : BitVec 8)
  /-- CREATION_COMPLETES (R324). -/
  | creationCompletes (k : Fin 16)
  /-- RESIZE_COMPLETES (R325). -/
  | resizeCompletes (k : Fin 16)
  /-- RESET_COMPLETES (R326). -/
  | resetCompletes (k : Fin 16)
  /-- DESTRUCTION_COMPLETES (R326). -/
  | destructionCompletes (k : Fin 16)
  /-- AGE (R145). -/
  | age (k : Fin 16)
  /-- PATROL_SCRUB (R158). -/
  | patrolScrub (tier : BitVec 2)
  /-- CORRECTABLE_ERROR (R157). -/
  | correctableError (tier : BitVec 2) (unit : BitVec 16) (row : BitVec 32)
  /-- UNCORRECTABLE_ERROR (R160). -/
  | uncorrectableError (place : BitVec 2) (q : Qid) (idx : BitVec 24) (addr : BitVec 48)
  /-- LANE_WARNING (R360). -/
  | laneWarning (die : Fin 4) (module : Fin 16) (lane : BitVec 8)
  /-- LANE_REPAIR (R361). -/
  | laneRepair (die : Fin 4) (module : Fin 16) (lane : BitVec 8)
  /-- SERGE_REPLAY (R360). -/
  | sergeReplay (die : Fin 4) (module : Fin 16) (lane : BitVec 8)
  /-- FIREWALL_DROP (R346). -/
  | firewallDrop (access : PdieAccess)
  /-- LOCKSTEP_MISMATCH (R352). -/
  | lockstepMismatch (pair : BitVec 8)
  /-- FENCE (R352). -/
  | fence (cls : BitVec 8) (die : BitVec 4) (lidx : BitVec 12)
  /-- TAKEOVER (R352). -/
  | takeover (cls : BitVec 8) (die : BitVec 4) (lidx : BitVec 12)
  /-- SELF_TEST (R358). -/
  | selfTest (cls : BitVec 8) (die : BitVec 4) (pass : Bool)
  /-- RISK (R366). -/
  | risk
  /-- SECREQ (R368). -/
  | secreq (k : Fin 16)
  /-- SECAT (R368). -/
  | secat (k : Fin 16)
  /-- SECDONE (R373). -/
  | secdone (k : Fin 16)
  /-- SECOK (R373). -/
  | secok (k : Fin 16)
  /-- SECURING_DRAIN (R371). -/
  | securingDrain (k : Fin 16) (feed : BitVec 4) (base : BitVec 48) (size : BitVec 48)
  /-- SECURE_PERIOD (R368). -/
  | securePeriod (k : Fin 16)
  /-- RESTORE (R379). -/
  | restore (k : Fin 16) (pulled : PulledParts)
  /-- SUBSTITUTION (R381). -/
  | substitution (k : Fin 16) (rank : BitVec 16) (planned : Bool) (step : BitVec 48) (standby : StandbyAddr)
  /-- POWER_EVALUATION (R394). -/
  | powerEvaluation (k : Fin 16) (counts : List (BitVec 4 × BitVec 8 × BitVec 32))
  /-- AVSBUS_POLL (R388). -/
  | avsbusPoll (readings : List (BitVec 32))
  /-- PMBUS_POLL (R388). -/
  | pmbusPoll (readings : List (BitVec 32))
  /-- OPERATING_POINT_CHANGE (R392). -/
  | operatingPointChange (slice : Fin 16)
  /-- DROOP (R396). -/
  | droop (slice : Fin 16)
  /-- DROOP_CLEAR (R396). -/
  | droopClear (slice : Fin 16)
  /-- AGE_TRIM (R398). -/
  | ageTrim (die : Fin 4) (slack : BitVec 16)
  /-- THERMAL_STEP (R399). -/
  | thermalStep (slice : Fin 16) (temps : Bytes)
  /-- HOTSTOP (R400). -/
  | hotstop (temps : Bytes)
  /-- THERMTRIP (R401). -/
  | thermtrip (temps : Bytes)
  /-- REFERENCE_LOST (R403). -/
  | referenceLost (ref : BitVec 2)
  /-- REFERENCE_PRESENT (R439). -/
  | referencePresent (ref : BitVec 2)
  /-- PMB_ALERT_N (R444). -/
  | pmbAlertN (level : Bool) (status : BitVec 16)
  /-- PORST_N (R406). -/
  | porstN (level : Bool) (straps : BitVec 14)
  /-- SYSRST_N (R453). -/
  | sysrstN (level : Bool)
  /-- ROM_SECURE_BOOT (R349). -/
  | romSecureBoot (images : List (List (BitVec 32 × Bytes × Bytes × Bytes))) (fwVersion : Bytes)
  /-- MEMORY_TRAINING (R406). -/
  | memoryTraining (far : Bool)
  /-- BIST (R356). -/
  | bist (near : Bool) (failed : List (BitVec 8 × BitVec 4 × BitVec 12))
  /-- WIPES (R347). -/
  | wipes
  /-- COMPANION_IMAGE (R319). -/
  | companionImage (image : Bytes) (load : BitVec 64) (entry : BitVec 64) (sig : Bytes)
  /-- POWER_CALIBRATION (R393). -/
  | powerCalibration
  /-- TRST_N (R445). -/
  | trstN (level : Bool)
  /-- BYPASS (R445). -/
  | bypass
  /-- SAMPLE_PRELOAD (R445). -/
  | samplePreload
  /-- EXTEST (R445). -/
  | extest
  /-- CLAMP (R445). -/
  | clamp
  /-- HIGHZ (R445). -/
  | highz
  /-- EXTEST_PULSE (R445). -/
  | extestPulse
  /-- EXTEST_TRAIN (R445). -/
  | extestTrain
  /-- LOCAL_ACK_TIMEOUT (R282). -/
  | localAckTimeout (k : Fin 16) (qp : BitVec 8)
  /-- RATE_RECOVERY (R282). -/
  | rateRecovery (k : Fin 16) (qp : BitVec 8)
  /-- PAYLOAD_FLIT_ACK_TIMER (R302). -/
  | payloadFlitAckTimer
  /-- BLANK_TO_PROVISIONED (R348). -/
  | blankToProvisioned (drs : Bytes) (serial : BitVec 128) (cert : Bytes) (soKey : Bytes)
  /-- RMA_TO_PROVISIONED (R348). -/
  | rmaToProvisioned (cert : Bytes)
  deriving DecidableEq, Repr, Inhabited

end Sys2Proof
end

