-- ==== Sys2Proof/Decode.lean ====
section
/-! DEFINITION. The command a table word spells: the block's table gives no row any bits, so no word spells one. -/

namespace Sys2Proof

/-- Every row of the table has an empty field list: commands come from outside as commands, not as words. -/
def decodeTableWord (_nbits _w : Nat) : Option Instr := none

end Sys2Proof
end

