-- ==== Sys2Proof/Config.lean ====
section
/-! DEFINITION. What the spec fixes outside its own text, with no body, so that no proof can see a value: the random
source (log 2), the published cryptographic standards the spec names and does not give (log 3), the step plans (log 77) and the
values it leaves open (logs 4, 26, 50, 53). -/

namespace Sys2Proof.Config

/-- Draw n of the device's random source, as many bytes as asked (11 R324, R339; 09 R287; 14 R413). UNVERIFIED, log 2. -/
opaque random : Nat → Nat → Bytes

/-- KMAC256(K, X, L bits, S) of NIST SP 800-185 (11 R334). Log 3. -/
opaque kmac256 : Bytes → Bytes → Nat → String → Bytes

/-- SHAKE256(data, bits) (11 R337). Log 3. -/
opaque shake256 : Bytes → Nat → Bytes

/-- Key stream of AES-256-GCM: key, nonce, length in bytes (11 R344, 09 R272, 14 R414). Log 3. -/
opaque gcmStream : Bytes → Bytes → Nat → Bytes

/-- Tag of AES-256-GCM: key, nonce, additional data, ciphertext (11 R344, 09 R272, 14 R414). Log 3. -/
opaque gcmTag : Bytes → Bytes → Bytes → Bytes → Bytes

/-- ML-DSA-65 verification: public key, context, message, signature (11 R339, R348, R349; 14 R413). Log 3. -/
opaque mldsaVerify : Bytes → Bytes → Bytes → Bytes → Bool

/-- ML-DSA-65 signature: seed, context, message (11 R338, 14 R413). Log 3. -/
opaque mldsaSign : Bytes → Bytes → Bytes → Bytes

/-- ML-DSA-65 public key of a seed (11 Table 11.5, IDK). Log 3. -/
opaque mldsaPublic : Bytes → Bytes

/-- ML-KEM-768 key pair of a seed: encapsulation key, decapsulation key (11 R339). Log 3. -/
opaque mlkemKeyGen : Bytes → Bytes × Bytes

/-- ML-KEM-768 decapsulation: key, ciphertext (11 R339). Log 3. -/
opaque mlkemDecap : Bytes → Bytes → Option Bytes

/-- A value the spec states no rule for: the place it arises (a number of the assumption log) and the operands it arises
on. UNVERIFIED, log 26. -/
opaque unstated : Nat → Nat → Nat

/-- A byte of a page whose contents the spec leaves undefined (07 R207, R220): the draws and the partition (16 a draw), the
number of the event that left them so, and the byte's page-record address. UNVERIFIED, log 4. -/
opaque openByte : Nat → Nat → Nat → Byte

/-- ML-KEM-768 encapsulation: key, random bytes; the shared secret and the ciphertext (14 R413). Log 3. -/
opaque mlkemEncaps : Bytes → Bytes → Bytes × Bytes

/-- The bytes a measurement digest covers where the spec names the items and not their layout (11 R324, R337): the place (a
number of the assumption log), the items. UNVERIFIED, log 53. -/
opaque measured : Nat → List Nat → Bytes

/-- The items of a KEYLOAD payload under WRAPKEY, whose layout the spec does not give (11 Table 11.7): none where the tag
fails. Each item is its kind, slot or index, generation, switch step and key bytes. UNVERIFIED, log 50. -/
opaque keyUnwrap : Bytes → Bytes → Option (List (Nat × Nat × Nat × Nat × Bytes))

/-- Whether the bytes of a transfer are a step plan, whose form the spec does not give (11 R342). UNVERIFIED, log 77. -/
opaque isPlan : Bytes → Bool

/-- The ranges, by address and length, of the exponents and scale tables that the step plans name (12 Table 12.6). UNVERIFIED,
log 77. -/
opaque planTables : List Bytes → List (Nat × Nat)

/-- Command n that the step service issues under these plans: its queue within the partition's range and its 512 bits without tag and
SEQ; none when there is none to issue now (11 R342). UNVERIFIED, log 77. -/
opaque planStep : List Bytes → Nat → Option (Nat × Nat)

/-- AES-256-XTS: key pair, tweak, 64 B data unit (11 R343). Log 3. -/
opaque aesXts : Bytes → Nat → Bytes → Bytes

/-- Nimorn's ML-DSA-65 public key in ROM (11 R349). Log 3. -/
opaque nimornKey : Bytes

end Sys2Proof.Config
end

