-- ==== Sys2Proof/Machine/Numeric.lean ====
section
/-! DEFINITION. Integer formats, shared scales and conversion (02): exact values, rounding, encoding and decoding of
every tensor and interchange format. All of it is over unbounded integers, as R40's pseudocode binds. -/

namespace Sys2Proof.Machine

open Sys2Proof

/-- Class of an exact value (02, Exact values). -/
inductive Cls where
  | fin | inf | nan
  deriving DecidableEq, Repr, Inhabited

/-- An exact value (cls, s, m, q): for FIN, (-1)^s * m * 2^q (02, Exact values). -/
structure Exact where
  cls : Cls := .fin
  s : Bool := false
  m : Nat := 0
  q : Int := 0
  deriving DecidableEq, Repr, Inhabited

/-- What a conversion adds to its queue's SAT_CNT, NAN_IN_CNT and FLUSH_CNT (R45). -/
structure Evt where
  sat : Nat := 0
  nanIn : Nat := 0
  flush : Nat := 0
  deriving DecidableEq, Repr, Inhabited

/-- The events of two conversions together. -/
def evtAdd (a b : Evt) : Evt := ⟨a.sat + b.sat, a.nanIn + b.nanIn, a.flush + b.flush⟩

/-! ### Bits and two's complement -/

/-- Bits hi to lo of a number (00 R6). -/
def bitsOf (x hi lo : Nat) : Nat := (x >>> lo) % 2 ^ (hi + 1 - lo)

/-- One bit of a number (00 R6). -/
def bitOf (x i : Nat) : Bool := x.testBit i

/-- Two's complement of w bits (00 R7). -/
def sext (w x : Nat) : Int := if x % 2 ^ w < 2 ^ (w - 1) then ((x % 2 ^ w : Nat) : Int) else ((x % 2 ^ w : Nat) : Int) - 2 ^ w

/-- The w-bit pattern of an integer (00 R7). -/
def pat (w : Nat) (x : Int) : Nat := (x % ((2 ^ w : Nat) : Int)).toNat

/-- A byte string read little-endian (00 R7). -/
def leNat : Bytes → Nat
  | [] => 0
  | b :: r => b.toNat + 256 * leNat r

/-- The n low bytes of a number, little-endian (00 R7). -/
def toLe : Nat → Nat → Bytes
  | 0, _ => []
  | n + 1, x => BitVec.ofNat 8 x :: toLe n (x / 256)

/-- A byte string read big-endian (09: network fields). -/
def beNat (b : Bytes) : Nat := leNat b.reverse

/-- The n low bytes of a number, big-endian (09: network fields). -/
def toBe (n x : Nat) : Bytes := (toLe n x).reverse

/-- Bytes o to o + n - 1 of a string, zeros past its end. -/
def slice (b : Bytes) (o n : Nat) : Bytes := (b.drop o).take n ++ List.replicate (n - ((b.drop o).take n).length) 0

/-! ### Rounding (R40) -/

/-- Number of significant bits of m (R40, bitlen). -/
def bitlen (m : Nat) : Nat := if m = 0 then 0 else m.log2 + 1

/-- m / 2^d rounded to nearest, ties to even (R40, rne_shift). -/
def rneShift (m d : Nat) : Nat :=
  if d = 0 then m
  else
    let t := m >>> d
    let r := m - (t <<< d)
    let half := 1 <<< (d - 1)
    if r > half ∨ (r = half ∧ t % 2 = 1) then t + 1 else t

/-- m * 2^q in units of 2^e, rounded (R40, scale_to). -/
def scaleTo (m : Nat) (q e : Int) : Nat :=
  if q ≥ e then m <<< (q - e).toNat else rneShift m (e - q).toNat

/-- A magnitude with a sign. -/
def signed (s : Bool) (m : Nat) : Int := if s then -(m : Int) else m

/-- An integer times 2^e, rounded to nearest with ties to even on the magnitude (R40). -/
def roundInt (v : Int) (q e : Int) : Int := signed (decide (v < 0)) (scaleTo v.natAbs q e)

/-- The exact value of an integer times 2^q. -/
def exactOf (v : Int) (q : Int) : Exact := { s := decide (v < 0), m := v.natAbs, q := q }

/-- The exact value NAN. -/
def exactNan : Exact := { cls := .nan }

/-! ### Tensor elements (R29 to R33, R41) -/

/-- Element bits of a tensor format code, 0 for a code that is none (Tables 02.1, 02.2). -/
def fmtBits : Nat → Nat
  | 0x00 => 4 | 0x01 => 8 | 0x02 => 16 | 0x03 => 32 | 0x04 => 4 | 0x05 => 6 | 0x06 => 8 | _ => 0

/-- S4 to S32 and BX4 to BX8 (Table 02.1). -/
def isTensor (f : Nat) : Bool := f ≤ 0x06

/-- The three BX formats (Table 02.1). -/
def isBx (f : Nat) : Bool := f = 0x04 ∨ f = 0x05 ∨ f = 0x06

/-- An interchange code (Table 02.1). -/
def isInterchange (f : Nat) : Bool := 0x10 ≤ f ∧ f ≤ 0x18

/-- An interchange format of 32-element blocks (Table 02.1). -/
def isMx (f : Nat) : Bool := 0x15 ≤ f ∧ f ≤ 0x18

/-- Element bits of an interchange code (Table 02.7). -/
def ichBits : Nat → Nat
  | 0x10 => 32 | 0x11 => 16 | 0x12 => 16 | 0x13 => 8 | 0x14 => 8 | 0x15 => 4 | 0x16 => 6 | 0x17 => 6 | 0x18 => 8 | _ => 0

/-- Group size of a SCALE_MODE, 0 where it names none (Table 02.6). -/
def groupOf : Nat → Nat
  | 1 => 32 | 2 => 64 | 3 => 128 | _ => 0

/-- Whether a tensor format accepts a SCALE_MODE (R34, R49, Table 02.3). -/
def modeOk (f mode : Nat) : Bool :=
  match f with
  | 0x00 | 0x01 | 0x02 => mode ≤ 4
  | 0x03 => mode = 0 ∨ mode = 4
  | 0x04 | 0x05 | 0x06 => mode = 1
  | 0x07 => mode = 0
  | _ => false

/-- Element i of a packed array of n-bit elements (R29 to R31). -/
def elemRaw (n : Nat) (b : Bytes) (i : Nat) : Nat :=
  match n with
  | 4 => bitsOf ((b.getD (i / 2) 0).toNat) (4 * (i % 2) + 3) (4 * (i % 2))
  | 6 => bitsOf (leNat (slice b (3 * (i / 4)) 3)) (6 * (i % 4) + 5) (6 * (i % 4))
  | _ => leNat (slice b (i * (n / 8)) (n / 8))

/-- Packs n-bit elements (R29 to R31): two to a byte for 4 bit, four to three bytes for 6 bit. -/
def packElems (n : Nat) (es : List Nat) : Bytes :=
  toLe ((es.length * n + 7) / 8) (es.foldr (fun e acc => e % 2 ^ n + 2 ^ n * acc) 0)

/-- Bytes of a row of l elements of n bits (R29 to R31). -/
def rowBytes (n l : Nat) : Nat := (l * n + 7) / 8

/-- Element e of format f, plain under tensor exponent t (R41). -/
def decodePlain (f : Nat) (t : Int) (raw : Nat) : Exact :=
  if f = 0x00 ∧ raw = 8 then exactNan else exactOf (sext (fmtBits f) raw) t

/-- Element e of format f under scale code c (R32, R33, R41). -/
def decodeScaled (f c raw : Nat) : Exact :=
  if c = 0xFF then exactNan else exactOf (sext (fmtBits f) raw) ((c : Int) - 127)

/-! ### Encoding (R42, R43) -/

/-- The exponent f of a finite non-zero value: bitlen(m) - 1 + q (R42). -/
def expOf (v : Exact) : Int := (bitlen v.m : Int) - 1 + v.q

/-- The first value of largest exponent among the finite non-zero ones (R42: `fi > f` keeps the first). -/
def leadOf : List Exact → Option Exact → Option Exact
  | [], acc => acc
  | v :: r, acc =>
    if v.cls = .fin ∧ v.m > 0 then
      match acc with
      | none => leadOf r (some v)
      | some a => leadOf r (if expOf v > expOf a then some v else some a)
    else leadOf r acc

/-- Clamp to -127 .. 127 (R42, R54). -/
def clampE (e : Int) : Int := if e > 127 then 127 else if e < -127 then -127 else e

/-- One element of a group at exponent e (R42, last loop). -/
def encodeElem (emax : Nat) (e : Int) (v : Exact) : Int × Evt :=
  if v.cls = .inf then (signed v.s emax, { sat := 1 })
  else
    let r := scaleTo v.m v.q e
    if r > emax then (signed v.s emax, { sat := 1 })
    else (signed v.s r, { flush := if r = 0 ∧ v.m > 0 then 1 else 0 })

/-- encode_group (R42): scale code, elements, events. -/
def encodeGroup (n : Nat) (vs : List Exact) : Nat × List Int × Evt :=
  let emax := 2 ^ (n - 1) - 1
  let nans := vs.countP (fun v => v.cls = .nan)
  let zeros : List Int := vs.map (fun _ => 0)
  if nans > 0 then (0xFF, zeros, { nanIn := nans })
  else
    let e? : Option Int :=
      if vs.any (fun v => v.cls = .inf) then some 127
      else (leadOf vs none).map fun k =>
        let e := expOf k - ((n : Int) - 2)
        clampE (if scaleTo k.m k.q e > emax then e + 1 else e)
    match e? with
    | none => (0x00, zeros, {})
    | some e =>
      let rs := vs.map (encodeElem emax e)
      ((e + 127).toNat, rs.map Prod.fst, rs.foldl (fun a r => evtAdd a r.2) {})

/-- encode_plain (R43): the element code as an integer (0b1000 for the NaN of S4), and the events. -/
def encodePlain (n : Nat) (t : Int) (v : Exact) : Int × Evt :=
  let hi : Int := 2 ^ (n - 1) - 1
  let lo : Int := if n = 4 then -7 else -hi - 1
  match v.cls with
  | .nan => (if n = 4 then 8 else 0, { nanIn := 1 })
  | .inf => (if v.s then lo else hi, { sat := 1 })
  | .fin =>
    let r := signed v.s (scaleTo v.m v.q t)
    if r > hi then (hi, { sat := 1 })
    else if r < lo then (lo, { sat := 1 })
    else (r, { flush := if r = 0 ∧ v.m > 0 then 1 else 0 })

/-! ### Interchange formats (R50 to R55) -/

/-- Exponent bits, fraction bits, bias, kind, xe, largest magnitude code and NaN code of an interchange code (Table 02.7). -/
def ichParam : Nat → Nat × Nat × Nat × Nat × Int × Nat × Nat
  | 0x10 => (8, 23, 127, 0, 0, 0x7F7FFFFF, 0x7FC00000)
  | 0x11 => (5, 10, 15, 0, 0, 0x7BFF, 0x7E00)
  | 0x12 => (8, 7, 127, 0, 0, 0x7F7F, 0x7FC0)
  | 0x13 => (4, 3, 7, 1, 0, 0x7E, 0x7F)
  | 0x14 => (5, 2, 15, 0, 0, 0x7B, 0x7E)
  | 0x15 => (2, 1, 1, 2, 2, 0x7, 0)
  | 0x16 => (2, 3, 1, 2, 2, 0x1F, 0)
  | 0x17 => (3, 2, 3, 2, 4, 0x1F, 0)
  | _ => (0, 0, 0, 0, 0, 0, 0)

/-- decode_float (R51). -/
def decodeFloat (bits ew mw bias kind : Nat) : Exact :=
  let s := bitOf bits (ew + mw)
  let x := bitsOf bits (ew + mw - 1) mw
  let t := bits % 2 ^ mw
  let top := 2 ^ ew - 1
  if kind = 0 ∧ x = top then (if t = 0 then { cls := .inf, s := s } else { cls := .nan, s := s })
  else if kind = 1 ∧ x = top ∧ t = 2 ^ mw - 1 then { cls := .nan, s := s }
  else if x = 0 then { s := s, m := t, q := 1 - (bias : Int) - mw }
  else { s := s, m := t + 2 ^ mw, q := (x : Int) - bias - mw }

/-- Element bits of interchange code f under block scale c (ignored outside MX) (R51). -/
def decodeIch (f c bits : Nat) : Exact :=
  if isMx f ∧ c = 0xFF then exactNan
  else if f = 0x18 then
    (if bits ≥ 128 then { s := true, m := 256 - bits, q := (c : Int) - 133 } else { m := bits, q := (c : Int) - 133 })
  else
    let (ew, mw, bias, kind, _, _, _) := ichParam f
    let v := decodeFloat bits ew mw bias kind
    if isMx f then { v with q := v.q + c - 127 } else v

/-- float_mag (R53). -/
def floatMag (m : Nat) (q : Int) (mw bias : Nat) : Nat :=
  let f : Int := (bitlen m : Int) - 1 + q
  let ue := if f < 1 - (bias : Int) then 1 - (bias : Int) else f
  let r := scaleTo m q (ue - mw)
  let (ue, r) := if r = 2 ^ (mw + 1) then (ue + 1, 2 ^ mw) else (ue, r)
  if r < 2 ^ mw then r else ((ue + bias).toNat <<< mw) + (r - 2 ^ mw)

/-- encode_float of a finite value (R52, R53). -/
def encodeFloat (s : Bool) (m : Nat) (q : Int) (ew mw bias maxmag : Nat) : Nat × Evt :=
  if m = 0 then (0, {})
  else
    let mag0 := floatMag m q mw bias
    let (mag, e) := if mag0 > maxmag then (maxmag, ({ sat := 1 } : Evt)) else (mag0, {})
    if mag = 0 then (0, evtAdd e { flush := 1 })
    else ((if s then 2 ^ (ew + mw) else 0) + mag, e)

/-- One element to a plain interchange coding (R52, R53). A device-side value is never infinite. -/
def exportElem (f : Nat) (v : Exact) : Nat × Evt :=
  let (ew, mw, bias, _, _, maxmag, nan) := ichParam f
  match v.cls with
  | .nan => (nan, {})
  | _ => encodeFloat v.s v.m v.q ew mw bias maxmag

/-- A block of 32 to an MX format (R54, R55): scale, element codes, events. -/
def exportBlock (f : Nat) (vs : List Exact) : Nat × List Nat × Evt :=
  if f = 0x18 then
    let (c, es, e) := encodeGroup 8 (vs.map fun v => { v with q := v.q + 6 })
    (c, es.map (pat 8), { e with nanIn := 0 })
  else if vs.any (fun v => v.cls = .nan) then (0xFF, vs.map (fun _ => 0), {})
  else
    match leadOf vs none with
    | none => (0x00, vs.map (fun _ => 0), {})
    | some k =>
      let (ew, mw, bias, _, xe, maxmag, _) := ichParam f
      let x0 := expOf k - xe
      let x := clampE (if floatMag k.m (k.q - x0) mw bias > maxmag then x0 + 1 else x0)
      let rs := vs.map fun v => encodeFloat v.s v.m (v.q - x) ew mw bias maxmag
      ((x + 127).toNat, rs.map Prod.fst, rs.foldl (fun a r => evtAdd a r.2) {})

/-! ### S48 images (R38, Table 02.5) -/

/-- V (A * 64 + G) and X of a 64-bit image; a NaN accumulator's V reads as zero (R38). -/
def s48V (img : Nat) : Int := if sext 10 (bitsOf img 63 54) = -512 then 0 else sext 54 (img % 2 ^ 54)
def s48X (img : Nat) : Int := sext 10 (bitsOf img 63 54)

/-- The image of (V, X); a NaN accumulator is stored with V zero (R38). -/
def s48Img (v x : Int) : Nat := pat 10 x * 2 ^ 54 + (if x = -512 then 0 else pat 54 v)

/-- Joins equal fields of n bits, the first the lowest. -/
def joinBits (n : Nat) (l : List Nat) : Nat := l.foldr (fun e acc => e % 2 ^ n + 2 ^ n * acc) 0

end Sys2Proof.Machine
end

