-- ==== Sys2Proof/Machine/State.lean ====
section
/-! DEFINITION. State of the XT4 as a block: every register, buffer, counter, mode and pin the spec gives it, and the
queue of commands that wait. Plain data throughout; indexed state is a sparse list of (index, value) pairs with rising
indices that lists no entry at its default (the file and rule after each field's comment are spec/'s). -/

namespace Sys2Proof.Machine


/-- Queue states (06, Table 06.7). -/
inductive QState where
  | disabled | active | pausing | paused | faulted | resetting
  deriving DecidableEq, Repr, Inhabited

/-- Partition states (11 R322, Table 11.2). -/
inductive PState where
  | free | creating | reserved | active | resizing | destroying | resetting
  deriving DecidableEq, Repr, Inhabited

/-- Page states (05 R134, Table 05.4). -/
inductive PageSt where
  | far | promoting | near | cleaning | evicting
  deriving DecidableEq, Repr, Inhabited

/-- Slot states (08, Table 08.10). -/
inductive SlotSt where
  | opened | check | closed | failed
  deriving DecidableEq, Repr, Inhabited

/-- Cerral cache line states (10 R306, Table 10.9). -/
inductive LineSt where
  | modified | exclusive | shared | invalid
  deriving DecidableEq, Repr, Inhabited

/-- Kinds of a DREGION entry (07 R205, 12 R377). -/
inductive RegionKind where
  | pair | scratch | buddy
  deriving DecidableEq, Repr, Inhabited

/-- Boundary-scan instructions (15 R445). -/
inductive TapInstr where
  | bypass | samplePreload | extest | clamp | highz | extestPulse | extestTrain
  deriving DecidableEq, Repr, Inhabited

/-- Progress of a CONTRIB (08 R234, R240, R241): waiting for CALL; claim sent; answered BUSY; DATA being sent; SEAL sent. -/
inductive ContribPhase where
  | waitCall | claimed | busy | sending | sealSent
  deriving DecidableEq, Repr, Inhabited

/-- Fault record (06 Table 06.6), context bits [895:384]. -/
structure FaultRec where
  step : BitVec 48 := 0  -- 48 (06 Table 06.6)
  faddr : BitVec 48 := 0  -- 48 (06 Table 06.6)
  ukind : BitVec 4 := 0  -- 4 (06 Table 06.6)
  uidx : BitVec 12 := 0  -- 12 (06 Table 06.6)
  detail : BitVec 16 := 0  -- 16 (06 Table 06.6)
  seq : BitVec 32 := 0  -- 32 (06 Table 06.6)
  idx : BitVec 24 := 0  -- 24 (06 Table 06.6)
  status : BitVec 8 := 0  -- 8 (06 Table 06.6)
  fcount : BitVec 16 := 0  -- 16 (06 Table 06.6)
  cmd : BitVec 256 := 0  -- 256 (06 Table 06.6)
  deriving DecidableEq, Repr, Inhabited

/-- A drain write waiting for its inbox tile (04 R99, 05 R130); while it waits its drain buffer's credit is out (03 R66). -/
structure DrainWrite where
  mu : Nat := 0  -- global MU whose drain sent it (03 R66)
  buf : Nat := 0  -- its quad * 2 + drain buffer (03 R66)
  q : BitVec 20 := 0  -- its command's queue (04 R99)
  idx : BitVec 24 := 0  -- its command's ring index (04 R99)
  vc : Nat := 0  -- index (04 R99)
  tile : Nat := 0  -- 24..31 (04 R99)
  row : Nat := 0  -- 0..31 (05 R130)
  col : Nat := 0  -- byte in the row (05 R130)
  code : BitVec 8 := 0  -- 8, row tag EXP (04 R99)
  bytes : List (BitVec 8) := []  -- 16 B units (05 R130)
  deriving DecidableEq, Repr, Inhabited

/-- Progress of a started command's work (06 R172): what it still waits for. -/
inductive Work where
  | done
  /-- Fill-class output tiles not run yet (06 R181). -/
  | tiles (left : List Nat)
  /-- MATMUL: output tiles that wait in the queues of its MUs (03 R66, R88). -/
  | queued (left : List Nat)
  /-- MATMUL: drain writes wait for their inbox tiles (04 R99). -/
  | inbox
  /-- Its vector cores run (04 R118). -/
  | vector
  /-- Migration: page numbers not accepted yet; page records accepted, each with whether it is complete; the page whose
  eviction the first of `todo` waits for; the records this command has pinned (05 R142, R143, R146, R147). -/
  | pages (todo : List Nat) (busy : List (Nat × Bool)) (victim : Option Nat) (pins : List Nat)
  /-- CXFER: requests not sent yet, each with its companion offset and, outward, its bytes; requests outstanding; companion
  bytes that have arrived by offset; sealed chunks verified, and their OBJ (10 R316). -/
  | cxfer (todo : List (Nat × List (BitVec 8))) (out : Nat) (got : List (Nat × List (BitVec 8))) (chunk obj : Nat)
  /-- SXFER WRITE on a queue pair: its packets are not acknowledged yet (09 R285). -/
  | sxfer (qp : Nat)
  /-- SXFER READ on a queue pair: chunks that one request asks for, sealed chunks asked for, chunks written, the bytes of the next
  that have come (09 R285). -/
  | sread (qp per asked got : Nat) (data : List (BitVec 8))
  /-- EXPOSE on a queue pair (09 R287). -/
  | expose (qp : Nat)
  /-- UPDATE: back-page writes a securing drain holds back, by partition address (07 R204). -/
  | held (writes : List (Nat × List (BitVec 8)))
  /-- IWIN = 1: every page has been promoted; the sweep or the opening follows (05 R138, R151). -/
  | iwin
  /-- QRESET of a target queue (06 R176). -/
  | qreset (target : BitVec 20) (disable : Bool)
  /-- The command's own queue pauses, or resets, once it has completed (06 R177). -/
  | selfPause
  | selfReset (disable : Bool)
  /-- CONTRIB: where it stands, DATA packets sent and placed since its claim (08 R232 to R241). -/
  | contrib (ph : ContribPhase) (sent placed : Nat)
  /-- BCAST and PUT: the ranks, each with its part, that have not answered LACK (08 R235, R245, R246). -/
  | lacks (parts : List (Nat × Nat))
  /-- BCAST before its slot has closed (08 R245). -/
  | bcastWait
  /-- FGATHER (08 R249): bytes landed so far. -/
  | gather (got : Nat)
  /-- RSIGNAL awaiting its acknowledgement (06 R184). -/
  | rsignal (rank : BitVec 16)
  /-- HVOTE in progress (08 R251). -/
  | vote
  /-- PHASE until the switch of its last slice (07 R222, 13 R392). -/
  | phase (slices : List Nat)
  /-- JERSEY until every old-epoch slot has closed (08 R252). -/
  | jersey
  deriving DecidableEq, Repr, Inhabited

/-- A command that has started and not yet completed (06 R171, R172). -/
structure Started where
  idx : BitVec 24 := 0  -- 24 (06 R171)
  cmd : BitVec 512 := 0  -- 512 (06 R163)
  work : Work := .done  -- progress of its work (06 R172)
  status : BitVec 8 := 0  -- 8 (06 Table 06.8)
  sat : Bool := false  -- 1 (02 R46)
  nanIn : Bool := false  -- 1 (02 R46)
  flush : Bool := false  -- 1 (02 R46)
  degen : Bool := false  -- 1 (03 R84)
  ukind : BitVec 4 := 0  -- 4 (06 Table 06.6)
  uidx : BitVec 12 := 0  -- 12 (06 Table 06.6)
  detail : BitVec 16 := 0  -- 16 (06 Table 06.6)
  faddr : BitVec 48 := 0  -- 48 (06 Table 06.6)
  desc : BitVec 1024 := 0  -- 1,024: its descriptor as validation read it (03 R86, 07 R193)
  aux : List Nat := []  -- the mask array or custom program as validation read it (03 R79, 07 R202)
  mus : List Nat := []  -- MATMUL: the MUs of the slice its tiles are dealt to, ascending (03 R88)
  quadIx : Nat := 0  -- MATMUL in Quad mode: its quad (03 R88)
  strict : Bool := false  -- a STRICT control word has met an event it stops on (02 R47)
  atHead : Bool := false  -- the front end ended it as it read its slot (06 R165, R450)
  since : Nat := 0  -- MODEL'S OWN: the moment at which its queue's HEAD became eligible with it (06 R178 (log 1))
  step16 : BitVec 16 := 0  -- 16, CONTRIB: the step it belongs to (08 Table 08.7)
  recTag : Option Nat := none  -- tag of its record's companion write (10 R299)
  arrived : Nat := 0  -- MODEL'S OWN: order in which migration requests arrived (05 R142 (log 20))
  deriving DecidableEq, Repr, Inhabited

/-- Queue context (06 R166, Table 06.4) with the command at HEAD that passed the front end, and the started commands. -/
structure QCtx where
  ringAddr : BitVec 48 := 0  -- 48 (06 R166)
  ringLog2 : BitVec 5 := 0  -- 5 (06 R166)
  ringLoc : Bool := false  -- 1 (06 R166)
  cplAddr : BitVec 48 := 0  -- 48 (06 R166)
  cplRec : Bool := false  -- 1 (06 R166)
  cplLoc : Bool := false  -- 1 (06 R166)
  cls : BitVec 3 := 0  -- 3 (06 R162, Table 06.4)
  prio : BitVec 2 := 0  -- 2 (06 R178, Table 06.4)
  st : QState := .disabled  -- 3 (06 Table 06.7)
  head : BitVec 24 := 0  -- 24 (06 Table 06.4)
  tail : BitVec 24 := 0  -- 24 (06 Table 06.4)
  expSeq : BitVec 32 := 0  -- 32 (06 Table 06.4)
  seqSpent : Bool := false  -- 1, sequence number 0xFFFF_FFFF has been accepted (11 R341)
  satCnt : BitVec 32 := 0  -- 32 (02 R45)
  nanInCnt : BitVec 32 := 0  -- 32 (02 R45)
  flushCnt : BitVec 32 := 0  -- 32 (02 R45)
  degenCnt : BitVec 32 := 0  -- 32 (03 R84)
  fault : FaultRec := {}  -- 512 (06 R174)
  front : Option (BitVec 512) := none  -- command at HEAD that passed R340 (11 R340)
  bad : Option (BitVec 48) := none  -- where a read of the command at HEAD met an uncorrectable error (05 R160)
  fetching : Bool := false  -- 1, a companion ring line has been asked for (10 R312)
  started : List Started := []  -- started commands, oldest first (06 R171)
  resetBy : Option (BitVec 20 × Bool) := none  -- the QRESET in progress: DISABLE (06 R176)
  since : Nat := 0  -- MODEL'S OWN: moment at which the command at HEAD became eligible (06 R178 (log 1))
  inSlice : BitVec 16 := 0  -- bit i: cached in device slice i (06 R179)
  dbOrder : Nat := 0  -- order of the last doorbell, for paging (06 R179)
  paged : Bool := false  -- 1, context lies in the device reserve (06 R179)
  deriving DecidableEq, Repr, Inhabited

/-- Page record of one tensor page (05 R131, R134, R145). -/
structure PageRec where
  st : PageSt := .far  -- state (05 R134)
  pinned : Bool := false  -- 1 (05 R134)
  affinity : Option Nat := none  -- die (05 R134)
  frame : Option Nat := none  -- die of its frame, 4 = interleaved (05 R133)
  last : BitVec 48 := 0  -- 48 (05 R145)
  seq : BitVec 64 := 0  -- 64 (05 R145)
  dirty : BitVec 32 := 0  -- bit per sector (05 R137)
  cursor : Nat := 0  -- current sector of the migration (05 R135, R136)
  boost : Bool := false  -- 1 (05 R144, R148)
  moving : Bool := false  -- its copy has started (05 R144)
  acc : Nat := 0  -- MODEL'S OWN: order of acceptance of its migration (05 R144 (log 20))
  deriving DecidableEq, Repr, Inhabited

/-- Since when a page's bytes are undefined, and the offsets [lo, hi) written since (07 R207, R220). -/
structure OpenMark where
  draw : Nat := 0  -- MODEL'S OWN: draws taken when it was set, and the partition, 16 a draw (07 R207 (log 4))
  gen : Nat := 0  -- MODEL'S OWN: its number within the partition (07 R207 (log 4))
  done : List (Nat × Nat) := []  -- offsets written since (07 R207)
  deriving DecidableEq, Repr, Inhabited

/-- A page record whose bytes are undefined but for those written since. -/
structure OpenPage where
  now : OpenMark := {}  -- as reads see it (07 R207)
  was : Option OpenMark := none  -- as the face before it stood, for gathers of that face (08 R249)
  deriving DecidableEq, Repr, Inhabited

/-- A DREGION entry (07 R205, 12 R377). -/
structure Region where
  kind : RegionKind := .pair  -- kind (07 R205)
  front : BitVec 48 := 0  -- 48 (07 R205)
  back : BitVec 48 := 0  -- 48 (07 R205)
  npages : Nat := 0  -- 24 bit (07 R205)
  n0 : BitVec 48 := 0  -- 48, step number at definition (07 R206)
  rank : BitVec 16 := 0  -- 16, member served (buddy) (12 R377)
  deriving DecidableEq, Repr, Inhabited

/-- A collective message: operation header (08 Table 08.7) and payload. -/
structure Msg where
  opk : BitVec 8 := 0  -- 8 (08 Table 08.7)
  exp : BitVec 8 := 0  -- 8 (08 Table 08.7)
  slotId : BitVec 16 := 0  -- 16 (08 Table 08.7)
  epoch : BitVec 16 := 0  -- 16 (08 Table 08.7)
  src : BitVec 16 := 0  -- 16, SRC_RANK (08 Table 08.7)
  mbid : BitVec 16 := 0  -- 16 (08 Table 08.7)
  step16 : BitVec 16 := 0  -- 16 (08 Table 08.7)
  off : BitVec 24 := 0  -- 24 (08 Table 08.7)
  count : BitVec 12 := 0  -- 12 (08 Table 08.7)
  role : Bool := false  -- 1 (08 Table 08.7)
  dst : BitVec 48 := 0  -- 48 (08 Table 08.7)
  payload : List (BitVec 8) := []  -- at most 8,192 B (08 R234)
  deriving DecidableEq, Repr, Inhabited

/-- One granted contribution at the owner (08 R236, R238). -/
structure MbRec where
  src : BitVec 16 := 0  -- 16, granted rank (08 R236)
  role : Bool := false  -- 1 (08 R242)
  placed : List Nat := []  -- offsets of placed units (08 R238)
  sums : Option (BitVec 64 × BitVec 64) := none  -- C1, C2 of its SEAL (08 R238)
  deriving DecidableEq, Repr, Inhabited

/-- A reduction slot record (08 R230, Table 08.5). -/
structure Slot where
  addr : BitVec 48 := 0  -- 48 (08 R230)
  len : Nat := 0  -- 24 bit (08 R230)
  cmap : List (BitVec 32) := []  -- contribution map, NC entries (08 R231)
  exp : BitVec 8 := 0  -- 8 (08 Table 08.5)
  step : BitVec 48 := 0  -- 48 (08 R230)
  arrEn : Bool := false  -- 1 (08 Table 08.5)
  arrCtr : BitVec 14 := 0  -- 14 (08 Table 08.5)
  doneCtr : BitVec 14 := 0  -- 14 (08 Table 08.5)
  timer : Bool := false  -- deadline timer runs (08 R242)
  st : SlotSt := .opened  -- state (08 Table 08.10)
  granted : List (Nat × MbRec) := []  -- granted bitmap with each grant's progress, by MBID (08 R236)
  sealed : List Nat := []  -- sealed bitmap (08 R238)
  called : List Nat := []  -- backup bitmap: CALL sent (08 R242)
  sum1 : BitVec 64 := 0  -- 64 (08 R238)
  sum2 : BitVec 64 := 0  -- mod 2^61 - 1 (08 R238)
  resets : Nat := 0  -- resets in the step (08 R240)
  deriving DecidableEq, Repr, Inhabited

/-- LAND messages of one sender to one base address (08 R245, R246). -/
structure Land where
  src : BitVec 16 := 0  -- 16 (08 R235)
  base : BitVec 48 := 0  -- 48 (08 R235)
  units : List (Nat × Nat) := []  -- 64 B unit offset and count of each (08 Table 08.7)
  bad : Bool := false  -- one of them could not be written (05 R126)
  aside : List (BitVec 8) := []  -- a secured-state record, which is kept beside the range (12 R373, R375)
  deriving DecidableEq, Repr, Inhabited

/-- Rank table entry (08 Table 08.2). -/
structure RankEntry where
  valid : Bool := false  -- 1 (08 Table 08.2)
  v4 : Bool := false  -- 1 (08 Table 08.2)
  addr : BitVec 128 := 0  -- 128 (08 Table 08.2)
  deriving DecidableEq, Repr, Inhabited

/-- Job membership: torus descriptor, rank table, epoch (08 R225). -/
structure Job where
  epoch : BitVec 16 := 0  -- 16 (08 R225)
  x : Nat := 1  -- axis size (08 Table 08.1)
  y : Nat := 1  -- axis size (08 Table 08.1)
  z : Nat := 1  -- axis size (08 Table 08.1)
  w : Nat := 1  -- axis size (08 Table 08.1)
  rank : BitVec 16 := 0  -- 16 (08 Table 08.1)
  table : List (Nat × RankEntry) := []  -- rank table copied to the device reserve (08 R225)
  axes : List (Nat × Nat) := []  -- port to axis assignment in force (09 R258)
  deriving DecidableEq, Repr, Inhabited

/-- A DATA packet kept until acknowledged (09 R277). -/
structure Pkt where
  psn : BitVec 32 := 0  -- 32 (09 Table 09.6)
  msn : BitVec 32 := 0  -- 32 (09 Table 09.6)
  moff : BitVec 16 := 0  -- 16 (09 Table 09.6)
  mlen : BitVec 16 := 0  -- 16 (09 Table 09.6)
  payload : List (BitVec 8) := []  -- PLEN bytes, plaintext (09 R277)
  port : Nat := 0  -- sending port (09 Table 09.6)
  ent : BitVec 12 := 0  -- 12 (09 R281)
  ts : BitVec 32 := 0  -- 32, AONCLK (09 Table 09.6)
  retx : Bool := false  -- 1 (09 R277)
  marked : Bool := false  -- retransmission asked for (09 R277)
  deriving DecidableEq, Repr, Inhabited

/-- Connection state to one peer rank (09 R270 to R280). -/
structure Conn where
  nextPsn : BitVec 32 := 0  -- 32 (09 R270)
  nextMsn : BitVec 32 := 0  -- 32 (09 R270)
  retained : List Pkt := []  -- retained packets (09 R277)
  kept : List Pkt := []  -- acknowledged packets of messages not acknowledged whole (09 R276)
  waiting : List Pkt := []  -- packets cut and not yet sent (09 R280)
  msgs : List (BitVec 32 × BitVec 20 × BitVec 24) := []  -- message to the command that sent it: queue and ring index (09 R279)
  haveSrtt : Bool := false  -- a sample has been taken (09 R278)
  srtt : Nat := 0  -- 10 ns ticks (09 R278)
  rttvar : Nat := 0  -- 10 ns ticks (09 R278)
  expiries : Nat := 0  -- consecutive timer expiries (09 R278)
  cwnd : Nat := 524288  -- bytes (09 R280)
  alpha : Nat := 0  -- Q0.16 (09 R280)
  acked : Nat := 0  -- round count (09 R280)
  ce : Nat := 0  -- round count (09 R280)
  rttMin : Nat := 0  -- ticks, smallest of the round, 0 none (09 R280)
  samples : List (Nat × Nat) := []  -- RTT samples with their times (09 R280)
  roundPsn : Option (BitVec 32) := none  -- PSN that ends the round (09 R280)
  skipEnt : Option (BitVec 12) := none  -- ENT to skip once (09 R281)
  rxNext : BitVec 32 := 0  -- cumulative PSN + 1 (09 R271)
  rxAbove : List Nat := []  -- PSNs received above it (09 R271)
  rxNew : List (Nat × (Bool × BitVec 32)) := []  -- DATA packets no ACK has acknowledged yet, oldest first: PSN, CE mark, TSTAMP (09 R271)
  rxTs : BitVec 32 := 0  -- TSTAMP of the newest acknowledged (09 R271)
  delivered : List (BitVec 32) := []  -- most recent delivered MSNs, at most 65,536 (09 R275)
  deriving DecidableEq, Repr, Inhabited

/-- A reassembly record (09 R275). -/
structure Reasm where
  src : BitVec 16 := 0  -- 16 (09 R275)
  msn : BitVec 32 := 0  -- 32 (09 R275)
  mlen : Nat := 0  -- bytes (09 R275)
  parts : List (Nat × List (BitVec 8)) := []  -- received parts by MOFF (09 R275)
  deriving DecidableEq, Repr, Inhabited

/-- An XFT key slot (09 R272, 11 R336). -/
structure XftSlot where
  key : Option (List (BitVec 8)) := none  -- AES-256 key (11 R336)
  gen : BitVec 32 := 0  -- 32 (11 R334)
  nctr : BitVec 64 := 0  -- 64 (09 R272)
  leaving : Bool := false  -- keeps its key for DEAD_T (11 R336)
  deriving DecidableEq, Repr, Inhabited

/-- A buffer registered to a RoCEv2 queue pair (09 R283, R287). -/
structure RBuf where
  rkey : BitVec 32 := 0  -- 32 (09 R287)
  addr : BitVec 48 := 0  -- 48 (09 R287)
  len : Nat := 0  -- sealed bytes (09 R287)
  plain : Nat := 0  -- plaintext bytes (09 R287)
  write : Bool := false  -- ACCESS (09 R287)
  base : BitVec 64 := 0  -- seal counter base (09 R287)
  obj : BitVec 64 := 0  -- OBJ (09 Table 09.10)
  held : List (Nat × BitVec 8) := []  -- bytes of unverified chunks (09 R287)
  done : List Nat := []  -- chunks verified and written (09 R287)
  qid : BitVec 20 := 0  -- its command's queue (09 R287)
  token : BitVec 32 := 0  -- SEQ of the command (09 Table 09.11)
  deriving DecidableEq, Repr, Inhabited

/-- A RoCEv2 packet: the fields of its transport headers (09 Table 09.9; their coding PRESUMED, log 18). -/
structure RocePkt where
  op : BitVec 8 := 0  -- 8, operation code (09 Table 09.9)
  psn : BitVec 24 := 0  -- 24 (09 R286)
  ack : Bool := false  -- asks for an acknowledgement (09 Table 09.9)
  va : BitVec 64 := 0  -- 64, virtual address of a request (09 R285)
  rkey : BitVec 32 := 0  -- 32, remote key of a request (09 R285)
  len : BitVec 32 := 0  -- 32, bytes of a request (09 R285)
  aeth : BitVec 32 := 0  -- 32, syndrome and message number of an acknowledgement or response (09 Table 09.9)
  payload : List (BitVec 8) := []  -- bytes (09 R285)
  span : Nat := 1  -- PSNs it takes: a READ request takes one for each response (09 R285)
  got : Nat := 0  -- READ request: responses received (09 R285)
  cmd : Option (BitVec 20 × BitVec 24) := none  -- the command it belongs to: queue and ring index (09 R285)
  deriving DecidableEq, Repr, Inhabited

/-- A packet sent on a queue pair, in the order of sending (09 R282 to R287). -/
structure RoceOut where
  qp : BitVec 8 := 0  -- 8 (09 R286)
  pkt : RocePkt := {}  -- packet (09 Table 09.9)
  deriving DecidableEq, Repr, Inhabited

/-- A RoCEv2 queue pair (09 R286, 14 Table 14.14). -/
structure Qp where
  peer : BitVec 128 := 0  -- 128 (14 Table 14.14)
  peerQpn : BitVec 24 := 0  -- 24 (14 Table 14.14)
  sqPsn : BitVec 24 := 0  -- 24 (14 Table 14.14)
  rqPsn : BitVec 24 := 0  -- 24 (14 Table 14.14)
  pmtu : BitVec 8 := 2  -- 8 (14 Table 14.14)
  ackTo : BitVec 8 := 14  -- 8 (14 Table 14.14)
  st : BitVec 8 := 0  -- 0 RESET, 1 RTS, 2 ERROR (14 Table 14.14)
  nextPsn : BitVec 24 := 0  -- PSN sent next; SQ_PSN at QP_OPEN (09 R286)
  rxPsn : BitVec 24 := 0  -- PSN expected next; RQ_PSN at QP_OPEN (09 R286)
  msn : BitVec 24 := 0  -- requests of the target completed (09 Table 09.9)
  naked : Bool := false  -- a sequence error has been answered and the expected PSN not received since (09 Table 09.9)
  writing : Option (BitVec 32 × BitVec 64) := none  -- an RDMA WRITE of several packets under way: remote key and the address of its next byte (09 Table 09.9)
  sending : List (BitVec 8) := []  -- bytes of a SEND of several packets under way (09 Table 09.9)
  retries : Nat := 0  -- retries used (09 Table 09.9)
  rate : Nat := 0  -- reductions in force, in halvings (09 Table 09.9)
  port : Nat := 0  -- port in use (09 R286)
  unacked : List RocePkt := []  -- packets sent and not acknowledged, oldest first (09 Table 09.9, R286)
  bufs : List RBuf := []  -- registered buffers (09 R283)
  cnpAt : Option Nat := none  -- AONCLK of the last CNP sent (09 Table 09.9)
  deriving DecidableEq, Repr, Inhabited

/-- A securing drain in flight (12 R371). -/
structure Drain where
  step : BitVec 48 := 0  -- 48, N (12 R368)
  pages : List Nat := []  -- page records of the front face, in the drain's order (12 R371)
  held : List Nat := []  -- page records not yet acknowledged (12 R371)
  sent : List Nat := []  -- page records sent (12 R371)
  checked : Bool := false  -- the buddy has reported its feed domain and range (12 R376)
  toBuddy : Bool := false  -- a copy goes to the buddy (12 R376, R377)
  base : BitVec 48 := 0  -- 48, where this generation lies in the buddy's range (12 R375, R377)
  feed : BitVec 4 := 0  -- 4, the buddy's feed domain (12 R376)
  coFated : Bool := false  -- 1 (12 R376)
  snapSent : Bool := false  -- snapshot sent (12 R371)
  snapAck : Bool := false  -- snapshot acknowledged (12 R371)
  recSent : Bool := false  -- record sent (12 R373)
  recAck : Bool := false  -- record stored by the buddy (12 R373)
  urgent : Bool := false  -- 1 (12 R372)
  fp : Option (BitVec 64) := none  -- FP of step N + 1 (12 R373)
  toStore : Bool := false  -- a copy goes to storage (12 R371)
  storeRec : Bool := false  -- the storage copy has its record (12 R373)
  snapLen : Nat := 0  -- bytes of the snapshot as it is sent (12 R370, R371)
  deriving DecidableEq, Repr, Inhabited

/-- Secured-state record (12 Table 12.7). -/
structure SecRec where
  step : BitVec 48 := 0  -- 48 (12 Table 12.7)
  rank : BitVec 16 := 0  -- 16 (12 Table 12.7)
  fp : BitVec 64 := 0  -- 64 (12 Table 12.7)
  bytes : BitVec 48 := 0  -- 48 (12 Table 12.7)
  epoch : BitVec 16 := 0  -- 16 (12 Table 12.7)
  feed : BitVec 4 := 0  -- 4 (12 Table 12.7)
  holder : BitVec 2 := 0  -- 2 (12 Table 12.7)
  coFated : Bool := false  -- 1 (12 Table 12.7)
  complete : Bool := false  -- 1 (12 Table 12.7)
  half : Bool := false  -- which half of the buddy range holds the copy (12 R375)
  deriving DecidableEq, Repr, Inhabited

/-- The small state of Table 12.6, in the securing reserve (12 R369). -/
structure Snapshot where
  step : BitVec 48 := 0  -- 48 (12 Table 12.6)
  cursors : List (Nat × (BitVec 24 × BitVec 24 × BitVec 32 × QState)) := []  -- per queue HEAD, TAIL, EXP_SEQ, state (12 Table 12.6)
  ctrs : List (Nat × BitVec 64) := []  -- sync counters (12 Table 12.6)
  regions : List (Nat × Region) := []  -- DREGION table with N0 (12 Table 12.6)
  job : Option Job := none  -- epoch, torus, rank table (12 Table 12.6)
  loss : BitVec 64 := 0  -- loss register (12 Table 12.6)
  lsN : BitVec 32 := 0  -- detector (12 Table 12.6)
  lsMean : BitVec 64 := 0  -- detector (12 Table 12.6)
  lsVar : BitVec 128 := 0  -- detector (12 Table 12.6)
  fp : BitVec 64 := 0  -- FP of step N (12 Table 12.6)
  streams : List (Nat × (BitVec 48 × BitVec 16)) := []  -- STEP and MB last issued for each stream key (12 Table 12.6)
  planCursor : BitVec 512 := 0  -- data cursor and step plan cursor (12 Table 12.6)
  tables : List (BitVec 8) := []  -- bytes of the tables that the step plan names (12 Table 12.6)
  deriving DecidableEq, Repr, Inhabited

/-- Ripstop event record (12 Table 12.11). -/
structure EventRec where
  time : BitVec 64 := 0  -- 64 (12 Table 12.11)
  cls : BitVec 16 := 0  -- 16 (12 Table 12.11)
  weight : BitVec 16 := 0  -- 16 (12 Table 12.11)
  risk : BitVec 16 := 0  -- 16 (12 Table 12.11)
  part : BitVec 5 := 0  -- 5 (12 Table 12.11)
  die : BitVec 4 := 0  -- 4 (12 Table 12.11)
  lidx : BitVec 12 := 0  -- 12 (12 Table 12.11)
  psite : BitVec 12 := 0  -- 12 (12 Table 12.11)
  detail : BitVec 40 := 0  -- 40 (12 Table 12.11)
  deriving DecidableEq, Repr, Inhabited

/-- The vote in progress on this member (08 R251). -/
structure Vote where
  qid : BitVec 20 := 0  -- queue of the HVOTE (08 R251)
  idx : BitVec 24 := 0  -- its ring index (08 R251)
  sent : Bool := false  -- its VOTE has been sent (08 R251)
  word : BitVec 64 := 0  -- current word (08 R251)
  stage : Nat := 0  -- current axis 0..3, 4 = broadcast awaited (08 R251)
  got : List Nat := []  -- ranks received at this stage (08 R251)
  out : BitVec 48 := 0  -- OUT (08 R251)
  dl : Nat := 0  -- DL in 100 us (08 R251)
  deriving DecidableEq, Repr, Inhabited

/-- Allotment of a partition (11 R321, Table 11.1; staged in K.02 to K.07). -/
structure Alloc where
  slices : BitVec 16 := 0  -- 16 (11 Table 11.1)
  farGib : BitVec 16 := 0  -- 16 (11 Table 11.1)
  qbase : BitVec 32 := 0  -- 32 (11 Table 11.1)
  qcount : BitVec 32 := 0  -- 32 (11 Table 11.1)
  cbase : BitVec 16 := 0  -- 16 (11 Table 11.1)
  ccount : BitVec 16 := 0  -- 16 (11 Table 11.1)
  deriving DecidableEq, Repr, Inhabited

/-- Keys of a partition (11 R334, Table 11.5). -/
structure Keys where
  far : Option (List (BitVec 8)) := none  -- AES-256-XTS pair (11 Table 11.5)
  prk : Option (List (BitVec 8)) := none  -- 256 (11 Table 11.5)
  gen : BitVec 32 := 0  -- generation of SUBKEY (11 R341)
  subkey : Option (List (BitVec 8)) := none  -- 256 (11 Table 11.5)
  stageKey : Option (List (BitVec 8)) := none  -- 256 (11 Table 11.5)
  stageGen : BitVec 32 := 0  -- 32 (11 Table 11.5)
  wrapKey : Option (List (BitVec 8)) := none  -- 256 (11 Table 11.5)
  js : Option (List (BitVec 8)) := none  -- 256 (11 Table 11.5)
  storKey : Option (List (BitVec 8)) := none  -- 256 (11 Table 11.5)
  storGen : BitVec 32 := 0  -- 32 (11 Table 11.5)
  sealId : BitVec 32 := 0  -- 32 (11 R339)
  stageCtr : BitVec 64 := 0  -- seal counter under STAGEKEY (11 R344)
  storCtr : BitVec 64 := 0  -- seal counter under STORKEY (11 R344)
  kem : Option (List (BitVec 8) × List (BitVec 8)) := none  -- decapsulation key and report digest (11 R339)
  streams : List (Nat × BitVec 128) := []  -- 16 stream keys of 128 (04 R123)
  deriving DecidableEq, Repr, Inhabited

/-- Health counters, detector and latch (07 R210 to R219; 14 Table 14.13). -/
structure Health where
  nan : BitVec 32 := 0  -- HC_NAN 32 (07 R210)
  sat : BitVec 32 := 0  -- HC_SAT 32 (07 R210)
  flush : BitVec 32 := 0  -- HC_FLUSH 32 (07 R210)
  div0 : BitVec 32 := 0  -- HC_DIV0 32 (07 R210)
  xsat : BitVec 32 := 0  -- HC_XSAT 32 (07 R210)
  ue : Bool := false  -- 1 (07 Table 07.11, 05 R160)
  qfault : Bool := false  -- 1 (07 Table 07.11)
  spike : Bool := false  -- 1 (07 R212)
  noLoss : Bool := true  -- 1, no LOSS has run in this step (07 R212)
  nanLoss : Bool := false  -- 1, a LOSS of a NaN loss ran (07 R212)
  latch : Option (BitVec 64 × List (BitVec 32)) := none  -- latched word and counters (07 R215)
  latchMask : BitVec 16 := 0  -- 16, VOTE_MASK that stood at the latch (14 R430)
  latchLsA : BitVec 8 := 0  -- 8, LS_A that stood at the latch (14 R430)
  post : BitVec 5 := 0  -- 5, since the latch: [0] UE, [1] QFAULT, [2] SPIKE, [3] a LOSS ran, [4] NaN loss (07 R219)
  word : BitVec 64 := 0  -- latest latched word (HEALTH) (14 Table 14.13)
  loss : BitVec 64 := 0  -- loss register lq (07 R212)
  lsN : BitVec 32 := 0  -- 32 (07 R213)
  lsMean : BitVec 64 := 0  -- 64 signed (07 R214)
  lsVar : BitVec 128 := 0  -- 128 (07 R214)
  stepsOk : BitVec 64 := 0  -- 64 (07 R219)
  stepsRef : BitVec 64 := 0  -- 64 (07 R219)
  operandLate : BitVec 64 := 0  -- 64 (05 R148)
  lateRest : Nat := 0  -- MODEL'S OWN: quarters of an MCLK of late waits not yet counted (05 R148 (log 6))
  history : List (BitVec 64) := []  -- latched words appended at each commit or refusal (07 R219)
  gc1 : BitVec 64 := 0  -- sum of C1 over slots closed in the step (12 R378)
  gc2 : BitVec 64 := 0  -- sum of C2, mod 2^61 - 1 (12 R378)
  fp : BitVec 64 := 0  -- fingerprint of the step last latched (12 R378)
  spikeRun : Nat := 0  -- consecutive refusals for SPIKE alone (07 R221)
  refusals : Nat := 0  -- refusals of the present step for the present cause (07 Table 07.13)
  cause : Nat := 0  -- row of Table 07.13 of the last refusal, 5 none (07 R221)
  policy : Option (BitVec 3) := none  -- action the refusal policy chose last: 0 substitute, 1 replay, 2 restore, 3 replay with exponents raised, 4 skip (07 R221)
  maskSpike : Bool := false  -- next attempt votes without SPIKE (07 R221)
  relaxLog : List (BitVec 48) := []  -- log of the steps whose next attempt votes without SPIKE (07 R221)
  deriving DecidableEq, Repr, Inhabited

/-- P-class dictionary entries of a partition (14 Tables 14.11 to 14.13). -/
structure PDict where
  mode : BitVec 8 := 0  -- 8 (14 Table 14.11)
  poolConsent : BitVec 8 := 0  -- 8 (14 Table 14.11)
  powerPooled : BitVec 8 := 0  -- 8 (14 Table 14.11)
  powerConsent : BitVec 8 := 0  -- 8 (14 Table 14.11)
  plainStaging : BitVec 8 := 0  -- 8 (14 Table 14.11)
  subwinEn : BitVec 8 := 0  -- 8 (14 Table 14.11)
  subwinBase : BitVec 64 := 0  -- 64 (14 Table 14.11)
  subwinLen : BitVec 64 := 0  -- 64 (14 Table 14.11)
  keyFailCnt : BitVec 32 := 0  -- 32 (14 Table 14.11)
  phaseOp : List (BitVec 8) := [0, 0, 3, 0, 4, 6]  -- 6 entries (14 Table 14.12, 13 R391)
  priority : BitVec 8 := 0  -- 8 (14 Table 14.12, 13 R394)
  buddy : BitVec 16 := 0xFFFF  -- 16 (14 Table 14.12)
  storeQp : BitVec 8 := 0xFF  -- 8 (14 Table 14.12)
  securePeriod : BitVec 32 := 60  -- 32, s (14 Table 14.12)
  secureMin : BitVec 32 := 10  -- 32, s (14 Table 14.12)
  secureShare : BitVec 8 := 10  -- 8 (14 Table 14.12)
  storeShare : BitVec 8 := 10  -- 8 (14 Table 14.12)
  storeRaddr : BitVec 64 := 0  -- 64 (14 Table 14.12)
  storeRkey : BitVec 32 := 0  -- 32 (14 Table 14.12)
  storeGenBytes : BitVec 64 := 0  -- 64 (14 Table 14.12)
  policy : List (BitVec 8) := [0, 1, 2, 3, 4]  -- 5 entries (14 Table 14.12)
  xsatReplays : BitVec 8 := 3  -- 8 (14 Table 14.12)
  spikeRelax : BitVec 8 := 3  -- 8 (14 Table 14.12)
  hcTh : List (BitVec 32) := [0, 0xFFFFFFFF, 0xFFFFFFFF, 0xFFFFFFFF, 0]  -- 5 entries (14 Table 14.13)
  voteMask : BitVec 16 := 0x07FF  -- 16 (14 Table 14.13)
  lsK : BitVec 16 := 0x0600  -- 16 (14 Table 14.13)
  lsA : BitVec 8 := 5  -- 8 (14 Table 14.13)
  lsMin : BitVec 64 := 0  -- 64 (14 Table 14.13)
  lsMax : BitVec 64 := 67108864  -- 64 (14 Table 14.13)
  voteDl : BitVec 16 := 10000  -- 16, 100 us (14 Table 14.13)
  sealTo : BitVec 32 := 500  -- 32, ms (14 Table 14.13)
  gholdT : BitVec 32 := 10000  -- 32, ms (14 Table 14.13)
  iwinFrames : BitVec 32 := 0  -- 32 (14 Table 14.13)
  addr : BitVec 128 := 0  -- 128 (14 Table 14.13)
  mac : BitVec 48 := 0  -- 48 (14 Table 14.13)
  dscp : BitVec 8 := 0  -- 8 (14 Table 14.13)
  vlan : List (Nat × BitVec 16) := []  -- 16 per port (14 Table 14.13)
  deriving DecidableEq, Repr, Inhabited

/-- Queue page registers of a partition (06 Table 06.10). -/
structure QPage where
  event : BitVec 5 := 0  -- Q_EVENT [4:0] (06 Table 06.15)
  eventCnt : List (BitVec 32) := [0, 0, 0, 0, 0]  -- event counters of bits 0 to 4 (06 R186)
  lastFault : BitVec 20 := 0  -- 20 (06 Table 06.10)
  dbDrop : BitVec 64 := 0  -- Q_DB_DROP_CNT (06 Table 06.10)
  armId : BitVec 14 := 0  -- SYNC_ARM_ID (06 R449)
  armVal : BitVec 64 := 0  -- SYNC_ARM_VAL (06 R449)
  armedId : BitVec 14 := 0  -- counter the watch was armed on (06 R449)
  armed : Bool := false  -- the watch (06 R449)
  deriving DecidableEq, Repr, Inhabited

/-- One Oilcloth partition (11 R321). -/
structure Part where
  st : PState := .free  -- state (11 R322)
  alloc : Alloc := {}  -- allotment in force (11 R321)
  staged : Alloc := {}  -- staging entries K.02 to K.07 (14 R427)
  tenantKey : List (BitVec 8) := []  -- 1,952 B or empty (14 Table 14.11)
  dict : PDict := {}  -- P entries (14 Tables 14.11 to 14.13)
  mr3 : List (BitVec 8) := []  -- 64 B (11 R337)
  keys : Keys := {}  -- keys (11 Table 11.5)
  stepNo : BitVec 48 := 0  -- 48 (07 R208)
  backWritten : List Nat := []  -- pages of back ranges written by this step's UPDATE commands (08 R249)
  openPages : List (Nat × OpenPage) := []  -- page records with undefined bytes (07 R207, R220)
  openGen : Nat := 0  -- MODEL'S OWN: times back ranges became undefined (07 R207 (log 4))
  farUnits : List Nat := []  -- 1 GiB far units allotted to it, by allotment unit (05 R127)
  age : BitVec 48 := 0  -- 48 (05 R145)
  promoSeq : BitVec 64 := 0  -- 64 (05 R145)
  pages : List (Nat × PageRec) := []  -- page records (05 R131)
  regions : List (Nat × Region) := []  -- DREGION table, at most 64 (07 R205)
  remap : List (Nat × Nat) := []  -- page to the page record behind it, where a removed pair left another page's (07 R208)
  health : Health := {}  -- health state (07 R210)
  qpage : QPage := {}  -- queue page (06 Table 06.10)
  holder : Option (BitVec 20) := none  -- quiescing command that holds the partition (07 R191)
  moment : Nat := 0  -- MODEL'S OWN: moments counted so far (06 R178 (log 1))
  heldEnd : Nat := 0  -- MODEL'S OWN: moment at which a hold last ended, or the epoch last changed (06 R178 (log 1))
  job : Option Job := none  -- job membership (08 R225)
  nextJob : Option Job := none  -- layout of a JERSEY accepted and not complete (08 R252)
  slots : List (Nat × Slot) := []  -- reduction slots by EPOCH * 2^16 + SLOT_ID (08 R230)
  claims : List Msg := []  -- held claims, at most 64 (08 R237)
  rx : List Msg := []  -- messages delivered and not yet taken (09 R275)
  greqs : List Msg := []  -- gather requests held for a future face (08 R249)
  land : List Land := []  -- what has landed and waits for its LSEAL (08 R245, R246)
  vote : Option Vote := none  -- vote in progress (08 R251)
  coll : List (Nat × BitVec 64) := []  -- 11 collective counters of 64 (08 R255)
  xfer : List (Nat × BitVec 64) := []  -- 9 transport counters of 64 (14 Table 14.13)
  rsigDrop : BitVec 64 := 0  -- RSIGNALs dropped (06 R184)
  frames : List (Nat × BitVec 64) := []  -- TX/RX frame counters by port * 8 + n (09 R265)
  ethRx : List (Nat × List (BitVec 8)) := []  -- frames in the receive buffers, with their port (09 R261)
  conns : List (Nat × Conn) := []  -- connections by rank (09 R270)
  reasm : List Reasm := []  -- reassembly records, at most 4,096 (09 R275)
  ent : BitVec 12 := 0  -- path entropy counter (09 R281)
  rr : List (Nat × Nat) := []  -- port whose turn it is, by axis (09 R281)
  deficit : List (Nat × Nat) := []  -- bytes a port may still carry in its turn (09 R281)
  xslots : List (Nat × XftSlot) := []  -- 4 XFT key slots (09 R272)
  sendSlot : Option Nat := none  -- send slot (11 R336)
  nextSlots : List (Nat × BitVec 48 × Bool) := []  -- loaded slots, their switch steps and whether loaded in a substitution (11 R336)
  qps : List (Nat × Qp) := []  -- 256 RoCEv2 queue pairs (09 R286)
  roceTx : List RoceOut := []  -- what its queue pairs have sent (09 R282)
  drain : Option Drain := none  -- securing drain (12 R371)
  secAt : Option (BitVec 48) := none  -- announced securing step (12 R368)
  secWait : Bool := false  -- a SECREQ waits for the drain in flight (12 R368)
  lastBoundary : BitVec 48 := 0  -- step of the last boundary secured (12 R368)
  boundaryTime : Nat := 0  -- AONCLK of the last boundary (12 R368)
  snapshot : Option Snapshot := none  -- securing reserve (12 R369)
  secRecs : List SecRec := []  -- records of copies this partition holds for others (12 R375)
  ownRecs : List SecRec := []  -- records of this partition's copies (12 R373)
  secOk : List (BitVec 48) := []  -- the two newest SECOK steps (12 R373)
  secDone : List (BitVec 48 × BitVec 16) := []  -- SECDONE received, as coordinator (12 R373)
  secGen : Bool := false  -- generation the next drain writes (12 R375)
  streamPos : List (Nat × (BitVec 48 × BitVec 16)) := []  -- STEP and MB last issued per stream key (12 Table 12.6)
  planCursor : BitVec 512 := 0  -- data and plan cursor (12 Table 12.6)
  restoreFailed : Bool := false  -- RESTORE_FAILED in its telemetry (12 Table 12.8)
  substituting : Bool := false  -- a substitution is in progress (11 R336, 12 R381)
  restores : Nat := 0  -- restores tried of the present failure (12 R379)
  verify : Option (BitVec 64) := none  -- FP that the step replayed after a restore must reach (12 R379)
  fetch : List (BitVec 48) := []  -- front-face pages to fetch from the buddy before the replay (12 R382)
  snapAgain : Bool := false  -- the snapshot is taken again at the next boundary (12 R382)
  subAsked : List (BitVec 16 × Bool) := []  -- substitutions asked for: rank, and whether planned (12 R367, R381)
  silent : List (BitVec 16) := []  -- ranks that do not answer (12 R368)
  handing : Option (BitVec 16 × List Nat) := none  -- this member hands its state to the standby: the rank, and the page records still to send (12 Table 12.9)
  handed : List (List (BitVec 8)) := []  -- what has been handed to the standby: pages, then the snapshot (12 Table 12.9)
  plans : List (List (BitVec 8)) := []  -- step plans that came by commands which passed R340 (11 R342)
  planned : Nat := 0  -- commands of the step service issued under them (11 R342)
  estimates : List Nat := []  -- the last ten 1 ms estimates, mW, newest first (13 R393, R394)
  events : List EventRec := []  -- its own ring of 256 records (12 R384)
  opCap : Nat := 0  -- slowest point the cap sets (13 R394)
  memPace : Nat := 16  -- sixteenths (13 R394)
  linkPace : Nat := 16  -- sixteenths (13 R394)
  deriving DecidableEq, Repr, Inhabited

/-- One vector core (04 R96, Table 04.1). -/
structure Vc where
  tiles : List (Nat × BitVec 32768) := []  -- T0 to T31, 4 KiB each (04 R96)
  tags : List (Nat × BitVec 512) := []  -- 32 row tags of 16 bit per tile (absent: 0x007F each) (04 R96)
  preds : List (Nat × BitVec 4096) := []  -- P0 to P7 (04 R96)
  aregs : List (Nat × BitVec 48) := []  -- A0 to A15 (04 R96)
  prog : List (BitVec 64) := []  -- program buffer, at most 2,048 (04 R96)
  pc : Nat := 0  -- instruction index (04 R95)
  run : Option (BitVec 20 × BitVec 24) := none  -- the vector command it runs: queue and ring index (04 R95)
  ended : Bool := false  -- it has reached END (04 R118)
  inbox : List DrainWrite := []  -- drain writes waiting (04 R99)
  freed : Nat := 0  -- MODEL'S OWN: moment at which its last vector command left it (06 R171, R178 (log 1))
  deriving DecidableEq, Repr, Inhabited

/-- An output tile that waits in an MU's queue (03 R58, R88). -/
structure TileJob where
  quad : Nat := 0  -- quad, 0 in Full mode (03 R58)
  q : BitVec 20 := 0  -- its command's queue (03 R88)
  idx : BitVec 24 := 0  -- its command's ring index (03 R88)
  t : Nat := 0  -- tile number (03 R88)
  deriving DecidableEq, Repr, Inhabited

/-- What a plane records of the block loaded into it (03 R63, R80). -/
structure PlaneInfo where
  exps : List (List Int) := []  -- element exponents eb(n, g), by column and scale group (03 R63)
  nan : BitVec 32 := 0  -- NaN flag of each column (03 R63, R71)
  uns : Bool := false  -- pieces are unsigned (03 R63)
  side : List (Nat × List Int) := []  -- B rows of the block's Pinstripe channels, by K index (03 R80)
  rows : Nat := 0  -- cube rows loaded ahead of the tile that waits (03 R63, R64)
  deriving DecidableEq, Repr, Inhabited

/-- One matrix unit with feeder, drain and side unit (03 R57). -/
structure Mu where
  quad : Bool := false  -- mode: Full or Quad (03 R58)
  cubes : List (Nat × BitVec 512) := []  -- stationary block of each cube, by (plane * 8 + cube row) * 8 + cube column (03 R57, R58, R63)
  info : List (Nat × PlaneInfo) := []  -- what each plane records beside its blocks, by quad * 2 + plane; Full mode is quad 0 (03 R63)
  next : BitVec 4 := 0  -- plane that the next block of each quad goes to (03 R64, Table 03.2)
  credits : BitVec 32 := 0xFFFFFFFF  -- plane credits by (plane * 8 + cube row) * 2 + half of the grid (03 R64)
  bufs : BitVec 8 := 0xFF  -- drain buffer credits by quad * 2 + buffer (03 R66)
  queue : List TileJob := []  -- output tiles waiting, in order (03 R58, R88)
  deriving DecidableEq, Repr, Inhabited

/-- One update pipe's machine (07 R196): registers x0 to x7 of each element of the group of 128 it holds. -/
structure Pipe where
  regs : List (List (Int × Int)) := []  -- elements of the group held, 8 registers (n, q) each (07 R196)
  nans : List Bool := []  -- which elements are NaN (07 R199)
  code : BitVec 8 := 0  -- master row code of the group's row (07 R196)
  hps : List (Int × Int) := []  -- h0 to h7 as (MANT, EXP) (07 R195)
  row : Nat := 0  -- row of the group (07 R196)
  col : Nat := 0  -- first column of the group (07 R196)
  part : Nat := 0  -- partition of the command (07 R192)
  qid : BitVec 20 := 0  -- queue of the UPDATE (07 R192)
  idx : BitVec 24 := 0  -- its ring index (07 R192)
  cmd : BitVec 512 := 0  -- the UPDATE (07 R192)
  desc : BitVec 1024 := 0  -- its descriptor (07 R193)
  deriving DecidableEq, Repr, Inhabited

/-- One slice's clocks (13 R389). -/
structure Slice where
  op : BitVec 3 := 7  -- operating point (13 R389)
  phase : BitVec 3 := 5  -- declared phase (07 R222)
  throttle : Nat := 0  -- the point heat holds it at or slower, 0 for none (13 R399)
  heating : Bool := false  -- 95 C was reached and not every sensor has read 92 C or below since (13 R399)
  droop : Bool := false  -- clocks stretched (13 R396)
  lowerWait : Bool := false  -- a rail lowering waits for 1 us after the droop (13 R397)
  droopEnd : Option Nat := none  -- AONCLK at which the last droop cleared, kept for 1 us (13 R397)
  change : Option (BitVec 3) := none  -- change in progress: target (13 R392)
  locking : Bool := false  -- idle synthesiser relocking (13 R392)
  owner : Option Nat := none  -- partition index that holds it (11 R321)
  leaving : Bool := false  -- removed by a resize in progress (11 R325)
  deriving DecidableEq, Repr, Inhabited

/-- One C-die's rail and stepping (13 R390, R398). -/
structure Die where
  rail : Nat := 850  -- mV commanded (13 R388)
  trim : Int := 0  -- mV, ageing trim, kept in flash (13 R398)
  slack24 : Nat := 0  -- hours of slack above target (13 R398)
  barred : Bool := false  -- barred from OP0 (13 R398)
  strap : BitVec 3 := 0  -- sampled ORIENT, POS[1:0] (01 R11)
  edge : BitVec 2 := 0  -- hub edge and half its link arrives on (01 R12)
  step : BitVec 8 := 0xB0  -- stepping it reports (00 R5)
  deriving DecidableEq, Repr, Inhabited

/-- A logical block: what stands behind it (12 R352). -/
structure Block where
  site : Option Nat := none  -- physical site of the spare standing in (12 R352)
  fenced : Bool := false  -- its own block is fenced (12 R352)
  absent : Bool := false  -- no block behind it (12 R354)
  due : Bool := false  -- a takeover waits for its takeover point (12 R352)
  testing : Bool := false  -- lent for self-test (12 R358)
  lastPart : Nat := 0  -- partition the spare last served (01 R19)
  loan : Bool := false  -- its site is a spare borrowed for a test (12 R358)
  under : Option Nat := none  -- the spare in service that is under test (12 R357)
  deriving DecidableEq, Repr, Inhabited

/-- One Serge module (12 R360). -/
structure SergeMod where
  lost : Nat := 0  -- lanes failed (12 R361)
  swapped : List Nat := []  -- lanes replaced by spares (12 R361)
  warned : List Nat := []  -- lanes below the warning level (12 R360)
  fenced : Bool := false  -- 1 (12 R362)
  replays : List (Nat × Nat) := []  -- lane and AONCLK of each replay of the last 1 s (12 R361)
  deriving DecidableEq, Repr, Inhabited

/-- One Ethernet port and its MAC (09 R257, R261; 14 Table 14.9). Port 16 is M. -/
structure Port where
  mode : BitVec 8 := 0  -- MODE (14 Table 14.9)
  axis : BitVec 8 := 0  -- AXIS (14 Table 14.9)
  maxFrame : BitVec 16 := 9216  -- MAXFRAME (14 Table 14.9)
  nextHop : BitVec 48 := 0xFFFFFFFFFFFF  -- NEXTHOP (14 Table 14.9)
  stepEn : BitVec 8 := 1  -- STEP_EN (14 Table 14.9)
  floor : Option (BitVec 8) := none  -- FLOOR; none: one rung below MODE (14 Table 14.9)
  stepHold : BitVec 32 := 2000  -- STEP_HOLD (14 Table 14.9)
  eeeEn : BitVec 8 := 0  -- EEE_EN (14 Table 14.9)
  startRung : BitVec 8 := 1  -- START_RUNG (14 Table 14.9, 09 R264)
  st : BitVec 8 := 0  -- STATE (14 Table 14.9)
  cur : BitVec 8 := 0  -- mode in force (stepped or not) (09 R266)
  base : BitVec 8 := 0  -- mode that its last reset trained (09 R266, 13 R404)
  filters : List (Nat × (Bool × BitVec 48)) := []  -- entries 16 to 19 of the receive filter (09 Table 09.2)
  counters : List (Nat × BitVec 64) := []  -- 13 counters of 64 (09 R265)
  ctrlRate : Nat := 0  -- control frames in the present second (09 R261)
  losses : List Nat := []  -- AONCLK of the link losses in the last 10 min (12 R364)
  upSince : Nat := 0  -- AONCLK of the last link-up (09 R266)
  lastStep : Nat := 0  -- AONCLK of the last step (09 R266)
  partnerStep : Bool := false  -- partner advertises step-down (09 R266)
  partnerEee : Bool := false  -- partner negotiates EEE (09 R268)
  wake : Nat := 0  -- negotiated wake time, ns (09 R268)
  lpi : Bool := false  -- in low-power idle (09 R268)
  wakeAt : Option Nat := none  -- AONCLK at which the wake time of a queued frame has passed (09 R268)
  lpiHeld : List (List (BitVec 8)) := []  -- frames queued in low-power idle (09 R268)
  deferred : List (Nat × BitVec 8) := []  -- writes that wait for the retrain (14 R426)
  ctrlRx : List (Bool × List (BitVec 8)) := []  -- frames for the control complex, with their OVERSIZE mark (09 R261)
  deriving DecidableEq, Repr, Inhabited

/-- One P-die as the firewall sees it (11 R346). -/
structure Pdie where
  drops : BitVec 64 := 0  -- PDIE_FW_DROP (11 R346)
  window : List Nat := []  -- AONCLK of each drop of the last 1 s (11 R346)
  fenced : Bool := false  -- 1 (11 R346)
  rdata : List (BitVec 8) := []  -- bytes its last refused read returned (11 R346)
  deriving DecidableEq, Repr, Inhabited

/-- A Cerral message: header slot fields (10 Table 10.5) and data. -/
structure ClMsg where
  ch : BitVec 2 := 0  -- 2 (10 Table 10.5)
  opc : BitVec 6 := 0  -- 6 (10 Table 10.5)
  len : BitVec 3 := 0  -- 3 (10 Table 10.5)
  tag : BitVec 16 := 0  -- 16 (10 Table 10.5)
  rdom : BitVec 5 := 0  -- 5 (10 Table 10.5)
  status : BitVec 4 := 0  -- 4 (10 Table 10.5)
  qmask : BitVec 8 := 0  -- 8 (10 Table 10.5)
  addr : BitVec 64 := 0  -- 64 (10 Table 10.5)
  data : List (BitVec 8) := []  -- 64 * LEN bytes (10 R296)
  deriving DecidableEq, Repr, Inhabited

/-- What an outstanding request of the device's Cerral interface is for (10 R298). -/
inductive ReqFor where
  | none
  | ring (line rdom : Nat)
  | own (line rdom mask : Nat) (data : BitVec 512)
  | record (q : BitVec 20) (idx : BitVec 24)
  | aborted (q : BitVec 20) (idx : BitVec 24) (cmd : BitVec 512)
  | irq (v : Nat)
  | cxferRead (q : BitVec 20) (idx : BitVec 24) (off n : Nat)
  | cxferWrite (q : BitVec 20) (idx : BitVec 24)
  | evict (line : Nat)
  deriving DecidableEq, Repr, Inhabited

/-- A line of the Cerral cache (10 R306). -/
structure CacheLine where
  st : LineSt := .invalid  -- M, E, S or I (10 R306)
  data : BitVec 512 := 0  -- 64 B (10 R306)
  rdom : BitVec 5 := 0  -- 5, domain it was read under (11 R326)
  deriving DecidableEq, Repr, Inhabited

/-- A coherent transaction in progress at the home (10 R308). -/
structure HomeTx where
  tag : BitVec 16 := 0  -- tag of its snoop (10 R298)
  line : Nat := 0  -- window line (10 R308)
  req : Option ClMsg := none  -- the request served after the snoop (none: a device access) (10 R307)
  inv : Bool := false  -- SNP_INV was sent (else SNP_SHARE) (10 R307)
  evp : Bool := false  -- waits for the eviction too (10 R309)
  comp : Bool := false  -- for an uncached request of the companion, else for a unit of the device (10 R307, R308)
  evicted : Bool := false  -- an eviction of the line has arrived (10 R309)
  done : Bool := false  -- complete; the device access it was for has not run yet (10 R308)
  deriving DecidableEq, Repr, Inhabited

/-- The Cerral Link controller (10). -/
structure Link where
  st : BitVec 2 := 0  -- CL_STATUS state: 0 DOWN, 1 TRAINING, 2 ACTIVE (10 Table 10.11)
  forerunner : Bool := false  -- CL_STATUS mode (10 Table 10.11)
  width : BitVec 2 := 0  -- CL_STATUS width (10 Table 10.11)
  lane0 : Nat := 0  -- lowest lane of the half or group in use (10 R291)
  offered : List Nat := []  -- credit grants the device gave in training by CHN * 2 + KIND (10 R291, Table 10.7)
  grant : List Nat := []  -- credit grants the companion gave in training by CHN * 2 + KIND (10 R291, Table 10.7)
  pstate : BitVec 3 := 0  -- CL_STATUS power state (10 Table 10.12)
  event : BitVec 6 := 0  -- CL_EVENT (10 Table 10.11)
  eventCnt : List (BitVec 32) := [0, 0, 0, 0, 0, 0]  -- its event counters (10 Table 10.11)
  counters : List (Nat × BitVec 64) := []  -- 10 link counters of 64 (14 Table 14.10)
  forceFr : BitVec 8 := 0  -- FORCE_FR (14 Table 14.10)
  stallT : BitVec 32 := 1000  -- CL_STALL_T (14 Table 14.10)
  idleT : BitVec 32 := 100  -- LINK_IDLE_T (14 Table 14.10)
  symTh : BitVec 32 := 1000  -- SYM_TH (14 Table 14.10)
  txFsn : BitVec 10 := 0  -- next FSN to send (10 R302, R318)
  rxFsn : BitVec 10 := 0  -- next FSN expected (10 R302, R318)
  replay : List (BitVec 10 × List (BitVec 8)) := []  -- payload flits kept, at most 512 (10 R302)
  rxUnacked : Nat := 0  -- payload flits received since the last ACK (10 R302)
  naking : Bool := false  -- discarding until the expected flit (10 R302)
  nakSame : Nat := 0  -- NAKs received for one FSN without progress (10 R302)
  nakFsn : BitVec 10 := 0  -- FSN of the last NAK received (10 R302)
  partSlots : List (BitVec 128) := []  -- slots of the held partial message (10 R303)
  slots : List (BitVec 128) := []  -- link slots received and not yet taken (10 R300)
  rx : List ClMsg := []  -- messages received and not yet taken (10 R296)
  tx : List ClMsg := []  -- messages to send (10 R296)
  sent : List (List (BitVec 8)) := []  -- flits sent, oldest first, 256 B each (10 R293)
  freed : List (Nat × BitVec 32) := []  -- credits freed since training by CHN * 2 + KIND (10 R300)
  freedSent : List (Nat × BitVec 32) := []  -- counts last sent (10 R300)
  grants : List (Nat × BitVec 32) := []  -- companion's cumulative freed counts by CHN * 2 + KIND (10 R300)
  used : List (Nat × BitVec 32) := []  -- credits used since training (10 R300)
  retraining : Bool := false  -- a retrain keeps the replay state (10 R292)
  pmAsked : Option (BitVec 4) := none  -- PM_REQ sent and not answered (10 R318)
  reqs : List (Nat × ReqFor) := []  -- outstanding requests by TAG (10 R298)
  nextTag : BitVec 16 := 0  -- next TAG (10 R298)
  cache : List (Nat × CacheLine) := []  -- Cerral cache by companion line, 8 MiB (10 R306)
  dir : List (Nat × Bool) := []  -- directory, oldest first: window line, O (else S) (10 R307)
  home : List HomeTx := []  -- coherent transactions in progress (10 R308)
  homeWait : List ClMsg := []  -- requests waiting behind them (10 R308)
  bootOpen : Bool := false  -- the boot region answers (10 R320)
  boot : List (Nat × BitVec 8) := []  -- boot region bytes by offset (10 R319)
  deriving DecidableEq, Repr, Inhabited

/-- Interrupt vector entry (10 R313). -/
structure IVec where
  addr : BitVec 64 := 0  -- 64 (10 R313)
  data : BitVec 32 := 0  -- 32 (10 R313)
  pend : Bool := false  -- 1 (10 R313)
  mask : Bool := true  -- 1 (10 R313)
  inFlight : Bool := false  -- its write has not completed (10 R314)
  deriving DecidableEq, Repr, Inhabited

/-- One mailbox page (10 R315). -/
structure Mailbox where
  req : List (Nat × BitVec 8) := []  -- request bytes 0x000 to 0x7EF (10 R315)
  busy : Bool := false  -- 1 (10 R315)
  ready : Bool := false  -- RSP_READY (10 R315)
  readyCnt : BitVec 32 := 0  -- event counter of RSP_READY (06 R186, 10 R315)
  rspLen : BitVec 16 := 0  -- 16 (10 R315)
  rsp : List (BitVec 8) := []  -- response frame (10 R315)
  frags : List (List (BitVec 8)) := []  -- response fragments still to be written (14 R411)
  deriving DecidableEq, Repr, Inhabited

/-- A subscription (14 R420). -/
structure Sub where
  index : BitVec 16 := 0  -- 16 (14 R420)
  sub : BitVec 8 := 0  -- 8 (14 R420)
  periodic : Bool := false  -- mode (14 R420)
  period : BitVec 16 := 0  -- ms (14 R420)
  lastVal : List (BitVec 8) := []  -- value last sent (14 R420)
  sentAt : Nat := 0  -- AONCLK of the last send (14 R420)
  deriving DecidableEq, Repr, Inhabited

/-- A client of port M: the addresses its frames come from (09 R288; 14 R410). -/
structure RolPeer where
  mac : BitVec 48 := 0  -- 48 (09 R288)
  v4 : Bool := false  -- IPv4 (09 R288)
  addr : BitVec 128 := 0  -- 128, in network order (09 R288)
  udp : BitVec 16 := 0  -- UDP port (09 R288)
  deriving DecidableEq, Repr, Inhabited

/-- A Rolser session (14 R412, R413). -/
structure Session where
  role : Nat := 0  -- role code 0 to 18 (14 R413)
  mbox : Option Nat := none  -- mailbox it was opened from, none: port M (14 R412)
  peer : RolPeer := {}  -- where port M reaches its client (09 R288)
  opened : Bool := false  -- AUTH accepted (14 R413)
  transcript : List (BitVec 8) := []  -- T, 64 B (14 R413)
  keyIn : List (BitVec 8) := []  -- client-to-device key (14 R413)
  keyOut : List (BitVec 8) := []  -- device-to-client key (14 R413)
  lastSeq : BitVec 64 := 0  -- last accepted SEQ (14 R417)
  kept : List (List (BitVec 8)) := []  -- frames of the kept response (14 R417)
  subs : List Sub := []  -- at most 64 (14 R420)
  events : List (BitVec 64 × List (BitVec 8) × Nat) := []  -- events unacknowledged or queued, with resends (14 R420)
  evSeq : BitVec 64 := 0  -- event number (14 Table 14.1)
  lost : Bool := false  -- LOST for the next EVENT (14 R420)
  qpSel : BitVec 8 := 0  -- QP_SEL (14 R430)
  deriving DecidableEq, Repr, Inhabited

/-- A complete Rolser message, reassembled and unprotected (14 R411, R414). -/
structure RolMsg where
  sid : BitVec 32 := 0  -- 32 (14 Table 14.1)
  seq : BitVec 64 := 0  -- 64 (14 Table 14.1)
  kind : BitVec 8 := 0  -- 8 (14 Table 14.1)
  mbox : Option Nat := none  -- mailbox it came by, none: port M (14 R411)
  peer : RolPeer := {}  -- who sent it over port M (09 R288)
  payload : List (BitVec 8) := []  -- bytes (14 R411)
  deriving DecidableEq, Repr, Inhabited

/-- A message being reassembled (14 R411). -/
structure Frag where
  sid : BitVec 32 := 0  -- 32 (14 R411)
  seq : BitVec 64 := 0  -- 64 (14 R411)
  kind : BitVec 8 := 0  -- 8 (14 R411)
  mbox : Option Nat := none  -- source (14 R411)
  peer : RolPeer := {}  -- who sent it over port M (09 R288)
  nfrag : Nat := 0  -- NFRAG (14 R411)
  parts : List (Nat × List (BitVec 8)) := []  -- fragments (14 R411)
  deriving DecidableEq, Repr, Inhabited

/-- Rolser endpoint (14). -/
structure Rolser where
  sessions : List (Nat × Session) := []  -- sessions by SID (14 R412)
  frags : List Frag := []  -- messages being reassembled (14 R411)
  msgs : List RolMsg := []  -- complete messages waiting (14 R418)
  out : List (List (BitVec 8)) := []  -- frames sent by port M (14 R413)
  nextSid : BitVec 32 := 1  -- next SID (14 R413)
  helloSec : Nat := 0  -- HELLOs answered in the present second (14 R415)
  badFrame : BitVec 64 := 0  -- ROL_BAD_FRAME (14 Table 14.7)
  authFail : BitVec 64 := 0  -- ROL_AUTH_FAIL (14 Table 14.7)
  seqDrop : BitVec 64 := 0  -- ROL_SEQ_DROP (14 Table 14.7)
  helloDrop : BitVec 64 := 0  -- ROL_HELLO_DROP (14 Table 14.7)
  idleT : BitVec 32 := 300  -- SESSION_IDLE_T (14 Table 14.7)
  mgmtIf : BitVec 8 := 0  -- MGMT_IF (14 Table 14.7)
  mgmtIfSet : Bool := false  -- MGMT_IF has been written, so flash holds it (14 Table 14.7)
  mgmtMac : BitVec 48 := 0  -- MGMT_MAC, fused (14 Table 14.7)
  mgmtAddr : BitVec 128 := 0x000000FEFF00000200000000000080FE  -- MGMT_ADDR (14 Table 14.7)
  mgmtPrefix : BitVec 8 := 64  -- MGMT_PREFIX (14 Table 14.7)
  mgmtGw : BitVec 128 := 0  -- MGMT_GW (14 Table 14.7)
  phyMdio : BitVec 8 := 0  -- PHY_MDIO (14 Table 14.7)
  mdio : List (BitVec 64) := []  -- MDIO frames the device has sent to the PHY (09 R288)
  phySpeed : Nat := 0  -- speed code read from SGMII in-band status (09 R288)
  deriving DecidableEq, Repr, Inhabited

/-- Life cycle, fuses, keys and measurements (11). -/
structure Trust where
  lcs : BitVec 8 := 0  -- LCS: 0 BLANK, 1 PROVISIONED, 2 SEALED, 3 RMA, 4 DECOMMISSIONED (11 R348)
  rmaCount : Nat := 0  -- times RMA was entered (11 R348)
  serial : BitVec 128 := 0  -- SERIAL (11 Table 11.6)
  drs : Option (List (BitVec 8)) := none  -- DRS, 256 bit, none before fusing (11 Table 11.5)
  drsKilled : Bool := false  -- kill fuse (11 Table 11.12)
  idkSigns : Bool := false  -- IDK usable (11 Table 11.5)
  idkPub : List (BitVec 8) := []  -- IDK public key (14 Table 14.7)
  idkCert : List (BitVec 8) := []  -- certificate of IDK (14 Table 14.7)
  soKey : List (BitVec 8) := []  -- SO_KEY (14 Table 14.7)
  operatorKey : List (BitVec 8) := []  -- OPERATOR_KEY (14 Table 14.7)
  fieldKey : List (BitVec 8) := []  -- FIELD_KEY (14 Table 14.7)
  ownerDigest : List (BitVec 8) := []  -- OWNER_DIGEST (empty: zero) (14 Table 14.7)
  ownerKey : List (BitVec 8) := []  -- owner key enrolled (11 Table 11.12)
  svn : BitVec 32 := 0  -- SVN in force (14 Table 14.7)
  svnFuse : BitVec 32 := 0  -- SVN_FUSE (14 Table 14.7)
  fwVersion : List (BitVec 8) := []  -- FW_VERSION (14 Table 14.7)
  bootCount : BitVec 64 := 0  -- BOOT_COUNT (14 Table 14.7)
  mr0 : List (BitVec 8) := []  -- MR0, 64 B (empty: zero) (11 R337)
  mr1 : List (BitVec 8) := []  -- MR1 (11 R337)
  mr2 : List (BitVec 8) := []  -- MR2 (11 R337)
  pdieDigest : List (BitVec 8) := []  -- PDIE, 64 B (11 Table 11.6)
  fwLimit : BitVec 16 := 16  -- PDIE_FW_LIMIT (14 Table 14.7)
  rmaNonce : List (BitVec 8) := []  -- RMA_NONCE drawn last (14 Table 14.7)
  feedOverride : BitVec 8 := 0xFF  -- FEED_OVERRIDE (14 Table 14.7)
  coFatedAllow : BitVec 8 := 0  -- CO_FATED_ALLOW (14 Table 14.7)
  deriving DecidableEq, Repr, Inhabited

/-- Start-up state and straps (13 R406, 15 R441). -/
structure Boot where
  state : BitVec 8 := 0x01  -- HUB_BOOT_STATUS.STATE (13 Table 13.6)
  tMs : BitVec 16 := 0  -- T_MS (13 Table 13.6)
  imageBad : Bool := false  -- CP_IMAGE_BAD (13 Table 13.6)
  identity : BitVec 64 := 0x4E4D07_5401A1B000  -- HUB_IDENTITY (00 R4, Table 00.1)
  slotId : BitVec 8 := 0  -- SLOT_ID strap (15 R441)
  feedId : BitVec 4 := 0  -- FEED_ID strap (15 R441)
  bootSrc : BitVec 2 := 0  -- BOOTSRC strap (15 R441)
  romDone : Bool := false  -- ROM stage ended (13 Table 13.5)
  nearTrained : Bool := false  -- Serge and near DRAM training ended (13 Table 13.5)
  farTrained : Bool := false  -- LPDDR6 training ended (13 Table 13.5)
  nearBist : Bool := false  -- near BIST ended and the device reserve wiped (13 Table 13.5)
  bistDone : Bool := false  -- BIST of the compute and far lanes ended (13 Table 13.5)
  wiped : Bool := false  -- wipes ended (13 Table 13.5)
  calibrated : Bool := false  -- power coefficients calibrated, kept until PORST_N (13 R393)
  calib : Nat := 0  -- MODEL'S OWN: calibrations made; the coefficients are those of the last (13 R393 (log 15))
  stored : Bool := false  -- memory training results stored (13 R405)
  everReady : Bool := false  -- READY reached since PORST_N (15 R443)
  clocksOff : Bool := false  -- every clock but AONCLK stopped (13 R401, R403)
  deriving DecidableEq, Repr, Inhabited

/-- Pins (13 Table 13.7, 15). -/
structure Pins where
  porstN : Bool := true  -- input (15 R442)
  sysrstN : Bool := true  -- input (15 R442)
  cprstN : Bool := false  -- output (13 Table 13.7)
  cprstUp : Option Nat := none  -- AONCLK at which an operator's pulse on CPRST_N ends (10 R320)
  alertN : Bool := true  -- output (13 Table 13.7)
  hotstopN : Bool := true  -- output (13 Table 13.7)
  thermtripN : Bool := true  -- output (13 Table 13.7)
  trstN : Bool := true  -- input (15 R445)
  pmbAlertN : Bool := true  -- input (15 R444)
  refSys : Bool := true  -- REFCLK_SYS present (13 R403)
  refCl : Bool := true  -- REFCLK_CL present (13 R403)
  refNet0 : Bool := true  -- REFCLK_NET0 present (13 R403)
  refNet1 : Bool := true  -- REFCLK_NET1 present (13 R403)
  tap : TapInstr := .bypass  -- instruction in the test access port (15 R445)
  lands : TapInstr := .bypass  -- instruction in effect on the lands (15 R445)
  deriving DecidableEq, Repr, Inhabited

/-- Power manager (13). -/
structure Power where
  cap : BitVec 16 := 950  -- CAP (14 Table 14.8)
  power : BitVec 16 := 0  -- PM_POWER, 0.1 W (13 Table 13.8)
  samples : List (Nat × Nat) := []  -- package power (mW) by AONCLK count, newest first, of the last 1 s (13 R388, R395, Table 13.8)
  overCap : Bool := false  -- PM_ALERT.OVER_CAP (13 Table 13.9)
  regFault : Bool := false  -- PM_ALERT.REG_FAULT (13 Table 13.9)
  evacuate : Bool := false  -- PM_ALERT.EVACUATE (13 Table 13.9)
  hotstop : Bool := false  -- PM_ALERT.HOTSTOP (13 Table 13.9)
  bootFail : Bool := false  -- PM_ALERT.BOOT_FAIL (13 Table 13.9)
  throttled : Bool := false  -- PM_STATUS thermal 1 (13 Table 13.8)
  ageLimit : Bool := false  -- PM_STATUS.AGE_LIMIT (13 Table 13.8)
  alertMask : BitVec 8 := 0  -- ALERT_MASK (14 Table 14.8)
  pmbusAddr : List (BitVec 8) := [0x40, 0x41, 0x42, 0x43, 0x44, 0x45, 0x46, 0x47, 0x48, 0x49]  -- PMBUS_ADDR of ten rails (14 Table 14.8)
  rails : List (Nat × (Nat × Nat)) := []  -- last voltage (mV) and current (mA) read of each rail (13 R388)
  temps : List (Nat × BitVec 8) := []  -- sensors, 0xFF unavailable (14 Table 14.8)
  coolSince : Option Nat := none  -- second since which every sensor reads 95 or below (13 R400)
  heatLog : List (Nat × Nat × Nat) := []  -- log of thermal steps: time, slice, steps in force (13 R399)
  ageLog : List (Nat × Nat × Nat × Int) := []  -- AGE_LOG: time, die, point, trim (13 R398)
  regStatus : BitVec 16 := 0  -- regulator status word read last (15 R444)
  deriving DecidableEq, Repr, Inhabited

/-- Fence list, spares, risk (12). -/
structure Ripstop where
  units : List (Nat × Block) := []  -- logical blocks by class * 2^16 + die * 2^12 + index (12 R352)
  fenceList : List (Nat × Nat × Nat) := []  -- fence list in flash: die, class, site (12 R356)
  fenceClear : List (Nat × Nat × Nat) := []  -- entries to clear at the next device reset (12 R356)
  usedSpares : List (Nat × Nat × Nat) := []  -- spares in use: die, class, site (12 R353)
  testNext : List (Nat × Nat) := []  -- next block of each rotation, by class * 4 + die (12 R357)
  paused : List Nat := []  -- rotations paused (12 R359)
  warm : Nat := 0  -- warm-up term (12 R366)
  risk : BitVec 16 := 30000  -- RISK (14 Table 14.8)
  secureTh : BitVec 16 := 20000  -- SECURE_TH (14 Table 14.8)
  evacTh : BitVec 16 := 50000  -- EVAC_TH (14 Table 14.8)
  buckets : List (Nat × List Nat) := []  -- 64 buckets of each windowed class, newest first (12 R366)
  pers : List (Nat × Nat) := []  -- conditions that hold, per persistent class (12 R365)
  upSec : Nat := 0  -- seconds since start-up completed (12 R366)
  ring : List EventRec := []  -- event ring of 4,096, newest first (12 R383)
  rowErrs : List (Nat × List Nat) := []  -- seconds of the corrected errors of a near row (05 R157)
  rowMoved : List Nat := []  -- near rows remapped (05 R157)
  farRetries : List (Nat × (Nat × Nat)) := []  -- failures in a row of one access of a far channel: its row, how many (05 R157)
  patrol : List (Nat × Nat) := []  -- patrol position by tier (05 R158)
  mirrors : List Nat := []  -- SRAM banks being mirrored (12 Table 12.1)
  lockstepErr : Nat := 0  -- lockstep mismatches (12 R352)
  deriving DecidableEq, Repr, Inhabited

/-- Transport parameters (14 Table 14.10). -/
structure Xft where
  udp : BitVec 16 := 48720  -- XFT_UDP (14 Table 14.10)
  rtoInit : BitVec 32 := 100  -- us (09 Table 09.8)
  rtoMin : BitVec 32 := 20  -- us (09 Table 09.8)
  rtoMax : BitVec 32 := 50000  -- us (09 Table 09.8)
  reasmTo : BitVec 32 := 4000000  -- us (09 Table 09.8)
  deadT : BitVec 32 := 10000000  -- us (09 Table 09.8)
  iw : BitVec 32 := 524288  -- B (09 Table 09.8)
  cwndMax : BitVec 32 := 16777216  -- B (09 Table 09.8)
  ai : BitVec 32 := 65536  -- B (09 Table 09.8)
  delayTgt : BitVec 32 := 4  -- us (09 Table 09.8)
  deriving DecidableEq, Repr, Inhabited

/-- The XT4 as a block. -/
structure State where
  pending : List Instr := []  -- commands waiting, first in first out ((the row's cut))
  now : BitVec 64 := 0  -- AONCLK count since device reset (12 Table 12.11)
  draws : Nat := 0  -- MODEL'S OWN: draws taken from the random source so far (11 R324 (log 2))
  mem : List Host.Cell := []  -- SRAM, near and far bytes (05 R125)
  ctrs : List (Nat × BitVec 64) := []  -- 16,384 sync counters of 64 (06 R182)
  queues : List (Nat × QCtx) := []  -- 1,048,576 queue contexts (06 R161)
  parts : List (Nat × Part) := []  -- 16 partitions (11 R321)
  vcs : List (Nat × Vc) := []  -- 64 vector cores (04 R96)
  mus : List (Nat × Mu) := []  -- 96 matrix units (03 R57)
  pipes : List (Nat × Pipe) := []  -- 16 update pipes (07 R190)
  slices : List (Nat × Slice) := []  -- 16 slices (01 R15)
  dies : List (Nat × Die) := []  -- 4 compute dies (01 R10)
  ports : List (Nat × Port) := []  -- 17 ports (09 R256)
  serge : List (Nat × SergeMod) := []  -- 64 Serge modules by die * 16 + module (12 R360)
  pdies : List (Nat × Pdie) := []  -- 2 P-dies (11 R346)
  link : Link := {}  -- Cerral Link (10)
  vectors : List (Nat × IVec) := []  -- 64 interrupt vector entries (10 R313)
  mailboxes : List (Nat × Mailbox) := []  -- 17 mailboxes (10 R315)
  rolser : Rolser := {}  -- Rolser endpoint (14)
  trust : Trust := {}  -- life cycle and trust (11)
  boot : Boot := {}  -- start-up (13 R406)
  pins : Pins := {}  -- pins (13 Table 13.7)
  power : Power := {}  -- power manager (13)
  ripstop : Ripstop := {}  -- Ripstop (12)
  xft : Xft := {}  -- transport parameters (14 Table 14.10)
  ethTx : List (Nat × List (BitVec 8)) := []  -- frames handed to the ports (09 R269)
  snoops : List (Nat × Bool) := []  -- MODEL'S OWN: window lines the companion holds that the present command has met, and whether it writes them (10 R307 (log 47))
  order : Nat := 0  -- MODEL'S OWN: order of arrival of doorbells and page requests (05 R144, 06 R179 (log 20))
  deriving DecidableEq, Repr, Inhabited

/-- Why a step would stop with a fault: no command of this block does (06 Table 06.8: what goes wrong is a status). -/
inductive Fault
  deriving DecidableEq, Repr

/-- Why a command would be refused. -/
inductive Refusal where
  /-- Raised by the dispatcher for a command whose meaning is not written; safe: it only stops. -/
  | notModelled (mnemonic : String)
  deriving DecidableEq, Repr

/-- The machine right after power-on reset (13 R406, R443; 11 R347: memory wiped to zeros, so nothing is listed). -/
def State.reset : State := {}

/-! The plain updates of one field each. -/

def State.setPending (s : State) (v : List Instr) : State := { s with pending := v }
def State.setNow (s : State) (v : BitVec 64) : State := { s with now := v }
def State.setDraws (s : State) (v : Nat) : State := { s with draws := v }
def State.setMem (s : State) (v : List Host.Cell) : State := { s with mem := v }
def State.setCtrs (s : State) (v : List (Nat × BitVec 64)) : State := { s with ctrs := v }
def State.setQueues (s : State) (v : List (Nat × QCtx)) : State := { s with queues := v }
def State.setParts (s : State) (v : List (Nat × Part)) : State := { s with parts := v }
def State.setVcs (s : State) (v : List (Nat × Vc)) : State := { s with vcs := v }
def State.setMus (s : State) (v : List (Nat × Mu)) : State := { s with mus := v }
def State.setPipes (s : State) (v : List (Nat × Pipe)) : State := { s with pipes := v }
def State.setSlices (s : State) (v : List (Nat × Slice)) : State := { s with slices := v }
def State.setDies (s : State) (v : List (Nat × Die)) : State := { s with dies := v }
def State.setPorts (s : State) (v : List (Nat × Port)) : State := { s with ports := v }
def State.setSerge (s : State) (v : List (Nat × SergeMod)) : State := { s with serge := v }
def State.setPdies (s : State) (v : List (Nat × Pdie)) : State := { s with pdies := v }
def State.setLink (s : State) (v : Link) : State := { s with link := v }
def State.setVectors (s : State) (v : List (Nat × IVec)) : State := { s with vectors := v }
def State.setMailboxes (s : State) (v : List (Nat × Mailbox)) : State := { s with mailboxes := v }
def State.setRolser (s : State) (v : Rolser) : State := { s with rolser := v }
def State.setTrust (s : State) (v : Trust) : State := { s with trust := v }
def State.setBoot (s : State) (v : Boot) : State := { s with boot := v }
def State.setPins (s : State) (v : Pins) : State := { s with pins := v }
def State.setPower (s : State) (v : Power) : State := { s with power := v }
def State.setRipstop (s : State) (v : Ripstop) : State := { s with ripstop := v }
def State.setXft (s : State) (v : Xft) : State := { s with xft := v }
def State.setEthTx (s : State) (v : List (Nat × List (BitVec 8))) : State := { s with ethTx := v }
def State.setOrder (s : State) (v : Nat) : State := { s with order := v }
def State.setSnoops (s : State) (v : List (Nat × Bool)) : State := { s with snoops := v }

end Sys2Proof.Machine
end

