-- ==== Sys2Proof/Machine/Ops.lean ====
section
/-! DEFINITION. The named operations over indexed state, memory, page records, sync counters and the random source. -/

namespace Sys2Proof.Machine

open Sys2Proof

/-! ### Indexed state: one entry per index away from its default, rising -/

/-- The value at an index; an index not listed holds the default. -/
def tget {α : Type} (d : α) : List (Nat × α) → Nat → α
  | [], _ => d
  | (i, v) :: r, k => if i = k then v else tget d r k

/-- Drops an index. -/
def tdel {α : Type} (m : List (Nat × α)) (k : Nat) : List (Nat × α) := m.filter (fun e => e.1 ≠ k)

/-- Inserts an entry before the first larger index. -/
def tins {α : Type} (k : Nat) (v : α) : List (Nat × α) → List (Nat × α)
  | [] => [(k, v)]
  | e :: r => if k < e.1 then (k, v) :: e :: r else e :: tins k v r

/-- Sets the value at an index, keeping the canonical form. -/
def tset {α : Type} [DecidableEq α] (d : α) (m : List (Nat × α)) (k : Nat) (v : α) : List (Nat × α) :=
  if v = d then tdel m k else tins k v (tdel m k)

/-- Changes the value at an index. -/
def tmod {α : Type} [DecidableEq α] (d : α) (m : List (Nat × α)) (k : Nat) (f : α → α) : List (Nat × α) :=
  tset d m k (f (tget d m k))

/-- Changes the entries at several indices. -/
def tmodAll {α : Type} [DecidableEq α] (d : α) (m : List (Nat × α)) (ks : List Nat) (f : Nat → α → α) : List (Nat × α) :=
  ks.foldl (fun a k => tset d a k (f k (tget d a k))) m

/-- Entry at an index, if listed. -/
def tfind {α : Type} (m : List (Nat × α)) (k : Nat) : Option α := (m.find? (fun e => e.1 = k)).map Prod.snd

/-- Rising indices, none listed twice. -/
def rising {α : Type} : List (Nat × α) → Bool
  | [] => true
  | [_] => true
  | a :: b :: r => a.1 < b.1 && rising (b :: r)

/-! ### Accessors -/

/-- Defaults that depend on the index (14 Table 14.9; 01 Table 01.2). -/
def portDefault (p : Nat) : Port := { axis := BitVec.ofNat 8 (p / 4) }
def dieDefault (d : Nat) : Die :=
  { strap := BitVec.ofNat 3 (if d = 1 ∨ d = 2 then d + 4 else d), edge := BitVec.ofNat 2 d }

def State.part (s : State) (k : Nat) : Part := tget {} s.parts k
def State.queue (s : State) (q : Nat) : QCtx := tget {} s.queues q
def State.vc (s : State) (v : Nat) : Vc := tget {} s.vcs v
def State.mu (s : State) (m : Nat) : Mu := tget {} s.mus m
def State.pipe (s : State) (p : Nat) : Pipe := tget {} s.pipes p
def State.slice (s : State) (i : Nat) : Slice := tget {} s.slices i
def State.die (s : State) (d : Nat) : Die := tget (dieDefault d) s.dies d
def State.port (s : State) (p : Nat) : Port := tget (portDefault p) s.ports p
def State.mailbox (s : State) (d : Nat) : Mailbox := tget {} s.mailboxes d
def State.vec (s : State) (v : Nat) : IVec := tget {} s.vectors v

def State.putPart (s : State) (k : Nat) (v : Part) : State := s.setParts (tset {} s.parts k v)
def State.putQueue (s : State) (q : Nat) (v : QCtx) : State := s.setQueues (tset {} s.queues q v)
def State.putVc (s : State) (i : Nat) (v : Vc) : State := s.setVcs (tset {} s.vcs i v)
def State.putMu (s : State) (i : Nat) (v : Mu) : State := s.setMus (tset {} s.mus i v)
def State.putPipe (s : State) (i : Nat) (v : Pipe) : State := s.setPipes (tset {} s.pipes i v)
def State.putSlice (s : State) (i : Nat) (v : Slice) : State := s.setSlices (tset {} s.slices i v)
def State.putDie (s : State) (d : Nat) (v : Die) : State := s.setDies (tset (dieDefault d) s.dies d v)
def State.putPort (s : State) (p : Nat) (v : Port) : State := s.setPorts (tset (portDefault p) s.ports p v)
def State.putMailbox (s : State) (d : Nat) (v : Mailbox) : State := s.setMailboxes (tset {} s.mailboxes d v)
def State.putVec (s : State) (i : Nat) (v : IVec) : State := s.setVectors (tset {} s.vectors i v)

def State.modPart (s : State) (k : Nat) (f : Part → Part) : State := s.putPart k (f (s.part k))
def State.modQueue (s : State) (q : Nat) (f : QCtx → QCtx) : State := s.putQueue q (f (s.queue q))
def State.modVc (s : State) (v : Nat) (f : Vc → Vc) : State := s.putVc v (f (s.vc v))
def State.modMu (s : State) (m : Nat) (f : Mu → Mu) : State := s.putMu m (f (s.mu m))
def State.modPipe (s : State) (p : Nat) (f : Pipe → Pipe) : State := s.putPipe p (f (s.pipe p))
def State.modSlice (s : State) (i : Nat) (f : Slice → Slice) : State := s.putSlice i (f (s.slice i))
def State.modDie (s : State) (d : Nat) (f : Die → Die) : State := s.putDie d (f (s.die d))
def State.modPort (s : State) (p : Nat) (f : Port → Port) : State := s.putPort p (f (s.port p))
def State.modMailbox (s : State) (d : Nat) (f : Mailbox → Mailbox) : State := s.putMailbox d (f (s.mailbox d))

/-! ### Partitions, slices, queues and counters -/

/-- The partition indices 0 to 15. -/
def allParts : List Nat := List.range 16

/-- Device slices of a partition in ascending order; position j is ordinal j (R125). -/
def slicesOf (P : Part) : List Nat := (List.range 16).filter fun i => P.alloc.slices.getLsbD i

/-- Ordinal j of a partition as a device slice (R125). -/
def ordinal (P : Part) (j : Nat) : Option Nat := (slicesOf P)[j]?

/-- The partition whose queue range holds a queue ID (R161). -/
def ownerOf (s : State) (q : Nat) : Option Nat :=
  allParts.find? fun k =>
    let a := (s.part k).alloc
    (s.part k).st ≠ .free ∧ a.qbase.toNat ≤ q ∧ q < a.qbase.toNat + a.qcount.toNat

/-- Whether a counter ID lies in the partition's range (R161). -/
def ctrIn (P : Part) (c : Nat) : Bool := P.alloc.cbase.toNat ≤ c ∧ c < P.alloc.cbase.toNat + P.alloc.ccount.toNat

/-- The queue IDs of a partition that hold a context away from reset. -/
def queuesOf (s : State) (k : Nat) : List Nat :=
  let a := (s.part k).alloc
  (s.queues.map Prod.fst).filter fun q => a.qbase.toNat ≤ q ∧ q < a.qbase.toNat + a.qcount.toNat

/-- The value of a sync counter. -/
def State.ctr (s : State) (c : Nat) : BitVec 64 := tget 0 s.ctrs c

/-! ### Logical blocks and what stands behind them (12 R352, R354) -/

/-- Class numbers of blocks in the fence list and FENCE_CLEAR (DESIGN CHOICE, log 27: Table 12.1's order). -/
def clsMu : Nat := 0
def clsVc : Nat := 1
def clsPipe : Nat := 2
def clsBank : Nat := 3

/-- A logical block: class, die, logical index on the die. -/
def blockKey (cls die idx : Nat) : Nat := 2 ^ 16 * cls + 2 ^ 12 * die + idx
def State.block (s : State) (cls die idx : Nat) : Block := tget {} s.ripstop.units (blockKey cls die idx)
def State.putBlock (s : State) (cls die idx : Nat) (b : Block) : State :=
  s.setRipstop { s.ripstop with units := tset {} s.ripstop.units (blockKey cls die idx) b }

/-- MU j of device slice sl, VC v of the device, and pipe of slice sl have a block behind them (01 Table 01.4). -/
def muPresent (s : State) (sl j : Nat) : Bool := !(s.block clsMu (sl / 4) (sl % 4 * 6 + j)).absent
def vcPresent (s : State) (v : Nat) : Bool := !(s.block clsVc (v / 16) (v % 16)).absent
def pipePresent (s : State) (sl : Nat) : Bool := !(s.block clsPipe (sl / 4) (sl % 4)).absent

/-! ### The random source (log 2) -/

/-- n bytes, whatever length a function without a body answers. -/
def fit (n : Nat) (b : Bytes) : Bytes := slice b 0 n

/-- The next n random bytes, and the state with that draw taken. -/
def State.draw (s : State) (n : Nat) : Bytes × State := (fit n (Config.random s.draws n), s.setDraws (s.draws + 1))

/-! ### Memory: one list of bytes, each at a store-tagged address -/

/-- The byte at a key; a key not listed reads as the zero its last wipe wrote (11 R347). -/
def cellAt (m : List Host.Cell) (a : Nat) : Byte := tget 0 m a

/-- n bytes from a key on. -/
def memRead (m : List Host.Cell) (a n : Nat) : Bytes :=
  let w := m.filter fun c => a ≤ c.1 ∧ c.1 < a + n
  (List.range n).map fun i => tget 0 w (a + i)

/-- The cells of a byte string laid at a key, zeros left out. -/
def cells (a : Nat) : Bytes → List Host.Cell
  | [] => []
  | b :: r => if b = 0 then cells (a + 1) r else (a, b) :: cells (a + 1) r

/-- Writes bytes from a key on, keeping the canonical form. -/
def memWrite (m : List Host.Cell) (a : Nat) (b : Bytes) : List Host.Cell :=
  (m.filter fun c => c.1 < a) ++ cells a b ++ (m.filter fun c => a + b.length ≤ c.1)

/-- Writes zeros over n keys: a wipe (11 R347). -/
def memWipe (m : List Host.Cell) (a n : Nat) : List Host.Cell :=
  (m.filter fun c => c.1 < a) ++ (m.filter fun c => a + n ≤ c.1)

/-- Copies n bytes from key a to key b. -/
def memCopy (m : List Host.Cell) (a b n : Nat) : List Host.Cell :=
  (m.filter fun c => c.1 < b) ++ (m.filter fun c => a ≤ c.1 ∧ c.1 < a + n).map (fun c => (c.1 - a + b, c.2))
    ++ (m.filter fun c => b + n ≤ c.1)

/-- Drops the zero bytes of a list and sorts nothing: the canonical form, as a check. -/
def memWf (m : List Host.Cell) : Bool := rising m && m.all fun c => c.2 ≠ 0

/-- Keys of the three stores (05): far home, near frame (both by partition and page record), slice SRAM. -/
def farKey (k a : Nat) : Nat := 2 ^ 48 * k + a
def nearKey (k a : Nat) : Nat := 2 ^ 60 + 2 ^ 48 * k + a
def sramKey (i o : Nat) : Nat := 2 ^ 61 + 2 ^ 27 * i + o

/-! ### Where the bytes of a store lie (R127, R128) -/

/-- Bank of SRAM offset o of a slice, and its line in that bank (R128). -/
def sramBank (o : Nat) : Nat := o / 64 % 32
def sramLine (o : Nat) : Nat := o / 2048

/-- The device's far unit that holds tensor address a's allotment unit (R127). -/
def farUnit (P : Part) (a : Nat) : Option Nat := P.farUnits[a / 2 ^ 30]?

/-- Far channel of the 256 B line of tensor address a (R127). -/
def farChannel (a : Nat) : Nat := a / 256 % 32

/-- Far units no partition holds, ascending. -/
def freeFarUnits (s : State) : List Nat :=
  (List.range 576).filter fun u => allParts.all fun k => !(s.part k).farUnits.contains u

/-- A partition's far units after its allotment becomes n GiB: the first n it has, then the lowest free ones (R127: the device
chooses; DESIGN CHOICE, log 76). -/
def allotFar (s : State) (k n : Nat) : State :=
  let free := freeFarUnits s
  s.modPart k fun P => { P with farUnits := (P.farUnits ++ free).take n }

/-! ### The partition address map (R125) -/

/-- What a partition address names. -/
inductive Place where
  | unmapped
  | tensor (a : Nat)
  | sram (sl o : Nat)
  | tile (sl o : Nat)
  deriving DecidableEq, Repr

/-- Bytes of the tensor range (R125). -/
def tensorSize (P : Part) : Nat := 2 ^ 30 * P.alloc.farGib.toNat

/-- Table 05.1. -/
def place (P : Part) (a : Nat) : Place :=
  if a < tensorSize P ∧ a < 0xF00000000000 then .tensor a
  else if 0xF00000000000 ≤ a ∧ a < 2 ^ 48 then
    let o := a % 0x10000000
    match ordinal P ((a - 0xF00000000000) / 0x10000000) with
    | none => .unmapped
    | some sl =>
      if o < 0x8000000 then .sram sl o
      else if o < 0x8020000 then .tile sl (o - 0x8000000)
      else .unmapped
  else .unmapped

/-- Whether n bytes from a may be read: all in the tensor range or all in one SRAM window (R126, R130). -/
def readable (P : Part) (a n : Nat) : Bool :=
  n = 0 ||
  match place P a, place P (a + n - 1) with
  | .tensor _, .tensor _ => true
  | .sram i o, .sram j p => i = j && o + n = p + 1
  | _, _ => false

/-- Page a >> 21 of a tensor address (R127). -/
def pageNo (a : Nat) : Nat := a / 2 ^ 21

/-- Whether page pg lies in the n pages from base address b. -/
def inRange (b : BitVec 48) (n pg : Nat) : Bool := pageNo b.toNat ≤ pg ∧ pg < pageNo b.toNat + n

/-- Whether the pages from a to a + n - 1 touch a front range of a pair or a buddy range (R207, R377). -/
def hitsGuarded (P : Part) (a n : Nat) : Bool :=
  P.regions.any fun e =>
    (e.2.kind = .pair ∨ e.2.kind = .buddy) ∧ a < e.2.front.toNat + 2 ^ 21 * e.2.npages ∧ e.2.front.toNat < a + n

/-- Whether n bytes from a may be written by a unit other than a securing drain (R126, R130, R207, R377). -/
def writable (P : Part) (a n : Nat) : Bool :=
  readable P a n && (n = 0 || 0xF00000000000 ≤ a || !hitsGuarded P a n)

/-- The first of n bytes from a that may not be read, or written: the faulting address of an access (R126). -/
def firstBad (P : Part) (a n : Nat) (w : Bool) : Nat :=
  let bad (x : Nat) : Bool := !(if w then writable P x 1 else readable P x 1)
  let edges := [tensorSize P, a / 2 ^ 28 * 2 ^ 28 + 2 ^ 27] ++ P.regions.map fun e => e.2.front.toNat
  if bad a then a else (edges.filter fun x => a < x && x < a + n && bad x).foldl min (a + n - 1)

/-- The copy a pair serves at the current step: true when front addresses reach copy 1 (R206). -/
def flipped (P : Part) (r : Region) : Bool := (P.stepNo.toNat + r.n0.toNat) % 2 = 1

/-- The page record behind page pg outside any pair: its own, or what a removed pair left there (R208). -/
def baseRec (P : Part) (pg : Nat) : Nat := (tfind P.remap pg).getD pg

/-- The page record behind page pg (R206). -/
def recordOf (P : Part) (pg : Nat) : Nat :=
  match P.regions.find? (fun e => e.2.kind = .pair ∧ (inRange e.2.front e.2.npages pg ∨ inRange e.2.back e.2.npages pg)) with
  | none => baseRec P pg
  | some (_, r) =>
    if flipped P r then
      (if inRange r.front r.npages pg then baseRec P (pg - pageNo r.front.toNat + pageNo r.back.toNat)
       else baseRec P (pg - pageNo r.back.toNat + pageNo r.front.toNat))
    else baseRec P pg

/-- A page record. -/
def pageRec (P : Part) (r : Nat) : PageRec := tget {} P.pages r

/-- Whether sector x of a page is served at its near frame (R134 to R136). Between steps no sector is half copied. -/
def servedNear (g : PageRec) (x : Nat) : Bool :=
  match g.st with
  | .far => false
  | .promoting => x < g.cursor
  | .near | .cleaning => true
  | .evicting => g.cursor ≤ x

/-- Key of a tensor address: where its page's state sends the access (R134). -/
def tensorKey (P : Part) (k a : Nat) : Nat :=
  let r := recordOf P (pageNo a)
  let ra := 2 ^ 21 * r + a % 2 ^ 21
  if servedNear (pageRec P r) (a / 2 ^ 16 % 32) then nearKey k ra else farKey k ra

/-- Key of a mapped partition address. -/
def keyOf (P : Part) (k a : Nat) : Option Nat :=
  match place P a with
  | .tensor a => some (tensorKey P k a)
  | .sram i o => some (sramKey i o)
  | _ => none

/-- Cuts n bytes from a at 64 KiB sector boundaries. -/
def sectors (a n : Nat) : List (Nat × Nat) :=
  if n = 0 then []
  else (List.range ((a + n - 1) / 2 ^ 16 - a / 2 ^ 16 + 1)).map fun i =>
    let lo := max a (2 ^ 16 * (a / 2 ^ 16 + i))
    let hi := min (a + n) (2 ^ 16 * (a / 2 ^ 16 + i + 1))
    (lo, hi - lo)

/-- Bytes at offset o of page record r as a mark leaves them: undefined, each a free value, but where written since (log 4). -/
def markView (m : OpenMark) (r o : Nat) (b : Bytes) : Bytes :=
  b.zipIdx.map fun e => if m.done.any (fun w => w.1 ≤ o + e.2 ∧ o + e.2 < w.2) then e.1
    else Config.openByte m.draw m.gen (2 ^ 21 * r + o + e.2)

/-- Bytes of a page record as reads see them (R207). -/
def recView (P : Part) (r o : Nat) (b : Bytes) : Bytes :=
  match tfind P.openPages r with
  | none => b
  | some g => markView g.now r o b

/-- Bytes of a page record as the face before showed them (08 R249). -/
def oldView (P : Part) (r o : Nat) (b : Bytes) : Bytes :=
  match (tfind P.openPages r).bind OpenPage.was with
  | none => b
  | some m => markView m r o b

/-- Bytes that lie in one sector from address a, through a view of its page record. -/
def seen (view : Part → Nat → Nat → Bytes → Bytes) (P : Part) (a : Nat) (b : Bytes) : Bytes :=
  match P.openPages, place P a with
  | _ :: _, .tensor a => view P (recordOf P (pageNo a)) (a % 2 ^ 21) b
  | _, _ => b

/-- n bytes from partition address a, each from where it lies now, through a view. Bytes that are not mapped read as zero: every
caller checks `readable` first. -/
def State.loadVia (view : Part → Nat → Nat → Bytes → Bytes) (s : State) (k a n : Nat) : Bytes :=
  (sectors a n).flatMap fun w =>
    match keyOf (s.part k) k w.1 with
    | some key => seen view (s.part k) w.1 (memRead s.mem key w.2)
    | none => List.replicate w.2 0

/-- n bytes from partition address a as a read gives them. -/
def State.load (s : State) (k a n : Nat) : Bytes := s.loadVia recView k a n

/-- A little-endian number of n bytes at a. -/
def State.loadNat (s : State) (k a n : Nat) : Nat := leNat (s.load k a n)

/-- A page record after an access at age `age`: LAST refreshed while near (R145), the sector marked dirty by a write
served near (R135 to R137). -/
def touchRec (age : BitVec 48) (write : Bool) (x : Nat) (g : PageRec) : PageRec :=
  match g.st with
  | .far => g
  | _ =>
    { g with last := age, dirty := if write && servedNear g x then g.dirty ||| (1#32 <<< x) else g.dirty }

/-- Page pg lies in the back range of a pair. -/
def inBack (P : Part) (pg : Nat) : Bool := P.regions.any fun e => e.2.kind = .pair && inRange e.2.back e.2.npages pg

/-- n bytes from a are written, by an UPDATE or by another unit: bytes of a back range are defined by an UPDATE alone (R207). -/
def defineBytes (P : Part) (update : Bool) (a n : Nat) : Part :=
  match P.openPages, place P a with
  | _ :: _, .tensor _ =>
    { P with openPages := (sectors a n).foldl (fun l w =>
        let r := recordOf P (pageNo w.1)
        match tfind l r with
        | some g => if update || !inBack P (pageNo w.1) then
            tins r { g with now := { g.now with done := (w.1 % 2 ^ 21, w.1 % 2 ^ 21 + w.2) :: g.now.done } } (tdel l r) else l
        | none => l) P.openPages }
  | _, _ => P

/-- The mark of the face before, of a page that becomes undefined: at a flip what front reads saw; at a refusal it stays; at a
definition and after a restore there is none that is defined (08 R249). -/
def wasAtFlip (_ : OpenMark) (old : Option OpenPage) : Option OpenMark := old.map OpenPage.now
def wasAtRefusal (_ : OpenMark) (old : Option OpenPage) : Option OpenMark := old.bind OpenPage.was
def wasAtStart (m : OpenMark) (_ : Option OpenPage) : Option OpenMark := some m

/-- The back ranges of these pairs become undefined (R207, R220). -/
def openBacks (draw : Nat) (was : OpenMark → Option OpenPage → Option OpenMark) (rs : List Region) (P : Part) : Part :=
  match rs.filter fun r => r.kind = .pair with
  | [] => P
  | rs =>
    let m : OpenMark := { draw := draw, gen := P.openGen }
    let pages := rs.flatMap fun r => (List.range r.npages).map fun i => recordOf P (pageNo r.back.toNat + i)
    { P with openGen := P.openGen + 1, openPages := pages.foldl (fun l r => tins r { now := m, was := was m (tfind l r) } (tdel l r)) P.openPages }

/-- Page records after an access to n bytes from a. -/
def touch (P : Part) (write : Bool) (a n : Nat) : Part :=
  match place P a with
  | .tensor _ =>
    { P with pages := (sectors a n).foldl (fun pg w =>
        tmod {} pg (recordOf P (pageNo w.1)) (touchRec P.age write (w.1 / 2 ^ 16 % 32))) P.pages }
  | _ => P

/-- Partition address of a window line of partition k's coherent sub-window (10 R311). -/
def lineAddr (P : Part) (k line : Nat) : Option Nat :=
  if 64 * line / 2 ^ 32 = k + 1 then some (P.dict.subwinBase.toNat + 64 * line % 2 ^ 32) else none

/-- Whether n bytes from a meet a window line. -/
def meets (P : Part) (k a n line : Nat) : Bool :=
  match lineAddr P k line with
  | some p => p < a + n ∧ a < p + 64
  | none => false

/-- Notes the window lines that an access meets and the companion holds, or whose snoop is complete (10 R307, R308): a write
meets a line held S or O, a read one held O. -/
def State.noteMet (s : State) (k a n : Nat) (write : Bool) : State :=
  let P := s.part k
  let l := (s.link.dir.filter fun e => (write || e.2) && meets P k a n e.1).map Prod.fst
    ++ (s.link.home.filter fun h => h.done && meets P k a n h.line).map HomeTx.line
  match l with
  | [] => s
  | _ => s.setSnoops (s.snoops ++ l.map fun x => (x, write))

/-- An access that reads n bytes from a (R145; 10 R307). -/
def State.noteRead (s : State) (k a n : Nat) : State := (s.modPart k fun P => touch P false a n).noteMet k a n false

/-- A structure of n bytes at a is read at validation, where it may be. -/
def State.noteIf (s : State) (k a n : Nat) : State := if readable (s.part k) a n then s.noteRead k a n else s

/-- Writes bytes from partition address a on; the caller checks `writable`. -/
def State.store (s : State) (k a : Nat) (b : Bytes) : State :=
  let P := s.part k
  let m := (sectors a b.length).foldl (fun m w =>
    match keyOf P k w.1 with
    | some key => memWrite m key ((b.drop (w.1 - a)).take w.2)
    | none => m) s.mem
  ((s.setMem m).putPart k (defineBytes (touch P true a b.length) false a b.length)).noteMet k a b.length true

/-- Zero-fills n bytes from a (R218, R230). -/
def State.zeroFill (s : State) (k a n : Nat) : State :=
  let P := s.part k
  let m := (sectors a n).foldl (fun m w =>
    match keyOf P k w.1 with
    | some key => memWipe m key w.2
    | none => m) s.mem
  ((s.setMem m).putPart k (defineBytes (touch P true a n) false a n)).noteMet k a n true

/-- Saturating counters (R45, R186). -/
def satAdd (w : Nat) (c : BitVec w) (n : Nat) : BitVec w := BitVec.ofNat w (min (c.toNat + n) (2 ^ w - 1))

/-- Shorthand: partition k's health counters (07 R210). -/
def modHealth (s : State) (k : Nat) (f : Health → Health) : State := s.modPart k fun P => { P with health := f P.health }

end Sys2Proof.Machine
end

