-- ==== Sys2Proof/Machine/Link.lean ====
section
/-! DEFINITION. The Cerral Link's flits, credits and requests, and the interrupt vectors (10 R289 to R305, R313, R314). -/

namespace Sys2Proof.Machine

open Sys2Proof

/-! ### CRC-64 and the Reed-Solomon check (R294) -/

/-- One CRC-64 bit step: shift left, fold the polynomial 0x42F0_E1EB_A9EA_3693 in. -/
def crc64Bit (c : BitVec 64) : BitVec 64 := if c.msb then (c <<< 1) ^^^ 0x42F0E1EBA9EA3693#64 else c <<< 1

/-- One byte into the CRC-64, most significant bit first. -/
def crc64Byte (c : BitVec 64) (b : Byte) : BitVec 64 :=
  crc64Bit (crc64Bit (crc64Bit (crc64Bit (crc64Bit (crc64Bit (crc64Bit (crc64Bit (c ^^^ (b.zeroExtend 64 <<< 56)))))))))

/-- CRC-64 of a byte string, initial value 0, no reflection, no final inversion (R294). -/
def crc64 (b : Bytes) : BitVec 64 := b.foldl crc64Byte 0

/-- Multiplication by α = 0x02 in GF(2^8) over x^8 + x^4 + x^3 + x^2 + 1 (R294). -/
def gfMul2 (a : Byte) : Byte := if a.msb then (a <<< 1) ^^^ 0x1D#8 else a <<< 1

/-- α^i. -/
def gfPow2 : Nat → Byte
  | 0 => 1
  | i + 1 => gfMul2 (gfPow2 i)

/-- Multiplication in GF(2^8), one bit of b at a time from the top. -/
def gfMul (a b : Byte) : Byte :=
  (List.range 8).foldl (fun acc i => (gfMul2 acc) ^^^ (if b.getLsbD (7 - i) then a else 0)) 0

/-- Check symbols of one interleave: the remainder by (x + 1)(x + α), the first byte the highest power (R294; the order
of powers DEDUCED, log 21). -/
def rsCheck (d : Bytes) : Byte × Byte :=
  d.foldl (fun (r : Byte × Byte) b => let f := b ^^^ r.1; (r.2 ^^^ gfMul f 3, gfMul2 f)) (0, 0)

/-- Syndromes at 1 and α of the 128 symbols of an interleave. -/
def rsSyndromes (c : Bytes) : Byte × Byte :=
  (c.foldl (fun a b => a ^^^ b) 0, c.foldl (fun a b => gfMul2 a ^^^ b) 0)

/-- Corrects at most one symbol of an interleave: the symbols, and whether one was corrected (R294). -/
def rsCorrect (c : Bytes) : Bytes × Bool :=
  let (s0, s1) := rsSyndromes c
  if s0 = 0 ∧ s1 = 0 then (c, false)
  else
    match (List.range c.length).find? (fun i => s0 ≠ 0 ∧ gfMul s0 (gfPow2 i) = s1) with
    | some i => (c.set (c.length - 1 - i) ((c.getD (c.length - 1 - i) 0) ^^^ s0), true)
    | none => (c, false)

/-- Every second byte from the first. -/
def evens : Bytes → Bytes
  | [] => []
  | [a] => [a]
  | a :: _ :: r => a :: evens r

/-- Two interleaves together again. -/
def weave : Bytes → Bytes → Bytes
  | a :: r, b :: t => a :: b :: weave r t
  | r, t => r ++ t

/-! ### Flits (R293, Tables 10.3, 10.4) -/

/-- Closes a flit: header and slots padded to 244 B, CRC, and in native mode the check symbols (R294). -/
def flitOf (forerunner : Bool) (ftype fsn hmap : Nat) (slots : Bytes) : Bytes :=
  let body := slice (toLe 4 (ftype * 2 ^ 30 + fsn * 2 ^ 20 + hmap) ++ slots) 0 244
  let b := body ++ toLe 8 (crc64 body).toNat
  if forerunner then b ++ [0, 0, 0, 0]
  else
    let e := rsCheck (evens b)
    let o := rsCheck (evens (b.drop 1))
    b ++ [e.1, e.2, o.1, o.2]

/-- A received flit after FEC: its first 252 bytes, and the symbols corrected (R294). -/
def flitFec (forerunner : Bool) (f : Bytes) : Bytes × Nat :=
  if forerunner then (f.take 252, 0)
  else
    let b := f.take 252
    let (e, ec) := rsCorrect (evens b ++ [f.getD 252 0, f.getD 253 0])
    let (o, oc) := rsCorrect (evens (b.drop 1) ++ [f.getD 254 0, f.getD 255 0])
    (weave (e.take 126) (o.take 126), ec.toNat + oc.toNat)

/-- Whether the CRC of a corrected flit holds (R294). -/
def flitCrcOk (b : Bytes) : Bool := leNat (slice b 244 8) = (crc64 (b.take 244)).toNat

/-! ### Messages (R296, R297, Tables 10.5, 10.6) -/

/-- The header slot of a message (Table 10.5). -/
def msgHeader (m : ClMsg) : BitVec 128 :=
  BitVec.ofNat 128 (m.ch.toNat * 2 ^ 126 + m.opc.toNat * 2 ^ 120 + m.len.toNat * 2 ^ 117 + m.tag.toNat * 2 ^ 96
    + m.rdom.toNat * 2 ^ 91 + m.status.toNat * 2 ^ 80 + m.qmask.toNat * 2 ^ 64 + m.addr.toNat)

/-- A message from its header slot, without data. -/
def msgOfHeader (h : BitVec 128) : ClMsg :=
  { ch := h.extractLsb' 126 2, opc := h.extractLsb' 120 6, len := h.extractLsb' 117 3, tag := h.extractLsb' 96 16,
    rdom := h.extractLsb' 91 5, status := h.extractLsb' 80 4, qmask := h.extractLsb' 64 8, addr := h.extractLsb' 0 64 }

/-- Data slots an opcode carries for LEN lines; none for an opcode Table 10.6 does not list. -/
def opcLines (opc len : Nat) : Option Nat :=
  match opc with
  | 0x01 | 0x02 | 0x03 | 0x07 | 0x20 | 0x24 | 0x25 | 0x30 | 0x31 => some 0
  | 0x04 | 0x21 => some len
  | 0x05 | 0x06 | 0x22 | 0x23 | 0x26 | 0x27 => some 1
  | _ => none

/-- The channel of an opcode (Table 10.6). -/
def opcCh (opc : Nat) : Nat := if opc < 0x20 then 0 else if opc < 0x30 then 1 else 2

/-- Whether a header holds no reserved value (R297): channel, opcode, LEN, STATUS, QMASK use and reserved bits. -/
def headerOk (h : BitVec 128) : Bool :=
  let m := msgOfHeader h
  let o := m.opc.toNat
  (opcLines o m.len.toNat).isSome && m.ch.toNat = opcCh o && m.len.toNat ≤ 4
    && (if o = 0x03 ∨ o = 0x04 ∨ o = 0x21 then 1 ≤ m.len.toNat else true)
    && h.extractLsb' 112 5 = 0 && h.extractLsb' 84 7 = 0 && h.extractLsb' 72 8 = 0
    && m.rdom.toNat ≤ 16 && m.status.toNat ≤ 4 && (o ≥ 0x20 ∧ o < 0x30 || m.status = 0)
    && (o = 0x05 || m.qmask = 0 || (0x24 ≤ o ∧ o ≤ 0x27 ∧ m.qmask.toNat ≤ 1)) && m.addr.extractLsb' 0 6 = 0

/-- The slots of a message, 16 B each (R296). -/
def msgSlots (m : ClMsg) : List Bytes :=
  toLe 16 (msgHeader m).toNat :: (List.range (m.data.length / 16)).map fun i => slice m.data (16 * i) 16

/-! ### Sending: credits, replay buffer, flits (R296, R300, R302) -/

/-- Index of a credit: channel * 2 + kind (kind 1: data slots). -/
def creditIx (ch kind : Nat) : Nat := ch * 2 + kind

/-- What the companion must grant at least, and what the device grants (Table 10.7). -/
def leastGrant : List Nat := [256, 4096, 512, 8192, 256]
def deviceGrant : List Nat := [1024, 32768, 2048, 32768, 256]

/-- The companion's grants as training exchanged them, none below what it must grant (Table 10.7; log 22). -/
def grantsOf (given : List Nat) : List Nat := (List.range 5).map fun i => max (leastGrant.getD i 0) (given.getD i 0)

/-- Credits left: the grant plus the count freed less the count used, modulo 2^32 (R300). -/
def creditOk (l : Link) (ix need : Nat) : Bool :=
  need ≤ (BitVec.ofNat 32 (l.grant.getD ix 0) + tget 0 l.grants ix - tget 0 l.used ix).toNat

/-- Puts one message into payload flits of its own, keeping each for replay (R296, R302; one message to a run of flits
is the model's packing, DESIGN CHOICE, log 21). -/
def sendFlits (l : Link) (slots : List Bytes) (first : Bool) : Nat → Link
  | 0 => l
  | n + 1 =>
    match slots with
    | [] => l
    | _ =>
      let f := flitOf l.forerunner 0 l.txFsn.toNat (if first then 1 else 0) (slots.take 15).flatten
      sendFlits { l with txFsn := l.txFsn + 1, replay := l.replay ++ [(l.txFsn, f)], sent := l.sent ++ [f] }
        (slots.drop 15) false n

/-- Whether payload may leave: link ACTIVE and in L0 or L0H (R291, R318). -/
def linkUp (l : Link) : Bool := l.st = 2 ∧ l.pstate.toNat ≤ 1

/-- Whether a message may leave: its channel's credits are there, and the replay buffer has room (R296, R300, R302). -/
def maySend (l : Link) (m : ClMsg) : Bool :=
  let n := (msgSlots m).length
  linkUp l && creditOk l (creditIx m.ch.toNat 0) 1 && (n ≤ 1 || creditOk l (creditIx m.ch.toNat 1) (n - 1))
    && l.replay.length + (n + 14) / 15 ≤ 512

/-- Sends one message, its credits used (R300). -/
def sendMsgFlits (l : Link) (m : ClMsg) : Link :=
  let slots := msgSlots m
  let h := creditIx m.ch.toNat 0
  let d := creditIx m.ch.toNat 1
  let u := tset 0 l.used h (tget 0 l.used h + 1)
  let u := if slots.length ≤ 1 then u else tset 0 u d (tget 0 u d + BitVec.ofNat 32 (slots.length - 1))
  sendFlits { l with used := u } slots true 3

/-- Sends waiting messages, each channel's in order; a channel whose first message must wait holds no other channel back
(R300, R301): `shut` are the channels that wait. -/
def pumpList (l : Link) (shut : List (BitVec 2)) : List ClMsg → Link
  | [] => { l with tx := [] }
  | m :: r =>
    if shut.contains m.ch || !maySend l m then
      let x := pumpList l (m.ch :: shut) r
      { x with tx := m :: x.tx }
    else pumpList (sendMsgFlits l m) shut r

/-- Sends what may be sent. -/
def pump (s : State) : State := s.setLink (pumpList s.link [] s.link.tx)

/-- A control flit with these link slots (R300); control flits are not retained. -/
def sendControl (l : Link) (slots : List (BitVec 128)) : Link :=
  { l with sent := l.sent ++ [flitOf l.forerunner 1 0 (2 ^ slots.length - 1) (slots.flatMap fun x => toLe 16 x.toNat)] }

/-- Link slots (Table 10.8). -/
def slotOf (lop fsn chn kind count pstate : Nat) : BitVec 128 :=
  BitVec.ofNat 128 (lop * 2 ^ 124 + fsn * 2 ^ 110 + chn * 2 ^ 108 + kind * 2 ^ 107 + count * 2 ^ 64 + pstate)

/-- In L1 or L2 the exit is asked for before a message goes (R318). -/
def askExit (l : Link) : Link :=
  if l.st = 2 ∧ 2 ≤ l.pstate.toNat ∧ l.pmAsked.isNone then { sendControl l [slotOf 4 0 0 0 0 0] with pmAsked := some 0 } else l

/-- A message is ready to send (R296). -/
def clSend (s : State) (m : ClMsg) : State := pump (s.setLink (askExit { s.link with tx := s.link.tx ++ [m] }))

/-! ### The device's own requests (R298) -/

/-- The first free tag from t on. -/
def freeTag (reqs : List (Nat × ReqFor)) (t : BitVec 16) : BitVec 16 :=
  ((List.range (reqs.length + 1)).map fun i => t + BitVec.ofNat 16 i).find? (fun x => (tfind reqs x.toNat).isNone) |>.getD t

/-- Sends a request under a fresh tag and remembers what it is for (R298). -/
def clRequest (s : State) (f : ReqFor) (opc len rdom qmask : Nat) (addr : BitVec 64) (data : Bytes) : State :=
  let t := freeTag s.link.reqs s.link.nextTag
  let l := { s.link with reqs := tset .none s.link.reqs t.toNat f, nextTag := t + 1 }
  clSend (s.setLink l)
    { opc := BitVec.ofNat 6 opc, len := BitVec.ofNat 3 len, tag := t, rdom := BitVec.ofNat 5 rdom,
      qmask := BitVec.ofNat 8 qmask, addr := addr, data := data }

/-- A WR_PART of bytes that lie within one 64 B line, in whole 8 B units (Table 10.6). -/
def clWritePart (s : State) (f : ReqFor) (rdom : Nat) (addr : Nat) (b : Bytes) : State :=
  let o := addr % 64
  let mask := (List.range 8).foldl (fun m j => if o ≤ 8 * j ∧ 8 * j < o + b.length then m + 2 ^ j else m) 0
  clRequest s f 0x05 1 rdom mask (BitVec.ofNat 64 (addr - o)) (slice (List.replicate o 0 ++ b) 0 64)

/-- A response to a request of the companion (R298). -/
def clRespond (s : State) (m : ClMsg) (opc status : Nat) (data : Bytes) : State :=
  clSend s { ch := 1, opc := BitVec.ofNat 6 opc, len := BitVec.ofNat 3 (data.length / 64), tag := m.tag, rdom := m.rdom,
             status := BitVec.ofNat 4 status, addr := m.addr, data := data }

/-! ### The directory and device accesses (R307, R308; log 47) -/

/-- Sends a snoop of a window line and opens its transaction (R307), for a coherent request, an uncached one, or a unit of the
device. -/
def openHome (s : State) (line : Nat) (inv : Bool) (req : Option ClMsg) (comp : Bool := false) : State :=
  let t := freeTag (s.link.reqs ++ s.link.home.map fun h => (h.tag.toNat, .none)) s.link.nextTag
  let s := s.setLink { s.link with home := s.link.home ++ [{ tag := t, line := line, inv := inv, req := req, comp := comp }], nextTag := t + 1 }
  clSend s { ch := 2, opc := if inv then 0x30 else 0x31, tag := t, rdom := BitVec.ofNat 5 (64 * line / 2 ^ 32),
             addr := BitVec.ofNat 64 (64 * line) }

/-- Window line of a request. -/
def reqLine (m : ClMsg) : Nat := m.addr.toNat / 64

/-- Whether a line has a transaction in progress (R308). -/
def homeBusy (l : Link) (line : Nat) : Bool := l.home.any fun h => h.line = line || h.req.any fun m => reqLine m = line

/-- Requests that waited and whose lines have no transaction in progress any more are served next, in arrival order (R308). -/
def wakeHome (l : Link) : Link :=
  { l with rx := (l.homeWait.filter fun m => !homeBusy l (reqLine m)) ++ l.rx, homeWait := l.homeWait.filter fun m => homeBusy l (reqLine m) }

/-- The lines that accesses have met, each with whether any of them writes it. -/
def metLines (l : List (Nat × Bool)) : List (Nat × Bool) := (l.map Prod.fst).eraseDups.map fun x => (x, l.any fun e => e.1 = x ∧ e.2)

/-- Whether the companion holds a line as an access may not meet it (R307). -/
def heldLine (l : Link) (x : Nat × Bool) : Bool :=
  match l.dir.find? (fun e => e.1 = x.1) with
  | some e => x.2 || e.2
  | none => false

/-- Whether a finished transaction of a line was for this access: from the same side, and a snoop of its kind (R308; log 47). -/
def isFor (comp : Bool) (x : Nat × Bool) (h : HomeTx) : Bool := h.done && h.line = x.1 && h.comp = comp && (x.2 || !h.inv)

/-- Whether an access to a line waits: behind another transaction of the line, or for a snoop (R307, R308). -/
def conflicts (comp : Bool) (l : Link) (x : Nat × Bool) : Bool :=
  heldLine l x || l.home.any fun h => (h.line = x.1 || h.req.any fun m => reqLine m = x.1) && !isFor comp x h

/-- The state after a command whose accesses met held lines: while one of them waits, only snoops go out and the command waits
to be given again; otherwise it has run, and ends the finished transactions that were for it. -/
def settle (comp : Bool) (s s' : State) : State :=
  let xs := metLines s'.snoops
  let c := xs.filter (conflicts comp s.link)
  if c = [] then
    let l := { s'.link with home := s'.link.home.filter fun h => !xs.any fun x => isFor comp x h }
    (s'.setLink (wakeHome l)).setSnoops []
  else
    c.foldl (fun s x =>
      let rest := s.link.home.filter fun h => !isFor comp x h
      if rest.any (fun h => h.line = x.1 || h.req.any fun m => reqLine m = x.1) then s
      else openHome (s.setLink { s.link with home := rest }) x.1 x.2 none comp) s

/-- Finished transactions of a partition's lines whose device accesses will not come again end, and what waited behind them
goes on (R308; log 47). -/
def dropDone (s : State) (k : Nat) : State :=
  s.setLink (wakeHome { s.link with home := s.link.home.filter fun h => !(h.done && 64 * h.line / 2 ^ 32 = k + 1) })

/-- The companion holds no line of the device's memory, and no transaction is open. -/
def noneHeld (s : State) : Bool := s.link.dir = [] && s.link.home = []

/-- What a command that may touch device memory answers (R307, R308; log 47). -/
def outcome (s s' : State) : Host.Outcome State Fault Refusal := .next (if noneHeld s then s' else settle false s s')

/-- What an uncached request of the companion answers, in the same way (R308). -/
def outcomeReq (s s' : State) : Host.Outcome State Fault Refusal := .next (if noneHeld s then s' else settle true s s')

/-! ### Events and counters of the link (R186, Table 10.11; 14 Table 14.10) -/

/-- Sets a bit of an RW1C flag word and counts the set (R186). -/
def setFlag {w : Nat} (f : BitVec w) (i : Nat) : BitVec w := f ||| (1#w <<< i)
def bumpAt (cs : List (BitVec 32)) (i : Nat) : List (BitVec 32) := cs.set i (satAdd 32 (cs.getD i 0) 1)

/-- Adds to a 64-bit counter of an indexed list. -/
def bump64 (cs : List (Nat × BitVec 64)) (i n : Nat) : List (Nat × BitVec 64) := tset 0 cs i (satAdd 64 (tget 0 cs i) n)

/-- Counter numbers of the link (14 Table 14.10), in the order of its subindices. -/
def clBadFlit : Nat := 0
def clBadMsg : Nat := 1
def clCrcErr : Nat := 2
def clFecCorr : Nat := 3
def clReplay : Nat := 4
def clRetrain : Nat := 5
def clStallCnt : Nat := 6
def clUnmapped : Nat := 7
def clDenied : Nat := 8
def mbxOverrun : Nat := 9

/-- Adds n to a link counter. -/
def clCount (s : State) (i n : Nat) : State := s.setLink { s.link with counters := bump64 s.link.counters i n }

/-! ### Interrupt vectors (R313, R314) -/

/-- RDOM of a vector's write: the domain Table 10.10 admits to the entry (DEDUCED, log 23). -/
def vecRdom (v : Nat) : Nat := if 1 ≤ v ∧ v ≤ 16 then v else if 33 ≤ v ∧ v ≤ 48 then v - 32 else 0

/-- Sends the one write of a vector (R314). -/
def sendIrq (s : State) (v : Nat) : State :=
  let e := s.vec v
  let s := s.putVec v { e with inFlight := true }
  clWritePart s (.irq v) (vecRdom v) (e.addr.toNat / 8 * 8) (toLe 8 e.data.toNat)

/-- A source of vector v sets (R314). -/
def raise (s : State) (v : Nat) : State :=
  let e := s.vec v
  if e.mask then s.putVec v { e with pend := true }
  else if e.inFlight then s
  else sendIrq s v

/-- A CL_EVENT flag sets: its counter, and vector 0 (R186, R313). -/
def clEvent (s : State) (i : Nat) : State :=
  raise (s.setLink { s.link with event := setFlag s.link.event i, eventCnt := bumpAt s.link.eventCnt i }) 0

/-- A Q_EVENT flag of partition k sets (R186, Table 06.15); FAULT and ARM_HIT raise vector k (R313). -/
def qEvent (s : State) (k i : Nat) : State :=
  let s := s.modPart k fun P =>
    { P with qpage := { P.qpage with event := setFlag P.qpage.event i, eventCnt := bumpAt P.qpage.eventCnt i } }
  if i = 0 ∨ i = 4 then raise s (k + 1) else s

/-! ### Sync counters (R182, R449) -/

/-- Fires an armed watch whose counter has reached its value (R449). -/
def checkArm (s : State) (k : Nat) : State :=
  let Q := (s.part k).qpage
  if Q.armed ∧ Q.armVal.toNat ≤ (s.ctr Q.armedId.toNat).toNat then
    qEvent (s.modPart k fun P => { P with qpage := { P.qpage with armed := false } }) k 4
  else s

/-- Adds n to a sync counter of partition k, stopping at 2^64 - 1 (R182), then fires its watch (R449). -/
def addCtr (s : State) (k c n : Nat) : State :=
  let v := (s.ctr c).toNat
  let s := s.setCtrs (tset 0 s.ctrs c (satAdd 64 (s.ctr c) n))
  let s := if v + n > 2 ^ 64 - 1 then qEvent s k 3 else s
  checkArm s k

end Sys2Proof.Machine
end

