-- ==== Sys2Proof/Machine/Queue.lean ====
section
/-! DEFINITION. Queues (06): the hub front end, starting and completing commands, faults, pause and reset. -/

namespace Sys2Proof.Machine

open Sys2Proof

/-! ### The common header (R163, Table 06.2) -/

/-- Bits hi to lo of a command, as a number. -/
def fld (c hi lo : Nat) : Nat := bitsOf c hi lo

def hdrTag (c : Nat) : Nat := fld c 127 64
def hdrSeq (c : Nat) : Nat := fld c 63 32
def hdrFence (c : Nat) : Bool := bitOf c 28
def hdrCplEn (c : Nat) : Bool := bitOf c 27
def hdrCplCtr (c : Nat) : Nat := fld c 26 13
def hdrSlice (c : Nat) : Nat := fld c 12 9
def hdrKind (c : Nat) : Nat := fld c 8 3
def hdrClass (c : Nat) : Nat := fld c 2 0

/-- Whether a class allows a KIND (R164, Tables 06.3, 07.2, 08.3). -/
def kindOk (cls kind : Nat) : Bool :=
  if kind = 0 ∨ kind = 1 ∨ kind = 3 then true
  else if kind = 2 then cls = 4 ∨ cls = 5
  else match cls with
    | 0 | 1 | 6 => kind = 0x10
    | 2 => 0x10 ≤ kind ∧ kind ≤ 0x17
    | 3 => 0x10 ≤ kind ∧ kind ≤ 0x12
    | 4 => 0x10 ≤ kind ∧ kind ≤ 0x19
    | 5 => 0x10 ≤ kind ∧ kind ≤ 0x15
    | _ => false

/-- Header check, step 2 of R165, with the header's reserved bits (R8). -/
def headerCheck (P : Part) (Q : QCtx) (c : Nat) : Bool :=
  fld c 31 29 = 0 && hdrClass c = Q.cls.toNat && kindOk (hdrClass c) (hdrKind c)
    && hdrSlice c < (slicesOf P).length && (!hdrCplEn c || ctrIn P (hdrCplCtr c))

/-- Command tag (R340): KMAC256 under SUBKEY of k, QID and every byte but the tag. -/
def cmdTag (sub : Bytes) (k q c : Nat) : Bytes :=
  fit 8 (Config.kmac256 sub (toLe 1 (k + 1) ++ toLe 4 q ++ toLe 8 c ++ toLe 48 (c / 2 ^ 128)) 64 "XT4 CMD")

/-- Whether a command passes R340 and R341. -/
def cmdAuth (P : Part) (Q : QCtx) (k q c : Nat) : Bool :=
  match P.keys.subkey with
  | none => false
  | some sub => leNat (cmdTag sub k q c) = hdrTag c && hdrSeq c = Q.expSeq.toNat && !Q.seqSpent

/-! ### Status codes (Table 06.8) -/

def stOK : BitVec 8 := 0x00
def stINVALID : BitVec 8 := 0x01
def stADDRESS : BitVec 8 := 0x02
def stRANGE : BitVec 8 := 0x03
def stDATA : BitVec 8 := 0x04
def stLIMIT : BitVec 8 := 0x05
def stAUTH : BitVec 8 := 0x06
def stGONE : BitVec 8 := 0x07
def stABORTED : BitVec 8 := 0x08
def stDOORBELL : BitVec 8 := 0x09

/-- A status that moves its queue to FAULT (Table 06.8). -/
def faulting (st : BitVec 8) : Bool := st ≠ stOK ∧ st ≠ stLIMIT ∧ st ≠ stABORTED

/-! ### What may start (R171, R178, R191) -/

/-- A quiescing command (R191, Table 07.2). -/
def quiescing (c : Nat) : Bool := hdrClass c = 2 ∧ 0x12 ≤ hdrKind c ∧ hdrKind c ≤ 0x16

/-- Classes a quiescing command holds: matrix, vector, update, fill (R191). -/
def heldClass (cls : Nat) : Bool := cls = 0 ∨ cls = 1 ∨ cls = 2 ∨ cls = 6

/-- Started commands of the held classes in the partition's queues (R191). -/
def busyHeld (s : State) (k : Nat) : Bool :=
  (queuesOf s k).any fun q => heldClass (s.queue q).cls.toNat && !(s.queue q).started.isEmpty

/-- Commands that behave as if FENCE = 1 (R171; 08 R248, R252): WAIT, SIGNAL and RSIGNAL, JERSEY and RANKSET. -/
def fences (c : Nat) : Bool := hdrFence c || hdrKind c ≤ 2 || (hdrClass c = 4 && (hdrKind c = 0x18 || hdrKind c = 0x19))

/-- R171 alone: the queue is ACTIVE, no faulting command stands before this one, and a command that fences has no
incomplete predecessor. -/
def mayStart (Q : QCtx) (c : Nat) : Bool :=
  Q.st = .active && Q.started.all (fun r => !faulting r.status) && (Q.started.isEmpty || !fences c)

/-- Whether the body bits [511:128] outside the named fields are zero (R8). -/
def bodyClear (c : Nat) (named : List (Nat × Nat)) : Bool :=
  named.foldl (fun x f => x - fld c f.1 f.2 * 2 ^ f.2) (c / 2 ^ 128 * 2 ^ 128) = 0

/-- Validation of a WAIT: its counter is the partition's (R161) and no reserved bit is set (R8). -/
def waitValid (P : Part) (c : Nat) : Bool := ctrIn P (fld c 141 128) && bodyClear c [(141, 128), (207, 144)]

/-- The WAIT condition (R183); an invalid WAIT waits for nothing. -/
def waitMet (s : State) (k c : Nat) : Bool :=
  hdrKind c ≠ 0 || !waitValid (s.part k) c || fld c 207 144 ≤ (s.ctr (fld c 141 128)).toNat

/-- Device slice of a command's SLICE (R163). -/
def targetSlice (P : Part) (c : Nat) : Nat := (ordinal P (hdrSlice c)).getD 0

/-- VC_MASK of a vector command (04 Table 04.8). -/
def vMask (c : Nat) : Nat := fld c 267 264

/-- Device numbers of the cores of a command's VC_MASK, ascending (04 R118: bit j is VC 4l + j). -/
def vcsOf (sl c : Nat) : List Nat := ((List.range 4).filter fun j => (vMask c).testBit j).map fun j => 4 * sl + j

/-- Every VC of a vector command is free, none of them about to be replaced (R171; 12 R352). -/
def vcsFree (s : State) (k c : Nat) : Bool :=
  hdrClass c ≠ 1 || hdrKind c ≠ 0x10 || (vcsOf (targetSlice (s.part k) c) c).all fun n =>
    (s.vc n).run.isNone && !(s.block clsVc (n / 16) (n % 16)).due

/-- During a Jersey transition a SLOTOPEN or CONTRIB that names its epoch waits for it (08 R252), and so does a further JERSEY
(log 42). -/
def namesNext (P : Part) (c : Nat) : Bool :=
  match P.nextJob with
  | none => false
  | some J => hdrClass c = 4 && (hdrKind c = 0x18 || (hdrKind c = 0x11 && fld c 303 288 = J.epoch.toNat)
      || (hdrKind c = 0x12 && fld c 319 304 = J.epoch.toNat))

/-- A partition holds one vote at a time: a further HVOTE waits (08 R251; log 42). -/
def voteBusy (P : Part) (c : Nat) : Bool := P.vote.isSome && hdrClass c = 4 && hdrKind c = 0x17

/-- While a quiescing command holds the partition, only that command itself may start (R191). -/
def holdAllows (s : State) (k q c : Nat) : Bool :=
  match (s.part k).holder with
  | none => true
  | some h => !heldClass (hdrClass c)
      || (h = BitVec.ofNat 20 q && quiescing c && (s.queue q).started.all fun r => !quiescing r.cmd.toNat)

/-- Eligible (R178): R171 with its free VCs, the WAIT condition, no other command quiescing the partition (R191), and no
epoch still to come (08 R252). -/
def eligible (s : State) (k q c : Nat) : Bool :=
  mayStart (s.queue q) c && waitMet s k c && holdAllows s k q c && (!quiescing c || !busyHeld s k) && vcsFree s k c
    && !namesNext (s.part k) c && !voteBusy (s.part k) c

/-- The moment at which an eligible command became so: its queue's own last event, the end of a hold or of an epoch, and the
moment its VCs were left (R178). -/
def moment (s : State) (k q c : Nat) : Nat :=
  let P := s.part k
  let m := max (s.queue q).since (if heldClass (hdrClass c) ∨ hdrClass c = 4 then P.heldEnd else 0)
  if hdrClass c = 1 ∧ hdrKind c = 0x10 then (vcsOf (targetSlice P c) c).foldl (fun m n => max m (s.vc n).freed) m else m

/-- Whether two commands of one class ask for a common unit: matrix and fill commands an MU, vector commands a VC, updates the
pipe of a slice, the others the partition's one unit of their class (Table 06.3). -/
def sharesUnit (c c' : Nat) : Bool :=
  match hdrClass c with
  | 0 | 6 => hdrSlice c = hdrSlice c' && (fld c 181 176 &&& fld c' 181 176) ≠ 0
  | 1 => hdrSlice c = hdrSlice c' && (vMask c &&& vMask c') ≠ 0
  | 2 => hdrSlice c = hdrSlice c'
  | _ => true

/-- R178's order: higher PRIO, then the earlier moment of becoming eligible, then the lower queue ID. -/
def ranksBefore (p m q p' m' q' : Nat) : Bool := p' < p || (p = p' && (m < m' || (m = m' && q < q')))

/-- A queue that asks for the same unit has an eligible command that comes first (R178). -/
def outranked (s : State) (k q c : Nat) : Bool :=
  (queuesOf s k).any fun q' =>
    let Q := s.queue q'
    match Q.front with
    | none => false
    | some c' =>
      let c' := c'.toNat
      ranksBefore Q.prio.toNat (moment s k q' c') q' (s.queue q).prio.toNat (moment s k q c) q
        && Q.cls = (s.queue q).cls && sharesUnit c c' && eligible s k q' c'

/-- The command at HEAD of queue q that may start now, with its partition index (R171, R178, R322). -/
def startable (s : State) (q : Nat) : Option (Nat × Nat) :=
  match ownerOf s q, (s.queue q).front with
  | some k, some c =>
    let c := c.toNat
    if !s.boot.clocksOff && (s.part k).st = .active && eligible s k q c && !outranked s k q c then some (k, c) else none
  | _, _ => none

/-! ### The hub front end (R165, R340, R450) -/

/-- Ring slot of index i (R166). -/
def slotAddr (Q : QCtx) (i : Nat) : Nat := Q.ringAddr.toNat + 64 * (i % 2 ^ Q.ringLog2.toNat)

/-- A command that ended before it ran takes its place among the started ones and HEAD moves past it. -/
def endAtHead (s : State) (q : Nat) (r : Started) : State :=
  s.modQueue q fun Q => { Q with head := Q.head + 1, fetching := false, bad := none, started := Q.started ++ [{ r with idx := Q.head }] }

/-- EXP_SEQ adds 1; 0xFFFF_FFFF is accepted once (R340, R341). -/
def bumpSeq (Q : QCtx) : QCtx := { Q with expSeq := Q.expSeq + 1, seqSpent := Q.seqSpent || Q.expSeq = 0xFFFFFFFF }

/-- A failed read of a ring slot (R450). -/
def ringFault (s : State) (q : Nat) (status : BitVec 8) (faddr : Nat) : State :=
  let seq := (s.queue q).expSeq
  endAtHead (s.modQueue q bumpSeq) q
    { cmd := BitVec.ofNat 512 (seq.toNat * 2 ^ 32), status := status, ukind := 8, faddr := BitVec.ofNat 48 faddr }

/-- Whether a queue's HEAD holds a quiescing command that R171 lets start (R191). -/
def mayHold (Q : QCtx) : Bool :=
  match Q.front with
  | some c => quiescing c.toNat && mayStart Q c.toNat
  | none => false

/-- A quiescing command that R171 lets start holds its partition; among several that waited, R178's first (R191). -/
def claimHold (s : State) (k : Nat) : State :=
  if (s.part k).holder.isSome then s
  else
    match (queuesOf s k).filter fun q => mayHold (s.queue q) with
    | [] => s
    | q :: r =>
      let best := r.foldl (fun a b =>
        if ranksBefore (s.queue b).prio.toNat (s.queue b).since b (s.queue a).prio.toNat (s.queue a).since a then b else a) q
      s.modPart k fun P => { P with holder := some (BitVec.ofNat 20 best) }

/-- The hold of queue q, if it has it, ends now (R191). -/
def endHold (s : State) (k q : Nat) : State :=
  if (s.part k).holder = some (BitVec.ofNat 20 q) then
    s.modPart k fun P => { P with holder := none, moment := P.moment + 1, heldEnd := P.moment + 1 }
  else s

/-- The command at HEAD of queue q becomes eligible now, as far as R171 goes (R178). -/
def stamp (s : State) (k q : Nat) : State :=
  let m := (s.part k).moment + 1
  (s.modPart k fun P => { P with moment := m }).modQueue q fun Q => { Q with since := m }

/-- Whether the command at HEAD waits for its queue's own state or predecessors (R171). -/
def headWaits (Q : QCtx) : Bool :=
  match Q.front with
  | some c => !mayStart Q c.toNat
  | none => true

/-! ### Cached contexts (R179) -/

/-- Contexts the hub caches, and contexts a slice caches (R179). -/
def hubContexts : Nat := 2048
def sliceContexts : Nat := 512

/-- An idle context: no pending doorbell, no started command, no WAIT in progress (R179). -/
def idleCtx (Q : QCtx) : Bool := Q.started = [] ∧ Q.front = none ∧ Q.head = Q.tail

/-- The contexts that leave a cache of n: among the idle ones but q, those whose last doorbells lie furthest in the past, as
many as the cache holds too many (R179). -/
def pagedOut (n q : Nat) (cached : List (Nat × QCtx)) : List Nat :=
  let idle := cached.filter fun e => e.1 ≠ q ∧ idleCtx e.2
  let older (a b : Nat × QCtx) : Bool := a.2.dbOrder < b.2.dbOrder || (a.2.dbOrder = b.2.dbOrder && a.1 < b.1)
  (idle.filter fun e => idle.countP (fun x => older x e) < cached.length - n).map Prod.fst

/-- The hub caches the context of queue q (R179). -/
def cacheHub (s : State) (q : Nat) : State :=
  let s := s.modQueue q fun Q => { Q with paged := false }
  (pagedOut hubContexts q (s.queues.filter fun e => e.2.st ≠ .disabled ∧ !e.2.paged)).foldl
    (fun s v => s.modQueue v fun Q => { Q with paged := true }) s

/-- A slice caches the context of a queue whose command goes to its units (R179). -/
def cacheSlice (s : State) (q sl : Nat) : State :=
  let s := s.modQueue q fun Q => { Q with inSlice := Q.inSlice ||| (1#16 <<< sl) }
  (pagedOut sliceContexts q (s.queues.filter fun e => e.2.inSlice.getLsbD sl)).foldl
    (fun s v => s.modQueue v fun Q => { Q with inSlice := Q.inSlice &&& ~~~(1#16 <<< sl) }) s

/-- The front end has read the command at HEAD: tag and sequence, then header (R165, R340). -/
def acceptCmd (s : State) (k q : Nat) (c : Nat) : State :=
  let Q := s.queue q
  if !cmdAuth (s.part k) Q k q c then
    endAtHead s q { cmd := BitVec.ofNat 512 c, status := stAUTH, ukind := 8, atHead := true }
  else
    let s := s.modQueue q bumpSeq
    if !headerCheck (s.part k) Q c then
      endAtHead s q { cmd := BitVec.ofNat 512 c, status := stINVALID, ukind := 7, atHead := true }
    else
      let s := stamp (s.modQueue q fun Q => { Q with front := some (BitVec.ofNat 512 c), fetching := false }) k q
      claimHold (if heldClass (hdrClass c) then cacheSlice s q (targetSlice (s.part k) c) else s) k

/-- Whether the front end wants the command at HEAD now: it checks a command when it reaches HEAD (log 24). -/
def wantsFetch (Q : QCtx) : Bool :=
  Q.st = .active && Q.front = none && Q.head ≠ Q.tail && !Q.fetching && Q.started.all (fun r => !faulting r.status)

/-- Reads the command at HEAD, from a partition address or through the Cerral cache (R165, R312, R450). -/
def fetchFront (s : State) (q : Nat) : State :=
  let Q := s.queue q
  match ownerOf s q with
  | none => s
  | some k =>
    if !(wantsFetch Q && (s.part k).st = .active) then s
    else
      let a := slotAddr Q Q.head.toNat
      if Q.ringLoc then
        let line := a / 64
        let e := tget ({} : CacheLine) s.link.cache line
        if e.st ≠ .invalid then acceptCmd s k q e.data.toNat
        else
          let s := s.modQueue q fun Q => { Q with fetching := true }
          if s.link.reqs.any (fun r => r.2 = .ring line (k + 1)) then s
          else clRequest s (.ring line (k + 1)) 0x01 0 (k + 1) 0 (BitVec.ofNat 64 (64 * line)) []
      else if readable (s.part k) a 64 then acceptCmd (s.noteRead k a 64) k q (s.loadNat k a 64)
      else ringFault s q stADDRESS a

/-! ### Starting a command -/

/-- HEAD moves past the command that starts (R171). -/
def popFront (s : State) (q : Nat) : State := s.modQueue q fun Q => { Q with head := Q.head + 1, front := none, bad := none }

/-- The command of ring index idx has started, with its progress and outcome so far; the next command is read (R171). -/
def pushStarted (s : State) (q : Nat) (idx : BitVec 24) (c : Nat) (r : Started) : State :=
  fetchFront (s.modQueue q fun Q =>
    { Q with started := Q.started ++ [{ r with idx := idx, cmd := BitVec.ofNat 512 c, since := Q.since }] }) q

/-- Ring index of the command that is starting: HEAD has just moved past it. -/
def startIdx (s : State) (q : Nat) : BitVec 24 := (s.queue q).head - 1

/-- Unit kind of a class (Table 06.6). -/
def unitOf : Nat → Nat
  | 0 => 1 | 1 => 2 | 2 => 3 | 3 => 5 | 4 => 6 | 5 => 7 | 6 => 1 | _ => 0

/-- Bad data at the HEAD of queue q: unless the command at HEAD fails validation it does not use it, and ends with DATA_ERROR and
UE set; what it would have written is not written (05 R160; log 68). -/
def spoilt (s : State) (k q c : Nat) (e : State × Started) : State × Started :=
  match (s.queue q).bad with
  | none => e
  | some a =>
    if e.2.status = stINVALID ∨ e.2.status = stADDRESS then e
    else
      (modHealth (popFront s q) k fun h => { h with ue := true, post := setFlag h.post 0 },
        { status := stDATA, ukind := BitVec.ofNat 4 (unitOf (hdrClass c)), faddr := a })

/-- Runs `f` on the startable command at HEAD of queue q when `sel` picks it; otherwise nothing is enabled (log 1). -/
def runFront (s : State) (q : Nat) (sel : Nat → Bool) (f : State → Nat → Nat → State × Started) : State :=
  match startable s q with
  | some (k, c) =>
    if sel c then
      let e := spoilt s k q c (f (popFront s q) k c)
      pushStarted e.1 q (s.queue q).head c e.2
    else s
  | none => s

/-- Starts the command at HEAD of queue q that `sel` picks; `f` runs it, and `g` goes on with its work where it is not done
(R171, log 1). -/
def startThen (s : State) (q : Nat) (sel : State → Nat → Nat → Bool) (f : State → Nat → Nat → State × Started)
    (g : State → Nat → Started → State) : State :=
  match startable s q with
  | none => s
  | some (k, c) =>
    if !sel s k c then s
    else
      let idx := (s.queue q).head
      let e := spoilt s k q c (f (popFront s q) k c)
      let s' := pushStarted e.1 q idx c e.2
      if e.2.work = .done then s' else g s' k { e.2 with idx := idx, cmd := BitVec.ofNat 512 c }

/-- Picks a class kind. -/
def isKind (cls kind c : Nat) : Bool := hdrClass c = cls ∧ hdrKind c = kind

/-- A command that failed validation (R93, R165). -/
def failed (st : BitVec 8) (ukind : Nat) (faddr : Nat := 0) (uidx : Nat := 0) (detail : Nat := 0) : Started :=
  { status := st, ukind := BitVec.ofNat 4 ukind, faddr := BitVec.ofNat 48 faddr, uidx := BitVec.ofNat 12 uidx,
    detail := BitVec.ofNat 16 detail }

/-- Changes one started command. -/
def modStarted (s : State) (q : Nat) (idx : BitVec 24) (f : Started → Started) : State :=
  s.modQueue q fun Q => { Q with started := Q.started.map fun r => if r.idx = idx then f r else r }

/-- Ends a started command's work with a status. -/
def endWork (s : State) (q : Nat) (idx : BitVec 24) (st : BitVec 8) : State :=
  modStarted s q idx fun r => { r with work := .done, status := if faulting r.status then r.status else st }

/-- Adds a conversion's events to the queue's counters (R45) and the partition's HC_SAT and HC_FLUSH (07 Table 07.10). -/
def countEvt (s : State) (k q : Nat) (e : Evt) : State :=
  (modHealth s k fun h => { h with sat := satAdd 32 h.sat e.sat, flush := satAdd 32 h.flush e.flush }).modQueue q fun Q =>
    { Q with satCnt := satAdd 32 Q.satCnt e.sat, nanInCnt := satAdd 32 Q.nanInCnt e.nanIn,
             flushCnt := satAdd 32 Q.flushCnt e.flush }

/-- Adds to HC_NAN (07 Table 07.10) and to HC_DIV0. -/
def countNan (s : State) (k n : Nat) : State := modHealth s k fun h => { h with nan := satAdd 32 h.nan n }
def countDiv0 (s : State) (k n : Nat) : State := modHealth s k fun h => { h with div0 := satAdd 32 h.div0 n }

/-- Completion bits and STRICT from a command's events (R46, R47). -/
def withEvt (strict : Bool) (e : Evt) (r : Started) : Started :=
  { r with sat := e.sat > 0, nanIn := e.nanIn > 0, flush := e.flush > 0,
           status := if strict && (e.sat > 0 || e.nanIn > 0) && !faulting r.status then stRANGE else r.status }

/-! ### Faults (R174, Table 06.6) -/

/-- The fault record of a command that ended with a faulting status. -/
def faultRec (step : BitVec 48) (r : Started) : FaultRec :=
  { step := step, faddr := r.faddr, ukind := r.ukind, uidx := r.uidx, detail := r.detail,
    seq := BitVec.ofNat 32 (hdrSeq r.cmd.toNat), idx := r.idx, status := r.status, fcount := 1,
    cmd := BitVec.ofNat 256 (r.cmd.toNat / 2 ^ 128) }

/-- A queue takes a fault: the first fault's record is kept, each later one only counts (R174). -/
def enterFault (s : State) (k q : Nat) (f : FaultRec) : State :=
  let Q := s.queue q
  let rec' := if Q.fault.fcount = 0 then f else { Q.fault with fcount := satAdd 16 Q.fault.fcount 1 }
  let s' := s.putQueue q { Q with fault := rec', st := if Q.st = .resetting then .resetting else .faulted }
  if Q.st = .faulted then s'
  else
    qEvent (s'.modPart k fun P =>
      { P with qpage := { P.qpage with lastFault := BitVec.ofNat 20 q },
               health := { P.health with qfault := true, post := setFlag P.health.post 1 } }) k 0

/-! ### Completion (R167, R172, R173, R451) -/

/-- Address of the completion record of index i (R167). -/
def recordAddr (Q : QCtx) (i : Nat) : Nat := Q.cplAddr.toNat + 16 * (i % 2 ^ Q.ringLog2.toNat)

/-- The 16 B completion record (Table 06.5). -/
def recordOfCmd (Q : QCtx) (r : Started) : Bytes :=
  let i := r.idx.toNat
  let phase := ((i >>> Q.ringLog2.toNat) + 1) % 2
  toLe 16 (hdrSeq r.cmd.toNat * 2 ^ 96 + i * 2 ^ 72 + r.status.toNat * 2 ^ 64 + phase * 16
    + r.degen.toNat * 8 + r.flush.toNat * 4 + r.nanIn.toNat * 2 + r.sat.toNat)

/-- A record that could not be written gives its command ADDRESS or DATA_ERROR unless its own status faults (R451). -/
def badRecord (st : BitVec 8) (faddr : Nat) (r : Started) : Started :=
  if faulting r.status then r else { r with status := st, ukind := 7, uidx := 0, detail := 0, faddr := BitVec.ofNat 48 faddr }

/-- PAUSING becomes PAUSED once nothing runs (R175). -/
def settlePause (s : State) (k q : Nat) : State :=
  let Q := s.queue q
  if Q.st = .pausing ∧ Q.started = [] then qEvent (s.putQueue q { Q with st := .paused }) k 1 else s

/-- Whether a command signals per page (R143). -/
def pageSig (c : Nat) : Bool := isKind 3 0x10 c && bitOf c 210

/-- Where an inward transfer has brought bytes, and how many (CXFER, SXFER READ). -/
def broughtIn (c : Nat) : Option (Nat × Nat) :=
  if isKind 3 0x11 c ∧ !bitOf c 272 then some (fld c 175 128, fld c 271 240)
  else if isKind 3 0x12 c ∧ fld c 217 216 = 0 then some (fld c 175 128, fld c 207 176)
  else none

/-- Bytes of a partition's small state beside the tables that its step plans name (12 Table 12.6). -/
def smallFixed (P : Part) : Nat :=
  64 + 16 * P.alloc.qcount.toNat + 8 * P.alloc.ccount.toNat + 64 * 32 + 64
    + (match P.job with | some J => 32 * (J.x * J.y * J.z * J.w) | none => 0) + 64 + 256 + 64

/-- Bytes of the tables that step plans name. -/
def tableBytes (plans : List Bytes) : Nat := ((Config.planTables plans).map Prod.snd).foldl (· + ·) 0

/-- A step plan that came by a command which passed R340 is the step service's from now on, unless the small state it asks for
exceeds 64 MiB (11 R342; 12 R370; log 77). -/
def keepPlan (s : State) (k c : Nat) : State :=
  match broughtIn c with
  | none => s
  | some (a, n) =>
    let b := s.load k a n
    let P := s.part k
    if Config.isPlan b ∧ smallFixed P + tableBytes (P.plans ++ [b]) ≤ 2 ^ 26 then
      s.modPart k fun P => { P with plans := P.plans ++ [b] }
    else s

/-- The effects of a completion after its record: counters, signal, fault, pause, hold (R172 to R175, R191). -/
def closeCmd (s : State) (k q : Nat) (r : Started) : State :=
  let c := r.cmd.toNat
  let waited := headWaits (s.queue q)
  let s := s.modQueue q fun Q =>
    { Q with started := Q.started.drop 1, degenCnt := if r.degen then satAdd 32 Q.degenCnt 1 else Q.degenCnt }
  let s := if hdrCplEn c && (r.status = stOK || r.status = stLIMIT) && !pageSig c then addCtr s k (hdrCplCtr c) 1 else s
  let s := if faulting r.status then enterFault s k q (faultRec (s.part k).stepNo r) else s
  let s := if r.status = stOK then keepPlan s k c else s
  let s := if quiescing c then endHold s k q else s
  let s := match r.work with
    | .selfPause => s.modQueue q fun Q => if Q.st = .active then { Q with st := .pausing } else Q
    | .selfReset d => s.modQueue q fun Q => { Q with st := .resetting, resetBy := some (BitVec.ofNat 20 q, d) }
    | _ => s
  let s := settlePause s k q
  let s := if waited && !headWaits (s.queue q) then stamp s k q else s
  claimHold (fetchFront s q) k

/-! ### Reset of a queue (R176) -/

/-- Whether a command's unit has stopped at its boundary (Table 06.11): pages in flight, outstanding requests and
retained packets, those of queue pairs too, are waited for. -/
def stopped (P : Part) (q : Nat) (r : Started) : Bool :=
  (match r.work with
   | .pages _ busy _ _ => busy.all fun b => b.2
   | .cxfer _ out _ _ _ => out = 0
   | .sxfer i | .sread i _ _ _ _ | .expose i => (tget ({} : Qp) P.qps i).unacked.all fun p => p.cmd ≠ some (BitVec.ofNat 20 q, r.idx)
   | _ => true) && P.conns.all fun c => c.2.msgs.all fun m => m.2.1.toNat ≠ q

/-- Frees the cores that run a command p picks: from this moment on they may take another (R171, R178). -/
def freeVcs (s : State) (p : BitVec 20 × BitVec 24 → Bool) : State :=
  match s.vcs.findSome? fun e => e.2.run.bind fun r => if p r then ownerOf s r.1.toNat else none with
  | none => s
  | some k =>
    let m := (s.part k).moment + 1
    (s.modPart k fun P => { P with moment := m }).setVcs (tmodAll {} s.vcs (s.vcs.map Prod.fst) fun _ v =>
      match v.run with
      | some r => if p r then { v with run := none, ended := false, freed := m } else v
      | none => v)

/-- No new packet of queue q's messages is sent: what has been cut and not sent is dropped (Table 06.11). -/
def dropUnsent (q : Nat) (c : Conn) : Conn :=
  let own (n : BitVec 32) : Bool := c.msgs.any fun m => m.1 = n && m.2.1.toNat = q
  { c with waiting := c.waiting.filter (fun p => !own p.msn),
           msgs := c.msgs.filter fun m => m.2.1.toNat ≠ q || c.retained.any fun p => p.msn = m.1 }

/-- The collective engine leaves the commands of a queue being reset: packets not sent, its vote, its Jersey transition (Table
06.11; 08 R251, R252 (log 42)). -/
def stopColl (Q : QCtx) (q : Nat) (P : Part) : Part :=
  { P with conns := P.conns.map fun e => (e.1, dropUnsent q e.2),
           vote := if P.vote.any fun v => v.qid.toNat = q then none else P.vote,
           nextJob := if Q.started.any fun r => r.work = .jersey then none else P.nextJob }

/-- Stops the started commands of a queue being reset: waiting output tiles are dropped, vector cores are freed, pages not
accepted are dropped, packets not sent are not sent any more. -/
def stopUnits (s : State) (q : Nat) : State :=
  let s := match ownerOf s q with
    | some k => s.modPart k (stopColl (s.queue q) q)
    | none => s
  let s := s.setMus (tmodAll {} s.mus (s.mus.map Prod.fst) fun _ m => { m with queue := m.queue.filter fun j => j.q.toNat ≠ q })
  (freeVcs s fun r => r.1.toNat = q).modQueue q fun Q =>
    { Q with started := Q.started.map fun r => match r.work with
      | .pages _ busy _ pins => { r with work := .pages [] busy none pins }
      | .cxfer _ out got ch obj => { r with work := .cxfer [] out got ch obj }
      | _ => r }

/-- Writes one ABORTED record; one that cannot be written faults its queue (R176, R451). -/
def abortRecord (s : State) (k q : Nat) (r : Started) : State :=
  let Q := s.queue q
  if !Q.cplRec then s
  else
    let a := recordAddr Q r.idx.toNat
    let x := { r with status := stABORTED, degen := false, sat := false, nanIn := false, flush := false }
    if Q.cplLoc then clWritePart s (.aborted (BitVec.ofNat 20 q) r.idx r.cmd) (k + 1) a (recordOfCmd Q x)
    else if writable (s.part k) a 16 then s.store k a (recordOfCmd Q x)
    else enterFault s k q (faultRec (s.part k).stepNo (badRecord stADDRESS a x))

/-- The companion could not take an ABORTED record: its queue faults, reset as it is (R451; log 73). -/
def abortFails (s : State) (q : Nat) (idx : BitVec 24) (cmd : BitVec 512) (st : BitVec 8) : State :=
  match ownerOf s q with
  | none => s
  | some k =>
    if (s.queue q).st = .disabled then s
    else enterFault s k q (faultRec (s.part k).stepNo (badRecord st 0 { idx := idx, cmd := cmd, status := stABORTED }))

/-- The commands from HEAD to TAIL - 1 that never started, for their ABORTED records. A slot of a companion ring is not read
again: its SEQ follows that of the command at HEAD, which EXP_SEQ counts already once it has passed the front end. -/
def unstarted (s : State) (k q : Nat) : List Started :=
  let Q := s.queue q
  let seq := if Q.front.isSome then (Q.expSeq - 1).toNat else Q.expSeq.toNat
  (List.range (Q.tail - Q.head).toNat).map fun j =>
    let i := Q.head + BitVec.ofNat 24 j
    let a := slotAddr Q i.toNat
    let c := if Q.ringLoc then (match Q.front, j with | some f, 0 => f.toNat | _, _ => (seq + j) % 2 ^ 32 * 2 ^ 32) else s.loadNat k a 64
    { idx := i, cmd := BitVec.ofNat 512 c }

/-- The values of Table 06.4's Reset column. -/
def clearCtx (Q : QCtx) (st : QState) : QCtx :=
  { Q with head := Q.tail, satCnt := 0, nanInCnt := 0, flushCnt := 0, degenCnt := 0, fault := {}, front := none, bad := none,
           fetching := false, started := [], resetBy := none, st := st }

/-- Finishes the reset of a RESETTING queue once every unit has stopped (R176). -/
def finishReset (s : State) (k q : Nat) : State :=
  let Q := s.queue q
  match Q.resetBy with
  | some (_, dis) =>
    if Q.st = .resetting ∧ Q.started.all (stopped (s.part k) q) then
      let l := Q.started ++ unstarted s k q
      let s := if Q.ringLoc || !Q.cplRec then s
        else (unstarted s k q).foldl (fun s r => s.noteIf k (slotAddr Q r.idx.toNat) 64) s
      let s := l.foldl (fun s r => abortRecord s k q r) s
      let s := dropDone (endHold s k q) k
      claimHold (s.modQueue q fun Q => clearCtx Q (if dis then .disabled else .active)) k
    else s
  | none => s

/-- Puts a queue into RESETTING and stops its started commands (R176). -/
def beginReset (s : State) (q by_ : Nat) (dis : Bool) : State :=
  let Q := s.queue q
  if Q.st = .resetting then s
  else
    stopUnits (s.putQueue q { Q with st := .resetting, resetBy := some (BitVec.ofNat 20 by_, dis || Q.st = .disabled) }) q

/-- Whether the oldest started command's work has ended; a QRESET's ends when its target has left RESETTING. -/
def workEnded (s : State) (r : Started) : Bool :=
  match r.work with
  | .done | .selfPause | .selfReset _ => true
  | .qreset t _ => (s.queue t.toNat).st ≠ .resetting
  | .phase l => l.all fun i => (s.slice i).change = none
  | _ => false

/-- The oldest started command of queue q completes: record, then counter, then the rest (R172). A record for companion
memory is sent first and the rest follows its CMP (R299). -/
def completeOldest (s : State) (k q : Nat) : State :=
  let Q := s.queue q
  match Q.started with
  | [] => s
  | r :: _ =>
    if !workEnded s r ∨ r.recTag.isSome then s
    else if !Q.cplRec then closeCmd s k q r
    else
      let a := recordAddr Q r.idx.toNat
      if Q.cplLoc then
        let t := (freeTag s.link.reqs s.link.nextTag).toNat
        let s := modStarted s q r.idx fun r => { r with recTag := some t }
        clWritePart s (.record (BitVec.ofNat 20 q) r.idx) (k + 1) a (recordOfCmd Q r)
      else if writable (s.part k) a 16 then closeCmd (s.store k a (recordOfCmd Q r)) k q r
      else closeCmd s k q (badRecord stADDRESS a r)

/-- COMMAND_COMPLETES (R172): the oldest started command whose work has ended completes; a queue that is RESETTING, or
that a waiting QRESET names, finishes its reset first (R176). -/
def execCommandCompletes (q : Qid) (s : State) : Host.Outcome State Fault Refusal :=
  let q := q.toNat
  outcome s <|
    match ownerOf s q with
    | none => s
    | some k =>
      if (s.queue q).st = .resetting then finishReset s k q
      else
        let s := match (s.queue q).started with
          | r :: _ => (match r.work with | .qreset t _ => finishReset s k t.toNat | _ => s)
          | [] => s
        completeOldest s k q

/-! ### Doorbells (R170) -/

/-- A dropped doorbell (R170). -/
def dropDoorbell (s : State) (k : Nat) : State :=
  qEvent (s.modPart k fun P => { P with qpage := { P.qpage with dbDrop := satAdd 64 P.qpage.dbDrop 1 } }) k 2

/-- A doorbell of queue q comes last in order, and its context is cached (R179). -/
def pageContext (s : State) (q : Nat) : State :=
  cacheHub ((s.modQueue q fun Q => { Q with dbOrder := s.order + 1 }).setOrder (s.order + 1)) q

/-- A doorbell from partition k's page (R170). -/
def doorbell (s : State) (k : Nat) (val : BitVec 64) : State :=
  let q := val.toNat % 2 ^ 20
  let tail : BitVec 24 := val.extractLsb' 20 24
  let P := s.part k
  let Q := s.queue q
  let inRange := P.alloc.qbase.toNat ≤ q ∧ q < P.alloc.qbase.toNat + P.alloc.qcount.toNat
  if ¬inRange ∨ Q.st = .disabled ∨ P.st ≠ .active then dropDoorbell s k
  else if tail = Q.tail then s
  else if (tail - Q.head).toNat ≤ 2 ^ Q.ringLog2.toNat ∧ (tail - Q.tail).toNat < 2 ^ 23 then
    fetchFront (pageContext (s.modQueue q fun Q => { Q with tail := tail }) q) q
  else
    enterFault s k q { step := P.stepNo, ukind := 8, idx := tail, status := stDOORBELL, fcount := 1 }

/-- Q_DOORBELL (R170). -/
def execQDoorbell (k : Fin 16) (val : BitVec 64) (s : State) : Host.Outcome State Fault Refusal :=
  outcome s (if s.boot.clocksOff then s else doorbell s k.val val)

/-- SYNC_ARM_VAL (R449): stores the value and arms the watch when SYNC_ARM_ID lies in the partition's range. -/
def armWatch (s : State) (k : Nat) (val : BitVec 64) : State :=
  checkArm (s.modPart k fun P =>
    { P with qpage := { P.qpage with armVal := val, armed := ctrIn P P.qpage.armId.toNat, armedId := P.qpage.armId } }) k

/-- SYNC_ARM_VAL (R449). -/
def execSyncArmVal (k : Fin 16) (val : BitVec 64) (s : State) : Host.Outcome State Fault Refusal :=
  outcome s (if s.boot.clocksOff then s else armWatch s k.val val)

end Sys2Proof.Machine
end

