-- ==== Sys2Proof/Machine/Control.lean ====
section
/-! DEFINITION. The common command kinds and the control class (06 R164, R177, R182, R183). -/

namespace Sys2Proof.Machine

open Sys2Proof

/-- WAIT (R183): starts, and its work ends, once its counter has reached VALUE. -/
def execWait (q : Qid) (s : State) : Host.Outcome State Fault Refusal :=
  outcome s <| runFront s q.toNat (fun c => hdrKind c = 0) fun s k c =>
    (s, if waitValid (s.part k) c then {} else failed stINVALID (unitOf (hdrClass c)))

/-- SIGNAL (R182): adds ADD to a counter of the partition. -/
def execSignal (q : Qid) (s : State) : Host.Outcome State Fault Refusal :=
  outcome s <| runFront s q.toNat (fun c => hdrKind c = 1) fun s k c =>
    if ctrIn (s.part k) (fld c 141 128) ∧ fld c 175 144 ≠ 0 ∧ bodyClear c [(141, 128), (175, 144)] then
      (addCtr s k (fld c 141 128) (fld c 175 144), {})
    else (s, failed stINVALID (unitOf (hdrClass c)))

/-- NOP (R164): does nothing; its body is reserved (Table 06.3). -/
def execNop (q : Qid) (s : State) : Host.Outcome State Fault Refusal :=
  outcome s <| runFront s q.toNat (fun c => hdrKind c = 3) fun s _ c =>
    (s, if bodyClear c [] then {} else failed stINVALID (unitOf (hdrClass c)))

/-! ### Control class (R177, Table 06.9) -/

/-- Whether a queue ID is the partition's (R177). -/
def queueIn (P : Part) (q : Nat) : Bool := P.alloc.qbase.toNat ≤ q ∧ q < P.alloc.qbase.toNat + P.alloc.qcount.toNat

/-- Validity of a QCONFIG image and class (R166). -/
def configOk (P : Part) (img cls : Nat) : Bool :=
  let log2 := fld img 52 48
  let n := 2 ^ log2
  4 ≤ log2 && log2 ≤ 20 && cls ≤ 6 && fld img 63 54 = 0 && fld img 127 114 = 0
    && fld img 47 0 % 64 = 0 && fld img 111 64 % 64 = 0
    && (bitOf img 53 || readable P (fld img 47 0) (64 * n))
    && (!bitOf img 112 || bitOf img 113 || readable P (fld img 111 64) (16 * n))

/-- The context after QCONFIG: the Config fields of the image, every other field at Table 06.4's Reset column. -/
def configured (Q : QCtx) (img cls prio : Nat) : QCtx :=
  { clearCtx Q .active with
    ringAddr := BitVec.ofNat 48 (fld img 47 0), ringLog2 := BitVec.ofNat 5 (fld img 52 48), ringLoc := bitOf img 53,
    cplAddr := BitVec.ofNat 48 (fld img 111 64), cplRec := bitOf img 112, cplLoc := bitOf img 113,
    cls := BitVec.ofNat 3 cls, prio := BitVec.ofNat 2 prio }

/-- QCONFIG (R166, Table 06.9). -/
def execQconfig (q : Qid) (s : State) : Host.Outcome State Fault Refusal :=
  outcome s <| runFront s q.toNat (isKind 5 0x10) fun s k c =>
    let t := fld c 147 128
    let img := fld c 275 148
    let cls := fld c 278 276
    if queueIn (s.part k) t ∧ (s.queue t).st = .disabled ∧ bodyClear c [(147, 128), (275, 148), (278, 276), (280, 279)]
        ∧ configOk (s.part k) img cls then
      (cacheHub (s.modQueue t fun Q => configured Q img cls (fld c 280 279)) t, {})
    else (s, failed stINVALID 7)

/-- QPAUSE of a queue (R175): ACTIVE to PAUSING, then PAUSED once nothing it started is left. -/
def pauseQueue (s : State) (k t : Nat) : State :=
  if (s.queue t).st = .active then settlePause (s.modQueue t fun Q => { Q with st := .pausing }) k t else s

/-- QPAUSE (R175). A queue that pauses itself does so after this command has completed (R177). -/
def execQpause (q : Qid) (s : State) : Host.Outcome State Fault Refusal :=
  outcome s <| runFront s q.toNat (isKind 5 0x11) fun s k c =>
    let t := fld c 147 128
    if queueIn (s.part k) t ∧ bodyClear c [(147, 128)] then
      if t = q.toNat then (s, { work := .selfPause }) else (pauseQueue s k t, {})
    else (s, failed stINVALID 7)

/-- KMAC256 with an output of n bytes (11 R334). -/
def kmac (key x : Bytes) (n : Nat) (label : String) : Bytes := fit n (Config.kmac256 key x (8 * n) label)

/-- Loads an XFT key slot (R335, R336): the first generation after JOIN becomes the send slot at once, a later one at its switch
step. -/
def loadSlot (P : Part) (js : Bytes) (i g st : Nat) : Part :=
  let x : XftSlot := { key := some (kmac js (toLe 4 g) 32 "XT4 XFT"), gen := BitVec.ofNat 32 g }
  let P := { P with xslots := tset {} P.xslots i x }
  if P.job.isNone then P
  else if P.sendSlot.isNone then { P with sendSlot := some i }
  else { P with nextSlots := (i, BitVec.ofNat 48 st, P.substituting) :: P.nextSlots.filter fun e => e.1 ≠ i }

/-- A loaded key slot becomes the send slot; the slot it replaces keeps its key for DEAD_T (R336). -/
def takeSlot (P : Part) (i : Nat) : Part :=
  let x := match P.sendSlot with
    | some o => if o = i then P.xslots else tmod {} P.xslots o fun y => { y with leaving := true }
    | none => P.xslots
  { P with
    sendSlot := some i, nextSlots := P.nextSlots.filter fun e => e.1 ≠ i
    xslots := tmod {} x i fun y => { y with leaving := false } }

/-- At the COMMIT that sets the step number to a loaded slot's switch step (R336 step 2). -/
def switchAtCommit (P : Part) : Part :=
  match P.nextSlots.find? fun e => e.2.1 = P.stepNo with
  | some e => takeSlot P e.1
  | none => P

/-- During a substitution every member switches to the slot loaded for it when its queues resume (R336). -/
def switchAtResume (P : Part) : Part :=
  match P.nextSlots.find? fun e => P.substituting && e.2.2 with
  | some e => takeSlot P e.1
  | none => P

/-- The step service has the security processor derive the generation after the send slot's into the lowest slot that is not the
send slot (R335, R336; which slot is a DESIGN CHOICE, log 50): the partition, and the slot. -/
def deriveSlot (P : Part) (step : Nat) : Part × Option Nat :=
  match P.keys.js, P.sendSlot with
  | some js, some i =>
    let j := if i = 0 then 1 else 0
    (loadSlot P js j ((tget {} P.xslots i).gen.toNat + 1) step, some j)
  | _, _ => (P, none)

/-- A new generation that is in use at once (R335). -/
def deriveNow (P : Part) : Part :=
  match deriveSlot P P.stepNo.toNat with
  | (P, some j) => takeSlot P j
  | (P, none) => P

/-- At JOIN the newest generation loaded before it becomes the send slot: a standby starts with it (R336). -/
def takeLoaded (P : Part) : Part :=
  match P.xslots.filter fun e => e.2.key.isSome with
  | [] => P
  | e :: r => takeSlot P (r.foldl (fun a b => if a.2.gen.toNat < b.2.gen.toNat then b else a) e).1

/-- QRESUME of a queue (R175): back to ACTIVE at HEAD. -/
def resumeQueue (s : State) (k t : Nat) : State :=
  let Q := s.queue t
  if Q.st = .pausing ∨ Q.st = .paused ∨ Q.st = .faulted then
    claimHold (fetchFront (stamp ((s.putQueue t { Q with st := .active }).modPart k switchAtResume) k t) t) k
  else s

/-- QRESUME (R175). -/
def execQresume (q : Qid) (s : State) : Host.Outcome State Fault Refusal :=
  outcome s <| runFront s q.toNat (isKind 5 0x12) fun s k c =>
    let t := fld c 147 128
    if queueIn (s.part k) t ∧ bodyClear c [(147, 128)] then (resumeQueue s k t, {}) else (s, failed stINVALID 7)

/-- QRESET (R176): completes when the target has left RESETTING; a queue that resets itself completes first (R177). -/
def execQreset (q : Qid) (s : State) : Host.Outcome State Fault Refusal :=
  outcome s <| runFront s q.toNat (isKind 5 0x13) fun s k c =>
    let t := fld c 147 128
    let dis := bitOf c 148
    if queueIn (s.part k) t ∧ bodyClear c [(148, 128)] then
      if t = q.toNat then (s, { work := .selfReset dis })
      else (finishReset (beginReset s t q.toNat dis) k t, { work := .qreset (BitVec.ofNat 20 t) dis })
    else (s, failed stINVALID 7)

/-- State codes (Table 06.7). -/
def qStateCode : QState → Nat
  | .disabled => 0 | .active => 1 | .pausing => 2 | .paused => 3 | .faulted => 4 | .resetting => 5

/-- The 64 B fault record (Table 06.6). -/
def faultImage (f : FaultRec) : Nat :=
  f.step.toNat * 2 ^ 416 + f.faddr.toNat * 2 ^ 368 + f.ukind.toNat * 2 ^ 364 + f.uidx.toNat * 2 ^ 352
    + f.detail.toNat * 2 ^ 336 + f.seq.toNat * 2 ^ 304 + f.idx.toNat * 2 ^ 280 + f.status.toNat * 2 ^ 272
    + f.fcount.toNat * 2 ^ 256 + f.cmd.toNat

/-- The 128 B context of a queue of partition k (Table 06.4). -/
def ctxImage (k : Nat) (Q : QCtx) : Nat :=
  faultImage Q.fault * 2 ^ 384 + Q.degenCnt.toNat * 2 ^ 352 + Q.flushCnt.toNat * 2 ^ 320 + Q.nanInCnt.toNat * 2 ^ 288
    + Q.satCnt.toNat * 2 ^ 256 + Q.expSeq.toNat * 2 ^ 224 + Q.tail.toNat * 2 ^ 192 + Q.head.toNat * 2 ^ 160
    + (k + 1) * 2 ^ 136 + qStateCode Q.st * 2 ^ 133 + Q.prio.toNat * 2 ^ 131 + Q.cls.toNat * 2 ^ 128
    + Q.cplLoc.toNat * 2 ^ 113 + Q.cplRec.toNat * 2 ^ 112 + Q.cplAddr.toNat * 2 ^ 64
    + Q.ringLoc.toNat * 2 ^ 53 + Q.ringLog2.toNat * 2 ^ 48 + Q.ringAddr.toNat

/-- QREAD (R177): copies the 128 B context to the destination. -/
def execQread (q : Qid) (s : State) : Host.Outcome State Fault Refusal :=
  outcome s <| runFront s q.toNat (isKind 5 0x14) fun s k c =>
    let t := fld c 147 128
    let d := fld c 223 176
    if !(queueIn (s.part k) t && d % 128 = 0 && bodyClear c [(147, 128), (223, 176)]) then (s, failed stINVALID 7)
    else if !writable (s.part k) d 128 then (s, failed stADDRESS 7 d)
    else (s.store k d (toLe 128 (ctxImage k (s.queue t))), {})

/-- CTR_RESET (R182): sets a run of the partition's counters to zero. -/
def execCtrReset (q : Qid) (s : State) : Host.Outcome State Fault Refusal :=
  outcome s <| runFront s q.toNat (isKind 5 0x15) fun s k c =>
    let f := fld c 141 128
    let n := fld c 156 142
    if 1 ≤ n ∧ n ≤ 16384 ∧ ctrIn (s.part k) f ∧ ctrIn (s.part k) (f + n - 1) ∧ bodyClear c [(141, 128), (156, 142)] then
      (s.setCtrs (s.ctrs.filter fun e => e.1 < f ∨ f + n ≤ e.1), {})
    else (s, failed stINVALID 7)

end Sys2Proof.Machine
end

