-- ==== Sys2Proof/Machine/Flags.lean ====
section
/-! DEFINITION. Flags that several units set: Ripstop events and the risk estimate (12 R365 to R367, R383, R384),
PM_ALERT and its pin (13 Tables 13.8, 13.9), the health word (07 R211). -/

namespace Sys2Proof.Machine

open Sys2Proof

/-! ### Physical sites (01 R13, Table 01.3) -/

/-- Classes of blocks beside those of Ops.lean: near channels, Serge modules, application cores, thermal sensors. -/
def clsNear : Nat := 4
def clsLane : Nat := 5
def clsCore : Nat := 6
def clsSensor : Nat := 7

/-- Sites of one band (01 Table 01.3). -/
def perBand : Nat → Nat
  | 0 => 6 | 1 => 4 | 2 => 1 | 3 => 32 | 4 => 8 | 7 => 4 | _ => 1

/-- Physical site of a logical index on a die: POS[1] turns the bands round, and the modules of the edge; the sensor at the
die's centre and the application cores keep their numbers (01 R13, Table 01.3). -/
def siteOf (s : State) (cls die idx : Nat) : Nat :=
  let turned := (s.die die).strap.getLsbD 1
  if cls = clsCore ∨ (cls = clsSensor ∧ idx = 16) ∨ !turned then idx
  else if cls = clsLane then 15 - idx
  else (3 - idx / perBand cls) * perBand cls + idx % perBand cls

/-! ### Risk (Table 12.4, R366) -/

/-- Weight of an event class (Table 12.4). -/
def weightOf : Nat → Nat
  | 0x01 => 20 | 0x02 => 20 | 0x03 => 10 | 0x04 => 500 | 0x05 => 5000 | 0x06 => 2 | 0x07 => 1000 | 0x08 => 50 | 0x09 => 200
  | 0x0A => 2000 | 0x0B => 6000 | 0x0C => 300 | 0x0D => 3000 | 0x0E => 4000 | 0x0F => 2000 | 0x10 => 100 | 0x11 => 10000
  | 0x12 => 1000 | 0x13 => 3000 | 0x14 => 50000 | _ => 0

/-- Window of an event class in seconds; 0 for a persistent class (Table 12.4). -/
def windowOf : Nat → Nat
  | 0x01 | 0x02 | 0x03 | 0x07 | 0x08 | 0x0C | 0x13 => 3600
  | 0x04 | 0x05 | 0x09 | 0x10 | 0x11 | 0x12 => 86400
  | 0x06 => 600
  | _ => 0

/-- Events of a windowed class in its 64 buckets, capped at 65,535 (R366). -/
def windowCount (r : Ripstop) (c : Nat) : Nat := min 65535 ((tget [] r.buckets c).foldl (· + ·) 0)

/-- risk(warm, n, pers) (R366). -/
def riskOf (r : Ripstop) : Nat :=
  min 65535 (r.warm + ((List.range 0x14).map (· + 1)).foldl (fun t c =>
    t + weightOf c * (if windowOf c = 0 then min 1 (tget 0 r.pers c) else windowCount r c)) 0)

/-- PM_ALERT (Table 13.9). -/
def pmAlert (p : Power) : Nat :=
  p.bootFail.toNat * 16 + p.evacuate.toNat * 8 + p.hotstop.toNat * 4 + p.overCap.toNat * 2 + p.regFault.toNat

/-- ALERT_N is low while any unmasked PM_ALERT bit is set (Table 13.7; 14 Table 14.8). -/
def driveAlert (s : State) : State :=
  s.setPins { s.pins with alertN := (pmAlert s.power &&& (255 - s.power.alertMask.toNat)) = 0 }

/-- A substitution of a rank is asked for, planned or not (R367, R381). -/
def askSub (P : Part) (rank : BitVec 16) (planned : Bool) : Part :=
  if P.subAsked.any fun e => e.1 = rank then P else { P with subAsked := P.subAsked ++ [(rank, planned)] }

/-- At a rise to or past the evacuate threshold every member on this device asks for its own substitution (R367, R381). -/
def askEvacuate (s : State) : State :=
  allParts.foldl (fun s k => match (s.part k).job with
    | some J => s.modPart k fun P => askSub P J.rank true
    | none => s) s

/-- Recomputes the risk estimate and PM_ALERT.EVACUATE; each rise to or past the evacuate threshold asks for substitution
(R366, R367). -/
def updateRisk (s : State) : State :=
  let r := riskOf s.ripstop
  let past := decide (s.ripstop.evacTh.toNat ≤ r)
  let rose := past && !s.power.evacuate
  let s := driveAlert ((s.setRipstop { s.ripstop with risk := BitVec.ofNat 16 r }).setPower { s.power with evacuate := past })
  if rose then askEvacuate s else s

/-- Counts an event in its class's newest bucket (R366). -/
def countEvent (r : Ripstop) (c : Nat) : Ripstop :=
  if windowOf c = 0 then r
  else
    let b := tget [] r.buckets c
    { r with buckets := tset [] r.buckets c (match b with | [] => [1] | n :: t => (n + 1) :: t) }

/-- A persistent condition starts (up) or ends (Table 12.4). -/
def setPers (s : State) (c : Nat) (up : Bool) : State :=
  s.setRipstop { s.ripstop with pers := tmod 0 s.ripstop.pers c fun n => if up then n + 1 else n - 1 }

/-- Logs a Ripstop event: counted, the risk recomputed, and its record written to the device ring with vector 0 raised
(R383), or, for classes 0x20 to 0x22 of a partition, to that partition's own ring (R384). `part` is 1 to 16, 0 for device
scope. -/
def ripEvent (s : State) (cls part die lidx psite detail : Nat) : State :=
  let s := updateRisk (s.setRipstop (countEvent s.ripstop cls))
  let rec' : EventRec :=
    { time := s.now, cls := BitVec.ofNat 16 cls, weight := BitVec.ofNat 16 (weightOf cls), risk := s.ripstop.risk,
      part := BitVec.ofNat 5 part, die := BitVec.ofNat 4 die, lidx := BitVec.ofNat 12 lidx, psite := BitVec.ofNat 12 psite,
      detail := BitVec.ofNat 40 detail }
  if 0x20 ≤ cls ∧ part ≠ 0 then
    s.modPart (part - 1) fun P => { P with events := (rec' :: P.events).take 256 }
  else raise (s.setRipstop { s.ripstop with ring := (rec' :: s.ripstop.ring).take 4096 }) 0

/-- Logs a persistent event: its condition now holds (Table 12.4). -/
def ripPersist (s : State) (cls part die lidx psite detail : Nat) : State :=
  ripEvent (setPers s cls true) cls part die lidx psite detail

/-! ### Health word (07 Tables 07.10, 07.11) -/

/-- The five health counters in dictionary order: NAN, SAT, FLUSH, DIV0, XSAT. -/
def healthCounters (h : Health) : List (BitVec 32) := [h.nan, h.sat, h.flush, h.div0, h.xsat]

/-- The health word of a partition (07 R211, R212). -/
def healthWord (P : Part) : Nat :=
  let h := P.health
  let c (i : Nat) : Bool := (P.dict.hcTh.getD i 0).toNat < ((healthCounters h).getD i 0).toNat
  let b (x : Bool) (i : Nat) : Nat := if x then 2 ^ i else 0
  P.stepNo.toNat % 2 ^ 16 * 2 ^ 48 + b h.noLoss 8 + b h.spike 7 + b h.qfault 6 + b h.ue 5
    + b (c 4) 4 + b (c 3) 3 + b (c 2) 2 + b (c 1) 1 + b (c 0 || h.nanLoss) 0

end Sys2Proof.Machine
end

