-- ==== Sys2Proof/Machine/Matrix.lean ====
section
/-! DEFINITION. The matrix units (03): validation of MATMUL, beats, the drain, Ply, Pinstripe, Twill, the memory-side
adders (05 R153), planes and modes. -/

namespace Sys2Proof.Machine

open Sys2Proof

/-! ### S48 arithmetic (R69, R74) -/

/-- s48_add: accumulator (V, X) plus partial P * 2^E (R69). -/
def s48Add (a : Int × Int) (p e : Int) : Int × Int :=
  let (v, x) := a
  if x = -512 then (0, -512)
  else if p = 0 then (v, x)
  else
    let x := if v = 0 then e else x
    let (v, x) := if e > x then (v >>> (e - x).toNat, e) else (v, x)
    let v := v + ((p * 64) >>> (x - e).toNat)
    if v < -(2 ^ 53) ∨ v ≥ 2 ^ 53 then (v >>> 1, x + 1) else (v, x)

/-- s48_merge: stored (V, X) plus incoming (W, Y) (R74). -/
def s48Merge (a b : Int × Int) : Int × Int :=
  let (v, x) := a
  let (w, y) := b
  if x = -512 ∨ y = -512 then (0, -512)
  else if w = 0 then (v, x)
  else if v = 0 then (w, y)
  else
    let (v, x) := if y > x then (v >>> (y - x).toNat, y) else (v, x)
    let v := v + (w >>> (x - y).toNat)
    if v < -(2 ^ 53) ∨ v ≥ 2 ^ 53 then (v >>> 1, x + 1) else (v, x)

/-- The (V, X) of an image, and back (R38). -/
def s48Of (img : Nat) : Int × Int := (s48V img, s48X img)
def s48To (a : Int × Int) : Nat := s48Img a.1 a.2

/-! ### Memory-side adders (05 R153 to R155) -/

/-- One adder operation on the 8 B slot at a partition address. -/
def adder (s : State) (k a : Nat) (f : Int × Int → Int × Int) : State :=
  s.store k a (toLe 8 (s48To (f (s48Of (s.loadNat k a 8)))))

/-- ADD48 arriving at a slot (R153): dropped where the slot may not be written (05 R126, 07 R207). -/
def execAdd48 (k : Fin 16) (addr : BitVec 48) (img : BitVec 64) (s : State) : Host.Outcome State Fault Refusal :=
  outcome s <|
    if !s.boot.clocksOff && addr.toNat % 8 = 0 && writable (s.part k.val) addr.toNat 8 then
      adder s k.val addr.toNat fun a => s48Merge a (s48Of img.toNat)
    else s

/-- ADD32E arriving at a slot (R153): an S32 value at its exchange exponent. -/
def execAdd32e (k : Fin 16) (addr : BitVec 48) (val : BitVec 32) (exp : BitVec 8) (s : State) :
    Host.Outcome State Fault Refusal :=
  outcome s <|
    if !s.boot.clocksOff && addr.toNat % 8 = 0 && writable (s.part k.val) addr.toNat 8 then
      adder s k.val addr.toNat fun a => s48Add a val.toInt exp.toInt
    else s

/-! ### Conversion control words (Table 02.6) -/

def ccwT (w : Nat) : Int := sext 8 (fld w 15 8)
def ccwStrict (w : Nat) : Bool := bitOf w 7
def ccwMode (w : Nat) : Nat := fld w 6 4

/-- What every control word of a command keeps, used or not: reserved bits clear and no reserved mode (R8, R49). -/
def ccwPlain (w : Nat) : Bool := fld w 3 0 = 0 && ccwMode w ≤ 4

/-- What every tensor format field of a command keeps, used or not: a code of a tensor format (R28). -/
def fmtPlain (f : Nat) : Bool := f ≤ 7

/-- A control word its format accepts (R34, R49, R8). -/
def ccwOk (f w : Nat) : Bool := ccwPlain w && modeOk f (ccwMode w)

/-- Group size of a tensor: 0 when plain or row-scaled (R35). -/
def tensorGroup (w : Nat) : Nat := groupOf (ccwMode w)

/-! ### The command (Table 03.9) and its descriptor (Table 03.10) -/

def mBiasT (c : Nat) : Int := sext 8 (fld c 375 368)
def mCcwD2 (c : Nat) : Nat := fld c 367 352
def mCcwD (c : Nat) : Nat := fld c 351 336
def mCcwB (c : Nat) : Nat := fld c 335 320
def mCcwA (c : Nat) : Nat := fld c 319 304
def mDwOnly (c : Nat) : Bool := bitOf c 299
def mBiasEn (c : Nat) : Bool := bitOf c 298
def mRmAxis (c : Nat) : Bool := bitOf c 297
def mRmEn (c : Nat) : Bool := bitOf c 296
def mDual (c : Nat) : Bool := bitOf c 295
def mAcc (c : Nat) : Bool := bitOf c 294
def mInit (c : Nat) : Bool := bitOf c 293
def mPin (c : Nat) : Bool := bitOf c 292
def mTwGB (c : Nat) : Nat := fld c 291 290
def mTwGA (c : Nat) : Nat := fld c 289 288
def mTwB (c : Nat) : Bool := bitOf c 287
def mTwA (c : Nat) : Bool := bitOf c 286
def mPly (c : Nat) : Nat := fld c 285 284
def mFmtD2 (c : Nat) : Nat := fld c 283 279
def mFmtD (c : Nat) : Nat := fld c 278 274
def mFmtB (c : Nat) : Nat := fld c 273 269
def mFmtA (c : Nat) : Nat := fld c 268 264
def mK (c : Nat) : Nat := fld c 263 240
def mN (c : Nat) : Nat := fld c 239 216
def mM (c : Nat) : Nat := fld c 215 184
def mQuad (c : Nat) : Bool := bitOf c 182
def mMask (c : Nat) : Nat := fld c 181 176
def mDesc (c : Nat) : Nat := fld c 175 128

def dD2Ld (d : Nat) : Nat := fld d 1023 992
def dPinLd (d : Nat) : Nat := fld d 991 960
def dDLd (d : Nat) : Nat := fld d 959 928
def dCLd (d : Nat) : Nat := fld d 927 896
def dBLd (d : Nat) : Nat := fld d 895 864
def dALd (d : Nat) : Nat := fld d 863 832
def dPinSide (d : Nat) : Nat := fld d 815 768
def dPinIdx (d : Nat) : Nat := fld d 751 704
def dBias (d : Nat) : Nat := fld d 687 640
def dRm (d : Nat) : Nat := fld d 623 576
def dD2Sc (d : Nat) : Nat := fld d 559 512
def dD2 (d : Nat) : Nat := fld d 495 448
def dDSc (d : Nat) : Nat := fld d 431 384
def dD (d : Nat) : Nat := fld d 367 320
def dC (d : Nat) : Nat := fld d 303 256
def dBSc (d : Nat) : Nat := fld d 239 192
def dB (d : Nat) : Nat := fld d 175 128
def dASc (d : Nat) : Nat := fld d 111 64
def dA (d : Nat) : Nat := fld d 47 0

/-- Reserved bits of the descriptor are zero (R8). -/
def descOk (d : Nat) : Bool :=
  [(831, 816), (767, 752), (703, 688), (639, 624), (575, 560), (511, 496), (447, 432), (383, 368), (319, 304), (255, 240),
    (191, 176), (127, 112), (63, 48)].all fun f => fld d f.1 f.2 = 0

/-! ### Legality (R90 to R92, Tables 03.11 to 03.13) -/

/-- Operand width class: 1 narrow, 2 S16, 3 S24; 0 is no operand format (R90). -/
def opClass (f : Nat) : Nat := if f = 0x02 then 2 else if f = 0x03 then 3 else if f ≤ 0x06 then 1 else 0

/-- A ply pass: which piece of A, which of B, and the shift (Table 03.7). -/
inductive Piece where
  | whole | hi | mid | lo
  deriving DecidableEq, Repr

/-- Passes of a pair under a PLY value, none when illegal (Tables 03.7, 03.11). -/
def passesOf (ca cb ply : Nat) : Option (List (Piece × Piece × Int)) :=
  match ca, cb, ply with
  | 1, 1, 0 => some [(.whole, .whole, 0)]
  | 2, 1, 1 => some [(.hi, .whole, 8), (.lo, .whole, 0)]
  | 1, 2, 1 => some [(.whole, .hi, 8), (.whole, .lo, 0)]
  | 2, 2, 1 => some [(.hi, .hi, 16), (.hi, .lo, 8), (.lo, .hi, 8), (.lo, .lo, 0)]
  | 2, 2, 2 => some [(.hi, .hi, 16), (.hi, .lo, 8), (.lo, .hi, 8)]
  | 3, 1, 1 => some [(.hi, .whole, 16), (.mid, .whole, 8), (.lo, .whole, 0)]
  | 1, 3, 1 => some [(.whole, .hi, 16), (.whole, .mid, 8), (.whole, .lo, 0)]
  | _, _, _ => none

/-- A piece of an element of width class c (R76). -/
def pieceOf (c : Nat) (p : Piece) (v : Int) : Int :=
  match p with
  | .whole => v
  | .hi => v >>> (if c = 3 then 16 else 8)
  | .mid => (v >>> 8) % 256
  | .lo => v % 256

def isFour (f : Nat) : Bool := f = 0x00 ∨ f = 0x04

/-- K block (Table 03.1): the 4-bit rate only when both operands are 4-bit (R90). -/
def kBlock (c : Nat) : Nat :=
  let four := isFour (mFmtA c) && isFour (mFmtB c)
  if mQuad c then (if four then 128 else 64) else (if four then 256 else 128)

/-- An operand's K group, 0 none: its TW_G under Twill, else its own group (R60, R82). -/
def kGroup (tw : Bool) (twg w : Nat) : Nat := if tw then groupOf twg else tensorGroup w

/-- One operand's scale mode rules (R35, R82, Table 03.13): `inner` is its stored innermost length. -/
def operandOk (f w : Nat) (tw : Bool) (twg k inner : Nat) : Bool :=
  let g := tensorGroup w
  ccwOk f w && (g = 0 || inner % g = 0)
    && (if tw then ((twg = 0) = (ccwMode w = 0)) && (groupOf twg = 0 || k % groupOf twg = 0) else true)

/-- Scale group of the command: the finer of the two, 0 the whole K block (R60). -/
def cmdGroup (c : Nat) : Nat :=
  let a := kGroup (mTwA c) (mTwGA c) (mCcwA c)
  let b := kGroup (mTwB c) (mTwGB c) (mCcwB c)
  if a = 0 then b else if b = 0 then a else min a b

/-- Output D (length N, limit 32 or 16 for row mode) or D2 (length M, limit 256 or 128) (R92, Table 03.13). -/
def outOk (f w len lim : Nat) (groups : List Nat) : Bool :=
  f ≤ 0x06 && ccwOk f w
    && match ccwMode w with
       | 0 => true
       | 4 => len ≤ lim
       | m => groups.contains m && len % groupOf m = 0

/-- Feature pairs of Table 03.12 that are marked no (R91). -/
def featuresOk (c : Nat) (passes : Nat) : Bool :=
  let s24 := opClass (mFmtA c) = 3 || opClass (mFmtB c) = 3
  let ply := 1 < passes && !s24
  let epi := mRmEn c || mBiasEn c
  !(ply && mPin c) && !(s24 && (mPin c || mTwA c || mTwB c)) && !(mPin c && mTwA c)
    && !(mDual c && mAcc c) && !(mAcc c && (mInit c || epi))

/-- Whether D is written by an encoding (neither accumulate on drain nor DW_ONLY). -/
def dUsed (c : Nat) : Bool := !mAcc c && !mDwOnly c

/-- The checks of R85, R90 to R92 and, for fill class, R180, which the command alone decides. An output that the command
does not write keeps its reserved bits, mode and format code (R8, R28, R49); what pairs them, and TW_G of an operand that is
not under Twill, is looked at only where it is used (log 70). -/
def matLegal (c : Nat) : Bool :=
  match passesOf (opClass (mFmtA c)) (opClass (mFmtB c)) (mPly c) with
  | none => false
  | some ps =>
    let q := mQuad c
    fld c 511 376 = 0 && fld c 303 300 = 0 && fld c 183 183 = 0
      && ccwPlain (mCcwD c) && ccwPlain (mCcwD2 c) && fmtPlain (mFmtD c) && fmtPlain (mFmtD2 c)
      && operandOk (mFmtA c) (mCcwA c) (mTwA c) (mTwGA c) (mK c) (if mTwA c then mM c else mK c)
      && operandOk (mFmtB c) (mCcwB c) (mTwB c) (mTwGB c) (mK c) (if mTwB c then mN c else mK c)
      && (!mDwOnly c || mDual c)
      && (!mAcc c || (mFmtD c = 0 && mCcwD c = 0))
      && (!dUsed c || outOk (mFmtD c) (mCcwD c) (mN c) (if q then 16 else 32) (if q then [] else [1]))
      && (!mDual c || outOk (mFmtD2 c) (mCcwD2 c) (mM c) (if q then 128 else 256) [1, 2, 3])
      && featuresOk c ps.length
      && (hdrClass c ≠ 6 || (!mTwA c && (mK c + kBlock c - 1) / kBlock c * ps.length ≤ 8))

/-! ### Addresses a command uses (R86, R87, R99, R126, R130) -/

/-- Bytes of a scale array of `rows` stored rows of `inner` elements (R36). -/
def scaleBytes (w rows inner : Nat) : Nat :=
  match ccwMode w with
  | 0 => 0
  | 4 => rows
  | _ => rows * (inner / tensorGroup w)

/-- A used range: base, row stride (none for a dense array), rows, bytes per row, whether it is written, and whether it may lie
in a tile window, as D and D2 may (R99). -/
structure Use where
  base : Nat
  ld : Option Nat
  rows : Nat
  per : Nat
  write : Bool
  out : Bool
  deriving DecidableEq, Repr

/-- Whether an output lies in a tile window. -/
def inTile (P : Part) (a : Nat) : Bool := match place P a with | .tile _ _ => true | _ => false

/-- The ranges a command uses. K = 0 uses neither A nor B nor the side tensor (R84); with M = 0 or N = 0 the ranges are those
of the shape, some of them empty (log 71). -/
def matUses (P : Part) (c d : Nat) : List Use :=
  let m := mM c
  let n := mN c
  let k := mK c
  let nb := (k + 127) / 128
  let operand (f w : Nat) (tw : Bool) (base ld sc other : Nat) : List Use :=
    let rows := if tw then k else other
    let inner := if tw then other else k
    let sb := scaleBytes w rows inner
    [⟨base, some ld, rows, rowBytes (fmtBits f) inner, false, false⟩] ++ (if sb = 0 then [] else [⟨sc, none, 1, sb, false, false⟩])
  let out (f w base ld sc rows inner : Nat) : List Use :=
    let sb := scaleBytes w rows inner
    [⟨base, some ld, rows, rowBytes (fmtBits f) inner, true, true⟩]
      ++ (if sb = 0 ∨ inTile P base then [] else [⟨sc, none, 1, sb, true, false⟩])
  (if k = 0 then []
   else operand (mFmtA c) (mCcwA c) (mTwA c) (dA d) (dALd d) (dASc d) m
     ++ operand (mFmtB c) (mCcwB c) (mTwB c) (dB d) (dBLd d) (dBSc d) n
     ++ (if mPin c then [⟨dPinIdx d, none, 1, 16 * nb, false, false⟩, ⟨dPinSide d, some (dPinLd d), m, 24 * nb, false, false⟩] else []))
    ++ (if mAcc c then [⟨dD d, some (dDLd d), m, 8 * n, true, false⟩]
        else if dUsed c then out (mFmtD c) (mCcwD c) (dD d) (dDLd d) (dDSc d) m n else [])
    ++ (if mDual c then out (mFmtD2 c) (mCcwD2 c) (dD2 d) (dD2Ld d) (dD2Sc d) n m else [])
    ++ (if mInit c then [⟨dC d, some (dCLd d), m, 8 * n, false, false⟩] else [])
    ++ (if mRmEn c then [⟨dRm d, none, 1, 4 * (if mRmAxis c then m else n), false, false⟩] else [])
    ++ (if mBiasEn c then [⟨dBias d, none, 1, 4 * n, false, false⟩] else [])

/-- Alignment of a used range (R87). -/
def useAligned (u : Use) : Bool := u.base % 64 = 0 && (match u.ld with | some l => l % 64 = 0 | none => true)

/-- First byte of a used range that is not mapped (R126). -/
def useUnmapped (P : Part) (u : Use) : Option Nat :=
  if u.per = 0 then none
  else
    match (List.range u.rows).find? fun r => !readable P (u.base + r * u.ld.getD 0) u.per with
    | some r => some (firstBad P (u.base + r * u.ld.getD 0) u.per false)
    | none => none

/-- Whether a used range touches a tile window anywhere. -/
def useTouchesTile (P : Part) (u : Use) : Bool :=
  u.per ≠ 0 && (List.range u.rows).any fun r =>
    inTile P (u.base + r * u.ld.getD 0) || inTile P (u.base + r * u.ld.getD 0 + u.per - 1)

/-- An output in a tile window meets R99 and R130: S8, S16 or S32, plain or row-scaled, LD 128, whole 16 B pieces, each row
within one tile row, all within the window of the target slice. -/
def tileOutOk (P : Part) (c : Nat) (u : Use) (f w tileLen inner : Nat) (acc : Bool) : Bool :=
  let n := fmtBits f / 8
  !acc && (f = 0x01 || f = 0x02 || f = 0x03) && (ccwMode w = 0 || ccwMode w = 4) && u.ld = some 128
    && (min inner tileLen * n) % 16 = 0 && (inner % tileLen * n) % 16 = 0 && u.base % 128 + inner * n ≤ 128
    && (u.rows = 0 || u.per = 0
        || (match place P u.base, place P (u.base + (u.rows - 1) * 128 + u.per - 1) with
            | .tile a _, .tile b _ => a = b && ordinal P (hdrSlice c) = some a
            | _, _ => false))

/-- The outputs of a command as used ranges with format, control word, tile length and inner length. -/
def matOuts (c d : Nat) : List (Use × Nat × Nat × Nat × Nat × Bool) :=
  (if mAcc c then [(⟨dD d, some (dDLd d), mM c, 8 * mN c, true, true⟩, 0, 0, 0, 0, true)]
   else if dUsed c then
    [(⟨dD d, some (dDLd d), mM c, rowBytes (fmtBits (mFmtD c)) (mN c), true, true⟩, mFmtD c, mCcwD c, if mQuad c then 16 else 32, mN c, false)]
   else [])
  ++ (if mDual c then
    [(⟨dD2 d, some (dD2Ld d), mN c, rowBytes (fmtBits (mFmtD2 c)) (mM c), true, true⟩, mFmtD2 c, mCcwD2 c,
        if mQuad c then 128 else 256, mM c, false)]
   else [])

/-- The MUs of MU_MASK that are present on device slice sl (12 R354). -/
def musOf (s : State) (sl c : Nat) : List Nat := (List.range 6).filter fun j => (mMask c).testBit j && muPresent s sl j

/-- The Pinstripe masks, one of 128 bit per 128-K block (R79). -/
def pinMasks (s : State) (k c d : Nat) : List Nat :=
  if mPin c then (List.range ((mK c + 127) / 128)).map fun b => s.loadNat k (dPinIdx d + 16 * b) 16 else []

/-- Number of set bits. -/
def popcount (w x : Nat) : Nat := (List.range w).countP fun i => x.testBit i

/-- Validation in full (R84, R93): the status, and the faulting address of an ADDRESS. -/
def matValidate (s : State) (k sl c : Nat) : BitVec 8 × Nat :=
  let P := s.part k
  let da := mDesc c
  if !matLegal c || (musOf s sl c).isEmpty || da % 128 ≠ 0 then (stINVALID, 0)
  else if !readable P da 128 then (stADDRESS, da)
  else
    let d := s.loadNat k da 128
    let us := matUses P c d
    let outs := matOuts c d
    let tiled := outs.filter fun o => inTile P o.1.base
    if !descOk d || !(us.all useAligned) || (mPin c && mK c ≠ 0 && dPinLd d < 24 * ((mK c + 127) / 128))
        || !(tiled.all fun o => tileOutOk P c o.1 o.2.1 o.2.2.1 o.2.2.2.1 o.2.2.2.2.1 o.2.2.2.2.2)
        || (us.filter fun u => u.write && !(u.out && inTile P u.base)).any (useTouchesTile P) then (stINVALID, 0)
    else
      match (us.filter fun u => !(u.out && inTile P u.base)).findSome? (useUnmapped P) with
      | some a => (stADDRESS, a)
      | none =>
        if (pinMasks s k c d).any fun x => popcount 128 x > 8 then (stINVALID, 0) else (stOK, 0)

/-! ### Operands (R41, R59, R60, R71, R77, R82) -/

/-- Row r of a stored tensor of `inner` elements, decoded (R36, R41). -/
def storedRow (s : State) (k f w base ld sc inner r : Nat) : List Exact :=
  let b := s.load k (base + r * ld) (rowBytes (fmtBits f) inner)
  let raw := (List.range inner).map (elemRaw (fmtBits f) b)
  match ccwMode w with
  | 0 => raw.map (decodePlain f (ccwT w))
  | 4 => let c := s.loadNat k (sc + r) 1; raw.map (decodeScaled f c)
  | _ =>
    let g := tensorGroup w
    let cs := s.load k (sc + r * (inner / g)) (inner / g)
    (raw.zip (List.range inner)).map fun e => decodeScaled f (cs.getD (e.2 / g) 0).toNat e.1

/-- Cuts a list into pieces of n. -/
def pieces {α : Type} (n : Nat) (l : List α) : List (List α) :=
  (List.range ((l.length + n - 1) / n)).map fun i => (l.drop (i * n)).take n

/-- Re-encodes a Twill vector into K groups of TW_G (R82). -/
def twillEncode (n g : Nat) (v : List Exact) : List Exact × Evt :=
  (pieces g v).foldl (fun (acc : List Exact × Evt) p =>
    let (c, es, e) := encodeGroup n p
    (acc.1 ++ es.map (fun x => if c = 0xFF then exactNan else exactOf x ((c : Int) - 127)), evtAdd acc.2 e)) ([], {})

/-- Saturation of an S24 operand's elements (R77). -/
def sat24 (v : List Exact) : List Exact × Evt :=
  v.foldl (fun (acc : List Exact × Evt) x =>
    let i := signed x.s x.m
    if x.cls ≠ .fin then (acc.1 ++ [x], acc.2)
    else if i > 2 ^ 23 - 1 then (acc.1 ++ [exactOf (2 ^ 23 - 1) x.q], evtAdd acc.2 { sat := 1 })
    else if i < -(2 ^ 23) then (acc.1 ++ [exactOf (-(2 ^ 23)) x.q], evtAdd acc.2 { sat := 1 })
    else (acc.1 ++ [x], acc.2)) ([], {})

/-- Streamed row or stationary column i of an operand: K exact elements, and its events. -/
def operandVec (s : State) (k : Nat) (f w : Nat) (tw : Bool) (twg base ld sc kk other i : Nat) : List Exact × Evt :=
  if kk = 0 then ([], {})
  else
    let v := if tw then (List.range kk).map fun r => (storedRow s k f w base ld sc other r).getD i {}
             else storedRow s k f w base ld sc kk i
    if tw ∧ groupOf twg ≠ 0 then twillEncode (match fmtBits f with | 4 => 4 | 16 => 16 | _ => 8) (groupOf twg) v
    else if f = 0x03 then sat24 v
    else (v, {})

def vecA (s : State) (k c d i : Nat) : List Exact × Evt :=
  operandVec s k (mFmtA c) (mCcwA c) (mTwA c) (mTwGA c) (dA d) (dALd d) (dASc d) (mK c) (mM c) i
def vecB (s : State) (k c d n : Nat) : List Exact × Evt :=
  operandVec s k (mFmtB c) (mCcwB c) (mTwB c) (mTwGB c) (dB d) (dBLd d) (dBSc d) (mK c) (mN c) n

/-! ### The drain slot (R60, R69 to R71, R80) -/

/-- The signed integer of a finite element. -/
def exInt (v : Exact) : Int := signed v.s v.m

/-- Σ over pairs. -/
def dot (a b : List Int) : Int := (a.zip b).foldl (fun acc x => acc + x.1 * x.2) 0

/-- Exponent of a scale group: its first element's. -/
def headExp (v : List Exact) : Int := match v with | x :: _ => x.q | [] => 0

/-- A Pinstripe side record of row i, block b: slot values and code (R80). -/
def sideRecord (s : State) (k d i b : Nat) : List Int × Nat :=
  let r := s.load k (dPinSide d + i * dPinLd d + 24 * b) 24
  ((List.range 8).map fun j => sext 16 (leNat (slice r (2 * j) 2)), (r.getD 16 0).toNat)

/-- Channels of a mask in ascending k, with their side slots. -/
def channels (mask : Nat) : List (Nat × Nat) :=
  let ks := (List.range 128).filter fun i => mask.testBit i
  ks.zip (List.range ks.length)

/-! #### Beats and planes (R57, R61, R63, R71, Table 03.2) -/

/-- K indices of a cube row, and cube rows of the grid a command uses (R57, R58). -/
def cubeK (c : Nat) : Nat := if isFour (mFmtA c) && isFour (mFmtB c) then 32 else 16
def cubeRows (c : Nat) : Nat := if mQuad c then 4 else 8

/-- GB of every beat of a command: bit r set where cube row r starts a scale group (Table 03.2). -/
def gbMarks (c : Nat) : Nat :=
  joinBits 1 ((List.range (cubeRows c)).map fun r => if r = 0 ∨ (cmdGroup c ≠ 0 ∧ r * cubeK c % cmdGroup c = 0) then 1 else 0)

/-- Cuts what lies along one K block into its scale groups, cube row by cube row, at the marks of GB (R61). -/
def cutGroups {α : Type} (gb kc : Nat) (l : List α) : List (List α) :=
  (pieces kc l).zipIdx.foldl (fun acc e =>
    if gb.testBit e.2 then acc ++ [e.1] else acc.dropLast ++ [acc.getLastD [] ++ e.1]) []

/-- The block of a plane: its columns of pieces, cut into scale groups; eb(n, g); the column NaN flags; whether the pieces are
unsigned; and the B rows of the block's channels: scale group, mask block, and each channel's side slot with its B row (R63,
R80). -/
structure Plane where
  cols : List (List (List Int)) := []
  exps : List (List Int) := []
  nan : List Bool := []
  uns : Bool := false
  side : List (Nat × Nat × List (Nat × List Int)) := []
  deriving DecidableEq, Repr

/-- Elements of K block b of a column or a row. -/
def kBlockOf (c b : Nat) (v : List Exact) : List Exact := (v.drop (b * kBlock c)).take (kBlock c)

/-- K indices at which the scale groups of block b start, and the end of the block. -/
def groupEdges (c b : Nat) : List (Nat × Nat) :=
  let g := if cmdGroup c = 0 then kBlock c else min (cmdGroup c) (kBlock c)
  (List.range (kBlock c / g)).map fun j => (b * kBlock c + j * g, b * kBlock c + (j + 1) * g)

/-- The plane of K block b with these pieces of the stationary columns (R63, R76, R80). -/
def planeOf (c : Nat) (masks : List Nat) (bs : List (List Exact)) (b : Nat) (pb : Piece) : Plane :=
  let cb := opClass (mFmtB c)
  let blk := bs.map (kBlockOf c b)
  let gs := blk.map (cutGroups (gbMarks c) (cubeK c))
  { cols := gs.map fun v => v.map fun g => g.map fun x => pieceOf cb pb (exInt x)
    exps := gs.map fun v => v.map headExp
    nan := blk.map fun v => v.any fun x => x.cls = .nan
    uns := pb = .mid ∨ pb = .lo
    side := (groupEdges c b).zipIdx.flatMap fun e =>
      (List.range masks.length).filterMap fun m =>
        let chs := (channels (masks.getD m 0)).filter fun ch => e.1.1 ≤ 128 * m + ch.1 ∧ 128 * m + ch.1 < e.1.2
        if chs.isEmpty then none
        else some (e.2, m, chs.map fun ch => (ch.2, bs.map fun v => exInt (v.getD (128 * m + ch.1) { m := 0 }))) }

/-- A beat: its control word, four rows of pieces cut into scale groups, its scale sideband, and the rows' side records. -/
structure Beat where
  ctl : BitVec 32 := 0
  rows : List (List (List Int)) := []
  sideband : List (List (BitVec 9)) := []
  recs : List (List (List Int × Nat)) := []
  deriving DecidableEq, Repr

/-- The control word of a beat (Table 03.2). -/
def beatCtl (buf tag : Nat) (last first lo : Bool) (plane gb nan valid : Nat) : BitVec 32 :=
  BitVec.ofNat 32 (buf * 2 ^ 31 + tag * 2 ^ 25 + last.toNat * 2 ^ 24 + first.toNat * 2 ^ 23 + lo.toNat * 2 ^ 22 + plane * 2 ^ 21
    + gb * 2 ^ 13 + nan * 2 ^ 4 + valid)

/-- TAG, NAN bit j and VALID bit j of a control word. -/
def ctlTag (w : BitVec 32) : Nat := bitsOf w.toNat 30 25
def ctlNan (w : BitVec 32) (j : Nat) : Bool := w.getLsbD (4 + j)
def ctlValid (w : BitVec 32) (j : Nat) : Bool := w.getLsbD j

/-- Whether a row carries a NaN within K block b: one of its elements, or a side record whose 128-K block meets the block and
holds a channel (R71, R80). -/
def rowNan (c : Nat) (masks : List Nat) (b : Nat) (v : List Exact) (recs : List (List Int × Nat)) : Bool :=
  (kBlockOf c b v).any (fun x => x.cls = .nan)
    || (List.range masks.length).any fun m => masks.getD m 0 ≠ 0 && (recs.getD m ([], 0)).2 = 0xFF
        && decide (128 * m < (b + 1) * kBlock c) && decide (b * kBlock c < 128 * (m + 1))

/-- The beats of one pass over K block b: streamed rows four at a time with their element exponents; the last rows of a tile
whose height is no multiple of four are not valid (R61, R62). -/
def beatsOf (c : Nat) (masks : List Nat) (rows : List (List Exact × List (List Int × Nat))) (b : Nat) (pa : Piece)
    (buf plane : Nat) (first last : Bool) : List Beat :=
  let ca := opClass (mFmtA c)
  (pieces 4 rows).zipIdx.map fun e =>
    let gs := e.1.map fun r => cutGroups (gbMarks c) (cubeK c) (kBlockOf c b r.1)
    { ctl := beatCtl buf e.2 last first (pa = .mid ∨ pa = .lo) plane (gbMarks c)
        (joinBits 1 (e.1.map fun r => (rowNan c masks b r.1 r.2).toNat)) (2 ^ e.1.length - 1)
      rows := gs.map fun v => v.map fun g => g.map fun x => pieceOf ca pa (exInt x)
      sideband := gs.map fun v => v.map fun g => BitVec.ofInt 9 (headExp g)
      recs := e.1.map Prod.snd }

/-- One slot after row j of a beat meets column n of its plane: the main partial of each scale group and its side partials, in
the order of R70; a NaN of the row or the column makes the slot NaN (R60, R71, R80). -/
def slotAdd (pl : Plane) (shift : Int) (bt : Beat) (j n : Nat) (acc : Int × Int) : Int × Int :=
  if ctlNan bt.ctl j || pl.nan.getD n false then (0, -512)
  else
    let row := bt.rows.getD j []
    let ea := bt.sideband.getD j []
    let recs := bt.recs.getD j []
    let eb := pl.exps.getD n []
    (row.zip (pl.cols.getD n [])).zipIdx.foldl (fun acc g =>
      let acc := s48Add acc (dot g.1.1 g.1.2) ((ea.getD g.2 0).toInt + eb.getD g.2 0 + shift)
      (pl.side.filter fun e => e.1 = g.2).foldl (fun acc e =>
        let r := recs.getD e.2.1 ([], 0)
        s48Add acc (e.2.2.foldl (fun t ch => t + r.1.getD ch.1 0 * ch.2.getD n 0) 0) ((r.2 : Int) - 127 + eb.getD g.2 0)) acc) acc

/-- The four slot rows of a beat's TAG after it: a row that is not valid leaves its slots (R62). -/
def beatStep (pl : Plane) (shift : Int) (slots : List (List (Int × Int))) (bt : Beat) : List (List (Int × Int)) :=
  slots.zipIdx.map fun r => if ctlValid bt.ctl r.2 then r.1.zipIdx.map fun x => slotAdd pl shift bt r.2 x.2 x.1 else r.1

/-- The drain tile after the beats of one pass; beat TAG t updates slot rows 4t to 4t + 3. -/
def passStep4 (pl : Plane) (shift : Int) (acc : List (List (Int × Int))) (bts : List Beat) : List (List (Int × Int)) :=
  bts.flatMap fun bt => beatStep pl shift ((acc.drop (4 * ctlTag bt.ctl)).take 4) bt

/-- Ply passes of a command, in order. -/
def passList (c : Nat) : List (Piece × Piece × Int) := (passesOf (opClass (mFmtA c)) (opClass (mFmtB c)) (mPly c)).getD []

/-- The plane loads of a tile in order: K block and pass (R70). -/
def loadList (c : Nat) : List (Nat × Piece × Piece × Int) :=
  (List.range ((mK c + kBlock c - 1) / kBlock c)).flatMap fun b => (passList c).map fun p => (b, p)

/-- Every beat of a tile against the plane it names, from the slots' initial values (R69, R70): `p0` is the plane of the first
load, and the loads alternate (R64). -/
def runBeats (c : Nat) (masks : List Nat) (rows : List (List Exact × List (List Int × Nat))) (bs : List (List Exact))
    (buf p0 : Nat) (init : List (List (Int × Int))) : List (List (Int × Int)) :=
  let ls := loadList c
  ls.zipIdx.foldl (fun acc e =>
    passStep4 (planeOf c masks bs e.1.1 e.1.2.2.1) e.1.2.2.2 acc
      (beatsOf c masks rows e.1.1 e.1.2.1 buf ((p0 + e.2) % 2) (e.2 = 0) (e.2 + 1 = ls.length))) init

/-- epilogue (R72): the exact value of one output element. -/
def epilogue (a : Int × Int) (m : Int) (sh : Nat) (b tb : Int) : Exact :=
  let (v, x) := a
  if x = -512 then exactNan
  else
    let p := x - 6 - (sh : Int)
    let q := if tb < p then tb else p
    exactOf ((v * m) * 2 ^ (p - q).toNat + b * 2 ^ (tb - q).toNat) q

/-! ### Output tiles (R72 to R74, R88) -/

def tileH (c : Nat) : Nat := if mQuad c then 128 else 256
def tileW (c : Nat) : Nat := if mQuad c then 16 else 32

/-- Number of output tiles. -/
def tileCount (c : Nat) : Nat := ((mM c + tileH c - 1) / tileH c) * ((mN c + tileW c - 1) / tileW c)

/-- Rows and columns of tile t (R88). -/
def tileRows (c t : Nat) : List Nat :=
  let mt := t / ((mN c + tileW c - 1) / tileW c)
  (List.range (min (tileH c) (mM c - mt * tileH c))).map fun i => mt * tileH c + i
def tileCols (c t : Nat) : List Nat :=
  let nt := t % ((mN c + tileW c - 1) / tileW c)
  (List.range (min (tileW c) (mN c - nt * tileW c))).map fun i => nt * tileW c + i

/-- What a tile leaves: writes to memory, drain writes to inbox tiles (by address, with the row code), events, whether a
STRICT control word met one of them, and NaN blocks produced. -/
structure TileOut where
  writes : List (Nat × Bytes) := []
  inbox : List (Nat × Nat × Bytes) := []
  evt : Evt := {}
  strict : Bool := false
  nans : Nat := 0
  deriving DecidableEq, Repr

def tileOutAdd (a b : TileOut) : TileOut :=
  ⟨a.writes ++ b.writes, a.inbox ++ b.inbox, evtAdd a.evt b.evt, a.strict || b.strict, a.nans + b.nans⟩

/-- Encodes one stored output row piece: its code list, element codes, events and NaN blocks (R42 to R44, R72). A drain
counts NaN under R44, not in nan_in. -/
def encodeRow (f w : Nat) (vs : List Exact) : List Nat × List Nat × Evt × Nat :=
  let n := fmtBits f
  match ccwMode w with
  | 0 =>
    let rs := vs.map (encodePlain n (ccwT w))
    let e := rs.foldl (fun a r => evtAdd a r.2) {}
    ([], rs.map (fun r => pat n r.1), { e with nanIn := 0 }, e.nanIn)
  | m =>
    let gs := pieces (if m = 4 then vs.length else groupOf m) vs
    let rs := gs.map (encodeGroup n)
    let e := rs.foldl (fun (a : Evt) r => evtAdd a r.2.2) {}
    (rs.map (fun r => r.1), rs.flatMap (fun r => r.2.1.map (pat n)), { e with nanIn := 0 }, rs.countP fun r => r.1 = 0xFF)

/-- Writes of one output row piece: elements at a, codes at sa; to an inbox tile the code goes to the row tag (R99). A
plain row's tag is TEXP + 127; -1, which no tag holds, is an unstated value (log 26). -/
def rowOut (P : Part) (f w a sa : Nat) (vs : List Exact) : TileOut :=
  let (cs, es, e, n) := encodeRow f w vs
  let b := packElems (fmtBits f) es
  let strict := ccwStrict w && e.sat > 0
  if inTile P a then
    let code := match cs with
      | c :: _ => c
      | [] => if ccwT w = -128 then Config.unstated 26 0 % 256 else (ccwT w + 127).toNat
    { inbox := [(a, code, b)], evt := e, strict := strict, nans := n }
  else { writes := [(a, b)] ++ (if cs.isEmpty then [] else [(sa, cs.map (BitVec.ofNat 8))]), evt := e, strict := strict, nans := n }

/-- Row multiplier (M, SH) of an output element (R37, R72). -/
def rowMul (s : State) (k c d i n : Nat) : Int × Nat :=
  if mRmEn c then
    let w := s.loadNat k (dRm d + 4 * (if mRmAxis c then i else n)) 4
    (sext 16 w, fld w 21 16)
  else (1, 0)

/-- The side records of a tile row, one for each mask block that holds a channel (R80). -/
def sideOf (s : State) (k d i : Nat) (masks : List Nat) : List (List Int × Nat) :=
  (List.range masks.length).map fun b => if masks.getD b 0 = 0 then ([], 0) else sideRecord s k d i b

/-- Sums of one tile: rows of accumulators, with the operands' events (R70, R71). An element of A or B that is saturated or
re-encoded for several tiles counts once: A in the tiles of the first columns, B in those of the first rows (log 72). -/
def tileSums (s : State) (k c d : Nat) (masks : List Nat) (t buf p0 : Nat) : List (List (Int × Int)) × TileOut :=
  let rows := tileRows c t
  let cols := tileCols c t
  let bs := cols.map (vecB s k c d)
  let as := rows.map (vecA s k c d)
  let nt := t % ((mN c + tileW c - 1) / tileW c)
  let mt := t / ((mN c + tileW c - 1) / tileW c)
  let ea := if nt = 0 then as.foldl (fun a r => evtAdd a r.2) {} else {}
  let eb := if mt = 0 then bs.foldl (fun a r => evtAdd a r.2) {} else {}
  let strict := (ccwStrict (mCcwA c) && (ea.sat > 0 || ea.nanIn > 0)) || (ccwStrict (mCcwB c) && (eb.sat > 0 || eb.nanIn > 0))
  let init := rows.map fun r => cols.map fun n =>
    if mInit c then s48Of (s.loadNat k (dC d + r * dCLd d + 8 * n) 8) else (0, 0)
  (runBeats c masks ((rows.zip as).map fun r => (r.2.1, sideOf s k d r.1 masks)) (bs.map Prod.fst) buf p0 init,
    { evt := evtAdd ea eb, strict := strict })

/-- A tile that writes: epilogue and encoding of D and D2 (R72, R73). -/
def tileEncode (s : State) (k c d t : Nat) (acc : List (List (Int × Int))) : TileOut :=
  let P := s.part k
  let rows := tileRows c t
  let cols := tileCols c t
  let vals := (rows.zip acc).map fun r => (cols.zip r.2).map fun n =>
    let (m, sh) := rowMul s k c d r.1 n.1
    let b := if mBiasEn c then sext 32 (s.loadNat k (dBias d + 4 * n.1) 4) else 0
    epilogue n.2 m sh b (if mBiasEn c then mBiasT c else 0)
  let r0 := rows.headD 0
  let c0 := cols.headD 0
  let dPart := if dUsed c then
      (rows.zip vals).foldl (fun o r =>
        tileOutAdd o (rowOut P (mFmtD c) (mCcwD c) (dD d + r.1 * dDLd d + c0 * fmtBits (mFmtD c) / 8)
          (dDSc d + (if ccwMode (mCcwD c) = 4 then r.1 else r.1 * (mN c / 32) + c0 / 32)) r.2)) {}
    else {}
  let d2Part := if mDual c then
      (List.range cols.length).foldl (fun o j =>
        let n := cols.getD j 0
        let g := tensorGroup (mCcwD2 c)
        tileOutAdd o (rowOut P (mFmtD2 c) (mCcwD2 c) (dD2 d + n * dD2Ld d + r0 * fmtBits (mFmtD2 c) / 8)
          (dD2Sc d + (if g = 0 then n else n * (mM c / g) + r0 / g)) (vals.map fun r => r.getD j {}))) {}
    else {}
  tileOutAdd dPart d2Part

/-! ### The planes, credits and queues of an MU (R58, R63 to R68, R88) -/

/-- Global MU of MU j of device slice sl (00 Table 00.3). -/
def muIx (sl j : Nat) : Nat := sl * 6 + j

/-- Cube row and cube column of the grid at which a quad starts (R58); Full mode is quad 0 of the whole grid. -/
def quadRow (quad : Bool) (q : Nat) : Nat := if quad then 4 * (q / 2) else 0
def quadCol (quad : Bool) (q : Nat) : Nat := if quad then 4 * (q % 2) else 0

/-- Bits of the credit word for cube row r of a plane of a quad: both halves of the grid in Full mode (R64). -/
def creditMask (quad : Bool) (q plane r : Nat) : BitVec 32 :=
  if quad then 1#32 <<< ((plane * 8 + quadRow true q + r) * 2 + q % 2) else 3#32 <<< ((plane * 8 + r) * 2)

/-- Bits of every plane credit of a quad. -/
def creditsOf (quad : Bool) (q : Nat) : BitVec 32 :=
  (List.range 2).foldl (fun m p => (List.range (if quad then 4 else 8)).foldl (fun m r => m ||| creditMask quad q p r) m) 0

/-- The stationary block of one cube: for each of its four columns its K indices in order, 8 bit each or, at the 4-bit rate,
4 bit (R57; the order within a cube is a DESIGN CHOICE, log 80). -/
def cubeBits (c : Nat) (pl : Plane) (r cc : Nat) : BitVec 512 :=
  let w := 512 / (4 * cubeK c)
  BitVec.ofNat 512 (joinBits (128) ((List.range 4).map fun j =>
    joinBits w ((((pl.cols.getD (4 * cc + j) []).flatten.drop (r * cubeK c)).take (cubeK c)).map (pat w))))

/-- What a plane records beside its blocks (R63). -/
def infoOf (pl : Plane) (rows : Nat) : PlaneInfo :=
  { exps := pl.exps, nan := BitVec.ofNat 32 (joinBits 1 (pl.nan.map Bool.toNat)), uns := pl.uns,
    side := pl.side.flatMap fun e => e.2.2.map fun ch => (128 * e.2.1 + ch.1, ch.2), rows := rows }

/-- The feeder writes cube row r of a plane of a quad: 512 B in Full mode, 256 B in Quad mode (R63). -/
def writeRow (c q plane : Nat) (pl : Plane) (m : Mu) (r : Nat) : Mu :=
  { m with cubes := (List.range (if mQuad c then 4 else 8)).foldl (fun cs cc =>
      tset 0 cs ((plane * 8 + quadRow (mQuad c) q + r) * 8 + quadCol (mQuad c) q + cc) (cubeBits c pl r cc)) m.cubes }

/-- A whole plane: its rows in ascending order, then what it records (R63). -/
def writePlane (c q plane : Nat) (pl : Plane) (m : Mu) : Mu :=
  let m := (List.range (cubeRows c)).foldl (writeRow c q plane pl) m
  { m with info := tset {} m.info (q * 2 + plane) (infoOf pl 0) }

/-- The plane the next block of a quad goes to. -/
def nextPlane (m : Mu) (q : Nat) : Nat := (m.next.getLsbD q).toNat

/-- The lowest free drain buffer of a quad (R66). -/
def freeBuf (m : Mu) (q : Nat) : Option Nat := (List.range 2).find? fun b => m.bufs.getLsbD (q * 2 + b)

/-- An MU after a tile ran in quad q: its last two loads stand in its planes, every credit of the quad is back, the next block
goes to the other plane than the last one, and rows loaded ahead are used up (R63, R64, R68). -/
def afterTile (c : Nat) (masks : List Nat) (bs : List (List Exact)) (q : Nat) (m : Mu) : Mu :=
  let ls := loadList c
  let p0 := nextPlane m q
  let m := (ls.zipIdx.drop (ls.length - 2)).foldl (fun m e => writePlane c q ((p0 + e.2) % 2) (planeOf c masks bs e.1.1 e.1.2.2.1) m) m
  { m with credits := m.credits ||| creditsOf (mQuad c) q
           next := if ls.length % 2 = 0 then m.next else m.next ^^^ (1#4 <<< q)
           info := ((List.range 2).foldl (fun i p => tmod {} i (q * 2 + p) fun x => { x with rows := 0 }) m.info) }

/-! ### Running output tiles (R66, R72 to R75, R88, R89) -/

/-- What the tiles of a command need: its partition, queue, ring index, command, descriptor, mask array and slice. -/
structure MJob where
  k : Nat
  q : Nat
  idx : BitVec 24
  c : Nat
  d : Nat
  masks : List Nat
  sl : Nat
  deriving DecidableEq, Repr

/-- The drain write of one inbox row piece (R130): its drain buffer's credit is out until it is accepted (R66). -/
def drainOf (P : Part) (x : MJob) (mu buf : Nat) (w : Nat × Nat × Bytes) : Option DrainWrite :=
  match place P w.1 with
  | .tile sl o =>
    some { mu := mu, buf := buf, q := BitVec.ofNat 20 x.q, idx := x.idx, vc := 4 * sl + o / 2 ^ 15, tile := 24 + o / 2 ^ 12 % 8,
           row := o / 2 ^ 7 % 32, col := o % 128, code := BitVec.ofNat 8 w.2.1, bytes := w.2.2 }
  | _ => none

/-- A STRICT control word meets its first event in tile t of an MU (02 R47; 06 Table 06.6). -/
def noteStrict (strict : Bool) (mu t : Nat) (r : Started) : Started :=
  if strict && !r.strict then { r with strict := true, ukind := 1, uidx := BitVec.ofNat 12 mu, detail := BitVec.ofNat 16 t } else r

/-- What output tile t leaves on quad q of MU j, and the sums it adds to slots of D on an accumulating drain (R72 to R74). -/
def tileOut (s : State) (x : MJob) (j q t : Nat) : TileOut × List (Nat × Int × Int) :=
  let m := s.mu (muIx x.sl j)
  let sums := tileSums s x.k x.c x.d x.masks t ((freeBuf m q).getD 0) (nextPlane m q)
  if mAcc x.c then
    (sums.2, ((tileRows x.c t).zip sums.1).flatMap fun y =>
      ((tileCols x.c t).zip y.2).map fun z => (dD x.d + y.1 * dDLd x.d + 8 * z.1, z.2))
  else (tileOutAdd sums.2 (tileEncode s x.k x.c x.d t sums.1), [])

/-- The spans of memory a tile stores to: address and bytes. -/
def tileSpans (s : State) (x : MJob) (j q t : Nat) : List (Nat × Nat) :=
  let o := tileOut s x j q t
  o.1.writes.map (fun w => (w.1, w.2.length)) ++ o.2.map (fun w => (w.1, 8))

/-- Runs output tile t on quad q of MU j: the state, the outcome so far, and whether it faulted (R89, 07 R207). -/
def runTile (s : State) (x : MJob) (j q t : Nat) (r : Started) : State × Started × Bool :=
  let P := s.part x.k
  let m := s.mu (muIx x.sl j)
  let buf := (freeBuf m q).getD 0
  let out := tileOut s x j q t
  let o := out.1
  let slots := out.2
  let spans := tileSpans s x j q t
  let s := s.putMu (muIx x.sl j) (afterTile x.c x.masks ((tileCols x.c t).map fun n => (vecB s x.k x.c x.d n).1) q m)
  match spans.find? fun w => !writable P w.1 w.2 with
  | some w =>
    (s, { r with status := stADDRESS, ukind := 1, uidx := BitVec.ofNat 12 (muIx x.sl j), detail := BitVec.ofNat 16 t,
                 faddr := BitVec.ofNat 48 (firstBad P w.1 w.2 true) }, true)
  | none =>
    let s := o.writes.foldl (fun s w => s.store x.k w.1 w.2) s
    let s := slots.foldl (fun s w => adder s x.k w.1 fun a => s48Merge a w.2) s
    let ds := o.inbox.filterMap (drainOf P x (muIx x.sl j) (q * 2 + buf))
    let s := ds.foldl (fun s w => s.modVc w.vc fun v => { v with inbox := v.inbox ++ [w] }) s
    let s := if ds.isEmpty then s else s.modMu (muIx x.sl j) fun m => { m with bufs := m.bufs &&& ~~~(1#8 <<< (q * 2 + buf)) }
    let s := countNan (countEvt s x.k x.q o.evt) x.k o.nans
    (s, noteStrict o.strict (muIx x.sl j) t
      { r with sat := r.sat || o.evt.sat > 0, nanIn := r.nanIn || o.evt.nanIn > 0, flush := r.flush || o.evt.flush > 0 }, false)

/-- The MU of MU_MASK that tile t is dealt to: the (t mod n)-th (R88). -/
def dealt (mus : List Nat) (t : Nat) : Nat := mus.getD (t % mus.length) 0

/-- Runs tiles in ascending order until one faults (R88; the order across MUs is no part of the result, R89). -/
def runTiles (s : State) (x : MJob) (mus : List Nat) (q : Nat) (ts : List Nat) (r : Started) : State × Started × Bool :=
  ts.foldl (fun (a : State × Started × Bool) t => if a.2.2 then a else runTile a.1 x (dealt mus t) q t a.2.1) (s, r, false)

/-- Reads of a command's operands refresh the age of their pages (05 R145). -/
def noteOperands (s : State) (k : Nat) (us : List Use) : State :=
  us.foldl (fun s u => if u.write then s else (List.range u.rows).foldl (fun s r => s.noteRead k (u.base + r * u.ld.getD 0) u.per) s) s

/-- Drain writes of a command that still wait for their inbox tiles. -/
def drainsOf (s : State) (q : Nat) (idx : BitVec 24) : Bool := s.vcs.any fun v => v.2.inbox.any fun w => w.q.toNat = q ∧ w.idx = idx

/-- How a command's work stands once no tile of it is left to run: its drain writes may still wait, and STRICT ends it with
RANGE (02 R47). -/
def tilesEnded (s : State) (q : Nat) (idx : BitVec 24) (r : Started) : Started :=
  { r with work := if drainsOf s q idx then .inbox else .done,
           status := if r.strict && !faulting r.status then stRANGE else r.status }

/-! ### MATMUL (R85 to R93) -/

/-- Whether an MU runs in the mode a command asks for (R67, R180). -/
def muInMode (s : State) (sl c j : Nat) : Bool := (s.mu (muIx sl j)).quad = mQuad c

/-- Whether an MU that its fence is about to take from its block waits for the takeover (12 R352). -/
def muDue (s : State) (sl j : Nat) : Bool := (s.block clsMu (sl / 4) (sl % 4 * 6 + j)).due

/-- Whether quad q of an MU holds no command: no tile waits in it, and both its drain buffers hold their credits (R88). -/
def quadFree (m : Mu) (q : Nat) : Bool := (m.queue.all fun x => x.quad ≠ q) && (List.range 2).all fun b => m.bufs.getLsbD (q * 2 + b)

/-- The first free quad of the MUs of a command, in ascending MU and quad order (R88). -/
def firstQuad (s : State) (sl c : Nat) : Option (Nat × Nat) :=
  (((musOf s sl c).filter fun j => muInMode s sl c j && !muDue s sl j).flatMap fun j => (List.range 4).map fun q => (j, q)).find?
    fun e => quadFree (s.mu (muIx sl e.1)) e.2

/-- The MUs and the quad a command's tiles go to: all its MUs, in Full mode and none of them about to be replaced, or its first
free quad; none while it waits (R67, R88). -/
def musReady (s : State) (sl c : Nat) : Option (List Nat × Nat) :=
  if mQuad c then (firstQuad s sl c).map fun e => ([e.1], e.2)
  else if (musOf s sl c).all fun j => muInMode s sl c j && !muDue s sl j then some (musOf s sl c, 0) else none

/-- Tiles a quad can take on at once: none behind others or without a free drain buffer; as many as it has free buffers when
their writes go to inbox tiles, which may keep the buffers; else any number (R66). -/
def roomFor (m : Mu) (q : Nat) (tiled : Bool) (n : Nat) : Nat :=
  if m.queue.any fun x => x.quad = q then 0
  else
    let free := (List.range 2).countP fun b => m.bufs.getLsbD (q * 2 + b)
    if free = 0 then 0 else if tiled then free else n

/-- Whether a command writes to inbox tiles. -/
def tiledCmd (P : Part) (c d : Nat) : Bool := (matOuts c d).any fun o => inTile P o.1.base

/-- Whether tile t starts with the command: its place among the tiles of its MU is within the room there. -/
def startsNow (s : State) (x : MJob) (mus : List Nat) (q t : Nat) : Bool :=
  t / mus.length < roomFor (s.mu (muIx x.sl (dealt mus t))) q (tiledCmd (s.part x.k) x.c x.d) (tileCount x.c)

/-- Puts tiles into the queues of their MUs (R58, R88). -/
def enqueue (s : State) (x : MJob) (mus : List Nat) (q : Nat) (ts : List Nat) : State :=
  ts.foldl (fun s t => s.modMu (muIx x.sl (dealt mus t)) fun m =>
    { m with queue := m.queue ++ [{ quad := q, q := BitVec.ofNat 20 x.q, idx := x.idx, t := t }] }) s

/-- The tiles of a valid command: those that can start run, the rest wait in their MUs' queues, and a fault drops them (R66,
R88, R89). -/
def startTiles (s : State) (x : MJob) (mus : List Nat) (q : Nat) : State × Started :=
  let ts := List.range (tileCount x.c)
  let now := ts.filter (startsNow s x mus q)
  let later := ts.filter fun t => !startsNow s x mus q t
  let e := runTiles s x mus q now {}
  if e.2.2 ∨ later.isEmpty then (e.1, tilesEnded e.1 x.q x.idx e.2.1)
  else (enqueue e.1 x mus q later, { e.2.1 with work := .queued later })

/-- A MATMUL that starts: validated, then run tile by tile, or left to its fill tiles (R85, 06 R181). Its descriptor and its mask
array are read once, now (R79, R86). -/
def startMatmul (q : Qid) (sl : Nat) (fill : Bool) (s : State) (k c : Nat) : State × Started :=
  let v := matValidate s k sl c
  let s := s.noteIf k (mDesc c) 128
  if v.1 ≠ stOK then (s, failed v.1 1 v.2)
  else if mM c = 0 ∨ mN c = 0 then (s, { degen := true })
  else
    let d := s.loadNat k (mDesc c) 128
    let masks := pinMasks s k c d
    let keep (r : Started) : Started := { r with degen := mK c = 0, desc := BitVec.ofNat 1024 d, aux := masks }
    if fill then (s, keep { work := .tiles (List.range (tileCount c)) })
    else
      match musReady s sl c with
      | none => (s, keep {})
      | some (mus, qd) =>
        let e := startTiles (noteOperands s k (matUses (s.part k) c d))
          { k := k, q := q.toNat, idx := startIdx s q.toNat, c := c, d := d, masks := masks, sl := sl } mus qd
        (e.1, keep { e.2 with mus := mus, quadIx := qd })

/-- MATMUL (R85): validated, cut into output tiles and multiplied; a fill-class command hands its tiles to FILL_TILE
(06 R181). It waits for its MUs' mode, and in Quad mode for a free quad (R67, R88). -/
def execMatmul (q : Qid) (s : State) : Host.Outcome State Fault Refusal :=
  outcome s <|
    match startable s q.toNat with
    | none => s
    | some (k, c) =>
      let sl := targetSlice (s.part k) c
      let fill := hdrClass c = 6
      if (matValidate s k sl c).1 = stOK ∧ !fill ∧ mM c ≠ 0 ∧ mN c ≠ 0 ∧ (musReady s sl c).isNone then s
      else runFront s q.toNat (fun c => (hdrClass c = 0 ∨ hdrClass c = 6) ∧ hdrKind c = 0x10) (startMatmul q sl fill)

/-! ### Tiles that waited (R66, R88) -/

/-- Drops the waiting tiles of a command (R89). -/
def dropTiles (s : State) (q : Nat) (idx : BitVec 24) : State :=
  s.setMus (tmodAll {} s.mus (s.mus.map Prod.fst) fun _ m => { m with queue := m.queue.filter fun x => !(x.q.toNat = q ∧ x.idx = idx) })

/-- The context of a started MATMUL's tiles. -/
def jobOf (s : State) (k q : Nat) (r : Started) : MJob :=
  { k := k, q := q, idx := r.idx, c := r.cmd.toNat, d := r.desc.toNat, masks := r.aux, sl := targetSlice (s.part k) r.cmd.toNat }

/-- Runs a tile that waited on quad qd of MU j of its slice. -/
def runWaiting (s : State) (k q j qd : Nat) (r : Started) (t : Nat) (left : List Nat) : State :=
  let e := runTile s (jobOf s k q r) j qd t r
  let s := if e.2.2 then dropTiles e.1 q r.idx else e.1
  let left := left.filter (· ≠ t)
  modStarted s q r.idx fun _ =>
    if e.2.2 ∨ left.isEmpty then tilesEnded s q r.idx e.2.1 else { e.2.1 with work := .queued left }

/-- The first tile that waits in a quad of an MU runs once the quad has a free drain buffer (R66); none while the MU waits to be
replaced (12 R352). -/
def pumpQuad (s : State) (mu qd : Nat) : State :=
  let m := s.mu mu
  match m.queue.find? (fun x => x.quad = qd), freeBuf m qd, muDue s (mu / 6) (mu % 6) with
  | some x, some _, false =>
    let s := s.putMu mu { m with queue := m.queue.erase x }
    (match ownerOf s x.q.toNat, (s.queue x.q.toNat).started.find? (fun r => r.idx = x.idx) with
     | some k, some r =>
       (match r.work with
        | .queued left => runWaiting s k x.q.toNat (mu % 6) qd r x.t left
        | _ => s)
     | _, _ => s)
  | _, _, _ => s

/-- Every quad of the MUs of a slice runs what it can: two tiles at most, one for each buffer, for each quad. -/
def pumpSlice (s : State) (sl : Nat) : State :=
  (List.range 6).foldl (fun s j => (List.range 4).foldl (fun s qd => pumpQuad (pumpQuad s (muIx sl j) qd) (muIx sl j) qd) s) s

/-- The memory has accepted a drain write of a buffer: with the last one its credit returns (R66). -/
def returnBuf (s : State) (w : DrainWrite) : State :=
  if s.vcs.any fun e => e.2.inbox.any fun x => x.mu = w.mu ∧ x.buf = w.buf then s
  else s.modMu w.mu fun m => { m with bufs := m.bufs ||| (1#8 <<< w.buf) }

/-! ### Fill tiles (06 R180, R181) -/

/-- The quad a fill tile takes on an MU: the first with a free drain buffer, one where no primary tile waits before the others
(R68, R181). -/
def fillQuad (m : Mu) : Option Nat :=
  let qs := (List.range (if m.quad then 4 else 1)).filter fun q => (freeBuf m q).isSome
  match qs.find? fun q => m.queue.all fun x => x.quad ≠ q with
  | some q => some q
  | none => qs.head?

/-- Tile t of started fill command r on MU j of slice sl; ts are the tiles left (06 R181). -/
def fillTile (s : State) (k q sl j qd : Nat) (r : Started) (t : Nat) (ts : List Nat) : State :=
  let x := jobOf s k q r
  let e := runTile (noteOperands s k (matUses (s.part k) x.c x.d)) { x with sl := sl } j qd t r
  modStarted e.1 q r.idx fun _ => if e.2.2 ∨ ts.isEmpty then tilesEnded e.1 q r.idx e.2.1 else { e.2.1 with work := .tiles ts }

/-- The oldest fill command of a queue that has a tile left. -/
def fillCmd (Q : QCtx) : Option Started :=
  Q.started.find? fun r => match r.work with | .tiles (_ :: _) => true | _ => false

/-- Whether MU j of slice sl may run a tile of fill command r: its slice, its mask, its mode, and no takeover due (R180, R181;
12 R352). -/
def fillFits (s : State) (k sl j : Nat) (r : Started) : Bool :=
  let c := r.cmd.toNat
  targetSlice (s.part k) c = sl && (musOf s sl c).contains j && muInMode s sl c j && !muDue s sl j

/-- A fill command of another queue comes first on this MU (06 R178). -/
def fillOutranked (s : State) (k q sl j : Nat) (r : Started) : Bool :=
  (queuesOf s k).any fun q' =>
    match fillCmd (s.queue q') with
    | some r' => ranksBefore (s.queue q').prio.toNat r'.since q' (s.queue q).prio.toNat r.since q && fillFits s k sl j r'
    | none => false

/-- FILL_TILE (06 R181): an MU of the target slice, in the command's mode and named by MU_MASK, runs the next tile of the
oldest fill command of the queue, unless another queue's comes first; it has no primary tile, or its feeder sends bubbles for
one that waits for a drain credit (log 1). -/
def execFillTile (q : Qid) (mu : Fin 96) (s : State) : Host.Outcome State Fault Refusal :=
  outcome s <|
    match ownerOf s q.toNat, fillCmd (s.queue q.toNat), fillQuad (s.mu mu.val) with
    | some k, some r, some qd =>
      let sl := mu.val / 6
      let j := mu.val % 6
      if s.boot.clocksOff ∨ !fillFits s k sl j r ∨ fillOutranked s k q.toNat sl j r then s
      else
        match r.work with
        | .tiles (t :: ts) => fillTile s k q.toNat sl j qd r t ts
        | _ => s
    | _, _, _ => s

/-- Whether an MU's drain credits are all back: no drain write of it waits for its inbox tile (R66). -/
def drainOut (s : State) (mu : Nat) : Bool := (s.mu mu).bufs ≠ 0xFF

/-- MODE_CHANGE (R67): an idle MU whose drain credits are back changes between Full and Quad; nothing is wiped. -/
def execModeChange (mu : Fin 96) (quad : Bool) (s : State) : Host.Outcome State Fault Refusal :=
  .next (if s.boot.clocksOff || drainOut s mu.val then s else s.modMu mu.val fun m => { m with quad := quad })

/-! ### Loading planes ahead (R63, R64) -/

/-- The load that plane p of a quad takes next for the tile that waits there first: its first block in the plane the next block
goes to, its second in the other. -/
def nextLoad (m : Mu) (qd p : Nat) (c : Nat) : Option (Nat × Piece × Piece × Int) :=
  (loadList c)[if p = nextPlane m qd then 0 else 1]?

/-- The tile that waits first in a quad, with its command. -/
def headTile (s : State) (mu qd : Nat) : Option (Nat × Started × Nat) :=
  match (s.mu mu).queue.find? fun x => x.quad = qd with
  | none => none
  | some x =>
    match ownerOf s x.q.toNat, (s.queue x.q.toNat).started.find? fun r => r.idx = x.idx with
    | some k, some r => some (k, r, x.t)
    | _, _ => none

/-- PLANE_LOAD (R63, R64): for the tile that waits first in a quad, named by its row and column in the grid (R58), the feeder
writes the next cube row of a plane's block, rows in ascending order, once that row's credit has returned; the credit leaves. -/
def execPlaneLoad (mu : Fin 96) (qrow qcol plane : Fin 2) (row : Fin 8) (s : State) : Host.Outcome State Fault Refusal :=
  outcome s <|
    let quad := 2 * qrow.val + qcol.val
    match headTile s mu.val quad with
    | none => s
    | some (k, r, t) =>
      let m := s.mu mu.val
      let c := r.cmd.toNat
      let i := quad * 2 + plane.val
      let bits := creditMask (mQuad c) quad plane.val row.val
      match nextLoad m quad plane.val c with
      | none => s
      | some l =>
        if s.boot.clocksOff ∨ m.quad ≠ mQuad c ∨ (tget {} m.info i).rows ≠ row.val ∨ cubeRows c ≤ row.val
            ∨ m.credits &&& bits ≠ bits then s
        else
          let pl := planeOf c r.aux ((tileCols c t).map fun n => (vecB s k c r.desc.toNat n).1) l.1 l.2.2.1
          let m := writeRow c quad plane.val pl m row.val
          s.putMu mu.val { m with credits := m.credits &&& ~~~bits, info := tset {} m.info i (infoOf pl (row.val + 1)) }

end Sys2Proof.Machine
end

