-- ==== Sys2Proof/Machine/Transport.lean ====
section
/-! DEFINITION. Jobs and ranks (08 R225 to R228), operation headers (08 Table 08.7), frames, and the Xanliush Fabric
Transport (09 R258 to R260, R269 to R281). -/

namespace Sys2Proof.Machine

open Sys2Proof

/-! ### Coordinates (08 R226 to R228) -/

/-- Axis sizes in the order X, Y, Z, W. -/
def axisSizes (J : Job) : List Nat := [J.x, J.y, J.z, J.w]

/-- Members of a job. -/
def jobSize (J : Job) : Nat := J.x * J.y * J.z * J.w

/-- Coordinates of a rank (R227). -/
def coordsOf (J : Job) (r : Nat) : List Nat := [r % J.x, r / J.x % J.y, r / (J.x * J.y) % J.z, r / (J.x * J.y * J.z)]

/-- Rank of coordinates (R227). -/
def rankAt (J : Job) (c : List Nat) : Nat := c.getD 0 0 + J.x * (c.getD 1 0 + J.y * (c.getD 2 0 + J.z * c.getD 3 0))

/-- The axis group of a member over an axis mask, rising (R228). -/
def axisGroup (J : Job) (mask : Nat) : List Nat :=
  let own := coordsOf J J.rank.toNat
  (List.range (jobSize J)).filter fun r =>
    let c := coordsOf J r
    (List.range 4).all fun a => bitOf mask a || c.getD a 0 = own.getD a 0

/-- Entry of a rank. -/
def rankEntry (J : Job) (r : Nat) : RankEntry := tget {} J.table r

/-- Whether a packet to a rank may be sent: below the job's size, entry VALID (R225 after Table 08.2). -/
def rankValid (J : Job) (r : Nat) : Bool := r < jobSize J && (rankEntry J r).valid

/-- The lowest axis on which a rank differs from this member (09 R259). -/
def axisTo (J : Job) (r : Nat) : Option Nat :=
  (List.range 4).find? fun a => (coordsOf J r).getD a 0 ≠ (coordsOf J J.rank.toNat).getD a 0

/-! ### Operation headers (08 Table 08.7) -/

/-- The 32 B operation header. -/
def opHeader (m : Msg) : Bytes :=
  toLe 32 (m.opk.toNat * 2 ^ 248 + m.exp.toNat * 2 ^ 240 + m.slotId.toNat * 2 ^ 224 + m.epoch.toNat * 2 ^ 208
    + m.src.toNat * 2 ^ 192 + m.mbid.toNat * 2 ^ 176 + m.step16.toNat * 2 ^ 160 + m.off.toNat * 2 ^ 136
    + m.count.toNat * 2 ^ 124 + m.role.toNat * 2 ^ 123 + m.dst.toNat * 2 ^ 75)

/-- A message as bytes: header, then payload. -/
def msgBytes (m : Msg) : Bytes := opHeader m ++ m.payload

/-- A message from its bytes. -/
def msgOf (b : Bytes) : Msg :=
  let h := leNat (slice b 0 32)
  { opk := BitVec.ofNat 8 (bitsOf h 255 248), exp := BitVec.ofNat 8 (bitsOf h 247 240),
    slotId := BitVec.ofNat 16 (bitsOf h 239 224), epoch := BitVec.ofNat 16 (bitsOf h 223 208),
    src := BitVec.ofNat 16 (bitsOf h 207 192), mbid := BitVec.ofNat 16 (bitsOf h 191 176),
    step16 := BitVec.ofNat 16 (bitsOf h 175 160), off := BitVec.ofNat 24 (bitsOf h 159 136),
    count := BitVec.ofNat 12 (bitsOf h 135 124), role := bitOf h 123, dst := BitVec.ofNat 48 (bitsOf h 122 75),
    payload := b.drop 32 }

/-! ### Frames (R263, R269, Table 09.5) -/

/-- One bit step of the Ethernet frame check sequence (IEEE 802.3; log 41). -/
def crc32Bit (c : BitVec 32) : BitVec 32 := if c.getLsbD 0 then (c >>> 1) ^^^ 0xEDB88320#32 else c >>> 1

/-- FCS of a frame. -/
def crc32 (b : Bytes) : BitVec 32 :=
  ~~~ (b.foldl (fun (c : BitVec 32) x =>
    crc32Bit (crc32Bit (crc32Bit (crc32Bit (crc32Bit (crc32Bit (crc32Bit (crc32Bit (c ^^^ x.zeroExtend 32))))))))) 0xFFFFFFFF#32)

/-- Appends the FCS. -/
def withFcs (b : Bytes) : Bytes := b ++ toLe 4 (crc32 b).toNat

/-- Ones' complement sum of 16-bit network words. -/
def ocSum : Bytes → Nat
  | a :: b :: r => a.toNat * 256 + b.toNat + ocSum r
  | [a] => a.toNat * 256
  | [] => 0

/-- The Internet checksum of a string (log 41). -/
def inetSum (b : Bytes) : Nat :=
  let x := ocSum b
  let x := x % 65536 + x / 65536
  let x := x % 65536 + x / 65536
  65535 - x

/-- A UDP datagram with its checksum over the pseudo-header; a zero sum is sent as 0xFFFF (log 41). -/
def udpOf (src dst : Bytes) (sport dport : Nat) (p : Bytes) : Bytes :=
  let n := 8 + p.length
  let h := toBe 2 sport ++ toBe 2 dport ++ toBe 2 n
  let c := inetSum (src ++ dst ++ [0, 17] ++ toBe 2 n ++ h ++ [0, 0] ++ p)
  h ++ toBe 2 (if c = 0 then 65535 else c) ++ p

/-- Prefix of an IPv4-mapped IPv6 address. -/
def mappedPrefix : Bytes := List.replicate 10 0 ++ [0xFF, 0xFF]

/-- Traffic class with a DSCP and ECT(0) (R263). -/
def ectClass (dscp : Nat) : Nat := dscp % 64 * 4 + 2

/-- An IP packet carrying UDP: addresses are 16 B in network order, IPv4-mapped when `v4`; hop limit and identification are not
stated (log 26). -/
def ipOf (v4 : Bool) (tc : Nat) (src dst : Bytes) (sport dport : Nat) (p : Bytes) : Bytes :=
  let hop := Config.unstated 40 0 % 256
  if v4 then
    let s4 := src.drop 12
    let d4 := dst.drop 12
    let u := udpOf s4 d4 sport dport p
    let a := [0x45, BitVec.ofNat 8 tc] ++ toBe 2 (20 + u.length) ++ toBe 2 (Config.unstated 41 sport) ++ [0x40, 0]
      ++ [BitVec.ofNat 8 hop, 17]
    a ++ toBe 2 (inetSum (a ++ [0, 0] ++ s4 ++ d4)) ++ s4 ++ d4 ++ u
  else
    let u := udpOf src dst sport dport p
    toBe 4 (6 * 2 ^ 28 + tc * 2 ^ 20) ++ toBe 2 u.length ++ [17, BitVec.ofNat 8 hop] ++ src ++ dst ++ u

/-- An Ethernet frame with an optional VLAN tag (R263). -/
def frameOf (dst src : BitVec 48) (vlan : Nat) (etype : Nat) (p : Bytes) : Bytes :=
  let h := toBe 6 dst.toNat ++ toBe 6 src.toNat ++ (if vlan = 0 then [] else [0x81, 0x00] ++ toBe 2 vlan) ++ toBe 2 etype
  withFcs (h ++ p ++ List.replicate (60 - (h ++ p).length) 0)

/-- A received IP packet with UDP. -/
structure Udp where
  v4 : Bool := false
  src : Bytes := []
  dst : Bytes := []
  ce : Bool := false
  frag : Bool := false
  sport : Nat := 0
  dport : Nat := 0
  payload : Bytes := []
  sumOk : Bool := true
  deriving DecidableEq, Repr, Inhabited

/-- Two bytes in network order. -/
def be2 (b : Bytes) (o : Nat) : Nat := (b.getD o 0).toNat * 256 + (b.getD (o + 1) 0).toNat

/-- A UDP datagram of an IP packet; a zero checksum is not checked (R269). -/
def udpIn (v4 : Bool) (src dst : Bytes) (tc : Nat) (frag : Bool) (u : Bytes) : Option Udp :=
  let n := be2 u 4
  if n < 8 ∨ u.length < n then none
  else
    let u := u.take n
    let pre := if v4 then src.drop 12 ++ dst.drop 12 else src ++ dst
    some { v4 := v4, src := src, dst := dst, ce := tc % 4 = 3, frag := frag, sport := be2 u 0, dport := be2 u 2,
           payload := u.drop 8, sumOk := be2 u 6 = 0 || inetSum (pre ++ [0, 17] ++ toBe 2 n ++ u) = 0 }

/-- The UDP packet of an Ethernet payload. -/
def ipIn (etype : Nat) (b : Bytes) : Option Udp :=
  if etype = 0x86DD then
    if b.length < 48 ∨ b.getD 6 0 ≠ 17 then none
    else udpIn false (slice b 8 16) (slice b 24 16) (be2 b 0 / 16 % 256) false (slice b 40 (be2 b 4))
  else if etype = 0x0800 then
    let ihl := (b.getD 0 0).toNat % 16 * 4
    if b.length < 28 ∨ ihl < 20 ∨ b.getD 9 0 ≠ 17 then none
    else udpIn true (mappedPrefix ++ slice b 12 4) (mappedPrefix ++ slice b 16 4) (b.getD 1 0).toNat
      (be2 b 6 % 2 ^ 14 ≠ 0) (slice b ihl (be2 b 2 - ihl))
  else none

/-! ### Ports of a partition (R258 to R260) -/

/-- Whether a port carries traffic: up or stepped down, its mode in force (14 Table 14.9). -/
def portUp (s : State) (p : Nat) : Bool := (s.port p).st = 1 || (s.port p).st = 4

/-- The axis assignment in force for a partition: its job's, else the ports' own entries; 4 is storage (R258). -/
def axisOfPort (s : State) (P : Part) (p : Nat) : Nat :=
  match P.job with
  | some J => tget (s.port p).axis.toNat J.axes p
  | none => (s.port p).axis.toNat

/-- Scale-out ports assigned to an axis. -/
def axisPorts (s : State) (P : Part) (a : Nat) : List Nat := (List.range 16).filter fun p => axisOfPort s P p = a

/-- Ports that carry a partition's storage traffic: assigned to storage or to an axis of size 1, else axis X's (R258). -/
def storagePorts (s : State) (P : Part) : List Nat :=
  let own := (List.range 16).filter fun p =>
    let a := axisOfPort s P p
    a = 4 || match P.job with
      | some J => (axisSizes J).getD a 1 = 1
      | none => true
  if own.isEmpty then axisPorts s P 0 else own

/-- Lanes of a mode (Table 09.1). -/
def modeLanes : Nat → Nat
  | 0 | 2 => 8 | 1 | 3 => 4 | 4 | 6 => 2 | _ => 1

/-- Lane group of a scale-out port on its P-die, and whether a lane of that die is powered: a narrow mode uses the
lowest-numbered lanes of its group and powers the others down (R256). -/
def laneGroup (p : Nat) : List Nat := (List.range 8).map fun i => 8 * (p % 8) + i
def laneOn (s : State) (p lane : Nat) : Bool := ((laneGroup p).take (modeLanes (s.port p).cur.toNat)).contains lane

/-- Rate of a mode in units of 100 Gb/s (Table 09.1). -/
def modeRate : Nat → Nat
  | 0 => 16 | 1 | 2 => 8 | 3 => 4 | 4 => 2 | _ => 1

/-- Bytes a port may carry in one turn: in proportion to its current rate, and at least one packet (R281; DESIGN CHOICE, log
35). -/
def quantum (s : State) (p : Nat) : Nat := 9216 * modeRate (s.port p).cur.toNat

/-- The up port after p in the round, the first where p is none of them. -/
def portAfter (up : List Nat) (p : Option Nat) : Option Nat :=
  match p.bind fun p => up.find? (p < ·) with
  | some x => some x
  | none => up.head?

/-- Deficit round robin over the up ports of an axis for a packet of n bytes: the port whose turn it is carries on while its
deficit holds the packet; else the turn passes to the next up port, whose deficit grows by its quantum (R281). -/
def nextPort (s : State) (P : Part) (ports : List Nat) (axis n : Nat) : Option (Nat × Part) :=
  let up := ports.filter (portUp s)
  let cur := tfind P.rr axis
  let left (p : Nat) : Nat := tget 0 P.deficit p
  if cur.any fun p => up.contains p && n ≤ left p then
    cur.map fun p => (p, { P with deficit := tset 0 P.deficit p (left p - n) })
  else match portAfter up cur with
    | none => none
    | some p =>
      let kept := match cur with
        | some c => tset 0 P.deficit c 0
        | none => P.deficit
      some (p, { P with rr := tins axis p (tdel P.rr axis), deficit := tset 0 kept p (tget 0 kept p + quantum s p - n) })

/-- Frame counters of a partition on a port (R265): 0 TX_FRAMES, 1 TX_BYTES, 2 RX_FRAMES, 3 RX_BYTES, 4 RX_FILTER_DROP. -/
def countFrame (P : Part) (p n by_ : Nat) : Part := { P with frames := bump64 P.frames (p * 8 + n) by_ }

/-- Hands a frame to a port; in low-power idle it waits for the wake time, which its queuing starts (R268): `wake` is in
ns, AONCLK counts 10. -/
def queueFrame (s : State) (p : Nat) (f : Bytes) : State :=
  if (s.port p).lpi then
    s.modPort p fun x =>
      { x with lpiHeld := x.lpiHeld ++ [f]
               wakeAt := match x.wakeAt with | none => some (s.now.toNat + (x.wake + 9) / 10) | t => t }
  else s.setEthTx (s.ethTx ++ [(p, f)])

/-- A port leaves low-power idle and sends what waited (R268). -/
def leaveIdle (s : State) (p : Nat) : State :=
  let x := s.port p
  (s.setEthTx (s.ethTx ++ x.lpiHeld.map fun f => (p, f))).putPort p { x with lpi := false, wakeAt := none, lpiHeld := [] }

/-- A port whose wake time has passed leaves low-power idle (R268). -/
def wakePort (s : State) (p : Nat) : State := if (s.port p).wakeAt.any (· ≤ s.now.toNat) then leaveIdle s p else s

/-- Hands a frame of partition k to a port (R263, R265). -/
def sendFrame (s : State) (k p : Nat) (etype : Nat) (b : Bytes) : State :=
  let P := s.part k
  let f := frameOf (s.port p).nextHop P.dict.mac (tget 0 P.dict.vlan p).toNat etype b
  (queueFrame s p f).modPart k fun P => countFrame (countFrame P p 0 1) p 1 f.length

/-! ### The XFT header (R270, Table 09.6) -/

/-- Fields of an XFT packet. -/
structure XHdr where
  nctr : Nat := 0
  ver : Nat := 1
  type : Nat := 1
  retx : Bool := false
  ece : Bool := false
  keyslot : Nat := 0
  src : Nat := 0
  dst : Nat := 0
  psn : Nat := 0
  msn : Nat := 0
  moff : Nat := 0
  mlen : Nat := 0
  plen : Nat := 0
  port : Nat := 0
  ent : Nat := 0
  ts : Nat := 0
  aux : Nat := 0
  deriving DecidableEq, Repr, Inhabited

/-- The 40 B header. -/
def xhdrBytes (h : XHdr) : Bytes :=
  toLe 40 (h.nctr * 2 ^ 256 + h.ver * 2 ^ 252 + h.type * 2 ^ 248 + h.retx.toNat * 2 ^ 247 + h.ece.toNat * 2 ^ 246
    + h.keyslot * 2 ^ 232 + h.src * 2 ^ 208 + h.dst * 2 ^ 192 + h.psn * 2 ^ 160 + h.msn * 2 ^ 128 + h.moff * 2 ^ 112
    + h.mlen * 2 ^ 96 + h.plen * 2 ^ 80 + h.port * 2 ^ 76 + h.ent * 2 ^ 64 + h.ts * 2 ^ 32 + h.aux)

/-- The header of a packet. -/
def xhdrOf (b : Bytes) : XHdr :=
  let h := leNat (slice b 0 40)
  { nctr := bitsOf h 319 256, ver := bitsOf h 255 252, type := bitsOf h 251 248, retx := bitOf h 247, ece := bitOf h 246,
    keyslot := bitsOf h 239 232, src := bitsOf h 223 208, dst := bitsOf h 207 192, psn := bitsOf h 191 160,
    msn := bitsOf h 159 128, moff := bitsOf h 127 112, mlen := bitsOf h 111 96, plen := bitsOf h 95 80,
    port := bitsOf h 79 76, ent := bitsOf h 75 64, ts := bitsOf h 63 32, aux := bitsOf h 31 0 }

/-- Whether a header holds no reserved value (R270, R273). -/
def xhdrOk (b : Bytes) (h : XHdr) : Bool :=
  let n := leNat (slice b 0 40)
  h.ver = 1 && 1 ≤ h.type && h.type ≤ 4 && bitsOf n 245 240 = 0 && bitsOf n 231 224 = 0 && h.keyslot < 4
    && (h.type ≠ 1 || (1 ≤ h.mlen && h.mlen ≤ 8224 && h.moff % 64 = 0 && h.moff + h.plen ≤ h.mlen && 0 < h.plen && h.aux = 0))
    && (h.type ≠ 4 || h.aux = 0) && (h.type = 1 || !h.retx) && (h.type = 2 || !h.ece) && b.length = 40 + h.plen + 16

/-- Nonce of a packet (R272). -/
def xNonce (h : XHdr) : Bytes := toLe 8 h.nctr ++ toLe 2 h.src ++ toLe 1 h.keyslot ++ [0]

/-- XOR of two strings, the length of the first. -/
def xorBytes (a b : Bytes) : Bytes := (a.zipIdx).map fun e => e.1 ^^^ b.getD e.2 0

/-- AES-256-GCM (R272): ciphertext and tag. -/
def gcmSeal (key nonce aad p : Bytes) : Bytes :=
  let c := xorBytes p (Config.gcmStream key nonce p.length)
  c ++ fit 16 (Config.gcmTag key nonce aad c)

/-- The plaintext of a sealed string when its tag holds. -/
def gcmOpen (key nonce aad b : Bytes) : Option Bytes :=
  let c := b.take (b.length - 16)
  if fit 16 (Config.gcmTag key nonce aad c) = b.drop (b.length - 16) then some (xorBytes c (Config.gcmStream key nonce c.length))
  else none

/-! ### Connections: sending (R270 to R281) -/

/-- A connection of the partition; created with the initial window (R280). -/
def connOf (s : State) (P : Part) (r : Nat) : Conn := (tfind P.conns r).getD { cwnd := s.xft.iw.toNat }

/-- Puts a connection. -/
def putConn (s : State) (k r : Nat) (c : Conn) : State :=
  s.modPart k fun P => { P with conns := tins r c (tdel P.conns r) }

/-- Bytes a DATA packet counts against the window (R280). -/
def pktCost (p : Pkt) : Nat := 56 + p.payload.length

/-- The send slot when it holds a key and its counter is not spent (R272, R336). -/
def sendKey (P : Part) : Option (Nat × Bytes × BitVec 64) :=
  match P.sendSlot with
  | none => none
  | some i =>
    let x := tget {} P.xslots i
    match x.key with
    | some key => if x.nctr = BitVec.ofNat 64 (2 ^ 64 - 1) then none else some (i, key, x.nctr)
    | none => none

/-- Sends one XFT packet of partition k on a port: seals it under the send slot, advances NCTR (R272). -/
def emitXft (s : State) (k p : Nat) (h : XHdr) (payload : Bytes) : State :=
  let P := s.part k
  match sendKey P, P.job with
  | some (i, key, n), some J =>
    let h := { h with nctr := n.toNat, keyslot := i, src := J.rank.toNat, plen := payload.length, port := p }
    let b := xhdrBytes h
    let body := b ++ gcmSeal key (xNonce h) b payload
    let e := rankEntry J h.dst
    let ip := ipOf e.v4 (ectClass P.dict.dscp.toNat) (toLe 16 P.dict.addr.toNat) (toLe 16 e.addr.toNat) (0xC000 + h.ent) s.xft.udp.toNat body
    let s := s.modPart k fun P => { P with xslots := tmod {} P.xslots i fun x => { x with nctr := x.nctr + 1 } }
    let s := if n.toNat + 2 = 2 ^ 64 then ripEvent (setPers s 0x14 true) 0x14 (k + 1) 4 0 0 i else s
    sendFrame s k p (if e.v4 then 0x0800 else 0x86DD) ip
  | _, _ => s

/-- The ports toward a rank. -/
def portsTo (s : State) (P : Part) (J : Job) (r : Nat) : List Nat :=
  match axisTo J r with
  | some a => (axisPorts s P a).filter fun p => (s.port p).nextHop ≠ 0xFFFFFFFFFFFF
  | none => []

/-- The next ENT of a partition, skipping one value where R281 asks for it. -/
def nextEnt (P : Part) (c : Conn) : BitVec 12 := if c.skipEnt = some P.ent then P.ent + 1 else P.ent

/-- Port and ENT of the next packet of n payload bytes to a rank, and the partition with both taken (R259, R281). -/
def nextPath (s : State) (P : Part) (J : Job) (r n : Nat) (c : Conn) : Option (Nat × BitVec 12 × Part) :=
  (nextPort s P (portsTo s P J r) ((axisTo J r).getD 4) (56 + n)).map fun e =>
    let ent := nextEnt P c
    (e.1, ent, { e.2 with ent := ent + 1 })

/-- Sends a DATA packet under a fresh PSN and keeps it (R277): the connection with it retained, or none where no port or
key can carry it now. -/
def sendData (s : State) (k r : Nat) (c : Conn) (p : Pkt) : Option (State × Conn) :=
  let P := s.part k
  match P.job, sendKey P with
  | some J, some _ =>
    match nextPath s P J r p.payload.length c with
    | none => none
    | some (port, ent, P) =>
      let p := { p with psn := c.nextPsn, port := port, ent := ent, ts := BitVec.ofNat 32 s.now.toNat }
      let s := emitXft (s.putPart k P) k port
        { type := 1, retx := p.retx, dst := r, psn := p.psn.toNat, msn := p.msn.toNat, moff := p.moff.toNat,
          mlen := p.mlen.toNat, ent := ent.toNat, ts := p.ts.toNat } p.payload
      some (s, { c with nextPsn := c.nextPsn + 1, retained := c.retained ++ [p], skipEnt := none,
                        roundPsn := match c.roundPsn with | none => some p.psn | x => x })
  | _, _ => none

/-- Sends waiting packets in order while the window allows it (R280). -/
def pumpConn (s : State) (k r : Nat) : Nat → State
  | 0 => s
  | n + 1 =>
    let c := connOf s (s.part k) r
    match c.waiting with
    | [] => s
    | p :: rest =>
      if c.cwnd < (c.retained.map pktCost).foldl (· + ·) 0 + pktCost p then s
      else
        match sendData s k r { c with waiting := rest } p with
        | none => s
        | some (s, c) => pumpConn (putConn s k r c) k r n

/-- Sends what the window allows. -/
def pumpTo (s : State) (k r : Nat) : State := pumpConn s k r (connOf s (s.part k) r).waiting.length

/-- Bytes of payload a packet of the ports holds: the largest multiple of 64 within the smallest maximum frame size less
the packet's overhead (R274). -/
def packetRoom (s : State) (P : Part) (J : Job) (r : Nat) : Nat :=
  let e := rankEntry J r
  let ports := portsTo s P J r
  let mf := (ports.map fun p => (s.port p).maxFrame.toNat - (if tget 0 P.dict.vlan p = 0 then 0 else 4)).foldl min 9216
  (mf - (14 + (if e.v4 then 20 else 40) + 8 + 40 + 16 + 4)) / 64 * 64

/-- Cuts a message into packets (R274). -/
def cutMsg (room : Nat) (msn : BitVec 32) (b : Bytes) : List Pkt :=
  (pieces room b).zipIdx.map fun e =>
    { msn := msn, moff := BitVec.ofNat 16 (room * e.2), mlen := BitVec.ofNat 16 b.length, payload := e.1 }

/-- SRC_RANK, STEP16 and EPOCH of a message: its sender's, and the epoch of the slot where it is about one (08 Table 08.7). -/
def headerOf (P : Part) (J : Job) (m : Msg) : Msg :=
  { m with src := J.rank, step16 := BitVec.ofNat 16 P.stepNo.toNat,
           epoch := if m.opk.toNat ≤ 0x0A ∨ m.opk = 0x12 then m.epoch else J.epoch }

/-- Sends a message of partition k to a rank for a command, or for none; a message to this member loops back (08 R233).
The caller has checked `rankValid`. -/
def sendMsg (s : State) (k r : Nat) (cmd : Option (BitVec 20 × BitVec 24)) (m : Msg) : State :=
  let P := s.part k
  match P.job with
  | none => s
  | some J =>
    let m := headerOf P J m
    if r = J.rank.toNat then s.modPart k fun P => { P with rx := P.rx ++ [m] }
    else if !rankValid J r then s
    else
      let c := connOf s P r
      let ps := cutMsg (packetRoom s P J r) c.nextMsn (msgBytes m)
      let c := { c with nextMsn := c.nextMsn + 1, waiting := c.waiting ++ ps,
                        msgs := match cmd with | some x => c.msgs ++ [(c.nextMsn, x.1, x.2)] | none => c.msgs }
      pumpTo (putConn s k r c) k r

/-- The unit kind and status of a command that ends (Table 06.6). -/
def endAs (s : State) (ukind : Nat) (q : Nat) (idx : BitVec 24) (st : BitVec 8) : State :=
  endWork (modStarted s q idx fun r => if faulting r.status then r else { r with ukind := BitVec.ofNat 4 ukind }) q idx st

/-- Every command with a message on a connection ends with DATA_ERROR (08 R248, 09 R279). -/
def failMsgs (s : State) (k r : Nat) : State :=
  let c := connOf s (s.part k) r
  let s := putConn s k r { c with retained := [], kept := [], waiting := [], msgs := [], roundPsn := none, expiries := 0 }
  c.msgs.foldl (fun s m => endAs s 6 m.2.1.toNat m.2.2 stDATA) s

/-! ### Receiving (R271, R273, R275) -/

/-- Transport counters of a partition in 14 Table 14.13's order. -/
def xOversize : Nat := 0
def xAuthFail : Nat := 1
def xSrcMismatch : Nat := 2
def xBadHdr : Nat := 3
def xReasmFull : Nat := 4
def xDupDiscard : Nat := 5
def xReasmTimeout : Nat := 6
def roceUnsupported : Nat := 7
def roceDenied : Nat := 8
def countXfer (s : State) (k i : Nat) : State := s.modPart k fun P => { P with xfer := bump64 P.xfer i 1 }

/-- The XFT packet of a frame in a partition's receive buffer, with the frame's UDP. -/
def xftIn (f : Bytes) : Option Udp :=
  let t := be2 f 12
  let (et, o) := if t = 0x8100 then (be2 f 16, 18) else (t, 14)
  ipIn et ((f.take (f.length - 4)).drop o)

/-- Takes the first frame that carries an XFT packet of a type `sel` picks out of the receive buffer. -/
def takeXft (s : State) (k : Nat) (sel : Nat → Bool) : Option (Udp × State) :=
  let l := (s.part k).ethRx
  match l.findIdx? (fun e => match xftIn e.2 with | some u => sel (xhdrOf u.payload).type | none => false) with
  | none => none
  | some i =>
    match xftIn ((l[i]?.getD (0, [])).2) with
    | none => none
    | some u => some (u, s.modPart k fun P => { P with ethRx := P.ethRx.eraseIdx i })

/-- R273: the header and the plaintext of a packet that passes, or the state with the drop counted. -/
def openXft (s : State) (k : Nat) (u : Udp) : State ⊕ (XHdr × Bytes) :=
  let P := s.part k
  let b := u.payload
  let h := xhdrOf b
  if 4 ≤ h.keyslot then .inl (countXfer s k xBadHdr)
  else
    match (tget ({} : XftSlot) P.xslots h.keyslot).key.bind fun key => gcmOpen key (xNonce h) (b.take 40) (b.drop 40) with
    | none => .inl (countXfer s k xAuthFail)
    | some p =>
      match P.job with
      | none => .inl (countXfer s k xSrcMismatch)
      | some J =>
        if toLe 16 (rankEntry J h.src).addr.toNat ≠ u.src ∨ h.dst ≠ J.rank.toNat ∨ !rankValid J h.src then
          .inl (countXfer s k xSrcMismatch)
        else if !xhdrOk b h then .inl (countXfer s k xBadHdr)
        else .inr (h, p)

/-- Whether sequence number a is at or below b, modulo 2^32. -/
def seqLe (a b : Nat) : Bool := (b + 2 ^ 32 - a) % 2 ^ 32 < 2 ^ 31

/-- Marks a PSN received (R271). -/
def notePsn (c : Conn) (n : Nat) : Conn :=
  let rec run (x : Nat) : Nat → Nat
    | 0 => x
    | f + 1 => if c.rxAbove.contains x ∨ x = n then run ((x + 1) % 2 ^ 32) f else x
  let nx := run c.rxNext.toNat (c.rxAbove.length + 1)
  { c with rxNext := BitVec.ofNat 32 nx,
           rxAbove := (if c.rxAbove.contains n then c.rxAbove else n :: c.rxAbove).filter fun x => !(seqLe x nx && x ≠ nx) }

/-- A PSN not received before on this connection (R271). -/
def freshPsn (c : Conn) (psn : Nat) : Bool :=
  let i := (psn + 2 ^ 32 - c.rxNext.toNat) % 2 ^ 32
  i < 2 ^ 31 && !(c.rxAbove.contains (psn % 2 ^ 32))

/-- Whether an ACK acknowledges a PSN: at or below AUX, or its bitmap bit is set. -/
def ackCovers (aux base map n : Nat) : Bool :=
  let i := (n + 2 ^ 32 - base) % 2 ^ 32
  seqLe n aux || (i < 160 && bitOf map i)

/-- BASE and BITMAP of the ACK that a connection sends now (Table 09.7). -/
def ackMap (c : Conn) : Nat × Nat :=
  let base := c.rxNext.toNat
  (base, (List.range 160).foldl (fun m i => if c.rxAbove.contains ((base + i) % 2 ^ 32) then m + 2 ^ i else m) 0)

/-- Sends an ACK of everything received: RX_PKTS and CE_PKTS count the packets that this ACK is the first to acknowledge, and
one beyond its bitmap waits for a later one (R271, Table 09.7). -/
def sendAck (s : State) (k r : Nat) : State :=
  let P := s.part k
  let c := connOf s P r
  match P.job with
  | none => s
  | some J =>
    match nextPath s P J r 48 c with
    | none => s
    | some (port, ent, P) =>
      let (base, map) := ackMap c
      let aux := (base + 2 ^ 32 - 1) % 2 ^ 32
      let now := c.rxNew.filter fun e => ackCovers aux base map e.1
      let ce := now.countP fun e => e.2.1
      let ts := match now.getLast? with | some e => e.2.2 | none => c.rxTs
      let body := toLe 48 (now.length * 2 ^ 256 + ce * 2 ^ 224 + ts.toNat * 2 ^ 192 + base * 2 ^ 160 + map)
      let s := putConn (s.putPart k P) k r
        { c with rxNew := c.rxNew.filter fun e => !ackCovers aux base map e.1, rxTs := ts, skipEnt := none }
      emitXft s k port { type := 2, ece := 0 < ce, dst := r, ent := ent.toNat, ts := s.now.toNat % 2 ^ 32, aux := aux } body

/-- Sends a NACK or a PROBE (R276, R278). -/
def sendPlain (s : State) (k r type aux : Nat) : State :=
  let P := s.part k
  match P.job with
  | none => s
  | some J =>
    let c := connOf s P r
    match nextPath s P J r 0 c with
    | none => s
    | some (port, ent, P) =>
      let s := putConn (s.putPart k P) k r { c with skipEnt := none }
      emitXft s k port { type := type, dst := r, ent := ent.toNat, ts := s.now.toNat % 2 ^ 32, aux := aux } []

/-- Delivers a whole message and remembers its MSN (R275); its sender answers (12 R368). -/
def deliver (s : State) (k r : Nat) (msn : BitVec 32) (b : Bytes) : State :=
  let c := connOf s (s.part k) r
  (putConn s k r { c with delivered := (msn :: c.delivered).take 65536 }).modPart k fun P =>
    { P with rx := P.rx ++ [msgOf b], silent := P.silent.filter (· ≠ BitVec.ofNat 16 r) }

/-- Bytes a reassembly record has received. -/
def reasmGot (R : Reasm) : Nat := (R.parts.map fun e => e.2.length).foldl (· + ·) 0

/-- The message of a full record. -/
def reasmBytes (R : Reasm) : Bytes := R.parts.flatMap Prod.snd

/-- A DATA packet that passed R273 (R275): acknowledged unless no record is free. -/
def takeData (s : State) (k : Nat) (h : XHdr) (p : Bytes) (ce : Bool) : State :=
  let P := s.part k
  let r := h.src
  let c := connOf s P r
  let msn := BitVec.ofNat 32 h.msn
  let sameRec (R : Reasm) : Bool := R.src.toNat = r && R.msn = msn
  let dup := c.delivered.contains msn
  let whole := h.moff = 0 ∧ h.plen = h.mlen
  if ¬dup ∧ ¬whole ∧ !(P.reasm.any sameRec) ∧ 4096 ≤ P.reasm.length then countXfer s k xReasmFull
  else
    -- RX_PKTS and CE_PKTS count a PSN the first time alone (Table 09.7)
    let fresh := freshPsn c h.psn
    let s := putConn s k r
      { notePsn c h.psn with rxNew := if fresh then c.rxNew ++ [(h.psn, ce, BitVec.ofNat 32 h.ts)] else c.rxNew }
    let s :=
      if dup then countXfer s k xDupDiscard
      else if whole then deliver s k r msn p
      else
        let R := (P.reasm.find? sameRec).getD { src := BitVec.ofNat 16 r, msn := msn, mlen := h.mlen }
        let R := { R with parts := tins h.moff p (tdel R.parts h.moff) }
        let rest := P.reasm.filter fun x => !sameRec x
        if h.mlen ≤ reasmGot R then deliver (s.modPart k fun P => { P with reasm := rest }) k r msn (reasmBytes R)
        else s.modPart k fun P => { P with reasm := rest ++ [R] }
    if h.retx ∨ 4 ≤ (connOf s (s.part k) r).rxNew.length then sendAck s k r else s

/-- XFT_DATA (R275): the first DATA packet in partition k's receive buffer, or one of a reserved type. -/
def execXftData (k : Fin 16) (s : State) : Host.Outcome State Fault Refusal :=
  outcome s <|
    if s.boot.clocksOff then s
    else match takeXft s k.val (fun t => t ≠ 2 ∧ t ≠ 3 ∧ t ≠ 4) with
      | none => s
      | some (u, s) =>
        match openXft s k.val u with
        | .inl s => s
        | .inr (h, p) => takeData s k.val h p u.ce

/-- ACK_TIMER (R271). -/
def execAckTimer (k : Fin 16) (rank : BitVec 16) (s : State) : Host.Outcome State Fault Refusal :=
  outcome s <|
    if s.boot.clocksOff ∨ (connOf s (s.part k.val) rank.toNat).rxNew = [] then s else sendAck s k.val rank.toNat

/-- PROBE (R271): answered at once with an ACK. -/
def execProbe (k : Fin 16) (s : State) : Host.Outcome State Fault Refusal :=
  outcome s <|
    if s.boot.clocksOff then s
    else match takeXft s k.val (· = 4) with
      | none => s
      | some (u, s) =>
        match openXft s k.val u with
        | .inl s => s
        | .inr (h, _) => sendAck s k.val h.src

/-! ### Acknowledgements (R271, R277, R278, R280) -/

/-- end_round (R280). -/
def endRound (x : Xft) (c : Conn) : Conn :=
  let n := if c.acked = 0 then 1 else c.acked
  let f : Int := c.ce * 65536 / n
  let alpha := ((c.alpha : Int) + (f - c.alpha) >>> 4).toNat
  let base := (c.samples.map Prod.snd).foldl min c.rttMin
  let w :=
    if 0 < c.ce then c.cwnd - (c.cwnd * alpha) / 2 ^ 17
    else if base + 100 * x.delayTgt.toNat < c.rttMin then c.cwnd - c.cwnd / 8
    else c.cwnd + x.ai.toNat
  { c with alpha := alpha, cwnd := min x.cwndMax.toNat (max 8280 w), acked := 0, ce := 0, rttMin := 0, roundPsn := none }

/-- SRTT and RTTVAR after a sample (R278; the first sample PRESUMED as RFC 6298 takes it, log 39). -/
def rttSample (now : Nat) (x : Nat) (c : Conn) : Conn :=
  let keep := (now, x) :: c.samples.filter fun e => now ≤ e.1 + 1000000000
  let m := if c.rttMin = 0 ∨ x < c.rttMin then x else c.rttMin
  if c.haveSrtt then
    let d : Int := x - c.srtt
    { c with srtt := ((c.srtt : Int) + d >>> 3).toNat, rttvar := ((c.rttvar : Int) + ((d.natAbs : Int) - c.rttvar) >>> 2).toNat,
             samples := keep, rttMin := m }
  else { c with haveSrtt := true, srtt := x, rttvar := x / 2, samples := keep, rttMin := m }

/-- Retransmits the retained packets `sel` picks, each under a new PSN (R277). A packet no port can carry stays. -/
def retransmit (s : State) (k r : Nat) (sel : Pkt → Bool) : State :=
  let c := connOf s (s.part k) r
  (c.retained.filter sel).foldl (fun s p =>
    let c := connOf s (s.part k) r
    let wasRound := c.roundPsn = some p.psn
    match sendData s k r { c with retained := c.retained.filter fun x => x.psn ≠ p.psn,
                                  roundPsn := if wasRound then none else c.roundPsn } { p with retx := true } with
    | some (s, c) => putConn s k r c
    | none => s) s

/-- The messages of a connection with nothing left unacknowledged are forgotten. -/
def settleMsgs (c : Conn) : Conn :=
  let open_ (n : BitVec 32) : Bool := (c.retained ++ c.waiting).any fun p => p.msn = n
  { c with msgs := c.msgs.filter fun m => open_ m.1, kept := c.kept.filter fun p => open_ p.msn }

/-- XFT_ACK on a connection. -/
def takeAck (s : State) (k : Nat) (h : XHdr) (p : Bytes) : State :=
  let r := h.src
  let b := leNat p
  let base := bitsOf b 191 160
  let map := bitsOf b 159 0
  let c := connOf s (s.part k) r
  let cov (x : Pkt) : Bool := ackCovers h.aux base map x.psn.toNat
  let got := c.retained.filter cov
  let echo := bitsOf b 223 192
  let marked := got.find? fun x => x.ts.toNat = echo
  let top := got.foldl (fun (m : Option Nat) x => match m with
    | none => some x.psn.toNat
    | some y => some (if seqLe y x.psn.toNat then x.psn.toNat else y)) none
  let ended := match c.roundPsn with | some n => ackCovers h.aux base map n.toNat | none => false
  let c := { c with retained := c.retained.filter (!cov ·), kept := c.kept ++ got, expiries := 0, acked := c.acked + bitsOf b 287 256,
                    ce := c.ce + bitsOf b 255 224,
                    skipEnt := if h.ece then (match marked with | some x => some x.ent | none => c.skipEnt) else c.skipEnt }
  let c := rttSample s.now.toNat ((s.now.toNat + 2 ^ 32 - echo) % 2 ^ 32) c
  let c := settleMsgs (if ended then endRound s.xft c else c)
  let s := putConn s k r c
  let s := match top with
    | none => s
    | some t => retransmit s k r fun x => seqLe (x.psn.toNat + 32) t
  pumpTo s k r

/-- XFT_ACK (R271). -/
def execXftAck (k : Fin 16) (s : State) : Host.Outcome State Fault Refusal :=
  outcome s <|
    if s.boot.clocksOff then s
    else match takeXft s k.val (· = 2) with
      | none => s
      | some (u, s) =>
        match openXft s k.val u with
        | .inl s => s
        | .inr (h, p) => takeAck s k.val h p

/-- Brings the acknowledged packets of a message back among the retained ones (R276). -/
def recallPkts (c : Conn) (msn : Nat) : Conn :=
  { c with retained := c.retained ++ c.kept.filter (fun p => p.msn.toNat = msn), kept := c.kept.filter fun p => p.msn.toNat ≠ msn }

/-- Whether a message belongs to a command of a queue that is being reset. -/
def isReset (s : State) (c : Conn) (msn : Nat) : Bool :=
  c.msgs.any fun m => m.1.toNat = msn && (s.queue m.2.1.toNat).st = .resetting

/-- A message's packets are freed (06 Table 06.11). -/
def freeMsg (c : Conn) (msn : Nat) : Conn :=
  { c with retained := c.retained.filter (fun p => p.msn.toNat ≠ msn), kept := c.kept.filter (fun p => p.msn.toNat ≠ msn),
           msgs := c.msgs.filter fun m => m.1.toNat ≠ msn }

/-- XFT_NACK (R276): the whole message is sent again from its retained copy, under the same MSN; that of a queue being reset is
freed (06 Table 06.11). -/
def execXftNack (k : Fin 16) (s : State) : Host.Outcome State Fault Refusal :=
  outcome s <|
    if s.boot.clocksOff then s
    else match takeXft s k.val (· = 3) with
      | none => s
      | some (u, s) =>
        match openXft s k.val u with
        | .inl s => s
        | .inr (h, _) =>
          let c := connOf s (s.part k.val) h.src
          if isReset s c h.aux then putConn s k.val h.src (freeMsg c h.aux)
          else retransmit (putConn s k.val h.src (recallPkts c h.aux)) k.val h.src fun x => x.msn.toNat = h.aux

/-! ### Timers (R276, R278, R279) -/

/-- The retransmission timer of a connection in AONCLK (R278). -/
def rtoOf (x : Xft) (c : Conn) : Nat :=
  let b := if c.haveSrtt then max (100 * x.rtoMin.toNat) (c.srtt + 4 * c.rttvar) else 100 * x.rtoInit.toNat
  min (100 * x.rtoMax.toNat) (b * 2 ^ c.expiries)

/-- RETRANSMISSION_TIMER (R277, R278, R280): what has been out for the timer's length, at least the oldest packet, is
sent again; the window halves. -/
def execRetransmissionTimer (k : Fin 16) (rank : BitVec 16) (s : State) : Host.Outcome State Fault Refusal :=
  outcome s <|
    let c := connOf s (s.part k.val) rank.toNat
    match c.retained with
    | [] => s
    | p :: _ =>
      if s.boot.clocksOff then s
      else
        let t := rtoOf s.xft c
        let old (x : Pkt) : Bool := x.psn = p.psn || t ≤ (s.now.toNat + 2 ^ 32 - x.ts.toNat) % 2 ^ 32
        retransmit (putConn s k.val rank.toNat { c with expiries := c.expiries + 1, cwnd := max (c.cwnd / 2) 8280 })
          k.val rank.toNat old

/-- PROBE_TIMER (R278). -/
def execProbeTimer (k : Fin 16) (rank : BitVec 16) (s : State) : Host.Outcome State Fault Refusal :=
  outcome s <|
    if s.boot.clocksOff ∨ (connOf s (s.part k.val) rank.toNat).retained = [] then s else sendPlain s k.val rank.toNat 4 0

/-- REASM_TO (R276): the record is freed and a NACK names its MSN. -/
def execReasmTo (k : Fin 16) (rank : BitVec 16) (msn : BitVec 32) (s : State) : Host.Outcome State Fault Refusal :=
  outcome s <|
    let hit (R : Reasm) : Bool := R.src = rank && R.msn = msn
    if s.boot.clocksOff ∨ !((s.part k.val).reasm.any hit) then s
    else
      sendPlain (countXfer (s.modPart k.val fun P => { P with reasm := P.reasm.filter (!hit ·) }) k.val xReasmTimeout)
        k.val rank.toNat 3 msn.toNat

/-- A rank does not answer: another coordinates in its place, and its substitution is asked for (12 R368, R381). -/
def unanswered (P : Part) (rank : BitVec 16) : Part :=
  askSub { P with silent := if P.silent.contains rank then P.silent else P.silent ++ [rank] } rank false

/-- DEAD_T (R279): the connection gives up; a Ripstop event names the peer rank. The event's class is not stated: 0x13 for
the buddy, 0x21 for another peer (DESIGN CHOICE, log 40). -/
def execDeadT (k : Fin 16) (rank : BitVec 16) (s : State) : Host.Outcome State Fault Refusal :=
  outcome s <|
    if s.boot.clocksOff ∨ (connOf s (s.part k.val) rank.toNat).retained = [] then s
    else
      ripEvent ((failMsgs s k.val rank.toNat).modPart k.val fun P => unanswered P rank)
          (if (s.part k.val).dict.buddy = rank then 0x13 else 0x21) (k.val + 1) 4 0 0
        rank.toNat

/-- SLOT_EMPTIED (R336): DEAD_T after the switch the slot that stopped being the send slot loses its key. -/
def execSlotEmptied (k : Fin 16) (slot : Fin 4) (s : State) : Host.Outcome State Fault Refusal :=
  outcome s <|
    let P := s.part k.val
    if s.boot.clocksOff ∨ !(tget ({} : XftSlot) P.xslots slot.val).leaving then s
    else s.putPart k.val { P with xslots := tdel P.xslots slot.val }

end Sys2Proof.Machine
end

