-- ==== Sys2Proof/Machine/Migration.lean ====
section
/-! DEFINITION. The migration engine (05 R129 to R148): near pools, page operations, eviction by age. -/

namespace Sys2Proof.Machine

open Sys2Proof

/-! ### Near pools and frames (R131 to R133, R150, R151) -/

/-- Slices of a partition on die d. -/
def dieSlices (P : Part) (d : Nat) : Nat := (slicesOf P).countP fun i => i / 4 = d

/-- Dies on which the partition holds slices, ascending. -/
def poolDies (P : Part) : List Nat := (List.range 4).filter fun d => 0 < dieSlices P d

/-- Frames of the near pool: 1,504 of each slice, less the securing reserve (R131, R132). -/
def poolFrames (P : Part) : Nat := 1504 * (slicesOf P).length - 32

/-- Frames of the near pool on die d, the window's share of them among them: its frames less its even share of the securing
reserve (R132, R151; DESIGN CHOICE, log 12). -/
def dieFrames (P : Part) (d : Nat) : Nat :=
  let n := (poolDies P).length
  if n = 0 then 0 else 1504 * dieSlices P d - (32 + n - 1) / n

/-- Frames of place d: local frames of a die (its frames less its even share of the securing reserve and of the window;
DESIGN CHOICE, log 12), or the interleaved window for place 4 (R151). -/
def placeFrames (P : Part) (d : Nat) : Nat :=
  if d = 4 then P.dict.iwinFrames.toNat
  else
    let n := (poolDies P).length
    if n = 0 then 0 else 1504 * dieSlices P d - (32 + P.dict.iwinFrames.toNat + n - 1) / n

/-- Pages that hold a frame of place d. -/
def framesUsed (P : Part) (d : Nat) : Nat := P.pages.countP fun e => e.2.frame = some d

/-- Pinned frames of place d (R147). -/
def pinnedAt (P : Part) (d : Nat) : Nat := P.pages.countP fun e => e.2.frame = some d ∧ e.2.pinned

/-- Whether one more pinned frame breaks R147's limit: 7/8 of the pool's frames on the die, or of the interleaved window. -/
def pinOver (P : Part) (d : Nat) : Bool :=
  8 * (pinnedAt P d + 1) > 7 * (if d = 4 then P.dict.iwinFrames.toNat else dieFrames P d)

/-- Near channels of the partition's slices on die d, ascending (R133). -/
def nearChannels (P : Part) (d : Nat) : List Nat :=
  ((slicesOf P).filter fun i => i / 4 = d).flatMap fun i => (List.range 8).map fun c => 8 * (i % 4) + c

/-- Die and near channel of byte a of a page whose frame is at place d: a local frame's 256 B lines rotate over the channels of
its die (R133); an interleaved frame's 4 KiB units rotate over the dies of the pool, the lines of each over the channels there
(R150). -/
def nearLoc (P : Part) (d a : Nat) : Nat × Nat :=
  let die := if d = 4 then (poolDies P).getD (a / 2 ^ 12 % 512 % (poolDies P).length) 0 else d
  let ch := nearChannels P die
  (die, ch.getD (a / 256 % 8192 % ch.length) 0)

/-- Die and near channel of byte a of the device reserve: R150 over four dies, every slice's channels. -/
def reserveLoc (a : Nat) : Nat × Nat := (a / 2 ^ 12 % 4, a / 256 % 32)

/-- Die and logical bank or channel on which a partition address lies now (R127, R128, R133, R150); far DRAM is die 4's. -/
def storeLoc (P : Part) (a : Nat) : Nat × Nat :=
  match place P a with
  | .sram sl o => (sl / 4, 32 * (sl % 4) + sramBank o)
  | .tensor a =>
    let g := pageRec P (recordOf P (pageNo a))
    if servedNear g (a / 2 ^ 16 % 32) then nearLoc P (g.frame.getD 4) a else (4, farChannel a)
  | _ => (7, 0)

/-- Whether a page has an accepted migration (R142). -/
def migrating (g : PageRec) : Bool := g.st ≠ .far && g.st ≠ .near

/-- The victim of place d: the evictable page with the smallest LAST, then SEQ (R146). -/
def victimOf (P : Part) (d : Nat) : Option Nat :=
  let es := P.pages.filter fun e => e.2.frame = some d && e.2.st = .near && !e.2.pinned
  match es with
  | [] => none
  | e :: r => some (r.foldl (fun a b =>
      if b.2.last < a.2.last ∨ (b.2.last = a.2.last ∧ b.2.seq < a.2.seq) then b else a) e).1

/-- Changes one page record. -/
def modPage (s : State) (k r : Nat) (f : PageRec → PageRec) : State :=
  s.modPart k fun P => { P with pages := tmod {} P.pages r f }

/-- Whether copy a is started before copy b: boost first, then acceptance (R144). -/
def copyBefore (a b : Nat × PageRec) : Bool := (a.2.boost && !b.2.boost) || (a.2.boost = b.2.boost && a.2.acc < b.2.acc)

/-- The first of the accepted copies still to start (R144). -/
def nextCopy (P : Part) : Option Nat :=
  match P.pages.filter fun e => migrating e.2 && !e.2.moving with
  | [] => none
  | e :: r => some (r.foldl (fun a b => if copyBefore b a then b else a) e).1

/-- Starts one accepted copy where fewer than 32 are in flight (R144). -/
def startCopy (s : State) (k : Nat) : State :=
  let P := s.part k
  if 32 ≤ P.pages.countP (fun e => e.2.moving) then s
  else match nextCopy P with
    | some r => modPage s k r fun g => { g with moving := true }
    | none => s

/-- Accepts a migration of a page: its state, and its place in the order of acceptance (R142, R144). -/
def acceptPage (s : State) (k r : Nat) (st : PageSt) (boost : Bool) (f : PageRec → PageRec) : State :=
  startCopy ((modPage s k r fun g =>
    { f g with st := st, cursor := 0, boost := boost, moving := false, acc := s.order + 1 }).setOrder (s.order + 1)) k

/-! ### The command (R139, R140, Table 05.5) -/

def mgBoost (c : Nat) : Bool := bitOf c 211
def mgDie (c : Nat) : Nat := fld c 209 207
def mgOp (c : Nat) : Nat := fld c 206 203
def mgPages (c : Nat) : Nat := fld c 199 176
def mgAddr (c : Nat) : Nat := fld c 175 128

/-- Operation a started command asks for: an UPDATE or SLOTOPEN with IWIN promotes (R138). -/
def pageOp (c : Nat) : Nat := if hdrClass c = 3 then mgOp c else 1

/-- Validation (R129, R140): status and faulting address. Table 06.3 gives MIGRATE to the transfer class alone, so DIE
0b101 is never allowed (log 31). -/
def mgValidate (P : Part) (c : Nat) : BitVec 8 × Nat :=
  let a := mgAddr c
  let d := mgDie c
  if !bodyClear c [(211, 211), (210, 210), (209, 207), (206, 203), (199, 176), (175, 128)]
      ∨ mgOp c = 0 ∨ 6 < mgOp c ∨ mgPages c = 0 ∨ a % 2 ^ 21 ≠ 0 ∨ d = 5 ∨ d = 6 ∨ (d = 7 ∧ mgOp c ≠ 5)
      ∨ (d < 4 ∧ dieSlices P d = 0) then (stINVALID, 0)
  else match place P a with
    | .sram _ _ | .tile _ _ => (stINVALID, 0)
    | _ => if tensorSize P < a + 2 ^ 21 * mgPages c then (stADDRESS, max a (tensorSize P)) else (stOK, 0)

/-- Place a promotion goes to (Table 05.5, R151). -/
def placeOf (P : Part) (c : Nat) (g : PageRec) : Nat :=
  if hdrClass c ≠ 3 then 4
  else if mgDie c < 4 then mgDie c
  else g.affinity.getD (targetSlice P c / 4)

/-- Affinity that an AFFINITY command records: none clears it (Table 05.5). -/
def affinityOf (P : Part) (c : Nat) (g : PageRec) : Option Nat :=
  if mgDie c = 7 then none else some (placeOf P c g)

/-! ### Accepting requests page by page (R141, R142, R146, R147) -/

/-- Evaluation of one page request. -/
inductive PageAcc where
  | wait
  | victim (v : Nat) (s : State)
  | busy (s : State) (pinned : Bool)
  | done (s : State) (pinned : Bool)
  | limit

/-- Assigns a free frame of place d and starts the promotion, or picks a victim for it (R141, R146). -/
def acceptPromote (s : State) (k r d : Nat) (boost pin : Bool) (victim : Option Nat) : PageAcc :=
  let P := s.part k
  if framesUsed P d < placeFrames P d then
    let s := acceptPage s k r .promoting boost fun g =>
      { g with pinned := pin, frame := some d, last := P.age, seq := P.promoSeq + 1, dirty := 0 }
    .busy (s.modPart k fun P => { P with promoSeq := P.promoSeq + 1 }) pin
  else if victim.any fun v => (pageRec P v).st = .evicting then .wait
  else
    match victimOf P d with
    | some v => .victim v (acceptPage s k v .evicting boost id)
    | none => .wait

/-- Evaluates the request of command c for page pg against the page's state (Table 05.6). -/
def evalPage (s : State) (k c pg : Nat) (victim : Option Nat) : PageAcc :=
  let P := s.part k
  let r := recordOf P pg
  let g := pageRec P r
  if migrating g then .wait
  else
    let near : Bool := g.st = .near
    match pageOp c with
    | 1 =>
      if near then .done (modPage s k r fun g => { g with last := P.age }) false
      else acceptPromote s k r (placeOf P c g) (mgBoost c && hdrClass c = 3) false victim
    | 2 =>
      if near then .busy (acceptPage s k r .evicting (mgBoost c) fun g => { g with pinned := false }) false
      else .done s false
    | 3 =>
      if near then
        if g.pinned then .done (modPage s k r fun g => { g with last := P.age }) false
        else if pinOver P (g.frame.getD 0) then .limit
        else .done (modPage s k r fun g => { g with pinned := true, last := P.age }) true
      else if pinOver P (placeOf P c g) then .limit
      else acceptPromote s k r (placeOf P c g) (mgBoost c) true victim
    | 4 => .done (if near then modPage s k r fun g => { g with pinned := false } else s) false
    | 5 => .done (modPage s k r fun g => { g with affinity := affinityOf P c g }) false
    | 6 => if near then .busy (acceptPage s k r .cleaning (mgBoost c) id) false else .done s false
    | _ => .done s false

/-- Drops complete pages from the front, signalling each with PAGE_SIG; a command with no page left has ended, or goes on
to the sweep it promoted for (R143). -/
def flushPages (s : State) (k q : Nat) (idx : BitVec 24) (c : Nat) (todo : List Nat) (victim : Option Nat) (pins : List Nat) :
    List (Nat × Bool) → State
  | (_, true) :: r =>
    flushPages (if pageSig c && hdrCplEn c then addCtr s k (hdrCplCtr c) 1 else s) k q idx c todo victim pins r
  | busy =>
    modStarted s q idx fun x =>
      { x with work :=
          if busy.isEmpty && todo.isEmpty then (if hdrClass c = 3 then .done else .iwin) else .pages todo busy victim pins }

/-- Accepts pages of one started command in order until one must wait. -/
def pumpCmd (s : State) (k q : Nat) (idx : BitVec 24) (c : Nat) (busy : List (Nat × Bool)) (victim : Option Nat)
    (pins : List Nat) : List Nat → State
  | [] => flushPages s k q idx c [] none pins busy
  | pg :: todo =>
    let r := recordOf (s.part k) pg
    match evalPage s k c pg victim with
    | .wait => flushPages s k q idx c (pg :: todo) victim pins busy
    | .victim v s => flushPages s k q idx c (pg :: todo) (some v) pins busy
    | .busy s p => pumpCmd s k q idx c (busy ++ [(r, false)]) none (if p then pins ++ [r] else pins) todo
    | .done s p => pumpCmd s k q idx c (busy ++ [(r, true)]) none (if p then pins ++ [r] else pins) todo
    | .limit =>
      let s := pins.foldl (fun s r => modPage s k r fun g => { g with pinned := false }) s
      flushPages (modStarted s q idx fun x => { x with status := stLIMIT }) k q idx c [] none [] busy

/-- Requests of a partition that wait: the first command with a page left of each queue (R142). -/
def pageReqs (s : State) (k : Nat) : List (Nat × Started) :=
  (queuesOf s k).filterMap fun q =>
    ((s.queue q).started.find? fun r => match r.work with | .pages (_ :: _) _ _ _ => true | _ => false).map fun r => (q, r)

/-- Inserts by order of arrival. -/
def insArrived (x : Nat × Started) : List (Nat × Started) → List (Nat × Started)
  | [] => [x]
  | y :: r => if x.2.arrived < y.2.arrived then x :: y :: r else y :: insArrived x r

/-- The waiting requests, oldest arrival first (R142). -/
def pageReqsInOrder (s : State) (k : Nat) : List (Nat × Started) := (pageReqs s k).foldr insArrived []

/-- Place a request's first page needs a frame of, and its record. -/
def headNeed (s : State) (k : Nat) (r : Started) : Option (Nat × Option Nat) :=
  match r.work with
  | .pages (pg :: _) _ _ _ =>
    let P := s.part k
    let rec' := recordOf P pg
    let g := pageRec P rec'
    let op := pageOp r.cmd.toNat
    some (rec', if (op = 1 ∨ op = 3) ∧ g.st = .far then some (placeOf P r.cmd.toNat g) else none)
  | _ => none

/-- Whether an older request waits for the same page or for a frame of the same place (R142). -/
def blockedByOlder (s : State) (k : Nat) (older : List (Nat × Started)) (r : Started) : Bool :=
  match headNeed s k r with
  | none => false
  | some (p, d) => older.any fun o =>
      match headNeed s k o.2 with
      | none => false
      | some (p', d') => p = p' || (d.isSome && d = d')

/-- Whether a waiting request makes progress now. -/
def canAccept (s : State) (k : Nat) (r : Started) : Bool :=
  match r.work with
  | .pages (pg :: _) _ v _ => match evalPage s k r.cmd.toNat pg v with | .wait => false | _ => true
  | _ => false

/-- Runs the acceptance of one started command. -/
def pumpStarted (s : State) (k q : Nat) (r : Started) : State :=
  match r.work with
  | .pages todo busy v pins => pumpCmd s k q r.idx r.cmd.toNat busy v pins todo
  | _ => s

/-- The first waiting request, in order of arrival, that can go on and that no older one blocks. -/
def firstReady (s : State) (k : Nat) : List (Nat × Started) → List (Nat × Started) → Option (Nat × Started)
  | _, [] => none
  | older, x :: r => if canAccept s k x.2 && !blockedByOlder s k older x.2 then some x else firstReady s k (older ++ [x]) r

/-- PAGE_REQUEST_ACCEPT (R142): the oldest request that can go on is accepted and evaluated; in its command's order, the
pages behind it too. -/
def execPageRequestAccept (k : Fin 16) (s : State) : Host.Outcome State Fault Refusal :=
  outcome s <|
    if s.boot.clocksOff then s
    else match firstReady s k.val [] (pageReqsInOrder s k.val) with
      | some (q, r) => pumpStarted s k.val q r
      | none => s

/-- Gives a started command its pages to move, in ascending order, and accepts what can be accepted at once (R142). -/
def startPages (s : State) (k q : Nat) (idx : BitVec 24) : State :=
  let reqs := pageReqsInOrder s k
  match reqs.find? fun x => x.1 = q with
  | some (_, r) => if r.idx = idx && !blockedByOlder s k (reqs.filter fun x => x.2.arrived < r.arrived) r then pumpStarted s k q r else s
  | none => s

/-- A started command with pages to move, its place in the order of arrival taken. -/
def withPages (s : State) (pages : List Nat) : State × Started :=
  (s.setOrder (s.order + 1), { work := .pages pages [] none [], arrived := s.order + 1 })

/-- Accepts the pages of a command that has just started with pages to move. -/
def movePages (q : Nat) (s : State) (k : Nat) (r : Started) : State :=
  match r.work with
  | .pages _ _ _ _ => startPages s k q r.idx
  | _ => s

/-- Whether a migration row of operation op names this command; a reserved OP, which no row names, is PROMOTE's (R140). -/
def isMigrate (op c : Nat) : Bool := isKind 3 0x10 c && (mgOp c = op || (op = 1 && (mgOp c = 0 || 6 < mgOp c)))

/-- A migration command of operation op (R139 to R143). -/
def runMigrate (q : Qid) (op : Nat) (s : State) : State :=
  startThen s q.toNat (fun _ _ c => isMigrate op c) (fun s k c =>
    let v := mgValidate (s.part k) c
    if v.1 ≠ stOK then (s, failed v.1 4 v.2)
    else withPages s ((List.range (mgPages c)).map fun i => pageNo (mgAddr c) + i)) (movePages q.toNat)

/-- PROMOTE (R141); a reserved OP, which no other row names, is refused here too (R140). -/
def execPromote (q : Qid) (s : State) : Host.Outcome State Fault Refusal := outcome s (runMigrate q 1 s)
/-- DEMOTE (R141). -/
def execDemote (q : Qid) (s : State) : Host.Outcome State Fault Refusal := outcome s (runMigrate q 2 s)
/-- PIN (R141, R147). -/
def execPin (q : Qid) (s : State) : Host.Outcome State Fault Refusal := outcome s (runMigrate q 3 s)
/-- UNPIN (R141). -/
def execUnpin (q : Qid) (s : State) : Host.Outcome State Fault Refusal := outcome s (runMigrate q 4 s)
/-- AFFINITY (R141). -/
def execAffinity (q : Qid) (s : State) : Host.Outcome State Fault Refusal := outcome s (runMigrate q 5 s)
/-- CLEAN (R141). -/
def execClean (q : Qid) (s : State) : Host.Outcome State Fault Refusal := outcome s (runMigrate q 6 s)

/-! ### Copies (R135, R136, R144) -/

/-- Whether the page's copy is in flight (R144). -/
def inFlight (P : Part) (r : Nat) : Bool := migrating (pageRec P r) && (pageRec P r).moving

/-- Moves one sector of a migrating page and steps its walk (R135, R136). -/
def copySector (s : State) (k r : Nat) : State :=
  let g := pageRec (s.part k) r
  if 32 ≤ g.cursor then s
  else
    let a := 2 ^ 21 * r + 2 ^ 16 * g.cursor
    let s :=
      if g.st = .promoting then s.setMem (memCopy s.mem (farKey k a) (nearKey k a) (2 ^ 16))
      else if g.dirty.getLsbD g.cursor then s.setMem (memCopy s.mem (nearKey k a) (farKey k a) (2 ^ 16))
      else s
    modPage s k r fun g =>
      { g with cursor := g.cursor + 1, dirty := if g.st = .promoting then g.dirty else g.dirty &&& ~~~(1#32 <<< g.cursor) }

/-- Moves the sectors still ahead of the walk. -/
def copyRest (s : State) (k r : Nat) : State := (List.range 32).foldl (fun s _ => copySector s k r) s

/-- A page's migration has completed: it is marked in the command that asked for it, and the next copy starts (R143, R144). -/
def pageDone (s : State) (k r : Nat) : State :=
  (queuesOf (startCopy s k) k).foldl (fun s q =>
    match (s.queue q).started.find? fun x => match x.work with | .pages _ busy _ _ => busy.any (fun b => b.1 = r && !b.2) | _ => false with
    | some x =>
      match x.work with
      | .pages todo busy v pins =>
        flushPages s k q x.idx x.cmd.toNat todo v pins (busy.map fun b => if b.1 = r then (r, true) else b)
      | _ => s
    | none => s) (startCopy s k)

/-- Whether every earlier page of the page's command is complete (R143). -/
def nextToComplete (s : State) (k r : Nat) : Bool :=
  (queuesOf s k).all fun q => (s.queue q).started.all fun x =>
    match x.work with
    | .pages _ (b :: busy) _ _ => b.1 = r || !(busy.any fun b => b.1 = r && !b.2)
    | _ => true

/-- PROMOTION_COMPLETES (R135): the page's last sector is copied and it is NEAR. -/
def execPromotionCompletes (k : Fin 16) (page : BitVec 27) (s : State) : Host.Outcome State Fault Refusal :=
  outcome s <|
    let r := page.toNat
    if s.boot.clocksOff ∨ (pageRec (s.part k.val) r).st ≠ .promoting ∨ !inFlight (s.part k.val) r ∨ !nextToComplete s k.val r then s
    else pageDone (modPage (copyRest s k.val r) k.val r fun g => { g with st := .near, cursor := 0, boost := false, moving := false }) k.val r

/-- WRITE_BACK_COMPLETES (R136): the walk ends; CLEANING becomes NEAR, EVICTING frees its frame and becomes FAR. -/
def execWriteBackCompletes (k : Fin 16) (page : BitVec 27) (s : State) : Host.Outcome State Fault Refusal :=
  outcome s <|
    let r := page.toNat
    let g := pageRec (s.part k.val) r
    if s.boot.clocksOff ∨ ¬(g.st = .cleaning ∨ g.st = .evicting) ∨ !inFlight (s.part k.val) r ∨ !nextToComplete s k.val r then s
    else
      pageDone (modPage (copyRest s k.val r) k.val r fun g =>
        if g.st = .evicting then { affinity := g.affinity } else { g with st := .near, cursor := 0, boost := false, moving := false }) k.val r

/-! ### Late operands (R148) -/

/-- Queue q is a compute queue whose WAIT for counter c is not met (R148). -/
def waitsOn (s : State) (k q c : Nat) : Bool :=
  let Q := s.queue q
  Q.cls.toNat ≤ 2 && (match Q.front with
    | some w => let w := w.toNat; hdrKind w = 0 && fld w 141 128 = c && mayStart Q w && !waitMet s k w
    | none => false)

/-- Whether a migration command's request is late (R148). -/
def isLate (s : State) (k c : Nat) : Bool :=
  hdrCplEn c && isKind 3 0x10 c && (queuesOf s k).any fun q => waitsOn s k q (hdrCplCtr c)

/-- Migration commands accepted and not complete. -/
def migrations (s : State) (k : Nat) : List Started :=
  (queuesOf s k).flatMap fun q => (s.queue q).started.filter fun r =>
    match r.work with | .pages _ _ _ _ => isKind 3 0x10 r.cmd.toNat | _ => false

/-- Migration commands queued and not started: in a ring in device memory, or read and held at HEAD. -/
def postedMigrations (s : State) (k : Nat) : List Started :=
  ((queuesOf s k).filter fun q => (s.queue q).cls.toNat = 3).flatMap fun q => unstarted s k q

/-- MCLKs of a slice in one AONCLK, 10 ns, in quarters: Table 13.2, halved while a droop stretches it (13 R396). -/
def mclkQuarters (x : Slice) : Nat :=
  [90, 80, 72, 60, 48, 36, 24, 0].getD x.op.toNat 0 / (if x.droop then 2 else 1)

/-- Raises the pages of late migration commands to boost priority, and counts OPERAND_LATE: one for each MCLK of the waiting
queue's target slice, for every queue that waits (R148; log 6). -/
def lateStep (s : State) (k : Nat) : State :=
  let late := (migrations s k).filter fun r => isLate s k r.cmd.toNat
  let all := late ++ (postedMigrations s k).filter fun r => isLate s k r.cmd.toNat
  if all.isEmpty then s
  else
    let rs := late.flatMap fun r => match r.work with | .pages _ busy _ _ => (busy.filter fun b => !b.2).map Prod.fst | _ => []
    let waiting := (queuesOf s k).filter fun q => all.any fun r => waitsOn s k q (hdrCplCtr r.cmd.toNat)
    let n := waiting.foldl (fun n q => n + (match (s.queue q).front with
      | some w => mclkQuarters (s.slice (targetSlice (s.part k) w.toNat))
      | none => 0)) (s.part k).health.lateRest
    let s := rs.foldl (fun s r => modPage s k r fun g => if migrating g then { g with boost := true } else g) s
    modHealth s k fun h => { h with operandLate := satAdd 64 h.operandLate (n / 4), lateRest := n % 4 }

/-- One sector of every copy in flight of a partition (R144). -/
def copyStep (s : State) (k : Nat) : State :=
  let P := s.part k
  ((P.pages.map Prod.fst).filter (inFlight P)).foldl (fun s r => copySector s k r) s

end Sys2Proof.Machine
end

