-- ==== Sys2Proof/Machine/VFunc.lean ====
section
/-! DEFINITION. The five fixed-point functions of the vector cores (04 R108, Table 04.6), correctly rounded, and the
counter-based generator XCG (04 R120). -/

namespace Sys2Proof.Machine

open Sys2Proof

/-! ### Exact rounding -/

/-- n / d rounded to nearest, ties to even (R40). -/
def rneDiv (n d : Nat) : Nat :=
  let t := n / d
  let r := n % d
  if 2 * r > d ∨ (2 * r = d ∧ t % 2 = 1) then t + 1 else t

/-- Bits b - 1 to 0 of the integer square root, the higher ones being those of acc. -/
def isqrtBits (n : Nat) : Nat → Nat → Nat
  | 0, acc => acc
  | b + 1, acc => isqrtBits n b (if (acc + 2 ^ b) ^ 2 ≤ n then acc + 2 ^ b else acc)

/-- Integer square root (floor). -/
def isqrt (n : Nat) : Nat := isqrtBits n (n.log2 / 2 + 1) 0

/-- Square root of n / d rounded to nearest, ties to even (R40). -/
def rneSqrt (n d : Nat) : Nat :=
  let t := isqrt (n / d)
  if 4 * n > d * (2 * t + 1) ^ 2 ∨ (4 * n = d * (2 * t + 1) ^ 2 ∧ t % 2 = 1) then t + 1 else t

/-- Working precision of the transcendental functions, in bits (log 28: enough that rounding is decided). -/
def fnPrec : Nat := 192

/-- Product of the roots 2^(2^-1), 2^(2^-2), … picked by the bits of `r` from bit `b - 1` down, in units of 2^-fnPrec. -/
def exp2Frac (r : Nat) : Nat → Nat → Nat → Nat
  | 0, _, acc => acc
  | b + 1, root, acc =>
    let root := isqrt (root * 2 ^ fnPrec)
    exp2Frac r b root (if r.testBit b then acc * root / 2 ^ fnPrec else acc)

/-- 2^(r / 2^b) for r < 2^b, in units of 2^-fnPrec. -/
def pow2Frac (r b : Nat) : Nat := exp2Frac r b (2 ^ (fnPrec + 1)) (2 ^ fnPrec)

/-- Fraction bits of log2 m, m in [1, 2) in units of 2^-fnPrec: squares and compares (n bits). -/
def log2Bits : Nat → Nat → Nat → Nat
  | 0, _, acc => acc
  | n + 1, m, acc =>
    let m := m * m / 2 ^ fnPrec
    if 2 ^ (fnPrec + 1) ≤ m then log2Bits n (m / 2) (2 * acc + 1) else log2Bits n m (2 * acc)

/-- Result of a function on one element: the unsaturated value, none for a domain error, and a divide-by-zero event. -/
structure FnOut where
  val : Option Int := none
  div0 : Nat := 0
  deriving DecidableEq, Repr, Inhabited

/-- EXP2: 2^(x / 2^fin) * 2^fout (R108). A magnitude past 2^33 is cut to 2^33, which saturates alike. -/
def fnExp2 (x : Int) (fin fout : Nat) : FnOut :=
  let n := x.fdiv (2 ^ fin)
  let r := (x.fmod (2 ^ fin)).toNat
  let e := n + fout
  if e > 33 then { val := some (2 ^ 33) }
  else if e < -1 then { val := some 0 }
  else { val := some (rneDiv (pow2Frac r fin * 2 ^ (e + 1).toNat) (2 ^ (fnPrec + 1)) : Nat) }

/-- LOG2: log2(x / 2^fin) * 2^fout (R108, Table 04.6). -/
def fnLog2 (x : Int) (fin fout : Nat) : FnOut :=
  if x < 0 then {}
  else if x = 0 then { val := some (-(2 ^ 31)), div0 := 1 }
  else
    let m := x.toNat
    let k := m.log2
    let i : Int := (k : Int) - fin
    if m = 2 ^ k then { val := some (i * 2 ^ fout) }
    else
      let f := log2Bits (fout + 64) (m * 2 ^ (fnPrec - k)) 0
      { val := some ((i * 2 ^ (fout + 64) + f + 2 ^ 63).fdiv (2 ^ 64)) }

/-- RCP: 2^fout / (x / 2^fin) (R108, Table 04.6). -/
def fnRcp (x : Int) (fin fout : Nat) : FnOut :=
  if x = 0 then { val := some (2 ^ 31 - 1), div0 := 1 }
  else { val := some (signed (decide (x < 0)) (rneDiv (2 ^ (fin + fout)) x.natAbs)) }

/-- RSQRT: 2^fout / sqrt(x / 2^fin) (R108, Table 04.6). -/
def fnRsqrt (x : Int) (fin fout : Nat) : FnOut :=
  if x < 0 then {}
  else if x = 0 then { val := some (2 ^ 31 - 1), div0 := 1 }
  else { val := some (rneSqrt (2 ^ (2 * fout + fin)) x.toNat : Nat) }

/-- LOGISTIC: 2^fout / (1 + 2^-(x / 2^fin)) (R108). Beyond fout + 2 in magnitude the result is 2^fout or 0. -/
def fnLogistic (x : Int) (fin fout : Nat) : FnOut :=
  let a := x.natAbs
  let n := a / 2 ^ fin
  if n ≥ fout + 2 then { val := some (if x < 0 then 0 else 2 ^ fout) }
  else
    let p := pow2Frac (a % 2 ^ fin) fin * 2 ^ n
    let d := p + 2 ^ fnPrec
    { val := some (rneDiv ((if x < 0 then 2 ^ fnPrec else p) * 2 ^ fout) d : Nat) }

/-! ### XCG (R120) -/

/-- add32 (R120). -/
def add32 (a b : Nat) : Nat := (a + b) % 2 ^ 32

/-- rotl32 (R120). -/
def rotl32 (x r : Nat) : Nat := (x <<< r) % 2 ^ 32 ||| x >>> (32 - r)

/-- The state of XCG: four words. -/
structure X4 where
  a : Nat
  b : Nat
  c : Nat
  d : Nat
  deriving DecidableEq, Repr, Inhabited

/-- The four words plus four key words from index j on, modulo 5 (R120). -/
def xcgKey (k : List Nat) (j : Nat) (x : X4) : X4 :=
  ⟨add32 x.a (k.getD (j % 5) 0), add32 x.b (k.getD ((j + 1) % 5) 0), add32 x.c (k.getD ((j + 2) % 5) 0),
   add32 x.d (k.getD ((j + 3) % 5) 0)⟩

/-- One round of XCG (R120). -/
def xcgRound (k : List Nat) (x : X4) (r : Nat) : X4 :=
  let a := add32 x.a x.b
  let b := rotl32 x.b ([13, 7, 29, 17].getD (r % 4) 0) ^^^ a
  let c := add32 x.c x.d
  let d := rotl32 x.d ([19, 25, 11, 3].getD (r % 4) 0) ^^^ c
  let y : X4 := ⟨a, d, c, b⟩
  if r % 4 = 3 then
    let s := r / 4 + 1
    let z := xcgKey k s y
    { z with d := add32 z.d s }
  else y

/-- xcg (R120): key and counter as four words each, the draw as one number of 128 bit. -/
def xcg (k : List Nat) (c : X4) : Nat :=
  let k := k ++ [k.foldl (fun a b => a ^^^ b) 0x6A3D95C1]
  let x := (List.range 8).foldl (xcgRound k) (xcgKey k 0 c)
  x.a + x.b * 2 ^ 32 + x.c * 2 ^ 64 + x.d * 2 ^ 96

end Sys2Proof.Machine
end

