-- ==== Sys2Proof/Machine/Update.lean ====
section
/-! DEFINITION. The update engine (07 R192 to R204): its arithmetic, micro-operations, recipes and UPDATE commands. -/

namespace Sys2Proof.Machine

open Sys2Proof

/-! ### Arithmetic of the update machine (07, before R196) -/

/-- xadd. -/
def xadd (a b : Int × Int) : Int × Int :=
  let q := min a.2 b.2
  (a.1 * 2 ^ (a.2 - q).toNat + b.1 * 2 ^ (b.2 - q).toNat, q)

/-- fit: at most 62 significant bits, rounded by R40. -/
def fitQ (n q : Int) : Int × Int :=
  let a := n.natAbs
  if a < 2 ^ 62 then (n, q)
  else
    let d := bitlen a - 62
    let b := rneShift a d
    if b = 2 ^ 62 then (signed (decide (n < 0)) (2 ^ 61), q + d + 1) else (signed (decide (n < 0)) b, q + d)

/-- fit of a pair. -/
def fitP (a : Int × Int) : Int × Int := fitQ a.1 a.2

/-- s * ((|a| << 64) div |b|) at qa - qb - 64 (DIV of Table 07.7). -/
def divQ (a b : Int × Int) : Int × Int :=
  fitQ (signed (decide (a.1 < 0 ↔ ¬b.1 < 0) && decide (a.1 ≠ 0)) (a.1.natAbs * 2 ^ 64 / b.1.natAbs)) (a.2 - b.2 - 64)

/-- SQRT of Table 07.7. -/
def sqrtQ (a : Int × Int) : Int × Int :=
  if a.1 ≤ 0 then (0, 0)
  else
    let te := if a.2 % 2 = 0 then (a.1.toNat, a.2) else (2 * a.1.toNat, a.2 - 1)
    fitQ (isqrt (te.1 * 2 ^ 64)) ((te.2 - 64).fdiv 2)

/-- A micro-operation: OP, D, A, B, H (Table 07.6). -/
structure MOp where
  op : Nat
  d : Nat := 0
  a : Nat := 0
  b : Nat := 0
  h : Nat := 0
  deriving DecidableEq, Repr, Inhabited

/-- A micro-operation from its word (Table 07.6). -/
def mopOf (w : Nat) : MOp := ⟨bitsOf w 31 27, bitsOf w 26 24, bitsOf w 23 21, bitsOf w 20 18, bitsOf w 17 15⟩

/-- Result of an operation from its sources and its hyperparameter (Table 07.7), and a divide-by-zero event. -/
def microResult (op : Nat) (xa xb h : Int × Int) : (Int × Int) × Nat :=
  match op with
  | 0x01 => (xa, 0)
  | 0x02 => (fitP (xadd xa xb), 0)
  | 0x03 => (fitP (xadd xa (-xb.1, xb.2)), 0)
  | 0x04 => (fitQ (xa.1 * xb.1) (xa.2 + xb.2), 0)
  | 0x05 => (fitQ (xa.1 * h.1) (xa.2 + h.2), 0)
  | 0x06 => (fitP (xadd xa h), 0)
  | 0x07 => if xb.1 = 0 then ((0, 0), 1) else (divQ xa xb, 0)
  | 0x08 => (sqrtQ xa, 0)
  | 0x09 => ((if xa.1 > 0 then 1 else if xa.1 < 0 then -1 else 0, 0), 0)
  | 0x0A => ((-xa.1, xa.2), 0)
  | _ => (if (xadd xa (-xb.1, xb.2)).1 ≥ 0 then xa else xb, 0)

/-- One element: its registers x0 to x7, and whether it is NaN (R196, R199). -/
structure UEl where
  x : List (Int × Int) := []
  nan : Bool := false
  deriving DecidableEq, Repr, Inhabited

/-- Whether an exponent stays in R199's range. -/
def qOk (q : Int) : Bool := -16384 ≤ q ∧ q ≤ 16383

/-- One operation on one element; a NaN element computes nothing (R199). -/
def microEl (hp : List (Int × Int)) (m : MOp) (e : UEl) : UEl × Nat :=
  if e.nan then (e, 0)
  else
    let r := microResult m.op (e.x.getD m.a (0, 0)) (e.x.getD m.b (0, 0)) (hp.getD m.h (0, 0))
    ({ x := e.x.set m.d r.1, nan := !qOk r.1.2 }, r.2)

/-- One operation on every element of a group. -/
def microGroup (hp : List (Int × Int)) (m : MOp) (es : List UEl) : List UEl × Nat :=
  let rs := es.map (microEl hp m)
  (rs.map Prod.fst, rs.foldl (fun n r => n + r.2) 0)

/-- A run of operations on a group. -/
def microRun (hp : List (Int × Int)) (ms : List MOp) (es : List UEl) : List UEl × Nat :=
  ms.foldl (fun a m => let r := microGroup hp m a.1; (r.1, a.2 + r.2)) (es, 0)

/-! ### Built-in recipes (R200) -/

def opMulh (d a h : Nat) : MOp := { op := 0x05, d := d, a := a, h := h }
def opAdd (d a b : Nat) : MOp := { op := 0x02, d := d, a := a, b := b }
def opSub (d a b : Nat) : MOp := { op := 0x03, d := d, a := a, b := b }
def opEnc : MOp := { op := 0x0C }
def opEnd : MOp := { op := 0x00 }

def recipeSgd : List MOp :=
  [opMulh 2 2 0, opAdd 2 2 1, opEnc, opMulh 7 2 2, opMulh 5 0 4, opAdd 0 0 7, opAdd 0 0 5, opEnd]

/-- The lines AdamW and the factored recipe share after ENC. -/
def adamTail : List MOp :=
  [opEnc, { op := 0x08, d := 6, a := 3 }, { op := 0x06, d := 6, a := 6, h := 3 }, { op := 0x07, d := 7, a := 2, b := 6 },
   opMulh 7 7 2, opMulh 5 0 4, opAdd 0 0 7, opAdd 0 0 5, opEnd]

def recipeAdamw : List MOp :=
  [opSub 4 2 1, opMulh 4 4 0, opAdd 2 1 4, { op := 0x04, d := 5, a := 1, b := 1 }, opSub 6 3 5, opMulh 6 6 1, opAdd 3 5 6]
    ++ adamTail

def recipeLion : List MOp :=
  [opSub 4 2 1, opMulh 4 4 0, opAdd 4 1 4, opSub 5 2 1, opMulh 5 5 1, opAdd 2 1 5, opEnc,
   { op := 0x09, d := 4, a := 4 }, opMulh 4 4 2, opMulh 5 0 4, opAdd 0 0 4, opAdd 0 0 5, opEnd]

def recipeFactored : List MOp := [opSub 4 2 1, opMulh 4 4 0, opAdd 2 1 4] ++ adamTail

/-- Program of a RECIPE that is not custom (R200). -/
def recipeOf : Nat → List MOp
  | 0 => recipeSgd
  | 1 => recipeAdamw
  | 2 => recipeLion
  | 3 => recipeFactored
  | _ => [opEnd]

/-- MOMS a built-in recipe needs (Table 07.8). -/
def recipeMoms : Nat → Nat
  | 0 | 2 | 3 => 1
  | 1 => 2
  | _ => 0

/-! ### Fields (Tables 07.3, 07.4) -/

def uGscale (c : Nat) : Nat := fld c 315 284
def uGexp (c : Nat) : Int := sext 8 (fld c 283 276)
def uSccw (c : Nat) : Nat := fld c 275 260
def uWccw (c : Nat) : Nat := fld c 259 244
def uSfmt (c : Nat) : Nat := fld c 243 239
def uWfmt (c : Nat) : Nat := fld c 238 234
def uServe (c : Nat) : Bool := bitOf c 233
def uIwin (c : Nat) : Bool := bitOf c 232
def uRecipe (c : Nat) : Nat := fld c 231 228
def uMoms (c : Nat) : Nat := fld c 227 226
def uRows (c : Nat) : Nat := fld c 223 200
def uCols (c : Nat) : Nat := fld c 199 176
def uDesc (c : Nat) : Nat := fld c 175 128
/-- Exponent of every gradient register x1: GEXP - SH (R196). -/
def uEg (c : Nat) : Int := uGexp c - (fld (uGscale c) 21 16 : Nat)

/-- Address i of the update descriptor, in units of 8 B from its start (Table 07.4). -/
def uAddr (d i : Nat) : Nat := fld d (64 * i + 47) (64 * i)
def uMaster : Nat := 0
def uMasterSc : Nat := 1
def uM1 : Nat := 2
def uM1Sc : Nat := 3
def uM2 : Nat := 4
def uM2Sc : Nat := 5
def uCf : Nat := 6
def uCfSc : Nat := 7
def uCs : Nat := 8
def uGrad : Nat := 9
def uWork : Nat := 10
def uWorkSc : Nat := 11
def uServeA : Nat := 12
def uServeSc : Nat := 13
def uHp : Nat := 14
def uMicro : Nat := 15

/-! ### Validation (R194) -/

/-- The pipe that runs a command of the target slice: its own, else the lowest other of the partition with one present, a
slice of the same die first (R355). -/
def pipeOf (s : State) (P : Part) (c : Nat) : Option Nat :=
  let sl := targetSlice P c
  if pipePresent s sl then some sl
  else
    let others := (slicesOf P).filter fun i => i ≠ sl && pipePresent s i
    match others.find? fun i => i / 4 = sl / 4 with
    | some i => some i
    | none => others.head?

/-- The back-range address of a front address (R193). -/
def backOf (P : Part) (a : Nat) : Nat :=
  match P.regions.find? fun e => e.2.kind = .pair ∧ e.2.front.toNat ≤ a ∧ a < e.2.front.toNat + 2 ^ 21 * e.2.npages with
  | some (_, r) => a - r.front.toNat + r.back.toNat
  | none => a

/-- Whether n bytes from a lie in the front range of one pair (R194). -/
def inFront (P : Part) (a n : Nat) : Bool :=
  n = 0 || P.regions.any fun e => e.2.kind = .pair ∧ e.2.front.toNat ≤ a ∧ a + n ≤ e.2.front.toNat + 2 ^ 21 * e.2.npages

/-- Whether n bytes from a touch either range of a pair (R194). -/
def hitsPair (P : Part) (a n : Nat) : Bool :=
  P.regions.any fun e => e.2.kind = .pair ∧ n ≠ 0 ∧
    ((a < e.2.front.toNat + 2 ^ 21 * e.2.npages ∧ e.2.front.toNat < a + n)
      ∨ (a < e.2.back.toNat + 2 ^ 21 * e.2.npages ∧ e.2.back.toNat < a + n))

/-- The words of a custom program up to END, none if 32 words hold no END (R194, R202). -/
def customOf : List Nat → Nat → Option (List Nat)
  | _, 0 => none
  | [], _ => none
  | w :: r, n + 1 => if bitsOf w 31 27 = 0 then some [w] else (customOf r n).map (w :: ·)

/-- Bytes of a custom program the engine reads: up to its END or its first word with a reserved OP; unmapped words load as
zero, which is END (R194, R202). -/
def customBytes (ws : List Nat) : Nat := 4 * min 32 ((ws.takeWhile fun w => 1 ≤ bitsOf w 31 27 ∧ bitsOf w 31 27 ≤ 0x0C).length + 1)

/-- A custom program's words, as far as they are readable. -/
def customWords (s : State) (k d : Nat) : List Nat := (List.range 32).map fun i => s.loadNat k (uAddr d uMicro + 4 * i) 4

/-- Whether a custom program is legal (R8, R194): known OPs, no reserved bit, one ENC iff MOMS > 0. -/
def customOk (moms : Nat) (ws : List Nat) : Bool :=
  ws.all (fun w => bitsOf w 31 27 ≤ 0x0C && bitsOf w 14 0 = 0)
    && ws.countP (fun w => bitsOf w 31 27 = 0x0C) = (if moms = 0 then 0 else 1)

/-- The words of a custom program that validation reads; a built-in recipe has none. -/
def uWords (s : State) (k c d : Nat) : List Nat := if uRecipe c = 4 then customWords s k d else []

/-- The program an UPDATE runs: the words that validation read, or its recipe's (R200, R202). -/
def uProgram (c : Nat) (ws : List Nat) : List MOp :=
  if uRecipe c = 4 then ((customOf ws 32).getD []).map mopOf else recipeOf (uRecipe c)

/-- Whether a program reads hyperparameters; the factored blend reads h1 (R195, R201). -/
def readsHp (c : Nat) (ops : List MOp) : Bool := uRecipe c = 3 || ops.any fun m => m.op = 5 ∨ m.op = 6

/-- The ranges an UPDATE reads: address, bytes, and whether it lies in a pair's front range (R193, R194). -/
def uReads (c d : Nat) : List (Nat × Nat × Bool) :=
  let r := uRows c
  let cc := uCols c
  let e := r * cc
  let a := uAddr d
  [(a uMaster, 4 * e, true), (a uMasterSc, r, true)]
    ++ (if uRecipe c = 5 then [] else [(a uGrad, 4 * e, false)])
    ++ (if uMoms c = 0 then [] else [(a uM1, 2 * e, true), (a uM1Sc, e / 128, true)])
    ++ (if uMoms c = 2 then [(a uM2, 2 * e, true), (a uM2Sc, e / 128, true)] else [])
    ++ (if uRecipe c = 3 then [(a uM2, 2 * r, true), (a uM2Sc, (r + 127) / 128, true), (a uCf, 2 * cc, true),
          (a uCfSc, cc / 128, true), (a uCs, 16 * cc, false)] else [])

/-- The ranges an UPDATE uses, in the same form: what it reads, its working copy, its serving copy (R193, R194). -/
def uUses (c d : Nat) : List (Nat × Nat × Bool) :=
  let e := uRows c * uCols c
  let a := uAddr d
  uReads c d ++ [(a uWork, e, false), (a uWorkSc, e / groupOf (ccwMode (uWccw c)), false)]
    ++ (if uServe c then [(a uServeA, e / 2, true), (a uServeSc, e / groupOf (ccwMode (uSccw c)), true)] else [])

/-- Legality from the command alone (R194). A serving copy that is not written keeps its reserved bits, mode and format code
(R8; 02 R28, R49); what pairs them is looked at only where it is used. -/
def uCmdOk (c : Nat) : Bool :=
  let wm := ccwMode (uWccw c)
  let sm := ccwMode (uSccw c)
  fld c 511 316 = 0 && fld c 225 224 = 0 && uGscale c < 2 ^ 22 && uRecipe c ≤ 5 && uMoms c ≤ 2
    && (uRecipe c = 4 || uMoms c = recipeMoms (uRecipe c)) && uCols c ≠ 0 && uCols c % 128 = 0
    && (uWfmt c = 0x01 || uWfmt c = 0x06) && ccwOk (uWfmt c) (uWccw c) && groupOf wm ≠ 0
    && (!uServe c || (uRecipe c ≠ 5 && (uSfmt c = 0x00 || uSfmt c = 0x04) && ccwOk (uSfmt c) (uSccw c) && groupOf sm ≠ 0))
    && ccwPlain (uSccw c) && fmtPlain (uSfmt c) && uDesc c % 128 = 0

/-- Whether every word of the descriptor keeps its reserved bits clear (R8, Table 07.4). -/
def uDescOk (d : Nat) : Bool := (List.range 16).all fun i => fld d (64 * i + 63) (64 * i + 48) = 0

/-- Validation in full (R126, R194): status and faulting address. -/
def uValidate (s : State) (k c : Nat) : BitVec 8 × Nat :=
  let P := s.part k
  if !uCmdOk c then (stINVALID, 0)
  else if !readable P (uDesc c) 128 then (stADDRESS, uDesc c)
  else
    let d := s.loadNat k (uDesc c) 128
    let m := uAddr d uMicro
    if !uDescOk d then (stINVALID, 0)
    else if uRecipe c = 4 ∧ m % 64 ≠ 0 then (stINVALID, 0)
    else if uRecipe c = 4 ∧ !readable P m (customBytes (customWords s k d)) then
      (stADDRESS, firstBad P m (customBytes (customWords s k d)) false)
    else if uRecipe c = 4 ∧ !((customOf (customWords s k d) 32).any (customOk (uMoms c))) then (stINVALID, 0)
    else
      let us := uUses c d
      let hp := readsHp c (uProgram c (uWords s k c d))
      if !(us.all fun u => u.1 % 64 = 0 && (if u.2.2 then inFront P u.1 u.2.1 else !hitsPair P u.1 u.2.1))
          || (hp && uAddr d uHp % 64 ≠ 0) then (stINVALID, 0)
      else match us.find? fun u => !readable P u.1 u.2.1 with
        | some u => (stADDRESS, firstBad P u.1 u.2.1 false)
        | none => if hp && !readable P (uAddr d uHp) 64 then (stADDRESS, uAddr d uHp) else (stOK, 0)

/-- What validation reads: the descriptor, and a custom program (R193, R202). -/
def noteUpdate (s : State) (k c : Nat) : State :=
  let d := s.loadNat k (uDesc c) 128
  let s' := s.noteIf k (uDesc c) 128
  if uRecipe c = 4 then s'.noteIf k (uAddr d uMicro) (customBytes (customWords s k d)) else s'

/-! ### Writing, with the hold of a securing drain (R204) -/

/-- What an UPDATE has done so far: events of the serving copy apart, writes held back, the first address that faulted. -/
structure UAcc where
  s : State
  evt : Evt := {}
  sevt : Evt := {}
  nans : Nat := 0
  div0 : Nat := 0
  held : List (Nat × Bytes) := []
  bad : Option Nat := none

/-- Whether a securing drain holds the page of an address (R204, R371). -/
def heldPage (P : Part) (a : Nat) : Bool :=
  match place P a, P.drain with
  | .tensor a, some d => d.held.contains (recordOf P (pageNo a))
  | _, _ => false

/-- Notes that an UPDATE of this step has written n bytes of a back range: they are defined (R207), and the page no longer
holds the face before (08 R249). -/
def backNote (s : State) (k a n : Nat) : State :=
  let pg := pageNo a
  if inBack (s.part k) pg then
    s.modPart k fun P => { defineBytes P true a n with backWritten := if P.backWritten.contains pg then P.backWritten else pg :: P.backWritten }
  else s

/-- Writes bytes, page by page; a held page's bytes wait (R204). Writes end at the first that faults (R126). -/
def uWrite (k : Nat) (a : UAcc) (addr : Nat) (b : Bytes) : UAcc :=
  if a.bad.isSome then a
  else if !writable (a.s.part k) addr b.length then { a with bad := some (firstBad (a.s.part k) addr b.length true) }
  else
    (sectors addr b.length).foldl (fun a w =>
      let p := (b.drop (w.1 - addr)).take w.2
      if heldPage (a.s.part k) w.1 then { a with held := a.held ++ [(w.1, p)] } else { a with s := backNote (a.s.store k w.1 p) k w.1 p.length }) a

/-- Adds an encoding's events; a NaN group counts once (R44, R199). -/
def uEvents (a : UAcc) (serving : Bool) (e : Evt) (nans : Nat) : UAcc :=
  let e := { e with nanIn := 0 }
  if serving then { a with sevt := evtAdd a.sevt e, nans := a.nans + nans } else { a with evt := evtAdd a.evt e, nans := a.nans + nans }

/-- encode_group over each group of g, written as elements and scales (R42, R198). -/
def uEncode (k n g : Nat) (serving : Bool) (a : UAcc) (ea sa : Nat) (vs : List Exact) : UAcc :=
  let rs := (pieces g vs).map (encodeGroup n)
  let a := uEvents a serving (rs.foldl (fun e r => evtAdd e r.2.2) {}) (rs.countP fun r => r.1 = 0xFF)
  let a := uWrite k a ea (packElems n (rs.flatMap fun r => r.2.1.map (pat n)))
  uWrite k a sa (rs.map fun r => BitVec.ofNat 8 r.1)

/-! ### Groups (R196, R198) -/

/-- Totals of the factored recipe's first sweep: new row factors, new column factors, and T (R201). -/
structure Fact where
  rf : List (Option (Int × Int)) := []
  cf : List (Option (Int × Int)) := []
  total : Option (Int × Int) := none

/-- v-hat of element (r, c) (R201). -/
def vhat (f : Fact) (r c : Nat) : Option (Int × Int) :=
  match f.total, f.rf.getD r none, f.cf.getD c none with
  | some t, some a, some b => some (if t.1 = 0 then (0, 0) else divQ (fitQ (a.1 * b.1) (a.2 + b.2)) t)
  | _, _, _ => none

/-- A decoded S16 element under a scale code (R41). -/
def momOf (code raw : Nat) : Option (Int × Int) := if code = 0xFF then none else some (sext 16 raw, (code : Int) - 127)

/-- What a group needs of its command. -/
structure UCtx where
  k : Nat
  c : Nat
  d : Nat
  hp : List (Int × Int)
  fact : Option Fact := none

/-- Gradient register x1 of element (r, c) (R196). -/
def gradOf (s : State) (x : UCtx) (r c : Nat) : Int × Int :=
  if uRecipe x.c = 5 then (0, 0)
  else fitQ (sext 32 (s.loadNat x.k (uAddr x.d uGrad + 4 * (r * uCols x.c + c)) 4) * sext 16 (uGscale x.c)) (uEg x.c)

/-- Registers of element (r, c) before the program (R196, R199). -/
def loadEl (s : State) (x : UCtx) (cw r c : Nat) : UEl :=
  let e := r * uCols x.c + c
  let w := sext 32 (s.loadNat x.k (uAddr x.d uMaster + 4 * e) 4)
  let mom (i : Nat) := momOf (s.loadNat x.k (uAddr x.d (uM1Sc + 2 * i) + e / 128) 1) (s.loadNat x.k (uAddr x.d (uM1 + 2 * i) + 2 * e) 2)
  let x1 := gradOf s x r c
  let x2 := if uMoms x.c = 0 then some (0, 0) else mom 0
  let x3 := match x.fact with
    | some f => vhat f r c
    | none => if uMoms x.c < 2 then some (0, 0) else mom 1
  let regs := [(w, (cw : Int) - 127), x1, x2.getD (0, 0), x3.getD (0, 0), (0, 0), (0, 0), (0, 0), (0, 0)]
  { x := regs, nan := cw = 0xFF || x2.isNone || x3.isNone || !(regs.all fun v => qOk v.2) }

/-- ENC of register j (2 or 3) of a group: encoded to the back face and reloaded as stored (R198). -/
def encMoment (x : UCtx) (r c0 j : Nat) (ae : UAcc × List UEl) : UAcc × List UEl :=
  let a := ae.1
  let es := ae.2
  let vs := es.map fun e => if e.nan then exactNan else exactOf (e.x.getD j (0, 0)).1 (e.x.getD j (0, 0)).2
  let e := encodeGroup 16 vs
  let code := e.1
  let els := e.2.1
  let g := r * uCols x.c + c0
  let P := a.s.part x.k
  let a := uEvents a false e.2.2 (if code = 0xFF then 1 else 0)
  let a := uWrite x.k a (backOf P (uAddr x.d (uM1 + 2 * (j - 2)) + 2 * g)) (packElems 16 (els.map (pat 16)))
  let a := uWrite x.k a (backOf P (uAddr x.d (uM1Sc + 2 * (j - 2)) + g / 128)) [BitVec.ofNat 8 code]
  (a, (es.zip els).map fun e =>
    if code = 0xFF then { e.1 with nan := true } else { e.1 with x := e.1.x.set j (e.2, (code : Int) - 127) })

/-- ENC of a group (R198). -/
def encGroup (x : UCtx) (r c0 : Nat) (ae : UAcc × List UEl) : UAcc × List UEl :=
  let ae := encMoment x r c0 2 ae
  if uMoms x.c = 2 then encMoment x r c0 3 ae else ae

/-- A group from its loading to the operation before END (R198). -/
def runGroup (x : UCtx) (ops : List MOp) (cw r c0 : Nat) (a : UAcc) : UAcc × List UEl :=
  let es := (List.range 128).map fun i => loadEl a.s x cw r (c0 + i)
  let body := ops.filter fun m => m.op ≠ 0
  let pre := body.takeWhile fun m => m.op ≠ 0x0C
  let post := (body.drop pre.length).drop 1
  let p := microRun x.hp pre es
  let a := { a with div0 := a.div0 + p.2 }
  let ae := if uMoms x.c = 0 then (a, p.1) else encGroup x r c0 (a, p.1)
  let q := microRun x.hp post ae.2
  ({ ae.1 with div0 := ae.1.div0 + q.2 }, q.1)

/-- New master element at END: rounded to its row's code and saturated (R198). A NaN element is written as zero, as R42
writes the elements of a NaN group (DEDUCED, log 33). -/
def endEl (cw : Nat) (e : UEl) : Int × Evt :=
  if e.nan then (0, {})
  else
    let x0 := e.x.getD 0 (0, 0)
    let v := roundInt x0.1 x0.2 ((cw : Int) - 127)
    if v > 2 ^ 31 - 1 then (2 ^ 31 - 1, { sat := 1 }) else if v < -(2 ^ 31 - 1) then (-(2 ^ 31 - 1), { sat := 1 }) else (v, {})

/-- END of a group whose row takes code rc: master, working and serving elements (R198). COPY writes the working copy
alone (R200). -/
def endGroup (x : UCtx) (cw rc r c0 : Nat) (a : UAcc) (es : List UEl) : UAcc :=
  let rs := es.map (endEl cw)
  let g := r * uCols x.c + c0
  let P := a.s.part x.k
  let a := uEvents a false (rs.foldl (fun e r => evtAdd e r.2) {}) 0
  let a := if uRecipe x.c = 5 then a
    else uWrite x.k a (backOf P (uAddr x.d uMaster + 4 * g)) (packElems 32 (rs.map fun r => pat 32 r.1))
  let vs := rs.map fun r => if rc = 0xFF then exactNan else exactOf r.1 ((rc : Int) - 127)
  let wg := groupOf (ccwMode (uWccw x.c))
  let a := uEncode x.k 8 wg false a (uAddr x.d uWork + g) (uAddr x.d uWorkSc + g / wg) vs
  if uServe x.c then
    let sg := groupOf (ccwMode (uSccw x.c))
    uEncode x.k 4 sg true a (backOf P (uAddr x.d uServeA + g / 2)) (backOf P (uAddr x.d uServeSc + g / sg)) vs
  else a

/-- The back face's row code, counted once when the row is NaN (R199). -/
def endRowCode (x : UCtx) (rc r : Nat) (a : UAcc) : UAcc :=
  if uRecipe x.c = 5 then a
  else
    let a := if rc = 0xFF then { a with nans := a.nans + 1 } else a
    uWrite x.k a (backOf (a.s.part x.k) (uAddr x.d uMasterSc + r)) [BitVec.ofNat 8 rc]

/-- One row: its groups in ascending order, then END, the copies encoded from the row as its new code names it (R33,
R198, R199; DEDUCED, log 33). -/
def runRow (x : UCtx) (ops : List MOp) (a : UAcc) (r : Nat) : UAcc :=
  if a.bad.isSome then a
  else
    let cw := a.s.loadNat x.k (uAddr x.d uMasterSc + r) 1
    let cols := (List.range (uCols x.c / 128)).map fun i => 128 * i
    let b := cols.foldl (fun b c0 => let g := runGroup x ops cw r c0 b.1; (g.1, b.2 ++ [g.2])) (a, ([] : List (List UEl)))
    let rc := if b.2.any fun es => es.any fun e => e.nan then 0xFF else cw
    let a := endRowCode x rc r b.1
    (cols.zip b.2).foldl (fun a e => endGroup x cw rc r e.1 a e.2) a

/-! ### The factored recipe's first sweep (R201) -/

/-- blend(old, new) with h1: SUB, MULH, ADD. -/
def blendProg : List MOp := [opSub 4 0 1, opMulh 4 4 1, opAdd 0 1 4]

/-- New factors of one array: old factors blended with the sums, encoded over groups of 128 padded with zeros, and only
the real ones written (R201). -/
def factorArray (x : UCtx) (ai si count : Nat) (sums : List Int) (a : UAcc) : UAcc × List (Option (Int × Int)) :=
  let base := uAddr x.d ai
  let sc := uAddr x.d si
  let vs := (List.range count).map fun i =>
    match momOf (a.s.loadNat x.k (sc + i / 128) 1) (a.s.loadNat x.k (base + 2 * i) 2) with
    | none => exactNan
    | some o =>
      let e := (microRun x.hp blendProg [{ x := [o, fitQ (sums.getD i 0) (2 * uEg x.c), (0, 0), (0, 0), (0, 0)] }]).1.getD 0 {}
      if e.nan then exactNan else exactOf (e.x.getD 0 (0, 0)).1 (e.x.getD 0 (0, 0)).2
  let gs := (pieces 128 vs).map fun g => encodeGroup 16 (g ++ List.replicate (128 - g.length) ({ m := 0 } : Exact))
  let els := (gs.flatMap fun g => g.2.1).take count
  let P := a.s.part x.k
  let a := uEvents a false (gs.foldl (fun e g => evtAdd e g.2.2) {}) (gs.countP fun g => g.1 = 0xFF)
  let a := uWrite x.k a (backOf P base) (packElems 16 (els.map (pat 16)))
  let a := uWrite x.k a (backOf P sc) (gs.map fun g => BitVec.ofNat 8 g.1)
  (a, (els.zip (List.range count)).map fun e =>
    let cd := (gs.getD (e.2 / 128) (0, [], {})).1
    if cd = 0xFF then none else some (e.1, (cd : Int) - 127))

/-- First sweep (R201): column sums in memory, new factors, T. -/
def factorSweep (x : UCtx) (a : UAcc) : UAcc × Fact :=
  let rows := uRows x.c
  let cols := uCols x.c
  let n1 := (List.range rows).map fun r => (List.range cols).map fun c => (gradOf a.s x r c).1
  let sr := n1.map fun l => l.foldl (fun t v => t + v * v) 0
  let cs := (List.range cols).map fun c => n1.foldl (fun t l => t + l.getD c 0 * l.getD c 0) 0
  let a := uWrite x.k a (uAddr x.d uCs) (cs.flatMap fun v => toLe 16 (pat 128 v))
  let f := factorArray x uM2 uM2Sc rows sr a
  let g := factorArray x uCf uCfSc cols cs f.1
  let total := f.2.foldl (fun t v => match t, v with | some t, some v => some (xadd t v) | _, _ => none) (some (0, 0))
  (g.1, { rf := f.2, cf := g.2, total := total })

/-! ### UPDATE (R192 to R204) -/

/-- Hyperparameters h0 to h7; reserved bits are ignored (R8, R195). -/
def hpWords (s : State) (k d : Nat) : List (Int × Int) :=
  (List.range 8).map fun i =>
    let w := s.loadNat k (uAddr d uHp + 8 * i) 8
    (sext 32 w, sext 8 (fld w 39 32))

/-- The pipe's machine after a command's last group (R196). -/
def lastGroup (s : State) (pipe q : Nat) (idx : BitVec 24) (x : UCtx) (ops : List MOp) : State :=
  let r := uRows x.c - 1
  let c0 := uCols x.c - 128
  let cw := s.loadNat x.k (uAddr x.d uMasterSc + r) 1
  let es := (runGroup x ops cw r c0 { s := s }).2
  s.putPipe pipe { regs := es.map fun e => e.x, nans := es.map fun e => e.nan, code := BitVec.ofNat 8 cw, hps := x.hp, row := r,
                   col := c0, part := x.k, qid := BitVec.ofNat 20 q, idx := idx, cmd := BitVec.ofNat 512 x.c,
                   desc := BitVec.ofNat 1024 x.d }

/-- The context of an UPDATE with descriptor d and program ops, its reads noted, and the factored recipe's first sweep (R193,
R201). -/
def updateStart (s : State) (k c d : Nat) (ops : List MOp) : UAcc × UCtx :=
  let x : UCtx := { k := k, c := c, d := d, hp := hpWords s k d }
  let s0 := (uReads c d).foldl (fun s u => s.noteRead k u.1 u.2.1) s
  let s0 := if readsHp c ops then s0.noteRead k (uAddr d uHp) 64 else s0
  if uRecipe c = 3 then
    let f := factorSweep x { s := s0 }
    (f.1, { x with fact := some f.2 })
  else ({ s := s0 }, x)

/-- Status of an UPDATE from the address that could not be written, or a saturation under STRICT of the control word it came
under (R47, R126). -/
def updateStatus (c : Nat) (a : UAcc) : BitVec 8 :=
  if a.bad.isSome then stADDRESS
  else if (ccwStrict (uWccw c) && a.evt.sat > 0) || (uServe c && ccwStrict (uSccw c) && a.sevt.sat > 0) then stRANGE else stOK

/-- What the rows of an UPDATE leave, counted and reported (R45, R47, R210). -/
def updateEnd (a : UAcc) (x : UCtx) (k q pipe : Nat) (idx : BitVec 24) (c : Nat) (ops : List MOp) : State × Started :=
  let e := evtAdd a.evt a.sevt
  (lastGroup (countDiv0 (countNan (countEvt a.s k q e) k a.nans) k a.div0) pipe q idx x ops,
    { work := if a.held.isEmpty then .done else .held a.held, sat := e.sat > 0, flush := e.flush > 0, ukind := 3,
      uidx := BitVec.ofNat 12 pipe, faddr := BitVec.ofNat 48 (a.bad.getD 0),
      status := updateStatus c a })

/-- The sweep of a valid UPDATE (R196 to R201): the state, and how its work stands. -/
def runUpdate (s : State) (k q pipe : Nat) (idx : BitVec 24) (c d : Nat) (ws : List Nat) : State × Started :=
  let ops := uProgram c ws
  let b := updateStart s k c d ops
  updateEnd ((List.range (uRows c)).foldl (runRow b.2 ops) b.1) b.2 k q pipe idx c ops

/-- Page numbers of a byte range, ascending. -/
def pagesOf (a n : Nat) : List Nat :=
  if n = 0 then [] else (List.range (pageNo (a + n - 1) - pageNo a + 1)).map fun i => pageNo a + i

/-- Inserts into an ascending list without repeats. -/
def insSorted (x : Nat) : List Nat → List Nat
  | [] => [x]
  | y :: r => if x < y then x :: y :: r else if x = y then y :: r else y :: insSorted x r

/-- Master, moment and factor pages an UPDATE sweeps (Table 07.3, IWIN). -/
def uPages (c d : Nat) : List Nat :=
  let skip := if uServe c then [uAddr d uServeA, uAddr d uServeSc] else []
  ((uUses c d).filter fun u => u.2.2 && !skip.contains u.1).foldl (fun l u => (pagesOf u.1 u.2.1).foldr insSorted l) []

/-- Whether an UPDATE row of recipe r names this command; a reserved RECIPE, which no row names, is refused by row 0. -/
def isUpdate (r c : Nat) : Bool := isKind 2 0x10 c && (uRecipe c = r || (r = 0 && 5 < uRecipe c))

/-- The started UPDATE of a queue whose pages have all been promoted. -/
def readyUpdate (s : State) (q r : Nat) : Option Started :=
  (s.queue q).started.find? fun x => x.work = .iwin && isUpdate r x.cmd.toNat

/-- Whether the pipe a command runs on waits for a takeover (12 R352). -/
def pipeDue (s : State) (k c : Nat) : Bool :=
  match pipeOf s (s.part k) c with
  | some p => (s.block clsPipe (p / 4) (p % 4)).due
  | none => false

/-- Keeps what validation read with the command (R193, R202). -/
def keepRead (d : Nat) (ws : List Nat) (e : State × Started) : State × Started :=
  (e.1, { e.2 with desc := BitVec.ofNat 1024 d, aux := ws })

/-- An UPDATE that starts (R138, R192, R194; 12 R355); its descriptor and custom program are read once, now (R193, R202). -/
def startUpdate (q : Nat) (s : State) (k c : Nat) : State × Started :=
  match pipeOf s (s.part k) c with
  | none => (s, failed stINVALID 3)
  | some p =>
    let v := uValidate s k c
    let s := noteUpdate s k c
    if v.1 ≠ stOK then (s, failed v.1 3 v.2 p)
    else if uRows c = 0 then (s, { degen := true })
    else
      let d := s.loadNat k (uDesc c) 128
      let ws := uWords s k c d
      keepRead d ws (if uIwin c then withPages s (uPages c d) else runUpdate s k q p (startIdx s q) c d ws)

/-- An UPDATE whose pages have all been promoted sweeps. -/
def resumeUpdate (s : State) (k q : Nat) (x : Started) : State :=
  let c := x.cmd.toNat
  match pipeOf s (s.part k) c with
  | none => endWork s q x.idx stINVALID
  | some p =>
    let e := keepRead x.desc.toNat x.aux (runUpdate s k q p x.idx c x.desc.toNat x.aux)
    modStarted e.1 q x.idx fun y => { e.2 with idx := y.idx, cmd := y.cmd, arrived := y.arrived, since := y.since }

/-- An UPDATE of recipe r: it starts, and with IWIN = 1 its pages are promoted first and the same row then sweeps. -/
def runUpdateRow (q : Qid) (r : Nat) (s : State) : State :=
  match readyUpdate s q.toNat r, ownerOf s q.toNat with
  | some x, some k =>
    if s.boot.clocksOff ∨ (s.queue q.toNat).st = .resetting ∨ pipeDue s k x.cmd.toNat then s else resumeUpdate s k q.toNat x
  | _, _ => startThen s q.toNat (fun s k c => isUpdate r c && !pipeDue s k c) (startUpdate q.toNat) (movePages q.toNat)

/-- SGD_WITH_MOMENTUM (R200). -/
def execSgdWithMomentum (q : Qid) (s : State) : Host.Outcome State Fault Refusal := outcome s (runUpdateRow q 0 s)
/-- ADAMW (R200). -/
def execAdamw (q : Qid) (s : State) : Host.Outcome State Fault Refusal := outcome s (runUpdateRow q 1 s)
/-- LION (R200). -/
def execLion (q : Qid) (s : State) : Host.Outcome State Fault Refusal := outcome s (runUpdateRow q 2 s)
/-- FACTORED (R201). -/
def execFactored (q : Qid) (s : State) : Host.Outcome State Fault Refusal := outcome s (runUpdateRow q 3 s)
/-- CUSTOM (R202). -/
def execCustom (q : Qid) (s : State) : Host.Outcome State Fault Refusal := outcome s (runUpdateRow q 4 s)
/-- COPY (R200). -/
def execCopy (q : Qid) (s : State) : Host.Outcome State Fault Refusal := outcome s (runUpdateRow q 5 s)

/-- BACK_PAGE_WRITE (R204): the held writes whose page no drain holds any more are made; with none left the work ends. -/
def execBackPageWrite (q : Qid) (s : State) : Host.Outcome State Fault Refusal :=
  outcome s <|
    match ownerOf s q.toNat, (s.queue q.toNat).started.find? (fun x => match x.work with | .held _ => true | _ => false) with
    | some k, some x =>
      match x.work with
      | .held ws =>
        if s.boot.clocksOff then s
        else
          let free := ws.filter fun w => !heldPage (s.part k) w.1
          let left := ws.filter fun w => heldPage (s.part k) w.1
          let s := free.foldl (fun s w => backNote (s.store k w.1 w.2) k w.1 w.2.length) s
          modStarted s q.toNat x.idx fun y => { y with work := if left.isEmpty then .done else .held left }
      | _ => s
    | _, _ => s

/-! ### Micro-operations on the group a pipe holds (R197, R198; log 32) -/

/-- The group a pipe holds, while its UPDATE has not completed. -/
def pipeGroup (s : State) (p : Nat) : Option (Pipe × UCtx × List UEl) :=
  let g := s.pipe p
  if s.boot.clocksOff ∨ g.regs = [] ∨ !((s.queue g.qid.toNat).started.any fun r => r.idx = g.idx && r.cmd = g.cmd) then none
  else some (g, { k := g.part, c := g.cmd.toNat, d := g.desc.toNat, hp := g.hps },
    (g.regs.zip g.nans).map fun e => { x := e.1, nan := e.2 })

/-- Puts a group back into a pipe. -/
def putGroup (s : State) (p : Nat) (g : Pipe) (es : List UEl) : State :=
  s.putPipe p { g with regs := es.map fun e => e.x, nans := es.map fun e => e.nan }

/-- A register operation on every element of the group (R197): the word's OP must be the row's. -/
def microStep (s : State) (p op : Nat) (w : BitVec 32) : State :=
  match pipeGroup s p with
  | none => s
  | some (g, x, es) =>
    let m := mopOf w.toNat
    if m.op ≠ op ∨ bitsOf w.toNat 14 0 ≠ 0 then s
    else
      let r := microGroup x.hp m es
      countDiv0 (putGroup s p g r.1) x.k r.2

/-- What an ENC or END on a pipe adds to its queue, its partition and its command (R45 to R47, R126). -/
def settlePipe (a : UAcc) (x : UCtx) (pipe : Nat) (g : Pipe) : State :=
  let e := evtAdd a.evt a.sevt
  let s := countNan (countEvt a.s x.k g.qid.toNat e) x.k a.nans
  let st := updateStatus x.c a
  modStarted s g.qid.toNat g.idx fun r =>
    { (if st = stOK ∨ faulting r.status then r
       else { r with status := st, ukind := 3, uidx := BitVec.ofNat 12 pipe, faddr := BitVec.ofNat 48 (a.bad.getD 0) }) with
      sat := r.sat || e.sat > 0, flush := r.flush || e.flush > 0
      work := match r.work with
        | .held l => .held (l ++ a.held)
        | .done => if a.held.isEmpty then .done else .held a.held
        | w => w }

def execMicroMov (pipe : Fin 16) (w : BitVec 32) (s : State) : Host.Outcome State Fault Refusal := .next (microStep s pipe.val 0x01 w)
def execMicroAdd (pipe : Fin 16) (w : BitVec 32) (s : State) : Host.Outcome State Fault Refusal := .next (microStep s pipe.val 0x02 w)
def execMicroSub (pipe : Fin 16) (w : BitVec 32) (s : State) : Host.Outcome State Fault Refusal := .next (microStep s pipe.val 0x03 w)
def execMicroMul (pipe : Fin 16) (w : BitVec 32) (s : State) : Host.Outcome State Fault Refusal := .next (microStep s pipe.val 0x04 w)
def execMicroMulh (pipe : Fin 16) (w : BitVec 32) (s : State) : Host.Outcome State Fault Refusal := .next (microStep s pipe.val 0x05 w)
def execMicroAddh (pipe : Fin 16) (w : BitVec 32) (s : State) : Host.Outcome State Fault Refusal := .next (microStep s pipe.val 0x06 w)
def execMicroDiv (pipe : Fin 16) (w : BitVec 32) (s : State) : Host.Outcome State Fault Refusal := .next (microStep s pipe.val 0x07 w)
def execMicroSqrt (pipe : Fin 16) (w : BitVec 32) (s : State) : Host.Outcome State Fault Refusal := .next (microStep s pipe.val 0x08 w)
def execMicroSign (pipe : Fin 16) (w : BitVec 32) (s : State) : Host.Outcome State Fault Refusal := .next (microStep s pipe.val 0x09 w)
def execMicroNeg (pipe : Fin 16) (w : BitVec 32) (s : State) : Host.Outcome State Fault Refusal := .next (microStep s pipe.val 0x0A w)
def execMicroMax (pipe : Fin 16) (w : BitVec 32) (s : State) : Host.Outcome State Fault Refusal := .next (microStep s pipe.val 0x0B w)

/-- ENC (R198): the moments of the group go to the back face and come back as stored. -/
def execEnc (pipe : Fin 16) (w : BitVec 32) (s : State) : Host.Outcome State Fault Refusal :=
  outcome s <|
    match pipeGroup s pipe.val with
    | none => s
    | some (g, x, es) =>
      if bitsOf w.toNat 31 27 ≠ 0x0C ∨ bitsOf w.toNat 14 0 ≠ 0 ∨ uMoms x.c = 0 then s
      else
        let ae := encGroup x g.row g.col ({ s := s }, es)
        putGroup (settlePipe ae.1 x pipe.val g) pipe.val g ae.2

/-- END (R198): the group's master, working and serving elements are written. Its row is NaN if the group holds a NaN
element or an earlier group of the row was (R199). -/
def execMicroEnd (pipe : Fin 16) (w : BitVec 32) (s : State) : Host.Outcome State Fault Refusal :=
  outcome s <|
    match pipeGroup s pipe.val with
    | none => s
    | some (g, x, es) =>
      if bitsOf w.toNat 31 27 ≠ 0 ∨ bitsOf w.toNat 14 0 ≠ 0 then s
      else
        let cw := g.code.toNat
        let before := s.loadNat x.k (backOf (s.part x.k) (uAddr x.d uMasterSc + g.row)) 1
        let rc := if (es.any fun e => e.nan) ∨ (g.col ≠ 0 ∧ before = 0xFF) then 0xFF else cw
        let a := if g.col ≠ 0 ∧ before = rc then { s := s } else endRowCode x rc g.row { s := s }
        let a := endGroup x cw rc g.row g.col a es
        settlePipe a x pipe.val g

end Sys2Proof.Machine
end

