-- ==== Sys2Proof/Machine/Collective.lean ====
section
/-! DEFINITION. The collective engine (08 R225 to R255; 06 R184): jobs, reduction slots, contributions, landing, gathers,
the commit vote, Jersey transitions. -/

namespace Sys2Proof.Machine

open Sys2Proof

/-! ### Counters, commands and messages -/

/-- Collective counters in Table 08.12's order. -/
def cDup : Nat := 0
def cBackup : Nat := 1
def cReset : Nat := 2
def cSealTo : Nat := 3
def cFailed : Nat := 4
def cLate : Nat := 5
def cStale : Nat := 6
def cForeign : Nat := 7
def cBusy : Nat := 8
def cLandRetry : Nat := 9
def cGone : Nat := 10
def countColl (s : State) (k i : Nat) : State := s.modPart k fun P => { P with coll := bump64 P.coll i 1 }

/-- The oldest started command of partition k, queue by queue, that `p` picks; a queue being reset goes on with none (06 Table
06.11). -/
def findCmd (s : State) (k : Nat) (p : Nat → Started → Bool) : Option (Nat × Started) :=
  (queuesOf s k).findSome? fun q =>
    if (s.queue q).st = .resetting then none else ((s.queue q).started.find? (p q)).map fun r => (q, r)

/-- Names a started command in a message that is answered to it: ring index in OFF, queue in MBID and COUNT, with the part of
a PUT (DESIGN CHOICE, log 36). -/
def named (m : Msg) (q : Nat) (idx : BitVec 24) (part : Nat := 0) : Msg :=
  { m with off := idx, mbid := BitVec.ofNat 16 q, count := BitVec.ofNat 12 (q / 2 ^ 16 % 16 + 16 * part) }

/-- Whether a message names a started command of queue q, and the part it names. -/
def names (m : Msg) (q : Nat) (r : Started) : Bool :=
  m.off = r.idx && m.mbid = BitVec.ofNat 16 q && m.count.toNat % 16 = q / 2 ^ 16 % 16
def partOf (m : Msg) : Nat := m.count.toNat / 16

/-- The names of a message, in its answer. -/
def echo (m x : Msg) : Msg := { x with off := m.off, mbid := m.mbid, count := m.count }

/-- Takes the first delivered message of partition k that `p` picks. -/
def takeMsg (s : State) (k : Nat) (p : Msg → Bool) : Option (Msg × State) :=
  match (s.part k).rx.findIdx? p with
  | none => none
  | some i => some (((s.part k).rx)[i]?.getD {}, s.modPart k fun P => { P with rx := P.rx.eraseIdx i })

/-- Runs a message row: the first message of kind opk that `p` picks. -/
def onMsg (s : State) (k opk : Nat) (p : Msg → Bool) (f : State → Msg → State) : State :=
  if s.boot.clocksOff then s
  else match takeMsg s k (fun m => m.opk.toNat = opk && p m) with
    | none => s
    | some (m, s) => f s m

/-- Ends a collective command. -/
def endColl (s : State) (q : Nat) (idx : BitVec 24) (st : BitVec 8) : State := endAs s 6 q idx st

/-- A collective command that does not run (Table 06.6). -/
def collFail (st : BitVec 8) (a : Nat := 0) : Started := failed st 6 a

/-- Sets a started command's work. -/
def setWork (s : State) (q : Nat) (idx : BitVec 24) (w : Work) : State := modStarted s q idx fun r => { r with work := w }

/-- Starts a collective-class command of a kind that `ok` lets go on; all kinds but JOIN and LADD48 need a job (R225). -/
def onColl (s : State) (q : Qid) (kind : Nat) (ok : State → Nat → Nat → Bool) (f : State → Nat → Nat → State × Started) : State :=
  match startable s q.toNat with
  | none => s
  | some (k, c) =>
    if !(isKind 4 kind c && ok s k c) then s
    else
      runFront s q.toNat (fun _ => true) fun s k c =>
        if (s.part k).job.isNone ∧ kind ≠ 0x10 ∧ kind ≠ 0x16 then (s, collFail stINVALID) else f s k c

/-- The same for a command whose work goes on once it has started. -/
def onCollThen (s : State) (q : Qid) (kind : Nat) (ok : State → Nat → Nat → Bool) (f : State → Nat → Nat → State × Started)
    (g : State → Nat → Started → State) : State :=
  startThen s q.toNat (fun s k c => isKind 4 kind c && ok s k c)
    (fun s k c => if (s.part k).job.isNone then (s, collFail stINVALID) else f s k c) g

/-- Nothing more to wait for. -/
def always (_ : State) (_ _ : Nat) : Bool := true

/-! ### Torus descriptors (R225, R226) -/

/-- A rank table entry from its image (Table 08.2). -/
def rankOfImage (n : Nat) : RankEntry := { valid := bitOf n 128, v4 := bitOf n 129, addr := BitVec.ofNat 128 n }

/-- Whether an image keeps its reserved bits clear (R8, Table 08.2). -/
def rankClear (n : Nat) : Bool := bitsOf n 255 130 = 0

/-- The job a torus descriptor describes; an address that may not be read, or nothing where it is invalid (R226). -/
def readJob (s : State) (k a : Nat) (epoch : BitVec 16) : Except Nat (Option Job) :=
  let P := s.part k
  if !readable P a 64 then .error a
  else
    let d := s.loadNat k a 64
    let J : Job := { epoch := epoch, x := bitsOf d 11 0 + 1, y := bitsOf d 23 12 + 1, z := bitsOf d 35 24 + 1,
                     w := bitsOf d 47 36 + 1, rank := BitVec.ofNat 16 (bitsOf d 63 48) }
    let rt := bitsOf d 111 64
    let n := jobSize J
    if 65536 < n ∨ n ≤ J.rank.toNat ∨ bitsOf d 511 112 ≠ 0 ∨ rt % 64 ≠ 0 then .ok none
    else if !readable P rt (32 * n) then .error (firstBad P rt (32 * n) false)
    else if !(List.range n).all (fun r => rankClear (s.loadNat k (rt + 32 * r) 32)) then .ok none
    else
      let table := (List.range n).foldl (fun t r => tset {} t r (rankOfImage (s.loadNat k (rt + 32 * r) 32))) []
      let J := { J with table := table, axes := (List.range 16).map fun p => (p, (s.port p).axis.toNat) }
      .ok (if (rankEntry J J.rank.toNat).valid then some J else none)

/-- What a command that names a torus descriptor reads (R225). -/
def noteJob (s : State) (k a : Nat) : State :=
  let d := s.loadNat k a 64
  (s.noteIf k a 64).noteIf k (bitsOf d 111 64)
    (32 * ((bitsOf d 11 0 + 1) * (bitsOf d 23 12 + 1) * (bitsOf d 35 24 + 1) * (bitsOf d 47 36 + 1)))

/-- A JOIN that starts (R225). -/
def joinJob (s : State) (k c : Nat) : State × Started :=
  let a := fld c 175 128
  if (s.part k).job.isSome ∨ a % 64 ≠ 0 ∨ !bodyClear c [(175, 128), (191, 176)] then (s, collFail stINVALID)
  else match readJob s k a (BitVec.ofNat 16 (fld c 191 176)) with
    | .error f => (noteJob s k a, collFail stADDRESS f)
    | .ok none => (noteJob s k a, collFail stINVALID)
    | .ok (some J) => ((noteJob s k a).modPart k fun P => takeLoaded { P with job := some J, conns := [], silent := [], subAsked := [] }, {})

/-- JOIN (R225). -/
def execJoin (q : Qid) (s : State) : Host.Outcome State Fault Refusal := outcome s (onColl s q 0x10 always joinJob)

/-! ### Slots (R230, R231, Table 08.10) -/

/-- Key of a slot record. -/
def slotKey (epoch slot : Nat) : Nat := 2 ^ 16 * epoch + slot

/-- Device-reserve bytes of a slot record of NC contributions (R231). -/
def slotBytes (nc : Nat) : Nat := 64 + 3 * ((nc + 511) / 512) * 64

/-- Changes a slot record. -/
def modSlot (s : State) (k key : Nat) (f : Slot → Slot) : State :=
  s.modPart k fun P => { P with slots := P.slots.map fun e => if e.1 = key then (key, f e.2) else e }

/-- Primary and backup ranks of an MBID (R231). -/
def primaryOf (S : Slot) (i : Nat) : Nat := (S.cmap.getD i 0).toNat % 2 ^ 16
def backupOf (S : Slot) (i : Nat) : Nat := (S.cmap.getD i 0).toNat / 2 ^ 16

/-- A message about a slot. -/
def slotMsg (opk key mbid : Nat) (role : Bool) (payload : Bytes) : Msg :=
  { opk := BitVec.ofNat 8 opk, slotId := BitVec.ofNat 16 key, epoch := BitVec.ofNat 16 (key / 2 ^ 16),
    mbid := BitVec.ofNat 16 mbid, role := role, payload := payload }

/-- p = 2^61 - 1. -/
def mersenne : Nat := 2 ^ 61 - 1

/-- Contribution checksums (R239). -/
def csumFrom (i : Nat) : List Int → Nat × Nat → Nat × Nat
  | [], a => a
  | x :: r, (c1, c2) =>
    csumFrom (i + 1) r (((c1 + x) % 2 ^ 64).toNat, ((c2 + (i + 1) * (x % (mersenne : Int))) % (mersenne : Int)).toNat)
def csum (x : List Int) : Nat × Nat := csumFrom 0 x (0, 0)

/-- slot_ok of R239 over the slot's images. -/
def slotOk (imgs : List Nat) (e : Int) (sum1 sum2 : Nat) : Bool :=
  imgs.all (fun i => s48V i = 0 || (s48X i = e && s48V i % 64 = 0))
    && csum (imgs.map fun i => if s48V i = 0 then 0 else s48V i / 64) = (sum1, sum2)

/-- S48 images of n elements from an address. -/
def imagesAt (s : State) (k a n : Nat) : List Nat := (List.range n).map fun i => s.loadNat k (a + 8 * i) 8

/-- A SLOTOPEN that has started and whose pages still move. -/
def opening (r : Started) : Bool :=
  isKind 4 0x11 r.cmd.toNat && (match r.work with | .pages _ _ _ _ | .iwin => true | _ => false)

/-- Whether every old-epoch slot has ended, those of an earlier SLOTOPEN that still promotes its pages with them (R252 step 2). -/
def barrierMet (s : State) (k : Nat) (J : Job) : Bool :=
  ((s.part k).slots.all fun e => e.1 / 2 ^ 16 ≠ J.epoch.toNat || e.2.st = .closed || e.2.st = .failed)
    && (findCmd s k fun _ r => opening r).isNone

/-! ### Claims (R236, R237) -/

/-- What an owner does with a claim. -/
inductive ClaimAns where
  | held
  | code (n : Nat)
  deriving DecidableEq, Repr

/-- Whether an epoch is older than another, modulo 2^16. -/
def epochOlder (e cur : BitVec 16) : Bool := e ≠ cur && (cur - e).toNat < 2 ^ 15

/-- Table 08.9. -/
def claimAnswer (P : Part) (J : Job) (m : Msg) : ClaimAns :=
  let key := slotKey m.epoch.toNat m.slotId.toNat
  let i := m.mbid.toNat
  if epochOlder m.epoch J.epoch then .code 3
  else
    match tfind P.slots key with
    | none => .held
    | some S =>
      if m.epoch ≠ J.epoch then .held
      else if m.step16.toNat ≠ S.step.toNat % 2 ^ 16 then .code 2
      else if S.cmap.length ≤ i ∨ m.src.toNat ≠ (if m.role then backupOf S i else primaryOf S i) then .code 6
      else if m.exp ≠ S.exp then .code 4
      else if m.off.toNat ≠ S.len then .code 5
      else if S.st ≠ .opened ∨ (tfind S.granted i).isSome ∨ S.sealed.contains i then .code 1
      else if m.role ∧ !S.called.contains i then .code 1
      else .code 0

/-- Counter of an answer (Table 08.9). -/
def answerCounter : Nat → Option Nat
  | 1 => some cDup | 2 => some cStale | 3 => some cLate | 6 => some cForeign | 7 => some cBusy | _ => none

/-- Sends the ANSWER, with its counter and, for GRANT, the granted bit (R236, R242). -/
def answer (s : State) (k : Nat) (m : Msg) (n : Nat) : State :=
  let key := slotKey m.epoch.toNat m.slotId.toNat
  let s := match answerCounter n with | some i => countColl s k i | none => s
  let s := if n = 0 then
      let s := modSlot s k key fun S => { S with granted := tins m.mbid.toNat { src := m.src, role := m.role } S.granted }
      if m.role then countColl s k cBackup else s
    else s
  sendMsg s k m.src.toNat none (slotMsg 0x02 key m.mbid.toNat m.role [BitVec.ofNat 8 n])

/-- A claim arrives: answered, or held, or BUSY past 64 held (R237). -/
def takeClaim (s : State) (k : Nat) (m : Msg) : State :=
  match (s.part k).job with
  | none => s
  | some J =>
    match claimAnswer (s.part k) J m with
    | .code n => answer s k m n
    | .held =>
      if 64 ≤ (s.part k).claims.length then answer s k m 7
      else s.modPart k fun P => { P with claims := P.claims ++ [m] }

/-- Answers each held claim that can now be answered (R237). -/
def answerHeld (s : State) (k : Nat) : State :=
  let l := (s.part k).claims
  l.foldl takeClaim' (s.modPart k fun P => { P with claims := [] })
where takeClaim' (s : State) (m : Msg) : State := takeClaim s k m

/-- CLAIM (R236). -/
def execClaim (k : Fin 16) (s : State) : Host.Outcome State Fault Refusal :=
  outcome s <| onMsg s k.val 0x01 (fun _ => true) fun s m => takeClaim s k.val m

/-! ### Contributions at the sender (R232 to R234, R241) -/

def ctSrc (c : Nat) : Nat := fld c 175 128
def ctBuf (c : Nat) : Nat := fld c 223 176
def ctSlot (c : Nat) : Nat := fld c 239 224
def ctOwner (c : Nat) : Nat := fld c 255 240
def ctLen (c : Nat) : Nat := fld c 279 256
def ctMbid (c : Nat) : Nat := fld c 295 280
def ctExp (c : Nat) : Nat := fld c 303 296
def ctEpoch (c : Nat) : Nat := fld c 319 304
def ctRole (c : Nat) : Bool := bitOf c 320
def ctSentEn (c : Nat) : Bool := bitOf c 321
def ctSentCtr (c : Nat) : Nat := fld c 335 322

/-- Exact value of an S48 image (R38, R69): V × 2^(X - 6), with G the six guard bits. -/
def s48Exact (img : Nat) : Exact := if s48X img = -512 then exactNan else exactOf (s48V img) (s48X img - 6)

/-- The elements of a contribution, from CBUF. -/
def contribElems (s : State) (k c : Nat) (o n : Nat) : Bytes := s.load k (ctBuf c + 4 * o) (4 * n)
def intsOf (b : Bytes) : List Int := (pieces 4 b).map fun e => sext 32 (leNat e)

/-- A message of a CONTRIB. -/
def contribMsg (c opk : Nat) (off count : Nat) (payload : Bytes) : Msg :=
  { opk := BitVec.ofNat 8 opk, exp := BitVec.ofNat 8 (ctExp c), slotId := BitVec.ofNat 16 (ctSlot c),
    epoch := BitVec.ofNat 16 (ctEpoch c), mbid := BitVec.ofNat 16 (ctMbid c), off := BitVec.ofNat 24 off,
    count := BitVec.ofNat 12 count,
    role := ctRole c, payload := payload }

/-- Whether a message may go to a rank: this member's own, or one whose entry is VALID (R225 after Table 08.2, R233). -/
def reachable (P : Part) (rank : Nat) : Bool := P.job.any fun J => rank = J.rank.toNat || rankValid J rank

/-- Sends a message of a started command; one to a rank whose entry is not VALID is never sent, and the command ends with
ADDRESS (after Table 08.2). -/
def sendFor (s : State) (k q : Nat) (r : Started) (rank : Nat) (m : Msg) : State :=
  if (s.queue q).st = .resetting then s
  else if reachable (s.part k) rank then sendMsg s k rank (some (BitVec.ofNat 20 q, r.idx)) m
  else endColl s q r.idx stADDRESS

/-- CLAIM of a started CONTRIB (R234). -/
def sendClaim (s : State) (k q : Nat) (r : Started) : State :=
  let c := r.cmd.toNat
  sendFor (setWork s q r.idx (.contrib .claimed 0 0)) k q r (ctOwner c) (contribMsg c 0x01 (ctLen c) 0 [])

/-- DATA packets awaiting PLACED in the partition (06 Table 06.14: at most 4,096). -/
def dataOut (s : State) (k : Nat) : Nat :=
  ((queuesOf s k).flatMap fun q => (s.queue q).started.map fun r =>
    match r.work with | .contrib _ n p => n - p | _ => 0).foldl (· + ·) 0

/-- Packets of a contribution. -/
def contribPkts (c : Nat) : Nat := (ctLen c + 2047) / 2048

/-- Sends DATA packets while credits last, then SEAL (R234). -/
def sendUnits (s : State) (k q : Nat) (r : Started) (sent placed : Nat) : Nat → State
  | 0 => setWork s q r.idx (.contrib .sending sent placed)
  | f + 1 =>
    let c := r.cmd.toNat
    if contribPkts c ≤ sent then
      let x := csum (intsOf (contribElems s k c 0 (ctLen c)))
      sendFor (setWork (s.noteRead k (ctBuf c) (4 * ctLen c)) q r.idx (.contrib .sealSent sent placed)) k q r (ctOwner c)
        (contribMsg c 0x05 0 0 (toLe 8 x.1 ++ toLe 8 x.2))
    else if 4096 ≤ dataOut (setWork s q r.idx (.contrib .sending sent placed)) k then
      setWork s q r.idx (.contrib .sending sent placed)
    else
      let o := 2048 * sent
      let n := min 2048 (ctLen c - o)
      sendUnits (sendFor (s.noteRead k (ctBuf c + 4 * o) (4 * n)) k q r (ctOwner c)
          (contribMsg c 0x03 o n (contribElems s k c o n))) k q r (sent + 1) placed f

/-- Continues a contribution that is sending. -/
def pumpContrib (s : State) (k q : Nat) (r : Started) (sent placed : Nat) : State :=
  sendUnits s k q r sent placed (contribPkts r.cmd.toNat - sent + 1)

/-- Every contribution that is sending goes on as far as the partition's credits last (06 Table 06.14). -/
def pumpContribs (s : State) (k : Nat) : State :=
  (queuesOf s k).foldl (fun s q => if (s.queue q).st = .resetting then s else (s.queue q).started.foldl (fun s r =>
    match r.work with
    | .contrib .sending sent placed => pumpContrib s k q r sent placed
    | _ => s) s) s

/-- The started CONTRIB that a message from the owner is for: of its slot, MBID and role, and of no later step than the
message's (DEDUCED, log 36: what an earlier step left over is for no later contribution). -/
def contribOf (s : State) (k : Nat) (m : Msg) (ph : ContribPhase → Bool) : Option (Nat × Started) :=
  findCmd s k fun _ r =>
    let c := r.cmd.toNat
    (match r.work with | .contrib p _ _ => ph p | _ => false) && ctSlot c = m.slotId.toNat && ctEpoch c = m.epoch.toNat
      && ctMbid c = m.mbid.toNat && ctOwner c = m.src.toNat && ctRole c = m.role && !epochOlder m.step16 r.step16

/-- Runs an owner's message on the CONTRIB it is for. -/
def onContrib (s : State) (k opk : Nat) (ph : ContribPhase → Bool) (f : State → Nat → Started → Msg → State) : State :=
  onMsg s k opk (fun m => (contribOf s k m ph).isSome) fun s m =>
    match contribOf s k m ph with
    | some (q, r) => f s q r m
    | none => s

/-- Narrowing of a contribution (R232): elements and events. -/
def narrowAll (s : State) (k a n : Nat) (e : Int) : List Int × Evt :=
  let rs := (imagesAt s k a n).map fun i => encodePlain 32 e (s48Exact i)
  (rs.map Prod.fst, rs.foldl (fun t r => evtAdd t r.2) {})

/-- Counts a narrowing (R232, R245): saturations to HC_XSAT, NaN images to HC_NAN, flushes as usual. -/
def countNarrow (s : State) (k q : Nat) (e : Evt) : State :=
  countNan (modHealth (countEvt s k q { flush := e.flush }) k fun h => { h with xsat := satAdd 32 h.xsat e.sat }) k e.nanIn

/-- Whether the epoch a command names is one a Jersey transition has closed (R252). -/
def epochClosed (P : Part) (e : Nat) : Bool :=
  match P.nextJob, P.job with
  | some _, some J => e = J.epoch.toNat
  | _, _ => false

/-- Validation of a CONTRIB: a status and its address (R232, R252). -/
def ctValidate (P : Part) (c : Nat) : BitVec 8 × Nat :=
  let n := ctLen c
  if ctSrc c % 64 ≠ 0 ∨ ctBuf c % 64 ≠ 0 ∨ fld c 511 336 ≠ 0 ∨ (ctSentEn c ∧ !ctrIn P (ctSentCtr c))
      ∨ epochClosed P (ctEpoch c) then (stINVALID, 0)
  else if !P.job.any (fun J => rankValid J (ctOwner c)) then (stADDRESS, 0)
  else if !writable P (ctSrc c) (8 * n) then (stADDRESS, firstBad P (ctSrc c) (8 * n) true)
  else if !writable P (ctBuf c) (4 * n) then (stADDRESS, firstBad P (ctBuf c) (4 * n) true)
  else (stOK, 0)

/-- A CONTRIB that starts: narrowed to CBUF, its source zero-filled (R232). -/
def startContrib (q : Qid) (s : State) (k c : Nat) : State × Started :=
  let v := ctValidate (s.part k) c
  if v.1 ≠ stOK then (s, collFail v.1 v.2)
  else
    let n := ctLen c
    let r := narrowAll s k (ctSrc c) n (sext 8 (ctExp c))
    let s := (s.zeroFill k (ctSrc c) (8 * n)).store k (ctBuf c) (packElems 32 (r.1.map (pat 32)))
    (countNarrow s k q.toNat r.2,
      { work := .contrib .waitCall 0 0, flush := r.2.flush > 0, step16 := BitVec.ofNat 16 (s.part k).stepNo.toNat })

/-- A primary contribution that has just started claims at once (R234). -/
def claimFirst (q : Qid) (s : State) (k : Nat) (r : Started) : State :=
  if ctRole r.cmd.toNat then s else sendClaim s k q.toNat r

/-- CONTRIB (R232). -/
def execContrib (q : Qid) (s : State) : Host.Outcome State Fault Refusal :=
  outcome s (onCollThen s q 0x12 always (startContrib q) (claimFirst q))

/-- ANSWER (R236). -/
def execAnswer (k : Fin 16) (s : State) : Host.Outcome State Fault Refusal :=
  outcome s <| onContrib s k.val 0x02 (· = .claimed) fun s q r m =>
    match ((m.payload.getD 0 0).toNat) with
    | 0 => pumpContribs (setWork s q r.idx (.contrib .sending 0 0)) k.val
    | 1 | 2 | 3 => endColl s q r.idx stOK
    | 7 => setWork s q r.idx (.contrib .busy 0 0)
    | _ => endColl s q r.idx stINVALID

/-- BUSY_RECLAIM (R237). -/
def execBusyReclaim (q : Qid) (s : State) : Host.Outcome State Fault Refusal :=
  outcome s <|
    match ownerOf s q.toNat, (s.queue q.toNat).started.find? fun r => r.work = .contrib .busy 0 0 with
    | some k, some r => if s.boot.clocksOff then s else sendClaim s k q.toNat r
    | _, _ => s

/-- PLACED (R238): the credit returns, to whichever contribution waits for one; once the SEAL has gone and every packet is
placed, SENT_CTR is signalled (log 37). -/
def execPlaced (k : Fin 16) (s : State) : Host.Outcome State Fault Refusal :=
  outcome s <| onContrib s k.val 0x04 (fun p => p = .sending ∨ p = .sealSent) fun s q r _ =>
    match r.work with
    | .contrib ph sent placed =>
      let c := r.cmd.toNat
      let s := setWork s q r.idx (.contrib ph sent (placed + 1))
      let s := pumpContribs s k.val
      if placed + 1 = contribPkts c ∧ ctSentEn c then addCtr s k.val (ctSentCtr c) 1 else s
    | _ => s

/-- CONFIRM (R240): CBUF is free and the CONTRIB completes. -/
def execConfirm (k : Fin 16) (s : State) : Host.Outcome State Fault Refusal :=
  outcome s <| onContrib s k.val 0x06 (fun _ => true) fun s q r _ => endColl s q r.idx stOK

/-- RESEND (R240): the contribution claims again from CBUF. -/
def execResend (k : Fin 16) (s : State) : Host.Outcome State Fault Refusal :=
  outcome s <| onContrib s k.val 0x07 (fun p => p ≠ .waitCall) fun s q r _ => pumpContribs (sendClaim s k.val q r) k.val

/-- CALL (R241): a waiting backup claims. -/
def execCall (k : Fin 16) (s : State) : Host.Outcome State Fault Refusal :=
  outcome s <| onContrib s k.val 0x08 (· = .waitCall) fun s q r _ => sendClaim s k.val q r

/-- RELEASE (R241): a backup completes and sends nothing. -/
def execRelease (k : Fin 16) (s : State) : Host.Outcome State Fault Refusal :=
  outcome s <| onContrib s k.val 0x09 (· = .waitCall) fun s q r _ => endColl s q r.idx stOK

/-- FAILED (R240): the CONTRIB completes with DATA_ERROR. -/
def execFailed (k : Fin 16) (s : State) : Host.Outcome State Fault Refusal :=
  outcome s <| onContrib s k.val 0x0A (fun _ => true) fun s q r _ => pumpContribs (endColl s q r.idx stDATA) k.val

/-! ### Landing (R245, R246) -/

/-- EXP of a securing PUT, and the names its SLOT_ID and MBID give: a page record, the snapshot, the record (DESIGN CHOICE,
log 62). -/
def secMark : BitVec 8 := 0xFF
def secSnap : Nat := 2 ^ 32 - 2
def secRecord : Nat := 2 ^ 32 - 1
def secName (m : Msg) : Nat := m.mbid.toNat * 2 ^ 16 + m.slotId.toNat

/-- Whether a message belongs to a securing PUT: no other PUT carries an EXP. -/
def securing (m : Msg) : Bool := m.role && m.exp = secMark

/-- Whether a landing address is in a buddy range kept for the sender (12 R377). -/
def buddyRoom (P : Part) (src : BitVec 16) (a n : Nat) : Bool :=
  P.regions.any fun e => e.2.kind = .buddy && e.2.rank = src && e.2.front.toNat ≤ a && a + n ≤ e.2.front.toNat + 2 ^ 21 * e.2.npages

/-- Whether a landing may write: a buddy range takes the securing PUTs of the rank it serves alone (R246; 12 R377). -/
def landable (P : Part) (m : Msg) (a n : Nat) : Bool :=
  writable P a n || (readable P a n && securing m && buddyRoom P m.src a n)

def bcDst (c : Nat) : Nat := fld c 175 128
def bcSlot (c : Nat) : Nat := fld c 191 176
def bcEpoch (c : Nat) : Nat := fld c 207 192
def bcGexp (c : Nat) : Nat := fld c 215 208
def bcAxes (c : Nat) : Nat := fld c 219 216
def bcCtr (c : Nat) : Nat := fld c 233 220

/-- LAND messages of a byte string to a base address (R235): at most 128 units each. -/
def landMsgs (base : Nat) (b : Bytes) : List Msg :=
  (pieces 8192 b).zipIdx.map fun e =>
    { opk := 0x10, dst := BitVec.ofNat 48 base, off := BitVec.ofNat 24 (128 * e.2),
      count := BitVec.ofNat 12 ((e.1.length + 63) / 64), payload := slice e.1 0 ((e.1.length + 63) / 64 * 64) }

/-- Payload of an LSEAL (R235). -/
def lsealBytes (a b ctr : Nat) (sig : Bool) : Bytes := toLe 8 a ++ toLe 8 b ++ toLe 2 ctr ++ toLe 1 sig.toNat ++ List.replicate 5 0

/-- A shard to one rank: LAND messages, then LSEAL (R245). -/
def sendShard (s : State) (k q : Nat) (r : Started) (rank : Nat) (xs : List Int) : State :=
  let c := r.cmd.toNat
  let tag (m : Msg) : Msg := { m with slotId := BitVec.ofNat 16 (bcSlot c), exp := BitVec.ofNat 8 (bcGexp c) }
  let s := (landMsgs (bcDst c) (packElems 32 (xs.map (pat 32)))).foldl (fun s m => sendFor s k q r rank (tag m)) s
  let x := csum xs
  sendFor s k q r rank
    (named (tag { opk := 0x11, dst := BitVec.ofNat 48 (bcDst c), payload := lsealBytes x.1 x.2 (bcCtr c) true }) q r.idx)

/-- The shard of a closed slot, narrowed (R245). -/
def shardOf (s : State) (k : Nat) (S : Slot) (c : Nat) : List Int × Evt :=
  narrowAll s k S.addr.toNat S.len (sext 8 (bcGexp c))

/-- BCAST of a slot that is CLOSED or FAILED (R245). -/
def runBcast (s : State) (k q : Nat) (r : Started) (S : Slot) : State :=
  if S.st = .failed then endColl s q r.idx stDATA
  else
    match (s.part k).job with
    | none => s
    | some J =>
      let c := r.cmd.toNat
      let g := axisGroup J (bcAxes c)
      if !g.all (rankValid J) then endColl s q r.idx stADDRESS
      else if !writable (s.part k) (bcDst c) (4 * S.len) then
        endColl (modStarted s q r.idx fun y => { y with faddr := BitVec.ofNat 48 (firstBad (s.part k) (bcDst c) (4 * S.len) true) })
          q r.idx stADDRESS
      else
        let x := shardOf s k S c
        let s := countNarrow (s.noteRead k S.addr.toNat (8 * S.len)) k q x.2
        let s := modStarted s q r.idx fun y => { y with work := .lacks (g.map fun m => (m, 0)), flush := y.flush || x.2.flush > 0 }
        g.foldl (fun s m => sendShard s k q r m x.1) s

/-- BCASTs that waited for a slot go on (R245). -/
def wakeBcasts (s : State) (k key : Nat) : State :=
  match tfind (s.part k).slots key with
  | none => s
  | some S =>
    let l := (queuesOf s k).flatMap fun q => ((s.queue q).started.filter fun r =>
      r.work = .bcastWait && slotKey (bcEpoch r.cmd.toNat) (bcSlot r.cmd.toNat) = key).map fun r => (q, r)
    l.foldl (fun s e => runBcast s k e.1 e.2 S) s

/-- A BCAST that starts (R245). -/
def startBcast (s : State) (k c : Nat) : State × Started :=
  if bcDst c % 64 ≠ 0 ∨ !ctrIn (s.part k) (bcCtr c) ∨ fld c 511 234 ≠ 0 then (s, collFail stINVALID)
  else (s, { work := .bcastWait })

/-- A BCAST that has just started goes on at once where its slot has closed or failed (R245). -/
def bcastNow (q : Qid) (s : State) (k : Nat) (r : Started) : State :=
  match tfind (s.part k).slots (slotKey (bcEpoch r.cmd.toNat) (bcSlot r.cmd.toNat)) with
  | some S => if S.st = .closed ∨ S.st = .failed then runBcast s k q.toNat r S else s
  | none => s

/-- BCAST (R245). -/
def execBcast (q : Qid) (s : State) : Host.Outcome State Fault Refusal :=
  outcome s (onCollThen s q 0x13 always startBcast (bcastNow q))

def ptSrc (c : Nat) : Nat := fld c 175 128
def ptDst (c : Nat) : Nat := fld c 223 176
def ptBytes (c : Nat) : Nat := fld c 255 224
def ptRank (c : Nat) : Nat := fld c 271 256
def ptSig (c : Nat) : Bool := bitOf c 272
def ptCtr (c : Nat) : Nat := fld c 286 273

/-- Parts of a PUT: 1 GiB each (R235). -/
def putParts (c : Nat) : Nat := (ptBytes c + 2 ^ 30 - 1) / 2 ^ 30

/-- Sends one part of a PUT (R235, R246). The role bit marks a PUT's messages (DESIGN CHOICE, log 36). -/
def sendPart (s : State) (k q : Nat) (r : Started) (part : Nat) : State :=
  let c := r.cmd.toNat
  let base := ptDst c + 2 ^ 30 * part
  let n := min (2 ^ 30) (ptBytes c - 2 ^ 30 * part)
  let tag (m : Msg) : Msg := { m with role := true }
  let s := (landMsgs base (s.load k (ptSrc c + 2 ^ 30 * part) n)).foldl (fun s m => sendFor s k q r (ptRank c) (tag m)) s
  sendFor s k q r (ptRank c)
    (named (tag { opk := 0x11, dst := BitVec.ofNat 48 base,
                  payload := lsealBytes n 0 (ptCtr c) (ptSig c && part + 1 = putParts c) }) q r.idx part)

/-- A PUT that starts (R246). -/
def startPut (s : State) (k c : Nat) : State × Started :=
  let P := s.part k
  if ptSrc c % 64 ≠ 0 ∨ ptDst c % 64 ≠ 0 ∨ ptBytes c = 0 ∨ ptBytes c % 64 ≠ 0 ∨ fld c 511 287 ≠ 0 then (s, collFail stINVALID)
  else if !P.job.any (fun J => rankValid J (ptRank c)) then (s, collFail stADDRESS)
  else if !readable P (ptSrc c) (ptBytes c) then (s, collFail stADDRESS (firstBad P (ptSrc c) (ptBytes c) false))
  else (s.noteRead k (ptSrc c) (ptBytes c), { work := .lacks ((List.range (putParts c)).map fun i => (ptRank c, i)) })

/-- A PUT that has just started sends its parts (R246). -/
def putNow (q : Qid) (s : State) (k : Nat) (r : Started) : State :=
  (List.range (putParts r.cmd.toNat)).foldl (fun s i => sendPart s k q.toNat r i) s

/-- PUT (R246). -/
def execPut (q : Qid) (s : State) : Host.Outcome State Fault Refusal :=
  outcome s (onCollThen s q 0x14 always startPut (putNow q))

/-- The buddy range that serves a rank at an address, and whether the address lies in its upper half, which holds the second
generation (12 R375; DESIGN CHOICE, log 62). -/
def buddyHalf (P : Part) (src : BitVec 16) (a : Nat) : Bool :=
  match P.regions.find? fun e => e.2.kind = .buddy && e.2.rank = src && inRange e.2.front e.2.npages (pageNo a) with
  | some e => decide (e.2.front.toNat + 2 ^ 20 * e.2.npages ≤ a)
  | none => false

/-- A generation that is written over, or found bad, is COMPLETE no more (12 R375, R382). -/
def dropGen (P : Part) (src : BitVec 16) (half : Bool) : Part :=
  { P with secRecs := P.secRecs.map fun x => if x.rank = src ∧ x.half = half then { x with complete := false } else x }

/-- LAND (R245, R246): written; one that may not be written is noted for its LSEAL (05 R126). A secured-state record is kept
beside the buddy range, and a page over an older generation ends that one's COMPLETE (12 R373, R375). -/
def execLand (k : Fin 16) (s : State) : Host.Outcome State Fault Refusal :=
  outcome s <| onMsg s k.val 0x10 (fun _ => true) fun s m =>
    let a := m.dst.toNat + 64 * m.off.toNat
    let n := 64 * m.count.toNat
    let note (f : Land → Land) (P : Part) : Part :=
      let same (L : Land) : Bool := L.src = m.src && L.base = m.dst
      let L := (P.land.find? same).getD { src := m.src, base := m.dst }
      { P with land := P.land.filter (!same ·) ++ [f L] }
    if n = 0 ∨ m.payload.length ≠ n then s
    else if !landable (s.part k.val) m a n then s.modPart k.val (note fun L => { L with bad := true })
    else if securing m ∧ secName m = secRecord then
      s.modPart k.val (note fun L => { L with units := tins m.off.toNat m.count.toNat (tdel L.units m.off.toNat), aside := m.payload })
    else
      let s := if securing m then s.modPart k.val fun P => dropGen P m.src (buddyHalf P m.src a) else s
      (s.store k.val a m.payload).modPart k.val (note fun L =>
        { L with units := tins m.off.toNat m.count.toNat (tdel L.units m.off.toNat) })

/-- What has landed from a sender at a base, as S32 elements with zeros where nothing has. -/
def landedElems (s : State) (k : Nat) (L : Land) : List Int :=
  let top := (L.units.map fun u => u.1 + u.2).foldl max 0
  let got (i : Nat) : Bool := L.units.any fun u => u.1 ≤ i / 16 ∧ i / 16 < u.1 + u.2
  (List.range (16 * top)).map fun i => if got i then sext 32 (s.loadNat k (L.base.toNat + 4 * i) 4) else 0

/-- Bytes landed. -/
def landedBytes (L : Land) : Nat := 64 * (L.units.map Prod.snd).foldl (· + ·) 0

/-- Signals a counter for a remote member: one outside the partition's range is dropped and counted (06 R184). -/
def remoteSignal (s : State) (k ctr n : Nat) : State × Bool :=
  if ctrIn (s.part k) ctr then (addCtr s k ctr n, true)
  else (s.modPart k fun P => { P with rsigDrop := satAdd 64 P.rsigDrop 1 }, false)

/-- A secured-state record from its image, and its image (12 Table 12.7). -/
def secRecOf (n : Nat) : SecRec :=
  { step := BitVec.ofNat 48 (bitsOf n 255 208), rank := BitVec.ofNat 16 (bitsOf n 207 192), fp := BitVec.ofNat 64 (bitsOf n 191 128),
    bytes := BitVec.ofNat 48 (bitsOf n 127 80), epoch := BitVec.ofNat 16 (bitsOf n 79 64), feed := BitVec.ofNat 4 (bitsOf n 63 60),
    holder := BitVec.ofNat 2 (bitsOf n 59 58), coFated := bitOf n 57, complete := bitOf n 56 }
def secRecImage (r : SecRec) : Nat :=
  r.step.toNat * 2 ^ 208 + r.rank.toNat * 2 ^ 192 + r.fp.toNat * 2 ^ 128 + r.bytes.toNat * 2 ^ 80 + r.epoch.toNat * 2 ^ 64
    + r.feed.toNat * 2 ^ 60 + r.holder.toNat * 2 ^ 58 + r.coFated.toNat * 2 ^ 57 + r.complete.toNat * 2 ^ 56

/-- The buddy stores the record of a copy, one for each half of the range: the two newest generations of each member (12 R373,
R375). -/
def storeSecRec (P : Part) (r : SecRec) : Part :=
  { P with secRecs := r :: P.secRecs.filter fun x => !(x.rank = r.rank && x.half = r.half) }

/-- A LACK for a securing PUT: the page is acknowledged, or goes again (12 R371, R373). -/
def drainLack (s : State) (k : Nat) (m : Msg) : State :=
  let ok : Bool := m.payload.getD 0 0 = 0
  let i := secName m
  let s := if ok then s else countColl s k cLandRetry
  s.modPart k fun P =>
    { P with drain := P.drain.map fun d =>
        if i = secRecord then (if ok then { d with recAck := true } else { d with recSent := false })
        else if i = secSnap then (if ok then { d with snapAck := true } else { d with snapSent := false })
        else if ok then { d with held := d.held.filter (· ≠ i) } else { d with sent := d.sent.filter (· ≠ i) } }

/-- An LSEAL taken: what landed is checked, noted and answered (R235, R245, R246). Code 2 says that bytes could not be
written, or that a PUT's counter is outside the partition's range, so that the command ends with ADDRESS (05 R126; 06 R184;
the code is a DESIGN CHOICE, log 36). -/
def takeLseal (k : Nat) (s : State) (m : Msg) : State :=
  let same (L : Land) : Bool := L.src = m.src && L.base = m.dst
  let L := ((s.part k).land.find? same).getD { src := m.src, base := m.dst }
  let a := leNat (slice m.payload 0 8)
  let b := leNat (slice m.payload 8 8) % 2 ^ 61
  let ok : Bool := !L.bad && (if m.role then landedBytes L = a else csum (landedElems s k L) = (a, b))
  let s := s.modPart k fun P => { P with land := P.land.filter (!same ·) }
  let s := if ok ∧ securing m ∧ secName m = secRecord then
      s.modPart k fun P => storeSecRec P { secRecOf (leNat (slice L.aside 0 32)) with half := buddyHalf P m.src m.dst.toNat } else s
  let e := if ok ∧ bitOf (m.payload.getD 18 0).toNat 0 then remoteSignal s k (leNat (slice m.payload 16 2)) 1 else (s, true)
  sendMsg e.1 k m.src.toNat none (echo m
    { opk := 0x12, slotId := m.slotId, epoch := m.epoch, role := m.role, exp := m.exp,
      payload := [if L.bad || (m.role && !e.2) then 2 else if ok then 0 else 1] })

/-- LSEAL (R235, R245, R246): verified against what has landed, the counter signalled, LACK returned. -/
def execLseal (k : Fin 16) (s : State) : Host.Outcome State Fault Refusal :=
  outcome s (onMsg s k.val 0x11 (fun _ => true) (takeLseal k.val))

/-- The BCAST or PUT a LACK answers. -/
def lackOf (s : State) (k : Nat) (m : Msg) : Option (Nat × Started) :=
  findCmd s k fun q r =>
    (match r.work with | .lacks l => l.contains (m.src.toNat, partOf m) | _ => false)
      && names m q r && isKind 4 (if m.role then 0x14 else 0x13) r.cmd.toNat

/-- LACK (R245, R246): the receiver is done, or everything is sent to it again; or it could not take it. -/
def execLack (k : Fin 16) (s : State) : Host.Outcome State Fault Refusal :=
  outcome s <| onMsg s k.val 0x12 (fun m => securing m || (lackOf s k.val m).isSome) fun s m =>
    if securing m then drainLack s k.val m
    else match lackOf s k.val m with
    | none => s
    | some (q, r) =>
      match r.work with
      | .lacks l =>
        if m.payload.getD 0 0 = 0 then
          let l := l.filter (· ≠ (m.src.toNat, partOf m))
          if l.isEmpty then endColl s q r.idx stOK else setWork s q r.idx (.lacks l)
        else if m.payload.getD 0 0 = 2 then endColl s q r.idx stADDRESS
        else
          let s := countColl s k.val cLandRetry
          let c := r.cmd.toNat
          if m.role then
            let o := 2 ^ 30 * partOf m
            sendPart (s.noteRead k.val (ptSrc c + o) (min (2 ^ 30) (ptBytes c - o))) k.val q r (partOf m)
          else match tfind (s.part k.val).slots (slotKey (bcEpoch c) (bcSlot c)) with
            | some S =>
              sendShard (s.noteRead k.val S.addr.toNat (8 * S.len)) k.val q r m.src.toNat (shardOf s k.val S c).1
            | none => endColl s q r.idx stDATA
      | _ => s

/-! ### Jersey transitions (R252) -/

/-- Every command with a message on a cleared connection ends with DATA_ERROR, as R248 has it (DEDUCED, log 42). -/
def clearConns (s : State) (k : Nat) : State :=
  let s := ((s.part k).conns.map Prod.fst).foldl (fun s r => failMsgs s k r) s
  s.modPart k fun P => { P with conns := [], reasm := [] }

/-- Whether a transition gives some rank another address: a member's rank changes (11 R335). -/
def moved (J J' : Job) : Bool := J.rank ≠ J'.rank || (List.range (jobSize J')).any fun r => rankEntry J r ≠ rankEntry J' r

/-- Steps 2 to 6 of Table 08.11 once the barrier is met; where a rank changes, a new key generation is in use from then on (11
R335). -/
def tryJersey (s : State) (k : Nat) : State :=
  match (s.part k).job, (s.part k).nextJob with
  | some J, some J' =>
    if !barrierMet s k J then s
    else
      let s := clearConns s k
      let s := s.modPart k fun P => (if moved J J' then deriveNow P else P)
      let s := s.modPart k fun P =>
        { P with job := some J', nextJob := none, silent := [], moment := P.moment + 1, heldEnd := P.moment + 1,
                 slots := P.slots.filter fun e => e.1 / 2 ^ 16 ≠ J.epoch.toNat }
      let s := answerHeld s k
      match findCmd s k (fun _ r => r.work = .jersey) with
      | some (q, r) => endColl s q r.idx stOK
      | none => s
  | _, _ => s

/-- A JERSEY that starts (R252). -/
def startJersey (s : State) (k c : Nat) : State × Started :=
  let a := fld c 175 128
  let new : BitVec 16 := BitVec.ofNat 16 (fld c 191 176)
  if a % 64 ≠ 0 ∨ !bodyClear c [(175, 128), (191, 176)] ∨ !(s.part k).job.any (fun J => new = J.epoch + 1) then
    (s, collFail stINVALID)
  else match readJob s k a new with
    | .error f => (noteJob s k a, collFail stADDRESS f)
    | .ok none => (noteJob s k a, collFail stINVALID)
    | .ok (some J) => ((noteJob s k a).modPart k fun P => { P with nextJob := some J }, { work := .jersey })

/-- JERSEY (R252). -/
def execJersey (q : Qid) (s : State) : Host.Outcome State Fault Refusal :=
  outcome s (onCollThen s q 0x18 always startJersey fun s k _ => tryJersey s k)

/-! ### Slots at the owner (R238 to R243) -/

/-- Every granted contributor, with its MBID and role. -/
def grantees (S : Slot) : List (Nat × MbRec) := S.granted

/-- Sends one kind to every granted contributor. -/
def tellGranted (s : State) (k key opk : Nat) (S : Slot) : State :=
  (grantees S).foldl (fun s g => sendMsg s k g.2.src.toNat none (slotMsg opk key g.1 g.2.role [])) s

/-- Sends one kind to every backup that was not granted (R240). -/
def tellBackups (s : State) (k key opk : Nat) (S : Slot) : State :=
  (List.range S.cmap.length).foldl (fun s i =>
    let taken := match tfind S.granted i with | some g => g.role | none => false
    if backupOf S i ≠ primaryOf S i ∧ !taken then sendMsg s k (backupOf S i) none (slotMsg opk key i true []) else s) s

/-- A slot that passes its check closes (R240). -/
def closeSlot (s : State) (k key : Nat) (S : Slot) : State :=
  let s := modSlot s k key fun S => { S with st := .closed, timer := false }
  let s := modHealth s k fun h => { h with gc1 := h.gc1 + S.sum1, gc2 := BitVec.ofNat 64 ((h.gc2.toNat + S.sum2.toNat) % mersenne) }
  let s := tellBackups (tellGranted s k key 0x06 S) k key 0x09 S
  tryJersey (wakeBcasts (addCtr s k S.doneCtr.toNat 1) k key) k

/-- Zero-fills a slot, where it may still be written (R240; 07 R207). -/
def zeroSlot (s : State) (k : Nat) (S : Slot) : State :=
  if writable (s.part k) S.addr.toNat (8 * S.len) then s.zeroFill k S.addr.toNat (8 * S.len) else s

/-- A slot is reset: zero-filled, its bits and sums cleared. After its fourth reset in the step it fails: FAILED takes the place
of CONFIRM, and of RELEASE, so that every CONTRIB of the slot ends (R240). -/
def resetSlot (s : State) (k key : Nat) (S : Slot) : State :=
  let n := S.resets + 1
  let s := modSlot (zeroSlot s k S) k key fun S =>
    { S with st := if n = 4 then .failed else .opened, resets := n, timer := S.timer && n ≠ 4, granted := [], sealed := [], sum1 := 0, sum2 := 0 }
  if n = 4 then
    let s := tellBackups (tellGranted (countColl s k cFailed) k key 0x0A S) k key 0x0A S
    tryJersey (wakeBcasts s k key) k
  else tellGranted s k key 0x07 S

/-- Checks a slot whose every MBID is sealed (R239, R240). -/
def checkSlot (s : State) (k key : Nat) (S : Slot) : State :=
  let ok := slotOk (imagesAt s k S.addr.toNat S.len) S.exp.toInt S.sum1.toNat S.sum2.toNat
  let s := s.noteRead k S.addr.toNat (8 * S.len)
  if ok then closeSlot s k key S else resetSlot (countColl s k cReset) k key S

/-- Units of a contribution to a slot. -/
def slotUnits (S : Slot) : Nat := (S.len + 2047) / 2048

/-- Seals an MBID whose SEAL and every unit have come (R238); the last seal brings the check. -/
def trySeal (s : State) (k key i : Nat) : State :=
  match tfind (s.part k).slots key with
  | none => s
  | some S =>
    match tfind S.granted i with
    | some g =>
      match g.sums with
      | some (c1, c2) =>
        if g.placed.length < slotUnits S ∨ S.sealed.contains i then s
        else
          let s := modSlot s k key fun S =>
            { S with sealed := S.sealed ++ [i], sum1 := S.sum1 + c1,
                     sum2 := BitVec.ofNat 64 ((S.sum2.toNat + c2.toNat) % mersenne),
                     st := if S.sealed.length + 1 = S.cmap.length then .check else S.st }
          let s := if S.arrEn then addCtr s k S.arrCtr.toNat 1 else s
          match tfind (s.part k).slots key with
          | some S => if S.st = .check then checkSlot s k key S else s
          | none => s
      | none => s
    | none => s

/-- The open slot, and the grant, that a DATA or SEAL is for (R238). -/
def grantFor (P : Part) (m : Msg) : Option (Slot × MbRec) :=
  match tfind P.slots (slotKey m.epoch.toNat m.slotId.toNat) with
  | none => none
  | some S =>
    match tfind S.granted m.mbid.toNat with
    | some g => if S.st = .opened ∧ g.src = m.src ∧ g.role = m.role then some (S, g) else none
    | none => none

/-- One element of a DATA packet, added where its slot may still be written (R238; 05 R126; 07 R207). -/
def addElem (s : State) (k a : Nat) (x e : Int) : State :=
  if writable (s.part k) a 8 then adder s k a fun v => s48Add v x e else s

/-- DATA (R238): each element by ADD32E, then PLACED. -/
def execData (k : Fin 16) (s : State) : Host.Outcome State Fault Refusal :=
  outcome s <| onMsg s k.val 0x03 (fun _ => true) fun s m =>
    let k := k.val
    let key := slotKey m.epoch.toNat m.slotId.toNat
    match grantFor (s.part k) m with
    | none => s
    | some (S, g) =>
      let o := m.off.toNat
      if g.placed.contains o ∨ o % 2048 ≠ 0 ∨ S.len ≤ o ∨ m.count.toNat ≠ min 2048 (S.len - o)
          ∨ m.payload.length ≠ 4 * m.count.toNat then s
      else
        let s := (intsOf m.payload).zipIdx.foldl (fun s e => addElem s k (S.addr.toNat + 8 * (o + e.2)) e.1 S.exp.toInt) s
        let s := modSlot s k key fun S => { S with granted := S.granted.map fun e =>
          if e.1 = m.mbid.toNat then (e.1, { e.2 with placed := e.2.placed ++ [o] }) else e }
        trySeal (sendMsg s k m.src.toNat none { slotMsg 0x04 key m.mbid.toNat m.role [] with off := m.off }) k key m.mbid.toNat

/-- SEAL (R238). -/
def execSeal (k : Fin 16) (s : State) : Host.Outcome State Fault Refusal :=
  outcome s <| onMsg s k.val 0x05 (fun _ => true) fun s m =>
    let k := k.val
    let key := slotKey m.epoch.toNat m.slotId.toNat
    match grantFor (s.part k) m with
    | none => s
    | some _ =>
      let c1 : BitVec 64 := BitVec.ofNat 64 (leNat (slice m.payload 0 8))
      let c2 : BitVec 64 := BitVec.ofNat 64 (leNat (slice m.payload 8 8) % 2 ^ 61)
      let s := modSlot s k key fun S => { S with granted := S.granted.map fun e =>
        if e.1 = m.mbid.toNat then (e.1, { e.2 with sums := some (c1, c2) }) else e }
      trySeal s k key m.mbid.toNat

/-- Calls the backup of every MBID that `p` picks (R242). -/
def callBackups (s : State) (k key : Nat) (S : Slot) (p : Nat → Bool) : State :=
  (List.range S.cmap.length).foldl (fun s i =>
    if p i ∧ backupOf S i ≠ primaryOf S i ∧ !S.called.contains i then
      sendMsg (modSlot s k key fun S => { S with called := S.called ++ [i] }) k (backupOf S i) none (slotMsg 0x08 key i true [])
    else s) s

/-- DEADLINE (R242). -/
def execDeadline (k : Fin 16) (epoch slot : BitVec 16) (s : State) : Host.Outcome State Fault Refusal :=
  outcome s <|
    let key := slotKey epoch.toNat slot.toNat
    match tfind (s.part k.val).slots key with
    | none => s
    | some S =>
      if s.boot.clocksOff ∨ !S.timer ∨ S.st ≠ .opened then s
      else
        let s := modSlot s k.val key fun S => { S with timer := false }
        callBackups s k.val key S fun i => (tfind S.granted i).isNone

/-- SEAL_TO (R243): the slot is reset and the stalled MBID's backup is called at once. -/
def execSealTo (k : Fin 16) (epoch slot mbid : BitVec 16) (s : State) : Host.Outcome State Fault Refusal :=
  outcome s <|
    let key := slotKey epoch.toNat slot.toNat
    match tfind (s.part k.val).slots key with
    | none => s
    | some S =>
      if s.boot.clocksOff ∨ S.st ≠ .opened ∨ (tfind S.granted mbid.toNat).isNone ∨ S.sealed.contains mbid.toNat then s
      else
        let s := resetSlot (countColl s k.val cSealTo) k.val key S
        match tfind (s.part k.val).slots key with
        | some S => if S.st = .opened then callBackups s k.val key S (· = mbid.toNat) else s
        | none => s

/-! ### SLOTOPEN (R230, R231) -/

def soAddr (c : Nat) : Nat := fld c 175 128
def soMap (c : Nat) : Nat := fld c 223 176
def soLen (c : Nat) : Nat := fld c 247 224
def soSlot (c : Nat) : Nat := fld c 263 248
def soNc (c : Nat) : Nat := fld c 279 264 + 1
def soEpoch (c : Nat) : Nat := fld c 303 288

/-- Validation: a status and its address (R229 to R231). -/
def soValidate (s : State) (k c : Nat) : BitVec 8 × Nat :=
  let P := s.part k
  match P.job with
  | none => (stINVALID, 0)
  | some J =>
    let key := slotKey (soEpoch c) (soSlot c)
    let used := (P.slots.filter fun e => e.1 ≠ key).foldl (fun t e => t + slotBytes e.2.cmap.length) 0
    if fld c 511 350 ≠ 0 ∨ soAddr c % 64 ≠ 0 ∨ soMap c % 64 ≠ 0 ∨ soLen c = 0 ∨ soLen c % 64 ≠ 0
        ∨ soEpoch c ≠ J.epoch.toNat ∨ !ctrIn P (fld c 333 320)
        ∨ (bitOf c 334 ∧ !ctrIn P (fld c 348 335))
        ∨ 2 ^ 21 * (slicesOf P).length < used + slotBytes (soNc c) then (stINVALID, 0)
    else if !readable P (soMap c) (4 * soNc c) then (stADDRESS, firstBad P (soMap c) (4 * soNc c) false)
    else if !writable P (soAddr c) (8 * soLen c) then (stADDRESS, firstBad P (soAddr c) (8 * soLen c) true)
    else if (List.range (soNc c)).all fun i =>
        let e := s.loadNat k (soMap c + 4 * i) 4
        e % 2 ^ 16 < jobSize J && e / 2 ^ 16 < jobSize J then (stOK, 0)
    else (stINVALID, 0)

/-- Opens the slot: zero-filled, bound to its epoch and step; held claims are answered (R230, R237). -/
def openSlot (s : State) (k c : Nat) : State :=
  let key := slotKey (soEpoch c) (soSlot c)
  let s := s.zeroFill k (soAddr c) (8 * soLen c)
  let S : Slot :=
    { addr := BitVec.ofNat 48 (soAddr c), len := soLen c, exp := BitVec.ofNat 8 (fld c 287 280), step := (s.part k).stepNo,
      cmap := (List.range (soNc c)).map fun i => BitVec.ofNat 32 (s.loadNat k (soMap c + 4 * i) 4),
      arrEn := bitOf c 334, arrCtr := BitVec.ofNat 14 (fld c 348 335), doneCtr := BitVec.ofNat 14 (fld c 333 320),
      timer := fld c 319 304 ≠ 0 }
  answerHeld (s.modPart k fun P => { P with slots := tins key S (tdel P.slots key) }) k

/-- A SLOTOPEN that starts: with IWIN its pages are promoted first (R230, R138). Once a JERSEY has been accepted the old epoch
takes no new slot (R252). -/
def startSlot (s : State) (k c : Nat) : State × Started :=
  let v := if epochClosed (s.part k) (soEpoch c) then (stINVALID, 0) else soValidate s k c
  let s := s.noteIf k (soMap c) (4 * soNc c)
  if v.1 ≠ stOK then (s, collFail v.1 v.2)
  else if bitOf c 349 ∧ soAddr c < 0xF00000000000 then withPages s (pagesOf (soAddr c) (8 * soLen c))
  else (openSlot s k c, {})

/-- A SLOTOPEN whose pages are near: it is validated again, and opens. -/
def finishSlot (s : State) (k q : Nat) (r : Started) : State :=
  let v := soValidate s k r.cmd.toNat
  let s := s.noteIf k (soMap r.cmd.toNat) (4 * soNc r.cmd.toNat)
  tryJersey (if v.1 ≠ stOK then endColl s q r.idx v.1 else endColl (openSlot s k r.cmd.toNat) q r.idx stOK) k

/-- SLOTOPEN (R230): with IWIN = 1 its pages are promoted first and the same row then opens the slot. -/
def execSlotopen (q : Qid) (s : State) : Host.Outcome State Fault Refusal :=
  outcome s <|
    let ready := (s.queue q.toNat).started.find? fun r => r.work = .iwin && isKind 4 0x11 r.cmd.toNat
    match ready, ownerOf s q.toNat with
    | some r, some k =>
      if s.boot.clocksOff ∨ (s.queue q.toNat).st = .resetting then s else finishSlot s k q.toNat r
    | _, _ => onCollThen s q 0x11 always startSlot (movePages q.toNat)

/-! ### LADD48 and RANKSET (R247, R248) -/

/-- Adds S48 images one by one in ascending order (R247). -/
def addImages (k src dst : Nat) (s : State) : Nat → Nat → State
  | _, 0 => s
  | i, n + 1 =>
    let a := src + 8 * i
    addImages k src dst (adder (s.noteRead k a 8) k (dst + 8 * i) fun v => s48Merge v (s48Of (s.loadNat k a 8))) (i + 1) n

/-- A LADD48 that starts: what it names is mapped and may be written, or nothing is added (R126, R247). -/
def startLadd (s : State) (k c : Nat) : State × Started :=
  let n := fld c 247 224
  let src := fld c 175 128
  let dst := fld c 223 176
  if src % 64 ≠ 0 ∨ dst % 64 ≠ 0 ∨ n = 0 ∨ !bodyClear c [(175, 128), (223, 176), (247, 224)] then (s, collFail stINVALID)
  else if !readable (s.part k) src (8 * n) then (s, collFail stADDRESS (firstBad (s.part k) src (8 * n) false))
  else if !writable (s.part k) dst (8 * n) then (s, collFail stADDRESS (firstBad (s.part k) dst (8 * n) true))
  else (addImages k src dst s 0 n, {})

/-- LADD48 (R247). -/
def execLadd48 (q : Qid) (s : State) : Host.Outcome State Fault Refusal := outcome s (onColl s q 0x16 always startLadd)

/-- RANKSET (R248). -/
def execRankset (q : Qid) (s : State) : Host.Outcome State Fault Refusal :=
  outcome s <| onColl s q 0x19 always fun s k c =>
    let a := fld c 175 128
    let r := fld c 191 176
    if a % 64 ≠ 0 ∨ !bodyClear c [(175, 128), (191, 176)] ∨ !(s.part k).job.any (fun J => r < jobSize J) then
      (s, collFail stINVALID)
    else if !readable (s.part k) a 32 then (s, collFail stADDRESS a)
    else if !rankClear (s.loadNat k a 32) then (s.noteRead k a 32, collFail stINVALID)
    else
      let e := rankOfImage (s.loadNat k a 32)
      let s := failMsgs (s.noteRead k a 32) k r
      (s.modPart k fun P =>
        { P with job := P.job.map fun J => { J with table := tset {} J.table r e }, conns := tdel P.conns r,
                 reasm := P.reasm.filter (fun x => x.src.toNat ≠ r), silent := P.silent.filter fun x => x.toNat ≠ r }, {})

/-! ### RSIGNAL (06 R184, R235) -/

/-- An RSIGNAL that starts (06 R184). -/
def startRsignal (s : State) (k c : Nat) : State × Started :=
  let u := unitOf (hdrClass c)
  if fld c 191 160 = 0 ∨ !bodyClear c [(141, 128), (159, 144), (191, 160)] ∨ (s.part k).job.isNone then (s, failed stINVALID u)
  else if !(s.part k).job.any (fun J => rankValid J (fld c 159 144)) then (s, failed stADDRESS u)
  else (s, { work := .rsignal (BitVec.ofNat 16 (fld c 159 144)), ukind := BitVec.ofNat 4 u })

/-- Sends the RSIG of an RSIGNAL that has just started (R235). -/
def sendRsig (q : Qid) (s : State) (k : Nat) (r : Started) : State :=
  let c := r.cmd.toNat
  sendFor s k q.toNat r (fld c 159 144)
    (named { opk := 0x16, payload := toLe 2 (fld c 141 128) ++ [0, 0] ++ toLe 4 (fld c 191 160) } q.toNat r.idx)

/-- RSIGNAL (06 R184). -/
def execRsignal (q : Qid) (s : State) : Host.Outcome State Fault Refusal :=
  outcome s (startThen s q.toNat (fun _ _ c => hdrKind c = 2) startRsignal (sendRsig q))

/-- An RSIG taken: added and answered (R184, R235). -/
def takeRsig (k : Nat) (s : State) (m : Msg) : State :=
  let e := remoteSignal s k (leNat (slice m.payload 0 2)) (leNat (slice m.payload 4 4))
  sendMsg e.1 k m.src.toNat none (echo m { opk := 0x17, payload := [if e.2 then 0 else 1] })

/-- RSIG (R235; 06 R184): added once, or dropped and counted. -/
def execRsig (k : Fin 16) (s : State) : Host.Outcome State Fault Refusal :=
  outcome s (onMsg s k.val 0x16 (fun _ => true) (takeRsig k.val))

/-- RSIG_ACK (R235). -/
def execRsigAck (k : Fin 16) (s : State) : Host.Outcome State Fault Refusal :=
  let pick (m : Msg) (q : Nat) (r : Started) : Bool := r.work = .rsignal m.src && names m q r
  outcome s <| onMsg s k.val 0x17 (fun m => (findCmd s k.val (pick m)).isSome) fun s m =>
    match findCmd s k.val (pick m) with
    | some (q, r) => endWork s q r.idx (if m.payload.getD 0 0 = 0 then stOK else stADDRESS)
    | none => s

/-! ### Gathers (R249, R250) -/

def fgDst (c : Nat) : Nat := fld c 175 128
def fgDstSc (c : Nat) : Nat := fld c 223 176
def fgM (c : Nat) : Nat := fld c 271 224
def fgMSc (c : Nat) : Nat := fld c 319 272
def fgFace (c : Nat) : Nat := fld c 367 320
def fgRank (c : Nat) : Nat := fld c 383 368
def fgRows (c : Nat) : Nat := fld c 407 384
def fgCols (c : Nat) : Nat := fld c 431 408
def fgFmt (c : Nat) : Nat := fld c 436 432
def fgCcw (c : Nat) : Nat := fld c 452 437
def fgAsync (c : Nat) : Bool := bitOf c 453

/-- Element and scale bytes of a gather. -/
def fgBytes (c : Nat) : Nat := fgRows c * fgCols c
def fgScBytes (c : Nat) : Nat := fgBytes c / groupOf (ccwMode (fgCcw c))

/-- An FGATHER that starts (R249, R250). -/
def startGather (s : State) (k c : Nat) : State × Started :=
  let P := s.part k
  if fgDst c % 64 ≠ 0 ∨ fgDstSc c % 64 ≠ 0 ∨ fgM c % 64 ≠ 0 ∨ fgMSc c % 64 ≠ 0 ∨ fld c 511 454 ≠ 0 ∨ fgCols c = 0
      ∨ fgCols c % 128 ≠ 0 ∨ !(fgFmt c = 0x01 ∨ fgFmt c = 0x06) ∨ !ccwOk (fgFmt c) (fgCcw c)
      ∨ groupOf (ccwMode (fgCcw c)) = 0 ∨ (!fgAsync c ∧ fgFace c ≠ P.stepNo.toNat) then (s, collFail stINVALID)
  else if !P.job.any (fun J => rankValid J (fgRank c)) then (s, collFail stADDRESS)
  else if !writable P (fgDst c) (fgBytes c) then (s, collFail stADDRESS (firstBad P (fgDst c) (fgBytes c) true))
  else if !writable P (fgDstSc c) (fgScBytes c) then (s, collFail stADDRESS (firstBad P (fgDstSc c) (fgScBytes c) true))
  else (s, { work := .gather 0 })

/-- Sends the GREQ of an FGATHER that has just started (R235, R249). -/
def sendGreq (q : Qid) (s : State) (k : Nat) (r : Started) : State :=
  sendFor s k q.toNat r (fgRank r.cmd.toNat)
    (named { opk := 0x13, payload := toLe 48 (r.cmd.toNat / 2 ^ 128) } q.toNat r.idx)

/-- FGATHER (R249, R250). -/
def execFgather (q : Qid) (s : State) : Host.Outcome State Fault Refusal :=
  outcome s (onCollThen s q 0x15 always startGather (sendGreq q))

/-- How an owner serves a request (R249). -/
inductive GServe where
  | hold
  | refuse (st : BitVec 8)
  | serve (back : Bool)
  deriving DecidableEq, Repr

/-- R249's cases on the owner's step number. -/
def gatherServe (P : Part) (c : Nat) : GServe :=
  let n := P.stepNo.toNat
  let used := pagesOf (fgM c) (4 * fgBytes c) ++ pagesOf (fgMSc c) (fgRows c)
  if n < fgFace c then .hold
  else if !(inFront P (fgM c) (4 * fgBytes c) && inFront P (fgMSc c) (fgRows c)) then .refuse stADDRESS
  else if fgFace c = n then .serve false
  else if fgFace c + 1 = n ∧ used.all (fun pg => !P.backWritten.contains (pageNo (backOf P (2 ^ 21 * pg)))) then .serve true
  else .refuse stGONE

/-- What a gather's conversion gives: element bytes, scale bytes, its events and the NaN groups written. -/
structure GRows where
  elems : Bytes := []
  scales : Bytes := []
  evt : Evt := {}
  nans : Nat := 0

/-- The rows of a face in the working-copy encoding (R198, R249). -/
def gatherRows (s : State) (k c : Nat) (back : Bool) : GRows :=
  let P := s.part k
  let num (a n : Nat) : Nat := leNat (if back then s.loadVia oldView k (backOf P a) n else s.load k a n)
  let g := groupOf (ccwMode (fgCcw c))
  let rows := (List.range (fgRows c)).map fun r =>
    let cw := num (fgMSc c + r) 1
    let vs := (List.range (fgCols c)).map fun i =>
      if cw = 0xFF then exactNan
      else exactOf (sext 32 (num (fgM c + 4 * (r * fgCols c + i)) 4)) ((cw : Int) - 127)
    (pieces g vs).map (encodeGroup 8)
  let gs := rows.flatten
  { elems := packElems 8 (gs.flatMap fun x => x.2.1.map (pat 8)), scales := gs.map fun x => BitVec.ofNat 8 x.1,
    evt := { gs.foldl (fun e x => evtAdd e x.2.2) ({} : Evt) with nanIn := 0 }, nans := gs.countP fun x => x.1 = 0xFF }

/-- The conversion's events are counted where the spec's counters can take them: NaN groups in the partition that writes them,
saturations and flushes on the queue of an FGATHER of this member itself; a remote queue hears of them through GEND's status
alone (DESIGN CHOICE, log 75). -/
def countGather (s : State) (k : Nat) (m : Msg) (g : GRows) : State :=
  let s := countNan s k g.nans
  let q := m.mbid.toNat + 2 ^ 16 * (m.count.toNat % 16)
  if (s.part k).job.any fun J => J.rank = m.src then
    modStarted (countEvt s k q g.evt) q m.off fun r => { r with sat := g.evt.sat > 0, flush := g.evt.flush > 0 }
  else s

/-- A message with converted rows names its command in SLOT_ID, MBID and EXP, as OFF and COUNT are in use (log 36). -/
def rowsFor (q : Nat) (idx : BitVec 24) (x : Msg) : Msg :=
  { x with opk := 0x14, slotId := idx.setWidth 16, mbid := BitVec.ofNat 16 q,
           exp := BitVec.ofNat 8 (q / 2 ^ 16 % 16 * 16 + idx.toNat / 2 ^ 16 % 16) }
def rowsNamed (m : Msg) (q : Nat) (r : Started) : Bool :=
  m.slotId = r.idx.setWidth 16 && m.mbid = BitVec.ofNat 16 q && m.exp = BitVec.ofNat 8 (q / 2 ^ 16 % 16 * 16 + r.idx.toNat / 2 ^ 16 % 16)

/-- Answers a gather request (R249); a saturation under STRICT ends it with RANGE, every row sent all the same (02 R47). -/
def answerGather (s : State) (k : Nat) (m : Msg) (how : GServe) : State :=
  let c := leNat m.payload * 2 ^ 128
  let end_ (s : State) (st : BitVec 8) : State :=
    sendMsg s k m.src.toNat none (echo m { opk := 0x15, payload := [st] })
  match how with
  | .hold => s.modPart k fun P => { P with greqs := P.greqs ++ [m] }
  | .refuse st => end_ (if st = stGONE then countColl s k cGone else s) st
  | .serve back =>
    let b := gatherRows s k c back
    let at_ (a : Nat) : Nat := if back then backOf (s.part k) a else a
    let s := (s.noteRead k (at_ (fgM c)) (4 * fgBytes c)).noteRead k (at_ (fgMSc c)) (fgRows c)
    let q := m.mbid.toNat + 2 ^ 16 * (m.count.toNat % 16)
    let s := (landMsgs (fgDst c) b.elems ++ landMsgs (fgDstSc c) b.scales).foldl (fun s x =>
      sendMsg s k m.src.toNat none (rowsFor q m.off x)) (countGather s k m b)
    end_ s (if ccwStrict (fgCcw c) && b.evt.sat > 0 then stRANGE else stOK)

/-- GREQ (R249): a held request whose face has come is served first, else the first request delivered. -/
def execGreq (k : Fin 16) (s : State) : Host.Outcome State Fault Refusal :=
  outcome s <|
    let P := s.part k.val
    if s.boot.clocksOff then s
    else match P.greqs.findIdx? (fun m => gatherServe P (leNat m.payload * 2 ^ 128) ≠ .hold) with
      | some i =>
        let m := P.greqs[i]?.getD {}
        answerGather (s.putPart k.val { P with greqs := P.greqs.eraseIdx i }) k.val m (gatherServe P (leNat m.payload * 2 ^ 128))
      | none => onMsg s k.val 0x13 (fun _ => true) fun s m =>
          answerGather s k.val m (gatherServe (s.part k.val) (leNat m.payload * 2 ^ 128))

/-- GHOLD_T: the hold of a request ends with DATA_ERROR (14 Table 14.13). -/
def execGholdT (k : Fin 16) (n : Nat) (s : State) : Host.Outcome State Fault Refusal :=
  outcome s <|
    let P := s.part k.val
    match P.greqs[n]? with
    | none => s
    | some m =>
      if s.boot.clocksOff then s
      else answerGather (s.putPart k.val { P with greqs := P.greqs.eraseIdx n }) k.val m (.refuse stDATA)

/-- The FGATHER a message is for. -/
def gatherOf (s : State) (k : Nat) (m : Msg) : Option (Nat × Started) :=
  findCmd s k fun q r => (match r.work with | .gather _ => true | _ => false) && fgRank r.cmd.toNat = m.src.toNat
    && (if m.opk = 0x14 then rowsNamed m q r else names m q r)

/-- GDATA (R249): converted rows are written, no byte past the gather's own; rows that may no longer be written end it with
ADDRESS (05 R126; 07 R207). -/
def execGdata (k : Fin 16) (s : State) : Host.Outcome State Fault Refusal :=
  outcome s <| onMsg s k.val 0x14 (fun m => (gatherOf s k.val m).isSome) fun s m =>
    match gatherOf s k.val m with
    | none => s
    | some (q, r) =>
      let c := r.cmd.toNat
      let len := if m.dst.toNat = fgDst c then fgBytes c else if m.dst.toNat = fgDstSc c then fgScBytes c else 0
      let o := 64 * m.off.toNat
      let b := m.payload.take (len - o)
      if b.isEmpty then s
      else if !writable (s.part k.val) (m.dst.toNat + o) b.length then
        endColl (modStarted s q r.idx fun x => { x with faddr := BitVec.ofNat 48 (firstBad (s.part k.val) (m.dst.toNat + o) b.length true) })
          q r.idx stADDRESS
      else
        match r.work with
        | .gather got => setWork (s.store k.val (m.dst.toNat + o) b) q r.idx (.gather (got + b.length))
        | _ => s

/-- GEND (R249): the FGATHER completes with the status it carries, once the rows it promises have come. -/
def execGend (k : Fin 16) (s : State) : Host.Outcome State Fault Refusal :=
  let ready (s : State) (m : Msg) : Bool :=
    match gatherOf s k.val m with
    | some (_, r) =>
      (m.payload.getD 0 0 ≠ 0 && m.payload.getD 0 0 ≠ stRANGE) || (match r.work with
        | .gather got => fgBytes r.cmd.toNat + fgScBytes r.cmd.toNat ≤ got
        | _ => false)
    | none => false
  outcome s <| onMsg s k.val 0x15 (ready s) fun s m =>
    match gatherOf s k.val m with
    | some (q, r) => endColl s q r.idx (m.payload.getD 0 0)
    | none => s

/-! ### The commit vote (R251) -/

/-- Axes of size greater than 1, in order. -/
def voteAxes (J : Job) : List Nat := (List.range 4).filter fun a => 1 < (axisSizes J).getD a 1

/-- The ranks that differ from this member on axis a alone, at the coordinates given. -/
def alongAxis (J : Job) (a : Nat) (cs : List Nat) : List Nat :=
  let c := coordsOf J J.rank.toNat
  cs.map fun x => rankAt J (c.set a x)

/-- Ranks whose words a collector awaits on an axis. -/
def awaited (J : Job) (a : Nat) : List Nat := alongAxis J a ((List.range ((axisSizes J).getD a 1 - 1)).map (· + 1))

/-- The members that this one passes the voted word on to: along the axes it collected, in reverse. -/
def voteTo (J : Job) (v : Vote) : List Nat := ((voteAxes J).take v.stage).reverse.flatMap (awaited J)

/-- Writes the word to OUT, ends the HVOTE, and passes the word on; with a rank among these whose entry is not VALID it ends with
ADDRESS (after Table 08.2). -/
def finishVote (s : State) (k : Nat) (v : Vote) (w : BitVec 64) (pass : Bool) : State :=
  match (s.part k).job with
  | none => s
  | some J =>
    let s := s.modPart k fun P => { P with vote := none }
    let l := if pass then voteTo J v else []
    let s := if writable (s.part k) v.out.toNat 8 then
        endColl (s.store k v.out.toNat (toLe 8 w.toNat)) v.qid.toNat v.idx (if l.all (rankValid J) then stOK else stADDRESS)
      else endColl s v.qid.toNat v.idx stADDRESS
    l.foldl (fun s r => sendMsg s k r none { opk := 0x21, payload := toLe 8 w.toNat }) s

/-- Goes through the stages as far as the words received allow (R251). -/
def voteGo (s : State) (k : Nat) (J : Job) (v : Vote) : Nat → State
  | 0 => s
  | f + 1 =>
    let axes := voteAxes J
    match axes[v.stage]? with
    | none => finishVote s k v v.word true
    | some a =>
      let c := coordsOf J J.rank.toNat
      if c.getD a 0 ≠ 0 then
        if !rankValid J (rankAt J (c.set a 0)) then
          endColl (s.modPart k fun P => { P with vote := none }) v.qid.toNat v.idx stADDRESS
        else
          let s := s.modPart k fun P => { P with vote := some { v with sent := true } }
          sendMsg s k (rankAt J (c.set a 0)) (some (v.qid, v.idx)) { opk := 0x20, payload := toLe 8 v.word.toNat }
      else if (awaited J a).all v.got.contains then voteGo s k J { v with stage := v.stage + 1, got := [] } f
      else s.modPart k fun P => { P with vote := some v }

/-- The bits of a health word that are not reserved; the others are ignored (R8, Table 07.11). -/
def voteBits (w : BitVec 64) : BitVec 64 := w &&& 0xFFFF0000000007FF

/-- An HVOTE that starts (R251). -/
def startVote (q : Qid) (s : State) (k c : Nat) : State × Started :=
  let P := s.part k
  let a := fld c 175 128
  let o := fld c 223 176
  if a % 64 ≠ 0 ∨ o % 64 ≠ 0 ∨ !bodyClear c [(175, 128), (223, 176), (239, 224)] then (s, collFail stINVALID)
  else if !readable P a 8 then (s, collFail stADDRESS a)
  else if !writable P o 8 then (s, collFail stADDRESS o)
  else
    let dl := if fld c 239 224 = 0 then P.dict.voteDl.toNat else fld c 239 224
    let v : Vote := { qid := q, idx := startIdx s q.toNat, word := voteBits (BitVec.ofNat 64 (s.loadNat k a 8)), stage := 0,
                      got := [], out := BitVec.ofNat 48 o, dl := dl }
    ((s.noteRead k a 8).modPart k fun P => { P with vote := some v }, { work := .vote })

/-- Goes as far as an HVOTE that has just started can (R251). -/
def voteFirst (s : State) (k : Nat) : State :=
  match (s.part k).job, (s.part k).vote with
  | some J, some v => voteGo s k J v 5
  | _, _ => s

/-- HVOTE (R251). -/
def execHvote (q : Qid) (s : State) : Host.Outcome State Fault Refusal :=
  outcome s (onCollThen s q 0x17 always (startVote q) fun s k _ => voteFirst s k)

/-- The axis whose words the vote in progress awaits. -/
def voteAwait (P : Part) : List Nat :=
  match P.job, P.vote with
  | some J, some v => if v.sent then [] else match (voteAxes J)[v.stage]? with | some a => awaited J a | none => []
  | _, _ => []

/-- A word with MISMATCH or ABSENT raised (Table 07.11). -/
def withMismatch (w : BitVec 64) : BitVec 64 := w ||| 0x200
def withAbsent (w : BitVec 64) : BitVec 64 := w ||| 0x400

/-- VOTE (R251). -/
def execVote (k : Fin 16) (s : State) : Host.Outcome State Fault Refusal :=
  outcome s <| onMsg s k.val 0x20 (fun m => (voteAwait (s.part k.val)).contains m.src.toNat
      && (s.part k.val).vote.any fun v => !v.got.contains m.src.toNat) fun s m =>
    match (s.part k.val).job, (s.part k.val).vote with
    | some J, some v =>
      let w : BitVec 64 := BitVec.ofNat 64 (leNat (slice m.payload 0 8))
      let x := v.word ||| (w &&& 0x7FF)
      let agrees := decide (w >>> 48 = v.word >>> 48)
      let x := if agrees then x else withMismatch x
      let s := if agrees then s else s.modPart k.val fun P => askSub P m.src false
      voteGo s k.val J { v with word := x, got := v.got ++ [m.src.toNat] } 5
    | _, _ => s

/-- VOTE_BC (R251). -/
def execVoteBc (k : Fin 16) (s : State) : Host.Outcome State Fault Refusal :=
  outcome s <| onMsg s k.val 0x21 (fun _ => (s.part k.val).vote.any fun v => v.sent) fun s m =>
    match (s.part k.val).vote with
    | some v => finishVote s k.val v (voteBits (BitVec.ofNat 64 (leNat (slice m.payload 0 8)))) true
    | none => s

/-- What the collective engine goes on with by itself: contributions that wait for credits, a Jersey transition whose barrier
has been met. -/
def collStep (s : State) (k : Nat) : State := tryJersey (pumpContribs s k) k

/-- The ranks whose words a vote awaited in vain do not answer (12 R368, R381). -/
def missing (P : Part) (ranks got : List Nat) : Part :=
  (ranks.filter fun r => !got.contains r).foldl (fun P r => unanswered P (BitVec.ofNat 16 r)) P

/-- The rank a member has sent its word to in a vote. -/
def collectorOf (J : Job) (v : Vote) : List Nat :=
  match (voteAxes J)[v.stage]? with
  | some a => [rankAt J ((coordsOf J J.rank.toNat).set a 0)]
  | none => []

/-- VOTE_DEADLINE (R251): the stage ends with ABSENT. -/
def execVoteDeadline (k : Fin 16) (s : State) : Host.Outcome State Fault Refusal :=
  outcome s <|
    match (s.part k.val).job, (s.part k.val).vote with
    | some J, some v =>
      if s.boot.clocksOff ∨ v.sent then s
      else voteGo (s.modPart k.val fun P => missing P (voteAwait P) v.got) k.val J
          { v with word := withAbsent v.word, stage := v.stage + 1, got := [] } 5
    | _, _ => s

/-- VOTE_BC_TIMEOUT (R251): the member's own word with ABSENT. -/
def execVoteBcTimeout (k : Fin 16) (s : State) : Host.Outcome State Fault Refusal :=
  outcome s <|
    match (s.part k.val).job, (s.part k.val).vote with
    | some J, some v =>
      if s.boot.clocksOff ∨ !v.sent then s
      else finishVote (s.modPart k.val fun P => missing P (collectorOf J v) []) k.val v (withAbsent v.word) false
    | _, _ => s

end Sys2Proof.Machine
end

