-- ==== Sys2Proof/Machine/Rolser.lean ====
section
/-! DEFINITION. The Rolser endpoint: frames, fragments, sessions, sequence numbers, responses and events (14 R410 to R420). -/

namespace Sys2Proof.Machine

open Sys2Proof

/-! ### Frames (R410, R411, R414) -/

/-- Message kinds (Table 14.3). -/
def rkHello : Nat := 0x01
def rkHelloR : Nat := 0x02
def rkAuth : Nat := 0x03
def rkAuthR : Nat := 0x04
def rkClose : Nat := 0x05
def rkRead : Nat := 0x10
def rkWrite : Nat := 0x12
def rkSubscribe : Nat := 0x14
def rkEvent : Nat := 0x16
def rkEventAck : Nat := 0x17
def rkPoll : Nat := 0x18
def rkAttest : Nat := 0x20
def rkKeyreq : Nat := 0x22
def rkKeyset : Nat := 0x24
def rkKeyload : Nat := 0x26

/-- Kinds a client sends (Table 14.3); POLL on a mailbox only. -/
def clientKind (mbox : Option Nat) (kind : Nat) : Bool :=
  [rkHello, rkAuth, rkClose, rkRead, rkWrite, rkSubscribe, rkEventAck, rkAttest, rkKeyreq, rkKeyset, rkKeyload].contains kind
    || (kind = rkPoll && mbox.isSome)

/-- Frame header (Table 14.1). -/
def rolHeader (sid seq kind frag nfrag len : Nat) : Bytes :=
  toLe 16 (sid * 2 ^ 96 + seq * 2 ^ 32 + kind * 2 ^ 24 + frag * 2 ^ 20 + nfrag * 2 ^ 16 + len)

/-- GCM nonce of a protected frame (R414): DIR 0 request, 1 response, 2 event. -/
def rolNonce (seq dir frag : Nat) : Bytes := toLe 8 seq ++ [BitVec.ofNat 8 dir, BitVec.ofNat 8 frag, 0, 0]

/-- The frames of a message, protected under a key if there is one (R411, R414). -/
def rolFrames (key : Option Bytes) (sid seq kind dir : Nat) (payload : Bytes) : List Bytes :=
  let per := if key.isSome then 2000 else 2016
  let ps := if payload = [] then [[]] else (pieces per payload).take 8
  ps.zipIdx.map fun e =>
    let h := rolHeader sid seq kind e.2 (ps.length - 1) e.1.length
    h ++ (match key with
      | some x => gcmSeal x (rolNonce seq dir e.2) h e.1
      | none => e.1)

/-- The UDP port of the Rolser protocol (09 R288). -/
def rolserUdp : Nat := 48721

/-- A Rolser frame leaves port M as a UDP packet to its client (09 R288). -/
def sendToPeer (peer : RolPeer) (s : State) (f : Bytes) : State :=
  if portUp s 16 then
    let ip := ipOf peer.v4 0 (toLe 16 s.rolser.mgmtAddr.toNat) (toLe 16 peer.addr.toNat) rolserUdp peer.udp.toNat f
    queueFrame s 16 (frameOf peer.mac s.rolser.mgmtMac 0 (if peer.v4 then 0x0800 else 0x86DD) ip)
  else s

/-- Puts frames where a client reads them (R315, R411): a mailbox takes one at a time, port M sends all. -/
def rolSend (s : State) (mbox : Option Nat) (peer : RolPeer) (fs : List Bytes) : State :=
  match mbox, fs with
  | none, fs => fs.foldl (sendToPeer peer) (s.setRolser { s.rolser with out := s.rolser.out ++ fs })
  | some d, f :: r =>
    raise (s.modMailbox d fun b =>
      { b with rsp := f, rspLen := BitVec.ofNat 16 f.length, frags := r, ready := true, busy := false, readyCnt := satAdd 32 b.readyCnt 1 }) (32 + d)
  | some _, [] => s

/-- A mailbox request that gets no response frees its mailbox (R411; for a discarded frame DESIGN CHOICE, log 46). -/
def freeBusy (s : State) (mbox : Option Nat) : State :=
  match mbox with
  | some d => s.modMailbox d fun b => { b with busy := false }
  | none => s

/-! ### Sessions (R412, R416) -/

def State.session (s : State) (sid : Nat) : Session := tget {} s.rolser.sessions sid
def hasSession (s : State) (sid : Nat) : Bool := (tfind s.rolser.sessions sid).isSome
def putSession (s : State) (sid : Nat) (S : Session) : State :=
  s.setRolser { s.rolser with sessions := tset {} s.rolser.sessions sid S }

/-- A session closes: its keys and every trace go (R416). -/
def closeSession (s : State) (sid : Nat) : State :=
  s.setRolser { s.rolser with
    sessions := tdel s.rolser.sessions sid,
    msgs := s.rolser.msgs.filter fun m => m.sid.toNat ≠ sid,
    frags := s.rolser.frags.filter fun m => m.sid.toNat ≠ sid }

/-- Closes the sessions a test picks. -/
def closeSessions (s : State) (f : Session → Bool) : State :=
  ((s.rolser.sessions.filter fun e => f e.2).map Prod.fst).foldl closeSession s

/-- Closes every session (R416). -/
def closeAllSessions (s : State) : State := closeSessions s fun _ => true

/-! ### Frames that arrive (R410, R411, R414, R417) -/

def rolBad (s : State) (mbox : Option Nat) : State :=
  freeBusy (s.setRolser { s.rolser with badFrame := satAdd 64 s.rolser.badFrame 1 }) mbox
def rolSeqDrop (s : State) (mbox : Option Nat) : State :=
  freeBusy (s.setRolser { s.rolser with seqDrop := satAdd 64 s.rolser.seqDrop 1 }) mbox

/-- A message that is complete waits its turn (R418); one more of a session whose request is in progress is dropped (R417). -/
def rolComplete (s : State) (m : RolMsg) : State :=
  if m.sid ≠ 0 ∧ s.rolser.msgs.any (fun x => x.sid = m.sid) then rolSeqDrop s m.mbox
  else s.setRolser { s.rolser with msgs := s.rolser.msgs ++ [m] }

/-- One fragment's payload joins its message (R411); a mailbox whose fragment is not the last is freed. -/
def rolFragment (s : State) (mbox : Option Nat) (peer : RolPeer) (sid seq kind frag nfrag : Nat) (p : Bytes) : State :=
  let same (x : Frag) : Bool := x.sid.toNat = sid && x.seq.toNat = seq && x.kind.toNat = kind && x.mbox = mbox
  let x := (s.rolser.frags.find? same).getD
    { sid := BitVec.ofNat 32 sid, seq := BitVec.ofNat 64 seq, kind := BitVec.ofNat 8 kind, mbox := mbox, peer := peer, nfrag := nfrag }
  let x := { x with parts := if x.parts.any (fun e => e.1 = frag) then x.parts else tins frag p x.parts }
  let s := s.setRolser { s.rolser with frags := s.rolser.frags.filter fun y => !same y }
  if x.parts.length = x.nfrag + 1 then
    rolComplete s { sid := x.sid, seq := x.seq, kind := x.kind, mbox := mbox, peer := x.peer, payload := (x.parts.map Prod.snd).flatten }
  else freeBusy (s.setRolser { s.rolser with frags := s.rolser.frags ++ [x] }) mbox

/-- A frame arrives by a mailbox, or by port M (none) from a client. -/
def rolArrives (s : State) (mbox : Option Nat) (peer : RolPeer) (b : Bytes) : State :=
  let h := leNat (b.take 16)
  let sid := fld h 127 96
  let seq := fld h 95 32
  let kind := fld h 31 24
  let frag := fld h 23 20
  let nfrag := fld h 19 16
  let len := fld h 15 0
  let S := s.session sid
  let sealed := hasSession s sid && S.opened
  let per := if sealed then 2000 else 2016
  let total := 16 + len + (if sealed then 16 else 0)
  if b.length < 16 ∨ 2032 < b.length ∨ b.length ≠ total ∨ 7 < nfrag ∨ nfrag < frag ∨ per < len
      ∨ (frag < nfrag ∧ len ≠ per) ∨ !clientKind mbox kind ∨ (sid = 0) ≠ (kind = rkHello) then rolBad s mbox
  else if sid = 0 then rolFragment s mbox peer sid seq kind frag nfrag (b.drop 16)
  else if !hasSession s sid ∨ S.mbox ≠ mbox ∨ (kind = rkAuth) = S.opened then freeBusy s mbox
  else if !sealed then rolFragment s mbox peer sid seq kind frag nfrag (b.drop 16)
  else
    match gcmOpen S.keyIn (rolNonce seq 0 frag) (b.take 16) (b.drop 16) with
    | some p => rolFragment s mbox peer sid seq kind frag nfrag p
    | none => freeBusy (s.setRolser { s.rolser with authFail := satAdd 64 s.rolser.authFail 1 }) mbox

/-- FRAGMENT_TIMEOUT (R411). -/
def execFragmentTimeout (sid : BitVec 32) (seq : BitVec 64) (s : State) : Host.Outcome State Fault Refusal :=
  .next (if s.boot.clocksOff then s
    else s.setRolser { s.rolser with frags := s.rolser.frags.filter fun x => x.sid ≠ sid || x.seq ≠ seq })

/-! ### Requests and responses (R417) -/

/-- Sends a response under the session's key and keeps it. -/
def rolReply (s : State) (sid kind : Nat) (payload : Bytes) : State :=
  let S := s.session sid
  let fs := rolFrames (some S.keyOut) sid S.lastSeq.toNat kind 1 payload
  rolSend (putSession s sid { S with kept := fs }) S.mbox S.peer fs

/-- Takes the message whose turn it is when it is of this kind, and the request when its SEQ is the next; a repeated SEQ
gets the kept response, another is dropped (R417, R418). -/
def onRequest (s : State) (kind : Nat) (f : State → Nat → Session → RolMsg → State) : State :=
  match s.rolser.msgs with
  | [] => s
  | m :: r =>
    if m.kind.toNat ≠ kind ∨ s.boot.clocksOff then s
    else
      let sid := m.sid.toNat
      let s := s.setRolser { s.rolser with msgs := r }
      let S := s.session sid
      if !hasSession s sid ∨ !S.opened then freeBusy s m.mbox
      else if m.seq = S.lastSeq + 1 then
        let S := { S with lastSeq := m.seq, kept := [] }
        f (putSession s sid S) sid S m
      else if m.seq = S.lastSeq then (if S.kept = [] then freeBusy s m.mbox else rolSend s m.mbox m.peer S.kept)
      else rolSeqDrop s m.mbox

/-- CLOSE (R416). -/
def execClose (s : State) : Host.Outcome State Fault Refusal :=
  .next <| onRequest s rkClose fun s sid _ m => freeBusy (closeSession s sid) m.mbox

/-- SESSION_IDLE_T (R416). -/
def execSessionIdleT (sid : BitVec 32) (s : State) : Host.Outcome State Fault Refusal :=
  .next (if s.boot.clocksOff ∨ !(s.session sid.toNat).opened then s else closeSession s sid.toNat)

/-- AUTH_TIMEOUT (R415): AUTH_R DENIED where it can be sent, on port M, and the attempt is gone. -/
def execAuthTimeout (sid : BitVec 32) (s : State) : Host.Outcome State Fault Refusal :=
  .next <|
    let S := s.session sid.toNat
    if s.boot.clocksOff ∨ !hasSession s sid.toNat ∨ S.opened then s
    else
      let s' := closeSession s sid.toNat
      if S.mbox.isNone then rolSend s' none S.peer (rolFrames (some S.keyOut) sid.toNat 0 rkAuthR 1 [0x02]) else s'

/-! ### Events (R420) -/

/-- Payload of an EVENT: flags, count, items. -/
def eventPayload (lost : Bool) (n : Nat) (items : Bytes) : Bytes := BitVec.ofNat 8 lost.toNat :: (toLe 2 n ++ items)

/-- A session sends an EVENT of n items; on a mailbox it queues, at most 64 (R420). -/
def sendEvent (s : State) (sid n : Nat) (items : Bytes) : State :=
  let S := s.session sid
  let no := S.evSeq + 1
  match S.mbox with
  | none =>
    let p := eventPayload S.lost n items
    rolSend (putSession s sid { S with evSeq := no, lost := false, events := S.events ++ [(no, p, 0)] }) none S.peer
      (rolFrames (some S.keyOut) sid no.toNat rkEvent 2 p)
  | some d =>
    let full := decide (64 ≤ S.events.length)
    let p := eventPayload (S.lost || full) n items
    raise (putSession s sid { S with evSeq := no, lost := false, events := (if full then S.events.drop 1 else S.events) ++ [(no, p, 0)] })
      (32 + d)

/-- EVENT_ACK (R420). -/
def execEventAck (s : State) : Host.Outcome State Fault Refusal :=
  .next <| onRequest s rkEventAck fun s sid S m =>
    let no : BitVec 64 := BitVec.ofNat 64 (leNat m.payload)
    freeBusy (putSession s sid { S with events := S.events.filter fun e => e.1 ≠ no }) m.mbox

/-- POLL (R420): the oldest queued EVENT; with none, an EVENT of no items (DESIGN CHOICE, log 46). -/
def execPoll (s : State) : Host.Outcome State Fault Refusal :=
  .next <| onRequest s rkPoll fun s sid S m =>
    let (e, S) := match S.events with
      | e :: r => (e, { S with events := r })
      | [] => ((S.evSeq + 1, eventPayload S.lost 0 [], 0), { S with evSeq := S.evSeq + 1, lost := false })
    let fs := rolFrames (some S.keyOut) sid e.1.toNat rkEvent 2 e.2.1
    rolSend (putSession s sid { S with kept := fs }) m.mbox m.peer fs

/-- EVENT_RESEND (R420): each unacknowledged EVENT goes again, up to 4 times, and is then dropped with LOST. -/
def execEventResend (sid : BitVec 32) (s : State) : Host.Outcome State Fault Refusal :=
  .next <|
    let S := s.session sid.toNat
    if s.boot.clocksOff ∨ !S.opened ∨ S.mbox.isSome then s
    else
      let keep := S.events.filter fun e => e.2.2 < 4
      let S' := { S with events := keep.map fun e => (e.1, e.2.1, e.2.2 + 1), lost := S.lost || decide (keep.length < S.events.length) }
      rolSend (putSession s sid.toNat S') none S.peer
        (keep.flatMap fun e => rolFrames (some S.keyOut) sid.toNat e.1.toNat rkEvent 2 e.2.1)

/-! ### Mailboxes (R315, R411) -/

/-- A write of MBX_REQ_LEN (R315). -/
def submitMailbox (s : State) (d : Nat) (len : Nat) : State :=
  let b := s.mailbox d
  if b.busy ∨ len = 0 ∨ 2032 < len then clCount s mbxOverrun 1
  else rolArrives (s.putMailbox d { b with busy := true }) (some d) {} ((List.range len).map fun i => tget 0 b.req i)

/-- A write of 1 to RSP_READY (R411): the next fragment of the response follows. -/
def clearReady (s : State) (d : Nat) : State :=
  let b := s.mailbox d
  if !b.ready then s
  else match b.frags with
    | [] => s.putMailbox d { b with ready := false }
    | f :: r => raise (s.putMailbox d { b with rsp := f, rspLen := BitVec.ofNat 16 f.length, frags := r, ready := true,
                                               readyCnt := satAdd 32 b.readyCnt 1 }) (32 + d)

/-- Whether a write through the Cerral window can arrive: the link is ACTIVE (R320) and clocks run. -/
def windowUp (s : State) : Bool := s.link.st = 2 && !s.boot.clocksOff

/-- MBX_REQ_LEN (R315). -/
def execMbxReqLen (m : Fin 17) (len : BitVec 64) (s : State) : Host.Outcome State Fault Refusal :=
  .next (if windowUp s then submitMailbox s m.val len.toNat else s)

/-- RSP_READY (R411). -/
def execRspReady (m : Fin 17) (s : State) : Host.Outcome State Fault Refusal :=
  .next (if windowUp s then clearReady s m.val else s)

end Sys2Proof.Machine
end

