-- ==== Sys2Proof/Machine/Storage.lean ====
section
/-! DEFINITION. Sealed chunks (11 R344, R345) and storage over RoCEv2 queue pairs (09 R282 to R287). The coding of packets is
that of the RoCEv2 standard the spec names (PRESUMED, log 18). -/

namespace Sys2Proof.Machine

open Sys2Proof

/-! ### Sealed chunks (11 Tables 11.8, 11.9) -/

/-- A key a partition seals with: the key, its generation, SEAL_ID and KIND (1 staging, 2 storage). -/
structure SealKey where
  key : Bytes
  gen : Nat
  id : Nat
  kind : Nat
  deriving DecidableEq, Repr

/-- Bytes 0 to 39 of a trailer (Table 11.9). -/
def trailerHead (x : SealKey) (ctr len idx obj : Nat) (last : Bool) : Bytes :=
  toLe 8 ctr ++ toLe 4 x.id ++ toLe 4 x.gen ++ toLe 1 x.kind ++ toLe 1 last.toNat ++ [0, 0] ++ toLe 4 len ++ toLe 8 idx ++ toLe 8 obj

/-- Seals one chunk: ciphertext and trailer (R344). -/
def sealChunk (x : SealKey) (ctr idx obj : Nat) (last : Bool) (p : Bytes) : Bytes :=
  let h := trailerHead x ctr p.length idx obj last
  let b := gcmSeal x.key (h.take 12) h p
  b.take p.length ++ h ++ b.drop p.length ++ List.replicate 200 0

/-- Chunks of n plaintext bytes. -/
def chunksOf (n : Nat) : Nat := (n + 65535) / 65536

/-- Sealed length of n plaintext bytes (R285). -/
def sealedLen (n : Nat) : Nat := n + 256 * chunksOf n

/-- Seals a byte string into chunks, with counters from `ctr` on. -/
def sealAll (x : SealKey) (ctr obj : Nat) (p : Bytes) : List Bytes :=
  (pieces 65536 p).zipIdx.map fun e => sealChunk x (ctr + e.2) e.2 obj (e.2 + 1 = chunksOf p.length) e.1

/-- The plaintext of chunk idx of a transfer when it passes R345: tag, reserved bytes, KIND, INDEX, OBJ and LAST. -/
def openChunk (x : SealKey) (idx obj : Nat) (last : Bool) (len : Nat) (b : Bytes) : Option Bytes :=
  let t := b.drop len
  let f (o n : Nat) : Nat := leNat (slice t o n)
  if b.length ≠ len + 256 ∨ f 16 1 ≠ x.kind ∨ f 17 1 ≠ last.toNat ∨ f 18 2 ≠ 0 ∨ f 20 4 ≠ len ∨ f 24 8 ≠ idx ∨ f 32 8 ≠ obj
      ∨ (t.drop 56).any (· ≠ 0) then none
  else gcmOpen x.key (t.take 12) (t.take 40) (b.take len ++ slice t 40 16)

/-- STORKEY of a partition. -/
def storSeal (P : Part) : Option SealKey :=
  P.keys.storKey.map fun key => { key := key, gen := P.keys.storGen.toNat, id := P.keys.sealId.toNat, kind := 2 }

/-- STAGEKEY of a partition. -/
def stageSeal (P : Part) : Option SealKey :=
  P.keys.stageKey.map fun key => { key := key, gen := P.keys.stageGen.toNat, id := P.keys.sealId.toNat, kind := 1 }

/-! ### RoCEv2 packets (R282; the standard's coding, log 18) -/

/-- Operation codes of the reliable-connection subset (Table 09.9): SEND and RDMA WRITE first, middle, last, only; RDMA READ
request; its responses first, middle, last, only; ACK or NAK; CNP. -/
def rcSendFirst : BitVec 8 := 0x00
def rcSendOnly : BitVec 8 := 0x04
def rcWriteFirst : BitVec 8 := 0x06
def rcWriteOnly : BitVec 8 := 0x0A
def rcReadRequest : BitVec 8 := 0x0C
def rcReadFirst : BitVec 8 := 0x0D
def rcReadOnly : BitVec 8 := 0x10
def rcAck : BitVec 8 := 0x11
def rcCnp : BitVec 8 := 0x81
def roceOps : List Nat := [0x00, 0x01, 0x02, 0x04, 0x06, 0x07, 0x08, 0x0A, 0x0C, 0x0D, 0x0E, 0x0F, 0x10, 0x11, 0x81]

/-- Whether an operation code carries an address header, or a syndrome. -/
def hasReth (op : BitVec 8) : Bool := op = rcWriteFirst || op = rcWriteOnly || op = rcReadRequest
def hasAeth (op : BitVec 8) : Bool := op = rcReadFirst || op = 0x0F || op = rcReadOnly || op = rcAck

/-- Syndromes: acknowledged; NAK for a sequence error; NAK for a remote access error. -/
def synAck : Nat := 0x1F
def synSeq : Nat := 0x60
def synAccess : Nat := 0x62

/-- Syndrome and message number. -/
def aethOf (syn : Nat) (msn : BitVec 24) : BitVec 32 := BitVec.ofNat 32 (syn * 2 ^ 24 + msn.toNat)

/-- The transport headers, payload and padding of a packet, without its invariant CRC. -/
def roceBytes (qpn : BitVec 24) (p : RocePkt) : Bytes :=
  let pad := (4 - p.payload.length % 4) % 4
  [p.op, BitVec.ofNat 8 (0x40 + 16 * pad), 0xFF, 0xFF, 0] ++ toBe 3 qpn.toNat ++ [if p.ack then 0x80 else 0] ++ toBe 3 p.psn.toNat
    ++ (if hasReth p.op then toBe 8 p.va.toNat ++ toBe 4 p.rkey.toNat ++ toBe 4 p.len.toNat else [])
    ++ (if hasAeth p.op then toBe 4 p.aeth.toNat else []) ++ (if p.op = rcCnp then List.replicate 16 0 else [])
    ++ p.payload ++ List.replicate pad 0

/-- The invariant CRC over an IP packet whose last 4 B are its place: the fields the network may change count as ones. -/
def icrcOf (v4 : Bool) (ip : Bytes) : Bytes :=
  let ihl := if v4 then (ip.getD 0 0).toNat % 16 * 4 else 40
  let gone (i : Nat) : Bool :=
    (if v4 then i = 1 || i = 8 || i = 10 || i = 11 else i = 1 || i = 2 || i = 3 || i = 7)
      || i = ihl + 6 || i = ihl + 7 || i = ihl + 12
  let body := (ip.take (ip.length - 4)).zipIdx.map fun e =>
    if gone e.2 then 0xFF else if !v4 && e.2 = 0 then e.1 ||| 0x0F else e.1
  toLe 4 (crc32 (List.replicate 8 0xFF ++ body)).toNat

/-- The IP packet of a RoCEv2 packet, with ECT(0), the partition's DSCP (R263) and its invariant CRC (R282). The UDP source port
is not stated (log 26). -/
def roceIp (P : Part) (q : Qp) (p : RocePkt) : Bool × Bytes :=
  let dst := toLe 16 q.peer.toNat
  let v4 := decide (dst.take 12 = mappedPrefix)
  let ip (crc : Bytes) : Bytes :=
    ipOf v4 (ectClass P.dict.dscp.toNat) (toLe 16 P.dict.addr.toNat) dst (Config.unstated 18 q.peerQpn.toNat % 65536) 4791 (roceBytes q.peerQpn p ++ crc)
  (v4, ip (icrcOf v4 (ip [0, 0, 0, 0])))

/-! ### Queue pairs (R286) -/

def State.qp (s : State) (k i : Nat) : Qp := tget {} (s.part k).qps i
def modQp (s : State) (k i : Nat) (f : Qp → Qp) : State := s.modPart k fun P => { P with qps := tmod {} P.qps i f }

/-- Sends a packet of a queue pair on its port (R286); with that port down nothing leaves. -/
def roceSend (s : State) (k i : Nat) (p : RocePkt) : State :=
  let q := s.qp k i
  if portUp s q.port then
    let e := roceIp (s.part k) q p
    sendFrame (s.modPart k fun P => { P with roceTx := P.roceTx ++ [{ qp := BitVec.ofNat 8 i, pkt := p }] }) k q.port
      (if e.1 then 0x0800 else 0x86DD) e.2
  else s

/-- Payload bytes of a packet (14 Table 14.14, PMTU). -/
def pmtuOf (q : Qp) : Nat := match q.pmtu.toNat with | 0 => 1024 | 1 => 2048 | _ => 4096

/-- Packets of n bytes: at least one. -/
def packetsOf (q : Qp) (n : Nat) : Nat := max 1 ((n + pmtuOf q - 1) / pmtuOf q)

/-- Sends packets that must be acknowledged: each takes its PSNs and is kept (R286). -/
def sendKept (s : State) (k i : Nat) (ps : List RocePkt) : State :=
  ps.foldl (fun s p =>
    let p := { p with psn := (s.qp k i).nextPsn }
    roceSend (modQp s k i fun q => { q with nextPsn := q.nextPsn + BitVec.ofNat 24 p.span, unacked := q.unacked ++ [p] }) k i p) s

/-- Numbers the pieces of a message as first, middle, last or only, from the code of its first. -/
def cutOps (first only : BitVec 8) (l : List Bytes) : List (BitVec 8 × Bytes) :=
  let n := l.length
  l.zipIdx.map fun e => (if n = 1 then only else if e.2 = 0 then first else if e.2 + 1 = n then first + 2 else first + 1, e.1)

/-- The packets of an RDMA WRITE; the last asks for an acknowledgement. -/
def writePkts (q : Qp) (va : BitVec 64) (rkey : BitVec 32) (cmd : Option (BitVec 20 × BitVec 24)) (b : Bytes) : List RocePkt :=
  let l := cutOps rcWriteFirst rcWriteOnly (pieces (pmtuOf q) b)
  l.zipIdx.map fun e =>
    { op := e.1.1, va := va, rkey := rkey, len := BitVec.ofNat 32 b.length, payload := e.1.2, cmd := cmd, ack := e.2 + 1 = l.length }

/-- PSN a is before PSN b. -/
def psnBefore (a b : BitVec 24) : Bool := a ≠ b && (b - a).toNat < 2 ^ 23

/-- A kept packet as go-back-N sends it again: a READ request asks for what has not come (Table 09.9). -/
def again (q : Qp) (p : RocePkt) : RocePkt :=
  if p.op = rcReadRequest then
    { p with psn := p.psn + BitVec.ofNat 24 p.got, va := p.va + BitVec.ofNat 64 (pmtuOf q * p.got),
             len := p.len - BitVec.ofNat 32 (pmtuOf q * p.got) }
  else p

/-- Go-back-N: every packet from PSN n on is sent again (R282). -/
def goBack (s : State) (k i : Nat) (n : BitVec 24) : State :=
  let q := s.qp k i
  (q.unacked.filter fun p => !psnBefore (p.psn + BitVec.ofNat 24 (p.span - 1)) n).foldl (fun s p => roceSend s k i (again q p)) s

/-- The transfer command on a queue pair that is not complete. -/
def onQp (i : Nat) (r : Started) : Bool :=
  match r.work with
  | .sxfer j | .expose j | .sread j _ _ _ _ => i = j
  | _ => false

/-- Every incomplete SXFER of a queue pair ends with DATA_ERROR (R285, R286), a securing drain's storage copy among them (12
R371). -/
def failQp (s : State) (k i : Nat) : State :=
  let l := (queuesOf s k).flatMap fun q => ((s.queue q).started.filter (onQp i)).map fun r => (q, r.idx)
  let s := modQp (l.foldl (fun s e => endAs s 5 e.1 e.2 stDATA) s) k i fun q => { q with bufs := [], unacked := [], writing := none, sending := [] }
  s.modPart k fun P => if P.dict.storeQp.toNat = i then { P with drain := P.drain.map fun d => { d with toStore := false } } else P

/-- The error state (R282, R285). -/
def qpError (s : State) (k i : Nat) : State := modQp (failQp s k i) k i fun q => { q with st := 2 }

/-- The port of queue pair i: number i mod m of the m storage ports that are up (R286). -/
def qpPort (s : State) (k i : Nat) : Nat :=
  let l := (storagePorts s (s.part k)).filter (portUp s)
  l.getD (i % l.length) 0

/-- When a queue pair's port goes down it moves to the next storage port that is up, in ascending order, and go-back-N resends
what was unacknowledged (R286). -/
def movePort (s : State) (k i : Nat) : State :=
  let q := s.qp k i
  match portAfter ((storagePorts s (s.part k)).filter (portUp s)) (some q.port) with
  | none => s
  | some p => goBack (modQp s k i fun q => { q with port := p }) k i (match q.unacked with | x :: _ => x.psn | [] => q.nextPsn)

/-- QP_OPEN (14 Table 14.14): RESET to RTS, with the first PSNs of its entries; nothing where PEER is 0 or the queue pair is not
RESET. -/
def openQp (s : State) (k i : Nat) : Option State :=
  let q := s.qp k i
  if q.peer = 0 ∨ q.st ≠ 0 then none
  else some (modQp s k i fun q => { q with st := 1, nextPsn := q.sqPsn, rxPsn := q.rqPsn, port := qpPort s k i })

/-- A queue pair at RESET: its entries stand (14 R425). -/
def resetQp (q : Qp) : Qp :=
  { peer := q.peer, peerQpn := q.peerQpn, sqPsn := q.sqPsn, rqPsn := q.rqPsn, pmtu := q.pmtu, ackTo := q.ackTo }

/-- QP_CLOSE (R286): its incomplete commands end with DATA_ERROR and it is RESET. -/
def closeQp (s : State) (k i : Nat) : State := modQp (failQp s k i) k i resetQp

/-- Whether a partition's entries may be acted on: RESERVED, ACTIVE or RESIZING (14 R452). -/
def entriesLive (P : Part) : Bool := P.st = .reserved || P.st = .active || P.st = .resizing

/-- QP_OPEN (R286). -/
def execQpOpen (k : Fin 16) (qp : BitVec 8) (s : State) : Host.Outcome State Fault Refusal :=
  outcome s (if s.boot.clocksOff ∨ !entriesLive (s.part k.val) then s else (openQp s k.val qp.toNat).getD s)

/-- QP_CLOSE (R286). -/
def execQpClose (k : Fin 16) (qp : BitVec 8) (s : State) : Host.Outcome State Fault Refusal :=
  outcome s (if s.boot.clocksOff ∨ !entriesLive (s.part k.val) then s else closeQp s k.val qp.toNat)

/-! ### SXFER (R285, R287, Table 09.10) -/

def sxDaddr (c : Nat) : Nat := fld c 175 128
def sxBytes (c : Nat) : Nat := fld c 207 176
def sxQp (c : Nat) : Nat := fld c 215 208
def sxOp (c : Nat) : Nat := fld c 217 216
def sxAccess (c : Nat) : Bool := bitOf c 218
def sxRaddr (c : Nat) : Nat := fld c 287 224
def sxRkey (c : Nat) : Nat := fld c 319 288
def sxObj (c : Nat) : Nat := fld c 383 320

/-- Whether the device writes its memory for an SXFER. -/
def sxWrites (c : Nat) : Bool := sxOp c = 0 || (sxOp c = 2 && sxAccess c)

/-- Validation (R285): status and address. Without STORKEY nothing can be sealed or opened: INVALID (log 43). -/
def sxValidate (s : State) (k c : Nat) : BitVec 8 × Nat :=
  let P := s.part k
  if fld c 511 384 ≠ 0 ∨ fld c 223 219 ≠ 0 ∨ sxOp c = 3 ∨ sxDaddr c % 256 ≠ 0 ∨ sxRaddr c % 256 ≠ 0 ∨ sxBytes c = 0
      ∨ sxBytes c % 256 ≠ 0 ∨ (sxAccess c ∧ sxOp c ≠ 2) ∨ (s.qp k (sxQp c)).st ≠ 1 ∨ P.keys.storKey.isNone then (stINVALID, 0)
  else if !(if sxWrites c then writable P (sxDaddr c) (sxBytes c) else readable P (sxDaddr c) (sxBytes c)) then
    (stADDRESS, firstBad P (sxDaddr c) (sxBytes c) (sxWrites c))
  else (stOK, 0)

/-- Runs an SXFER row. -/
def onSxfer (s : State) (q : Qid) (op : Nat → Bool) (f : State → Nat → Nat → SealKey → State × Started)
    (g : State → Nat → Started → State) : State :=
  startThen s q.toNat (fun _ _ c => isKind 3 0x12 c && op (sxOp c)) (fun s k c =>
    let v := sxValidate s k c
    if v.1 ≠ stOK then (s, failed v.1 5 v.2)
    else match storSeal (s.part k) with
      | some x => f s k c x
      | none => (s, failed stINVALID 5)) g

/-- OBJ a device seals under: 0 names the step number (Table 09.10). -/
def sealObj (P : Part) (c : Nat) : Nat := if sxObj c = 0 then P.stepNo.toNat else sxObj c

/-- Plaintext length of chunk i of n bytes. -/
def chunkLen (n i : Nat) : Nat := min 65536 (n - 65536 * i)

/-- Bytes of sealed chunk i of n plaintext bytes. -/
def sealedChunk (n i : Nat) : Nat := chunkLen n i + 256

/-- Bytes that a queue pair's READ requests have asked for and not received. -/
def readInFlight (q : Qp) : Nat :=
  (q.unacked.map fun p => if p.op = rcReadRequest then p.len.toNat - pmtuOf q * p.got else 0).foldl (· + ·) 0

/-- Asks for further chunks of one SXFER READ, `per` in a request, while at most 1 MiB is in flight on its queue pair (R285). -/
def askChunks (s : State) (k q : Nat) (idx : BitVec 24) : Nat → State
  | 0 => s
  | fuel + 1 =>
    match (s.queue q).started.find? fun r => r.idx = idx with
    | none => s
    | some r =>
      match r.work with
      | .sread i per asked got b =>
        let c := r.cmd.toNat
        let m := min per (chunksOf (sxBytes c) - asked)
        let n := sealedLen (min (65536 * (asked + m)) (sxBytes c)) - sealedLen (65536 * asked)
        if m = 0 ∨ 2 ^ 20 < readInFlight (s.qp k i) + n ∨ (s.queue q).st = .resetting then s
        else
          let s := modStarted s q idx fun r => { r with work := .sread i per (asked + m) got b }
          askChunks (sendKept s k i
            [{ op := rcReadRequest, ack := true, va := BitVec.ofNat 64 (sxRaddr c + 65792 * asked), rkey := BitVec.ofNat 32 (sxRkey c),
               len := BitVec.ofNat 32 n, span := packetsOf (s.qp k i) n, cmd := some (BitVec.ofNat 20 q, idx) }]) k q idx fuel
      | _ => s

/-- Every SXFER READ of a queue pair asks for what now fits (R285). -/
def pumpReads (s : State) (k i : Nat) : State :=
  ((queuesOf s k).flatMap fun q => ((s.queue q).started.filter (onQp i)).map fun r => (q, r.idx)).foldl
    (fun s e => askChunks s k e.1 e.2 16) s

/-- Takes bytes of a READ response: the chunk that has come whole is verified and its plaintext written; the last one ends the
command (R284, R285, R345). The pages may have become a front face meanwhile: the write then faults (07 R207). -/
def takeReadChunk (s : State) (k : Nat) (e : BitVec 20 × BitVec 24) (p : Bytes) : State :=
  match (s.queue e.1.toNat).started.find? fun r => r.idx = e.2 with
  | none => s
  | some r =>
    match r.work, storSeal (s.part k) with
    | .sread i per asked got b, some x =>
      let c := r.cmd.toNat
      let n := sxBytes c
      let b := b ++ p
      if b.length < sealedChunk n got then modStarted s e.1.toNat e.2 fun r => { r with work := .sread i per asked got b }
      else
        let a := sxDaddr c + 65536 * got
        match openChunk x got (sxObj c) (got + 1 = chunksOf n) (chunkLen n got) (b.take (sealedChunk n got)) with
        | none => endAs s 5 e.1.toNat e.2 stDATA
        | some p =>
          if !writable (s.part k) a p.length then
            endAs (modStarted s e.1.toNat e.2 fun r => { r with faddr := BitVec.ofNat 48 (firstBad (s.part k) a p.length true) })
              5 e.1.toNat e.2 stADDRESS
          else
            let s := s.store k a p
            if got + 1 = chunksOf n then endAs s 5 e.1.toNat e.2 stOK
            else modStarted s e.1.toNat e.2 fun r => { r with work := .sread i per asked (got + 1) (b.drop (sealedChunk n got)) }
    | _, _ => s

/-- Takes the bytes of a packet of a READ response; the packet may end one chunk and hold a short last one whole. -/
def takeReadBytes (s : State) (k : Nat) (e : BitVec 20 × BitVec 24) (p : Bytes) : State :=
  takeReadChunk (takeReadChunk s k e p) k e []

/-- SXFER READ (R285): its first requests go out, `per` + 1 chunks asked for in each (log 81); the responses come as frames. -/
def execSxferRead (q : Qid) (per : Fin 15) (s : State) : Host.Outcome State Fault Refusal :=
  outcome s <| onSxfer s q (fun o => o = 0 ∨ o = 3) (fun s _ c _ => (s, { work := .sread (sxQp c) (per.val + 1) 0 0 [] }))
    fun s k r => askChunks s k q.toNat r.idx 16

/-- The sealed bytes of an SXFER WRITE go out under its own name (R285). -/
def sendWrite (q : Qid) (s : State) (k : Nat) (r : Started) : State :=
  let P := s.part k
  let c := r.cmd.toNat
  let n := sxBytes c
  match storSeal P with
  | none => s
  | some x =>
    let b := (sealAll x P.keys.storCtr.toNat (sealObj P c) (s.load k (sxDaddr c) n)).flatten
    let s := (s.noteRead k (sxDaddr c) n).modPart k fun P =>
      { P with keys := { P.keys with storCtr := P.keys.storCtr + BitVec.ofNat 64 (chunksOf n) } }
    sendKept s k (sxQp c) (writePkts (s.qp k (sxQp c)) (BitVec.ofNat 64 (sxRaddr c)) (BitVec.ofNat 32 (sxRkey c)) (some (q, r.idx)) b)

/-- SXFER WRITE (R285): the sealed chunks go out; the command ends with the target's acknowledgement of the last packet. -/
def execSxferWrite (q : Qid) (s : State) : Host.Outcome State Fault Refusal :=
  outcome s (onSxfer s q (· = 1) (fun s _ c _ => (s, { work := .sxfer (sxQp c) })) (sendWrite q))

/-- The EXPOSE request (Table 09.11). -/
def exposeRequest (rkey : Bytes) (token len : Nat) (acc : Bool) : Bytes :=
  toLe 8 0 ++ rkey ++ toLe 4 token ++ toLe 8 len ++ toLe 1 acc.toNat ++ List.replicate 7 0

/-- The view is registered under a fresh remote key, and one SEND goes to the target (R287). -/
def sendExpose (q : Qid) (s : State) (k : Nat) (r : Started) : State :=
  let c := r.cmd.toNat
  let n := sxBytes c
  let (key, s) := s.draw 4
  let P := s.part k
  let b : RBuf :=
    { rkey := BitVec.ofNat 32 (leNat key), addr := BitVec.ofNat 48 (sxDaddr c), len := sealedLen n, plain := n,
      write := sxAccess c, base := P.keys.storCtr, obj := BitVec.ofNat 64 (if sxAccess c then sxObj c else sealObj P c),
      qid := q, token := BitVec.ofNat 32 (hdrSeq c) }
  let s := if sxAccess c then s
    else s.putPart k { P with keys := { P.keys with storCtr := P.keys.storCtr + BitVec.ofNat 64 (chunksOf n) } }
  sendKept (modQp s k (sxQp c) fun q => { q with bufs := q.bufs ++ [b] }) k (sxQp c)
    [{ op := rcSendOnly, ack := true, payload := exposeRequest key (hdrSeq c) (sealedLen n) (sxAccess c), cmd := some (q, r.idx) }]

/-- EXPOSE (R287). -/
def execExpose (q : Qid) (s : State) : Host.Outcome State Fault Refusal :=
  outcome s (onSxfer s q (· = 2) (fun s _ c _ => (s, { work := .expose (sxQp c) })) (sendExpose q))

/-! ### The target's accesses (R283, R287) -/

/-- The EXPOSE a buffer belongs to, while it is incomplete. -/
def bufCmd (s : State) (i : Nat) (b : RBuf) : Option Started :=
  (s.queue b.qid.toNat).started.find? fun r => r.work = .expose i && hdrSeq r.cmd.toNat = b.token.toNat

/-- The live buffer under a remote key. -/
def bufOf (s : State) (k i : Nat) (rkey : BitVec 32) : Option RBuf :=
  if (s.qp k i).st ≠ 1 then none else (s.qp k i).bufs.find? fun b => b.rkey = rkey && (bufCmd s i b).isSome

/-- Answers the request whose PSN is expected, and expects the one n packets on. -/
def answerReq (s : State) (k i n syn : Nat) : State :=
  let q := s.qp k i
  let done := decide (syn = synAck)
  roceSend (modQp s k i fun q =>
      { q with rxPsn := q.rxPsn + BitVec.ofNat 24 n, msn := if done then q.msn + 1 else q.msn }) k i
    { op := rcAck, psn := q.rxPsn + BitVec.ofNat 24 (n - 1), aeth := aethOf syn (if done then q.msn + 1 else q.msn) }

/-- An access outside the registered buffers: counted, and NAKed as a remote access error (R283). -/
def denyRoce (s : State) (k i n : Nat) : State := answerReq (countXfer s k roceDenied) k i n synAccess

/-- The command of a buffer ends; its key is invalid from then on (R287). -/
def endExpose (s : State) (k i : Nat) (b : RBuf) (st : BitVec 8) : State :=
  let s := match bufCmd s i b with
    | some r => endAs s 5 b.qid.toNat r.idx st
    | none => s
  modQp s k i fun q => { q with bufs := q.bufs.filter fun x => x.rkey ≠ b.rkey }

/-- The sealed bytes of a view the target reads (R287): chunk INDEX under counter base + INDEX. -/
def viewBytes (s : State) (k : Nat) (b : RBuf) : Bytes :=
  match storSeal (s.part k) with
  | some x => (sealAll x b.base.toNat b.obj.toNat (s.load k b.addr.toNat b.plain)).flatten
  | none => []

/-- The responses to a READ of these bytes, from PSN n on. -/
def readResponses (q : Qp) (n : BitVec 24) (b : Bytes) : List RocePkt :=
  (cutOps rcReadFirst rcReadOnly (if b = [] then [[]] else pieces (pmtuOf q) b)).zipIdx.map fun e =>
    { op := e.1.1, psn := n + BitVec.ofNat 24 e.2, aeth := aethOf synAck (q.msn + 1), payload := e.1.2 }

/-- Serves an RDMA READ request of the target whose PSN is n (R283, R287). -/
def serveRdmaRead (s : State) (k i : Nat) (n : BitVec 24) (rkey : BitVec 32) (raddr : BitVec 64) (len : BitVec 32) : State :=
  let span := packetsOf (s.qp k i) len.toNat
  match bufOf s k i rkey with
  | some b =>
    if b.write ∨ b.len < raddr.toNat + len.toNat then denyRoce s k i span
    else
      let lo := raddr.toNat / 65792 * 65536
      let hi := min b.plain ((raddr.toNat + len.toNat + 65791) / 65792 * 65536)
      let ps := readResponses (s.qp k i) n (slice (viewBytes s k b) raddr.toNat len.toNat)
      let s := modQp (s.noteRead k (b.addr.toNat + lo) (hi - lo)) k i fun q =>
        if n = q.rxPsn then { q with rxPsn := q.rxPsn + BitVec.ofNat 24 span, msn := q.msn + 1 } else q
      ps.foldl (fun s p => roceSend s k i p) s
  | none => denyRoce s k i span

/-- RDMA_READ (R283, R287): the target's next request. -/
def execRdmaRead (k : Fin 16) (qp : BitVec 8) (rkey : BitVec 32) (raddr : BitVec 64) (len : BitVec 32) (s : State) :
    Host.Outcome State Fault Refusal :=
  outcome s (if s.boot.clocksOff then s else serveRdmaRead s k.val qp.toNat (s.qp k.val qp.toNat).rxPsn rkey raddr len)

/-- The bytes of chunk i of a view once all have come. -/
def heldChunk (b : RBuf) (i : Nat) : Option Bytes :=
  let n := chunkLen b.plain i + 256
  let w := b.held.filter fun e => 65792 * i ≤ e.1 ∧ e.1 < 65792 * i + n
  if w.length = n then some (w.map Prod.snd) else none

/-- Puts bytes among the held ones; a byte sent again replaces what was held. -/
def holdBytes (h : List (Nat × Byte)) (a : Nat) (d : Bytes) : List (Nat × Byte) :=
  (h.filter fun e => e.1 < a) ++ (d.zipIdx.map fun e => (a + e.2, e.1)) ++ (h.filter fun e => a + d.length ≤ e.1)

/-- Verifies and writes the chunks that have come whole (R287); a chunk that fails ends the command with DATA_ERROR (R345), one
that may not be written any more with ADDRESS (07 R207). -/
def takeChunks (s : State) (k : Nat) (b : RBuf) : State × RBuf × BitVec 8 :=
  match storSeal (s.part k) with
  | none => (s, b, stDATA)
  | some x =>
    (List.range (chunksOf b.plain)).foldl (fun (a : State × RBuf × BitVec 8) j =>
      let (s, b, st) := a
      if st ≠ stOK ∨ b.done.contains j then a
      else match heldChunk b j with
        | none => a
        | some h =>
          let a := b.addr.toNat + 65536 * j
          match openChunk x j b.obj.toNat (j + 1 = chunksOf b.plain) (chunkLen b.plain j) h with
          | none => (s, b, stDATA)
          | some p =>
            if !writable (s.part k) a p.length then (s, b, stADDRESS)
            else (s.store k a p, { b with done := b.done ++ [j], held := b.held.filter fun e => e.1 / 65792 ≠ j }, stOK)) (s, b, stOK)

/-- Bytes of an RDMA WRITE reach the buffer under a remote key: the state, or none where the access is outside it (R283, R287). -/
def serveRdmaWrite (s : State) (k i : Nat) (rkey : BitVec 32) (raddr : BitVec 64) (data : Bytes) : Option State :=
  match bufOf s k i rkey with
  | some b =>
    if !b.write ∨ b.len < raddr.toNat + data.length then none
    else
      let e := takeChunks s k { b with held := holdBytes b.held raddr.toNat data }
      some (if e.2.2 = stOK then
          modQp e.1 k i fun q => { q with bufs := q.bufs.map fun x => if x.rkey = b.rkey then e.2.1 else x }
        else endExpose e.1 k i e.2.1 e.2.2)
  | none => none

/-- RDMA_WRITE (R283, R287): the target's next request, whole. -/
def execRdmaWrite (k : Fin 16) (qp : BitVec 8) (rkey : BitVec 32) (raddr : BitVec 64) (data : Bytes) (s : State) :
    Host.Outcome State Fault Refusal :=
  outcome s <|
    let i := qp.toNat
    let n := packetsOf (s.qp k.val i) data.length
    if s.boot.clocksOff then s
    else match serveRdmaWrite s k.val i rkey raddr data with
      | some s => answerReq s k.val i n synAck
      | none => denyRoce s k.val i n

/-- The SEND that ends an exchange (R287). -/
def serveSend (s : State) (k i : Nat) (token status : BitVec 32) : State :=
  match (s.qp k i).bufs.find? fun b => b.token = token && (bufCmd s i b).isSome with
  | none => s
  | some b =>
    let all := (List.range (chunksOf b.plain)).all b.done.contains
    endExpose s k i b (if status = 0 ∧ (!b.write ∨ all) then stOK else stDATA)

/-- SEND (R287): the target's next request. -/
def execSend (k : Fin 16) (qp : BitVec 8) (token status : BitVec 32) (s : State) : Host.Outcome State Fault Refusal :=
  outcome s <|
    if s.boot.clocksOff ∨ (s.qp k.val qp.toNat).st ≠ 1 then s
    else answerReq (serveSend s k.val qp.toNat token status) k.val qp.toNat 1 synAck

/-! ### Acknowledgements, loss and congestion (R282, R285) -/

/-- A command none of whose packets is unacknowledged any more, and that waits for nothing else, ends (R285). -/
def settleWrites (s : State) (k i : Nat) : State :=
  ((queuesOf s k).flatMap fun q => ((s.queue q).started.filter fun r => r.work = .sxfer i).map fun r => (q, r.idx)).foldl
    (fun s e =>
      if (s.qp k i).unacked.any fun p => p.cmd = some (BitVec.ofNat 20 e.1, e.2) then s else endAs s 5 e.1 e.2 stOK) s

/-- An ACK acknowledges every packet up to its PSN; a READ request is acknowledged by its responses alone. -/
def takeRoceAck (s : State) (k i : Nat) (n : BitVec 24) : State :=
  settleWrites (modQp s k i fun q =>
    { q with retries := 0, unacked := q.unacked.filter fun p => p.op = rcReadRequest || psnBefore n p.psn }) k i

/-- A READ response that is the next of the oldest request: it acknowledges what went before, and its bytes are taken; any other
is discarded, and go-back-N asks again (R282, R285). -/
def takeResponse (s : State) (k i : Nat) (n : BitVec 24) (b : Bytes) : State :=
  match (s.qp k i).unacked.find? fun p => p.op = rcReadRequest with
  | none => s
  | some r =>
    if n ≠ r.psn + BitVec.ofNat 24 r.got then s
    else
      let step (p : RocePkt) : Option RocePkt :=
        if p.psn = r.psn then (if p.got + 1 = p.span then none else some { p with got := p.got + 1 })
        else if psnBefore p.psn r.psn then none else some p
      let s := modQp s k i fun q => { q with retries := 0, unacked := q.unacked.filterMap step }
      let s := settleWrites s k i
      let s := match r.cmd with | some e => takeReadBytes s k e b | none => s
      pumpReads s k i

/-- Everything unacknowledged from PSN n on goes again, at most 7 times without progress (R282). -/
def retryFrom (s : State) (k i : Nat) (n : BitVec 24) : State :=
  if 7 ≤ (s.qp k i).retries then qpError s k i
  else goBack (modQp s k i fun q => { q with retries := q.retries + 1 }) k i n

/-- ROCE_NAK (R282, R285): a NAK other than for a sequence error, which go-back-N answers. -/
def execRoceNak (k : Fin 16) (qp : BitVec 8) (s : State) : Host.Outcome State Fault Refusal :=
  outcome s (if s.boot.clocksOff ∨ (s.qp k.val qp.toNat).st ≠ 1 then s else qpError s k.val qp.toNat)

/-- LOCAL_ACK_TIMEOUT (R282): go-back-N, and the error state after 7 retries. -/
def execLocalAckTimeout (k : Fin 16) (qp : BitVec 8) (s : State) : Host.Outcome State Fault Refusal :=
  outcome s <|
    let q := s.qp k.val qp.toNat
    match q.unacked with
    | [] => s
    | p :: _ => if s.boot.clocksOff ∨ q.st ≠ 1 then s else retryFrom s k.val qp.toNat p.psn

/-- A congestion notification halves the rate (R282). -/
def takeCnp (s : State) (k i : Nat) : State := modQp s k i fun q => { q with rate := q.rate + 1 }

/-- CNP (R282). -/
def execCnp (k : Fin 16) (qp : BitVec 8) (s : State) : Host.Outcome State Fault Refusal :=
  outcome s (if s.boot.clocksOff ∨ (s.qp k.val qp.toNat).st ≠ 1 then s else takeCnp s k.val qp.toNat)

/-- RATE_RECOVERY (R282): one halving is undone (the amount per period is not stated; DESIGN CHOICE, log 44). -/
def execRateRecovery (k : Fin 16) (qp : BitVec 8) (s : State) : Host.Outcome State Fault Refusal :=
  outcome s (if s.boot.clocksOff then s else modQp s k.val qp.toNat fun q => { q with rate := q.rate - 1 })

/-! ### RoCEv2 packets that arrive (R282, R283) -/

/-- A packet from its bytes, without padding and invariant CRC. -/
def rocePkt (b : Bytes) : RocePkt :=
  let op := b.getD 0 0
  let pad := (b.getD 1 0).toNat / 16 % 4
  let o := if hasReth op then 28 else 12
  let o := if hasAeth op then o + 4 else o
  { op := op, psn := BitVec.ofNat 24 (beNat (slice b 9 3)), ack := (b.getD 8 0).toNat ≥ 128,
    va := if hasReth op then BitVec.ofNat 64 (beNat (slice b 12 8)) else 0,
    rkey := if hasReth op then BitVec.ofNat 32 (beNat (slice b 20 4)) else 0,
    len := if hasReth op then BitVec.ofNat 32 (beNat (slice b 24 4)) else 0,
    aeth := if hasAeth op then BitVec.ofNat 32 (beNat (slice b 12 4)) else 0,
    payload := (b.take (b.length - 4 - pad)).drop o }

/-- An acknowledgement of the packet received, where it asks for one. -/
def ackReq (s : State) (k i : Nat) (p : RocePkt) (last : Bool) : State :=
  let s := modQp s k i fun q => { q with rxPsn := q.rxPsn + 1, msn := if last then q.msn + 1 else q.msn }
  if p.ack then roceSend s k i { op := rcAck, psn := p.psn, aeth := aethOf synAck (s.qp k i).msn } else s

/-- A request of the target with the PSN expected (R283, R287). -/
def takeRequest (s : State) (k i : Nat) (p : RocePkt) : State :=
  let q := s.qp k i
  let last := decide (p.op = 0x02 ∨ p.op = rcSendOnly ∨ p.op = 0x08 ∨ p.op = rcWriteOnly)
  if p.op = rcReadRequest then serveRdmaRead s k i p.psn p.rkey p.va p.len
  else if p.op.toNat < 0x06 then
    let b := (if p.op = rcSendFirst ∨ p.op = rcSendOnly then [] else q.sending) ++ p.payload
    let s := modQp s k i fun q => { q with sending := if last then [] else b }
    let s := if last then serveSend s k i (BitVec.ofNat 32 (leNat (b.take 4))) (BitVec.ofNat 32 (leNat (slice b 4 4))) else s
    ackReq s k i p last
  else
    let w := if hasReth p.op then some (p.rkey, p.va) else q.writing
    match w with
    | none => denyRoce s k i 1
    | some (rkey, va) =>
      match serveRdmaWrite s k i rkey va p.payload with
      | none => denyRoce (modQp s k i fun q => { q with writing := none }) k i 1
      | some s =>
        let next := if last then none else some (rkey, va + BitVec.ofNat 64 p.payload.length)
        ackReq (modQp s k i fun q => { q with writing := next }) k i p last

/-- A request that has come before: a READ is served again, any other acknowledged again. -/
def takeAgain (s : State) (k i : Nat) (p : RocePkt) : State :=
  if p.op = rcReadRequest then serveRdmaRead s k i p.psn p.rkey p.va p.len
  else roceSend s k i { op := rcAck, psn := (s.qp k i).rxPsn - 1, aeth := aethOf synAck (s.qp k i).msn }

/-- A request that comes ahead of the one expected: one NAK for a sequence error. -/
def takeAhead (s : State) (k i : Nat) : State :=
  if (s.qp k i).naked then s
  else roceSend (modQp s k i fun q => { q with naked := true }) k i
    { op := rcAck, psn := (s.qp k i).rxPsn, aeth := aethOf synSeq (s.qp k i).msn }

/-- A packet of the subset on a queue pair that is open. -/
def takeRoce (s : State) (k i : Nat) (p : RocePkt) : State :=
  let q := s.qp k i
  let syn := p.aeth.toNat / 2 ^ 24
  if p.op = rcCnp then takeCnp s k i
  else if p.op = rcAck then
    if syn / 32 = 0 then takeRoceAck s k i p.psn
    else if syn = synSeq then retryFrom (takeRoceAck s k i (p.psn - 1)) k i p.psn
    else qpError s k i
  else if rcReadFirst.toNat ≤ p.op.toNat then takeResponse s k i p.psn p.payload
  else if p.psn = q.rxPsn then takeRequest (modQp s k i fun q => { q with naked := false }) k i p
  else if psnBefore p.psn q.rxPsn then takeAgain s k i p
  else takeAhead s k i

/-- A CE mark is answered by a CNP, at most one per 50 µs (R282). -/
def answerCe (s : State) (k i : Nat) : State :=
  if (s.qp k i).cnpAt.any fun t => s.now.toNat < t + 5000 then s
  else roceSend (modQp s k i fun q => { q with cnpAt := some s.now.toNat }) k i { op := rcCnp }

/-- A RoCEv2 packet arrives in an IP packet (R282): one whose invariant CRC fails is discarded, one outside the subset is counted
and breaks its queue pair. -/
def roceArrives (s : State) (k : Nat) (u : Udp) (ip : Bytes) : State :=
  let b := u.payload
  let qpn := beNat (slice b 5 3)
  let base := 0x10000 + 256 * k
  let i := qpn - base
  let mine := decide (base ≤ qpn ∧ qpn < base + 256) && (s.qp k i).st = 1
  let len := (if u.v4 then (ip.getD 0 0).toNat % 16 * 4 else 40) + 8 + b.length
  if b.length < 16 ∨ icrcOf u.v4 (ip.take len) ≠ b.drop (b.length - 4) then s
  else if !roceOps.contains (b.getD 0 0).toNat then
    let s := countXfer s k roceUnsupported
    if mine then qpError s k i else s
  else if !mine ∨ u.src ≠ toLe 16 (s.qp k i).peer.toNat then s
  else takeRoce (if u.ce then answerCe s k i else s) k i (rocePkt b)

end Sys2Proof.Machine
end

