-- ==== Sys2Proof/Machine/Ethernet.lean ====
section
/-! DEFINITION. The Ethernet ports and their MACs (09 R256 to R268, R288; 12 R364; 13 Table 13.4). -/

namespace Sys2Proof.Machine

open Sys2Proof

/-! ### Counters and times -/

/-- Port counters in the order of P.20 to P.2C (14 Table 14.9). -/
def pcFcsErr : Nat := 0
def pcRunt : Nat := 1
def pcAborted : Nat := 2
def pcOversize : Nat := 3
def pcPauseDrop : Nat := 4
def pcCtrlLimit : Nat := 5
def pcTxUnderrun : Nat := 6
def pcFecCorr : Nat := 7
def pcFecUncorr : Nat := 8
def pcLinkDown : Nat := 9
def pcStepEvents : Nat := 10
def pcLpiEntries : Nat := 11
def pcFilterDrop : Nat := 12

/-- Adds to a port counter, which stops at 2^64 - 1 (R265). -/
def countPortBy (s : State) (p i n : Nat) : State := s.modPort p fun x => { x with counters := bump64 x.counters i n }
def countPort (s : State) (p i : Nat) : State := countPortBy s p i 1

/-- Seconds of AONCLK (10 ns ticks; Table 09.6). -/
def nowSec (s : State) : Nat := s.now.toNat / 100000000

/-! ### Receive (R261 to R263) -/

/-- Destination address, VLAN tag (0 for none) and type of a frame. -/
def frameDst (f : Bytes) : Nat := beNat (f.take 6)
def frameVlan (f : Bytes) : Nat := if be2 f 12 = 0x8100 then be2 f 14 else 0
def frameType (f : Bytes) : Nat := if be2 f 12 = 0x8100 then be2 f 16 else be2 f 12
def frameBody (f : Bytes) : Bytes := (f.take (f.length - 4)).drop (if be2 f 12 = 0x8100 then 18 else 14)

/-- Whether the FCS of a frame holds. -/
def fcsOk (f : Bytes) : Bool := leNat (f.drop (f.length - 4)) = (crc32 (f.take (f.length - 4))).toNat

/-- Broadcast and the LLDP group address (R261). -/
def macBroadcast : Nat := 0xFFFFFFFFFFFF
def macLldp : Nat := 0x0180C200000E

/-- Partition whose filter entry an address is, on a scale-out port (Table 09.2). -/
def filterPart (s : State) (p dst : Nat) : Option Nat :=
  if p = 16 then none else allParts.find? fun k => (s.part k).st ≠ .free && (s.part k).dict.mac.toNat = dst

/-- Whether an address is one of entries 16 and 17, or of 18 and 19 (Table 09.2). -/
def filterMgmt (s : State) (p dst : Nat) : Bool :=
  (p = 16 && s.rolser.mgmtMac.toNat = dst)
    || [16, 17].any fun i => match tfind (s.port p).filters i with | some (e, a) => e && a.toNat = dst | none => false
def filterSpare (s : State) (p dst : Nat) : Bool :=
  [18, 19].any fun i => match tfind (s.port p).filters i with | some (e, a) => e && a.toNat = dst | none => false

/-- A frame for the control complex (R262). -/
def toControl (s : State) (p : Nat) (big : Bool) (f : Bytes) : State :=
  s.modPort p fun x => { x with ctrlRx := x.ctrlRx ++ [(big, f)] }

/-- Broadcast, LLDP and spare-entry frames: at most 10,000 a second (R261). -/
def toControlLimited (s : State) (p : Nat) (big : Bool) (f : Bytes) : State :=
  if 10000 ≤ (s.port p).ctrlRate then countPort s p pcCtrlLimit
  else toControl (s.modPort p fun x => { x with ctrlRate := x.ctrlRate + 1 }) p big f

/-- An IPv6 frame of neighbour discovery: ICMPv6 types 133 to 137 (the standard's; PRESUMED, log 41). -/
def isDiscovery (t : Nat) (b : Bytes) : Bool :=
  t = 0x86DD && b.getD 6 0 = 58 && 133 ≤ (b.getD 40 0).toNat && (b.getD 40 0).toNat ≤ 137

/-- The Rolser packet of a frame. -/
def rolserIn (t : Nat) (b : Bytes) : Option Udp := (ipIn t b).filter fun u => u.dport = rolserUdp

/-- The client a frame comes from. -/
def peerOf (f : Bytes) (u : Udp) : RolPeer :=
  { mac := BitVec.ofNat 48 (beNat (slice f 6 6)), v4 := u.v4, addr := BitVec.ofNat 128 (leNat u.src), udp := BitVec.ofNat 16 u.sport }

/-- A frame accepted by port M: Rolser at the endpoint's own address, everything else for the control complex, broadcast, LLDP and
spare-entry frames under R261's limit; before a session is open only Rolser, ARP, neighbour discovery and LLDP (R288). -/
def toPortM (s : State) (big limited : Bool) (f : Bytes) : State :=
  let t := frameType f
  let b := frameBody f
  let rol := rolserIn t b
  let admitted := rol.isSome || t = 0x0806 || t = 0x88CC || isDiscovery t b || s.rolser.sessions.any fun e => e.2.opened
  if !admitted then s
  else if limited then toControlLimited s 16 big f
  else match rol with
    | some u => if big ∨ !u.sumOk ∨ u.frag then (if big then toControl s 16 big f else s) else rolArrives s none (peerOf f u) u.payload
    | none => toControl s 16 big f

/-- A frame of partition k (R262, R263, R269, R282). -/
def toPartition (s : State) (p k : Nat) (big : Bool) (f : Bytes) : State :=
  let P := s.part k
  if frameVlan f ≠ (tget (0 : BitVec 16) P.dict.vlan p).toNat then s.modPart k fun P => countFrame P p 4 1
  else
    let s := s.modPart k fun P => countFrame (countFrame P p 2 1) p 3 f.length
    if big then countXfer s k xOversize
    else
      match ipIn (frameType f) (frameBody f) with
      | none => s
      | some u =>
        if u.frag ∨ !u.sumOk then s
        else if u.dport = s.xft.udp.toNat then s.modPart k fun P => { P with ethRx := P.ethRx ++ [(p, f)] }
        else if u.dport = 4791 then roceArrives s k u (frameBody f)
        else s

/-- What the MAC does with a frame (R261, R262). -/
def macReceive (s : State) (p : Nat) (f : Bytes) (aborted : Bool) : State :=
  if aborted then countPort s p pcAborted
  else if f.length < 64 then countPort s p pcRunt
  else if !fcsOk f then countPort s p pcFcsErr
  else if frameType f = 0x8808 then countPort s p pcPauseDrop
  else
    let dst := frameDst f
    let max := (s.port p).maxFrame.toNat
    let big := decide (max < f.length)
    let g := if big then f.take max else f
    let mark (s : State) : State := if big then countPort s p pcOversize else s
    match filterPart s p dst with
    | some k => toPartition (mark s) p k big g
    | none =>
      if filterMgmt s p dst then (if p = 16 then toPortM (mark s) big false g else toControl (mark s) p big g)
      else if filterSpare s p dst ∨ dst = macBroadcast ∨ dst = macLldp then
        (if p = 16 then toPortM (mark s) big true g else toControlLimited (mark s) p big g)
      else countPort s p pcFilterDrop

/-- RECEIVE_FRAME (R261 to R263): `frame` from destination address to FCS, and how it came in (R257, R265). -/
def execReceiveFrame (port : Fin 17) (frame : Bytes) (rx : RxNote) (s : State) : Host.Outcome State Fault Refusal :=
  .next <|
    let p := port.val
    if s.boot.clocksOff ∨ !portUp s p then s
    else macReceive (countPortBy (countPortBy s p pcFecCorr rx.corrected.toNat) p pcFecUncorr rx.uncorrectable.toNat) p frame rx.aborted

/-! ### ARP, neighbour discovery, LLDP (R260, R266, R268; formats of the published standards, log 41) -/

/-- Takes the first control frame of a port that `sel` picks. -/
def takeControl (s : State) (p : Nat) (sel : Bytes → Bool) : Option (Bytes × State) :=
  let l := (s.port p).ctrlRx
  match l.findIdx? fun e => sel e.2 with
  | none => none
  | some i => some ((l[i]?.getD (false, [])).2, s.modPort p fun x => { x with ctrlRx := x.ctrlRx.eraseIdx i })

/-- An ARP request, or an IPv6 neighbour solicitation. -/
def isArpRequest (f : Bytes) : Bool := frameType f = 0x0806 && be2 (frameBody f) 6 = 1
def isSolicit (f : Bytes) : Bool := frameType f = 0x86DD && (frameBody f).getD 6 0 = 58 && (frameBody f).getD 40 0 = 135

/-- The address asked for, as 16 B (an IPv4 address mapped). -/
def askedAddr (f : Bytes) : Bytes :=
  if isArpRequest f then mappedPrefix ++ slice (frameBody f) 24 4 else slice (frameBody f) 48 16

/-- An ARP reply. -/
def arpReply (mac : BitVec 48) (f : Bytes) : Bytes :=
  let b := frameBody f
  [0, 1, 8, 0, 6, 4, 0, 2] ++ toBe 6 mac.toNat ++ slice b 24 4 ++ slice b 8 10

/-- A neighbour advertisement, solicited and overriding. -/
def advert (mac : BitVec 48) (f : Bytes) : Bytes :=
  let b := frameBody f
  let me := slice b 48 16
  let to_ := slice b 8 16
  let body := [0x60, 0, 0, 0] ++ me ++ [2, 1] ++ toBe 6 mac.toNat
  let sum := inetSum (me ++ to_ ++ toBe 4 32 ++ [0, 0, 0, 58, 136, 0, 0, 0] ++ body)
  toBe 4 (6 * 2 ^ 28) ++ toBe 2 32 ++ [58, 255] ++ me ++ to_ ++ [136, 0] ++ toBe 2 sum ++ body

/-- The reply's type and body. -/
def solicitReply (mac : BitVec 48) (f : Bytes) : Nat × Bytes :=
  if isArpRequest f then (0x0806, arpReply mac f) else (0x86DD, advert mac f)

/-- Whether a port carries a partition's traffic (R258, R260). -/
def carries (s : State) (P : Part) (p : Nat) : Bool :=
  (storagePorts s P).contains p || match P.job with
    | some J => 1 < (axisSizes J).getD (axisOfPort s P p) 1
    | none => false

/-- ARP (R260). -/
def execArp (port : Fin 17) (s : State) : Host.Outcome State Fault Refusal :=
  .next <|
    let p := port.val
    if s.boot.clocksOff ∨ !portUp s p then s
    else match takeControl s p fun f => isArpRequest f || isSolicit f with
      | none => s
      | some (f, s) =>
        let a := askedAddr f
        if p = 16 then
          if a = toLe 16 s.rolser.mgmtAddr.toNat then
            let e := solicitReply s.rolser.mgmtMac f
            queueFrame s 16 (frameOf (BitVec.ofNat 48 (beNat (slice f 6 6))) s.rolser.mgmtMac 0 e.1 e.2)
          else s
        else
          match allParts.find? fun k =>
              (s.part k).st ≠ .free && a = toLe 16 (s.part k).dict.addr.toNat && carries s (s.part k) p with
          | some k => let e := solicitReply (s.part k).dict.mac f; sendFrame s k p e.1 e.2
          | none => s

/-- LLDP (R266, R268): what the partner's frame advertises are the operands (log 17). -/
def execLldp (port : Fin 17) (stepDown eee : Bool) (wake : BitVec 16) (s : State) : Host.Outcome State Fault Refusal :=
  .next <|
    if s.boot.clocksOff ∨ !portUp s port.val then s
    else match takeControl s port.val fun f => frameType f = 0x88CC with
      | none => s
      | some (_, s) => s.modPort port.val fun x => { x with partnerStep := stepDown, partnerEee := eee, wake := wake.toNat }

/-! ### Transmit underrun (R264) -/

/-- Ends a frame with the bitwise inverse of its FCS. -/
def spoilFcs (f : Bytes) : Bytes := f.take (f.length - 4) ++ (f.drop (f.length - 4)).map fun b => ~~~b

/-- TX_UNDERRUN (R264): the frame handed to the port last, while it is not yet damaged. -/
def execTxUnderrun (port : Fin 17) (s : State) : Host.Outcome State Fault Refusal :=
  .next <|
    let p := port.val
    match s.ethTx.reverse.findIdx? fun e => e.1 = p with
    | none => s
    | some j =>
      let i := s.ethTx.length - 1 - j
      if s.boot.clocksOff ∨ !portUp s p ∨ (s.port p).startRung.toNat ≥ 5 ∨ !fcsOk (s.ethTx.getD i (p, [])).2 then s
      else
        let s := s.setEthTx (s.ethTx.modify i fun e => (e.1, spoilFcs e.2))
        countPort (s.modPort p fun x => { x with startRung := x.startRung + 1 }) p pcTxUnderrun

/-! ### Links going down and up (R260, R266, R267; 12 R364) -/

/-- The transport stops using a port: packets sent on it go again, queue pairs move (R260, R286). -/
def portGone (s : State) (p : Nat) : State :=
  if p = 16 then s
  else
    allParts.foldl (fun s k =>
      let s := ((s.part k).conns.map Prod.fst).foldl (fun s r => retransmit s k r fun x => x.port = p) s
      ((s.part k).qps.map Prod.fst).foldl (fun s i =>
        if (s.qp k i).port = p ∧ (s.qp k i).st = 1 then movePort s k i else s) s) s

/-- Partitions whose jobs set the axis assignments in force; with none, one without a job stands for the port entries (R258). -/
def assigners (s : State) : List Part :=
  match (allParts.map s.part).filter fun P => P.job.isSome with
  | [] => [{}]
  | l => l

/-- Whether an axis of port p, under an assignment in force, has no port up (R364). -/
def axisEmpty (s : State) (p : Nat) : Bool :=
  (assigners s).any fun P => axisOfPort s P p ≠ 4 && !(axisPorts s P (axisOfPort s P p)).any (portUp s)

/-- P-die of a port as a Ripstop die number. -/
def portDie (p : Nat) : Nat := if p = 16 then 4 else 5 + p / 8

/-- A port that carries nothing: what it held back in low-power idle is lost with it. -/
def stopPort (x : Port) (st : BitVec 8) : Port := { x with st := st, lpi := false, wakeAt := none, lpiHeld := [] }

/-- A port goes down in this state, its axis perhaps with it (R364). -/
def portDown (s : State) (p : Nat) (st : BitVec 8) : State :=
  let up := portUp s p
  let s := portGone (s.modPort p fun x => stopPort x st) p
  if up ∧ p < 16 ∧ axisEmpty s p then ripPersist s 0x14 0 (portDie p) p 0 0 else s

/-- What a loss of a port's link does; the third within 10 minutes holds it down (R260; 12 R364). -/
def portLoss (s : State) (p : Nat) : State :=
  let t := s.now.toNat
  let ls := t :: (s.port p).losses.filter fun x => t < x + 60000000000
  let held := decide (3 ≤ ls.length ∧ p < 16)
  let s := countPort (s.modPort p fun x => { x with losses := ls, cur := x.base }) p pcLinkDown
  let s := portDown s p (if held then 3 else 0)
  let s := ripEvent s 0x0C 0 (portDie p) p 0 0
  if held then ripPersist s 0x0D 0 (portDie p) p 0 0 else s

/-- PORT_LINK_LOSS (R260; 12 R364). -/
def execPortLinkLoss (port : Fin 17) (s : State) : Host.Outcome State Fault Refusal :=
  .next (if s.boot.clocksOff ∨ !portUp s port.val then s else portLoss s port.val)

/-- Whether a port's reference clock is there (R256; 13 R403). -/
def portClock (s : State) (p : Nat) : Bool := p = 16 || (if p < 8 then s.pins.refNet0 else s.pins.refNet1)

/-- Writes that waited for the retrain take effect (14 R426). -/
def applyDeferred (x : Port) : Port :=
  { x.deferred.foldl (fun x e =>
      match e.1 with
      | 0x01 => { x with mode := e.2 }
      | 0x05 => { x with stepEn := e.2 }
      | 0x06 => { x with floor := some e.2 }
      | 0x08 => { x with eeeEn := e.2 }
      | _ => x) x with deferred := [] }

/-- MDIO frames that read the PHY's link state: clause 22, and under 2500BASE-X the clause 45 address and read frames of its PMA
status (R288; register numbers are the standard's, PRESUMED, log 78). What the PHY drives reads as the released line. -/
def mdioReads (r : Rolser) : List (BitVec 64) :=
  let frame (st op reg : Nat) (low : Nat) : BitVec 64 :=
    BitVec.ofNat 64 ((2 ^ 32 - 1) * 2 ^ 32 + st * 2 ^ 30 + op * 2 ^ 28 + r.phyMdio.toNat % 32 * 2 ^ 23 + reg * 2 ^ 18 + low)
  if r.mgmtIf = 1 then [frame 0 0 1 (2 * 2 ^ 16 + 1), frame 0 3 1 0x3FFFF] else [frame 1 2 1 0x3FFFF]

/-- Speed code of port M: what SGMII's in-band status gives (0 to 2: 10, 100, 1,000 Mb/s), or 3 for 2500BASE-X (R288). -/
def speedOf (r : Rolser) (speed : BitVec 2) : Nat := if r.mgmtIf = 1 then 3 else min speed.toNat 2

/-- PORT_LINK_UP (R264, R267; 14 R426; R288: `speed` is what port M reads from its PHY). -/
def execPortLinkUp (port : Fin 17) (speed : BitVec 2) (s : State) : Host.Outcome State Fault Refusal :=
  .next <|
    let p := port.val
    let x := s.port p
    if s.boot.clocksOff ∨ !(x.st = 0 ∨ x.st = 2) ∨ !portClock s p then s
    else
      let x := if x.st = 0 then { x with startRung := 1 } else x
      let x := applyDeferred { x with st := if x.cur = x.base then 1 else 4, upSince := s.now.toNat }
      let s := s.putPort p x
      if p = 16 then s.setRolser { s.rolser with phySpeed := speedOf s.rolser speed, mdio := s.rolser.mdio ++ mdioReads s.rolser } else s

/-! ### Rate step-down and low-power idle (R266 to R268) -/

/-- The lower rung of a mode (Table 09.1). -/
def lowerRung : Nat → Option Nat
  | 0 => some 1 | 2 => some 3 | 3 => some 4 | 4 => some 5 | _ => none

/-- The floor of a port (14 Table 14.9). -/
def floorOf (x : Port) : Nat := match x.floor with | some f => f.toNat | none => (lowerRung x.mode.toNat).getD x.mode.toNat

/-- Whether a mode lies above a floor: the floor is among the rungs below it (Table 09.1). -/
def aboveFloor (floor : Nat) : Nat → Nat → Bool
  | _, 0 => false
  | m, n + 1 => match lowerRung m with
    | none => false
    | some l => l = floor || aboveFloor floor l n

/-- Other ports that an assignment in force gives port p's axis (R258, R266). -/
def axisMates (s : State) (p : Nat) : List Nat :=
  (List.range 16).filter fun i => i ≠ p && (assigners s).any fun P => axisOfPort s P i = axisOfPort s P p

/-- Partitions in strict mode whose slots a scale-out port carries. -/
def strictOn (s : State) (p : Nat) : Nat :=
  (allParts.filter fun k => (s.part k).st ≠ .free && (s.part k).dict.mode = 0 && carries s (s.part k) p).length

/-- The conditions of R266 that the state decides; the traffic's are the environment's (log 1). -/
def mayStepDown (s : State) (p : Nat) : Option Nat :=
  let x := s.port p
  match lowerRung x.cur.toNat with
  | none => none
  | some m =>
    if p < 16 ∧ portUp s p ∧ x.stepEn ≠ 0 ∧ x.eeeEn = 0 ∧ aboveFloor (floorOf x) x.cur.toNat 4 ∧ x.partnerStep
        ∧ x.upSince + 6000000000 ≤ s.now.toNat ∧ (axisMates s p).all (portUp s) ∧ strictOn s p < 2
        ∧ x.lastStep + 1000000000 ≤ s.now.toNat then some m
    else none

/-- A step retrain to a mode (R267): the port is down to the transport meanwhile. -/
def stepTo (s : State) (p m : Nat) : State :=
  let t := s.now.toNat
  portGone (s.modPort p fun x => { stopPort x 2 with cur := BitVec.ofNat 8 m, lastStep := t }) p

/-- RATE_STEP_DOWN (R266; counted in STEP_EVENTS, Table 09.4). -/
def execRateStepDown (port : Fin 17) (s : State) : Host.Outcome State Fault Refusal :=
  .next (match mayStepDown s port.val with
      | some m => if s.boot.clocksOff then s else stepTo (countPort s port.val pcStepEvents) port.val m | none => s)

/-- The rung above a mode. -/
def upperRung : Nat → Nat
  | 1 => 0 | 3 => 2 | 4 => 3 | 5 => 4 | m => m

/-- STEP_UP (R267). -/
def execStepUp (port : Fin 17) (s : State) : Host.Outcome State Fault Refusal :=
  .next (if s.boot.clocksOff ∨ (s.port port.val).st ≠ 4 then s
    else stepTo s port.val (upperRung (s.port port.val).cur.toNat))

/-- Whether EEE may run on a port in a mode (R268): port M or modes 5 and 6, not where two strict partitions share it. -/
def eeeAllowed (s : State) (p : Nat) (mode : BitVec 8) : Bool :=
  p = 16 || ((mode = 5 || mode = 6) && strictOn s p < 2)

/-- LOW_POWER_IDLE (R268): enters, in a mode in force that allows it, or has left: the wake time has passed. -/
def execLowPowerIdle (port : Fin 17) (enter : Bool) (s : State) : Host.Outcome State Fault Refusal :=
  .next <|
    let p := port.val
    let x := s.port p
    if s.boot.clocksOff ∨ !portUp s p ∨ x.lpi = enter then s
    else if !enter then leaveIdle s p
    else if x.eeeEn = 0 ∨ !x.partnerEee ∨ !eeeAllowed s p x.cur then s
    else countPort (s.modPort p fun x => { x with lpi := true }) p pcLpiEntries

/-! ### PORT_RESET and RELEASE (13 Table 13.4; 12 R364) -/

/-- A port reset: its MAC counters cleared, start threshold to default, retrained in its MODE; a held-down or fenced port
stays so. -/
def resetPort (s : State) (p : Nat) : State :=
  let x := s.port p
  let st : BitVec 8 := if x.st = 3 ∨ x.st = 5 then x.st else 2
  let s := allParts.foldl (fun s k => s.modPart k fun P => { P with frames := P.frames.filter fun e => e.1 / 8 ≠ p }) s
  portDown (s.modPort p fun x => { x with counters := [], startRung := 1, base := x.mode, cur := x.mode }) p st

/-- PORT_RESET (13 R404). -/
def execPortReset (port : Fin 17) (s : State) : Host.Outcome State Fault Refusal :=
  .next (if s.boot.clocksOff then s else resetPort s port.val)

/-- Ends a hold-down (12 R364). -/
def releasePort (s : State) (p : Nat) : State :=
  if (s.port p).st = 3 then updateRisk (setPers (s.modPort p fun x => { x with st := 0, losses := [] }) 0x0D false) else s

/-- RELEASE_HOLD_DOWN (12 R364). -/
def execReleaseHoldDown (port : Fin 17) (s : State) : Host.Outcome State Fault Refusal :=
  .next (if s.boot.clocksOff then s else releasePort s port.val)

end Sys2Proof.Machine
end

