-- ==== Sys2Proof/Machine/Power.lean ====
section
/-! DEFINITION. The power manager (13 R388 to R403; 11 R332, R333): shares, operating points, droop, ageing, heat. -/

namespace Sys2Proof.Machine

open Sys2Proof

/-! ### Shares (11 R332, R333) -/

/-- Slices of a partition. -/
def sliceCount (P : Part) : Nat := (slicesOf P).length

/-- Whether a partition is in pooled power (R333). -/
def pooledPower (P : Part) : Bool := P.st ≠ .free && P.dict.powerPooled = 1 && P.dict.powerConsent = 1

/-- Members of the power pool, rising. -/
def poolMembers (s : State) : List Nat := allParts.filter fun k => pooledPower (s.part k)

/-- The partitions partition k's share is held for together: the pool's members, or itself (R394). -/
def shareGroup (s : State) (k : Nat) : List Nat := if pooledPower (s.part k) then poolMembers s else [k]

/-- Partition k's own share in W (R332). -/
def shareOf (s : State) (k : Nat) : Nat := s.power.cap.toNat * sliceCount (s.part k) / 16

/-- The share of a group in mW. -/
def groupShare (s : State) (g : List Nat) : Nat := 1000 * (g.map (shareOf s)).foldl (· + ·) 0

/-! ### Operating points (R389 to R392) -/

/-- Least die voltage of a point, mV (Table 13.2); OP7 requires none. -/
def leastMv : Nat → Nat
  | 0 => 850 | 1 => 800 | 2 => 760 | 3 => 710 | 4 => 660 | 5 => 620 | 6 => 600 | _ => 0

/-- C-die power of a point with four slices at peak, mW (Table 13.2). -/
def dieMw : Nat → Nat
  | 0 => 142000 | 1 => 111810 | 2 => 90820 | 3 => 66050 | 4 => 45660 | 5 => 30220 | 6 => 18870 | _ => 0

/-- The effective point of slice i (R391, R394, R398, R399, R400): the slower of the preferred point of its phase and the
cap's point, off OP0 on a barred die, and no faster than the point heat holds it at. -/
def effective (s : State) (i : Nat) : Nat :=
  match (s.slice i).owner with
  | none => 7
  | some k =>
    let P := s.part k
    let pref := (P.dict.phaseOp.getD (s.slice i).phase.toNat 6).toNat
    let base := max (max pref P.opCap) (if (s.die (i / 4)).barred then 1 else 0)
    if s.power.hotstop then 6 else min 6 (max base (s.slice i).throttle)

/-- Least voltage a die's slices require, counting the targets of changes that raise it when `up` (R390, R392). -/
def dieNeed (s : State) (d : Nat) (up : Bool) : Nat :=
  ((List.range 4).map fun j =>
    let x := s.slice (4 * d + j)
    max (leastMv x.op.toNat) (if up && x.locking then leastMv (x.change.getD x.op).toNat else 0)).foldl max 0

/-- A lowering of a die's rail waits for one of its slices' droops (R397). -/
def lowerHeld (s : State) (d : Nat) : Bool := (List.range 4).any fun j => (s.slice (4 * d + j)).lowerWait

/-- Sets a die's rail to what its slices require plus the trim (R390); with every slice at OP7 it keeps its voltage, and a
lowering waits while a droop holds it (R397). -/
def setRail (s : State) (d : Nat) : State :=
  let v := dieNeed s d true
  let mv := ((v : Int) + (s.die d).trim).toNat
  if v = 0 ∨ (mv < (s.die d).rail ∧ lowerHeld s d = true) then s else s.modDie d fun D => { D with rail := mv }

/-- Whether a change on this slice may start: 1 µs, 100 AONCLK, after the last droop cleared (R397). -/
def changeFree (s : State) (x : Slice) : Bool :=
  !x.droop && match x.droopEnd with | none => true | some t => t + 100 ≤ s.now.toNat

/-- A slice whose effective point is not the one it runs at, or is moving to, starts a change (R391, R392). A change that is
given up after its lock had begun no longer holds the rail up: the rail follows what the die needs (R390), the lowering waiting
as after any droop (R397). -/
def retarget (s : State) (i : Nat) : State :=
  let t := BitVec.ofNat 3 (effective s i)
  let x := s.slice i
  if x.op ≠ t ∧ x.change = some t then s
  else
    let y := { x with change := if x.op = t then none else some t, locking := false }
    if x.locking then setRail (s.putSlice i { y with lowerWait := x.lowerWait || !changeFree s x }) (i / 4) else s.putSlice i y

/-- Every slice of the device, or of one partition. -/
def retargetAll (s : State) : State := (List.range 16).foldl retarget s
def retargetPart (s : State) (k : Nat) : State := (slicesOf (s.part k)).foldl retarget s

/-- The first half of a change: the rail is raised and the idle synthesiser locks (R392 steps 1, 2). -/
def startRelock (s : State) (i : Nat) : State :=
  let x := s.slice i
  if x.change.isSome && !x.locking && changeFree s x then setRail (s.putSlice i { x with locking := true }) (i / 4) else s

/-- 1 µs after a droop cleared, the rail lowering that waited for it is issued (R397). -/
def endLowerWait (s : State) (i : Nat) : State :=
  let x := s.slice i
  if x.lowerWait && changeFree s x then setRail (s.putSlice i { x with lowerWait := false }) (i / 4) else s

/-- OPERATING_POINT_CHANGE (R392, R397): the slice switches to its new point, and the rail follows what the die needs; a
lowering waits until 1 µs after a droop cleared. -/
def execOperatingPointChange (i : Fin 16) (s : State) : Host.Outcome State Fault Refusal :=
  .next <|
    if s.boot.clocksOff then s
    else
      let x := s.slice i.val
      match x.change with
      | none => s
      | some t =>
        if x.droop ∨ ¬(x.locking ∨ changeFree s x) then s
        else
          let free := changeFree s x
          setRail (s.putSlice i.val { x with
            op := t, change := none, locking := false, lowerWait := !free
            droopEnd := if free then none else x.droopEnd }) (i.val / 4)

/-- DROOP (R396): the slice's clocks are stretched and a class 0x06 event is raised. -/
def execDroop (i : Fin 16) (s : State) : Host.Outcome State Fault Refusal :=
  .next <|
    let x := s.slice i.val
    if s.boot.clocksOff ∨ x.droop ∨ x.op = 7 then s
    else
      ripEvent (s.putSlice i.val { x with droop := true }) 0x06
        (match x.owner with | some k => k + 1 | none => 0) (i.val / 4) i.val 0 0

/-- DROOP_CLEAR (R396): the stretch ends. -/
def execDroopClear (i : Fin 16) (s : State) : Host.Outcome State Fault Refusal :=
  .next <|
    let x := s.slice i.val
    if s.boot.clocksOff ∨ !x.droop then s else s.putSlice i.val { x with droop := false, droopEnd := some s.now.toNat }

/-! ### Dividing the cap (R394) -/

/-- Classes of work the manager reduces. -/
inductive PClass where
  | links | memory | compute
  deriving DecidableEq, Repr

/-- A priority order from its code (14 Table 14.12): first to last. -/
def priorityOrder : Nat → List PClass
  | 1 => [.links, .compute, .memory]
  | 2 => [.memory, .links, .compute]
  | 3 => [.memory, .compute, .links]
  | 4 => [.compute, .links, .memory]
  | 5 => [.compute, .memory, .links]
  | _ => [.links, .memory, .compute]

/-- The point a group's compute runs at before a step: the fastest preferred point in force among its slices, heat aside. -/
def groupPoint (s : State) (g : List Nat) : Nat :=
  (g.flatMap fun k => (slicesOf (s.part k)).map fun i =>
    max (s.part k).opCap ((s.part k).dict.phaseOp.getD (s.slice i).phase.toNat 6).toNat).foldl min 6

/-- Whether a class can be reduced further. -/
def reducible (s : State) (g : List Nat) : PClass → Bool
  | .compute => groupPoint s g < 6
  | .memory => g.any fun k => 1 < (s.part k).memPace
  | .links => g.any fun k => 1 < (s.part k).linkPace

/-- Whether a class is reduced now. -/
def reduced (s : State) (g : List Nat) : PClass → Bool
  | .compute => g.any fun k => 0 < (s.part k).opCap
  | .memory => g.any fun k => (s.part k).memPace < 16
  | .links => g.any fun k => (s.part k).linkPace < 16

/-- One reduction step of a class on every partition of a group (R394); a member whose cap holds it slower already stays there. -/
def reduceStep (s : State) (g : List Nat) (c : PClass) : State :=
  let op := groupPoint s g + 1
  retargetAll <| g.foldl (fun s k => s.modPart k fun P =>
    match c with
    | .compute => { P with opCap := max op P.opCap }
    | .memory => { P with memPace := max 1 (P.memPace - 1) }
    | .links => { P with linkPace := max 1 (P.linkPace - 1) }) s

/-- One restoring step of a class: compute goes one point faster than the slowest cap of the group. -/
def restoreStep (s : State) (g : List Nat) (c : PClass) : State :=
  let top := (g.map fun k => (s.part k).opCap).foldl max 0
  retargetAll <| g.foldl (fun s k => s.modPart k fun P =>
    match c with
    | .compute => { P with opCap := min P.opCap (top - 1) }
    | .memory => { P with memPace := min 16 (P.memPace + 1) }
    | .links => { P with linkPace := min 16 (P.linkPace + 1) }) s

/-- What a slice draws at a point for budgeting: a quarter of its die's power (R389, Table 13.2). -/
def sliceMw (op : Nat) : Nat := dieMw op / 4

/-- The estimate of a restoring step's added power in mW: compute by Table 13.2, memory and links by the calibrated coefficients,
which the spec does not give (log 15). -/
def addedPower (s : State) (g : List Nat) (c : PClass) : Nat :=
  match c with
  | .compute =>
    let s' := restoreStep s g .compute
    (g.flatMap fun k => (slicesOf (s.part k)).map fun i => sliceMw (effective s' i) - sliceMw (effective s i)).foldl (· + ·) 0
  | .memory => Config.unstated 15 (2 ^ 20 + 2 * s.boot.calib)
  | .links => Config.unstated 15 (2 ^ 20 + 2 * s.boot.calib + 1)

/-- The activity counters of a slice in R393's order: MACs by format (kinds 0 to 31, by format code), SRAM accesses, VC lane-ops,
update parameters, near and far accesses, Serge flits, transport bytes, port frames (32 to 39). -/
def energyOf (s : State) (kind op : Nat) : Nat := Config.unstated 15 (2 ^ 24 + (kind * 8 + op) * 2 ^ 20 + s.boot.calib)

/-- Leakage of a slice at a point, at its 85 °C value (R393). -/
def leakMw (s : State) (op : Nat) : Nat := Config.unstated 15 (2 ^ 40 + op * 2 ^ 20 + s.boot.calib)

/-- The estimate of partition k over 100 µs in mW, from its own counters alone: each is a slice ordinal, a kind and a count
(R393). -/
def estimateOf (s : State) (k : Nat) (counts : List (BitVec 4 × BitVec 8 × BitVec 32)) : Nat :=
  let P := s.part k
  let opOf (i : Nat) : Nat := (s.slice i).op.toNat
  let work := counts.map fun e =>
    match ordinal P e.1.toNat with
    | some i => e.2.2.toNat * energyOf s e.2.1.toNat (opOf i)
    | none => 0
  (work ++ (slicesOf P).map fun i => leakMw s (opOf i)).foldl (· + ·) 0

/-- The average of a partition's estimates over the last 1 ms (R394). -/
def averageMw (P : Part) : Nat := if P.estimates.isEmpty then 0 else P.estimates.foldl (· + ·) 0 / P.estimates.length

/-- The manager's evaluation of a share group against its share (R394): above it one reduction step; else one restoring step
where the step's added power leaves the average below the share by at least 2 %. -/
def evaluate (s : State) (g : List Nat) : State :=
  let order := priorityOrder (s.part (g.headD 0)).dict.priority.toNat
  let share := groupShare s g
  let avg := (g.map fun k => averageMw (s.part k)).foldl (· + ·) 0
  if share < avg then
    match order.reverse.find? (reducible s g) with
    | some c => reduceStep s g c
    | none => s
  else
    match order.find? (reduced s g) with
    | some c => if 100 * (avg + addedPower s g c) ≤ 98 * share then restoreStep s g c else s
    | none => s

/-- POWER_EVALUATION (R393, R394), every 100 µs: the partition's estimate is built from its activity counters, and the
lowest-numbered member of its share group evaluates. None while HOTSTOP governs (R400; log 66). -/
def execPowerEvaluation (k : Fin 16) (counts : List (BitVec 4 × BitVec 8 × BitVec 32)) (s : State) :
    Host.Outcome State Fault Refusal :=
  .next <|
    let g := shareGroup s k.val
    if s.boot.clocksOff ∨ (s.part k.val).st = .free then s
    else
      let s := s.modPart k.val fun P => { P with estimates := (estimateOf s k.val counts :: P.estimates).take 10 }
      if s.power.hotstop ∨ g.headD 16 ≠ k.val then s else evaluate s g

/-! ### Measurements (R388, R395) -/

/-- Package power in mW: voltage × current over every rail read (R388). Rails 0 to 3 are the C-dies, 4 the hub, 5 to 14
the PMBus rails in 14 Table 14.8's order; mV × mA = µW. -/
def packagePower (p : Power) : Nat := (p.rails.foldl (fun t r => t + r.2.1 * r.2.2) 0) / 1000

/-- Average of the samples taken since AONCLK `from_`. -/
def sampleAvg (l : List (Nat × Nat)) (from_ : Nat) : Nat :=
  let w := l.filter fun x => from_ ≤ x.1
  if w.isEmpty then 0 else (w.foldl (fun t x => t + x.2) 0) / w.length

/-- 10 ms and 1 s in AONCLK. -/
def tenMs : Nat := 1000000
def oneSec : Nat := 100000000

/-- Package power over the last 10 ms is more than 2 % above the cap (R395). -/
def overNow (s : State) : Bool := s.power.cap.toNat * 1000 * 102 < 100 * sampleAvg s.power.samples (s.now.toNat - tenMs)

/-- After a reading: a package power sample, PM_POWER and OVER_CAP (R395, Table 13.8). -/
def sampled (s : State) : State :=
  let l := ((s.now.toNat, packagePower s.power) :: s.power.samples).filter fun x => s.now.toNat ≤ x.1 + oneSec
  let s := s.setPower { s.power with samples := l, power := BitVec.ofNat 16 (sampleAvg l (s.now.toNat - oneSec) / 100) }
  if overNow s then driveAlert (s.setPower { s.power with overCap := true }) else s

/-- Records readings of rails from `base` on: a word is [31:16] mV, [15:0] in units of 10 mA (PRESUMED, log 15). -/
def putRails (s : State) (base : Nat) (l : List (BitVec 32)) : State :=
  s.setPower { s.power with rails := (List.range l.length).foldl (fun r i =>
    let w := (l.getD i 0).toNat
    tset (0, 0) r (base + i) (w / 65536, w % 65536 * 10)) s.power.rails }

/-- AVSBUS_POLL (R388): the five AVSBus rails are read. -/
def execAvsbusPoll (readings : List (BitVec 32)) (s : State) : Host.Outcome State Fault Refusal :=
  .next (if s.boot.clocksOff then s else sampled (putRails s 0 (readings.take 5)))

/-- PMBUS_POLL (R388): the ten other rails are read. -/
def execPmbusPoll (readings : List (BitVec 32)) (s : State) : Host.Outcome State Fault Refusal :=
  .next (if s.boot.clocksOff then s else sampled (putRails s 5 (readings.take 10)))

/-! ### Ageing (R398) -/

/-- Whether an operand in ps is negative: slack below target. -/
def slackOf (w : BitVec 16) : Int := w.toInt

/-- AGE_TRIM of a die (R398): `slack` is the least slack of its slices above target, in ps, over the hour. Down steps go on, one
an evaluation, while the slack has held for 24 h. -/
def execAgeTrim (d : Fin 4) (slack : BitVec 16) (s : State) : Host.Outcome State Fault Refusal :=
  .next <|
    if s.boot.clocksOff then s
    else
      let D := s.die d.val
      let x := slackOf slack
      let op := ((List.range 4).map fun j => (s.slice (4 * d.val + j)).op.toNat).foldl min 7
      let log (t : Int) (s : State) : State :=
        s.setPower { s.power with ageLog := (s.now.toNat, d.val, op, t) :: s.power.ageLog }
      if x < 0 then
        if D.trim + 5 ≤ 30 then
          log (D.trim + 5) (setRail (s.putDie d.val { D with trim := D.trim + 5, slack24 := 0 }) d.val)
        else
          retargetAll ((s.putDie d.val { D with slack24 := 0, barred := true }).setPower { s.power with ageLimit := true })
      else if 10 < x then
        if 24 ≤ D.slack24 + 1 ∧ -30 ≤ D.trim - 5 then
          log (D.trim - 5) (setRail (s.putDie d.val { D with trim := D.trim - 5, slack24 := 24 }) d.val)
        else s.putDie d.val { D with slack24 := min 24 (D.slack24 + 1) }
      else s.putDie d.val { D with slack24 := 0 }

/-! ### Heat (R399 to R401) -/

/-- Readings that are available, in °C (14 Table 14.8: 0xFF is no reading). -/
def readTemps (temps : Bytes) : List (Nat × Nat) :=
  ((List.range 80).map fun i => (i, (temps.getD i 0xFF).toNat)).filter fun x => x.2 ≠ 255

/-- The stored sensor readings. -/
def putTemps (s : State) (temps : Bytes) : State :=
  s.setPower { s.power with temps := (List.range 80).foldl (fun m i => tset 0 m i (temps.getD i 0xFF)) s.power.temps }

/-- The readings of slice i: TS 4l to 4l + 3 of its die (R399). -/
def sliceTemps (temps : Bytes) (i : Nat) : List Nat :=
  ((List.range 4).map fun j => (temps.getD (17 * (i / 4) + 4 * (i % 4) + j) 0xFF).toNat).filter (· ≠ 255)

/-- Whether some slice is throttled shows in PM_STATUS (Table 13.8). -/
def noteThrottle (s : State) : State :=
  s.setPower { s.power with throttled := (List.range 16).any fun i => 0 < (s.slice i).throttle }

/-- The point heat holds a slice at changes, 0 for none: logged, and the slice moves to its effective point (R399). -/
def heatStep (s : State) (i : Nat) (heating : Bool) (n : Nat) : State :=
  let s := s.setPower { s.power with heatLog := (s.now.toNat, i, n) :: s.power.heatLog }
  noteThrottle (retarget (s.modSlice i fun x => { x with heating := heating, throttle := n }) i)

/-- THERMAL_STEP of a slice (R399): from 95 °C one point slower, down to OP6, until its sensors read 92 °C or below; then one
faster, up to its effective point; no restoring step of R394 makes it faster meanwhile. While HOTSTOP governs it only records the
readings (R400, log 66). -/
def execThermalStep (i : Fin 16) (temps : Bytes) (s : State) : Host.Outcome State Fault Refusal :=
  .next <|
    if s.boot.clocksOff then s
    else
      let s := putTemps s temps
      let t := sliceTemps temps i.val
      let x := s.slice i.val
      if s.power.hotstop then s
      else if t.any (95 ≤ ·) || (x.heating && t.any (92 < ·)) then
        if effective s i.val < 6 then heatStep s i.val true (effective s i.val + 1) else s.putSlice i.val { x with heating := true }
      else if 0 < x.throttle then
        heatStep s i.val false (if x.throttle - 1 ≤ effective (s.putSlice i.val { x with throttle := 0 }) i.val then 0 else x.throttle - 1)
      else s.putSlice i.val { x with heating := false }

/-- Drives HOTSTOP_N and PM_ALERT.HOTSTOP. -/
def setHotstop (s : State) (on : Bool) : State :=
  driveAlert ((s.setPower { s.power with hotstop := on, coolSince := none }).setPins { s.pins with hotstopN := !on })

/-- The paces in force, in sixteenths: R394's, or 1/2 while HOTSTOP is asserted (R400). -/
def memPaceOf (s : State) (k : Nat) : Nat := if s.power.hotstop then 8 else (s.part k).memPace
def linkPaceOf (s : State) (k : Nat) : Nat := if s.power.hotstop then 8 else (s.part k).linkPace

/-- HOTSTOP (R400): asserted at 105 °C, released once every sensor has read 95 °C or below for 1 s. -/
def execHotstop (temps : Bytes) (s : State) : Host.Outcome State Fault Refusal :=
  .next <|
    if s.boot.clocksOff then s
    else
      let s := putTemps s temps
      let t := (readTemps temps).map Prod.snd
      if !s.power.hotstop then
        match (readTemps temps).find? (fun x => 105 ≤ x.2) with
        | some x =>
          let d := if x.1 < 68 then x.1 / 17 else if x.1 < 76 then 4 else if x.1 < 78 then 5 else 6
          ripEvent (retargetAll (setHotstop s true)) 0x07 0 d 0 (if d < 4 then siteOf s clsSensor d (x.1 % 17) else 0) 0
        | none => s
      else if t.all (· ≤ 95) then
        match s.power.coolSince with
        | none => s.setPower { s.power with coolSince := some s.now.toNat }
        | some t0 => if t0 + oneSec ≤ s.now.toNat then retargetAll (setHotstop s false) else s
      else s.setPower { s.power with coolSince := none }

/-- CPRST_N low: the companion is held in reset. -/
def cprstLow (s : State) : State := s.setPins { s.pins with cprstN := false }

/-- THERMTRIP (R401): latched; every clock but AONCLK stops and CPRST_N goes low. -/
def execThermtrip (temps : Bytes) (s : State) : Host.Outcome State Fault Refusal :=
  .next <|
    if (readTemps temps).any (fun x => 115 ≤ x.2) then
      let s := putTemps s temps
      (cprstLow (s.setPins { s.pins with thermtripN := false })).setBoot { s.boot with clocksOff := true }
    else s

/-! ### PM_ registers (Table 13.8) -/

/-- PM_STATUS. -/
def pmStatus (p : Power) : Nat :=
  p.overCap.toNat * 8 + p.ageLimit.toNat * 4 + (if p.hotstop then 2 else if p.throttled then 1 else 0)

/-- PM_TEMP: the hottest sensor and its die (14 Table 14.8's order of sensors). -/
def pmTemp (p : Power) : Nat :=
  let dieOf (i : Nat) : Nat := if i < 68 then i / 17 else if i < 76 then 4 else if i < 78 then 5 else 6
  let m := (List.range 80).foldl (fun (a : Nat × Nat) i =>
    let t := (tget 0 p.temps i).toNat
    if t ≠ 255 ∧ a.1 < t then (t, dieOf i) else a) (0, 0)
  m.2 * 256 + m.1

end Sys2Proof.Machine
end

