-- ==== Sys2Proof/Machine/Window.lean ====
section
/-! DEFINITION. The Cerral register window (10 R310, R311, R313, R315, R448; 06 R170, R186, R187). -/

namespace Sys2Proof.Machine

open Sys2Proof

/-! ### Registers -/

/-- HUB_BOOT_STATUS (13 Table 13.6). -/
def bootStatus (b : Boot) : Nat := b.tMs.toNat * 2 ^ 16 + b.imageBad.toNat * 2 ^ 8 + b.state.toNat

/-- CL_STATUS (Table 10.11's text). -/
def clStatus (l : Link) : Nat := l.pstate.toNat * 2 ^ 5 + l.width.toNat * 2 ^ 3 + l.forerunner.toNat * 2 ^ 2 + l.st.toNat

/-- Vector table entries that are not reserved (R313). -/
def vecMapped (v : Nat) : Bool := v ≤ 16 || (32 ≤ v && v ≤ 48)

/-- Base of the sub-windows. -/
def subBase : Nat := 2 ^ 32

/-- Whether the region at an offset admits an RDOM (Table 10.10); none where there is no region. -/
def admits (s : State) (off rdom : Nat) : Option Bool :=
  if off < 0x1000 then some true
  else if off < 0x3000 then some (rdom = 0)
  else if 0x8000 ≤ off ∧ off < 0x8400 then some (rdom = vecRdom ((off - 0x8000) / 16))
  else if 0x10000 ≤ off ∧ off < 0x20000 then some (rdom = (off - 0x10000) / 0x1000 + 1)
  else if 0x20000 ≤ off ∧ off < 0x31000 then some (rdom = (off - 0x20000) / 0x1000)
  else if 0x100000 ≤ off ∧ off < 0x300000 then some (rdom = (off - 0x100000) / 0x20000 + 1)
  else if 0x400000 ≤ off ∧ off < 0x4400000 then (if s.link.bootOpen then some (rdom = 0) else none)
  else none

/-- MBX_STATUS (R315). -/
def mbxStatus (b : Mailbox) : Nat := b.rspLen.toNat * 2 ^ 16 + b.ready.toNat * 2 + b.busy.toNat

/-- Value read at an 8 B unit of the window below the sub-windows; none where nothing is mapped (R448). -/
def unitRead (s : State) (off : Nat) : Option Nat :=
  if off = 0x0000 then some s.boot.identity.toNat
  else if off = 0x0008 then some (bootStatus s.boot)
  else if off = 0x1000 then some (clStatus s.link)
  else if off = 0x1008 then some s.link.event.toNat
  else if off = 0x1010 then some 0
  else if 0x1040 ≤ off ∧ off < 0x1070 then some (s.link.eventCnt.getD ((off - 0x1040) / 8) 0).toNat
  else if off = 0x2000 then some (pmStatus s.power)
  else if off = 0x2008 then some s.power.power.toNat
  else if off = 0x2010 then some s.power.cap.toNat
  else if off = 0x2018 then some (pmTemp s.power)
  else if off = 0x2020 then some (pmAlert s.power)
  else if 0x8000 ≤ off ∧ off < 0x8400 then
    let v := (off - 0x8000) / 16
    let e := s.vec v
    if !vecMapped v then none
    else if off % 16 = 0 then some (e.data.toNat * 2 ^ 32 + e.pend.toNat * 2 + e.mask.toNat) else some e.addr.toNat
  else if 0x10000 ≤ off ∧ off < 0x20000 then
    let Q := (s.part ((off - 0x10000) / 0x1000)).qpage
    let o := off % 0x1000
    if o = 0x000 then some 0
    else if o = 0x008 then some Q.event.toNat
    else if o = 0x010 then some Q.lastFault.toNat
    else if o = 0x018 then some Q.dbDrop.toNat
    else if 0x020 ≤ o ∧ o ≤ 0x038 then some (Q.eventCnt.getD ((o - 0x20) / 8) 0).toNat
    else if o = 0x040 then some Q.armId.toNat
    else if o = 0x048 then some Q.armVal.toNat
    else if o = 0x050 then some (Q.eventCnt.getD 4 0).toNat
    else none
  else if 0x20000 ≤ off ∧ off < 0x31000 then
    let b := s.mailbox ((off - 0x20000) / 0x1000)
    let o := off % 0x1000
    if o < 0x7F0 then some (leNat ((List.range 8).map fun i => tget 0 b.req (o + i)))
    else if o = 0x7F0 then some 0
    else if o = 0x7F8 then some (mbxStatus b)
    else some (leNat (slice b.rsp (o - 0x800) 8))
  else if 0x100000 ≤ off ∧ off < 0x300000 then
    let P := s.part ((off - 0x100000) / 0x20000)
    let i := (off - 0x100000) % 0x20000 / 8
    if i < P.alloc.ccount.toNat then some (s.ctr (P.alloc.cbase.toNat + i)).toNat else none
  else if 0x400000 ≤ off ∧ off < 0x4400000 ∧ s.link.bootOpen then
    some (leNat ((List.range 8).map fun i => tget 0 s.link.boot (off - 0x400000 + i)))
  else none

/-- The boot region closes (R320). -/
def closeBoot (s : State) : State :=
  if s.link.bootOpen then clEvent (s.setLink { s.link with bootOpen := false }) 5 else s

/-- Writes MASK of a vector; unmasking a pending one sends its write (R314). -/
def writeMask (s : State) (v : Nat) (mask : Bool) : State :=
  let e := s.vec v
  if !mask && e.pend then sendIrq (s.putVec v { e with mask := false, pend := false }) v
  else s.putVec v { e with mask := mask }

/-- RW1C of Q_EVENT and CL_EVENT (06 R186). -/
def clearQEvent (s : State) (k : Nat) (v : Nat) : State :=
  s.modPart k fun P => { P with qpage := { P.qpage with event := P.qpage.event &&& ~~~(BitVec.ofNat 5 v) } }
def clearClEvent (s : State) (v : Nat) : State := s.setLink { s.link with event := s.link.event &&& ~~~(BitVec.ofNat 6 v) }

/-- Effect of a write of an 8 B unit of the window below the sub-windows; a read-only register drops it (R448). -/
def unitWrite (s : State) (off v : Nat) : State :=
  if off = 0x1008 then clearClEvent s v
  else if off = 0x1010 then (if v = 1 then closeBoot s else s)
  else if 0x8000 ≤ off ∧ off < 0x8400 then
    let i := (off - 0x8000) / 16
    if !vecMapped i then s
    else if off % 16 = 0 then writeMask (s.putVec i { s.vec i with data := BitVec.ofNat 32 (v / 2 ^ 32) }) i (bitOf v 0)
    else s.putVec i { s.vec i with addr := BitVec.ofNat 64 v }
  else if 0x10000 ≤ off ∧ off < 0x20000 then
    let k := (off - 0x10000) / 0x1000
    let o := off % 0x1000
    if o = 0x000 then doorbell s k (BitVec.ofNat 64 v)
    else if o = 0x008 then clearQEvent s k v
    else if o = 0x040 then s.modPart k fun P => { P with qpage := { P.qpage with armId := BitVec.ofNat 14 v } }
    else if o = 0x048 then armWatch s k (BitVec.ofNat 64 v)
    else s
  else if 0x20000 ≤ off ∧ off < 0x31000 then
    let d := (off - 0x20000) / 0x1000
    let o := off % 0x1000
    if o < 0x7F0 then
      s.modMailbox d fun b => { b with req := (List.range 8).foldl (fun r i => tset 0 r (o + i) (BitVec.ofNat 8 (v / 256 ^ i))) b.req }
    else if o = 0x7F0 then submitMailbox s d v
    else if o = 0x7F8 then (if bitOf v 1 then clearReady s d else s)
    else s
  else s

/-- A request was answered UNMAPPED, or DENIED (R310, Table 10.11). -/
def noteUnmapped (s : State) : State := clEvent (clCount s clUnmapped 1) 3
def noteDenied (s : State) : State := clEvent (clCount s clDenied 1) 4

/-! ### Requests to the window (R310, R311, R448) -/

/-- Response statuses (Table 10.5). -/
def csOK : Nat := 0
def csUNMAPPED : Nat := 1
def csDENIED : Nat := 2
def csUNSUPPORTED : Nat := 3
def csDATA_ERR : Nat := 4

/-- The 8 B units of n bytes from an offset. -/
def unitsAt (off n : Nat) : List Nat := (List.range (n / 8)).map fun i => off + 8 * i

/-- STATUS of a request below the sub-windows that selects units `offs` of the lines whose units are `all_`: denied by the units
it selects, unmapped when no unit of its lines is mapped (R310, R448). -/
def unitsStatus (s : State) (rdom : Nat) (offs all_ : List Nat) : Nat :=
  if offs.any fun o => admits s o rdom = some false then csDENIED
  else if all_.all fun o => (unitRead s o).isNone then csUNMAPPED
  else csOK

/-- STATUS of n bytes at a sub-window offset (R311): the partition and address where it is OK. A request that leaves the
length in part is unmapped (DEDUCED, log 48). -/
def subStatus (s : State) (off n rdom : Nat) : Nat × Nat × Nat :=
  let k := off / 2 ^ 32 - 1
  let o := off % 2 ^ 32
  let P := s.part k
  let a := P.dict.subwinBase.toNat + o
  if 16 < off / 2 ^ 32 ∨ P.dict.subwinEn = 0 ∨ P.st ≠ .active ∨ P.dict.subwinLen.toNat < o + n then (csUNMAPPED, k, a)
  else if rdom ≠ k + 1 then (csDENIED, k, a)
  else if !readable P a n then (csUNMAPPED, k, a)
  else (csOK, k, a)

/-- STATUS of a write of n bytes: a guarded range is denied as well (R311). -/
def subWriteStatus (s : State) (off n rdom : Nat) : Nat × Nat × Nat :=
  let e := subStatus s off n rdom
  if e.1 = csOK ∧ !writable (s.part e.2.1) e.2.2 n then (csDENIED, e.2) else e

/-- Notes what a request was answered. -/
def noteStatus (s : State) (st : Nat) : State :=
  if st = csUNMAPPED then noteUnmapped s else if st = csDENIED then noteDenied s else s

/-- Reads n bytes of the window. -/
def windowRead (s : State) (off n rdom : Nat) : State × Nat × Bytes :=
  if subBase ≤ off then
    let e := subStatus s off n rdom
    if e.1 = csOK then (s.noteRead e.2.1 e.2.2 n, csOK, s.load e.2.1 e.2.2 n)
    else (noteStatus s e.1, e.1, List.replicate n 0)
  else
    let us := unitsAt off n
    let st := unitsStatus s rdom us us
    if st = csOK then (s, st, us.flatMap fun o => toLe 8 ((unitRead s o).getD 0))
    else (noteStatus s st, st, List.replicate n 0)

/-- Writes 8 B units of the window, in rising order. -/
def windowWrite (s : State) (rdom off n : Nat) (us : List (Nat × Nat)) : State × Nat :=
  if subBase ≤ off then
    let e := subWriteStatus s off n rdom
    if e.1 = csOK then (us.foldl (fun s u => s.store e.2.1 (e.2.2 + (u.1 - off)) (toLe 8 u.2)) s, csOK)
    else (noteStatus s e.1, e.1)
  else
    let st := unitsStatus s rdom (us.map Prod.fst) (unitsAt off n)
    if st = csOK ∨ us = [] then (us.foldl (fun s u => if (unitRead s u.1).isSome then unitWrite s u.1 u.2 else s) s, csOK)
    else (noteStatus s st, st)

/-! ### Register rows -/

/-- Whether a window offset is an RW1C register. -/
def isRw1c (off : Nat) : Bool :=
  off = 0x1008 || (0x10000 ≤ off && off < 0x20000 && off % 0x1000 = 0x008) || (0x20000 ≤ off && off < 0x31000 && off % 0x1000 = 0x7F8)

/-- RW1C_WRITE (06 R186). -/
def execRw1cWrite (addr val : BitVec 64) (s : State) : Host.Outcome State Fault Refusal :=
  .next (if windowUp s && isRw1c addr.toNat then unitWrite s addr.toNat val.toNat else s)

/-- CL_BOOT_DONE (R320). -/
def execClBootDone (val : BitVec 64) (s : State) : Host.Outcome State Fault Refusal :=
  .next (if windowUp s then unitWrite s 0x1010 val.toNat else s)

/-- BOOT_REGION_TIMEOUT (R320): the clock of 60 s starts at the release of CPRST_N. -/
def execBootRegionTimeout (s : State) : Host.Outcome State Fault Refusal :=
  .next (if s.boot.clocksOff ∨ !s.pins.cprstN then s else closeBoot s)

/-- INTERRUPT_MASK_WRITE (R314). -/
def execInterruptMaskWrite (v : Fin 64) (mask : Bool) (s : State) : Host.Outcome State Fault Refusal :=
  .next (if windowUp s && vecMapped v.val then writeMask s v.val mask else s)

/-- REGISTER_WRITE (R448): from a domain its region admits. -/
def execRegisterWrite (addr val : BitVec 64) (s : State) : Host.Outcome State Fault Refusal :=
  outcome s <|
    let off := addr.toNat / 8 * 8
    if !windowUp s then s
    else if (unitRead s off).isSome then unitWrite s off val.toNat
    else noteUnmapped s

end Sys2Proof.Machine
end

