-- ==== Sys2Proof/Machine/Cerral.lean ====
section
/-! DEFINITION. The Cerral Link's commands: flits, credits, power states, training, the home and the caching agent, staging
transfers (10). -/

namespace Sys2Proof.Machine

open Sys2Proof

/-! ### Messages received (R296, R298) -/

/-- Data slots of a message. -/
def dataSlots (m : ClMsg) : Nat := 4 * (opcLines m.opc.toNat m.len.toNat).getD 0

/-- Frees, or takes back, the credits of a message (R300). -/
def freeCredit (l : Link) (m : ClMsg) (n : BitVec 32) : Link :=
  let h := creditIx m.ch.toNat 0
  let d := creditIx m.ch.toNat 1
  let f := tset (0 : BitVec 32) l.freed h (tget 0 l.freed h + n)
  { l with freed := tset (0 : BitVec 32) f d (tget 0 f d + n * BitVec.ofNat 32 (dataSlots m)) }

/-- The first message of an opcode that `ok` admits: a request only when no earlier request of its RDOM stands before it
(R298); with the messages left. -/
def pickMsg (opc : Nat) (ok : ClMsg → Bool) : List ClMsg → List ClMsg → Option (ClMsg × List ClMsg)
  | _, [] => none
  | pre, m :: r =>
    if m.opc.toNat = opc ∧ ok m ∧ (m.ch ≠ 0 ∨ pre.all fun x => x.ch ≠ 0 || x.rdom ≠ m.rdom) then some (m, pre.reverse ++ r)
    else pickMsg opc ok (m :: pre) r

/-- Runs `f` on the message of an opcode whose turn it is; nothing is served while the companion is held in reset (R320). -/
def onClMsg (s : State) (opc : Nat) (f : State → ClMsg → State) : State :=
  if s.boot.clocksOff ∨ !s.pins.cprstN then s
  else match pickMsg opc (fun _ => true) [] s.link.rx with
    | none => s
    | some (m, r) => f (s.setLink (freeCredit { s.link with rx := r } m 1)) m

/-! ### Outcome of the device's own requests (R298, R299, R305, R450, R451) -/

/-- Lines the Cerral cache holds: 8 MiB (R306). -/
def cacheLines : Nat := 131072

/-- Drops a cache line, sending its eviction (R306). -/
def evictLine (s : State) (line : Nat) : State :=
  let e := tget ({} : CacheLine) s.link.cache line
  let s' := s.setLink { s.link with cache := tdel s.link.cache line }
  match e.st with
  | .invalid => s
  | .modified => clRequest s' (.evict line) 0x06 1 e.rdom.toNat 0 (BitVec.ofNat 64 (64 * line)) (toLe 64 e.data.toNat)
  | _ => clRequest s' (.evict line) 0x07 0 e.rdom.toNat 0 (BitVec.ofNat 64 (64 * line)) []

/-- Puts a line into the cache; a full cache drops one first, which one the spec does not say (free, log 26). -/
def fillLine (s : State) (line : Nat) (e : CacheLine) : State :=
  let s :=
    if s.link.cache.length < cacheLines ∨ (tfind s.link.cache line).isSome then s
    else match s.link.cache[Config.unstated 45 line % s.link.cache.length]? with
      | some v => evictLine s v.1
      | none => s
  s.setLink { s.link with cache := tset {} s.link.cache line e }

/-- The 64 B of a line after a write of the 8 B units a mask selects. -/
def lineWith (line : BitVec 512) (mask : Nat) (data : BitVec 512) : BitVec 512 :=
  BitVec.ofNat 512 (joinBits 64 ((List.range 8).map fun i =>
    bitsOf (if mask.testBit i then data else line).toNat (64 * i + 63) (64 * i)))

/-- A local write of a companion line through the cache (Table 10.9): I and S send RD_OWN and take the write when DATA_E comes;
E turns to M without a message; M is hit. Of the units that use this cache the front end only reads, and what the control complex
writes there no command of the table says (log 74). -/
def localWrite (s : State) (line rdom mask : Nat) (data : BitVec 512) : State :=
  let e := tget ({} : CacheLine) s.link.cache line
  match e.st with
  | .invalid | .shared => clRequest s (.own line rdom mask data) 0x02 0 rdom 0 (BitVec.ofNat 64 (64 * line)) []
  | _ => s.setLink { s.link with cache := tset {} s.link.cache line { e with st := .modified, data := lineWith e.data mask data } }

/-- Queues whose front end waits for a ring line. -/
def lineWaiters (s : State) (line rdom : Nat) : List Nat :=
  (s.queues.filter fun e => ownerOf s e.1 = some (rdom - 1) && e.2.fetching && e.2.ringLoc && slotAddr e.2 e.2.head.toNat / 64 = line).map Prod.fst

/-- The answer to a ring read came (R312, R450). -/
def ringAnswer (s : State) (line rdom st : Nat) (own : LineSt) (data : Bytes) : State :=
  if st = csOK then
    let s' := fillLine s line { st := own, data := BitVec.ofNat 512 (leNat data), rdom := BitVec.ofNat 5 rdom }
    (lineWaiters s line rdom).foldl (fun s q => fetchFront (s.modQueue q fun Q => { Q with fetching := false }) q) s'
  else
    (lineWaiters s line rdom).foldl (fun s q =>
      let s := if st = csDATA_ERR then
          match ownerOf s q with
          | some k => modHealth s k fun h => { h with ue := true, post := setFlag h.post 0 }
          | none => s
        else s
      ringFault s q (if st = csDATA_ERR then stDATA else stADDRESS) 0) s

/-- Queue status of a failed companion access (R305, R450; other statuses DEDUCED, log 49). -/
def failStatus (st : Nat) : BitVec 8 := if st = csDATA_ERR then stDATA else stADDRESS

/-! ### CXFER (R316) -/

def cxDaddr (c : Nat) : Nat := fld c 175 128
def cxCaddr (c : Nat) : Nat := fld c 239 176
def cxBytes (c : Nat) : Nat := fld c 271 240
def cxOut (c : Nat) : Bool := bitOf c 272
def cxSealed (c : Nat) : Bool := bitOf c 273

/-- Companion bytes of a transfer. -/
def cxSpan (c : Nat) : Nat := if cxSealed c then sealedLen (cxBytes c) else cxBytes c

/-- Validation (R316): status and address. -/
def cxValidate (P : Part) (c : Nat) : BitVec 8 × Nat :=
  if !bodyClear c [(175, 128), (239, 176), (271, 240), (272, 272), (273, 273)] ∨ cxDaddr c % 256 ≠ 0 ∨ cxCaddr c % 256 ≠ 0
      ∨ cxBytes c = 0 ∨ cxBytes c % 256 ≠ 0 ∨ (!cxSealed c ∧ P.dict.plainStaging = 0) ∨ (cxSealed c ∧ P.keys.stageKey.isNone) then
    (stINVALID, 0)
  else if !(if cxOut c then readable P (cxDaddr c) (cxBytes c) else writable P (cxDaddr c) (cxBytes c)) then (stADDRESS,
      firstBad P (cxDaddr c) (cxBytes c) (!cxOut c))
  else (stOK, 0)

/-- Requests the device keeps outstanding (R317's example: 32,768 data credits of 16 slots). -/
def reqWindow : Nat := 2048

/-- Sends the next requests of a transfer while there is room. -/
def cxPump (k q : Nat) (idx : BitVec 24) : Nat → State → State
  | 0, s => s
  | n + 1, s =>
    match (s.queue q).started.find? fun r => r.idx = idx with
    | none => s
    | some r =>
      match r.work with
      | .cxfer ((o, b) :: t) out got ch obj =>
        if reqWindow ≤ s.link.reqs.length then s
        else
          let s := modStarted s q idx fun r => { r with work := .cxfer t (out + 1) got ch obj }
          let a := BitVec.ofNat 64 (cxCaddr r.cmd.toNat + o)
          let s :=
            if cxOut r.cmd.toNat then clRequest s (.cxferWrite (BitVec.ofNat 20 q) idx) 0x04 4 (k + 1) 0 a b
            else clRequest s (.cxferRead (BitVec.ofNat 20 q) idx o 256) 0x03 4 (k + 1) 0 a []
          cxPump k q idx n s
      | _ => s

/-- Sends the next requests of every transfer. -/
def cxPumpAll (s : State) : State :=
  s.queues.foldl (fun s e =>
    e.2.started.foldl (fun s r =>
      match r.work, ownerOf s e.1 with
      | .cxfer (_ :: _) _ _ _ _, some k => cxPump k e.1 r.idx reqWindow s
      | _, _ => s) s) s

/-- A CXFER that starts: its requests, and outward its bytes, sealed where asked (R316). -/
def startCxfer (s : State) (k c : Nat) : State × Started :=
  let P := s.part k
  let v := cxValidate P c
  if v.1 ≠ stOK then (s, failed v.1 5 v.2)
  else
    let offs := (List.range (cxSpan c / 256)).map fun i => 256 * i
    if !cxOut c then (s, { work := .cxfer (offs.map fun o => (o, [])) 0 [] 0 0 })
    else
      let p := s.load k (cxDaddr c) (cxBytes c)
      let s := s.noteRead k (cxDaddr c) (cxBytes c)
      match cxSealed c, stageSeal P with
      | true, some x =>
        let b := (sealAll x P.keys.stageCtr.toNat P.stepNo.toNat p).flatten
        let s := s.modPart k fun P => { P with keys := { P.keys with stageCtr := P.keys.stageCtr + BitVec.ofNat 64 (chunksOf (cxBytes c)) } }
        (s, { work := .cxfer ((pieces 256 b).zipIdx.map fun e => (256 * e.2, e.1)) 0 [] 0 0 })
      | _, _ => (s, { work := .cxfer ((pieces 256 p).zipIdx.map fun e => (256 * e.2, e.1)) 0 [] 0 0 })

/-- CXFER (R316): outward the plaintext, or its sealed chunks, go out in writes of 256 B; inward the reads do. -/
def execCxfer (q : Qid) (s : State) : Host.Outcome State Fault Refusal :=
  outcome s (startThen s q.toNat (fun _ _ c => isKind 3 0x11 c) startCxfer fun s _ _ => cxPumpAll s)

/-- Verifies and writes the sealed chunks that have come whole, in order (R345): bytes held, next chunk, OBJ, and whether
every chunk so far passed. -/
def cxChunks (x : SealKey) (k c : Nat) :
    Nat → State → List (Nat × Bytes) → Nat → Nat → State × List (Nat × Bytes) × Nat × Nat × BitVec 8
  | 0, s, got, i, obj => (s, got, i, obj, stOK)
  | n + 1, s, got, i, obj =>
    let len := chunkLen (cxBytes c) i
    let mine := got.filter fun e => 65792 * i ≤ e.1 ∧ e.1 < 65792 * i + len + 256
    if chunksOf (cxBytes c) ≤ i ∨ mine.length * 256 < len + 256 then (s, got, i, obj, stOK)
    else
      let b := (mine.map Prod.snd).flatten
      let obj := if i = 0 then leNat (slice b (len + 32) 8) else obj
      match openChunk x i obj (i + 1 = chunksOf (cxBytes c)) len b with
      | none => (s, [], i, obj, stDATA)
      | some p =>
        if !writable (s.part k) (cxDaddr c + 65536 * i) p.length then (s, [], i, obj, stADDRESS)
        else cxChunks x k c n (s.store k (cxDaddr c + 65536 * i) p) (got.filter fun e => 65792 * (i + 1) ≤ e.1) (i + 1) obj

/-- A request of a transfer is answered: data placed or chunks verified, the work ended when no request is left (R316, R299). Its
pages may have become a front face meanwhile: a write to them then ends it with ADDRESS (07 R207). -/
def cxAnswer (s : State) (q : Nat) (idx : BitVec 24) (off st : Nat) (data : Bytes) : State :=
  match ownerOf s q, (s.queue q).started.find? fun r => r.idx = idx with
  | some k, some r =>
    match r.work with
    | .cxfer todo out got ch obj =>
      let c := r.cmd.toNat
      let bad (s : State) (x : BitVec 8) : State := modStarted s q idx fun r =>
        if faulting r.status then { r with work := .cxfer [] (out - 1) [] ch obj }
        else { r with work := .cxfer [] (out - 1) [] ch obj, ukind := 5, status := x,
                      faddr := if x = stADDRESS then BitVec.ofNat 48 (firstBad (s.part k) (cxDaddr c) (cxBytes c) true) else r.faddr }
      let s :=
        if st ≠ csOK then bad s (failStatus st)
        else if cxOut c then modStarted s q idx fun r => { r with work := .cxfer todo (out - 1) got ch obj }
        else if faulting r.status then bad s r.status
        else if !cxSealed c then
          if !writable (s.part k) (cxDaddr c + off) data.length then bad s stADDRESS
          else modStarted (s.store k (cxDaddr c + off) data) q idx fun r => { r with work := .cxfer todo (out - 1) got ch obj }
        else
          match stageSeal (s.part k) with
          | none => bad s stDATA
          | some x =>
            match cxChunks x k c (chunksOf (cxBytes c)) s (tins off data got) ch obj with
            | (s, got, ch, obj, st) =>
              if st = stOK then modStarted s q idx fun r => { r with work := .cxfer todo (out - 1) got ch obj } else bad s st
      modStarted s q idx fun r =>
        match r.work with
        | .cxfer [] 0 _ _ _ => { r with work := .done }
        | _ => r
    | _ => s
  | _, _ => s

/-- What an outstanding request was for is told its STATUS (R299, R305). -/
def finishReq (s : State) (f : ReqFor) (st : Nat) (own : LineSt) (data : Bytes) : State :=
  match f with
  | .ring line rdom => ringAnswer s line rdom st own data
  | .own line rdom mask w =>
    if st = csOK then
      fillLine s line { st := .modified, data := lineWith (BitVec.ofNat 512 (leNat data)) mask w, rdom := BitVec.ofNat 5 rdom }
    else s
  | .record q idx =>
    (match ownerOf s q.toNat, (s.queue q.toNat).started with
     | some k, r :: _ =>
       if r.idx = idx then closeCmd s k q.toNat (if st = csOK then r else badRecord (failStatus st) 0 r) else s
     | _, _ => s)
  | .irq v => s.putVec v { s.vec v with inFlight := false }
  | .cxferRead q idx off _ => cxAnswer s q.toNat idx off st data
  | .cxferWrite q idx => cxAnswer s q.toNat idx 0 st []
  | .aborted q idx c => if st = csOK then s else abortFails s q.toNat idx c (failStatus st)
  | .none | .evict _ => s

/-- A response of the companion: its request, if one has that TAG, is over (R298), and transfers send their next ones. -/
def onResponse (s : State) (opc : Nat) (own : LineSt) : State :=
  onClMsg s opc fun s m =>
    match tfind s.link.reqs m.tag.toNat with
    | none => s
    | some f =>
      cxPumpAll (finishReq (s.setLink { s.link with reqs := tdel s.link.reqs m.tag.toNat }) f m.status.toNat own m.data)

/-- CMP (R298, R299). -/
def execCmp (s : State) : Host.Outcome State Fault Refusal := outcome s (onResponse s 0x20 .invalid)

/-- DATA_NC (R298). -/
def execDataNc (s : State) : Host.Outcome State Fault Refusal := outcome s (onResponse s 0x21 .invalid)

/-- DATA_S (R306). -/
def execDataS (s : State) : Host.Outcome State Fault Refusal := outcome s (onResponse s 0x22 .shared)

/-- DATA_E (R306). -/
def execDataE (s : State) : Host.Outcome State Fault Refusal := outcome s (onResponse s 0x23 .exclusive)

/-! ### The device as target: uncached requests (R310, R311) -/

/-- A read of the window is served (R310). -/
def serveRdNc (s : State) (m : ClMsg) : State :=
  let e := windowRead s m.addr.toNat (64 * m.len.toNat) m.rdom.toNat
  clRespond e.1 m 0x21 e.2.1 e.2.2

/-- RD_NC (R298, R310). -/
def execRdNc (s : State) : Host.Outcome State Fault Refusal := outcomeReq s (onClMsg s 0x03 serveRdNc)

/-- 8 B units of a message's data that a mask selects. -/
def unitsOf (m : ClMsg) (sel : Nat → Bool) : List (Nat × Nat) :=
  ((List.range (m.data.length / 8)).filter sel).map fun i => (m.addr.toNat + 8 * i, leNat (slice m.data (8 * i) 8))

/-- A write of the window is served (R311); ok picks the 8 B units it writes. -/
def serveWr (n : Nat) (ok : ClMsg → Nat → Bool) (s : State) (m : ClMsg) : State :=
  let e := windowWrite s m.rdom.toNat m.addr.toNat (if n = 0 then m.data.length else n) (unitsOf m (ok m))
  clRespond e.1 m 0x20 e.2 []

/-- WR_NC (R298, R311). -/
def execWrNc (s : State) : Host.Outcome State Fault Refusal := outcomeReq s (onClMsg s 0x04 (serveWr 0 fun _ _ => true))

/-- WR_PART (R298, R311, R312). -/
def execWrPart (s : State) : Host.Outcome State Fault Refusal :=
  outcomeReq s (onClMsg s 0x05 (serveWr 64 fun m i => m.qmask.getLsbD i))

/-! ### The device as home (R307 to R309) -/

/-- Directory entries (R307). -/
def dirEntries : Nat := 262144

/-- A store that is part of a home transaction. -/
def storeHome (s : State) (k a : Nat) (b : Bytes) : State := (s.store k a b).setSnoops s.snoops

/-- Grants a line: the directory entry and the data (R307). -/
def grantLine (s : State) (m : ClMsg) (own : Bool) (k a : Nat) : State :=
  let line := reqLine m
  let l := s.link
  let dir := if l.dir.any (fun e => e.1 = line) then l.dir.map fun e => if e.1 = line then (line, own) else e else l.dir ++ [(line, own)]
  let b := s.load k a 64
  let s := (s.setLink { l with dir := dir }).modPart k fun P => touch P false a 64
  clRespond s m (if own then 0x23 else 0x22) csOK b

/-- STATUS of a coherent request for a line below the sub-windows: none there is cached, so it is not supported where it is
mapped and admitted (R310). -/
def lowStatus (s : State) (m : ClMsg) : Nat :=
  let us := unitsAt m.addr.toNat 64
  let st := unitsStatus s m.rdom.toNat us us
  if st = csOK then csUNSUPPORTED else st

/-- Serves RD_SHARED and RD_OWN (R307 to R311). -/
def serveCoherent (s : State) (m : ClMsg) : State :=
  let own := decide (m.opc = 0x02)
  let line := reqLine m
  let off := m.addr.toNat
  if off < subBase then clRespond (noteStatus s (lowStatus s m)) m 0x20 (lowStatus s m) []
  else
    let e := if own then subWriteStatus s off 64 m.rdom.toNat else subStatus s off 64 m.rdom.toNat
    if e.1 ≠ csOK then clRespond (noteStatus s e.1) m 0x20 e.1 []
    else if s.link.forerunner then clRespond s m 0x20 csUNSUPPORTED []
    else if homeBusy s.link line then s.setLink (freeCredit { s.link with homeWait := s.link.homeWait ++ [m] } m (-1))
    else if s.link.dir.any (fun x => x.1 = line) ∨ s.link.dir.length < dirEntries then grantLine s m own e.2.1 e.2.2
    else match s.link.dir.find? fun x => !homeBusy s.link x.1 with
      | some o => openHome s o.1 true (some m)
      | none => s.setLink (freeCredit { s.link with homeWait := s.link.homeWait ++ [m] } m (-1))

/-- RD_SHARED (R307). -/
def execRdShared (s : State) : Host.Outcome State Fault Refusal := outcome s (onClMsg s 0x01 serveCoherent)

/-- RD_OWN (R307). -/
def execRdOwn (s : State) : Host.Outcome State Fault Refusal := outcome s (onClMsg s 0x02 serveCoherent)

/-- A snoop is complete: the request it was sent for is served, and those behind it; a device access may now run (R308). -/
def closeHome (s : State) (h : HomeTx) : State :=
  let rest := s.link.home.filter fun x => x.tag ≠ h.tag
  match h.req with
  | some m =>
    let s := serveCoherent (s.setLink { s.link with home := rest }) m
    s.setLink (wakeHome s.link)
  | none => s.setLink { s.link with home := rest ++ [{ h with done := true }] }

/-- Drops a line from the directory, or leaves it shared. -/
def setDir (l : Link) (line : Nat) (share : Bool) : Link :=
  { l with dir := if share then l.dir.map fun e => if e.1 = line then (line, false) else e else l.dir.filter fun e => e.1 ≠ line }

/-- Writes dirty data of a window line, where it may be written (R307, R311). -/
def writeBack (s : State) (line : Nat) (b : Bytes) : State :=
  let k := 64 * line / 2 ^ 32 - 1
  match lineAddr (s.part k) k line with
  | some a => if writable (s.part k) a 64 then storeHome s k a b else s
  | none => s

/-- A snoop response (R306, R307, R309). -/
def snoopAnswer (s : State) (m : ClMsg) (share : Bool) : State :=
  match s.link.home.find? fun h => h.tag = m.tag && !h.done with
  | none => s
  | some h =>
    let s := if m.data = [] then s else writeBack s h.line m.data
    let s := s.setLink (setDir s.link h.line share)
    if m.qmask.getLsbD 0 && !h.evicted then
      s.setLink { s.link with home := s.link.home.map fun x => if x.tag = h.tag then { x with evp := true } else x }
    else closeHome s h

/-- SRSP_I (R307, R309). -/
def execSrspI (s : State) : Host.Outcome State Fault Refusal := outcome s <| onClMsg s 0x24 fun s m => snoopAnswer s m false

/-- SRSP_S (R307). -/
def execSrspS (s : State) : Host.Outcome State Fault Refusal := outcome s <| onClMsg s 0x25 fun s m => snoopAnswer s m true

/-- SRSP_DATA_I (R307). -/
def execSrspDataI (s : State) : Host.Outcome State Fault Refusal := outcome s <| onClMsg s 0x26 fun s m => snoopAnswer s m false

/-- SRSP_DATA_S (R307). -/
def execSrspDataS (s : State) : Host.Outcome State Fault Refusal := outcome s <| onClMsg s 0x27 fun s m => snoopAnswer s m true

/-- An eviction of a line has arrived: a transaction that waited for it ends, one that waits for its snoop notes it (R309). -/
def evictionArrived (s : State) (line : Nat) : State :=
  match s.link.home.find? fun h => h.line = line && !h.done with
  | none => s
  | some h =>
    if h.evp then closeHome s h
    else s.setLink { s.link with home := s.link.home.map fun x => if x.tag = h.tag then { x with evicted := true } else x }

/-- Serves an eviction (R306, R309, R311). -/
def serveEvict (s : State) (m : ClMsg) : State :=
  let off := m.addr.toNat
  if off < subBase then clRespond (noteStatus s (lowStatus s m)) m 0x20 (lowStatus s m) []
  else
    let dirty := decide (m.opc = 0x06)
    let e := if dirty then subWriteStatus s off 64 m.rdom.toNat else subStatus s off 64 m.rdom.toNat
    let s := if e.1 = csOK ∧ dirty then storeHome s e.2.1 e.2.2 m.data else noteStatus s e.1
    let s := clRespond (s.setLink (setDir s.link (reqLine m) false)) m 0x20 e.1 []
    let s := evictionArrived s (reqLine m)
    s.setLink (wakeHome s.link)

/-- EVICT_DIRTY (R306, R311). -/
def execEvictDirty (s : State) : Host.Outcome State Fault Refusal := outcome s (onClMsg s 0x06 serveEvict)

/-- EVICT_CLEAN (R306). -/
def execEvictClean (s : State) : Host.Outcome State Fault Refusal := outcome s (onClMsg s 0x07 serveEvict)

/-! ### The device as caching agent: snoops (R306, R309, Table 10.9) -/

/-- Answers a snoop: the response opcode and the line's next state. -/
def answerSnoop (s : State) (m : ClMsg) (inv : Bool) : State :=
  let line := reqLine m
  let e := tget ({} : CacheLine) s.link.cache line
  let evp := s.link.reqs.any fun r => r.2 = .evict line
  let (opc, st) : Nat × LineSt :=
    match inv, e.st with
    | _, .invalid => (0x24, .invalid)
    | true, .modified => (0x26, .invalid)
    | true, _ => (0x24, .invalid)
    | false, .modified => (0x27, .shared)
    | false, _ => (0x25, .shared)
  let b := if e.st = .modified then toLe 64 e.data.toNat else []
  let cache := if st = .invalid then tdel s.link.cache line else tset {} s.link.cache line { e with st := st }
  clSend (s.setLink { s.link with cache := cache })
    { ch := 1, opc := BitVec.ofNat 6 opc, len := BitVec.ofNat 3 (b.length / 64), tag := m.tag, rdom := m.rdom,
      qmask := if evp ∧ e.st = .invalid then 1 else 0, addr := m.addr, data := b }

/-- SNP_INV (R306). -/
def execSnpInv (s : State) : Host.Outcome State Fault Refusal := .next (onClMsg s 0x30 fun s m => answerSnoop s m true)

/-- SNP_SHARE (R306). -/
def execSnpShare (s : State) : Host.Outcome State Fault Refusal := .next (onClMsg s 0x31 fun s m => answerSnoop s m false)

/-! ### Control flits and link slots (R300, R302, R318) -/

/-- Last payload flit received in order. -/
def lastGood (l : Link) : Nat := (l.rxFsn - 1).toNat

/-- A control flit with ACK and every CREDIT count that has changed (R300). -/
def controlFlit (l : Link) : Link :=
  let ch := (List.range 5).filter fun i => tget (0 : BitVec 32) l.freed i ≠ tget 0 l.freedSent i
  let cs := ch.map fun i => slotOf 3 0 (i / 2) (i % 2) (tget (0 : BitVec 32) l.freed i).toNat 0
  { sendControl l (slotOf 1 (lastGood l) 0 0 0 0 :: cs) with freedSent := l.freed, rxUnacked := 0 }

/-- Whether flits move: the link is ACTIVE and not in L1 or L2. -/
def flitsMove (s : State) : Bool := linkUp s.link && !s.boot.clocksOff

/-- CONTROL_FLIT (R300). -/
def execControlFlit (s : State) : Host.Outcome State Fault Refusal :=
  .next (if flitsMove s then s.setLink (controlFlit s.link) else s)

/-- PAYLOAD_FLIT_ACK_TIMER (R302). -/
def execPayloadFlitAckTimer (s : State) : Host.Outcome State Fault Refusal :=
  .next (if flitsMove s ∧ 0 < s.link.rxUnacked then s.setLink (controlFlit s.link) else s)

/-- NAK_REPEAT (R302). -/
def execNakRepeat (s : State) : Host.Outcome State Fault Refusal :=
  .next (if flitsMove s && s.link.naking then s.setLink (sendControl s.link [slotOf 2 (lastGood s.link) 0 0 0 0]) else s)

/-- Runs `f` on the first link slot of an operation. -/
def onSlot (s : State) (lop : Nat) (f : State → Nat → State) : State :=
  if s.boot.clocksOff ∨ s.link.st ≠ 2 then s
  else match s.link.slots.find? fun x => x.toNat / 2 ^ 124 = lop with
    | none => s
    | some x => f (s.setLink { s.link with slots := s.link.slots.erase x }) x.toNat

/-- FSN, CHN, KIND, COUNT and PSTATE of a link slot (Table 10.8). -/
def slFsn (x : Nat) : BitVec 10 := BitVec.ofNat 10 (fld x 119 110)
def slChn (x : Nat) : Nat := fld x 109 108
def slKind (x : Nat) : Nat := fld x 107 107
def slCount (x : Nat) : Nat := fld x 95 64
def slPstate (x : Nat) : Nat := fld x 3 0

/-- Payload flits left after an acknowledgement of FSN f; all when f is not among them. -/
def ackThrough (r : List (BitVec 10 × Bytes)) (f : BitVec 10) : List (BitVec 10 × Bytes) :=
  if r.any (fun e => e.1 = f) then (r.dropWhile fun e => e.1 ≠ f).drop 1 else r

/-- ACK (R302). -/
def execAck (s : State) : Host.Outcome State Fault Refusal :=
  .next <| onSlot s 1 fun s x =>
    let r := ackThrough s.link.replay (slFsn x)
    pump (s.setLink { s.link with replay := r, nakSame := if r.length < s.link.replay.length then 0 else s.link.nakSame })

/-- Starts a retrain (R292). -/
def startRetrain (l : Link) : Link := { l with st := 1, retraining := true }

/-- NAK (R302): the payload flits after the last good one go again; a fourth for one FSN without progress retrains. -/
def execNak (s : State) : Host.Outcome State Fault Refusal :=
  .next <| onSlot s 2 fun s x =>
    let f := slFsn x
    let r := ackThrough s.link.replay f
    let n := if s.link.nakSame ≠ 0 ∧ s.link.nakFsn = f ∧ r.length = s.link.replay.length then s.link.nakSame + 1 else 1
    let l := { s.link with replay := r, nakSame := n, nakFsn := f }
    if 4 ≤ n then s.setLink { startRetrain l with nakSame := 0 }
    else clCount (s.setLink { l with sent := l.sent ++ r.map Prod.snd }) clReplay 1

/-- CREDIT (R300). -/
def execCredit (s : State) : Host.Outcome State Fault Refusal :=
  .next <| onSlot s 3 fun s x =>
    if slChn x = 3 then s
    else pump (s.setLink { s.link with grants := tset 0 s.link.grants (creditIx (slChn x) (slKind x)) (BitVec.ofNat 32 (slCount x)) })

/-- Two or more partitions are in strict mode (R318). -/
def strictTwo (s : State) : Bool := 2 ≤ (allParts.filter fun k => (s.part k).st ≠ .free && (s.part k).dict.mode = 0).length

/-- No request outstanding, no message held, no payload flit unacknowledged (R318). -/
def linkIdle (s : State) : Bool :=
  let l := s.link
  l.reqs = [] && l.home = [] && l.homeWait = [] && l.tx = [] && l.partSlots = [] && l.replay = [] && l.rxUnacked = 0
    && l.rx.all fun m => m.ch ≠ 0

/-- Enters a power state (Table 10.12): L2 discards replay and credit state. -/
def enterPstate (l : Link) (p : Nat) : Link :=
  if p = 3 then
    { l with pstate := 3, replay := [], txFsn := 0, rxFsn := 0, grants := [], used := [], freed := [], freedSent := [], rxUnacked := 0 }
  else { l with pstate := BitVec.ofNat 3 p }

/-- PM_REQ (R318). -/
def execPmReq (s : State) : Host.Outcome State Fault Refusal :=
  .next <| onSlot s 4 fun s x =>
    let p := slPstate x
    if 3 < p ∨ (p ≠ 0 ∧ strictTwo s) ∨ (p = 3 ∧ !linkIdle s) then s.setLink (sendControl s.link [slotOf 6 0 0 0 0 p])
    else pump (s.setLink (enterPstate (sendControl s.link [slotOf 5 0 0 0 0 p]) p))

/-- PM_ACK (R318). -/
def execPmAck (s : State) : Host.Outcome State Fault Refusal :=
  .next <| onSlot s 5 fun s x =>
    match s.link.pmAsked with
    | some p => if p.toNat = slPstate x then pump (s.setLink (enterPstate { s.link with pmAsked := none } p.toNat)) else s
    | none => s

/-- PM_NAK (R318). -/
def execPmNak (s : State) : Host.Outcome State Fault Refusal :=
  .next <| onSlot s 6 fun s _ => s.setLink { s.link with pmAsked := none }

/-- LINK_IDLE_T (R318): the device asks for L1. -/
def execLinkIdleT (s : State) : Host.Outcome State Fault Refusal :=
  .next (if flitsMove s && linkIdle s && !strictTwo s && s.link.pmAsked.isNone then
      s.setLink { sendControl s.link [slotOf 4 0 0 0 0 2] with pmAsked := some 2 }
    else s)

/-- CL_STALL_T (R303). -/
def execClStallT (s : State) : Host.Outcome State Fault Refusal :=
  .next (if s.boot.clocksOff ∨ s.link.partSlots = [] then s else clEvent (clCount s clStallCnt 1) 0)

/-! ### FLIT_RECEIVE (R294 to R297, R302) -/

/-- A held message with one slot more: complete when its data slots are there. -/
def growMsg (p : List (BitVec 128)) : Option ClMsg :=
  match p with
  | [] => none
  | h :: d =>
    let m := msgOfHeader h
    if d.length = dataSlots m then some { m with data := d.flatMap fun x => toLe 16 x.toNat } else none

/-- The credits of a message that is discarded are free again: its header's, and those of the data slots its opcode carries, or
with no such opcode its LEN names (R300). -/
def freeDropped (s : State) (h : BitVec 128) : State :=
  let m := msgOfHeader h
  if m.ch = 3 then s
  else
    let n := match opcLines m.opc.toNat m.len.toNat with | some n => 4 * n | none => 4 * m.len.toNat
    let f := tset (0 : BitVec 32) s.link.freed (creditIx m.ch.toNat 0) (tget 0 s.link.freed (creditIx m.ch.toNat 0) + 1)
    s.setLink { s.link with freed := tset 0 f (creditIx m.ch.toNat 1) (tget 0 f (creditIx m.ch.toNat 1) + BitVec.ofNat 32 n) }

/-- A message with a reserved value (R297). -/
def badMsg (s : State) (h : BitVec 128) : State :=
  let m := msgOfHeader h
  let s := freeDropped (clCount s clBadMsg 1) h
  if m.ch = 0 then clRespond s { m with len := 0 } 0x20 csUNSUPPORTED [] else s

/-- One slot of a payload flit; `begins` is its HMAP bit. -/
def takeSlotIn (s : State) (x : BitVec 128) (begins : Bool) : State :=
  let p := s.link.partSlots
  if p ≠ [] ∧ !begins then
    let p := p ++ [x]
    match growMsg p with
    | some m => s.setLink { s.link with partSlots := [], rx := s.link.rx ++ [m] }
    | none => s.setLink { s.link with partSlots := p }
  else if !begins then s
  else
    let s := match p with
      | [] => s
      | h :: _ => freeDropped (clCount (s.setLink { s.link with partSlots := [] }) clBadMsg 1) h
    if !headerOk x then badMsg s x
    else match growMsg [x] with
      | some m => s.setLink { s.link with rx := s.link.rx ++ [m] }
      | none => s.setLink { s.link with partSlots := [x] }

/-- The 15 slots of a flit. -/
def flitSlots (b : Bytes) : List (BitVec 128) := (List.range 15).map fun i => BitVec.ofNat 128 (leNat (slice b (4 + 16 * i) 16))

/-- A flit whose CRC holds (R293, R295, R302). -/
def takeFlit (s : State) (b : Bytes) : State :=
  let h := leNat (b.take 4)
  let hmap := fld h 14 0
  match fld h 31 30 with
  | 0 =>
    if BitVec.ofNat 10 (fld h 29 20) ≠ s.link.rxFsn then s
    else
      let s := s.setLink { s.link with rxFsn := s.link.rxFsn + 1, naking := false, rxUnacked := s.link.rxUnacked + 1 }
      let s := (flitSlots b).zipIdx.foldl (fun s e => takeSlotIn s e.1 (bitOf hmap e.2)) s
      if 16 ≤ s.link.rxUnacked then s.setLink (controlFlit s.link) else s
  | 1 =>
    s.setLink { s.link with slots := s.link.slots ++
      (((flitSlots b).zipIdx.filter fun e => bitOf hmap e.2).map Prod.fst).filter fun x => 1 ≤ x.toNat / 2 ^ 124 ∧ x.toNat / 2 ^ 124 ≤ 6 }
  | 2 => s
  | _ => clCount s clBadFlit 1

/-- FLIT_RECEIVE (R294, R295, R297, R302). -/
def execFlitReceive (flit : BitVec 2048) (s : State) : Host.Outcome State Fault Refusal :=
  .next <|
    if s.boot.clocksOff ∨ s.link.st ≠ 2 ∨ s.link.pstate = 3 then s
    else
      let (b, n) := flitFec s.link.forerunner (toLe 256 flit.toNat)
      let s := if n = 0 then s else clCount s clFecCorr n
      if flitCrcOk b then takeFlit s b
      else
        let s := clCount s clCrcErr 1
        if s.link.naking then s
        else s.setLink (sendControl { s.link with naking := true } [slotOf 2 (lastGood s.link) 0 0 0 0])

/-! ### Training, retraining and link loss (R290 to R292, R305, R318) -/

/-- Whether lanes o to o + n - 1 all pass. -/
def lanesPass (lanes : BitVec 32) (o n : Nat) : Bool := (List.range n).all fun i => lanes.getLsbD (o + i)

/-- Width the lanes that pass give, 0 ×32, 1 ×16, 2 ×8, and the lowest lane of the half or group used, the lower first (R291),
among the widths both sides have (bit w of `widths`: stage 3 of Table 10.2). -/
def trainWidth (lanes : BitVec 32) (widths : BitVec 3) : Option (Nat × Nat) :=
  ([(0, 0), (1, 0), (1, 16), (2, 0), (2, 8), (2, 16), (2, 24)] : List (Nat × Nat)).find? fun e =>
    widths.getLsbD e.1 && lanesPass lanes e.2 (32 / 2 ^ e.1)

/-- Each step from width u down to width w is a Ripstop event (R291). -/
def widthEvent (s : State) (u w : Nat) : State :=
  (List.range (w - u)).foldl (fun s i => ripEvent s 0x12 0 4 0 0 (32 / 2 ^ (u + i + 1))) s

/-- What a link loss does (R305), `st` the state it leaves: TRAINING, or DOWN while the companion is held in reset, whose
requests then get no response (R320). Every outstanding request ends before a transfer sends another. -/
def linkLoss (s : State) (st : BitVec 2) : State :=
  let reqs := s.link.reqs
  let dirty := s.link.cache.filter fun e => e.2.st = .modified
  let s := s.setLink { s.link with
    st := st, pstate := 0, retraining := false, pmAsked := none, naking := false, nakSame := 0,
    partSlots := [], slots := [], tx := [], replay := [], reqs := [], cache := [], dir := [], home := [], homeWait := [],
    rx := if s.pins.cprstN then s.link.rx.filter fun m => m.ch ≠ 1 else [] }
  let s := cxPumpAll (reqs.foldl (fun s r => finishReq s r.2 csDATA_ERR .invalid []) s)
  let s := dirty.foldl (fun s e => ripEvent s 0x12 0 4 0 0 e.1) s
  ripEvent (clEvent s 1) 0x12 0 4 0 0 0

/-- Training may run: REFCLK_CL is there and the companion is not held in reset (R289, R320). -/
def mayTrain (s : State) : Bool := !s.boot.clocksOff && s.pins.refCl && s.pins.cprstN

/-- The link comes up fresh: FSN 0, and the grants both sides gave (R291, R318, Tables 10.2, 10.7). -/
def linkFresh (l : Link) (w : Nat × Nat) (grants : List Nat) (fr : Bool) : Link :=
  controlFlit { l with
    st := 2, width := BitVec.ofNat 2 w.1, lane0 := w.2, offered := deviceGrant, grant := grantsOf grants, forerunner := fr, pstate := 0,
    retraining := false, pmAsked := none, naking := false, nakSame := 0, txFsn := 0, rxFsn := 0, replay := [],
    rxUnacked := 0, freed := [], freedSent := [], grants := [], used := [] }

/-- Mode that training chooses (R290): `fr` when the companion does not advertise native mode. -/
def trainMode (l : Link) (fr : Bool) : Bool := fr || l.forceFr ≠ 0

/-- Full training (R291). -/
def train (s : State) (lanes : BitVec 32) (widths : BitVec 3) (grants : List Nat) (fr : Bool) : State :=
  match trainWidth lanes widths with
  | none => s.setLink { s.link with st := 0 }
  | some w => pump (widthEvent (s.setLink (linkFresh s.link w grants (trainMode s.link fr))) s.link.width.toNat w.1)

/-- TRAINING (R291), which is also the exit from L2 (R318): the lanes that pass equalisation, and what the companion's side of
the capability exchange gives (Table 10.2): widths, credit grants, mode. -/
def execTraining (lanes : BitVec 32) (peer : TrainPeer) (s : State) : Host.Outcome State Fault Refusal :=
  .next <|
    if !mayTrain s ∨ (s.link.st = 2 ∧ s.link.pstate ≠ 3) ∨ s.link.retraining then s else train s lanes peer.widths peer.grants peer.forerunner

/-- TRAINING_RETRY (R291). -/
def execTrainingRetry (s : State) : Host.Outcome State Fault Refusal :=
  .next (if mayTrain s ∧ s.link.st = 0 then s.setLink { s.link with st := 1 } else s)

/-- RETRAIN (R292, R304): in the same mode it keeps the replay buffer and resumes, the grants as they were; any other is a link
loss, and the link trains anew. -/
def execRetrain (lanes : BitVec 32) (forerunner : Bool) (s : State) : Host.Outcome State Fault Refusal :=
  outcome s <|
    if !mayTrain s ∨ !((s.link.st = 2 ∧ s.link.pstate ≠ 3) ∨ s.link.retraining) then s
    else match trainWidth lanes 7 with
      | some w =>
        if trainMode s.link forerunner = s.link.forerunner then
          let u := s.link.width.toNat
          let l := { s.link with st := 2, pstate := 0, width := BitVec.ofNat 2 w.1, lane0 := w.2, retraining := false, naking := false, nakSame := 0 }
          let s := s.setLink (controlFlit { l with sent := l.sent ++ l.replay.map Prod.snd })
          pump (widthEvent (clEvent (clCount s clRetrain 1) 2) u w.1)
        else linkLoss s 1
      | none => linkLoss s 1

/-- LINK_LOSS (R305). -/
def execLinkLoss (s : State) : Host.Outcome State Fault Refusal :=
  outcome s <|
    if s.boot.clocksOff ∨ !(s.link.st = 2 ∨ s.link.retraining) then s else linkLoss s (if mayTrain s then 1 else 0)

end Sys2Proof.Machine
end

