-- ==== Sys2Proof/Machine/Partition.lean ====
section
/-! DEFINITION. Oilcloth partitions (11 R321 to R326, R347): creation, resize, reset, destruction and their wipes. -/

namespace Sys2Proof.Machine

open Sys2Proof

/-! ### Allotments (Table 11.1, R323, R325) -/

/-- The allotments a partition holds: its own and, while it is resized, the new one. -/
def heldAllots (P : Part) : List Alloc :=
  match P.st with
  | .free => []
  | .resizing => [P.alloc, P.staged]
  | _ => [P.alloc]

/-- Far units a partition may take: 576 less what others hold. -/
def farFree (s : State) (k : Nat) : Nat :=
  576 - ((allParts.filter (· ≠ k)).map fun j => ((heldAllots (s.part j)).map fun A => A.farGib.toNat).foldl max 0).foldl (· + ·) 0

/-- Whether two ranges share an index. -/
def meet (a n b m : Nat) : Bool := a < b + m && b < a + n

/-- Whether an allotment keeps Table 11.1's units and takes nothing another partition holds. A queue or counter range is at
least one unit (DEDUCED, log 57). -/
def allotOk (s : State) (k : Nat) (A : Alloc) : Bool :=
  let q := A.qbase.toNat
  let n := A.qcount.toNat
  let c := A.cbase.toNat
  let m := A.ccount.toNat
  A.slices ≠ 0
    && (List.range 16).all (fun i => !A.slices.getLsbD i || (s.slice i).owner = none || (s.slice i).owner = some k)
    && 1 ≤ A.farGib.toNat && A.farGib.toNat ≤ 576 && A.farGib.toNat ≤ farFree s k
    && q % 4096 = 0 && n % 4096 = 0 && 0 < n && q + n ≤ 2 ^ 20
    && c % 64 = 0 && m % 64 = 0 && 0 < m && c + m ≤ 16384
    && allParts.all fun j => j = k || (heldAllots (s.part j)).all fun B =>
        !(meet q n B.qbase.toNat B.qcount.toNat) && !(meet c m B.cbase.toNat B.ccount.toNat)

/-! ### Measurement (R337) -/

/-- MR := SHAKE256(MR ‖ d, 512). -/
def extendMr (mr d : Bytes) : Bytes := fit 64 (Config.shake256 (slice mr 0 64 ++ d) 512)

/-- Extends MR3 with the allotment and modes, then with the digest of the tenant key (R324, R337; the layout of the first is
not stated, log 53). -/
def measurePart (P : Part) : Part :=
  let A := P.alloc
  let d := fit 64 (Config.shake256 (Config.measured 53 [A.slices.toNat, A.farGib.toNat, A.qbase.toNat, A.qcount.toNat,
    A.cbase.toNat, A.ccount.toNat, P.dict.mode.toNat, P.dict.powerPooled.toNat]) 512)
  { P with mr3 := extendMr (extendMr P.mr3 d) (fit 64 (Config.shake256 P.tenantKey 512)) }

/-! ### Wipes (R347; 04 R96; 03 R63) -/

/-- Wipes a slice's SRAM, vector cores, planes and drain buffers. -/
def wipeSlice (s : State) (i : Nat) : State :=
  let s := s.setMem (memWipe s.mem (sramKey i 0) (2 ^ 27))
  let s := (List.range 4).foldl (fun s j => s.putVc (4 * i + j) {}) s
  let s := (List.range 6).foldl (fun s j => s.modMu (6 * i + j) fun m => { quad := m.quad }) s
  s.putPipe i {}

/-- Wipes a partition's near frames, and its far units. -/
def wipeNear (s : State) (k : Nat) : State := s.setMem (memWipe s.mem (nearKey k 0) (2 ^ 48))
def wipeFar (s : State) (k : Nat) : State := s.setMem (memWipe s.mem (farKey k 0) (2 ^ 48))

/-- Zeroes a counter range. -/
def zeroCtrs (s : State) (base n : Nat) : State := s.setCtrs (s.ctrs.filter fun e => e.1 < base ∨ base + n ≤ e.1)

/-- Sets every queue of a range to DISABLED with HEAD, TAIL and EXP_SEQ zero. -/
def clearQueues (s : State) (base n : Nat) : State :=
  s.setQueues (s.queues.filter fun e => e.1 < base ∨ base + n ≤ e.1)

/-- A fresh far key for a partition (R324 step 1, R326 step 7). -/
def freshFarKey (s : State) (k : Nat) : State :=
  let (b, s) := s.draw 64
  s.modPart k fun P => { P with keys := { P.keys with far := some b } }

/-! ### Creation (R323, R324) -/

/-- Entry defaults that depend on the partition (14 Table 14.13). -/
def dictDefaults (s : State) (k : Nat) (A : Alloc) : PDict :=
  { iwinFrames := BitVec.ofNat 32 (poolFrames { alloc := A } / 8),
    mac := s.rolser.mgmtMac + BitVec.ofNat 48 (0x100 * (k + 1)) }

/-- Status of CREATE (R323; BUSY of R419, log 58). -/
def createStatus (s : State) (k : Nat) : Nat :=
  let P := s.part k
  if P.st = .creating then 0x08
  else if P.st ≠ .free ∨ s.boot.state ≠ 0x00 ∨ ¬(s.trust.lcs = 1 ∨ s.trust.lcs = 2) then 0x05
  else if P.tenantKey = [] ∨ !allotOk s k P.staged then 0x04
  else 0x00

/-- Gives the slices of a mask an owner, in phase 5 (07 R222). -/
def takeSlices (s : State) (mask : BitVec 16) (k : Nat) : State :=
  ((List.range 16).filter fun i => mask.getLsbD i).foldl (fun s i =>
    s.modSlice i fun x => { x with owner := some k, phase := 5, leaving := false }) s

/-- CREATE is accepted: the resources are the partition's, its entries take their defaults. -/
def startCreate (s : State) (k : Nat) : State :=
  let P := s.part k
  let s := allotFar (s.putPart k
    { st := .creating, staged := P.staged, alloc := P.staged, tenantKey := P.tenantKey, dict := dictDefaults s k P.staged })
    k P.staged.farGib.toNat
  retargetAll (takeSlices s P.staged.slices k)

/-- CREATE (R323). -/
def execCreate (k : Fin 16) (s : State) : Host.Outcome State Fault Refusal :=
  .next (if !s.boot.clocksOff ∧ createStatus s k.val = 0 then startCreate s k.val else s)

/-- The steps of R324. -/
def finishCreate (s : State) (k : Nat) : State :=
  let A := (s.part k).alloc
  let s := freshFarKey s k
  let s := (slicesOf (s.part k)).foldl wipeSlice s
  let s := wipeFar (wipeNear s k) k
  let s := clearQueues (zeroCtrs s A.cbase.toNat A.ccount.toNat) A.qbase.toNat A.qcount.toNat
  s.modPart k fun P => measurePart { P with stepNo := 0, age := 0, mr3 := [], st := .reserved }

/-- CREATION_COMPLETES (R324). -/
def execCreationCompletes (k : Fin 16) (s : State) : Host.Outcome State Fault Refusal :=
  .next (if s.boot.clocksOff ∨ (s.part k.val).st ≠ .creating then s else finishCreate s k.val)

/-! ### Resize (R325) -/

/-- Status of RESIZE (R325; BUSY of R419, log 58). -/
def resizeStatus (s : State) (k : Nat) : Nat :=
  let P := s.part k
  if P.st = .resizing then 0x08
  else if P.st ≠ .active ∨ !((queuesOf s k).all fun q =>
      (s.queue q).st = .paused || (s.queue q).st = .faulted || (s.queue q).st = .disabled) then 0x05
  else if !allotOk s k P.staged then 0x04
  else 0x00

/-- Slices a resize adds, and removes. -/
def added (P : Part) : BitVec 16 := P.staged.slices &&& ~~~P.alloc.slices
def removed (P : Part) : BitVec 16 := P.alloc.slices &&& ~~~P.staged.slices

/-- RESIZE is accepted: added slices are held, removed ones are leaving. -/
def startResize (s : State) (k : Nat) : State :=
  let P := s.part k
  let s := takeSlices (s.putPart k { P with st := .resizing }) (added P) k
  retargetAll <| ((List.range 16).filter fun i => (removed P).getLsbD i).foldl (fun s i =>
    s.modSlice i fun x => { x with leaving := true }) s

/-- RESIZE (R325). -/
def execResize (k : Fin 16) (s : State) : Host.Outcome State Fault Refusal :=
  .next (if !s.boot.clocksOff ∧ resizeStatus s k.val = 0 then startResize s k.val else s)

/-- Evicts a page: its dirty sectors go to its far home and its frame is wiped (R325, 05 R136). -/
def evictPage (s : State) (k r : Nat) : State :=
  let g := pageRec (s.part k) r
  let a := 2 ^ 21 * r
  let s := (List.range 32).foldl (fun s x =>
    if g.dirty.getLsbD x && servedNear g x then
      s.setMem (memCopy s.mem (nearKey k (a + 2 ^ 16 * x)) (farKey k (a + 2 ^ 16 * x)) (2 ^ 16))
    else s) s
  let s := s.setMem (memWipe s.mem (nearKey k a) (2 ^ 21))
  pageDone (modPage s k r fun g => { affinity := g.affinity }) k r

/-- Pages with a frame in part on a slice that leaves: the local pages of its die, whose lines rotate over every slice there,
and the interleaved ones (05 R133, R150; log 51). -/
def leavingPages (P : Part) : List Nat :=
  let out := removed P
  let dies := (List.range 16).filterMap fun i => if out.getLsbD i then some (i / 4) else none
  if out = 0 then []
  else (P.pages.filter fun e => match e.2.frame with | some d => d = 4 || dies.contains d | none => false).map Prod.fst

/-- Queue contexts and counters of a range given up are cleared (log 51). -/
def dropRanges (s : State) (A B : Alloc) : State :=
  let inQ (C : Alloc) (q : Nat) : Bool := C.qbase.toNat ≤ q && q < C.qbase.toNat + C.qcount.toNat
  let inC (C : Alloc) (c : Nat) : Bool := C.cbase.toNat ≤ c && c < C.cbase.toNat + C.ccount.toNat
  let s := s.setQueues (s.queues.filter fun e => !inQ A e.1 || inQ B e.1)
  s.setCtrs (s.ctrs.filter fun e => !inC A e.1 || inC B e.1)

/-- The steps of R325; the staged allotment is taken whole (14 R427). -/
def finishResize (s : State) (k : Nat) : State :=
  let P := s.part k
  let A := P.staged
  let s := dropRanges s P.alloc A
  let s := ((List.range 16).filter fun i => (added P).getLsbD i).foldl wipeSlice s
  let s := (leavingPages P).foldl (fun s r => evictPage s k r) s
  let s := ((List.range 16).filter fun i => (removed P).getLsbD i).foldl (fun s i =>
    (wipeSlice s i).modSlice i fun x => { x with owner := none, phase := 5, leaving := false }) s
  let top := 2 ^ 30 * A.farGib.toNat
  let s := s.setMem (memWipe (memWipe s.mem (farKey k top) (2 ^ 48 - top)) (nearKey k top) (2 ^ 48 - top))
  let s := s.modPart k fun P => measurePart
    { P with
      alloc := A, st := .active
      pages := P.pages.filter fun e => 2 ^ 21 * e.1 < top
      openPages := P.openPages.filter fun e => 2 ^ 21 * e.1 < top }
  retargetAll (allotFar s k A.farGib.toNat)

/-- RESIZE_COMPLETES (R325). -/
def execResizeCompletes (k : Fin 16) (s : State) : Host.Outcome State Fault Refusal :=
  outcome s (if s.boot.clocksOff ∨ (s.part k.val).st ≠ .resizing then s else finishResize s k.val)

/-! ### Reset and destruction (R326) -/

/-- Status of PART_RESET and DESTROY (R326). -/
def endStatus (s : State) (k : Nat) : Nat :=
  match (s.part k).st with
  | .reserved | .active => 0x00
  | .free => 0x05
  | _ => 0x08

/-- Step 1 begins: QRESET with DISABLE = 1 of every queue. -/
def startEnd (s : State) (k : Nat) (st : PState) : State :=
  let s := s.modPart k fun P => { P with st := st }
  (queuesOf s k).foldl (fun s q => finishReset (beginReset s q q true) k q) s

/-- PART_RESET (R326). -/
def execPartReset (k : Fin 16) (s : State) : Host.Outcome State Fault Refusal :=
  outcome s (if !s.boot.clocksOff ∧ endStatus s k.val = 0 then startEnd s k.val .resetting else s)

/-- DESTROY (R326). -/
def execDestroy (k : Fin 16) (s : State) : Host.Outcome State Fault Refusal :=
  outcome s (if !s.boot.clocksOff ∧ endStatus s k.val = 0 then startEnd s k.val .destroying else s)

/-- Every queue of the partition has left RESETTING. -/
def queuesStopped (s : State) (k : Nat) : Bool := (queuesOf s k).all fun q => (s.queue q).st ≠ .resetting

/-- What is left of a partition's own state after steps 1 to 6 of R326: its allotment, entries, measurement, counters
that no step clears, and flags whose event counters clear (06 R186). -/
def strippedPart (P : Part) : Part :=
  { st := P.st, alloc := P.alloc, staged := P.staged, farUnits := P.farUnits, tenantKey := P.tenantKey, dict := P.dict, mr3 := P.mr3,
    qpage := { event := P.qpage.event, lastFault := P.qpage.lastFault, dbDrop := P.qpage.dbDrop, armId := P.qpage.armId, armVal := P.qpage.armVal },
    xfer := P.xfer, frames := P.frames, events := P.events, opCap := P.opCap, memPace := P.memPace,
    linkPace := P.linkPace, qps := (P.qps.map fun e => (e.1, resetQp e.2)).filter fun e => e.2 ≠ {} }

/-- Steps 1 to 6 of R326 once the queues have stopped. -/
def stripPart (s : State) (k : Nat) : State :=
  let A := (s.part k).alloc
  let s := clearQueues (zeroCtrs s A.cbase.toNat A.ccount.toNat) A.qbase.toNat A.qcount.toNat
  let s := ((s.link.cache.filter fun e => e.2.rdom.toNat = k + 1).map Prod.fst).foldl evictLine s
  let s := (slicesOf (s.part k)).foldl wipeSlice s
  let s := wipeFar (wipeNear s k) k
  let s := (slicesOf (s.part k)).foldl (fun s i => s.modSlice i fun x => { x with phase := 5 }) s
  let s := (s.modPart k strippedPart).modMailbox (k + 1) fun m => { m with readyCnt := 0 }
  closeSessions s fun S => S.role = k + 1

/-- RESET_COMPLETES (R326): the steps, and RESERVED. -/
def execResetCompletes (k : Fin 16) (s : State) : Host.Outcome State Fault Refusal :=
  outcome s <|
    let k := k.val
    if s.boot.clocksOff ∨ (s.part k).st ≠ .resetting then s
    else
      let s := (queuesOf s k).foldl (fun s q => finishReset s k q) s
      if !queuesStopped s k then s
      else retargetAll ((freshFarKey (stripPart s k) k).modPart k fun P => { P with st := .reserved })

/-- A partition's resources are FREE again. -/
def freePart (s : State) (k : Nat) : State :=
  let sl := slicesOf (s.part k)
  let s := (stripPart s k).putPart k {}
  retargetAll (sl.foldl (fun s i => s.modSlice i fun x => { x with owner := none, phase := 5, leaving := false }) s)

/-- DESTRUCTION_COMPLETES (R326). -/
def execDestructionCompletes (k : Fin 16) (s : State) : Host.Outcome State Fault Refusal :=
  outcome s <|
    let k := k.val
    if s.boot.clocksOff ∨ (s.part k).st ≠ .destroying then s
    else
      let s := (queuesOf s k).foldl (fun s q => finishReset s k q) s
      if !queuesStopped s k then s else freePart s k

end Sys2Proof.Machine
end

