-- ==== Sys2Proof/Machine/Training.lean ====
section
/-! DEFINITION. The training step's own commands: LOSS, LATCH, COMMIT, REFUSE, DREGION, DSTEP, PHASE (07 R188, R205 to
R222). -/

namespace Sys2Proof.Machine

open Sys2Proof

/-- Runs an update-class command other than UPDATE on the pipe R355 names; with no pipe it completes INVALID, and on a pipe that
is about to be replaced it waits (R352). -/
def onPipe (s : State) (q : Qid) (sel : State → Nat → Nat → Bool) (f : State → Nat → Nat → Nat → State × Started) : State :=
  match startable s q.toNat with
  | none => s
  | some (k, c) =>
    if !sel s k c ∨ pipeDue s k c then s
    else
      runFront s q.toNat (fun _ => true) fun s k c =>
        match pipeOf s (s.part k) c with
        | none => (s, failed stINVALID 3)
        | some p => f s k c p

/-- Picks an update-class kind. -/
def isUpd (kind : Nat) (_ : State) (_ c : Nat) : Bool := isKind 2 kind c

/-! ### LOSS (R212, R213) -/

/-- The saturated loss register value of a record (R212). -/
def lossOf (code value : Nat) : Int :=
  let x := roundInt (BitVec.ofNat 32 value).toInt ((code : Int) - 127) (-16)
  max (-(2 ^ 63 - 1)) (min (2 ^ 63 - 1) x)

/-- The detector's verdict on a loss (R213). -/
def spikes (d : PDict) (h : Health) (lq : Int) : Bool :=
  lq < d.lsMin.toInt || d.lsMax.toInt < lq ||
    (64 ≤ h.lsN.toNat && (let x := lq - h.lsMean.toInt
      0 < x && (d.lsK.toNat * d.lsK.toNat * h.lsVar.toNat : Int) < x * x * 65536))

/-- The health state after a LOSS (R212). -/
def afterLoss (d : PDict) (h : Health) (code value : Nat) : Health :=
  let h := { h with noLoss := false, post := setFlag h.post 3 }
  if code = 0xFF then { h with nan := satAdd 32 h.nan 1, nanLoss := true, post := setFlag h.post 4 }
  else
    let lq := lossOf code value
    let h' := { h with loss := BitVec.ofInt 64 lq }
    if spikes d h lq then { h' with spike := true, post := setFlag h.post 2 } else h'

/-- LOSS (R212). -/
def execLoss (q : Qid) (s : State) : Host.Outcome State Fault Refusal :=
  outcome s <| onPipe s q (isUpd 0x11) fun s k c p =>
    let a := fld c 175 128
    if a % 8 ≠ 0 ∨ !bodyClear c [(175, 128)] then (s, failed stINVALID 3 0 p)
    else if !readable (s.part k) a 8 then (s, failed stADDRESS 3 a p)
    else
      let w := s.loadNat k a 8
      let s := s.noteRead k a 8
      (s.modPart k fun P => { P with health := afterLoss P.dict P.health (bitsOf w 39 32) (bitsOf w 31 0) }, {})

/-! ### LATCH (R215) -/

/-- The loss fingerprint of a step (12 R378). -/
def fpOf (n lq : BitVec 64) (gc1 gc2 : BitVec 64) : BitVec 64 :=
  BitVec.ofNat 64 (leNat (fit 8 (Config.shake256 (toLe 8 n.toNat ++ toLe 8 lq.toNat ++ toLe 8 gc1.toNat ++ toLe 8 gc2.toNat) 64)))

/-- The latch of the step: the word and the counters, the parameters it will be judged under (14 R430), its fingerprint. -/
def latched (P : Part) (w : BitVec 64) : Part :=
  let h := P.health
  let fp := fpOf (P.stepNo.zeroExtend 64) h.loss h.gc1 h.gc2
  { P with
    health := { h with latch := some (w, healthCounters h), word := w, latchMask := P.dict.voteMask,
                       latchLsA := P.dict.lsA, post := 0, fp := fp }
    drain := P.drain.map fun d => if d.step.toNat + 1 = P.stepNo.toNat then { d with fp := some fp } else d }

/-- LATCH (R215). -/
def execLatch (q : Qid) (s : State) : Host.Outcome State Fault Refusal :=
  outcome s <| onPipe s q (isUpd 0x12) fun s k c p =>
    let a := fld c 175 128
    if a % 8 ≠ 0 ∨ !bodyClear c [(175, 128)] then (s, failed stINVALID 3 0 p)
    else if !writable (s.part k) a 8 then (s, failed stADDRESS 3 a p)
    else
      let w := BitVec.ofNat 64 (healthWord (s.part k))
      ((s.store k a (toLe 8 w.toNat)).modPart k fun P => latched P w, {})

/-! ### The end of a step (R214, R217 to R221) -/

/-- The counters and flags left for the next step (R219). -/
def closeHealth (h : Health) : Health :=
  let sub (i : Nat) (c : BitVec 32) : BitVec 32 :=
    match h.latch with
    | some (_, l) => c - l.getD i 0
    | none => 0
  let keep (i : Nat) : Bool := h.latch.isSome && h.post.getLsbD i
  { h with
    nan := sub 0 h.nan, sat := sub 1 h.sat, flush := sub 2 h.flush, div0 := sub 3 h.div0, xsat := sub 4 h.xsat,
    ue := keep 0, qfault := keep 1, spike := keep 2, noLoss := !keep 3, nanLoss := keep 4,
    history := match h.latch with | some (w, _) => w :: h.history | none => h.history,
    latch := none, post := 0, gc1 := 0, gc2 := 0 }

/-- The fold of the loss register into the detector (R214). -/
def foldLoss (h : Health) (lsA : Nat) : Health :=
  let lq := h.loss.toInt
  let n := if h.lsN = 0xFFFFFFFF then h.lsN else h.lsN + 1
  if h.lsN = 0 then { h with lsMean := h.loss, lsVar := 0, lsN := n }
  else
    let d := lq - h.lsMean.toInt
    { h with lsMean := BitVec.ofInt 64 (h.lsMean.toInt + d >>> lsA),
             lsVar := BitVec.ofInt 128 ((h.lsVar.toNat : Int) + (d * d - (h.lsVar.toNat : Int)) >>> lsA), lsN := n }

/-- The mask and LS_A a step is judged under (14 R430), without SPIKE when the step service relaxes it (R221). -/
def judgeMask (P : Part) : BitVec 16 :=
  let m := if P.health.latch.isSome then P.health.latchMask else P.dict.voteMask
  if P.health.maskSpike then m &&& ~~~0x0080#16 else m
def judgeLsA (P : Part) : Nat := (if P.health.latch.isSome then P.health.latchLsA else P.dict.lsA).toNat

/-- Rows of Table 07.13 by their causes in the voted word. -/
def causeRow (v : Nat) : Nat :=
  if bitOf v 10 ∨ bitOf v 9 then 0
  else if bitOf v 6 ∨ bitOf v 5 then 1
  else if bitOf v 4 then 2
  else if bitOf v 0 ∨ bitOf v 7 ∨ bitOf v 8 then 3
  else if bitOf v 1 ∨ bitOf v 2 ∨ bitOf v 3 then 4
  else 5

/-- The action an entry of the policy gives after n refusals for the cause: 0 substitute, 1 replay, 2 restore, 3 replay
with exponents raised, 4 skip (14 Table 14.12). -/
def policyAction (entry n xsatReplays : Nat) : Nat :=
  match entry with
  | 0 => 0
  | 1 => if n ≤ 1 then 1 else 2
  | 2 => if n ≤ xsatReplays then 3 else 4
  | 3 => 4
  | _ => if n ≤ 1 then 1 else 4

/-- The step service's choice after a refusal with voted word v (R221). -/
def refusalPolicy (d : PDict) (h : Health) (v : Nat) : Health :=
  let row := causeRow v
  if row = 5 then { h with cause := 5, refusals := 0, spikeRun := 0, policy := none, maskSpike := false }
  else
    let n := if h.cause = row then h.refusals + 1 else 1
    let a := policyAction (d.policy.getD row 0).toNat n d.xsatReplays.toNat
    let run := if v % 2 ^ 11 = 0x80 then h.spikeRun + 1 else 0
    let relax := d.spikeRelax.toNat ≠ 0 ∧ d.spikeRelax.toNat ≤ run
    { h with cause := row, refusals := if a = 4 ∨ a = 2 ∨ a = 0 then 0 else n, policy := some (BitVec.ofNat 3 a),
             spikeRun := if relax then 0 else run, maskSpike := relax }

/-- A step whose next attempt votes without SPIKE is logged (R221). -/
def logRelax (step : BitVec 48) (h : Health) : Health := if h.maskSpike then { h with relaxLog := step :: h.relaxLog } else h

/-- What a refusal does (R218 to R221): scratch ranges are zero-filled, the health state is closed, the back faces are
undefined. -/
def refuseStep (s : State) (k v : Nat) : State :=
  let P := s.part k
  let s := (P.regions.filter fun e => e.2.kind = .scratch).foldl
    (fun s e => s.zeroFill k e.2.front.toNat (2 ^ 21 * e.2.npages)) s
  let d := 16 * s.draws + k
  s.modPart k fun P =>
    { openBacks d wasAtRefusal (P.regions.map Prod.snd) P with
      health := logRelax P.stepNo (refusalPolicy P.dict (closeHealth { P.health with stepsRef := satAdd 64 P.health.stepsRef 1 }) v) }

/-! ### Securing at a commit (12 R368 to R372) -/

/-- Front pages of every pair by ascending INDEX, then address, as page records (12 R371). -/
def frontPages (P : Part) : List Nat :=
  (P.regions.filter fun e => e.2.kind = .pair).flatMap fun e =>
    (List.range e.2.npages).map fun i => recordOf P (pageNo e.2.front.toNat + i)

/-- The bytes of the tables that the step plans name, where they may be read (12 Table 12.6). -/
def planBytes (s : State) (k : Nat) : Bytes :=
  (Config.planTables (s.part k).plans).flatMap fun e => if readable (s.part k) e.1 e.2 then s.load k e.1 e.2 else List.replicate e.2 0

/-- The small state (12 Table 12.6). -/
def smallState (s : State) (k : Nat) (n : BitVec 48) : Snapshot :=
  let P := s.part k
  { step := n, cursors := (queuesOf s k).map fun q => let Q := s.queue q; (q, Q.head, Q.tail, Q.expSeq, Q.st),
    ctrs := s.ctrs.filter fun e => ctrIn P e.1, regions := P.regions, job := P.job, loss := P.health.loss,
    lsN := P.health.lsN, lsMean := P.health.lsMean, lsVar := P.health.lsVar, fp := P.health.fp, streams := P.streamPos,
    planCursor := P.planCursor, tables := planBytes s k }

/-- The image of a snapshot: the items of 12 Table 12.6 in its order, each at the size given there (the layout within an item is a
DESIGN CHOICE, log 62). -/
def snapImage (x : Snapshot) : Bytes :=
  let J := x.job.getD {}
  let n := J.x * J.y * J.z * J.w
  let rank (r : Nat) : Bytes :=
    let e : RankEntry := tget {} J.table r
    toLe 32 (e.valid.toNat * 2 ^ 128 + e.v4.toNat * 2 ^ 129 + e.addr.toNat)
  toLe 64 (x.step.toNat + 2 ^ 64 * x.cursors.length + 2 ^ 128 * x.ctrs.length + 2 ^ 192 * x.regions.length + 2 ^ 256 * x.job.isSome.toNat
      + 2 ^ 320 * x.streams.length + 2 ^ 384 * x.tables.length)
    ++ x.cursors.flatMap (fun e => toLe 16 (e.1 + 2 ^ 24 * e.2.1.toNat + 2 ^ 48 * e.2.2.1.toNat + 2 ^ 72 * e.2.2.2.1.toNat
        + 2 ^ 104 * qStateCode e.2.2.2.2))
    ++ x.ctrs.flatMap (fun e => toLe 16 (e.1 + 2 ^ 64 * e.2.toNat))
    ++ x.regions.flatMap (fun e => toLe 32 (e.1 + 2 ^ 8 * (match e.2.kind with | .pair => 0 | .scratch => 1 | .buddy => 3)
        + 2 ^ 16 * e.2.front.toNat + 2 ^ 64 * e.2.back.toNat + 2 ^ 112 * e.2.npages + 2 ^ 144 * e.2.n0.toNat + 2 ^ 192 * e.2.rank.toNat))
    ++ (match x.job with
      | some J => toLe 64 (J.epoch.toNat + 2 ^ 16 * J.x + 2 ^ 40 * J.y + 2 ^ 64 * J.z + 2 ^ 88 * J.w + 2 ^ 112 * J.rank.toNat
            + 2 ^ 128 * joinBits 8 ((List.range 16).map fun p => (tget 0 J.axes p)))
          ++ (List.range n).flatMap rank
      | none => [])
    ++ toLe 64 (x.loss.toNat + 2 ^ 64 * x.lsN.toNat + 2 ^ 128 * x.lsMean.toNat + 2 ^ 192 * x.lsVar.toNat + 2 ^ 320 * x.fp.toNat)
    ++ x.streams.flatMap (fun e => toLe 16 (e.1 + 2 ^ 16 * e.2.1.toNat + 2 ^ 64 * e.2.2.toNat))
    ++ toLe 64 x.planCursor.toNat ++ x.tables

/-- Bytes of a snapshot as a copy holds it: whole units of 256 B (11 R344). -/
def snapBytes (x : Snapshot) : Nat := ((snapImage x).length + 255) / 256 * 256

/-- A snapshot from its image. -/
def snapOf (b : Bytes) : Snapshot :=
  let f (o n : Nat) : Nat := leNat (slice b o n)
  let nq := f 8 8
  let nc := f 16 8
  let nr := f 24 8
  let hasJob := decide (f 32 8 = 1)
  let ns := f 40 8
  let oc := 64 + 16 * nq
  let or_ := oc + 16 * nc
  let oj := or_ + 32 * nr
  let jb := leNat (slice b oj 64)
  let J : Job := { epoch := BitVec.ofNat 16 jb, x := bitsOf jb 39 16, y := bitsOf jb 63 40, z := bitsOf jb 87 64, w := bitsOf jb 111 88,
                   rank := BitVec.ofNat 16 (bitsOf jb 127 112), axes := (List.range 16).map fun p => (p, bitsOf jb (135 + 8 * p) (128 + 8 * p)) }
  let n := if hasJob then J.x * J.y * J.z * J.w else 0
  let table := (List.range n).foldl (fun t r =>
    let v := f (oj + 64 + 32 * r) 32
    tset {} t r { valid := bitOf v 128, v4 := bitOf v 129, addr := BitVec.ofNat 128 v }) []
  let oh := if hasJob then oj + 64 + 32 * n else oj
  let h := leNat (slice b oh 64)
  let os := oh + 64
  let op := os + 16 * ns
  let code : Nat → QState
    | 1 => .active | 2 => .pausing | 3 => .paused | 4 => .faulted | 5 => .resetting | _ => .disabled
  { step := BitVec.ofNat 48 (f 0 8)
    cursors := (List.range nq).map fun i =>
      let v := f (64 + 16 * i) 16
      (bitsOf v 23 0, BitVec.ofNat 24 (bitsOf v 47 24), BitVec.ofNat 24 (bitsOf v 71 48), BitVec.ofNat 32 (bitsOf v 103 72), code (bitsOf v 111 104))
    ctrs := (List.range nc).map fun i => (f (oc + 16 * i) 8, BitVec.ofNat 64 (f (oc + 16 * i + 8) 8))
    regions := (List.range nr).map fun i =>
      let v := f (or_ + 32 * i) 32
      (bitsOf v 7 0, { kind := (match bitsOf v 15 8 with | 0 => .pair | 1 => .scratch | _ => .buddy), front := BitVec.ofNat 48 (bitsOf v 63 16),
                       back := BitVec.ofNat 48 (bitsOf v 111 64), npages := bitsOf v 143 112, n0 := BitVec.ofNat 48 (bitsOf v 191 144),
                       rank := BitVec.ofNat 16 (bitsOf v 207 192) })
    job := if hasJob then some { J with table := table } else none
    loss := BitVec.ofNat 64 h, lsN := BitVec.ofNat 32 (bitsOf h 95 64), lsMean := BitVec.ofNat 64 (bitsOf h 191 128),
    lsVar := BitVec.ofNat 128 (bitsOf h 319 192), fp := BitVec.ofNat 64 (bitsOf h 383 320)
    streams := (List.range ns).map fun i =>
      let v := f (os + 16 * i) 16
      (bitsOf v 15 0, BitVec.ofNat 48 (bitsOf v 63 16), BitVec.ofNat 16 (bitsOf v 79 64))
    planCursor := BitVec.ofNat 512 (f op 64), tables := slice b (op + 64) (f 48 8) }

/-- At the commit of the announced step the snapshot is written and the drain opens (12 R369, R371); a snapshot that was lost is
taken again (12 R382); a drain already in flight becomes urgent once its successor step has committed (12 R372). -/
def secureAt (s : State) (k : Nat) (n : BitVec 48) : State :=
  let s := s.modPart k fun P =>
    { P with drain := P.drain.map fun d => if d.step.toNat + 1 ≤ n.toNat then { d with urgent := true } else d }
  let s := if (s.part k).snapAgain then s.modPart k fun P => { P with snapshot := some (smallState s k n), snapAgain := false } else s
  let P := s.part k
  match P.secAt with
  | none => s
  | some m =>
    if m.toNat < n.toNat then s.modPart k fun P => { P with secAt := none }
    else if m ≠ n ∨ P.drain.isSome then s
    else
      let s := s.modPart k fun P =>
        { P with secAt := none, snapshot := some (smallState s k n), lastBoundary := n, boundaryTime := s.now.toNat,
                 drain := some { step := n, pages := frontPages P, held := frontPages P, snapLen := snapBytes (smallState s k n) } }
      ripEvent s 0x21 (k + 1) 7 0 0 n.toNat

/-! ### COMMIT and REFUSE -/

/-- A passing commit of step n (R217). -/
def passStep (s : State) (k : Nat) (okCtr : Nat) : State :=
  let n := (s.part k).stepNo
  let d := 16 * s.draws + k
  let s := s.modPart k fun P =>
    switchAtCommit { openBacks d wasAtFlip (P.regions.map Prod.snd) { P with stepNo := P.stepNo + 1 } with
      backWritten := [], restores := 0, verify := none, fetch := [], substituting := false
      health := { closeHealth (foldLoss { P.health with stepsOk := satAdd 64 P.health.stepsOk 1 } (judgeLsA P)) with
        cause := 5, refusals := 0, spikeRun := 0, policy := none, maskSpike := false } }
  addCtr (secureAt s k n) k okCtr 1

/-- Whether an accepted migration acts on a page of a pair (R142, R217). -/
def pairsMigrating (P : Part) : Bool :=
  P.pages.any fun e => migrating e.2 && P.regions.any fun r => r.2.kind = .pair &&
    (List.range r.2.npages).any fun i =>
      recordOf P (pageNo r.2.front.toNat + i) = e.1 || recordOf P (pageNo r.2.back.toNat + i) = e.1

/-- Validity of a COMMIT (R190, R217). -/
def commitOk (P : Part) (c : Nat) : Bool :=
  fld c 175 128 % 8 = 0 && ctrIn P (fld c 237 224) && ctrIn P (fld c 251 238) && fld c 223 176 = P.stepNo.toNat
    && bodyClear c [(175, 128), (223, 176), (237, 224), (251, 238)]

/-- The replay after a restore does not give the fingerprint that was recorded: the step is refused, and the next restore takes
the older secured step (12 Table 12.8 row 7; on COMMIT, DEDUCED, log 62). -/
def refuseReplay (s : State) (k v : Nat) : State :=
  (refuseStep s k v).modPart k fun P => { P with verify := none, restores := P.restores + 1, health := { P.health with policy := some 2 } }

/-- COMMIT (R217). -/
def execCommit (q : Qid) (s : State) : Host.Outcome State Fault Refusal :=
  outcome s <| onPipe s q (fun s k c => isKind 2 0x13 c && (!commitOk (s.part k) c || !pairsMigrating (s.part k))) fun s k c p =>
    let P := s.part k
    let a := fld c 175 128
    if !commitOk P c then (s, failed stINVALID 3 0 p)
    else if !readable P a 8 then (s, failed stADDRESS 3 a p)
    else
      let v := s.loadNat k a 8
      let s := s.noteRead k a 8
      if (BitVec.ofNat 16 v &&& judgeMask P) = 0 ∧ bitsOf v 63 48 = P.stepNo.toNat % 2 ^ 16 then
        if P.verify.any (· ≠ P.health.fp) then (addCtr (refuseReplay s k v) k (fld c 251 238) 1, {})
        else (passStep s k (fld c 237 224), {})
      else (addCtr (refuseStep s k v) k (fld c 251 238) 1, {})

/-- REFUSE (R218). It carries no voted word: the step's latched word stands for it in R221 (log 34). -/
def execRefuse (q : Qid) (s : State) : Host.Outcome State Fault Refusal :=
  outcome s <| onPipe s q (isUpd 0x14) fun s k c p =>
    let P := s.part k
    if fld c 223 176 ≠ P.stepNo.toNat ∨ !bodyClear c [(223, 176)] then (s, failed stINVALID 3 0 p)
    else (refuseStep s k (match P.health.latch with | some (w, _) => w.toNat | none => 0), {})

/-! ### DREGION and DSTEP (R205 to R208) -/

def rgFront (c : Nat) : Nat := fld c 175 128
def rgBack (c : Nat) : Nat := fld c 223 176
def rgPages (c : Nat) : Nat := fld c 247 224
def rgIndex (c : Nat) : Nat := fld c 253 248
def rgOp (c : Nat) : Nat := fld c 255 254

/-- Two ranges share a byte. -/
def overlap (a n b m : Nat) : Bool := a < b + m && b < a + n

/-- The ranges of an entry. -/
def entryRanges (r : Region) : List (Nat × Nat) :=
  let n := 2 ^ 21 * r.npages
  if r.kind = .pair then [(r.front.toNat, n), (r.back.toNat, n)] else [(r.front.toNat, n)]

/-- A range is aligned and within the tensor range (R205). -/
def rangeOk (P : Part) (a n : Nat) : Bool := a % 2 ^ 21 = 0 && a + n ≤ tensorSize P && a + n ≤ 0xF00000000000

/-- Validity of a definition (R205, R377). -/
def regionOk (P : Part) (c : Nat) (r : Region) : Bool :=
  1 ≤ r.npages && (tfind P.regions (rgIndex c)).isNone && bodyClear c [(255, 128)]
    && (entryRanges r).all (fun x => rangeOk P x.1 x.2)
    && (r.kind ≠ .pair || !overlap r.front.toNat (2 ^ 21 * r.npages) r.back.toNat (2 ^ 21 * r.npages))
    && P.regions.all (fun e => (entryRanges e.2).all fun y => (entryRanges r).all fun x => !overlap x.1 x.2 y.1 y.2)

/-- The entry a DREGION describes. -/
def regionOf (P : Part) (c : Nat) (kind : RegionKind) : Region :=
  { kind := kind, front := BitVec.ofNat 48 (rgFront c), npages := rgPages c, n0 := P.stepNo,
    back := if kind = .pair then BitVec.ofNat 48 (rgBack c) else 0,
    rank := if kind = .buddy then BitVec.ofNat 16 (rgBack c) else 0 }

/-- Adds an entry to the table. -/
def addRegion (s : State) (k c : Nat) (r : Region) : State :=
  s.modPart k fun P => { P with regions := tins (rgIndex c) r P.regions }

/-- DEFINE_DAMASK_PAIR (R205, R207). -/
def execDefineDamaskPair (q : Qid) (s : State) : Host.Outcome State Fault Refusal :=
  outcome s <| onPipe s q (fun _ _ c => isKind 2 0x15 c && rgOp c = 0) fun s k c p =>
    let r := regionOf (s.part k) c .pair
    if regionOk (s.part k) c r then ((addRegion s k c r).modPart k (openBacks (16 * s.draws + k) wasAtStart [r]), {}) else (s, failed stINVALID 3 0 p)

/-- DEFINE_STEP_SCRATCH_RANGE (R188, R205): the range is zero-filled. -/
def execDefineStepScratchRange (q : Qid) (s : State) : Host.Outcome State Fault Refusal :=
  outcome s <| onPipe s q (fun _ _ c => isKind 2 0x15 c && rgOp c = 1) fun s k c p =>
    let r := regionOf (s.part k) c .scratch
    if regionOk (s.part k) c r ∧ rgBack c = 0 then
      ((addRegion s k c r).zeroFill k r.front.toNat (2 ^ 21 * r.npages), {})
    else (s, failed stINVALID 3 0 p)

/-- DEFINE_BUDDY_RANGE (12 R377). -/
def execDefineBuddyRange (q : Qid) (s : State) : Host.Outcome State Fault Refusal :=
  outcome s <| onPipe s q (fun _ _ c => isKind 2 0x15 c && rgOp c = 3) fun s k c p =>
    let r := regionOf (s.part k) c .buddy
    if regionOk (s.part k) c r ∧ rgBack c < 2 ^ 16 then (addRegion s k c r, {}) else (s, failed stINVALID 3 0 p)

/-- The page records left behind a removed pair's pages: the front range keeps the state that was front (R208). -/
def keepFront (P : Part) (r : Region) : List (Nat × Nat) :=
  if r.kind = .pair ∧ flipped P r then
    (List.range r.npages).foldl (fun m i =>
      let f := pageNo r.front.toNat + i
      let b := pageNo r.back.toNat + i
      let put (m : List (Nat × Nat)) (x v : Nat) : List (Nat × Nat) := if v = x then tdel m x else tins x v (tdel m x)
      put (put m f (baseRec P b)) b (baseRec P f)) P.remap
  else P.remap

/-- A DREGION that removes an entry (R208). -/
def removeEntry (s : State) (k c p : Nat) : State × Started :=
  match tfind (s.part k).regions (rgIndex c) with
  | none => (s, failed stINVALID 3 0 p)
  | some r =>
    if bodyClear c [(255, 128)] then
      (s.modPart k fun P => { P with regions := tdel P.regions (rgIndex c), remap := keepFront P r }, {})
    else (s, failed stINVALID 3 0 p)

/-- REMOVE_ENTRY (R208). -/
def execRemoveEntry (q : Qid) (s : State) : Host.Outcome State Fault Refusal :=
  outcome s <| onPipe s q (fun _ _ c => isKind 2 0x15 c && rgOp c = 2) removeEntry

/-- DSTEP (R208). -/
def execDstep (q : Qid) (s : State) : Host.Outcome State Fault Refusal :=
  outcome s <| onPipe s q (isUpd 0x16) fun s k c p =>
    if (s.part k).regions.any (fun e => e.2.kind = .pair) ∨ !bodyClear c [(175, 128)] then (s, failed stINVALID 3 0 p)
    else (s.modPart k fun P => { P with stepNo := BitVec.ofNat 48 (fld c 175 128) }, {})

/-! ### PHASE (R222) -/

/-- The slices a SLICE_MASK names. -/
def maskSlices (P : Part) (m : Nat) : List Nat := ((slicesOf P).zipIdx.filter fun e => bitOf m e.2).map Prod.fst

/-- PHASE (R222): each named slice moves to the preferred point of its phase; it completes with its last switch. -/
def execPhase (q : Qid) (s : State) : Host.Outcome State Fault Refusal :=
  outcome s <| onPipe s q (isUpd 0x17) fun s k c p =>
    let ph := fld c 130 128
    let m := fld c 146 131
    if 5 < ph ∨ 2 ^ sliceCount (s.part k) ≤ m ∨ !bodyClear c [(130, 128), (146, 131)] then (s, failed stINVALID 3 0 p)
    else
      let l := maskSlices (s.part k) m
      let s := l.foldl (fun s i => retarget (s.modSlice i fun x => { x with phase := BitVec.ofNat 3 ph }) i) s
      (s, { work := if l.isEmpty then .done else .phase l })

end Sys2Proof.Machine
end

