-- ==== Sys2Proof/Machine/Operands.lean ====
section
/-! DEFINITION. Operands of the vector cores (04): views, row tags, predicates, instruction fields and their legality. -/

namespace Sys2Proof.Machine

open Sys2Proof

/-! ### Tiles, tags and predicates (R96, R97, R100) -/

/-- Row tags of a tile nothing has written: EXP 0x7F, EMPTY 0 in all 32 rows (R96). -/
def tagDefault : BitVec 512 := BitVec.ofNat 512 ((List.range 32).foldl (fun a i => a + 0x7F * 2 ^ (16 * i)) 0)

def Vc.tile (v : Vc) (t : Nat) : Nat := (tget 0 v.tiles t).toNat
def Vc.tagWord (v : Vc) (t : Nat) : Nat := (tget tagDefault v.tags t).toNat
/-- Row tag i of a tile: [8] EMPTY, [7:0] EXP (Table 04.1). -/
def Vc.tag (v : Vc) (t i : Nat) : Nat := bitsOf (v.tagWord t) (16 * i + 15) (16 * i)
/-- E8M0 row code of row i (R33, R96). -/
def Vc.code (v : Vc) (t i : Nat) : Nat := v.tag t i % 256
/-- The 1,024 bits of row i. -/
def Vc.rowBits (v : Vc) (t i : Nat) : Nat := bitsOf (v.tile t) (1024 * i + 1023) (1024 * i)
/-- The 128 bits of row i of a predicate tile. -/
def Vc.predBits (v : Vc) (p i : Nat) : Nat := bitsOf (tget 0 v.preds p).toNat (128 * i + 127) (128 * i)
/-- Address register; A0 reads as zero (Table 04.1). -/
def Vc.areg (v : Vc) (r : Nat) : Nat := if r = 0 then 0 else (tget 0 v.aregs r).toNat
/-- Writes an address register; A0 ignores writes (Table 04.1). -/
def Vc.setAreg (v : Vc) (r x : Nat) : Vc :=
  if r = 0 then v else { v with aregs := tset 0 v.aregs r (BitVec.ofNat 48 x) }

/-- Replaces a tile's 32 rows and tags. -/
def Vc.putTile (v : Vc) (t : Nat) (rows : List (Nat × Nat)) : Vc :=
  { v with tiles := tset 0 v.tiles t (BitVec.ofNat 32768 (joinBits 1024 (rows.map Prod.fst))),
           tags := tset tagDefault v.tags t (BitVec.ofNat 512 (joinBits 16 (rows.map Prod.snd))) }

/-- Replaces a predicate tile's 32 rows. -/
def Vc.putPred (v : Vc) (p : Nat) (rows : List Nat) : Vc :=
  { v with preds := tset 0 v.preds p (BitVec.ofNat 4096 (joinBits 128 rows)) }

/-- The w-bit elements of a row (R97). -/
def elemsOf (w x : Nat) : List Nat := (List.range (1024 / w)).map fun j => bitsOf x (w * j + w - 1) (w * j)

/-- Elements of row i of tile t in view w. -/
def Vc.els (v : Vc) (w t i : Nat) : List Nat := elemsOf w (v.rowBits t i)

/-- An element read by SGN (R105). -/
def toI (sgn : Bool) (w x : Nat) : Int := if sgn then sext w x else (x : Int)

/-- Active elements of row i under a PRED value (R100). -/
def Vc.active (v : Vc) (pred w i : Nat) : List Bool :=
  let n := 1024 / w
  if pred = 0 then List.replicate n true
  else
    let b := v.predBits (pred % 8) i
    (List.range n).map fun j => b.testBit (j * (w / 8))

/-! ### Fields of an instruction (R102, Tables 04.2 to 04.4) -/

def iOpc (x : Nat) : Nat := bitsOf x 63 56
def iAd (x : Nat) : Nat := bitsOf x 55 52
def iAs (x : Nat) : Nat := bitsOf x 51 48
def iImm48 (x : Nat) : Int := sext 48 (bitsOf x 47 0)
def iW (x : Nat) : Nat := bitsOf x 55 54
def iPred (x : Nat) : Nat := bitsOf x 53 50
def iZm (x : Nat) : Bool := bitOf x 49
def iSgn (x : Nat) : Bool := bitOf x 48
def iTd (x : Nat) : Nat := bitsOf x 47 43
def iTa (x : Nat) : Nat := bitsOf x 42 38
def iTb (x : Nat) : Nat := bitsOf x 37 33
def iTc (x : Nat) : Nat := bitsOf x 32 28
def iIb (x : Nat) : Bool := bitOf x 27
def iAxis (x : Nat) : Bool := bitOf x 26
def iImm (x : Nat) : Nat := bitsOf x 23 0
def iB0 (x : Nat) : Bool := bitOf x 48
def iBase (x : Nat) : Nat := bitsOf x 42 39
def iStride (x : Nat) : Nat := bitsOf x 38 35
def iTbM (x : Nat) : Nat := bitsOf x 34 30
def iFmt (x : Nat) : Nat := bitsOf x 29 25
def iMode (x : Nat) : Nat := bitsOf x 24 22
def iTexp (x : Nat) : Int := sext 8 (bitsOf x 21 14)
def iOff (x : Nat) : Nat := bitsOf x 13 0

/-- Width of a view (Table 04.3). -/
def viewW : Nat → Nat
  | 0 => 8
  | 1 => 16
  | _ => 32

/-- Width of an instruction's view. -/
def iWidth (x : Nat) : Nat := viewW (iW x)

/-- W and PRED hold no reserved value (R100, Table 04.3). -/
def viewOk (x : Nat) : Bool := iW x ≠ 3 ∧ (iPred x = 0 ∨ 8 ≤ iPred x)

/-- Which R-form fields an opcode uses (R102). -/
structure Uses where
  ta : Bool := false
  tb : Bool := false
  imm : Bool := false
  sel : Bool := false
  axis : Bool := false

/-- R-form legality (R102): with IB = 1, IMM takes TB's place. -/
def rOk (u : Uses) (x : Nat) : Bool :=
  viewOk x && bitsOf x 25 24 = 0 && (iTc x = 0 || (u.sel && iTc x < 8)) && (!iAxis x || u.axis)
    && (u.ta || iTa x = 0) && (!iIb x || u.tb) && ((u.tb && !iIb x) || iTb x = 0) && (u.imm || iIb x || iImm x = 0)

/-- The opcodes of Table 04.5. -/
def opcodeKnown (o : Nat) : Bool :=
  o ≤ 0x04 || (0x20 ≤ o && o ≤ 0x33) || (0x40 ≤ o && o ≤ 0x44) || (0x60 ≤ o && o ≤ 0x67) || (0x80 ≤ o && o ≤ 0x87)
    || (0xA0 ≤ o && o ≤ 0xA5) || o = 0xC0 || o = 0xC1

/-! ### Writing destination rows (R101, R107) -/

/-- What an operation gives for one destination row: NaN, or elements and a row code. -/
structure RowOut where
  nan : Bool := false
  els : List Int := []
  code : Int := 0x7F
  evt : Evt := {}
  div0 : Nat := 0
  deriving DecidableEq, Repr, Inhabited

/-- What instructions add up over their rows. -/
structure VAcc where
  v : Vc
  evt : Evt := {}
  nans : Nat := 0
  div0 : Nat := 0

/-- A written row: its bits and tag, and its events. -/
structure RowNew where
  bits : Nat := 0
  tag : Nat := 0
  evt : Evt := {}
  nans : Nat := 0
  div0 : Nat := 0
  deriving DecidableEq, Repr, Inhabited

/-- Merge of an element list into the old row under the mask (R101). -/
def mergeRow (w : Nat) (zm : Bool) (act : List Bool) (old : List Nat) (new : List Int) : Nat :=
  joinBits w ((act.zip (old.zip (new ++ List.replicate (1024 / w - new.length) 0))).map fun e =>
    if e.1 then pat w e.2.2 else if zm then 0 else e.2.1)

/-- One destination row under the mask (R101, R104, R107, R110). -/
def newRow (v : Vc) (w td i : Nat) (zm : Bool) (act : List Bool) (f : Unit → RowOut) : RowNew :=
  if !act.any id then { bits := if zm then 0 else v.rowBits td i, tag := v.tag td i }
  else
    let r := f ()
    if r.nan ∨ r.code < 0 ∨ 254 < r.code then { tag := 0xFF, evt := r.evt, nans := 1, div0 := r.div0 }
    else { bits := mergeRow w zm act (v.els w td i) r.els, tag := r.code.toNat, evt := r.evt, div0 := r.div0 }

/-- Puts 32 rows into a tile and adds their events up. -/
def putRows (a : VAcc) (td : Nat) (rs : List RowNew) : VAcc :=
  { v := a.v.putTile td (rs.map fun r => (r.bits, r.tag)),
    evt := rs.foldl (fun e r => evtAdd e r.evt) a.evt,
    nans := rs.foldl (fun n r => n + r.nans) a.nans,
    div0 := rs.foldl (fun n r => n + r.div0) a.div0 }

/-- A row-by-row operation of the view of x into tile td; `f` gives row i's outcome from its mask. -/
def rowsOp (a : VAcc) (x td : Nat) (f : Nat → List Bool → RowOut) : VAcc :=
  let w := iWidth x
  putRows a td ((List.range 32).map fun i =>
    let act := a.v.active (iPred x) w i
    newRow a.v w td i (iZm x) act fun _ => f i act)

/-- A predicate-writing operation of the view of x: all w/8 bits of an active element's group take its value, an inactive
element's old bits are kept or zeroed (R100, R101). -/
def predOp (v : Vc) (x : Nat) (f : Nat → List Bool) : Vc :=
  let g := iWidth x / 8
  let p := iTd x % 8
  v.putPred p ((List.range 32).map fun i =>
    let old := v.predBits p i
    let act := v.active (iPred x) (iWidth x) i
    joinBits g (((List.range (128 / g)).zip (act.zip (f i))).map fun e =>
      if e.2.1 then (if e.2.2 then 2 ^ g - 1 else 0) else if iZm x then 0 else bitsOf old (g * e.1 + g - 1) (g * e.1)))

end Sys2Proof.Machine
end

