-- ==== Sys2Proof/Machine/VectorOps.lean ====
section
/-! DEFINITION. What one vector instruction does (04 R102 to R116, R122): each operation from the instruction word and
the core's state to the core's next state. -/

namespace Sys2Proof.Machine

open Sys2Proof

/-- Outcome of one vector instruction: illegal (R102), an address fault (R103, R112), or its effect with the events it
raised and, for LOOP, the index it goes to. -/
inductive VOut where
  | illegal
  | addr (a : Nat)
  | ok (s : State) (a : VAcc) (jump : Option Nat)

/-- What an instruction sees besides its core: the state, its partition, its command. -/
structure VCtx where
  s : State
  k : Nat
  cmd : Nat
  len : Nat
  pc : Nat

/-- A legal instruction that touches the core alone. -/
def inCore (c : VCtx) (ok : Bool) (a : VAcc) : VOut := if ok then .ok c.s a none else .illegal

/-! ### Class 0: control (Table 04.5, A form) -/

/-- NOP (04). -/
def vNop (c : VCtx) (v : Vc) (x : Nat) : VOut := inCore c (bitsOf x 55 0 = 0) { v := v }

/-- SETA: A(AD) := IMM mod 2^48. -/
def vSeta (c : VCtx) (v : Vc) (x : Nat) : VOut := inCore c (iAs x = 0) { v := v.setAreg (iAd x) (bitsOf x 47 0) }

/-- ADDA: A(AD) := (A(AS) + IMM) mod 2^48. -/
def vAdda (c : VCtx) (v : Vc) (x : Nat) : VOut :=
  inCore c true { v := v.setAreg (iAd x) ((v.areg (iAs x) + bitsOf x 47 0) % 2 ^ 48) }

/-- LOOP (Table 04.5, R118): the target counts from the LOOP's own index. A target outside the program is illegal when the
jump is taken; with A(AD) = 0 nothing jumps (DEDUCED, log 69). -/
def vLoop (c : VCtx) (v : Vc) (x : Nat) : VOut :=
  if iAs x ≠ 0 then .illegal
  else if v.areg (iAd x) = 0 then .ok c.s { v := v } none
  else
    let t : Int := (c.pc : Int) + iImm48 x
    if t < 0 ∨ (c.len : Int) ≤ t then .illegal
    else .ok c.s { v := v.setAreg (iAd x) (v.areg (iAd x) - 1) } (some t.toNat)

/-! ### Class 1: integer (R105) -/

/-- The second operand of row i: TB, or IMM truncated to w bits with code 0x7F (R102, R104). -/
def secondOf (v : Vc) (x w i : Nat) : List Nat × Nat :=
  if iIb x then (List.replicate (1024 / w) (pat w (sext 24 (iImm x))), 0x7F) else (v.els w (iTb x) i, v.code (iTb x) i)

/-- A function of two elements over active pairs; inactive ones are not evaluated (R101). -/
def mapActive (act : List Bool) (a b : List Nat) (g : Nat → Nat → Int × Evt) : List Int × Evt :=
  (act.zip (a.zip b)).foldr (fun e acc =>
    if e.1 then let r := g e.2.1 e.2.2; (r.1 :: acc.1, evtAdd r.2 acc.2) else (0 :: acc.1, acc.2)) ([], {})

/-- A two-operand operation with its row code (R105, R107). -/
def binOp (c : VCtx) (v : Vc) (x : Nat) (g : Nat → Bool → Nat → Nat → Int × Evt) (code : Nat → Nat → Nat → Int) : VOut :=
  let w := iWidth x
  inCore c (rOk { ta := true, tb := true } x) <| rowsOp { v := v } x (iTd x) fun i act =>
    let ca := v.code (iTa x) i
    let (b, cb) := secondOf v x w i
    if ca = 0xFF ∨ cb = 0xFF then { nan := true }
    else
      let r := mapActive act (v.els w (iTa x) i) b (g w (iSgn x))
      { els := r.1, code := code w ca cb, evt := r.2 }

/-- An operation on two values that raises no event, under code cA. -/
def plainOp (c : VCtx) (v : Vc) (x : Nat) (g : Nat → Bool → Nat → Nat → Int) : VOut :=
  binOp c v x (fun w sg a b => (g w sg a b, {})) fun _ ca _ => ca

/-- Saturation of ADDS and SUBS (R105). -/
def satW (w : Nat) (sgn : Bool) (r : Int) : Int × Evt :=
  let hi : Int := if sgn then 2 ^ (w - 1) - 1 else 2 ^ w - 1
  let lo : Int := if sgn then -(2 ^ (w - 1)) else 0
  if r > hi then (hi, { sat := 1 }) else if r < lo then (lo, { sat := 1 }) else (r, {})

def vAdd (c : VCtx) (v : Vc) (x : Nat) : VOut := plainOp c v x fun _ _ a b => (a : Int) + b
def vSub (c : VCtx) (v : Vc) (x : Nat) : VOut := plainOp c v x fun _ _ a b => (a : Int) - b
def vAdds (c : VCtx) (v : Vc) (x : Nat) : VOut :=
  binOp c v x (fun w sg a b => satW w sg (toI sg w a + toI sg w b)) fun _ ca _ => ca
def vSubs (c : VCtx) (v : Vc) (x : Nat) : VOut :=
  binOp c v x (fun w sg a b => satW w sg (toI sg w a - toI sg w b)) fun _ ca _ => ca
def vMullo (c : VCtx) (v : Vc) (x : Nat) : VOut :=
  binOp c v x (fun _ _ a b => ((a : Int) * b, {})) fun _ ca cb => (ca : Int) + cb - 127
def vMulhi (c : VCtx) (v : Vc) (x : Nat) : VOut :=
  binOp c v x (fun w sg a b => ((toI sg w a * toI sg w b).fdiv (2 ^ w), {})) fun w ca cb => (ca : Int) + cb - 127 + w
def vShl (c : VCtx) (v : Vc) (x : Nat) : VOut := plainOp c v x fun w _ a b => if w ≤ b then 0 else ((a <<< b : Nat) : Int)
def vShr (c : VCtx) (v : Vc) (x : Nat) : VOut :=
  plainOp c v x fun w sg a b => (toI sg w a).fdiv (2 ^ min b w)
def vMin (c : VCtx) (v : Vc) (x : Nat) : VOut := plainOp c v x fun w sg a b => min (toI sg w a) (toI sg w b)
def vMax (c : VCtx) (v : Vc) (x : Nat) : VOut := plainOp c v x fun w sg a b => max (toI sg w a) (toI sg w b)
def vAnd (c : VCtx) (v : Vc) (x : Nat) : VOut := plainOp c v x fun _ _ a b => ((a &&& b : Nat) : Int)
def vOr (c : VCtx) (v : Vc) (x : Nat) : VOut := plainOp c v x fun _ _ a b => ((a ||| b : Nat) : Int)
def vXor (c : VCtx) (v : Vc) (x : Nat) : VOut := plainOp c v x fun _ _ a b => ((a ^^^ b : Nat) : Int)

/-- SEL: Pc ? TA : TB; a source row is read where an active element picks it (R107). -/
def vSel (c : VCtx) (v : Vc) (x : Nat) : VOut :=
  let w := iWidth x
  inCore c (rOk { ta := true, tb := true, sel := true } x) <| rowsOp { v := v } x (iTd x) fun i act =>
    let ca := v.code (iTa x) i
    let (b, cb) := secondOf v x w i
    let p := v.active (8 + iTc x % 8) w i
    let bad := (act.zip p).any fun e => e.1 && (if e.2 then ca = 0xFF else cb = 0xFF)
    { nan := bad, els := (p.zip ((v.els w (iTa x) i).zip b)).map (fun e => if e.1 then (e.2.1 : Int) else e.2.2), code := ca }

/-- A comparison: Pd, 0 for every active element of a NaN row (R107). -/
def cmpOp (c : VCtx) (v : Vc) (x : Nat) (g : Int → Int → Bool) : VOut :=
  let w := iWidth x
  inCore c (rOk { ta := true, tb := true } x && iTd x < 8) { v := predOp v x (fun i =>
    let (b, cb) := secondOf v x w i
    let nan : Bool := v.code (iTa x) i = 0xFF ∨ cb = 0xFF
    ((v.els w (iTa x) i).zip b).map fun e => !nan && g (toI (iSgn x) w e.1) (toI (iSgn x) w e.2)) }

def vCmpeq (c : VCtx) (v : Vc) (x : Nat) : VOut := cmpOp c v x fun a b => a = b
def vCmplt (c : VCtx) (v : Vc) (x : Nat) : VOut := cmpOp c v x fun a b => a < b
def vCmple (c : VCtx) (v : Vc) (x : Nat) : VOut := cmpOp c v x fun a b => a ≤ b

/-- IOTA (Table 04.5). -/
def vIota (c : VCtx) (v : Vc) (x : Nat) : VOut :=
  let n := 1024 / iWidth x
  inCore c (rOk { imm := true } x && iImm x < 3) <| rowsOp { v := v } x (iTd x) fun i _ =>
    { els := (List.range n).map fun (j : Nat) => match iImm x with
        | 0 => (j : Int)
        | 1 => (i : Int)
        | _ => Int.ofNat (i * n + j) }

/-- One element from code c to code ct (R106). -/
def alignElem (w : Nat) (sgn : Bool) (cd ct : Int) (e : Int) : Int × Evt :=
  let r := roundInt e cd ct
  let hi : Int := if sgn then 2 ^ (w - 1) - 1 else 2 ^ w - 1
  let lo : Int := if sgn then -(2 ^ (w - 1) - 1) else 0
  if r > hi then (hi, { sat := 1 })
  else if r < lo then (lo, { sat := 1 })
  else (r, if r = 0 ∧ e ≠ 0 then { flush := 1 } else {})

/-- ALIGN (R106). -/
def vAlign (c : VCtx) (v : Vc) (x : Nat) : VOut :=
  let w := iWidth x
  inCore c (rOk { ta := true, imm := true } x && iImm x < 0xFF) <| rowsOp { v := v } x (iTd x) fun i act =>
    let cd := v.code (iTa x) i
    let a := v.els w (iTa x) i
    let r := mapActive act a a fun e _ => alignElem w (iSgn x) cd (iImm x) (toI (iSgn x) w e)
    { nan := cd = 0xFF, els := r.1, code := iImm x, evt := if cd = 0xFF then {} else r.2 }

/-- A row of exact values encoded by encode_group under the mask: an inactive element counts as zero (R42, R101). -/
def encodeRowTo (w : Nat) (act : List Bool) (vs : List Exact) : RowOut :=
  let (cd, es, e) := encodeGroup w ((act.zip vs).map fun p => if p.1 then p.2 else {})
  { nan := cd = 0xFF, els := es, code := cd, evt := { e with nanIn := 0 } }

/-- The exact values of a row of elements under its code (R33). -/
def rowExact (w cd : Nat) (els : List Nat) : List Exact :=
  els.map fun e => if cd = 0xFF then exactNan else exactOf (sext w e) ((cd : Int) - 127)

/-- NORM (R106); any IMM bit set is illegal (R102; DESIGN CHOICE, log 69). -/
def vNorm (c : VCtx) (v : Vc) (x : Nat) : VOut :=
  let w := iWidth x
  inCore c (rOk { ta := true } x && iSgn x) <| rowsOp { v := v } x (iTd x) fun i act =>
    encodeRowTo w act (rowExact w (v.code (iTa x) i) (v.els w (iTa x) i))

/-! ### Class 2: functions (R108) -/

/-- One element of a function: aligned, evaluated, saturated. -/
def fnElem (f : Int → Nat → Nat → FnOut) (cd : Int) (fin fout : Nat) (e : Int) : Option Int × Evt × Nat :=
  let a := alignElem 32 true cd (127 - (fin : Int)) e
  let r := f a.1 fin fout
  match r.val with
  | none => (none, a.2, r.div0)
  | some y => let z := satW 32 true y; (some z.1, evtAdd a.2 z.2, r.div0)

/-- A function over a tile (R108). -/
def fnOp (c : VCtx) (v : Vc) (x : Nat) (f : Int → Nat → Nat → FnOut) : VOut :=
  let fout := bitsOf (iImm x) 4 0
  let fin := bitsOf (iImm x) 9 5
  inCore c (rOk { ta := true, imm := true } x && iW x = 2 && iSgn x && iImm x < 2 ^ 10 && fout ≤ 30) <|
    rowsOp { v := v } x (iTd x) fun i act =>
      let cd := v.code (iTa x) i
      if cd = 0xFF then { nan := true }
      else
        let rs := (act.zip (v.els 32 (iTa x) i)).map fun e => if e.1 then fnElem f cd fin fout (sext 32 e.2) else (some 0, {}, 0)
        { nan := rs.any fun r => r.1.isNone, els := rs.map fun r => r.1.getD 0, code := 127 - (fout : Int),
          evt := rs.foldl (fun a r => evtAdd a r.2.1) {}, div0 := rs.foldl (fun a r => a + r.2.2) 0 }

def vExp2 (c : VCtx) (v : Vc) (x : Nat) : VOut := fnOp c v x fnExp2
def vLog2 (c : VCtx) (v : Vc) (x : Nat) : VOut := fnOp c v x fnLog2
def vRcp (c : VCtx) (v : Vc) (x : Nat) : VOut := fnOp c v x fnRcp
def vRsqrt (c : VCtx) (v : Vc) (x : Nat) : VOut := fnOp c v x fnRsqrt
def vLogistic (c : VCtx) (v : Vc) (x : Nat) : VOut := fnOp c v x fnLogistic

/-! ### Class 3: reductions (R109 to R111) -/

/-- A reduction: the identity's words, the words of a non-empty list of (index, value), and the row code. -/
structure Red where
  ident : List Int
  fold : Bool → List (Nat × Int) → List Int × Evt
  code : Int → Int

/-- Exact sum. -/
def sumOf (l : List (Nat × Int)) : Int := l.foldl (fun a e => a + e.2) 0

/-- Saturation of a reduction's sum to n bits (R109). -/
def satRed (n : Nat) (sgn : Bool) (r : Int) : Int × Evt := satW n sgn r

def redSum : Red :=
  { ident := [0], fold := fun sg l => let r := satRed 32 sg (sumOf l); ([r.1], r.2), code := fun c => c }
def redSsq : Red :=
  { ident := [0, 0],
    fold := fun sg l =>
      let r := satRed 64 sg (l.foldl (fun a e => a + e.2 * e.2) 0)
      ([((pat 64 r.1 % 2 ^ 32 : Nat) : Int), ((pat 64 r.1 / 2 ^ 32 : Nat) : Int)], r.2),
    code := fun c => 2 * c - 127 }
/-- Best element: the first among equals (R109). -/
def bestOf (better : Int → Int → Bool) (l : List (Nat × Int)) : Nat × Int :=
  match l with
  | [] => (0, 0)
  | e :: r => r.foldl (fun a b => if better b.2 a.2 then b else a) e
def redBest (ident : Int) (better : Int → Int → Bool) : Red :=
  { ident := [ident], fold := fun _ l => ([(bestOf better l).2], {}), code := fun c => c }
def redArg (better : Int → Int → Bool) : Red :=
  { ident := [0xFFFFFFFF], fold := fun _ l => ([((bestOf better l).1 : Int)], {}), code := fun _ => 0x7F }
def redCount : Red := { ident := [0], fold := fun _ l => ([(l.length : Int)], {}), code := fun _ => 0x7F }
/-- The exact sum over the count, rounded on the magnitude (R40, R109). -/
def redMean : Red :=
  { ident := [0],
    fold := fun _ l => let t := sumOf l; ([signed (decide (t < 0)) (rneDiv t.natAbs l.length)], {}), code := fun c => c }

/-- A result row in the 32-bit view: words from column 0 on, the rest kept or zeroed by ZM; EMPTY written; a row without
any active element keeps its code (R110, R111). -/
def redRow (v : Vc) (td i : Nat) (zm : Bool) (words : List Int) (code : Option Int) (empty : Bool) (evt : Evt) : RowNew :=
  if (match code with | some c => decide (c < 0 ∨ 254 < c) | none => false) then { tag := 0xFF + (if empty then 256 else 0), evt := evt, nans := 1 }
  else
    let old := v.els 32 td i
    let es := words.map (pat 32) ++ (old.drop words.length).map fun e => if zm then 0 else e
    { bits := joinBits 32 es, evt := evt,
      tag := (match code with | some c => c.toNat | none => v.code td i) + (if empty then 256 else 0) }

/-- A row that a reduction does not write: kept, or zeroed by ZM (R110). -/
def idleRow (v : Vc) (td i : Nat) (zm : Bool) : RowNew := { bits := if zm then 0 else v.rowBits td i, tag := v.tag td i }

/-- AXIS = 0: each row to TD[i][0] on (R110). -/
def redRows (v : Vc) (x : Nat) (d : Red) : VAcc :=
  let w := iWidth x
  putRows { v := v } (iTd x) ((List.range 32).map fun i =>
    let act := v.active (iPred x) w i
    let cd := v.code (iTa x) i
    if !act.any id then redRow v (iTd x) i (iZm x) d.ident none true {}
    else if cd = 0xFF then { tag := 0xFF, nans := 1 }
    else
      let l := ((List.range (1024 / w)).zip (act.zip (v.els w (iTa x) i))).filterMap fun e =>
        if e.2.1 then some (e.1, toI (iSgn x) w e.2.2) else none
      let r := d.fold (iSgn x) l
      redRow v (iTd x) i (iZm x) r.1 (some (d.code cd)) false r.2)

/-- AXIS = 1: each column, its participating rows shifted right to the largest code (R109, R110). -/
def redCols (v : Vc) (x : Nat) (d : Red) : VAcc :=
  let w := iWidth x
  let n := 1024 / w
  let nr := n / 32
  let nres := nr * d.ident.length
  let rows := (List.range 32).filterMap fun i =>
    let act := v.active (iPred x) w i
    if act.any id then some (i, act, v.els w (iTa x) i, v.code (iTa x) i) else none
  let bare (j : Nat) : Bool := !rows.any fun r => r.2.1.getD j false
  if rows.any fun r => r.2.2.2 = 0xFF then
    putRows { v := v } (iTd x) ((List.range 32).map fun i =>
      if i < nres then { tag := 0xFF + (if (List.range 32).any fun c => bare (i % nr * 32 + c) then 256 else 0), nans := 1 }
      else idleRow v (iTd x) i (iZm x))
  else
    let cmax := rows.foldl (fun a r => max a r.2.2.2) 0
    let cols := (List.range n).map fun j =>
      let l := rows.filterMap fun r =>
        if r.2.1.getD j false then some (r.1, (toI (iSgn x) w (r.2.2.1.getD j 0)).fdiv (2 ^ (cmax - r.2.2.2))) else none
      if l.isEmpty then (d.ident, ({} : Evt), true) else let f := d.fold (iSgn x) l; (f.1, f.2, false)
    putRows { v := v } (iTd x) ((List.range 32).map fun i =>
      if nres ≤ i then idleRow v (iTd x) i (iZm x)
      else
        let seg := (cols.drop (i % nr * 32)).take 32
        let evt := if i < nr then seg.foldl (fun a e => evtAdd a e.2.1) {} else {}
        redRow v (iTd x) i (iZm x) (seg.map fun e => e.1.getD (i / nr) 0)
          (if seg.all fun e => e.2.2 then none else some (d.code cmax)) (seg.any fun e => e.2.2) evt)

/-- A reduction (R109 to R111). -/
def redOp (c : VCtx) (v : Vc) (x : Nat) (d : Red) : VOut :=
  inCore c (rOk { ta := true, axis := true } x) (if iAxis x then redCols v x d else redRows v x d)

def vRsum (c : VCtx) (v : Vc) (x : Nat) : VOut := redOp c v x redSum
def vRssq (c : VCtx) (v : Vc) (x : Nat) : VOut := redOp c v x redSsq
def vRmax (c : VCtx) (v : Vc) (x : Nat) : VOut := redOp c v x (redBest (-(2 ^ 31)) fun a b => a > b)
def vRmin (c : VCtx) (v : Vc) (x : Nat) : VOut := redOp c v x (redBest (2 ^ 31 - 1) fun a b => a < b)
def vRargmax (c : VCtx) (v : Vc) (x : Nat) : VOut := redOp c v x (redArg fun a b => a > b)
def vRargmin (c : VCtx) (v : Vc) (x : Nat) : VOut := redOp c v x (redArg fun a b => a < b)
def vRcount (c : VCtx) (v : Vc) (x : Nat) : VOut := redOp c v x redCount
def vRmean (c : VCtx) (v : Vc) (x : Nat) : VOut := redOp c v x redMean

/-! ### Class 4: movement and predicates -/

/-- MOV of TA under a mask in the view of x. -/
def movRows (v : Vc) (x : Nat) : VAcc :=
  rowsOp { v := v } x (iTd x) fun i _ =>
    { nan := v.code (iTa x) i = 0xFF, els := (v.els (iWidth x) (iTa x) i).map Int.ofNat, code := v.code (iTa x) i }

def vMov (c : VCtx) (v : Vc) (x : Nat) : VOut := inCore c (rOk { ta := true } x) (movRows v x)

/-- TRANS (R115). -/
def vTrans (c : VCtx) (v : Vc) (x : Nat) : VOut :=
  let codes := (List.range 32).map fun i => v.code (iTa x) i
  let cmax := codes.foldl max 0
  let sh := (List.range 32).map fun i =>
    (v.els 32 (iTa x) i).map fun e => (sext 32 e, (sext 32 e).fdiv (2 ^ (cmax - v.code (iTa x) i)))
  let flush := sh.foldl (fun n r => n + r.countP fun e => e.1 ≠ 0 ∧ e.2 = 0) 0
  inCore c (rOk { ta := true } x && iW x = 2 && iPred x = 0) <|
    if cmax = 0xFF then putRows { v := v } (iTd x) (List.replicate 32 { tag := 0xFF, nans := 1 })
    else putRows { v := v, evt := { flush := flush } } (iTd x) ((List.range 32).map fun i =>
      { bits := joinBits 32 (sh.map fun r => pat 32 (r.getD i (0, 0)).2), tag := cmax })

/-- SHUF: TD[i][j] := TA[i][TB[i][j] mod n] (Table 04.5). -/
def vShuf (c : VCtx) (v : Vc) (x : Nat) : VOut :=
  let w := iWidth x
  inCore c (rOk { ta := true, tb := true } x) <| rowsOp { v := v } x (iTd x) fun i _ =>
    let ca := v.code (iTa x) i
    let a := v.els w (iTa x) i
    let (b, cb) := secondOf v x w i
    { nan := ca = 0xFF ∨ cb = 0xFF, els := b.map fun e => (a.getD (e % (1024 / w)) 0 : Int), code := ca }

/-- SETEXP: TA's elements unchanged, under row code IMM[7:0] (Table 04.5; DEDUCED, log 29). -/
def vSetexp (c : VCtx) (v : Vc) (x : Nat) : VOut :=
  let w := iWidth x
  inCore c (rOk { ta := true, imm := true } x && iImm x < 0xFF) <| rowsOp { v := v } x (iTd x) fun i _ =>
    { nan := v.code (iTa x) i = 0xFF, els := (v.els w (iTa x) i).map Int.ofNat, code := iImm x }

/-- A predicate operation on Pa and Pb (Table 04.5). -/
def plogic (c : VCtx) (v : Vc) (x : Nat) (two : Bool) (g : Bool → Bool → Bool) : VOut :=
  let w := iWidth x
  inCore c (rOk { ta := true, tb := two } x && iTd x < 8 && iTa x < 8 && iTb x < 8 && !iIb x) { v := predOp v x (fun i =>
    ((v.active (8 + iTa x) w i).zip (v.active (8 + iTb x) w i)).map fun e => g e.1 e.2) }

def vPand (c : VCtx) (v : Vc) (x : Nat) : VOut := plogic c v x true fun a b => a && b
def vPor (c : VCtx) (v : Vc) (x : Nat) : VOut := plogic c v x true fun a b => a || b
def vPxor (c : VCtx) (v : Vc) (x : Nat) : VOut := plogic c v x true fun a b => a != b
def vPnot (c : VCtx) (v : Vc) (x : Nat) : VOut := plogic c v x false fun a _ => !a

/-! ### Class 5: memory (R112 to R114) -/

/-- Base address of an M-form instruction. -/
def mBase (v : Vc) (x : Nat) : Nat := (v.areg (iBase x) + 64 * iOff x) % 2 ^ 48

/-- Address of row i (R112), modulo 2^48 as every address register counts (DESIGN CHOICE, log 69). -/
def mRow (v : Vc) (x i : Nat) : Nat := (mBase v x + i * v.areg (iStride x)) % 2 ^ 48

/-- Address of row i's scales (R112). -/
def mScale (v : Vc) (x i : Nat) : Nat := (v.areg (iBase x + 1) + i * v.areg (iBase x + 2)) % 2 ^ 48

/-- Memory bits of an element: those of the format, 8 for E8M0. -/
def memBits (f : Nat) : Nat := if f = 0x07 then 8 else fmtBits f

/-- Legality that LD and ST share (R28, R34, R49, R56, R102, R112). -/
def ldstOk (x : Nat) : Bool :=
  let w := iWidth x
  viewOk x && iTbM x = 0 && modeOk (iFmt x) (iMode x) && groupOf (iMode x) ≤ 1024 / w && (iFmt x ≠ 0x07 || w = 8)
    && (iMode x = 0 || iBase x + 2 ≤ 15)

/-- Whether LD copies the bits: format of the view's width, plain or row-scaled (R112). -/
def ldCopies (x : Nat) : Bool := memBits (iFmt x) = iWidth x && (iMode x = 0 || iMode x = 4) && !isBx (iFmt x)

/-- Alignment a row address needs: the element size, or the block size of a BX format (R112). -/
def rowAlign (f : Nat) : Nat := if isBx f then 4 * fmtBits f else max 1 (memBits f / 8)

/-- The memory pieces row i of an LD reads: its elements and its scales. -/
def ldSpans (v : Vc) (x i : Nat) : List (Nat × Nat) :=
  let cnt := if iB0 x then 1 else 1024 / iWidth x
  let g := groupOf (iMode x)
  (mRow v x i, rowBytes (memBits (iFmt x)) cnt)
    :: (if iMode x = 0 then [] else if iMode x = 4 then [(mScale v x i, 1)] else [(mScale v x i, (cnt + g - 1) / g)])

/-- First address fault of row i: alignment, then a byte outside the tensor range and the SRAM windows (R112). -/
def spanFault (P : Part) (align : Nat) (w : Bool) (spans : List (Nat × Nat)) : Option Nat :=
  match spans with
  | [] => none
  | e :: r =>
    if e.1 % align ≠ 0 then some e.1
    else ((e :: r).find? fun p => !(if w then writable P p.1 p.2 else readable P p.1 p.2)).map fun p => firstBad P p.1 p.2 w

/-- Row i of an LD (R41, R42, R112, R113). -/
def ldRow (c : VCtx) (v : Vc) (x i : Nat) (act : List Bool) : RowOut :=
  let w := iWidth x
  let n := 1024 / w
  let cnt := if iB0 x then 1 else n
  let bits := memBits (iFmt x)
  let b := c.s.load c.k (mRow v x i) (rowBytes bits cnt)
  let raw := (List.range n).map fun j => elemRaw bits b (if iB0 x then 0 else j)
  let g := groupOf (iMode x)
  let sc := if iMode x = 0 then [] else if iMode x = 4 then c.s.load c.k (mScale v x i) 1
    else c.s.load c.k (mScale v x i) ((cnt + g - 1) / g)
  let codeOf (j : Nat) : Nat := (sc.getD (if iMode x = 4 ∨ iB0 x then 0 else j / g) 0).toNat
  if ldCopies x then
    let cd : Int := if iMode x = 0 then iTexp x + 127 else codeOf 0
    { els := raw.map Int.ofNat, code := cd }
  else
    encodeRowTo w act ((raw.zip (List.range n)).map fun e =>
      if iMode x = 0 then decodePlain (iFmt x) (iTexp x) e.1 else decodeScaled (iFmt x) (codeOf e.2) e.1)

/-- Rows with an active element. -/
def liveRows (v : Vc) (x : Nat) : List Nat := (List.range 32).filter fun i => (v.active (iPred x) (iWidth x) i).any id

/-- LD (R112, R113). A row with an active element is checked and read whole, a row with none not at all (DESIGN CHOICE,
log 69). -/
def vLd (c : VCtx) (v : Vc) (x : Nat) : VOut :=
  if !(ldstOk x && (memBits (iFmt x) ≠ 4 || iWidth x = 8) && !(ldCopies x && iMode x = 0 && iTexp x = -128)) then .illegal
  else
    match (liveRows v x).findSome? fun i => spanFault (c.s.part c.k) (rowAlign (iFmt x)) false (ldSpans v x i) with
    | some a => .addr a
    | none =>
      let s := (liveRows v x).foldl (fun s i => (ldSpans v x i).foldl (fun s p => s.noteRead c.k p.1 p.2) s) c.s
      .ok s (rowsOp { v := v } x (iTd x) fun i act => ldRow c v x i act) none

/-- Row i of an ST: the writes it makes, its events and the NaN elements, blocks or rows it writes (R42 to R44, R112). -/
def stRow (v : Vc) (x i : Nat) (act : List Bool) : List (Nat × Bytes) × Evt × Nat :=
  let w := iWidth x
  let f := iFmt x
  let n := 1024 / w
  let bits := memBits f
  let a := mRow v x i
  let els := v.els w (iTd x) i
  let vs := rowExact w (v.code (iTd x) i) els
  if iMode x = 0 then
    let rs := (act.zip (els.zip vs)).map fun e =>
      if f = 0x07 ∨ !e.1 then (((e.2.1 : Nat) : Int), ({} : Evt)) else encodePlain bits (iTexp x) e.2.2
    let evt := rs.foldl (fun a r => evtAdd a r.2) {}
    let ws :=
      if act.all id then [(a, packElems bits (rs.map fun r => pat bits r.1))]
      else ((act.zip (rs.zip (List.range n))).filter fun e => e.1).map fun e =>
        (a + e.2.2 * (bits / 8), toLe (bits / 8) (pat bits e.2.1.1))
    (ws, { evt with nanIn := 0 }, evt.nanIn)
  else
    let gs := if iMode x = 4 then [vs] else
      (List.range (n / groupOf (iMode x))).map fun j => (vs.drop (j * groupOf (iMode x))).take (groupOf (iMode x))
    let rs := gs.map (encodeGroup bits)
    let evt := rs.foldl (fun a r => evtAdd a r.2.2) {}
    ([(a, packElems bits (rs.flatMap fun r => r.2.1.map (pat bits))), (mScale v x i, rs.map fun r => BitVec.ofNat 8 r.1)],
      { evt with nanIn := 0 }, rs.countP fun r => r.1 = 0xFF)

/-- ST (R112): every address is checked before the first byte is written (log 30). -/
def vSt (c : VCtx) (v : Vc) (x : Nat) : VOut :=
  if !(ldstOk x && !iZm x && !iB0 x && (iPred x = 0 || (iMode x = 0 && 8 ≤ memBits (iFmt x)))) then .illegal
  else
    let rows := (liveRows v x).map fun i => (mRow v x i, stRow v x i (v.active (iPred x) (iWidth x) i))
    match rows.findSome? fun r => if r.1 % rowAlign (iFmt x) ≠ 0 then some r.1
        else spanFault (c.s.part c.k) 1 true (r.2.1.map fun p => (p.1, p.2.length)) with
    | some a => .addr a
    | none =>
      let s := rows.foldl (fun s r => r.2.1.foldl (fun s p => s.store c.k p.1 p.2) s) c.s
      .ok s { v := v, evt := rows.foldl (fun e r => evtAdd e r.2.2.1) {}, nans := rows.foldl (fun n r => n + r.2.2.2) 0 } none

/-- Rows GATHER and SCATTER move, with their addresses (R114). -/
def indexRows (v : Vc) (x : Nat) : List (Nat × Nat) :=
  ((List.range 32).filter fun i => iPred x = 0 ∨ (v.predBits (iPred x % 8) i).testBit 0).map fun i =>
    (i, (mBase v x + bitsOf (v.rowBits (iTbM x) i) 31 0 * v.areg (iStride x)) % 2 ^ 48)

/-- Format legality of GATHER and SCATTER (R114): plain S8, S16 or S32 of the view's width. -/
def indexOk (x : Nat) : Bool :=
  viewOk x && !iB0 x && iMode x = 0 && (iFmt x = 0x01 ∨ iFmt x = 0x02 ∨ iFmt x = 0x03) && fmtBits (iFmt x) = iWidth x

/-- Whether 128 B at an address lie in an SRAM window (R114). -/
def inSram (P : Part) (a : Nat) : Bool := readable P a 128 && (match place P a with | .sram _ _ => true | _ => false)

/-- GATHER (R114). -/
def vGather (c : VCtx) (v : Vc) (x : Nat) : VOut :=
  if !(indexOk x && iTexp x ≠ -128) then .illegal
  else
    let rs := indexRows v x
    match rs.find? fun r => !inSram (c.s.part c.k) r.2 with
    | some r => .addr r.2
    | none =>
      .ok (rs.foldl (fun s r => s.noteRead c.k r.2 128) c.s) (putRows { v := v } (iTd x) ((List.range 32).map fun i =>
        match rs.find? fun r => r.1 = i with
        | some r => { bits := c.s.loadNat c.k r.2 128, tag := (iTexp x + 127).toNat }
        | none => idleRow v (iTd x) i (iZm x))) none

/-- SCATTER (R114): rows in ascending order; it does not use TEXP, which is reserved (R102). -/
def vScatter (c : VCtx) (v : Vc) (x : Nat) : VOut :=
  if !(indexOk x && !iZm x && iTexp x = 0) then .illegal
  else
    let rs := indexRows v x
    match rs.find? fun r => !inSram (c.s.part c.k) r.2 with
    | some r => .addr r.2
    | none => .ok (rs.foldl (fun s r => s.store c.k r.2 (toLe 128 (v.rowBits (iTd x) r.1))) c.s) { v := v } none

/-- Fields LDEXP and STTAG do not use (R102). -/
def tagFieldsOk (x : Nat) : Bool := viewOk x && bitsOf x 38 14 = 0 && !iB0 x

/-- LDEXP: row codes of rows with an active element from 32 B (Table 04.5, R101); a loaded 0xFF makes a NaN row (R107;
DEDUCED, log 69). -/
def vLdexp (c : VCtx) (v : Vc) (x : Nat) : VOut :=
  if !tagFieldsOk x then .illegal
  else if !readable (c.s.part c.k) (mBase v x) 32 then .addr (firstBad (c.s.part c.k) (mBase v x) 32 false)
  else
    let b := c.s.load c.k (mBase v x) 32
    .ok (c.s.noteRead c.k (mBase v x) 32) (putRows { v := v } (iTd x) ((List.range 32).map fun i =>
      if (v.active (iPred x) (iWidth x) i).any id then
        if b.getD i 0 = 0xFF then { tag := 0xFF, nans := 1 } else { bits := v.rowBits (iTd x) i, tag := (b.getD i 0).toNat }
      else idleRow v (iTd x) i (iZm x))) none

/-- STTAG: the 32 row tags to 64 B (Table 04.5). It uses neither W nor PRED, which are reserved (R102; DEDUCED, log 69). -/
def vSttag (c : VCtx) (v : Vc) (x : Nat) : VOut :=
  if !(tagFieldsOk x && !iZm x && iW x = 0 && iPred x = 0) then .illegal
  else if !writable (c.s.part c.k) (mBase v x) 64 then .addr (firstBad (c.s.part c.k) (mBase v x) 64 true)
  else .ok (c.s.store c.k (mBase v x) (toLe 64 (v.tagWord (iTd x)))) { v := v } none

/-! ### Class 6: conversion and random (R116, R122) -/

/-- Narrowing: r source rows joined and encoded (R116). -/
def cvtNarrow (v : Vc) (x ws r : Nat) : VAcc :=
  rowsOp { v := v } x (iTd x) fun i act =>
    encodeRowTo (iWidth x) act ((List.range r).flatMap fun j => rowExact ws (v.code (iTa x + j) i) (v.els ws (iTa x + j) i))

/-- Widening: part j of a row, sign-extended, to tile TD + j (R116). -/
def cvtWiden (v : Vc) (x ws r : Nat) : VAcc :=
  let n := 1024 / iWidth x
  (List.range r).foldl (fun a j => rowsOp a x (iTd x + j) fun i _ =>
    { nan := v.code (iTa x) i = 0xFF, els := (((v.els ws (iTa x) i).drop (j * n)).take n).map (sext ws),
      code := v.code (iTa x) i }) { v := v }

/-- CVT (R116). -/
def vCvt (c : VCtx) (v : Vc) (x : Nat) : VOut :=
  let ws := viewW (iImm x % 4)
  let wd := iWidth x
  let ok := rOk { ta := true, imm := true } x && iImm x < 3
  if ws = wd then inCore c ok (movRows v x)
  else if wd < ws then inCore c (ok && iTa x + ws / wd ≤ 32) (cvtNarrow v x ws (ws / wd))
  else inCore c (ok && iTd x + wd / ws ≤ 32) (cvtWiden v x ws (wd / ws))

/-- The four words of a number, the lowest first. -/
def words4 (x : Nat) : List Nat := (List.range 4).map fun i => bitsOf x (32 * i + 31) (32 * i)

/-- The 16 B draw of element index e under a vector command (R120, R121). -/
def drawAt (key cmd e : Nat) : Nat :=
  let opn := bitsOf cmd 319 304
  let layer := bitsOf cmd 303 288
  let mb := bitsOf cmd 287 272
  let step := bitsOf cmd 367 320
  xcg (words4 key) ⟨e, opn + layer * 2 ^ 16, mb + step % 2 ^ 16 * 2 ^ 16, step / 2 ^ 16⟩

/-- RAND (R122). -/
def vRand (c : VCtx) (v : Vc) (x : Nat) : VOut :=
  let w := iWidth x
  let key := (tget (0 : BitVec 128) (c.s.part c.k).keys.streams (bitsOf c.cmd 271 268)).toNat
  let e0 := v.areg (iTb x % 16) % 2 ^ 32
  inCore c (viewOk x && bitsOf x 25 24 = 0 && iTb x < 16 && iTa x = 0 && iTc x = 0 && !iIb x && !iAxis x && iImm x = 0) <|
    rowsOp { v := v } x (iTd x) fun i _ =>
      { els := (elemsOf w (joinBits 128 ((List.range 8).map fun j => drawAt key c.cmd ((e0 + 8 * i + j) % 2 ^ 32)))).map Int.ofNat }

end Sys2Proof.Machine
end

