-- ==== Sys2Proof/Machine/Vector.lean ====
section
/-! DEFINITION. The vector command and the rows of the vector cores (04 R95, R98, R99, R103, R117, R118). -/

namespace Sys2Proof.Machine

open Sys2Proof

/-! ### Running a core -/

/-- Unit number of a vector core in a fault record (Table 06.6). -/
def vcUnit (n : Nat) : BitVec 12 := BitVec.ofNat 12 n

/-- Stops every core of a command (R103). -/
def stopVcs (s : State) (r : BitVec 20 × BitVec 24) : State :=
  freeVcs s fun x => x = r

/-- The first fault on a core stops every core of its command; the command's work has ended with that status (R103). -/
def vcFault (s : State) (n : Nat) (r : BitVec 20 × BitVec 24) (st : BitVec 8) (pc faddr : Nat) : State :=
  endWork (modStarted (stopVcs s r) r.1.toNat r.2 fun x =>
    { x with ukind := 2, uidx := vcUnit n, detail := BitVec.ofNat 16 pc, faddr := BitVec.ofNat 48 faddr }) r.1.toNat r.2 st

/-- A core that stands past the program's end or at an opcode absent from Table 04.5 faults at once: no row of the opcode
table runs such an instruction (R102, R103). -/
def settleVc (s : State) (n : Nat) : State :=
  let v := s.vc n
  match v.run with
  | none => s
  | some r =>
    if v.ended then s
    else
      match v.prog[v.pc]? with
      | some x => if opcodeKnown (iOpc x.toNat) then s else vcFault s n r stINVALID v.pc 0
      | none => vcFault s n r stINVALID v.pc 0

/-- STRICT of a vector command (Table 04.8). -/
def vStrict (c : Nat) : Bool := bitOf c 263

/-- Adds an instruction's events to its queue, its partition and its command (R45, R46, R107, Table 04.6). The first
instruction whose event STRICT turns into RANGE gives the fault record its unit and index. -/
def vcEvents (s : State) (k n pc : Nat) (r : BitVec 20 × BitVec 24) (a : VAcc) : State :=
  let s := countDiv0 (countNan (countEvt s k r.1.toNat a.evt) k a.nans) k a.div0
  modStarted s r.1.toNat r.2 fun x =>
    let first := vStrict x.cmd.toNat && a.evt.sat > 0 && x.ukind = 0
    { x with sat := x.sat || a.evt.sat > 0, flush := x.flush || a.evt.flush > 0,
             ukind := if first then 2 else x.ukind, uidx := if first then vcUnit n else x.uidx,
             detail := if first then BitVec.ofNat 16 pc else x.detail }

/-- The command a core runs, where it may take its next step: partition, command and the instruction at its index. -/
def vcReady (s : State) (n opc : Nat) : Option (BitVec 20 × BitVec 24 × Nat × Nat × Nat) :=
  let v := s.vc n
  match v.run with
  | none => none
  | some (q, i) =>
    match ownerOf s q.toNat, (s.queue q.toNat).started.find? (fun r => r.idx = i), v.prog[v.pc]? with
    | some k, some r, some x =>
      if s.boot.clocksOff ∨ v.ended ∨ iOpc x.toNat ≠ opc then none else some (q, i, k, r.cmd.toNat, x.toNat)
    | _, _, _ => none

/-- One instruction of a core (R95, R103): nothing happens unless the core runs and its next instruction is this one. -/
def runVc (s : State) (n opc : Nat) (f : VCtx → Vc → Nat → VOut) : State :=
  match vcReady s n opc with
  | none => s
  | some (q, i, k, c, x) =>
    let v := s.vc n
    match f { s := s, k := k, cmd := c, len := v.prog.length, pc := v.pc } v x with
    | .illegal => vcFault s n (q, i) stINVALID v.pc 0
    | .addr a => vcFault s n (q, i) stADDRESS v.pc a
    | .ok s' a jump =>
      settleVc (vcEvents (s'.putVc n { a.v with pc := jump.getD (v.pc + 1) }) k n v.pc (q, i) a) n

/-- END (R103, R118): the core waits for the others; the last one ends the command's work. -/
def endVc (s : State) (n : Nat) : State :=
  match vcReady s n 0x01 with
  | none => s
  | some (q, i, _, _, x) =>
    let v := s.vc n
    if bitsOf x 55 0 ≠ 0 then vcFault s n (q, i) stINVALID v.pc 0
    else
      let s := s.putVc n { v with ended := true }
      if s.vcs.any fun e => e.2.run = some (q, i) ∧ !e.2.ended then s
      else
        let r := (s.queue q.toNat).started.find? (fun r => r.idx = i)
        let range := match r with | some r => vStrict r.cmd.toNat && r.sat | none => false
        endWork (stopVcs s (q, i)) q.toNat i (if range then stRANGE else stOK)

/-! ### VPROG (R98, R117, R118) -/

/-- Fields of Table 04.8. -/
def vPlen (c : Nat) : Nat := bitsOf c 251 240
def vArg (c : Nat) : Nat := bitsOf c 223 176
def vProgAddr (c : Nat) : Nat := bitsOf c 175 128

/-- The argument block's 14 words. -/
def vArgs (s : State) (k c : Nat) : List Nat := (List.range 14).map fun i => s.loadNat k (vArg c + 8 * i) 8

/-- Validation of a vector command (R8, R118, R354): status and faulting address. An ARG or PROG not aligned to 64 B
(Table 04.8) is INVALID, and comes before ADDRESS (DESIGN CHOICE, log 69). -/
def vValidate (s : State) (k sl c : Nat) : BitVec 8 × Nat :=
  let P := s.part k
  if vMask c = 0 ∨ vPlen c = 0 ∨ 2048 < vPlen c ∨ vArg c % 64 ≠ 0 ∨ vProgAddr c % 64 ≠ 0
      ∨ bitsOf c 511 368 ≠ 0 ∨ bitsOf c 262 252 ≠ 0 ∨ bitsOf c 239 224 ≠ 0
          ∨ (vcsOf sl c).any (fun v => !vcPresent s v) then (stINVALID, 0)
  else if !readable P (vArg c) 112 then (stADDRESS, vArg c)
  else if !readable P (vProgAddr c) (8 * vPlen c) then (stADDRESS, firstBad P (vProgAddr c) (8 * vPlen c) false)
  else if (vArgs s k c).any fun a => 2 ^ 48 ≤ a then (stINVALID, 0)
  else (stOK, 0)

/-- The core's state at the start of a command (R98): T24 to T31 keep their contents. -/
def startVc (v : Vc) (prog : List (BitVec 64)) (args : List Nat) (ord : Nat) (r : BitVec 20 × BitVec 24) : Vc :=
  let v := { v with tiles := v.tiles.filter (fun e => 24 ≤ e.1), tags := v.tags.filter (fun e => 24 ≤ e.1), preds := [],
                    aregs := [], prog := prog, pc := 0, run := some r, ended := false }
  ((List.range 15).zip (args ++ [ord])).foldl (fun v e => v.setAreg (e.1 + 1) e.2) v

/-- VPROG (R98, R118): starts on every core of VC_MASK once all of them are free (06 R171: `startable` waits for it). -/
def execVprog (q : Qid) (s : State) : Host.Outcome State Fault Refusal :=
  outcome s <|
    match startable s q.toNat with
    | none => s
    | some (k, c) =>
      let sl := targetSlice (s.part k) c
      let vs := vcsOf sl c
      let s' := runFront s q.toNat (isKind 1 0x10) fun s k c =>
        let r := vValidate s k sl c
        let s := (s.noteIf k (vArg c) 112).noteIf k (vProgAddr c) (8 * vPlen c)
        if r.1 ≠ stOK then (s, failed r.1 2 r.2 (vs.headD 0))
        else
          let prog := (List.range (vPlen c)).map fun i => BitVec.ofNat 64 (s.loadNat k (vProgAddr c + 8 * i) 8)
          let args := vArgs s k c
          let id := (q, startIdx s q.toNat)
          ((vs.zip (List.range 4)).foldl (fun s e => s.modVc e.1 fun v => startVc v prog args e.2 id) s, { work := .vector })
      if (vValidate s k sl c).1 = stOK then vs.foldl settleVc s' else s'

/-- INBOX_WRITE (R99, R130): a core between vector commands accepts the oldest drain write that waits for it. With the last
write of a drain buffer its credit returns, and tiles that waited for one run (03 R66); a MATMUL whose last write has been
accepted has ended. -/
def execInboxWrite (vc : Fin 64) (s : State) : Host.Outcome State Fault Refusal :=
  outcome s <|
    let v := s.vc vc.val
    match v.inbox with
    | [] => s
    | w :: rest =>
      if s.boot.clocksOff ∨ v.run.isSome then s
      else
        let rows := (List.range 32).map fun i =>
          if i = w.row then
            (v.rowBits w.tile i - bitsOf (v.rowBits w.tile i) (8 * (w.col + w.bytes.length) - 1) (8 * w.col) * 2 ^ (8 * w.col)
              + leNat w.bytes * 2 ^ (8 * w.col), w.code.toNat)
          else (v.rowBits w.tile i, v.tag w.tile i)
        let s := s.putVc vc.val { v.putTile w.tile rows with inbox := rest }
        let s := pumpSlice (returnBuf s w) (w.mu / 6)
        if drainsOf s w.q.toNat w.idx then s
        else
          modStarted s w.q.toNat w.idx fun r => if r.work = .inbox then { r with work := .done } else r

/-! ### One definition per instruction of Table 04.5 -/

def execVNop (vc : Fin 64) (s : State) : Host.Outcome State Fault Refusal := .next (runVc s vc.val 0x00 vNop)
def execVEnd (vc : Fin 64) (s : State) : Host.Outcome State Fault Refusal := outcome s (endVc s vc.val)
def execVSeta (vc : Fin 64) (s : State) : Host.Outcome State Fault Refusal := .next (runVc s vc.val 0x02 vSeta)
def execVAdda (vc : Fin 64) (s : State) : Host.Outcome State Fault Refusal := .next (runVc s vc.val 0x03 vAdda)
def execVLoop (vc : Fin 64) (s : State) : Host.Outcome State Fault Refusal := .next (runVc s vc.val 0x04 vLoop)
def execVAdd (vc : Fin 64) (s : State) : Host.Outcome State Fault Refusal := .next (runVc s vc.val 0x20 vAdd)
def execVSub (vc : Fin 64) (s : State) : Host.Outcome State Fault Refusal := .next (runVc s vc.val 0x21 vSub)
def execVAdds (vc : Fin 64) (s : State) : Host.Outcome State Fault Refusal := .next (runVc s vc.val 0x22 vAdds)
def execVSubs (vc : Fin 64) (s : State) : Host.Outcome State Fault Refusal := .next (runVc s vc.val 0x23 vSubs)
def execVMullo (vc : Fin 64) (s : State) : Host.Outcome State Fault Refusal := .next (runVc s vc.val 0x24 vMullo)
def execVMulhi (vc : Fin 64) (s : State) : Host.Outcome State Fault Refusal := .next (runVc s vc.val 0x25 vMulhi)
def execVShl (vc : Fin 64) (s : State) : Host.Outcome State Fault Refusal := .next (runVc s vc.val 0x26 vShl)
def execVShr (vc : Fin 64) (s : State) : Host.Outcome State Fault Refusal := .next (runVc s vc.val 0x27 vShr)
def execVMin (vc : Fin 64) (s : State) : Host.Outcome State Fault Refusal := .next (runVc s vc.val 0x28 vMin)
def execVMax (vc : Fin 64) (s : State) : Host.Outcome State Fault Refusal := .next (runVc s vc.val 0x29 vMax)
def execVAnd (vc : Fin 64) (s : State) : Host.Outcome State Fault Refusal := .next (runVc s vc.val 0x2A vAnd)
def execVOr (vc : Fin 64) (s : State) : Host.Outcome State Fault Refusal := .next (runVc s vc.val 0x2B vOr)
def execVXor (vc : Fin 64) (s : State) : Host.Outcome State Fault Refusal := .next (runVc s vc.val 0x2C vXor)
def execVSel (vc : Fin 64) (s : State) : Host.Outcome State Fault Refusal := .next (runVc s vc.val 0x2D vSel)
def execVCmpeq (vc : Fin 64) (s : State) : Host.Outcome State Fault Refusal := .next (runVc s vc.val 0x2E vCmpeq)
def execVCmplt (vc : Fin 64) (s : State) : Host.Outcome State Fault Refusal := .next (runVc s vc.val 0x2F vCmplt)
def execVCmple (vc : Fin 64) (s : State) : Host.Outcome State Fault Refusal := .next (runVc s vc.val 0x30 vCmple)
def execVIota (vc : Fin 64) (s : State) : Host.Outcome State Fault Refusal := .next (runVc s vc.val 0x31 vIota)
def execVAlign (vc : Fin 64) (s : State) : Host.Outcome State Fault Refusal := .next (runVc s vc.val 0x32 vAlign)
def execVNorm (vc : Fin 64) (s : State) : Host.Outcome State Fault Refusal := .next (runVc s vc.val 0x33 vNorm)
def execVExp2 (vc : Fin 64) (s : State) : Host.Outcome State Fault Refusal := .next (runVc s vc.val 0x40 vExp2)
def execVLog2 (vc : Fin 64) (s : State) : Host.Outcome State Fault Refusal := .next (runVc s vc.val 0x41 vLog2)
def execVRcp (vc : Fin 64) (s : State) : Host.Outcome State Fault Refusal := .next (runVc s vc.val 0x42 vRcp)
def execVRsqrt (vc : Fin 64) (s : State) : Host.Outcome State Fault Refusal := .next (runVc s vc.val 0x43 vRsqrt)
def execVLogistic (vc : Fin 64) (s : State) : Host.Outcome State Fault Refusal := .next (runVc s vc.val 0x44 vLogistic)
def execVRsum (vc : Fin 64) (s : State) : Host.Outcome State Fault Refusal := .next (runVc s vc.val 0x60 vRsum)
def execVRssq (vc : Fin 64) (s : State) : Host.Outcome State Fault Refusal := .next (runVc s vc.val 0x61 vRssq)
def execVRmax (vc : Fin 64) (s : State) : Host.Outcome State Fault Refusal := .next (runVc s vc.val 0x62 vRmax)
def execVRmin (vc : Fin 64) (s : State) : Host.Outcome State Fault Refusal := .next (runVc s vc.val 0x63 vRmin)
def execVRargmax (vc : Fin 64) (s : State) : Host.Outcome State Fault Refusal := .next (runVc s vc.val 0x64 vRargmax)
def execVRargmin (vc : Fin 64) (s : State) : Host.Outcome State Fault Refusal := .next (runVc s vc.val 0x65 vRargmin)
def execVRcount (vc : Fin 64) (s : State) : Host.Outcome State Fault Refusal := .next (runVc s vc.val 0x66 vRcount)
def execVRmean (vc : Fin 64) (s : State) : Host.Outcome State Fault Refusal := .next (runVc s vc.val 0x67 vRmean)
def execVMov (vc : Fin 64) (s : State) : Host.Outcome State Fault Refusal := .next (runVc s vc.val 0x80 vMov)
def execVTrans (vc : Fin 64) (s : State) : Host.Outcome State Fault Refusal := .next (runVc s vc.val 0x81 vTrans)
def execVShuf (vc : Fin 64) (s : State) : Host.Outcome State Fault Refusal := .next (runVc s vc.val 0x82 vShuf)
def execVSetexp (vc : Fin 64) (s : State) : Host.Outcome State Fault Refusal := .next (runVc s vc.val 0x83 vSetexp)
def execVPand (vc : Fin 64) (s : State) : Host.Outcome State Fault Refusal := .next (runVc s vc.val 0x84 vPand)
def execVPor (vc : Fin 64) (s : State) : Host.Outcome State Fault Refusal := .next (runVc s vc.val 0x85 vPor)
def execVPxor (vc : Fin 64) (s : State) : Host.Outcome State Fault Refusal := .next (runVc s vc.val 0x86 vPxor)
def execVPnot (vc : Fin 64) (s : State) : Host.Outcome State Fault Refusal := .next (runVc s vc.val 0x87 vPnot)
def execVLd (vc : Fin 64) (s : State) : Host.Outcome State Fault Refusal := outcome s (runVc s vc.val 0xA0 vLd)
def execVSt (vc : Fin 64) (s : State) : Host.Outcome State Fault Refusal := outcome s (runVc s vc.val 0xA1 vSt)
def execVGather (vc : Fin 64) (s : State) : Host.Outcome State Fault Refusal := outcome s (runVc s vc.val 0xA2 vGather)
def execVScatter (vc : Fin 64) (s : State) : Host.Outcome State Fault Refusal := outcome s (runVc s vc.val 0xA3 vScatter)
def execVLdexp (vc : Fin 64) (s : State) : Host.Outcome State Fault Refusal := outcome s (runVc s vc.val 0xA4 vLdexp)
def execVSttag (vc : Fin 64) (s : State) : Host.Outcome State Fault Refusal := outcome s (runVc s vc.val 0xA5 vSttag)
def execVCvt (vc : Fin 64) (s : State) : Host.Outcome State Fault Refusal := .next (runVc s vc.val 0xC0 vCvt)
def execVRand (vc : Fin 64) (s : State) : Host.Outcome State Fault Refusal := .next (runVc s vc.val 0xC1 vRand)

end Sys2Proof.Machine
end

