-- ==== Sys2Proof/Machine/Ripstop.lean ====
section
/-! DEFINITION. Ripstop (12): fences, spares, takeover, self-test, Serge lanes, errors and scrub (05 R145, R157 to R160), the
risk clock, securing, restore and substitution. -/

namespace Sys2Proof.Machine

open Sys2Proof

/-! ### Blocks and spares (Table 12.1; 01 Tables 01.3, 01.5) -/

/-- Logical blocks of a class on a die; application cores count as die 4 (log 27). -/
def blockCount (cls die : Nat) : Nat :=
  if die < 4 then (match cls with | 0 => 24 | 1 => 16 | 2 => 4 | 3 => 128 | 5 => 1088 | _ => 0)
  else if die = 4 ∧ cls = 6 then 8 else 0

/-- Spare sites of a class (01 Table 01.3; application cores 8 and 9 PRESUMED, log 27). -/
def spareSites : Nat → List Nat
  | 0 => [24, 25] | 1 => [16] | 2 => [4] | 3 => [128, 129, 130, 131] | 6 => [8, 9] | _ => []

/-- Free spares, lowest site first (R353). -/
def freeSpares (s : State) (cls die : Nat) : List Nat :=
  (spareSites cls).filter fun x => !s.ripstop.usedSpares.contains (die, cls, x) && !s.ripstop.fenceList.contains (die, cls, x)

/-- The site that serves a logical block: its own, or the spare that stands in; and whether that site is fenced. -/
def servingSite (s : State) (cls die idx : Nat) : Nat := (s.block cls die idx).site.getD (siteOf s cls die idx)
def servingFenced (s : State) (cls die idx : Nat) : Bool := s.ripstop.fenceList.contains (die, cls, servingSite s cls die idx)

/-- Failed blocks of a class on a die that wait for their takeover: a spare on loan serves none of them (R353). -/
def failedWaiting (s : State) (cls die : Nat) : Nat :=
  (List.range (blockCount cls die)).countP fun i =>
    let b := s.block cls die i
    b.due && !b.loan && servingFenced s cls die i

/-- Whether a spare can be lent to a test: every failed block that waits has one of its own (R353). -/
def spareToLend (s : State) (cls die : Nat) : Bool := failedWaiting s cls die < (freeSpares s cls die).length

/-- Runs a change of a class's spares; class 0x0F holds while none is free (Table 12.4). -/
def withPool (s : State) (cls die : Nat) (f : State → State) : State :=
  let none_ (s : State) : Bool := (freeSpares s cls die).isEmpty
  let s' := f s
  if !none_ s && none_ s' then ripPersist s' 0x0F 0 die 0 0 0
  else if none_ s && !none_ s' then updateRisk (setPers s' 0x0F false)
  else s'

/-- Local state of a logical block after what stands behind it changed (Table 12.1; 01 R19): an MU keeps its mode and the tiles
that wait, a VC carries its inbox tiles. -/
def freshLocal (s : State) (cls die idx : Nat) : State :=
  match cls with
  | 0 => s.modMu (24 * die + idx) fun m => { quad := m.quad, queue := m.queue }
  | 1 => s.modVc (16 * die + idx) fun v =>
      { tiles := v.tiles.filter (fun e => 24 ≤ e.1), tags := v.tags.filter (fun e => 24 ≤ e.1), inbox := v.inbox, freed := v.freed }
  | 2 => s.putPipe (4 * die + idx) {}
  | _ => s

/-- A new block stands behind a logical MU: the tiles that waited for it run (R352). -/
def goOn (s : State) (cls die idx : Nat) : State := if cls = clsMu then pumpSlice s (4 * die + idx / 6) else s

/-- PART of what a block's slice serves: 1 to 16, 0 for none. -/
def partOfBlock (s : State) (cls die idx : Nat) : Nat :=
  match (s.slice (4 * die + idx / perBand cls)).owner with | some k => k + 1 | none => 0

/-- Sets a logical block with spare x behind it, in use from now on. -/
def useSpare (s : State) (cls die idx x : Nat) (b : Block) : State :=
  withPool (freshLocal s cls die idx) cls die fun s =>
    (s.setRipstop { s.ripstop with usedSpares := s.ripstop.usedSpares ++ [(die, cls, x)] }).putBlock cls die idx
      { b with site := some x, due := false, lastPart := partOfBlock s cls die idx }

/-- A spare takes a logical index (R352, R353). -/
def standIn (s : State) (cls die idx x : Nat) : State :=
  goOn (useSpare s cls die idx x { s.block cls die idx with loan := false, under := none }) cls die idx

/-- A spare is borrowed for a test: what served the index, its own block or a spare in service, is under test (R358). -/
def borrow (s : State) (cls die idx x : Nat) : State :=
  let b := s.block cls die idx
  goOn (useSpare s cls die idx x { b with testing := true, loan := true, under := b.site }) cls die idx

/-- What was under test takes its index back; the borrowed spare is wiped and freed (R358). -/
def giveBack (s : State) (cls die idx : Nat) : State :=
  let b := s.block cls die idx
  goOn (withPool (freshLocal s cls die idx) cls die fun s =>
    (s.setRipstop { s.ripstop with usedSpares := s.ripstop.usedSpares.filter fun e => !(e.1 = die && e.2.1 = cls && b.site = some e.2.2) }).putBlock
      cls die idx { b with site := b.under, under := none, loan := false, due := false, testing := false }) cls die idx

/-- Classes whose spare takes over at once (Table 12.1). -/
def atOnce (cls : Nat) : Bool := cls = clsBank || cls = clsCore

/-- The block of a class on a die whose index a borrowed spare holds. -/
def loanOut (s : State) (cls die : Nat) : Option Nat :=
  (List.range (blockCount cls die)).find? fun i => (s.block cls die i).loan

/-- A test ends: the tested block takes its index back at the next takeover point, or at once (R353, R358). -/
def endLoan (s : State) (cls die idx : Nat) : State :=
  if atOnce cls then giveBack s cls die idx
  else s.putBlock cls die idx { s.block cls die idx with testing := false, due := true }

/-- A test gives way to a failure where the free spares do not serve every failed block (R353). -/
def abandonTest (s : State) (cls die : Nat) : State :=
  match loanOut s cls die with
  | some i => if (freeSpares s cls die).length < failedWaiting s cls die then endLoan s cls die i else s
  | none => s

/-- The matrix command that has tiles waiting on an MU which is absent from now on: they are dealt again over the MUs of its mask
that are present in its mode, and with none it completes INVALID (R354; 03 R88). -/
def dealAgain (s : State) (mu : Nat) (x : TileJob) : State :=
  let q := x.q.toNat
  match ownerOf s q, (s.queue q).started.find? fun r => r.idx = x.idx with
  | some k, some r =>
    let c := r.cmd.toNat
    let sl := mu / 6
    let mus := ((musOf s sl c).filter (muInMode s sl c)).take (if mQuad c then 1 else 6)
    if mus.isEmpty then
      endWork (modStarted (dropTiles s q x.idx) q x.idx fun r => if faulting r.status then r else { r with ukind := 1 }) q x.idx stINVALID
    else enqueue (modStarted s q x.idx fun r => { r with mus := mus }) (jobOf s k q r) mus x.quad [x.t]
  | _, _ => s

/-- No block stands behind a logical MU any more: what waited there moves (R354). -/
def leaveMu (s : State) (mu : Nat) : State :=
  let l := (s.mu mu).queue
  l.foldl (fun s x => dealAgain s mu x) (s.modMu mu fun m => { quad := m.quad })

/-- No spare: the logical block is absent; a bank serves on (Table 12.1, R354, R355). -/
def noSpare (s : State) (cls die idx : Nat) : State :=
  let b := s.block cls die idx
  if cls = clsBank then ripPersist (s.putBlock cls die idx { b with due := false }) 0x14 0 die idx (servingSite s cls die idx) 0
  else
    let s := s.putBlock cls die idx { b with absent := true, due := false, testing := false, site := none }
    if cls = clsMu then pumpSlice (leaveMu s (24 * die + idx)) (4 * die + idx / 6) else s

/-- A spare puts itself in a fenced block's place; a spare on loan comes back first (R353). -/
def replaceBlock (s : State) (cls die idx : Nat) : State :=
  let s := abandonTest s cls die
  match freeSpares s cls die with
  | x :: _ =>
    let s := standIn s cls die idx x
    if cls = clsBank then s.setRipstop { s.ripstop with mirrors := s.ripstop.mirrors ++ [128 * die + idx] } else s
  | [] => if (loanOut s cls die).isSome then s else noSpare s cls die idx

/-- Fences what stands behind a logical block, with its entry in the fence list and a class 0x0E event (R352, R356). -/
def fenceServing (s : State) (cls die idx : Nat) : State :=
  let b := s.block cls die idx
  let site := servingSite s cls die idx
  let s := withPool s cls die fun s =>
    (s.setRipstop { s.ripstop with
        fenceList := s.ripstop.fenceList ++ [(die, cls, site)],
        usedSpares := s.ripstop.usedSpares.filter (· ≠ (die, cls, site)) }).putBlock cls die idx
      { b with fenced := b.fenced || b.site.isNone, due := true, testing := false }
  ripPersist s 0x0E 0 die idx site 0

/-- Whether what stands behind a logical block can be fenced: it has a block, not fenced already (R352). -/
def canFence (s : State) (cls die idx : Nat) : Bool :=
  cls ≠ clsLane && idx < blockCount cls die && !(s.block cls die idx).absent && !servingFenced s cls die idx

/-- What follows when a fenced block's takeover point is reached: a borrowed spare that failed leaves the index to the block under
test, any other block is replaced (R352, R353). -/
def takeOut (s : State) (cls die idx : Nat) : State :=
  if (s.block cls die idx).loan then giveBack s cls die idx else replaceBlock s cls die idx

/-- A block is fenced; a failure has priority over a test (R352, R353). -/
def fenceBlock (s : State) (cls die idx : Nat) : State :=
  let s := abandonTest (fenceServing s cls die idx) cls die
  if atOnce cls ∧ servingFenced s cls die idx then takeOut s cls die idx else s

/-- FENCE (R352). -/
def execFence (cls : BitVec 8) (die : BitVec 4) (lidx : BitVec 12) (s : State) : Host.Outcome State Fault Refusal :=
  outcome s (if !s.boot.clocksOff ∧ canFence s cls.toNat die.toNat lidx.toNat then fenceBlock s cls.toNat die.toNat lidx.toNat else s)

/-- Whether the takeover point of a logical block is reached (Table 12.1). -/
def atPoint (s : State) (cls die idx : Nat) : Bool :=
  match cls with
  | 0 => !drainOut s (24 * die + idx)
  | 1 => (s.vc (16 * die + idx)).run.isNone
  | 2 => (pipeGroup s (4 * die + idx)).isNone
  | _ => true

/-- A takeover that is due and has reached its point: of a failed block, into a test, or back from one (R352, R353, R358). -/
def takeover (s : State) (cls die idx : Nat) : State :=
  let b := s.block cls die idx
  if servingFenced s cls die idx then takeOut s cls die idx
  else if b.loan then giveBack s cls die idx
  else if b.testing ∧ spareToLend s cls die then borrow s cls die idx ((freeSpares s cls die).headD 0)
  else goOn (s.putBlock cls die idx { b with testing := false, due := false }) cls die idx

/-- TAKEOVER (R352, R358); for an SRAM bank, the end of its mirroring. -/
def execTakeover (cls : BitVec 8) (die : BitVec 4) (lidx : BitVec 12) (s : State) : Host.Outcome State Fault Refusal :=
  outcome s <|
    let c := cls.toNat
    let d := die.toNat
    let i := lidx.toNat
    if s.boot.clocksOff then s
    else if c = clsBank ∧ s.ripstop.mirrors.contains (128 * d + i) then
      s.setRipstop { s.ripstop with mirrors := s.ripstop.mirrors.filter (· ≠ 128 * d + i) }
    else if (s.block c d i).due ∧ atPoint s c d i then takeover s c d i
    else s

/-! ### Serge lanes (R360 to R362, Table 12.3) -/

def State.serg (s : State) (die m : Nat) : SergeMod := tget {} s.serge (die * 16 + m)
def State.putSerg (s : State) (die m : Nat) (x : SergeMod) : State := s.setSerge (tset {} s.serge (die * 16 + m) x)

/-- Width from the lanes lost of 68: 0 full, 1 three quarters, 2 half, 3 fenced. -/
def sergeWidth (lost : Nat) : Nat := if lost ≤ 4 then 0 else if lost ≤ 20 then 1 else if lost ≤ 36 then 2 else 3

/-- A lane fails: a spare lane of the module takes its place, or the module goes down the ladder (R361, R362). -/
def laneRepair (s : State) (die m lane : Nat) : State :=
  let x := s.serg die m
  if x.fenced ∨ x.swapped.contains lane ∨ 68 ≤ lane then s
  else
    let w := sergeWidth x.lost
    let w' := sergeWidth (x.lost + 1)
    let s := s.putSerg die m
      { x with lost := x.lost + 1, swapped := x.swapped ++ [lane], warned := x.warned.filter (· ≠ lane), fenced := w' = 3,
               replays := x.replays.filter fun e => e.1 ≠ lane }
    let p := siteOf s clsLane die m
    if x.lost < 4 then ripEvent s 0x09 0 die m p (67 - x.lost)
    else if w' = 3 then ripPersist s 0x0B 0 die m p (67 - x.lost)
    else if w ≠ w' then ripPersist s 0x0A 0 die m p (67 - x.lost)
    else s

/-- LANE_WARNING (R360): each fall of a lane's margin below the warning level raises an event. -/
def execLaneWarning (die : Fin 4) (module : Fin 16) (lane : BitVec 8) (s : State) : Host.Outcome State Fault Refusal :=
  .next <|
    let x := s.serg die.val module.val
    let l := lane.toNat
    if s.boot.clocksOff ∨ x.fenced ∨ 68 ≤ l ∨ x.swapped.contains l then s
    else
      let w := if x.warned.contains l then x.warned else x.warned ++ [l]
      ripEvent (s.putSerg die.val module.val { x with warned := w }) 0x08 0 die.val module.val
        (siteOf s clsLane die.val module.val) (68 - x.lost)

/-- LANE_REPAIR (R361, R362). -/
def execLaneRepair (die : Fin 4) (module : Fin 16) (lane : BitVec 8) (s : State) : Host.Outcome State Fault Refusal :=
  .next (if s.boot.clocksOff then s else laneRepair s die.val module.val lane.toNat)

/-- SERGE_REPLAY (R360, R361): no data is lost; 8 within 1 s replace the lane. -/
def execSergeReplay (die : Fin 4) (module : Fin 16) (lane : BitVec 8) (s : State) : Host.Outcome State Fault Refusal :=
  .next <|
    let x := s.serg die.val module.val
    let l := lane.toNat
    if s.boot.clocksOff ∨ x.fenced ∨ 68 ≤ l then s
    else
      let r := (l, s.now.toNat) :: x.replays.filter fun e => s.now.toNat < e.2 + 100000000
      let s := s.putSerg die.val module.val { x with replays := r }
      if 8 ≤ (r.filter fun e => e.1 = l).length then laneRepair s die.val module.val l else s

/-- LOCKSTEP_MISMATCH (Table 12.1): the pair resets and reloads its state. -/
def execLockstepMismatch (pair : BitVec 8) (s : State) : Host.Outcome State Fault Refusal :=
  .next (if s.boot.clocksOff then s
    else ripEvent (s.setRipstop { s.ripstop with lockstepErr := s.ripstop.lockstepErr + 1 }) 0x11 0 4 pair.toNat 0 0)

/-! ### Self-test (R357 to R359) -/

/-- Key of a rotation. -/
def rotKey (cls die : Nat) : Nat := cls * 8 + die

/-- Whether what serves a logical index, its own block or a spare in service, can be tested now (R357). -/
def testable (s : State) (cls die i : Nat) : Bool :=
  let b := s.block cls die i
  !b.absent && !b.due && !b.loan && !servingFenced s cls die i

/-- The next block of a rotation, in ascending logical order from where it stands. -/
def nextTest (s : State) (cls die : Nat) : Option Nat :=
  let n := blockCount cls die
  let p := tget 0 s.ripstop.testNext (rotKey cls die)
  ((List.range n).map fun j => (p + j) % n).find? fun i => cls = clsLane || testable s cls die i

/-- A test's turn is skipped (R359). -/
def skipTest (s : State) (cls die idx : Nat) : State :=
  let key := rotKey cls die
  let p := s.ripstop.paused
  ripEvent (s.setRipstop { s.ripstop with paused := if p.contains key then p else p ++ [key] }) 0x10 0 die idx 0 0

/-- The rotation goes on behind block i. -/
def advanceTest (s : State) (cls die i : Nat) : State :=
  let key := rotKey cls die
  s.setRipstop { s.ripstop with testNext := tset 0 s.ripstop.testNext key ((i + 1) % blockCount cls die),
                                paused := s.ripstop.paused.filter (· ≠ key) }

/-- The end of a test (R358): a block that passed goes back at its next takeover point; one that failed is fenced, and the spare
keeps its index. -/
def endTest (s : State) (cls die i : Nat) (pass : Bool) : State :=
  let b := s.block cls die i
  if pass then endLoan s cls die i
  else
    let site := b.under.getD (siteOf s cls die i)
    let s := s.setRipstop { s.ripstop with
      fenceList := s.ripstop.fenceList ++ [(die, cls, site)], usedSpares := s.ripstop.usedSpares.filter (· ≠ (die, cls, site)) }
    ripPersist (s.putBlock cls die i { b with testing := false, loan := false, under := none, fenced := true }) 0x0E 0 die i site 0

/-- SELF_TEST of a class on a die (R357 to R359): the test under way ends with this result; with none under way, the next
turn of the rotation begins. A Serge lane is tested in one turn. -/
def execSelfTest (cls : BitVec 8) (die : BitVec 4) (pass : Bool) (s : State) : Host.Outcome State Fault Refusal :=
  outcome s <|
    let c := cls.toNat
    let d := die.toNat
    if s.boot.clocksOff then s
    else match (List.range (blockCount c d)).find? fun i => (s.block c d i).testing && (s.block c d i).loan with
      | some i => endTest s c d i pass
      | none =>
        match nextTest s c d with
        | none => s
        | some i =>
          if c = clsLane then
            if 4 ≤ (s.serg d (i / 68)).lost then skipTest s c d (i / 68)
            else
              let s := advanceTest s c d i
              if pass then s else laneRepair s d (i / 68) (i % 68)
          else if !spareToLend s c d then skipTest s c d i
          else
            let s := advanceTest s c d i
            if atOnce c then borrow s c d i ((freeSpares s c d).headD 0)
            else s.putBlock c d i { s.block c d i with testing := true, due := true }

/-! ### FENCE_CLEAR (R356; 14 Table 14.8) -/

/-- The entry a FENCE_CLEAR argument names: byte 0 die, byte 1 class, bytes 2 and 3 PSITE (DESIGN CHOICE, log 27). -/
def clearEntry (v : Nat) : Nat × Nat × Nat := (v % 256, v / 256 % 256, v / 65536 % 65536)

/-- Whether there is such an entry. -/
def clearOk (s : State) (v : Nat) : Bool := s.ripstop.fenceList.contains (clearEntry v)

/-- The entry is cleared at the next device reset. -/
def clearFence (s : State) (v : Nat) : State :=
  if s.ripstop.fenceClear.contains (clearEntry v) then s
  else s.setRipstop { s.ripstop with fenceClear := s.ripstop.fenceClear ++ [clearEntry v] }

/-- FENCE_CLEAR (R356). -/
def execFenceClear (val : BitVec 64) (s : State) : Host.Outcome State Fault Refusal :=
  .next (if !s.boot.clocksOff ∧ clearOk s val.toNat then clearFence s val.toNat else s)

/-! ### The risk clock (R366) -/

/-- Whether second t of operation begins a new bucket of a window of w seconds. -/
def newBucket (w t : Nat) : Bool := w ≠ 0 && (t * 64 / w ≠ (t - 1) * 64 / w)

/-- The buckets after a second of operation. -/
def shiftBuckets (b : List (Nat × List Nat)) (t : Nat) : List (Nat × List Nat) :=
  (b.map fun e => if newBucket (windowOf e.1) t then (e.1, (0 :: e.2).take 64) else e).filter fun e => e.2.any (· ≠ 0)

/-- RISK (R366): one second of operation has passed. -/
def execRisk (s : State) : Host.Outcome State Fault Refusal :=
  .next <|
    if s.boot.clocksOff ∨ s.boot.state ≠ 0x00 then s
    else
      let t := s.ripstop.upSec + 1
      updateRisk (s.setRipstop { s.ripstop with
        upSec := t, buckets := shiftBuckets s.ripstop.buckets t, warm := if t % 60 = 0 then s.ripstop.warm - 500 else s.ripstop.warm })

/-! ### Age, scrub and errors (05 R145, R157 to R160; R382) -/

/-- AGE (05 R145). -/
def execAge (k : Fin 16) (s : State) : Host.Outcome State Fault Refusal :=
  .next (if s.boot.clocksOff ∨ (s.part k.val).st = .free then s else s.modPart k.val fun P => { P with age := P.age + 1 })

/-- Table 05.10 (05 R156): data bits and check bits of a tier's codeword, its symbol's bits, symbols corrected and detected, and
hours of a patrol pass. Capacities are after ECC, so check bits are no state; what spare rows and columns of an SRAM bank are used
for the spec does not say (log 76). -/
structure EccRow where
  data : Nat
  check : Nat
  symbol : Nat
  corrects : Nat
  detects : Nat
  hours : Nat
  deriving DecidableEq, Repr
def eccTable : List EccRow := [⟨64, 8, 1, 1, 2, 4⟩, ⟨512, 64, 8, 1, 2, 24⟩, ⟨512, 32, 8, 1, 2, 24⟩]

/-- What an access of a tier with n bad symbols in one codeword is: good, corrected, or uncorrectable (05 R156). -/
inductive EccRead where
  | good | corrected | uncorrectable
  deriving DecidableEq, Repr
def eccRead (r : EccRow) (n : Nat) : EccRead := if n = 0 then .good else if n ≤ r.corrects then .corrected else .uncorrectable

/-- Far units that some partition holds, ascending (05 Table 05.10: every allotted unit). -/
def allottedUnits (s : State) : List Nat := (List.range 576).filter fun u => allParts.any fun k => (s.part k).farUnits.contains u

/-- The unit of a tier that a patrol pass reads after unit n: banks, near frames, allotted far units (05 Table 05.10). -/
def patrolAfter (s : State) (tier n : Nat) : Option Nat :=
  match tier with
  | 0 => some ((n + 1) % 512)
  | 1 => some ((n + 1) % 24576)
  | 2 => match allottedUnits s with
    | [] => none
    | u :: r => some (((u :: r).find? fun x => n < x).getD u)
  | _ => none

/-- PATROL_SCRUB (05 R158): the next unit of the tier is read; what it finds are commands of their own (log 1). -/
def execPatrolScrub (tier : BitVec 2) (s : State) : Host.Outcome State Fault Refusal :=
  .next (if s.boot.clocksOff then s
    else match patrolAfter s tier.toNat (tget 0 s.ripstop.patrol tier.toNat) with
      | some n => s.setRipstop { s.ripstop with patrol := tset 0 s.ripstop.patrol tier.toNat n }
      | none => s)

/-- Partition of a slice, as PART of an event. -/
def slicePart (s : State) (i : Nat) : Nat := match (s.slice i).owner with | some k => k + 1 | none => 0

/-- A near row's corrected error: with the third within 24 h the row is remapped (05 R157). -/
def nearRowError (s : State) (unit row : Nat) : State :=
  let key := 2 ^ 32 * unit + row
  let t := nowSec s
  let l := t :: (tget [] s.ripstop.rowErrs key).filter fun x => t < x + 86400
  if 3 ≤ l.length then
    ripEvent (s.setRipstop { s.ripstop with rowErrs := tset [] s.ripstop.rowErrs key [], rowMoved := s.ripstop.rowMoved ++ [key] })
      0x04 (slicePart s (unit / 8)) (unit / 32) (unit % 32) (siteOf s clsNear (unit / 32) (unit % 32)) row
  else s.setRipstop { s.ripstop with rowErrs := tset [] s.ripstop.rowErrs key l }

/-- A far access of a channel fails LPDDR6 link protection: failures one to three of one access are retried and logged, a fourth
is an uncorrectable error, which its command UNCORRECTABLE_ERROR carries (05 R157). -/
def linkFailure (s : State) (ch row : Nat) : State :=
  let e := tget (0, 0) s.ripstop.farRetries ch
  let n := if e.1 = row then e.2 + 1 else 1
  let put (v : Nat × Nat) (s : State) : State := s.setRipstop { s.ripstop with farRetries := tset (0, 0) s.ripstop.farRetries ch v }
  if n ≤ 3 then ripEvent (put (row, n) s) 0x03 0 4 ch 0 row else put (0, 0) s

/-- CORRECTABLE_ERROR (05 R157): `unit` is the SRAM bank (0 to 511), the near channel (0 to 127) or the far channel; tier 3 is a
far access that fails link protection, `row` naming the access. The data are corrected in place, so memory stands. -/
def execCorrectableError (tier : BitVec 2) (unit : BitVec 16) (row : BitVec 32) (s : State) : Host.Outcome State Fault Refusal :=
  .next <|
    let u := unit.toNat
    if s.boot.clocksOff then s
    else match tier.toNat with
      | 0 => if u < 512 then ripEvent s 0x01 (slicePart s (u / 32)) (u / 128) (u % 128) (servingSite s clsBank (u / 128) (u % 128)) 0 else s
      | 1 => if u < 128 then
          nearRowError (ripEvent s 0x02 (slicePart s (u / 8)) (u / 32) (u % 32) (siteOf s clsNear (u / 32) (u % 32)) row.toNat) u row.toNat
        else s
      | 2 => if u < 32 then ripEvent s 0x03 0 4 u 0 0 else s
      | _ => if u < 32 then linkFailure s u row.toNat else s

/-- Die, logical index and physical site of the store that serves a partition address now, as an event names them. -/
def storeSite (s : State) (k a : Nat) : Nat × Nat × Nat :=
  let P := s.part k
  let e := storeLoc P a
  (e.1, e.2, if 4 ≤ e.1 then 0 else match place P a with
    | .sram _ _ => servingSite s clsBank e.1 e.2
    | _ => siteOf s clsNear e.1 e.2)

/-- Logs an uncorrectable error at a partition address (R383; 05 R160). -/
def ueEvent (s : State) (k a : Nat) : State :=
  let x := storeSite s k a
  ripEvent s 0x05 (k + 1) x.1 x.2.1 x.2.2 0

/-- The clean near sector that serves an address, if one does: page record and sector (05 R159). -/
def cleanNear (P : Part) (a : Nat) : Option (Nat × Nat) :=
  match place P a with
  | .tensor a =>
    let r := recordOf P (pageNo a)
    let x := a / 2 ^ 16 % 32
    let g := pageRec P r
    if servedNear g x && !g.dirty.getLsbD x then some (r, x) else none
  | _ => none

/-- The generation held in a buddy range at an address loses COMPLETE (R382). -/
def spoilBuddy (P : Part) (a : Nat) : Part :=
  match P.regions.find? fun e => e.2.kind = .buddy && inRange e.2.front e.2.npages (pageNo a) with
  | none => P
  | some (_, r) => dropGen P r.rank (decide (r.front.toNat + 2 ^ 20 * r.npages ≤ a))

/-- A front-face page found bad is to be fetched from the buddy's newest copy, where that copy is of the step before (R382). -/
def askFetch (P : Part) (a : Nat) : Part :=
  let pg : BitVec 48 := BitVec.ofNat 48 (2 ^ 21 * pageNo a)
  let front := P.regions.any fun e => e.2.kind = .pair && inRange e.2.front e.2.npages (pageNo a)
  if front && P.secOk.head?.any (fun n => n + 1 = P.stepNo) && !P.fetch.contains pg then { P with fetch := P.fetch ++ [pg] } else P

/-- What bad data at an address means for the copies held and to be fetched (R382). -/
def spoil (P : Part) (a : Nat) : Part := askFetch (spoilBuddy P a) a

/-- The command that read bad data ends with DATA_ERROR, and UE is set (05 R160). -/
def readFails (s : State) (k q : Nat) (r : Started) (a : Nat) : State :=
  let s := stopVcs s (BitVec.ofNat 20 q, r.idx)
  let s := modStarted s q r.idx fun x =>
    if faulting x.status then x
    else { x with ukind := BitVec.ofNat 4 (unitOf (hdrClass r.cmd.toNat)), faddr := BitVec.ofNat 48 a }
  modHealth (endWork s q r.idx stDATA) k fun h => { h with ue := true, post := setFlag h.post 0 }

/-- A clean near sector is read again from its far home (05 R160). -/
def refetch (s : State) (k b : Nat) : State := s.setMem (memCopy s.mem (farKey k b) (nearKey k b) (2 ^ 16))

/-- Bad data at address a under started command r: a clean near sector is read again, any other data fails the command
(05 R160). -/
def badData (s : State) (k q a : Nat) (r : Started) : State :=
  match cleanNear (s.part k) a with
  | some w => refetch s k (2 ^ 21 * w.1 + 2 ^ 16 * w.2)
  | none => readFails (s.modPart k fun P => spoil P a) k q r a

/-- An uncorrectable error met by started command r of partition k at address a (05 R160). -/
def dataFault (s : State) (k q a : Nat) (r : Started) : State :=
  badData (ueEvent s k a) k q a r

/-- The partition's uncorrectable-error flag is set for bad data at address a, outside any started command's reads. -/
def ueAt (s : State) (k a : Nat) : State :=
  modHealth (s.modPart k fun P => spoil P a) k fun h => { h with ue := true, post := setFlag h.post 0 }

/-- The completion record that queue q writes next goes to address a in device memory (06 R451). -/
def recordNext (s : State) (k q : Nat) (idx : BitVec 24) (a : Nat) : Option Started :=
  let Q := s.queue q
  match Q.started with
  | [] => none
  | r :: _ =>
    if r.idx = idx ∧ workEnded s r ∧ r.recTag.isNone ∧ Q.cplRec ∧ !Q.cplLoc ∧ recordAddr Q idx.toNat = a ∧ writable (s.part k) a 16
    then some r else none

/-- The command that queue q read last from its ring slot at address a in device memory: at HEAD and not started, or ended by
the front end for its tag or its header (06 R450). -/
def slotJustRead (Q : QCtx) (idx : BitVec 24) (a : Nat) : Bool :=
  !Q.ringLoc && slotAddr Q idx.toNat = a
    && ((Q.front.isSome && Q.head = idx) || Q.started.getLast?.any fun r => r.atHead && r.idx = idx && r.recTag.isNone)

/-- The read of a ring slot met the error: nothing of the command runs, and its sequence number is consumed, as it is already
where the command had passed its tag (06 R450). -/
def slotFails (s : State) (k q a : Nat) : State :=
  let Q := s.queue q
  let s := endHold s k q
  let bad (seq : BitVec 32) (idx : BitVec 24) : Started :=
    { idx := idx, cmd := BitVec.ofNat 512 (seq.toNat * 2 ^ 32), status := stDATA, ukind := 8, faddr := BitVec.ofNat 48 a }
  let s :=
    if Q.front.isSome then endAtHead (s.modQueue q fun Q => { Q with front := none }) q (bad (Q.expSeq - 1) 0)
    else
      match Q.started.getLast? with
      | none => s
      | some r =>
        let spent := r.status ≠ stAUTH
        s.modQueue q fun Q => { (if spent then Q else bumpSeq Q) with
          started := Q.started.dropLast ++ [bad (if spent then Q.expSeq - 1 else Q.expSeq) r.idx] }
  claimHold (ueAt s k a) k

/-- Whether a sub-window request reads the bytes at address a of partition k (10 R311). -/
def readsAt (s : State) (k a : Nat) (m : ClMsg) : Bool :=
  let n := if m.opc = 0x03 then 64 * m.len.toNat else 64
  let e := if m.opc = 0x02 then subWriteStatus s m.addr.toNat n m.rdom.toNat else subStatus s m.addr.toNat n m.rdom.toNat
  decide (subBase ≤ m.addr.toNat) && decide (e.1 = csOK) && decide (e.2.1 = k) && decide (e.2.2 ≤ a) && decide (a < e.2.2 + n)
    && (m.opc = 0x03 || !s.link.forerunner)

/-- A read of the companion that meets the error is answered DATA_ERR (10 R311). -/
def companionFails (s : State) (k a : Nat) : State :=
  match [0x03, 0x01, 0x02].findSome? fun opc => pickMsg opc (readsAt s k a) [] s.link.rx with
  | none => s
  | some (m, r) =>
    let s := ueAt (s.setLink (freeCredit { s.link with rx := r } m 1)) k a
    if m.opc = 0x03 then clRespond s m 0x21 csDATA_ERR (List.replicate (64 * m.len.toNat) 0) else clRespond s m 0x20 csDATA_ERR []

/-- Whether a gather request reads the bytes at address a (08 R249). -/
def gathers (a : Nat) (m : Msg) : Bool :=
  let c := leNat m.payload * 2 ^ 128
  m.opk = 0x13 && ((fgM c ≤ a && a < fgM c + 4 * fgBytes c) || (fgMSc c ≤ a && a < fgMSc c + fgRows c))

/-- Bad data that no command of a queue here reads: a gather request that reads it ends with DATA_ERROR; an adder's is noted in
the health word alone (05 R160). -/
def unitFails (s : State) (k a : Nat) : State :=
  match takeMsg s k (gathers a) with
  | some (m, s) => answerGather (ueAt s k a) k m (.refuse stDATA)
  | none => ueAt s k a

/-- The hub, an adder or the collective engine met an uncorrectable error at address a: in the record queue q writes, in the
slot it read, in a read of the companion, or else in a gather or an addition (06 R450, R451; 10 R311; 05 R160). -/
def hubError (s : State) (k q : Nat) (idx : BitVec 24) (a : Nat) : State :=
  let w := ueEvent s k a
  match recordNext s k q idx a with
  | some r => closeCmd (ueAt w k a) k q (badRecord stDATA a r)
  | none =>
    match cleanNear (s.part k) a with
    | some x => refetch w k (2 ^ 21 * x.1 + 2 ^ 16 * x.2)
    | none =>
      if slotJustRead (s.queue q) idx a then slotFails w k q a
      else if ([0x03, 0x01, 0x02].findSome? fun opc => pickMsg opc (readsAt s k a) [] s.link.rx).isSome then companionFails w k a
      else if readable (s.part k) a 1 then unitFails w k a
      else s

/-- Whether a class runs its command whole as it starts, so that bad data must be known before (log 68). -/
def runsWhole (c : Nat) : Bool := 0x10 ≤ hdrKind c && hdrClass c ≠ 5

/-- A read of the command at HEAD will meet an uncorrectable error at address a: a clean near sector is read again, any other
data fails the command as it starts (05 R159, R160; log 68). -/
def headFault (s : State) (k q : Nat) (idx : BitVec 24) (a : Nat) : State :=
  let Q := s.queue q
  if Q.head ≠ idx ∨ !(Q.front.any fun c => runsWhole c.toNat) then s
  else
    let s := ueEvent s k a
    match cleanNear (s.part k) a with
    | some w => refetch s k (2 ^ 21 * w.1 + 2 ^ 16 * w.2)
    | none => (s.modPart k fun P => spoil P a).modQueue q fun Q => { Q with bad := some (BitVec.ofNat 48 a) }

/-- Bad data in the securing reserve: the snapshot is taken again at the next boundary, and a drain that had not delivered it ends
(R382). -/
def reserveFails (s : State) (k : Nat) : State :=
  s.modPart k fun P => { P with snapshot := none, snapAgain := P.snapshot.isSome || P.snapAgain,
                                drain := P.drain.filter fun d => d.snapSent && d.snapAck }

/-- UNCORRECTABLE_ERROR (05 R159, R160; R382): place 0, the read of a command at a partition address; 1, the device reserve; 2,
the securing reserve of the queue's partition; 3, an access of the hub front end, the companion, an adder or a gather (log 68).
The read of place 0 is one of a command that has started, or of the command at HEAD. -/
def execUncorrectableError (place : BitVec 2) (q : Qid) (idx : BitVec 24) (addr : BitVec 48) (s : State) :
    Host.Outcome State Fault Refusal :=
  if s.boot.clocksOff then .next s
  else if place = 1 then .next (ripPersist s 0x14 0 7 0 0 0)
  else match ownerOf s q.toNat with
    | none => .next s
    | some k =>
      if place = 3 then outcome s (hubError s k q.toNat idx addr.toNat)
      else if place = 2 then .next (ripEvent (reserveFails s k) 0x05 (k + 1) 7 0 0 0)
      else match (s.queue q.toNat).started.find? fun r => r.idx = idx with
        | none => .next (headFault s k q.toNat idx addr.toNat)
        | some r => .next (dataFault s k q.toNat addr.toNat r)

/-! ### Securing: announcing (R368) -/

/-- The coordinator: rank 0, or the lowest rank that answers when rank 0 is absent. -/
def coordOf (P : Part) (J : Job) : Nat :=
  ((List.range (jobSize J)).find? fun r => r = J.rank.toNat || (rankValid J r && !P.silent.contains (BitVec.ofNat 16 r))).getD J.rank.toNat

/-- Sends a message along the broadcast path of HVOTE: onward to the members this one collects from (08 R251). -/
def passOn (s : State) (k : Nat) (J : Job) (m : Msg) : State :=
  let mine := (voteAxes J).takeWhile fun a => (coordsOf J J.rank.toNat).getD a 0 = 0
  (mine.reverse.flatMap (awaited J)).foldl (fun s r => sendMsg s k r none m) s

/-- A SECAT or SECOK for step n. -/
def secStepMsg (opk : Nat) (n : BitVec 48) : Msg := { opk := BitVec.ofNat 8 opk, payload := toLe 8 n.toNat }

/-- Sends a message from the coordinator to every member: along the broadcast path from rank 0, else to each rank. -/
def tellAll (s : State) (k : Nat) (J : Job) (m : Msg) : State :=
  if J.rank = 0 then passOn s k J m
  else ((List.range (jobSize J)).filter (· ≠ J.rank.toNat)).foldl (fun s r => sendMsg s k r none m) s

/-- A member passes the coordinator's message on where it came along the broadcast path. -/
def relay (s : State) (k : Nat) (J : Job) (m : Msg) : State := if coordOf (s.part k) J = 0 then passOn s k J m else s

/-- The coordinator announces its step number plus 2; while an announced step is still to come it does not again (R368). -/
def announce (s : State) (k : Nat) (J : Job) : State :=
  let P := s.part k
  if P.secAt.any fun n => P.stepNo.toNat ≤ n.toNat then s
  else
    let n := P.stepNo + 2
    tellAll (s.modPart k fun P => { P with secAt := some n }) k J (secStepMsg 0x31 n)

/-- A member asks for securing; while a drain is in flight it waits (R368). -/
def askSecure (s : State) (k : Nat) : State :=
  match (s.part k).job with
  | none => s
  | some J =>
    if (s.part k).drain.isSome then s.modPart k fun P => { P with secWait := true }
    else
      let s := s.modPart k fun P => { P with secWait := false }
      let c := coordOf (s.part k) J
      if c = J.rank.toNat then announce s k J else sendMsg s k c none { opk := 0x30 }

/-- SECREQ (R368): the coordinator answers with SECAT. -/
def execSecreq (k : Fin 16) (s : State) : Host.Outcome State Fault Refusal :=
  outcome s <| onMsg s k.val 0x30 (fun _ => true) fun s _ =>
    match (s.part k.val).job with
    | some J =>
      if (s.part k.val).drain.isSome then s.modPart k.val fun P => { P with secWait := true } else announce s k.val J
    | none => s

/-- SECAT (R368): a member that has already committed the step does not secure it. -/
def execSecat (k : Fin 16) (s : State) : Host.Outcome State Fault Refusal :=
  outcome s <| onMsg s k.val 0x31 (fun _ => true) fun s m =>
    let n : BitVec 48 := BitVec.ofNat 48 (leNat (slice m.payload 0 8))
    match (s.part k.val).job with
    | none => s
    | some J =>
      let s := relay s k.val J (secStepMsg 0x31 n)
      if n.toNat < (s.part k.val).stepNo.toNat then s else s.modPart k.val fun P => { P with secAt := some n }

/-- SECURE_PERIOD (R368): the period, or the risk estimate, asks for securing. -/
def execSecurePeriod (k : Fin 16) (s : State) : Host.Outcome State Fault Refusal :=
  outcome s <|
    let P := s.part k.val
    let since := s.now.toNat - P.boundaryTime
    if s.boot.clocksOff ∨ P.job.isNone then s
    else if P.dict.securePeriod.toNat * oneSec ≤ since
        ∨ (s.ripstop.secureTh.toNat ≤ s.ripstop.risk.toNat ∧ P.dict.secureMin.toNat * oneSec ≤ since) then askSecure s k.val
    else s

/-! ### Securing: completion (R373, R374) -/

/-- Keeps a SECOK step: the two newest, newest first. -/
def keepSecok (P : Part) (n : BitVec 48) : Part :=
  if P.secOk.contains n then P
  else
    let newer := P.secOk.filter fun x => n.toNat < x.toNat
    { P with secOk := (newer ++ n :: P.secOk.filter fun x => x.toNat ≤ n.toNat).take 2 }

/-- The coordinator has a SECDONE; with one from every rank it sends SECOK (R373). -/
def countDone (s : State) (k : Nat) (J : Job) (n : BitVec 48) (src : BitVec 16) : State :=
  let s := s.modPart k fun P => { P with secDone := if P.secDone.contains (n, src) then P.secDone else P.secDone ++ [(n, src)] }
  if (List.range (jobSize J)).all fun r => (s.part k).secDone.contains (n, BitVec.ofNat 16 r) then
    tellAll (s.modPart k fun P => { keepSecok P n with secDone := P.secDone.filter fun e => e.1 ≠ n }) k J (secStepMsg 0x33 n)
  else s

/-- A member reports its secured step to the coordinator. -/
def reportDone (s : State) (k : Nat) (n : BitVec 48) (fp : BitVec 64) : State :=
  match (s.part k).job with
  | none => s
  | some J =>
    let c := coordOf (s.part k) J
    if c = J.rank.toNat then countDone s k J n J.rank
    else sendMsg s k c none { opk := 0x32, payload := toLe 8 n.toNat ++ toLe 8 fp.toNat }

/-- SECDONE (R373). -/
def execSecdone (k : Fin 16) (s : State) : Host.Outcome State Fault Refusal :=
  outcome s <| onMsg s k.val 0x32 (fun _ => true) fun s m =>
    match (s.part k.val).job with
    | some J => countDone s k.val J (BitVec.ofNat 48 (leNat (slice m.payload 0 8))) m.src
    | none => s

/-- SECOK (R373). -/
def execSecok (k : Fin 16) (s : State) : Host.Outcome State Fault Refusal :=
  outcome s <| onMsg s k.val 0x33 (fun _ => true) fun s m =>
    let n : BitVec 48 := BitVec.ofNat 48 (leNat (slice m.payload 0 8))
    match (s.part k.val).job with
    | some J => (relay s k.val J (secStepMsg 0x33 n)).modPart k.val fun P => keepSecok P n
    | none => s

/-! ### Securing: the drain (R371 to R377) -/

/-- S: the bytes one drain sends (R371). -/
def drainSize (d : Drain) : Nat := 2 ^ 21 * d.pages.length + d.snapLen

/-- A page record's 2 MiB where they lie now; a drain's read is no access (05 R145). -/
def loadRec (s : State) (k r : Nat) : Bytes :=
  let g := pageRec (s.part k) r
  (List.range 32).flatMap fun x =>
    let a := 2 ^ 21 * r + 2 ^ 16 * x
    recView (s.part k) r (2 ^ 16 * x) (memRead s.mem (if servedNear g x then nearKey k a else farKey k a) (2 ^ 16))

/-- A securing PUT to the buddy: bytes to an address of its range, under a name (R371). -/
def secPut (s : State) (k name a : Nat) (b : Bytes) : State :=
  let tag (m : Msg) : Msg :=
    { m with role := true, exp := secMark, slotId := BitVec.ofNat 16 name, mbid := BitVec.ofNat 16 (name / 2 ^ 16) }
  let dst := (s.part k).dict.buddy.toNat
  let s := (landMsgs a b).foldl (fun s m => sendMsg s k dst none (tag m)) s
  sendMsg s k dst none (tag { opk := 0x11, dst := BitVec.ofNat 48 a, payload := lsealBytes b.length 0 0 false })

/-- Whether a storage copy is configured (R371). -/
def storesCopy (P : Part) : Bool := P.dict.storeQp ≠ 0xFF && P.keys.storKey.isSome

/-- Whether the storage copy can be written now: SXFER runs on a queue pair at RTS alone (09 R285). -/
def storeOpen (s : State) (k : Nat) : Bool := storesCopy (s.part k) && decide ((s.qp k (s.part k).dict.storeQp.toNat).st = 1)

/-- Sets the drain of a partition. -/
def putDrain (s : State) (k : Nat) (d : Drain) : State := s.modPart k fun P => { P with drain := some d }

/-- Part of the storage copy, as an SXFER WRITE under no queue's command: sealed under STORKEY with OBJ = N and written over
STORE_QP into the generation's place; a queue pair that is no longer at RTS ends the storage copy (R371; 09 R285). -/
def storePart (s : State) (k : Nat) (d : Drain) (off : Nat) (b : Bytes) : State :=
  let P := s.part k
  match storSeal P with
  | none => s
  | some x =>
    if !d.toStore then s
    else if !storeOpen s k then putDrain s k { d with toStore := false }
    else
      let i := P.dict.storeQp.toNat
      let va := P.dict.storeRaddr + (if P.secGen then P.dict.storeGenBytes else 0) + BitVec.ofNat 64 (sealedLen off)
      let s := s.modPart k fun P => { P with keys := { P.keys with storCtr := P.keys.storCtr + BitVec.ofNat 64 (chunksOf b.length) } }
      sendKept s k i (writePkts (s.qp k i) va P.dict.storeRkey none (sealAll x P.keys.storCtr.toNat d.step.toNat b).flatten)

/-- Whether the target has acknowledged everything of the storage copy (R374; 09 R285). -/
def storeAcked (s : State) (k : Nat) : Bool := (s.qp k (s.part k).dict.storeQp.toNat).unacked.all fun p => p.cmd.isSome

/-- Feed domain of this device (R376). -/
def ownFeed (s : State) : BitVec 4 :=
  if s.trust.feedOverride = 0xFF then s.boot.feedId else s.trust.feedOverride.setWidth 4

/-- The drain in flight is over; a request that waited for it is made (R368). -/
def endDrain (s : State) (k : Nat) : State :=
  let s := s.modPart k fun P => { P with drain := none }
  if (s.part k).secWait then askSecure s k else s

/-- What the buddy reports before a drain decides whether the drain to it runs (R376, R377). A buddy is another device (R375). -/
def checkBuddy (s : State) (k : Nat) (d : Drain) (feed : BitVec 4) (base size : BitVec 48) : State :=
  let P := s.part k
  let fated := decide (feed = ownFeed s)
  let small := decide (size.toNat < 2 * drainSize d)
  let named := decide (P.dict.buddy ≠ 0xFFFF) && !P.job.any fun J => J.rank = P.dict.buddy
  let refuse := named && ((fated && s.trust.coFatedAllow = 0) || small)
  let d := { d with checked := true, toBuddy := named && !refuse, toStore := storeOpen s k, feed := feed, coFated := fated,
                    held := if named && !refuse then d.held else [],
                    base := base + (if P.secGen then BitVec.ofNat 48 (size.toNat / 2) else 0) }
  let s := putDrain s k d
  let s := if refuse then ripEvent s 0x22 (k + 1) 7 0 0 P.dict.buddy.toNat else s
  if d.toBuddy || d.toStore then s else endDrain s k

/-- The next page to send: when urgent, one that a waiting UPDATE needs goes first (R372). -/
def nextPage (s : State) (k : Nat) (d : Drain) : Option Nat :=
  let left := d.pages.filter fun r => !d.sent.contains r
  let wanted := (queuesOf s k).flatMap fun q => (s.queue q).started.flatMap fun r =>
    match r.work with | .held ws => ws.map fun w => recordOf (s.part k) (pageNo w.1) | _ => []
  if d.urgent then (left.find? fun r => wanted.contains r).orElse fun _ => left.head? else left.head?

/-- Sends one page: to the buddy, where it stays held until acknowledged, and to storage (R371). -/
def drainPage (s : State) (k : Nat) (d : Drain) (r : Nat) : State :=
  let off := 2 ^ 21 * d.pages.findIdx (· = r)
  let b := loadRec s k r
  let d := { d with sent := d.sent ++ [r], held := if d.toBuddy then d.held else d.held.filter (· ≠ r) }
  let s := storePart (putDrain s k d) k d off b
  if d.toBuddy then secPut s k r (d.base.toNat + off) b else s

/-- Sends the snapshot behind the pages (R371). -/
def drainSnap (s : State) (k : Nat) (d : Drain) : State :=
  let b := fit d.snapLen (match (s.part k).snapshot with | some x => snapImage x | none => [])
  let off := 2 ^ 21 * d.pages.length
  let d := { d with snapSent := true, snapAck := !d.toBuddy }
  let s := storePart (putDrain s k d) k d off b
  if d.toBuddy then secPut s k secSnap (d.base.toNat + off) b else s

/-- The record of a drain's copy at a holder: 0 the buddy, 1 storage (Table 12.7). -/
def drainRecord (s : State) (k : Nat) (d : Drain) (fp : BitVec 64) (holder : BitVec 2) : SecRec :=
  let J := (s.part k).job.getD {}
  let b := decide (holder = 0)
  { step := d.step, rank := J.rank, fp := fp, bytes := BitVec.ofNat 48 (drainSize d), epoch := J.epoch,
    feed := if b then d.feed else 0, holder := holder, coFated := b && d.coFated, complete := true, half := b && (s.part k).secGen }

/-- Bytes of a record. -/
def recordBytes (r : SecRec) (n : Nat) : Bytes := fit n (toLe 32 (secRecImage r))

/-- The record goes to each holder once every page and the snapshot have been acknowledged and FP is known: to the buddy, which
keeps it beside the range, and behind the snapshot in storage (R373). -/
def drainRec (s : State) (k : Nat) (d : Drain) (fp : BitVec 64) : State :=
  let d := { d with recSent := true, recAck := !d.toBuddy, storeRec := d.toStore }
  let s := storePart (putDrain s k d) k d (drainSize d) (recordBytes (drainRecord s k d fp 1) 256)
  if d.toBuddy then secPut s k secRecord d.base.toNat (recordBytes (drainRecord s k d fp 0) 64) else s

/-- Securing of the step is complete (R373, R374): the records are kept, SECDONE goes out where a copy is not co-fated, and a
request that waited is made. -/
def drainDone (s : State) (k : Nat) (d : Drain) (fp : BitVec 64) : State :=
  let own := (if d.toBuddy then [drainRecord s k d fp 0] else []) ++ (if d.toStore then [drainRecord s k d fp 1] else [])
  let s := s.modPart k fun P => { P with drain := none, secGen := !P.secGen, ownRecs := (own ++ P.ownRecs).take 4 }
  let s := ripEvent s 0x21 (k + 1) 7 0 0 d.step.toNat
  let s := if own.any (!·.coFated) then reportDone s k d.step fp else s
  if (s.part k).secWait then askSecure s k else s

/-- A drain whose buddy takes no copy any more; what was held for it is free (R371). -/
def leaveBuddy (d : Drain) : Drain := { d with toBuddy := false, held := [], snapAck := d.snapSent, recAck := d.recSent }

/-- A buddy that does not answer takes no copy any more; what was held for it is free (R371). -/
def buddyGone (P : Part) (d : Drain) : Drain :=
  if d.toBuddy && P.silent.contains P.dict.buddy then leaveBuddy d else d

/-- One step of the drain in flight. -/
def drainStep (s : State) (k : Nat) (d : Drain) (feed : BitVec 4) (base size : BitVec 48) : State :=
  if !d.checked then checkBuddy s k d feed base size
  else if !d.toBuddy ∧ !d.toStore then endDrain s k
  else match nextPage s k d with
    | some r => drainPage s k d r
    | none =>
      if !d.snapSent then drainSnap s k d
      else match d.fp with
        | none => s
        | some fp =>
          if !d.held.isEmpty ∨ !d.snapAck then s
          else if !d.recSent then drainRec s k d fp
          else if d.recAck ∧ (!d.toStore ∨ storeAcked s k) then drainDone s k d fp
          else s

/-- The member being replaced sends its front face and a fresh snapshot straight to the standby; then its partition is destroyed
(Table 12.9 row 5). The messages have no form in the spec: `handed` holds what they carry (log 62). -/
def handOver (s : State) (k : Nat) (rank : BitVec 16) : List Nat → State
  | r :: l => s.modPart k fun P => { P with handing := some (rank, l), handed := P.handed ++ [loadRec s k r] }
  | [] =>
    let b := snapImage (smallState s k ((s.part k).stepNo - 1))
    startEnd (s.modPart k fun P => { P with handing := none, handed := P.handed ++ [b] }) k .destroying

/-- SECURING_DRAIN (R371 to R377, R381): one step of a hand-over, or of the drain in flight. `feed`, `base` and `size` are what
the buddy reports before the drain, in a message the spec gives no form (log 62). -/
def execSecuringDrain (k : Fin 16) (feed : BitVec 4) (base size : BitVec 48) (s : State) : Host.Outcome State Fault Refusal :=
  outcome s <|
    let P := s.part k.val
    if s.boot.clocksOff ∨ P.st ≠ .active then s
    else match P.handing, P.drain with
      | some (rank, l), _ => handOver s k.val rank l
      | none, some d => drainStep (putDrain s k.val (buddyGone P d)) k.val (buddyGone P d) feed base size
      | none, none => s

/-! ### Restore (R379, Table 12.8) -/

/-- The plaintext of a pulled part: from storage its chunks are opened (11 R345), from the buddy its bytes are those its LSEAL
counts (08 R246). -/
def openPart (P : Part) (storage : Bool) (obj : Nat) (e : Bytes × BitVec 64) : Option Bytes :=
  if storage then
    match storSeal P with
    | none => none
    | some x =>
      let l := pieces 65792 e.1
      l.zipIdx.foldl (fun a c =>
        match a, openChunk x c.2 obj (c.2 + 1 = l.length) (c.1.length - 256) c.1 with
        | some b, some p => some (b ++ p)
        | _, _ => none) (some [])
  else if e.1.length = e.2.toNat then some e.1 else none

/-- Every part opened, or none. -/
def openParts (P : Part) (storage : Bool) (obj : Nat) : List (Bytes × BitVec 64) → Option (List Bytes)
  | [] => some []
  | e :: l =>
    match openPart P storage obj e, openParts P storage obj l with
    | some b, some r => some (b :: r)
    | _, _ => none

/-- What a restore pulls: the face's pages in the drain's order, the snapshot, and the FP of its record. -/
structure Pulled where
  pages : List Bytes := []
  snap : Snapshot := {}
  fp : Option (BitVec 64) := none
  deriving DecidableEq, Repr

/-- The SECOK step a restore uses: the newest, or the older one if that has failed (R379). -/
def restoreFrom (P : Part) : Option (BitVec 48) := P.secOk[P.restores]?

/-- Object number of the first sealed chunk of these parts. -/
def sealedObj (l : List (Bytes × BitVec 64)) : Nat := leNat (slice ((((l.headD ([], 0)).1.take 65792).reverse.take 256).reverse) 32 8)

/-- The step the parts must be of: the SECOK step; a standby that has none takes the one they name (Table 12.9). -/
def wantedObj (P : Part) (l : List (Bytes × BitVec 64)) : Nat := match restoreFrom P with | some n => n.toNat | none => sealedObj l

/-- Pages of the pairs of a snapshot. -/
def facePages (x : Snapshot) : List Nat :=
  (x.regions.filter fun e => e.2.kind = .pair).flatMap fun e => (List.range e.2.npages).map fun i => e.2.front.toNat + 2 ^ 21 * i

/-- Whether pages and snapshot fit each other and the step. -/
def faceFits (P : Part) (x : Snapshot) (pages : List Bytes) : Bool :=
  pages.length = (facePages x).length && pages.all (fun b => b.length = 2 ^ 21)
    && (match restoreFrom P with | some n => x.step = n | none => true)

/-- The parts taken as pages, snapshot and record; a planned hand-over has no record (Tables 12.8, 12.9). -/
def pulledOf (P : Part) (storage : Bool) (parts : List (Bytes × BitVec 64)) : Option Pulled :=
  match openParts P storage (wantedObj P parts) parts with
  | none => none
  | some l =>
    let withRec := storage || (restoreFrom P).isSome || (l.getLastD []).length = 64
    let r := secRecOf (leNat (slice (l.getLastD []) 0 32))
    let l := if withRec then l.dropLast else l
    let x := snapOf (l.getLastD [])
    let recOk := r.complete && r.step = x.step && P.job.any fun J => r.rank = J.rank
    if (!withRec || recOk) && faceFits P x l.dropLast then some { pages := l.dropLast, snap := x, fp := if withRec then some r.fp else none }
    else none

/-- Step 1: QRESET of every queue. -/
def resetAll (s : State) (k : Nat) : State := (queuesOf s k).foldl (fun s q => finishReset (beginReset s q q false) k q) s

/-- Step 2: every pair and scratch range is removed, as DREGION removes it, and the step number set. -/
def removeAll (P : Part) (n : BitVec 48) : Part :=
  let P := (P.regions.filter fun e => e.2.kind ≠ .buddy).foldl (fun P e => { P with remap := keepFront P e.2, regions := tdel P.regions e.1 }) P
  { P with stepNo := n }

/-- Step 3: the pulled face goes into the ranges that will be front; no pair is defined, so nothing guards them. -/
def restoreFace (s : State) (k : Nat) (x : Snapshot) (pages : List Bytes) : State :=
  ((facePages x).zip pages).foldl (fun s e => s.store k e.1 (fit (2 ^ 21) e.2)) s

/-- The tables that the step plans name, from the snapshot's bytes of them (Table 12.6). -/
def restoreTables (s : State) (k : Nat) : List (Nat × Nat) → Bytes → State
  | [], _ => s
  | e :: l, b =>
    restoreTables (if writable (s.part k) e.1 e.2 then s.store k e.1 (fit e.2 (b.take e.2)) else s) k l (b.drop e.2)

/-- Step 4: queue cursors of a queue. -/
def restoreCursor (s : State) (e : Nat × (BitVec 24 × BitVec 24 × BitVec 32 × QState)) : State :=
  s.modQueue e.1 fun Q => { Q with head := e.2.1, tail := e.2.2.1, expSeq := e.2.2.2.1, st := e.2.2.2.2, front := none, fetching := false }

/-- STEP and MB last issued for a stream key, as the restored step number and data cursor give them; how they give MB is not
stated (free, log 62). -/
def derivedPos (x : Snapshot) (e : Nat × (BitVec 48 × BitVec 16)) : Nat × (BitVec 48 × BitVec 16) :=
  (e.1, (x.step, BitVec.ofNat 16 (Config.unstated 62 (x.planCursor.toNat * 2 ^ 16 + e.1))))

/-- The layout a restore leaves: that of the snapshot; the rank entries rewritten since stay where the epoch is the same (Table
12.9 row 3; DESIGN CHOICE, log 62). -/
def restoreJob (P : Part) (x : Snapshot) : Option Job :=
  match P.job, x.job with
  | some J, some J' => if J.epoch = J'.epoch then some J else some J'
  | J, none => J
  | none, J' => J'

/-- Steps 2 and 4: the tables, counters, cursors and detector of the snapshot; every pair with N0 = N + 1, every scratch range
zero- filled. -/
def restoreSmall (s : State) (k : Nat) (x : Snapshot) : State :=
  let n1 := x.step + 1
  let A := (s.part k).alloc
  let s := zeroCtrs s A.cbase.toNat A.ccount.toNat
  let s := (x.ctrs.filter fun e => ctrIn (s.part k) e.1).foldl (fun s e => s.setCtrs (tset 0 s.ctrs e.1 e.2)) s
  let s := (x.cursors.filter fun e => (queuesOf s k).contains e.1).foldl restoreCursor s
  let s := restoreTables s k (Config.planTables (s.part k).plans) x.tables
  let d := 16 * s.draws + k
  let mine := x.regions.filter fun e => e.2.kind ≠ .buddy
  let s := s.modPart k fun P => openBacks d wasAtStart (mine.map Prod.snd)
    { P with stepNo := n1, job := restoreJob P x, planCursor := x.planCursor, streamPos := x.streams.map (derivedPos x), backWritten := [],
             regions := mine.foldl (fun l e => tins e.1 { e.2 with n0 := if e.2.kind = .pair then n1 else e.2.n0 } (tdel l e.1)) P.regions,
             health := { P.health with loss := x.loss, lsN := x.lsN, lsMean := x.lsMean, lsVar := x.lsVar, fp := x.fp, latch := none } }
  (mine.filter fun e => e.2.kind = .scratch).foldl (fun s e => s.zeroFill k e.2.front.toNat (2 ^ 21 * e.2.npages)) s

/-- Steps 2 to 4 with what has been pulled; the step that runs again must reach the record's FP (row 6). -/
def restoreWith (s : State) (k : Nat) (w : Pulled) : State :=
  let x := w.snap
  let s := s.modPart k fun P => removeAll P (x.step + 1)
  let s := restoreSmall (restoreFace s k x w.pages) k x
  let s := s.modPart k fun P => { P with verify := w.fp, fetch := [], restoreFailed := false }
  let s := if x.streams.any fun e => derivedPos x e ≠ e then ripEvent s 0x20 (k + 1) 7 0 0 x.step.toNat else s
  ripEvent s 0x21 (k + 1) 7 0 0 x.step.toNat

/-- A copy that fails its checks counts as tried; with no other one left the job stops (row 7). -/
def restoreFails (P : Part) : Part := { P with restores := P.restores + 1, restoreFailed := (P.secOk[P.restores + 1]?).isNone }

/-- Pages to fetch alone: a front-face page is bad and no restore has been chosen (R382). -/
def fetchesPages (P : Part) : Bool := P.fetch ≠ [] && P.health.policy ≠ some 2

/-- The pages asked for, from the buddy's newest copy, take the place of the bad ones (R382). -/
def fetchPages (s : State) (k : Nat) (storage : Bool) (parts : List (Bytes × BitVec 64)) : State :=
  let P := s.part k
  match openParts P storage (P.secOk.headD 0).toNat parts with
  | some l =>
    if l.length = P.fetch.length ∧ l.all fun b => b.length = 2 ^ 21 then
      ((P.fetch.zip l).foldl (fun s e => s.store k e.1.toNat e.2) s).modPart k fun P => { P with fetch := [] }
    else s
  | none => s

/-- RESTORE (R379, R382): the parts pulled are the face page by page in the drain's order, the snapshot, the record. It goes on,
commanded again, once every QRESET has completed. Where no SECOK step is left to try, the job stops with RESTORE_FAILED. -/
def execRestore (k : Fin 16) (pulled : PulledParts) (s : State) : Host.Outcome State Fault Refusal :=
  outcome s <|
    let storage := pulled.storage
    let parts := pulled.parts
    let k := k.val
    let P := s.part k
    if s.boot.clocksOff ∨ P.st ≠ .active ∨ P.job.isNone then s
    else if fetchesPages P then fetchPages s k storage parts
    else if (restoreFrom P).isNone ∧ (P.secOk ≠ [] ∨ parts = []) then s.modPart k fun P => { P with restoreFailed := true }
    else
      let s := resetAll s k
      if !queuesStopped s k then s
      else
        let s := refuseStep s k 0
        match pulledOf (s.part k) storage parts with
        | some w => restoreWith s k w
        | none => s.modPart k restoreFails

/-! ### Substitution (R380, R381, Table 12.9) -/

/-- Row 1 for a survivor: its uncommitted step is refused, and a step committed after the failed member's vote is rolled back. -/
def rollBack (s : State) (k : Nat) (step : BitVec 48) : State :=
  (refuseStep s k 0).modPart k fun P =>
    if P.stepNo = step + 1 then { P with stepNo := step, drain := P.drain.filter fun d => d.step ≠ step } else P

/-- Whether the substitution of a rank is a neighbour's failure: this device's own, its buddy's, or that of a member it serves as
buddy (R381, Table 12.4). The feed domains of other ranks reach no member (log 62). -/
def neighbour (P : Part) (J : Job) (rank : BitVec 16) : Bool :=
  rank = J.rank || P.dict.buddy = rank || P.secRecs.any fun r => r.rank = rank

/-- Row 3: the entry rewritten, the connections to the rank cleared, a new key generation loaded; a drain to the rank ends. The
member being replaced begins its hand-over. -/
def substituted (P : Part) (J : Job) (rank : BitVec 16) (planned v4 : Bool) (addr : BitVec 128) : Part :=
  let P :=
    { P with job := some { J with table := tset {} J.table rank.toNat { valid := true, v4 := v4, addr := addr } },
             conns := tdel P.conns rank.toNat, reasm := P.reasm.filter fun x => x.src ≠ rank, substituting := true,
             silent := P.silent.filter (· ≠ rank), subAsked := P.subAsked.filter fun e => e.1 ≠ rank,
             drain := P.drain.map fun d => if P.dict.buddy = rank then leaveBuddy d else d,
             handing := if planned ∧ rank = J.rank then some (rank, frontPages P) else P.handing,
             handed := if planned ∧ rank = J.rank then [] else P.handed }
  (deriveSlot P P.stepNo.toNat).1

/-- SUBSTITUTION (R381) on one member: rows 1 to 3 of Table 12.9. `step` is the step the failed member
had not voted on; the JOIN of the standby, the restore and the resuming queues are commands of their own. -/
def execSubstitution (k : Fin 16) (rank : BitVec 16) (planned : Bool) (step : BitVec 48) (standby : StandbyAddr) (s : State) :
    Host.Outcome State Fault Refusal :=
  outcome s <|
    let k := k.val
    match (s.part k).job with
    | none => s
    | some J =>
      if s.boot.clocksOff ∨ (s.part k).st ≠ .active ∨ jobSize J ≤ rank.toNat then s
      else
        let s := if planned then s else rollBack s k step
        let s := (queuesOf s k).foldl (fun s q => pauseQueue s k q) s
        let near := neighbour (s.part k) J rank
        let s := (failMsgs s k rank.toNat).modPart k fun P => substituted P J rank planned standby.v4 standby.addr
        let s := if near then ripEvent s 0x13 (k + 1) 7 0 0 rank.toNat else s
        ripEvent s 0x21 (k + 1) 7 0 0 rank.toNat

end Sys2Proof.Machine
end

