-- ==== Sys2Proof/Machine/Trust.lean ====
section
/-! DEFINITION. The root of trust (11 R334 to R343, R346): session set-up (14 R413, R415), attestation, the tenant's key
establishment, key loads, the step service's tagged commands, the far-DRAM cipher, the SerDes firewall. -/

namespace Sys2Proof.Machine

open Sys2Proof

/-! ### Derivations (Table 11.5) -/

/-- ASCII of a context string. -/
def ascii (s : String) : Bytes := s.toList.map fun c => BitVec.ofNat 8 c.toNat

/-- SHAKE256 of 64 B (R337). -/
def digest (b : Bytes) : Bytes := fit 64 (Config.shake256 b 512)

/-- Seed of IDK; once killed, DRS reads zero (Tables 11.5, 11.12). -/
def idkSeed (t : Trust) : Bytes := kmac (if t.drsKilled then List.replicate 32 0 else t.drs.getD (List.replicate 32 0)) [] 32 "XT4 IDK"

/-- A signature with IDK; while IDK signs nothing (Table 11.12), bytes the spec does not state (free, log 56). -/
def idkSign (t : Trust) (context : String) (m : Bytes) : Bytes :=
  if t.idkSigns then fit 3309 (Config.mldsaSign (idkSeed t) (ascii context) m) else fit 3309 (Config.measured 56 [m.length, leNat m])

/-! ### Session set-up (14 R412, R413, R415) -/

/-- Status bytes of AUTH_R, KEYSET_R and the like: those of 14 Table 14.4 (DESIGN CHOICE, log 54). -/
def rsOK : Byte := 0x00
def rsDENIED : Byte := 0x02
def rsRANGE : Byte := 0x04
def rsSTATE : Byte := 0x05

/-- Sessions of a role at once (14 Table 14.2). -/
def roleLimit (role : Nat) : Nat := if role = 0 then 4 else 2

/-- The key a role authenticates with (14 Table 14.2). -/
def roleKey (s : State) (role : Nat) : Bytes :=
  if role = 0 then s.trust.operatorKey else if role ≤ 16 then (s.part (role - 1)).tenantKey
  else if role = 17 then s.trust.soKey else s.trust.fieldKey

/-- Mailbox 0 admits all roles but tenants, mailbox k Tenant k; port M all (14 R412). -/
def boxAdmits (mbox : Option Nat) (role : Nat) : Bool :=
  match mbox with
  | none => true
  | some 0 => role = 0 || 17 ≤ role
  | some d => role = d

/-- Whether a role's partition lets a session open (14 R415). -/
def roleLive (s : State) (role : Nat) : Bool :=
  !(1 ≤ role && role ≤ 16) || (s.part (role - 1)).st = .reserved || (s.part (role - 1)).st = .active

/-- Whether Rolser sessions are answered: ROM secure boot has ended, or holds the device (13 R406, R407). -/
def rolserUp (s : State) : Bool := (s.boot.romDone || 0x80 ≤ s.boot.state.toNat) && !s.boot.clocksOff

/-- The first message waiting, when it is of this kind, taken. -/
def takeRol (s : State) (kind : Nat) : Option (RolMsg × State) :=
  match s.rolser.msgs with
  | [] => none
  | m :: r => if m.kind.toNat = kind ∧ !s.boot.clocksOff then some (m, s.setRolser { s.rolser with msgs := r }) else none

/-- HELLO_R's fields ahead of the signature. -/
def helloFields (t : Trust) (sid : Nat) (nonce ct : Bytes) : Bytes :=
  toLe 4 sid ++ nonce ++ ct ++ slice t.idkPub 0 1952 ++ toLe 2 t.idkCert.length ++ t.idkCert

/-- Answers a HELLO: the session's keys and transcript are kept until AUTH (14 R413). -/
def answerHello (s : State) (m : RolMsg) : State :=
  let (nonce, s) := s.draw 32
  let (r, s) := s.draw 32
  let (ss, ct) := Config.mlkemEncaps (m.payload.drop 36) r
  let sid := s.rolser.nextSid.toNat
  let f := helloFields s.trust sid nonce (fit 1088 ct)
  let reply := f ++ idkSign s.trust "XT4 ROLSER" (digest (m.payload ++ f))
  let t := digest (m.payload ++ reply)
  let keys := kmac ss t 64 "XT4 ROLSER KEYS"
  let S : Session :=
    { role := (m.payload.getD 0 0).toNat, mbox := m.mbox, peer := m.peer, transcript := t, keyIn := keys.take 32, keyOut := keys.drop 32 }
  let next := if s.rolser.nextSid = 0xFFFFFFFF then 1 else s.rolser.nextSid + 1
  let s := s.setRolser { s.rolser with nextSid := next, helloSec := s.rolser.helloSec + 1, sessions := tins sid S (tdel s.rolser.sessions sid) }
  rolSend s m.mbox m.peer (rolFrames none sid m.seq.toNat rkHelloR 1 reply)

/-- HELLO (14 R413, R415): at most 8 answered in a second; a payload of another form is discarded (log 46). -/
def execHello (s : State) : Host.Outcome State Fault Refusal :=
  .next <|
    match takeRol s rkHello with
    | none => s
    | some (m, s) =>
      if !rolserUp s ∨ m.payload.length ≠ 1220 ∨ 18 < (m.payload.getD 0 0).toNat then freeBusy s m.mbox
      else if 8 ≤ s.rolser.helloSec then freeBusy (s.setRolser { s.rolser with helloDrop := satAdd 64 s.rolser.helloDrop 1 }) m.mbox
      else answerHello s m

/-- Whether an AUTH is accepted (14 R412, R415). -/
def authOk (s : State) (S : Session) (sig : Bytes) : Bool :=
  let key := roleKey s S.role
  key ≠ [] && boxAdmits S.mbox S.role && roleLive s S.role
    && (s.rolser.sessions.filter fun e => e.2.opened && e.2.role = S.role).length < roleLimit S.role
    && sig.length = 3309 && Config.mldsaVerify key (ascii "XT4 ROLSER AUTH") S.transcript sig

/-- AUTH (14 R413, R415). -/
def execAuth (s : State) : Host.Outcome State Fault Refusal :=
  .next <|
    match takeRol s rkAuth with
    | none => s
    | some (m, s) =>
      let sid := m.sid.toNat
      let S := s.session sid
      if !hasSession s sid ∨ S.opened then freeBusy s m.mbox
      else if authOk s S m.payload then
        rolSend (putSession s sid { S with opened := true }) m.mbox m.peer (rolFrames (some S.keyOut) sid 0 rkAuthR 1 [rsOK])
      else rolSend (closeSession s sid) m.mbox m.peer (rolFrames (some S.keyOut) sid 0 rkAuthR 1 [rsDENIED])

/-! ### Attestation (R338, Table 11.6) -/

/-- Bytes 0 to 1,647 of a report: of the device, or of partition k with its EK. -/
def reportBody (s : State) (part : Option Nat) (nonce ek : Bytes) : Bytes :=
  let t := s.trust
  let P := match part with | some k => s.part k | none => {}
  let mode := P.dict.plainStaging.toNat % 2 * 4 + P.dict.powerPooled.toNat % 2 * 2 + P.dict.mode.toNat % 2
  toLe 8 s.boot.identity.toNat ++ toLe 16 t.serial.toNat ++ [t.lcs, BitVec.ofNat 8 (match part with | some k => k + 1 | none => 0),
    BitVec.ofNat 8 mode, 0] ++ toLe 4 t.svn.toNat ++ toLe 2 P.alloc.slices.toNat ++ toLe 2 P.alloc.farGib.toNat ++ toLe 4 0
    ++ toLe 8 t.bootCount.toNat ++ slice t.mr0 0 64 ++ slice t.mr1 0 64 ++ slice t.mr2 0 64 ++ slice P.mr3 0 64
    ++ slice t.ownerDigest 0 64 ++ slice nonce 0 32 ++ slice ek 0 1184 ++ slice t.pdieDigest 0 64

/-- A signed report, 4,957 B. -/
def report (s : State) (part : Option Nat) (nonce ek : Bytes) : Bytes :=
  let b := reportBody s part nonce ek
  b ++ idkSign s.trust "XT4 ATTEST" b

/-- ATTEST (14 Table 14.3): the device report; a payload of another length gets no answer (log 54). -/
def execAttest (s : State) : Host.Outcome State Fault Refusal :=
  .next <| onRequest s rkAttest fun s sid _ m =>
    if m.payload.length = 32 then rolReply s sid 0x21 (report s none m.payload []) else freeBusy s m.mbox

/-! ### Establishing the tenant's keys (R339, Table 11.7) -/

/-- The partition of a tenant's session. -/
def tenantOf (S : Session) : Option Nat := if 1 ≤ S.role ∧ S.role ≤ 16 then some (S.role - 1) else none

/-- KEYREQ (R339; 14 R421): a fresh key pair that serves this report alone. -/
def execKeyreq (s : State) : Host.Outcome State Fault Refusal :=
  .next <| onRequest s rkKeyreq fun s sid S m =>
    match tenantOf S with
    | none => rolReply s sid 0x23 [rsDENIED]
    | some k =>
      if ¬((s.part k).st = .reserved ∨ (s.part k).st = .active) ∨ m.payload.length ≠ 32 then rolReply s sid 0x23 [rsSTATE]
      else
        let (seed, s) := s.draw 64
        let (ek, dk) := Config.mlkemKeyGen seed
        let r := report s (some k) m.payload (fit 1184 ek)
        rolReply (s.modPart k fun P => { P with keys := { P.keys with kem := some (dk, digest r) } }) sid 0x23 r

/-- DECAPSULATION_KEY_EXPIRY (R339). -/
def execDecapsulationKeyExpiry (k : Fin 16) (s : State) : Host.Outcome State Fault Refusal :=
  .next (if s.boot.clocksOff then s else s.modPart k.val fun P => { P with keys := { P.keys with kem := none } })

/-- The step service configures the first control queue of a partition (Table 11.7; 06 R177). Which queue, and its ring, the
spec does not say (free, log 55). -/
def firstControlQueue (s : State) (k : Nat) : State :=
  let P := s.part k
  let x (i : Nat) : Nat := Config.unstated 55 (8 * k + i)
  let q := P.alloc.qbase.toNat + x 0 % P.alloc.qcount.toNat
  let img := x 1 % 2 ^ 42 * 64 + (4 + x 2 % 17) * 2 ^ 48 + x 3 % 2 * 2 ^ 53 + x 4 % 2 ^ 42 * 2 ^ 70 + x 5 % 4 * 2 ^ 112
  s.modQueue q fun Q => configured Q img 5 (x 6 % 4)

/-- A failed exchange (R339). -/
def keyFail (P : Part) : Part := { P with dict := { P.dict with keyFailCnt := satAdd 32 P.dict.keyFailCnt 1 } }

/-- The exchange's secret establishes the partition's keys. -/
def establish (P : Part) (ss d : Bytes) (sealId : BitVec 32) : Part :=
  let prk := kmac ss d 32 "XT4 PRK"
  { P with st := .active, keys := { P.keys with prk := some prk, wrapKey := some (kmac prk [] 32 "XT4 WRAP"), sealId := sealId } }

/-- KEYSET (R339; 14 R421). The decapsulation key is destroyed at the end of the exchange, however it ends. -/
def execKeyset (s : State) : Host.Outcome State Fault Refusal :=
  .next <| onRequest s rkKeyset fun s sid S m =>
    match tenantOf S with
    | none => rolReply s sid 0x25 [rsDENIED]
    | some k =>
      let P := s.part k
      match P.keys.kem with
      | none => rolReply s sid 0x25 [rsSTATE]
      | some (dk, d) =>
        if P.st ≠ .reserved then rolReply s sid 0x25 [rsSTATE]
        else
          let ct := slice m.payload 0 1088
          let id : BitVec 32 := BitVec.ofNat 32 (leNat (slice m.payload 1088 4))
          let s := s.modPart k fun P => { P with keys := { P.keys with kem := none } }
          let ok := m.payload.length = 4401 ∧ Config.mldsaVerify P.tenantKey [] (d ++ m.payload.take 1092) (m.payload.drop 1092)
          match Config.mlkemDecap dk ct with
          | some ss =>
            if ok ∧ id ≠ 0 then rolReply (firstControlQueue (s.modPart k fun P => establish P ss d id) k) sid 0x25 [rsOK]
            else rolReply (s.modPart k keyFail) sid 0x25 [rsDENIED]
          | none => rolReply (s.modPart k keyFail) sid 0x25 [rsDENIED]

/-! ### Key loads (Table 11.7; R336, R341) -/

/-- A new SUBKEY generation: EXP_SEQ of every queue is 0 (R341). -/
def rotateSubkey (s : State) (k g : Nat) (prk : Bytes) : State :=
  let s := s.modPart k fun P =>
    { P with keys := { P.keys with subkey := some (kmac prk (toLe 4 g) 32 "XT4 SUB"), gen := BitVec.ofNat 32 g } }
  (queuesOf s k).foldl (fun s q => s.modQueue q fun Q => { Q with expSeq := 0, seqSpent := false }) s

/-- Loads STORKEY, or STAGEKEY: the seal counter of a new generation starts at 0 (R344). -/
def loadStor (K : Keys) (js : Bytes) (g : Nat) : Keys :=
  let new := K.storKey.isNone || K.storGen.toNat ≠ g
  { K with storKey := some (kmac js (toLe 4 g) 32 "XT4 STOR"), storGen := BitVec.ofNat 32 g, storCtr := if new then 0 else K.storCtr }
def loadStage (K : Keys) (prk : Bytes) (g : Nat) : Keys :=
  let new := K.stageKey.isNone || K.stageGen.toNat ≠ g
  { K with stageKey := some (kmac prk (toLe 4 g) 32 "XT4 STAGE"), stageGen := BitVec.ofNat 32 g, stageCtr := if new then 0 else K.stageCtr }

/-- One item of a KEYLOAD: 0 JS, 1 stream key, 2 SUBKEY, 3 STAGEKEY, 4 XFT key slot, 5 STORKEY (log 50); its status. -/
def loadItem (k : Nat) (prk : Bytes) (a : State × Byte) (e : Nat × Nat × Nat × Nat × Bytes) : State × Byte :=
  let (s, st) := a
  let (kind, i, g, step, key) := e
  let P := s.part k
  if st ≠ rsOK then a
  else match kind with
    | 0 => (s.modPart k fun P => { P with keys := { P.keys with js := some (fit 32 key) } }, rsOK)
    | 1 => if 16 ≤ i then (s, rsRANGE)
           else (s.modPart k fun P => { P with keys := { P.keys with streams := tset 0 P.keys.streams i (BitVec.ofNat 128 (leNat key)) } }, rsOK)
    | 2 => if P.keys.subkey.isSome ∧ P.keys.gen.toNat = g then (s, rsOK)
           else if (queuesOf s k).any fun q => (s.queue q).head ≠ (s.queue q).tail then (s, rsSTATE)
           else (rotateSubkey s k g prk, rsOK)
    | 3 => (s.modPart k fun P => { P with keys := loadStage P.keys prk g }, rsOK)
    | 4 => (match P.keys.js with
            | some js => if 4 ≤ i ∨ P.sendSlot = some i then (s, rsRANGE) else (s.modPart k fun P => loadSlot P js i g step, rsOK)
            | none => (s, rsSTATE))
    | 5 => (match P.keys.js with
            | some js => (s.modPart k fun P => { P with keys := loadStor P.keys js g }, rsOK)
            | none => (s, rsSTATE))
    | _ => (s, rsRANGE)

/-- A KEYLOAD served: every item loads or none (R339). -/
def serveKeyload (s : State) (sid : Nat) (S : Session) (m : RolMsg) : State :=
  match tenantOf S with
  | none => rolReply s sid 0x27 [rsDENIED]
  | some k =>
    match (s.part k).st, (s.part k).keys.prk, (s.part k).keys.wrapKey with
    | .active, some prk, some wrap =>
      (match Config.keyUnwrap wrap m.payload with
       | none => rolReply s sid 0x27 [rsDENIED]
       | some l =>
         let r := l.foldl (loadItem k prk) (s, rsOK)
         if r.2 = rsOK then rolReply r.1 sid 0x27 [rsOK] else rolReply s sid 0x27 [r.2])
    | _, _, _ => rolReply s sid 0x27 [rsSTATE]

/-- KEYLOAD (Table 11.7; 14 R421): all of it or nothing. -/
def execKeyload (s : State) : Host.Outcome State Fault Refusal := .next (onRequest s rkKeyload serveKeyload)

/-! ### The step service's commands (R342) -/

/-- SEQ of the next command put on a ring: those on it that the front end has not passed yet come first (06 R165). -/
def nextSeq (Q : QCtx) : Nat := Q.expSeq.toNat + ((Q.tail - Q.head).toNat - (if Q.front.isSome then 1 else 0))

/-- A command as the security processor tags it with SUBKEY: its words, this SEQ, and the tag of R340. -/
def taggedCmd (sub : Bytes) (k q seq c : Nat) : Nat :=
  let c := c % 2 ^ 32 + seq % 2 ^ 32 * 2 ^ 32 + c / 2 ^ 128 * 2 ^ 128
  c + leNat (cmdTag sub k q c) * 2 ^ 64

/-- The step service issues the next command of the step plans that came by commands which passed R340: the security processor
tags it, it is put on its queue's ring, and the doorbell is rung (R342; log 77). Without SUBKEY, or with no such plan, nothing
is issued. -/
def issuePlanned (s : State) (k : Nat) : State :=
  let P := s.part k
  match P.keys.subkey, (if P.plans = [] ∨ P.st ≠ .active then none else Config.planStep P.plans P.planned) with
  | some sub, some (i, c) =>
    let q := P.alloc.qbase.toNat + i % P.alloc.qcount.toNat
    let Q := s.queue q
    let a := slotAddr Q Q.tail.toNat
    if Q.st = .disabled ∨ Q.ringLoc ∨ Q.seqSpent ∨ 2 ^ Q.ringLog2.toNat ≤ (Q.tail - Q.head).toNat ∨ 2 ^ 32 ≤ nextSeq Q
        ∨ !writable P a 64 then s
    else
      let s := (s.store k a (toLe 64 (taggedCmd sub k q (nextSeq Q) c))).modPart k fun P => { P with planned := P.planned + 1 }
      doorbell s k (BitVec.ofNat 64 (q + (Q.tail + 1).toNat * 2 ^ 20))
  | _, _ => s

/-! ### Far DRAM (R343) -/

/-- What the far DRAM devices hold of the 64 B data unit at a tensor address of partition k: its bytes under AES-256-XTS with the
partition's far key, the tweak made of its number and the unit's address. Every access of the hub deciphers (Table 11.8); a
partition without a far key has no far data. -/
def farCipher (s : State) (k a : Nat) : Option Bytes :=
  (s.part k).keys.far.map fun key =>
    Config.aesXts key ((k + 1) * 2 ^ 56 + a / 64) (memRead s.mem (farKey k (a / 64 * 64)) 64)

/-! ### The SerDes firewall (R346) -/

/-- A P-die is fenced: its UCIe modules stop, its eight ports are down and a class 0x14 event is raised (R346; 12 R364). -/
def fencePdie (s : State) (d : Nat) : State :=
  let x : Pdie := tget {} s.pdies d
  let s := s.setPdies (tset {} s.pdies d { x with fenced := true })
  let s := (List.range 8).foldl (fun s i => portDown s (8 * d + i) 5) s
  ripPersist s 0x14 0 (5 + d) 0 0 0

/-- Whether the firewall admits a P-die's transaction (Table 11.10): region 0 its transmit buffers in the hub, 1 its receive
buffers, 2 its register window, 3 any other hub address. -/
def fwAdmits (write : Bool) (region : BitVec 2) : Bool :=
  match region.toNat with
  | 0 => !write
  | 1 => write
  | 2 => true
  | _ => false

/-- FIREWALL_DROP (R346): a transaction of a P-die meets the firewall. One that is admitted passes; any other is dropped and
counted, and a dropped read returns zeros, as many bytes as it asked for. A fenced P-die sends none. -/
def execFirewallDrop (access : PdieAccess) (s : State) : Host.Outcome State Fault Refusal :=
  .next <|
    let d := access.pdie.val
    let x : Pdie := tget {} s.pdies d
    if s.boot.clocksOff ∨ x.fenced ∨ fwAdmits access.write access.region then s
    else
      let w := s.now.toNat :: x.window.filter fun t => s.now.toNat < t + oneSec
      let rdata := if access.write then x.rdata else List.replicate access.bytes.toNat 0
      let x' := { x with drops := satAdd 64 x.drops 1, window := w, rdata := rdata }
      let s := s.setPdies (tset {} s.pdies d x')
      if s.trust.fwLimit.toNat ≤ w.length then fencePdie s d else s

end Sys2Proof.Machine
end

