-- ==== Sys2Proof/Machine/Boot.lean ====
section
/-! DEFINITION. Resets and start-up (13 R403 to R406, R453; 15 R441 to R445; 10 R319, R320), life-cycle transitions (11 R348),
reference clocks, the alert pins and the test access port. -/

namespace Sys2Proof.Machine

open Sys2Proof

/-! ### What a reset keeps (13 Table 13.4) -/

/-- Entries of class F of a port, deferred writes among them; the port is down (14 R425, R426). -/
def resetPortEntry (x : Port) : Port :=
  let x := applyDeferred x
  { mode := x.mode, axis := x.axis, maxFrame := x.maxFrame, nextHop := x.nextHop, stepEn := x.stepEn, floor := x.floor,
    stepHold := x.stepHold, eeeEn := x.eeeEn, cur := x.mode, base := x.mode }

/-- Ports after a reset. -/
def resetPorts (s : State) : List (Nat × Port) :=
  (s.ports.map fun e => (e.1, resetPortEntry e.2)).filter fun e => e.2 ≠ portDefault e.1

/-- The Rolser endpoint after a reset: no session is open (14 R416); frames already sent are gone. -/
def resetRolser (r : Rolser) : Rolser :=
  { out := r.out, mdio := r.mdio, nextSid := r.nextSid, idleT := r.idleT,
    mgmtIf := r.mgmtIf, mgmtIfSet := r.mgmtIfSet, mgmtMac := r.mgmtMac, mgmtAddr := r.mgmtAddr,
    mgmtPrefix := r.mgmtPrefix, mgmtGw := r.mgmtGw, phyMdio := r.phyMdio }

/-- Fuses and flash entries of the root of trust; MR0 to MR2 are zero (11 R337). -/
def resetTrust (t : Trust) : Trust :=
  { lcs := t.lcs, rmaCount := t.rmaCount, serial := t.serial, drs := t.drs, drsKilled := t.drsKilled, idkSigns := t.idkSigns,
    idkPub := t.idkPub, idkCert := t.idkCert, soKey := t.soKey, operatorKey := t.operatorKey, fieldKey := t.fieldKey,
    ownerDigest := t.ownerDigest, ownerKey := t.ownerKey, svnFuse := t.svnFuse, bootCount := t.bootCount, fwLimit := t.fwLimit,
    feedOverride := t.feedOverride, coFatedAllow := t.coFatedAllow }

/-- Straps, stored memory training and power coefficients (13 Table 13.4; 15 R443). -/
def resetBoot (b : Boot) : Boot :=
  { slotId := b.slotId, feedId := b.feedId, bootSrc := b.bootSrc, calibrated := b.calibrated, calib := b.calib, stored := b.stored && b.everReady,
    everReady := b.everReady }

/-- Inputs, the latched trip and the test access port stand; CPRST_N goes low (13 Table 13.7). -/
def resetPins (p : Pins) : Pins := { p with cprstN := false, cprstUp := none, alertN := true, hotstopN := true }

/-- Entries of class F of the power manager. -/
def resetPower (p : Power) : Power := { cap := p.cap, alertMask := p.alertMask, pmbusAddr := p.pmbusAddr, ageLog := p.ageLog }

/-- The fence list, without the entries that were to be cleared (12 R356), and the thresholds. -/
def resetRipstop (r : Ripstop) : Ripstop :=
  { fenceList := r.fenceList.filter fun e => !r.fenceClear.contains e, secureTh := r.secureTh, evacTh := r.evacTh }

/-- Entries of class F of the Cerral Link; the link is down (10 R320). -/
def resetLink (l : Link) : Link := { forceFr := l.forceFr, stallT := l.stallT, idleT := l.idleT, symTh := l.symTh }

/-- A C-die keeps its trim, straps and rail; a bar from OP0 ends (log 60). -/
def resetDie (d : Die) : Die := { rail := d.rail, trim := d.trim, strap := d.strap, edge := d.edge, step := d.step }
def resetDies (s : State) : List (Nat × Die) := (s.dies.map fun e => (e.1, resetDie e.2)).filter fun e => e.2 ≠ dieDefault e.1

/-- What a device reset leaves (13 Table 13.4): every partition FREE, every key but DRS and IDK gone, every port down, every
counter and event ring clear. Memory is wiped by the start-up that follows (11 R347). -/
def clearDevice (s : State) : State :=
  { pending := s.pending, draws := s.draws, mem := s.mem, order := s.order, dies := resetDies s, ports := resetPorts s,
    link := resetLink s.link, rolser := resetRolser s.rolser, trust := resetTrust s.trust, boot := resetBoot s.boot,
    pins := resetPins s.pins, power := resetPower s.power, ripstop := resetRipstop s.ripstop, xft := s.xft, ethTx := s.ethTx }

/-- QRESET of a queue that a device reset cuts off: ABORTED records for what is incomplete (06 R176). -/
def abortQueue (s : State) (k q : Nat) : State :=
  let s := beginReset s q q true
  ((s.queue q).started ++ unstarted s k q).foldl (fun s r => abortRecord s k q r) s

/-- A device reset applies QRESET to every queue (06 R176); records for companion memory go with the link. -/
def abortQueues (s : State) : State :=
  if s.boot.clocksOff then s else allParts.foldl (fun s k => (queuesOf s k).foldl (fun s q => abortQueue s k q) s) s

/-- A device reset, counted in BOOT_COUNT (log 60). -/
def deviceReset (s : State) : State :=
  let s := clearDevice (abortQueues s)
  s.setTrust { s.trust with bootCount := satAdd 64 s.trust.bootCount 1 }

/-- Power-on reset: calibration and stored training go too, rails stand at their boot voltage, a latched trip clears
(13 Table 13.4, R388, R401). -/
def powerOnReset (s : State) : State :=
  let s := clearDevice s
  let b := s.boot
  let s := s.setBoot { b with calibrated := false, stored := false, everReady := false }
  let s := s.setPins { s.pins with thermtripN := true }
  s.setDies ((s.dies.map fun e => (e.1, { e.2 with rail := 850 })).filter fun e => e.2 ≠ dieDefault e.1)

/-! ### Start-up stages (13 R406, Table 13.5) -/

/-- The earliest stage not yet ended in every lane that runs it. -/
def stageState (b : Boot) : BitVec 8 :=
  if !b.romDone then 0x01 else if !(b.nearTrained && b.farTrained) then 0x02 else if !(b.nearBist && b.bistDone) then 0x03
  else if !b.wiped then 0x04 else if !b.calibrated then 0x05 else 0x00

/-- Milliseconds since the reset ended; T_MS stops at 0xFFFF (Table 13.6). -/
def bootMs (s : State) : BitVec 16 := BitVec.ofNat 16 (min 0xFFFF (s.now.toNat / 100000))

/-- Enters a state. -/
def enterState (s : State) (n : BitVec 8) : State :=
  if n = s.boot.state then s else s.setBoot { s.boot with state := n, tMs := bootMs s }

/-- READY: the risk warm-up starts at 30,000 (12 R366). -/
def becomeReady (s : State) : State :=
  updateRisk ((s.setBoot { s.boot with everReady := true }).setRipstop { s.ripstop with warm := 30000, upSec := 0 })

/-- STATE after a stage has ended. -/
def advance (s : State) : State :=
  let n := stageState s.boot
  let s' := enterState s n
  if n = 0x00 ∧ s.boot.state ≠ 0x00 then becomeReady s' else s'

/-- A STATE of 0x80 or above asserts ALERT_N through PM_ALERT.BOOT_FAIL (R407). -/
def bootFail (s : State) (n : BitVec 8) : State :=
  let s := enterState s n
  driveAlert (s.setPower { s.power with bootFail := true })

/-- Whether stages run. -/
def booting (s : State) : Bool := s.boot.state.toNat < 0x80 && !s.boot.clocksOff

/-- Whether the four C-dies report one stepping, and their straps agree with where their links arrive (R5, R12). -/
def stepsAgree (s : State) : Bool := (List.range 4).all fun d => (s.die d).step = (s.die 0).step
def strapsAgree (s : State) : Bool :=
  (List.range 4).all fun d =>
    let D := s.die d
    (D.strap.getLsbD 2 = (D.strap.getLsbD 1 != D.strap.getLsbD 0)) && D.strap.extractLsb' 0 2 = D.edge

/-- Whether a copy of an image verifies (11 R349): SVN, image, Nimorn's signature, the owner's. -/
def copyOk (t : Trust) (c : BitVec 32 × Bytes × Bytes × Bytes) : Bool :=
  Config.mldsaVerify Config.nimornKey [] c.2.1 c.2.2.1 && t.svnFuse.toNat ≤ c.1.toNat
    && (t.ownerKey = [] || Config.mldsaVerify t.ownerKey [] c.2.1 c.2.2.2)

/-- The copy of each image that runs: the first, else the second (R349); none where both fail, or the device is
decommissioned (Table 11.12). -/
def chosen (t : Trust) (images : List (List (BitVec 32 × Bytes × Bytes × Bytes))) : Option (List (BitVec 32 × Bytes × Bytes × Bytes)) :=
  if t.lcs = 4 ∨ images = [] then none
  else images.mapM fun l => (l.take 2).find? (copyOk t)

/-- ROM secure boot succeeds: MR0 measures the first image, MR1 the others in load order (R337); the P-dies' digests are what
they report (Table 11.6; free, log 65). -/
def romPasses (s : State) (l : List (BitVec 32 × Bytes × Bytes × Bytes)) (fwVersion : Bytes) : State :=
  let ds := l.map fun c => digest c.2.1
  let t := s.trust
  let svn := (l.map fun c => c.1.toNat).foldl min (2 ^ 32 - 1)
  let s := s.setTrust { t with mr0 := (ds.take 1).foldl extendMr t.mr0, mr1 := (ds.drop 1).foldl extendMr t.mr1,
                               svn := BitVec.ofNat 32 svn, fwVersion := slice fwVersion 0 32,
                               pdieDigest := fit 64 (Config.measured 65 [t.bootCount.toNat]) }
  let id : Nat := 0x4E4D0754_01A10000 + (s.die 0).step.toNat * 256
  advance (s.setBoot { s.boot with romDone := true, identity := BitVec.ofNat 64 id })

/-- ROM_SECURE_BOOT (R349; 00 R5; 01 R12). Where steppings differ and a die's straps fail too, the steppings are reported: the
spec gives the two checks no order (DESIGN CHOICE, log 79). -/
def execRomSecureBoot (images : List (List (BitVec 32 × Bytes × Bytes × Bytes))) (fwVersion : Bytes) (s : State) :
    Host.Outcome State Fault Refusal :=
  .next <|
    if !booting s ∨ s.boot.romDone then s
    else if !stepsAgree s then bootFail (s.setBoot { s.boot with identity := BitVec.ofNat 64 0x4E4D0754_01A10000 }) 0x80
    else if !strapsAgree s then bootFail (s.setBoot { s.boot with identity := 0 }) 0x81
    else match chosen s.trust images with
      | some l => romPasses s l fwVersion
      | none => bootFail s 0x82

/-- MEMORY_TRAINING: Serge and near DRAM, or LPDDR6 (Table 13.5; verification after a device reset, R405). -/
def execMemoryTraining (far : Bool) (s : State) : Host.Outcome State Fault Refusal :=
  .next <|
    if !booting s ∨ !s.boot.romDone then s
    else
      let b := if far then { s.boot with farTrained := true } else { s.boot with nearTrained := true }
      advance (s.setBoot { b with stored := b.stored || (b.nearTrained && b.farTrained) })

/-- A block the full BIST finds failing, a spare among them: its site goes into the fence list with a class 0x0E event (a spare
has no logical index, log 27); a Serge lane, named by its physical module, is repaired. -/
def bistFence (s : State) (e : BitVec 8 × BitVec 4 × BitVec 12) : State :=
  let c := e.1.toNat
  let d := e.2.1.toNat
  let x := e.2.2.toNat
  if c = clsLane then (if d < 4 then laneRepair s d (siteOf s clsLane d (x / 68)) (x % 68) else s)
  else
    let own := (List.range (blockCount c d)).find? fun i => siteOf s c d i = x
    if s.ripstop.fenceList.contains (d, c, x) ∨ (own.isNone ∧ (blockCount c d = 0 ∨ !(spareSites c).contains x)) then s
    else
      let s := s.setRipstop { s.ripstop with fenceList := s.ripstop.fenceList ++ [(d, c, x)] }
      ripPersist s 0x0E 0 d (own.getD 0) x 0

/-- Pools of spares: class and die (Table 12.1). -/
def pools : List (Nat × Nat) :=
  [clsMu, clsVc, clsPipe, clsBank].flatMap (fun c => (List.range 4).map fun d => (c, d)) ++ [(clsCore, 4)]

/-- Spares are assigned from the fence list (12 R356): a fenced block's index goes to a free spare, or is absent. -/
def assignSpares (s : State) : State :=
  let s := s.ripstop.fenceList.foldl (fun s e =>
    let (d, c, x) := e
    match (List.range (blockCount c d)).find? fun i => siteOf s c d i = x with
    | some i => replaceBlock (s.putBlock c d i { s.block c d i with fenced := true }) c d i
    | none => s) s
  let empty := (pools.filter fun p => (freeSpares s p.1 p.2).isEmpty).length
  updateRisk (s.setRipstop { s.ripstop with pers := tset 0 (tset 0 s.ripstop.pers 0x0E s.ripstop.fenceList.length) 0x0F empty, mirrors := [] })

/-- BIST (12 R356; Table 13.5): the near lane's, or the compute and far lanes', with the physical sites found failing. -/
def execBist (near : Bool) (failed : List (BitVec 8 × BitVec 4 × BitVec 12)) (s : State) : Host.Outcome State Fault Refusal :=
  .next <|
    if !booting s then s
    else if near then (if s.boot.nearTrained then advance (s.setBoot { s.boot with nearBist := true }) else s)
    else if !s.boot.farTrained ∨ s.boot.bistDone then s
    else
      let s := assignSpares (failed.foldl bistFence s)
      advance (s.setBoot { s.boot with bistDone := true })

/-- WIPES (11 R347, Table 11.11): SRAM, near and far memory read zero. -/
def execWipes (s : State) : Host.Outcome State Fault Refusal :=
  .next <|
    if !booting s ∨ !s.boot.bistDone ∨ !s.boot.nearBist ∨ s.boot.wiped then s
    else advance ((s.setMem []).setBoot { s.boot with wiped := true })

/-- POWER_CALIBRATION (13 R393): the coefficients measured stand until PORST_N (log 15). -/
def execPowerCalibration (s : State) : Host.Outcome State Fault Refusal :=
  .next (if !booting s ∨ !s.boot.wiped ∨ s.boot.calibrated then s
      else advance (s.setBoot { s.boot with calibrated := true, calib := s.boot.calib + 1 }))

/-! ### The companion image and CPRST_N (10 R319, R320; 11 R350) -/

/-- The key that signs the companion image (11 R350). -/
def imageKey (t : Trust) : Bytes := if t.ownerKey = [] then Config.nimornKey else t.ownerKey

/-- Header and image as the boot region holds them (R319). -/
def bootBytes (image : Bytes) (load entry : BitVec 64) : Bytes :=
  slice (toLe 8 image.length ++ toLe 8 load.toNat ++ toLe 8 entry.toNat ++ digest image) 0 0x1000 ++ image

/-- CPRST_N goes high: the companion may train the link, and the boot region answers (R320; after a pulse log 61). -/
def releaseCprst (s : State) : State :=
  let s := s.setPins { s.pins with cprstN := true, cprstUp := none }
  s.setLink { s.link with bootOpen := true, st := if s.pins.refCl then 1 else 0 }

/-- COMPANION_IMAGE (R319): `image` is empty where the flash holds none. -/
def execCompanionImage (image : Bytes) (load entry : BitVec 64) (sig : Bytes) (s : State) : Host.Outcome State Fault Refusal :=
  .next <|
    if !booting s ∨ !s.boot.nearBist ∨ s.pins.cprstN ∨ s.boot.imageBad ∨ s.link.boot ≠ [] then s
    else if image ≠ [] ∧ image.length ≤ 0x3FFF000 ∧ Config.mldsaVerify (imageKey s.trust) [] image sig then
      let s := s.setTrust { s.trust with mr1 := extendMr s.trust.mr1 (digest image) }
      releaseCprst (s.setLink { s.link with
        boot := (((bootBytes image load entry).zipIdx.map fun e => (e.2, e.1)).filter fun e => e.2 ≠ 0) })
    else s.setBoot { s.boot with imageBad := true }

/-- CPRST_N low for 1 ms: the Cerral Link is lost (R320). -/
def pulseCprst (s : State) : State :=
  let s := s.setPins { s.pins with cprstN := false, cprstUp := some (s.now.toNat + 100000) }
  linkLoss s 0

/-- CPRST_PULSE (R320): on a released companion. -/
def execCprstPulse (s : State) : Host.Outcome State Fault Refusal :=
  outcome s (if s.boot.clocksOff ∨ !s.pins.cprstN then s else pulseCprst s)

/-- The end of a pulse on CPRST_N. -/
def endPulse (s : State) : State :=
  match s.pins.cprstUp with
  | some t => if t ≤ s.now.toNat ∧ !s.boot.clocksOff then releaseCprst s else s
  | none => s

/-! ### Resets (13 Table 13.4; 15 R442, R443) -/

/-- DEVICE_RESET (13 R404). -/
def execDeviceReset (s : State) : Host.Outcome State Fault Refusal := .next (if s.boot.clocksOff then s else deviceReset s)

/-- A reset line is up: time counts from here and the clocks run, but after a trip or without REFCLK_SYS (R401, R403). -/
def leaveReset (s : State) : State :=
  let s := s.setNow 0
  if !s.pins.refSys then bootFail (s.setBoot { s.boot with clocksOff := true }) 0x83
  else s.setBoot { s.boot with clocksOff := !s.pins.thermtripN }

/-- SYSRST_N (15 R442, R443; 13 R453). -/
def execSysrstN (level : Bool) (s : State) : Host.Outcome State Fault Refusal :=
  .next <|
    if s.pins.sysrstN = level then s
    else
      let s := s.setPins { s.pins with sysrstN := level }
      if !s.pins.porstN then s
      else if level then leaveReset s
      else
        let s := deviceReset s
        s.setBoot { s.boot with clocksOff := true }

/-- Whether a boundary-scan instruction takes the lands (15 R445). -/
def takesLands : TapInstr → Bool
  | .bypass | .samplePreload => false
  | _ => true

/-- An instruction that takes the lands acts as BYPASS while PORST_N is high (15 R445). -/
def setLands (s : State) : State :=
  s.setPins { s.pins with lands := if takesLands s.pins.tap && s.pins.porstN then .bypass else s.pins.tap }

/-- Straps as sampled: [13:6] SLOT_ID, [5:2] FEED_ID, [1:0] BOOTSRC; BOOTSRC[0] gives MGMT_IF's default (15 R441). -/
def sampleStraps (s : State) (x : BitVec 14) : State :=
  let s := s.setBoot { s.boot with slotId := x.extractLsb' 6 8, feedId := x.extractLsb' 2 4, bootSrc := x.extractLsb' 0 2 }
  if s.rolser.mgmtIfSet then s else s.setRolser { s.rolser with mgmtIf := (x.extractLsb' 0 1).setWidth 8 }

/-- PORST_N (13 R406; 15 R442, R443): PORST_N low overrides SYSRST_N. -/
def execPorstN (level : Bool) (straps : BitVec 14) (s : State) : Host.Outcome State Fault Refusal :=
  .next <|
    if s.pins.porstN = level then s
    else
      let s := setLands (s.setPins { s.pins with porstN := level })
      if level then
        let s := sampleStraps s straps
        if s.pins.sysrstN then leaveReset s else s
      else
        let s := powerOnReset s
        s.setBoot { s.boot with clocksOff := true }

/-! ### Reference clocks (13 R403; 15 R439) -/

/-- The ports of a P-die lose their clock. -/
def netLost (s : State) (d : Nat) : State :=
  (List.range 8).foldl (fun s i => if portUp s (8 * d + i) then portLoss s (8 * d + i) else s) s

/-- REFERENCE_LOST: 0 REFCLK_SYS, 1 REFCLK_CL, 2 and 3 REFCLK_NET0 and 1. -/
def execReferenceLost (ref : BitVec 2) (s : State) : Host.Outcome State Fault Refusal :=
  outcome s <|
    match ref.toNat with
    | 0 =>
      let run := s.pins.refSys && s.pins.porstN && s.pins.sysrstN && s.pins.thermtripN
      let s := s.setPins { s.pins with refSys := false }
      if run then bootFail (s.setBoot { s.boot with clocksOff := true }) 0x83 else s
    | 1 =>
      let was := (s.link.st = 2 ∨ s.link.retraining) ∧ !s.boot.clocksOff
      let s := s.setPins { s.pins with refCl := false }
      if was then linkLoss s 0 else s.setLink { s.link with st := 0, retraining := false }
    | 2 =>
      let s := s.setPins { s.pins with refNet0 := false }
      if s.boot.clocksOff then s else netLost s 0
    | _ =>
      let s := s.setPins { s.pins with refNet1 := false }
      if s.boot.clocksOff then s else netLost s 1

/-- REFERENCE_PRESENT: CLOCK_LOST stands until a reset; the Cerral Link trains again (13 R403). -/
def execReferencePresent (ref : BitVec 2) (s : State) : Host.Outcome State Fault Refusal :=
  .next <|
    match ref.toNat with
    | 0 => s.setPins { s.pins with refSys := true }
    | 1 =>
      let s' := s.setPins { s.pins with refCl := true }
      if !s.pins.refCl ∧ mayTrain s' ∧ s.link.st = 0 then s'.setLink { s.link with st := 1 } else s'
    | 2 => s.setPins { s.pins with refNet0 := true }
    | _ => s.setPins { s.pins with refNet1 := true }

/-! ### Regulator alert and ALERT_CLEAR (15 R444; 13 R395; 14 Table 14.8) -/

/-- PMB_ALERT_N: its assertion sets REG_FAULT once the status word has been read. -/
def execPmbAlertN (level : Bool) (status : BitVec 16) (s : State) : Host.Outcome State Fault Refusal :=
  .next <|
    let s' := s.setPins { s.pins with pmbAlertN := level }
    if level ∨ !s.pins.pmbAlertN ∨ s.boot.clocksOff then s'
    else driveAlert (s'.setPower { s'.power with regFault := true, regStatus := status })

/-- Clears OVER_CAP and REG_FAULT whose causes have ended. -/
def alertClear (s : State) : State :=
  driveAlert (s.setPower { s.power with overCap := s.power.overCap && overNow s, regFault := s.power.regFault && !s.pins.pmbAlertN })

/-- ALERT_CLEAR (14 Table 14.8). -/
def execAlertClear (s : State) : Host.Outcome State Fault Refusal := .next (if s.boot.clocksOff then s else alertClear s)

/-! ### Life cycle (11 R348, Table 11.12) -/

/-- LC_SEAL: its status, and its effect; every transition ends in a device reset. -/
def sealStatus (s : State) (key : Bytes) : Nat := if s.trust.lcs ≠ 1 then 0x05 else if key ≠ [] ∧ key.length ≠ 1952 then 0x03 else 0x00
def lcSeal (s : State) (key : Bytes) : State :=
  let t := if key = [] then s.trust else { s.trust with ownerKey := key, ownerDigest := digest key }
  deviceReset (s.setTrust { t with lcs := 2 })
def execLcSeal (key : Bytes) (s : State) : Host.Outcome State Fault Refusal :=
  .next (if !s.boot.clocksOff ∧ sealStatus s key = 0 then lcSeal s key else s)

/-- LC_RMA: a token under Nimorn's key over SERIAL and the nonce drawn last; an eighth answers STATE. -/
def rmaStatus (s : State) (token : Bytes) : Nat :=
  let t := s.trust
  if ¬(t.lcs = 1 ∨ t.lcs = 2) ∨ 7 ≤ t.rmaCount then 0x05
  else if t.rmaNonce ≠ [] ∧ Config.mldsaVerify Config.nimornKey [] (toLe 16 t.serial.toNat ++ t.rmaNonce) token then 0x00
  else 0x04
def lcRma (s : State) : State := deviceReset (s.setTrust { s.trust with lcs := 3, rmaCount := s.trust.rmaCount + 1, idkSigns := false })
def execLcRma (token : Bytes) (s : State) : Host.Outcome State Fault Refusal :=
  .next (if !s.boot.clocksOff ∧ rmaStatus s token = 0 then lcRma s else s)

/-- LC_DECOMMISSION: the argument is SERIAL. -/
def decommissionStatus (s : State) (serial : BitVec 128) : Nat := if s.trust.lcs = 4 then 0x05 else if serial ≠ s.trust.serial then 0x04 else 0x00
def lcDecommission (s : State) : State := deviceReset (s.setTrust { s.trust with lcs := 4, drsKilled := true })
def execLcDecommission (serial : BitVec 128) (s : State) : Host.Outcome State Fault Refusal :=
  .next (if !s.boot.clocksOff ∧ decommissionStatus s serial = 0 then lcDecommission s else s)

/-- BLANK_TO_PROVISIONED: DRS and SERIAL are fused, IDK is generated and certified; BOOT_COUNT counts from here (log 60). -/
def execBlankToProvisioned (drs : Bytes) (serial : BitVec 128) (cert soKey : Bytes) (s : State) : Host.Outcome State Fault Refusal :=
  .next <|
    if s.boot.clocksOff ∨ s.trust.lcs ≠ 0 ∨ drs.length ≠ 32 ∨ 6144 < cert.length ∨ soKey.length ≠ 1952 then s
    else
      let t := { s.trust with lcs := 1, drs := some drs, serial := serial, idkSigns := true, idkCert := cert, soKey := soKey }
      let s := deviceReset (s.setTrust { t with idkPub := fit 1952 (Config.mldsaPublic (idkSeed t)) })
      s.setTrust { s.trust with bootCount := 0 }

/-- RMA_TO_PROVISIONED: IDK is certified again, the owner enrolment clears. -/
def execRmaToProvisioned (cert : Bytes) (s : State) : Host.Outcome State Fault Refusal :=
  .next <|
    if s.boot.clocksOff ∨ s.trust.lcs ≠ 3 ∨ 6144 < cert.length then s
    else deviceReset (s.setTrust { s.trust with lcs := 1, idkSigns := true, idkCert := cert, ownerDigest := [], ownerKey := [] })

/-! ### Test access port (15 R445) -/

/-- TRST_N: low resets the port, which then holds BYPASS, as there is no IDCODE register. -/
def execTrstN (level : Bool) (s : State) : Host.Outcome State Fault Refusal :=
  .next (let s := s.setPins { s.pins with trstN := level }; if level then s else setLands (s.setPins { s.pins with tap := .bypass }))

/-- An instruction enters the instruction register. -/
def tapLoad (s : State) (i : TapInstr) : State := if s.pins.trstN then setLands (s.setPins { s.pins with tap := i }) else s

def execBypass (s : State) : Host.Outcome State Fault Refusal := .next (tapLoad s .bypass)
def execSamplePreload (s : State) : Host.Outcome State Fault Refusal := .next (tapLoad s .samplePreload)
def execExtest (s : State) : Host.Outcome State Fault Refusal := .next (tapLoad s .extest)
def execClamp (s : State) : Host.Outcome State Fault Refusal := .next (tapLoad s .clamp)
def execHighz (s : State) : Host.Outcome State Fault Refusal := .next (tapLoad s .highz)
def execExtestPulse (s : State) : Host.Outcome State Fault Refusal := .next (tapLoad s .extestPulse)
def execExtestTrain (s : State) : Host.Outcome State Fault Refusal := .next (tapLoad s .extestTrain)

end Sys2Proof.Machine
end

