-- ==== Sys2Proof/Machine/Dictionary.lean ====
section
/-! DEFINITION. The object dictionary's entries (14 Tables 14.5 to 14.14): which exist, their types, rights and values. -/

namespace Sys2Proof.Machine

open Sys2Proof

/-! ### Index ranges (Table 14.6) -/

/-- Groups of entries; ports and partitions by index 0 to 15. -/
inductive Grp where
  | identity | config | security | power | ageing | reliability | port (p : Nat) | portM | fabric | cerral | telemetry
  | alloc (k : Nat) | powerOf (k : Nat) | securing (k : Nat) | health (k : Nat) | collective (k : Nat) | near (k : Nat)
  | address (k : Nat) | transport (k : Nat) | portOf (k p : Nat) | qp (k : Nat)
  deriving DecidableEq, Repr

/-- Group of an index. -/
def grpOf (i : Nat) : Option Grp :=
  if i = 0x1000 then some .identity
  else if i = 0x2000 then some .config
  else if i = 0x3000 then some .security
  else if i = 0x4000 then some .power
  else if i = 0x4001 then some .ageing
  else if i = 0x5000 then some .reliability
  else if 0x6000 ≤ i ∧ i < 0x6010 then some (.port (i - 0x6000))
  else if i = 0x6010 then some .portM
  else if i = 0x6020 then some .fabric
  else if i = 0x6030 then some .cerral
  else if i = 0x7000 then some .telemetry
  else if 0x8100 ≤ i ∧ i ≤ 0x90FF then
    let k := (i - 0x8100) / 0x100
    let g := i % 0x100
    if g = 0 then some (.alloc k)
    else if g = 0x10 then some (.powerOf k)
    else if g = 0x20 then some (.securing k)
    else if g = 0x30 then some (.health k)
    else if g = 0x31 then some (.collective k)
    else if g = 0x40 then some (.near k)
    else if g = 0x50 then some (.address k)
    else if g = 0x51 then some (.transport k)
    else if 0x60 ≤ g ∧ g < 0x70 then some (.portOf k (g - 0x60))
    else if g = 0x70 then some (.qp k)
    else none
  else none

/-- Partition of a group's entries. -/
def grpPart : Grp → Option Nat
  | .alloc k | .powerOf k | .securing k | .health k | .collective k | .near k | .address k | .transport k | .portOf k _ | .qp k => some k
  | _ => none

/-! ### Types and rights (Tables 14.5, 14.7 to 14.14) -/

def tyU8 : Nat := 0x01
def tyU16 : Nat := 0x02
def tyU32 : Nat := 0x03
def tyU64 : Nat := 0x04
def tyS8 : Nat := 0x05
def tyS64 : Nat := 0x08
def tyBool : Nat := 0x09
def tyEnum : Nat := 0x0A
def tyBytes : Nat := 0x0B
def tyIp : Nat := 0x0C
def tyMac : Nat := 0x0D
def tyKey : Nat := 0x0E
def tyAction : Nat := 0x0F

/-- Rows lo to hi of a group: type, access, and the lengths a written value may have. -/
structure DRow where
  lo : Nat
  hi : Nat
  ty : Nat
  acc : String
  lens : List Nat
  deriving DecidableEq, Repr

/-- A row of one entry, or several, with its type's own length (Table 14.5). -/
def row (lo hi ty : Nat) (acc : String) : DRow :=
  { lo := lo, hi := hi, ty := ty, acc := acc, lens :=
      if ty = tyKey then [0, 1952] else if ty = tyIp then [16] else if ty = tyMac then [6] else if ty = tyAction then [0]
      else if ty = tyU16 then [2] else if ty = tyU32 then [4] else if ty = tyU64 ∨ ty = tyS64 then [8] else if ty = tyBytes then [] else [1] }
def rowArg (sub : Nat) (acc : String) (lens : List Nat) : DRow := { lo := sub, hi := sub, ty := tyAction, acc := acc, lens := lens }

/-- Table 14.9: a scale-out port's rows; port M has three of them and the counters. -/
def portRows : List DRow :=
  [row 0x01 0x01 tyEnum "b-r-", row 0x02 0x02 tyEnum "b-r-", row 0x03 0x03 tyU16 "b-r-", row 0x04 0x04 tyMac "b-r-",
   row 0x05 0x05 tyBool "b-r-", row 0x06 0x06 tyEnum "b-r-", row 0x07 0x07 tyU32 "b-r-", row 0x08 0x08 tyBool "b-r-",
   row 0x09 0x09 tyU8 "b-rr", row 0x0A 0x0B tyAction "a---", row 0x0C 0x0C tyEnum "r-rr", row 0x20 0x2C tyU64 "r-rr"]

/-- Rows of a group. -/
def rowsOf : Grp → List DRow
  | .identity =>
    [row 0x01 0x01 tyU64 "rrrr", row 0x02 0x02 tyBytes "rrrr", row 0x03 0x03 tyU64 "rrrr", row 0x04 0x04 tyEnum "rrrr",
     row 0x05 0x05 tyKey "rrrr", row 0x06 0x06 tyBytes "rrrr", row 0x07 0x07 tyU32 "rrrr", row 0x08 0x08 tyU32 "r-br",
     row 0x09 0x09 tyBytes "rrrr", row 0x0A 0x0A tyU64 "r-rr", row 0x0B 0x0B tyU16 "r-rr"]
  | .config =>
    [row 0x01 0x01 tyEnum "b-r-", row 0x02 0x02 tyMac "r-rr", row 0x03 0x03 tyIp "b-r-", row 0x04 0x04 tyU8 "b-r-",
     row 0x05 0x05 tyIp "b-r-", row 0x06 0x06 tyU8 "b-r-", row 0x07 0x07 tyU32 "b-r-", row 0x08 0x08 tyU8 "b-r-",
     row 0x09 0x09 tyBool "b-r-", row 0x0A 0x0A tyAction "a-a-", row 0x0B 0x0B tyAction "a---", row 0x10 0x13 tyU64 "r-rr"]
  | .security =>
    [row 0x01 0x03 tyKey "r-b-", row 0x04 0x04 tyBytes "rrrr", rowArg 0x10 "--a-" [0, 1952], row 0x11 0x11 tyBytes "--r-",
     rowArg 0x12 "--a-" [3309], rowArg 0x13 "--a-" [16], row 0x14 0x14 tyU16 "r-b-", row 0x15 0x16 tyU64 "r-rr"]
  | .power =>
    [row 0x01 0x01 tyU16 "brr-", row 0x02 0x02 tyU16 "r-rr", row 0x03 0x05 tyU64 "r-rr", row 0x06 0x06 tyU8 "b-r-",
     row 0x07 0x07 tyAction "a---", row 0x10 0x19 tyU8 "b-rr"]
  | .ageing => [row 0x01 0x04 tyS8 "r-rr"]
  | .reliability =>
    [row 0x01 0x01 tyU16 "r-rr", row 0x02 0x03 tyU16 "b-r-", row 0x04 0x04 tyBytes "r-rr", row 0x05 0x05 tyBytes "---r",
     rowArg 0x06 "---a" [4]]
  | .port _ => portRows
  | .portM => portRows.filter fun r => r.lo = 0x03 || r.lo = 0x08 || r.lo = 0x20 || r.lo = 0x0A
  | .fabric => [row 0x01 0x01 tyU16 "b-r-", row 0x02 0x0A tyU32 "b-r-"]
  | .cerral =>
    [row 0x01 0x01 tyBool "b-r-", row 0x02 0x04 tyU32 "b-r-", row 0x05 0x05 tyU64 "r-rr", row 0x10 0x19 tyU64 "r-rr"]
  | .telemetry => [row 0x01 0x02 tyBytes "r-rr", row 0x11 0x20 tyU8 "r---"]
  | .alloc _ =>
    [row 0x01 0x01 tyEnum "rrrr", row 0x02 0x03 tyU16 "brr-", row 0x04 0x05 tyU32 "brr-", row 0x06 0x07 tyU16 "brr-",
     row 0x08 0x08 tyKey "brr-", row 0x09 0x0A tyAction "a---", row 0x0B 0x0C tyAction "aa--", row 0x0D 0x0D tyEnum "brr-",
     row 0x0E 0x0E tyBool "rbr-", row 0x0F 0x0F tyBool "brr-", row 0x10 0x11 tyBool "rbr-", row 0x12 0x12 tyBool "-b--",
     row 0x13 0x14 tyU64 "-b--", row 0x15 0x15 tyU32 "rrr-"]
  | .powerOf _ => [row 0x01 0x07 tyEnum "rb--", row 0x08 0x08 tyU16 "rr--"]
  | .securing _ =>
    [row 0x01 0x01 tyU16 "-b--", row 0x02 0x02 tyU8 "-b--", row 0x03 0x04 tyU32 "-b--", row 0x05 0x06 tyU8 "-b--",
     row 0x07 0x07 tyU64 "-r--", row 0x08 0x08 tyU64 "-b--", row 0x09 0x09 tyU32 "-b--", row 0x0A 0x0A tyU64 "-b--",
     row 0x10 0x14 tyEnum "-b--", row 0x15 0x16 tyU8 "-b--"]
  | .health _ =>
    [row 0x01 0x05 tyU32 "-b--", row 0x06 0x07 tyU16 "-b--", row 0x08 0x08 tyU8 "-b--", row 0x09 0x0A tyS64 "-b--",
     row 0x0B 0x0B tyU16 "-b--", row 0x0C 0x0D tyU32 "-b--", row 0x10 0x14 tyU32 "-r--", row 0x15 0x15 tyS64 "-r--",
     row 0x16 0x16 tyU32 "-r--", row 0x17 0x17 tyS64 "-r--", row 0x18 0x18 tyBytes "-r--", row 0x19 0x1C tyU64 "-r--",
     row 0x1D 0x1E tyBytes "-r--"]
  | .collective _ => [row 0x01 0x0B tyU64 "-r--"]
  | .near _ => [row 0x01 0x01 tyU32 "-b--", row 0x02 0x04 tyU32 "-r--"]
  | .address _ => [row 0x01 0x01 tyIp "brr-", row 0x02 0x02 tyMac "brr-", row 0x03 0x03 tyU8 "brr-"]
  | .transport _ => [row 0x01 0x09 tyU64 "-r--"]
  | .portOf _ _ => [row 0x01 0x01 tyU16 "brr-", row 0x02 0x06 tyU64 "-r--"]
  | .qp _ =>
    [row 0x01 0x01 tyU8 "-b--", row 0x02 0x02 tyIp "-b--", row 0x03 0x05 tyU32 "-b--", row 0x06 0x06 tyEnum "-b--",
     row 0x07 0x07 tyU8 "-b--", row 0x08 0x08 tyU32 "-r--", row 0x09 0x09 tyEnum "-r--", row 0x0A 0x0B tyAction "-a--"]

/-- The row of an entry; port M's RELEASE is reserved (Table 14.9). -/
def rowOf (g : Grp) (sub : Nat) : Option DRow :=
  if g = .portM ∧ sub = 0x0B then none else (rowsOf g).find? fun r => r.lo ≤ sub ∧ sub ≤ r.hi

/-- Character of a role in an access column (R424). -/
def rightOf (r : DRow) (role : Nat) : Char :=
  r.acc.toList.getD (if role = 0 then 0 else if role ≤ 16 then 1 else if role = 17 then 2 else 3) '-'

/-- Whether an entry is within a tenant's reach: its own partition's, or a device entry it reads (R424). -/
def reaches (S : Session) (g : Grp) (c : Char) : Bool :=
  match tenantOf S, grpPart g with
  | some k, some j => k = j
  | some _, none => c = 'r'
  | none, _ => true

/-- Status of an access of one kind to an entry, its row where it may go on (R422, R424; Table 14.4). -/
def access (s : State) (S : Session) (i sub : Nat) (ok : Char → Bool) (identity : Bool) : Except Nat (Grp × DRow) :=
  if s.boot.state ≠ 0x00 ∧ !(identity && i = 0x1000 && 1 ≤ sub && sub ≤ 0x0B) then .error 0x05
  else match grpOf i with
    | none => .error 0x01
    | some g =>
      match rowOf g sub with
      | none => .error 0x01
      | some r =>
        let c := rightOf r S.role
        if ok c && reaches S g c then .ok (g, r) else .error 0x02

def mayRead (c : Char) : Bool := c = 'r' || c = 'b'
def mayWrite (c : Char) : Bool := c = 'w' || c = 'b' || c = 'a'

/-! ### Values -/

/-- STRAPS (Table 14.7). -/
def straps (b : Boot) : Nat := b.slotId.toNat * 2 ^ 6 + b.feedId.toNat * 4 + b.bootSrc.toNat

/-- A Ripstop record (12 Table 12.11); PSITE shows to Field Service alone. -/
def eventBytes (e : EventRec) (site : Bool) : Bytes :=
  toLe 32 (e.time.toNat * 2 ^ 192 + e.cls.toNat * 2 ^ 176 + e.weight.toNat * 2 ^ 160 + e.risk.toNat * 2 ^ 144 + e.part.toNat * 2 ^ 132
    + e.die.toNat * 2 ^ 128 + e.lidx.toNat * 2 ^ 116 + (if site then e.psite.toNat else 0) * 2 ^ 104 + e.detail.toNat * 2 ^ 64)

/-- Code of a partition state (11 Table 11.2, 14 Table 14.11). -/
def stateCode : PState → Nat
  | .free => 0 | .creating => 1 | .reserved => 2 | .active => 3 | .resizing => 4 | .destroying => 5 | .resetting => 6

/-- FENCE_LIST: 4 B an entry as FENCE_CLEAR names it (log 27). -/
def fenceBytes (s : State) : Bytes :=
  (s.ripstop.fenceList.take 1024).flatMap fun e => toLe 1 e.1 ++ toLe 1 e.2.1 ++ toLe 2 e.2.2

/-- UTIL: eighths of partition k's slices busy over 60 s; the model keeps no durations, so the value is free (log 67). A
FREE partition has none. -/
def utilByte (s : State) (k : Nat) : Bytes :=
  [if (s.part k).st = .free then 0 else BitVec.ofNat 8 (Config.unstated 67 (16 * s.now.toNat + k) % 9)]

/-- AGE_LOG: time, die, point and trim of each trim, newest first; the layout is not stated (free, log 64). -/
def ageBytes (s : State) : Bytes :=
  (Config.measured 64 (s.power.ageLog.flatMap fun e => [e.1, e.2.1, e.2.2.1, (e.2.2.2 % 256).toNat])).take 4096

/-- ABSENT_UNITS (Table 14.13; 12 R354): bits 6j + i the MUs, 96 + 4j + i the VCs of ordinal j that have no block. -/
def absentBytes (s : State) (k : Nat) : Bytes :=
  let sl := slicesOf (s.part k)
  toLe 20 ((List.range sl.length).foldl (fun n j =>
    let i := sl.getD j 0
    let mu := (List.range 6).foldl (fun m x => if muPresent s i x then m else m + 2 ^ (6 * j + x)) 0
    let vc := (List.range 4).foldl (fun m x => if vcPresent s (4 * i + x) then m else m + 2 ^ (96 + 4 * j + x)) 0
    n + mu + vc) 0)

/-- Value of a port's entry. -/
def portValue (s : State) (p sub : Nat) : Bytes :=
  let x := s.port p
  match sub with
  | 0x01 => [x.mode] | 0x02 => [x.axis] | 0x03 => toLe 2 x.maxFrame.toNat | 0x04 => toBe 6 x.nextHop.toNat | 0x05 => [x.stepEn]
  | 0x06 => [BitVec.ofNat 8 (floorOf x)] | 0x07 => toLe 4 x.stepHold.toNat | 0x08 => [x.eeeEn] | 0x09 => [x.startRung] | 0x0C => [x.st]
  | n => toLe 8 (tget (0 : BitVec 64) x.counters (n - 0x20)).toNat

/-- Value of an entry of a partition's allotment group. -/
def allocValue (P : Part) (sub : Nat) : Bytes :=
  let A := P.staged
  let d := P.dict
  match sub with
  | 0x01 => toLe 1 (stateCode P.st) | 0x02 => toLe 2 A.slices.toNat | 0x03 => toLe 2 A.farGib.toNat | 0x04 => toLe 4 A.qbase.toNat
  | 0x05 => toLe 4 A.qcount.toNat | 0x06 => toLe 2 A.cbase.toNat | 0x07 => toLe 2 A.ccount.toNat | 0x08 => P.tenantKey
  | 0x0D => [d.mode] | 0x0E => [d.poolConsent] | 0x0F => [d.powerPooled] | 0x10 => [d.powerConsent] | 0x11 => [d.plainStaging]
  | 0x12 => [d.subwinEn] | 0x13 => toLe 8 d.subwinBase.toNat | 0x14 => toLe 8 d.subwinLen.toNat | _ => toLe 4 d.keyFailCnt.toNat

/-- Value of an entry of the securing and policy group. -/
def securingValue (P : Part) (sub : Nat) : Bytes :=
  let d := P.dict
  match sub with
  | 0x01 => toLe 2 d.buddy.toNat | 0x02 => [d.storeQp] | 0x03 => toLe 4 d.securePeriod.toNat | 0x04 => toLe 4 d.secureMin.toNat
  | 0x05 => [d.secureShare] | 0x06 => [d.storeShare] | 0x07 => toLe 8 ((P.secOk.map (·.toNat)).foldl max 0)
  | 0x08 => toLe 8 d.storeRaddr.toNat | 0x09 => toLe 4 d.storeRkey.toNat | 0x0A => toLe 8 d.storeGenBytes.toNat
  | 0x15 => [d.xsatReplays] | 0x16 => [d.spikeRelax] | n => [d.policy.getD (n - 0x10) 0]

/-- Newest record of a ring; what an empty ring reads as is not stated (free, log 64). -/
def newest (l : List EventRec) (site : Bool) : Bytes :=
  match l with
  | e :: _ => eventBytes e site
  | [] => fit 32 (Config.measured 64 [])

/-- Value of an entry of the health group. -/
def healthValue (s : State) (k sub : Nat) : Bytes :=
  let P := s.part k
  let d := P.dict
  let h := P.health
  match sub with
  | 0x06 => toLe 2 d.voteMask.toNat | 0x07 => toLe 2 d.lsK.toNat | 0x08 => [d.lsA] | 0x09 => toLe 8 d.lsMin.toNat
  | 0x0A => toLe 8 d.lsMax.toNat | 0x0B => toLe 2 d.voteDl.toNat | 0x0C => toLe 4 d.sealTo.toNat | 0x0D => toLe 4 d.gholdT.toNat
  | 0x15 => toLe 8 h.loss.toNat | 0x16 => toLe 4 h.lsN.toNat | 0x17 => toLe 8 h.lsMean.toNat | 0x18 => toLe 16 h.lsVar.toNat
  | 0x19 => toLe 8 h.stepsOk.toNat | 0x1A => toLe 8 h.stepsRef.toNat | 0x1B => toLe 8 h.operandLate.toNat | 0x1C => toLe 8 h.word.toNat
  | 0x1D => absentBytes s k | 0x1E => newest P.events false
  | n => if n < 0x10 then toLe 4 (d.hcTh.getD (n - 1) 0).toNat else toLe 4 ((healthCounters h).getD (n - 0x10) 0).toNat

/-- Value of a queue pair's entry (Table 14.14). -/
def qpValue (s : State) (S : Session) (k sub : Nat) : Bytes :=
  let i := S.qpSel.toNat
  let q := s.qp k i
  match sub with
  | 0x01 => [S.qpSel] | 0x02 => toLe 16 q.peer.toNat | 0x03 => toLe 4 q.peerQpn.toNat | 0x04 => toLe 4 q.sqPsn.toNat
  | 0x05 => toLe 4 q.rqPsn.toNat | 0x06 => [q.pmtu] | 0x07 => [q.ackTo] | 0x08 => toLe 4 (0x10000 + 256 * k + i) | _ => [q.st]

/-- Values of the device's entries (Tables 14.7, 14.8, 14.10). -/
def identityValue (s : State) (sub : Nat) : Bytes :=
  let t := s.trust
  match sub with
  | 0x01 => toLe 8 s.boot.identity.toNat | 0x02 => toLe 16 t.serial.toNat | 0x03 => toLe 8 (bootStatus s.boot) | 0x04 => [t.lcs]
  | 0x05 => t.idkPub | 0x06 => t.idkCert | 0x07 => toLe 4 t.svn.toNat | 0x08 => toLe 4 t.svnFuse.toNat | 0x09 => slice t.fwVersion 0 32
  | 0x0A => toLe 8 t.bootCount.toNat | _ => toLe 2 (straps s.boot)
def configValue (s : State) (sub : Nat) : Bytes :=
  let r := s.rolser
  match sub with
  | 0x01 => [r.mgmtIf] | 0x02 => toBe 6 r.mgmtMac.toNat | 0x03 => toLe 16 r.mgmtAddr.toNat | 0x04 => [r.mgmtPrefix]
  | 0x05 => toLe 16 r.mgmtGw.toNat | 0x06 => [r.phyMdio] | 0x07 => toLe 4 r.idleT.toNat | 0x08 => [s.trust.feedOverride]
  | 0x09 => [s.trust.coFatedAllow] | 0x10 => toLe 8 r.badFrame.toNat | 0x11 => toLe 8 r.authFail.toNat | 0x12 => toLe 8 r.seqDrop.toNat
  | _ => toLe 8 r.helloDrop.toNat
def securityValue (s : State) (sub : Nat) : Bytes :=
  let t := s.trust
  match sub with
  | 0x01 => t.soKey | 0x02 => t.operatorKey | 0x03 => t.fieldKey | 0x04 => slice t.ownerDigest 0 64 | 0x11 => t.rmaNonce
  | 0x14 => toLe 2 t.fwLimit.toNat | n => toLe 8 (tget ({} : Pdie) s.pdies (n - 0x15)).drops.toNat
def powerValue (s : State) (sub : Nat) : Bytes :=
  let p := s.power
  match sub with
  | 0x01 => toLe 2 p.cap.toNat | 0x02 => toLe 2 p.power.toNat | 0x03 => toLe 8 (pmStatus p) | 0x04 => toLe 8 (pmTemp p)
  | 0x05 => toLe 8 (pmAlert p) | 0x06 => [p.alertMask] | n => [p.pmbusAddr.getD (n - 0x10) 0]
def reliabilityValue (s : State) (S : Session) (sub : Nat) : Bytes :=
  let r := s.ripstop
  match sub with
  | 0x01 => toLe 2 r.risk.toNat | 0x02 => toLe 2 r.secureTh.toNat | 0x03 => toLe 2 r.evacTh.toNat
  | 0x04 => newest r.ring (S.role = 18) | _ => fenceBytes s

/-- The transport parameters in the order of 0x6020.02 to .0A. -/
def xftParams (x : Xft) : List (BitVec 32) := [x.rtoInit, x.rtoMin, x.rtoMax, x.reasmTo, x.deadT, x.iw, x.cwndMax, x.ai, x.delayTgt]

def cerralValue (l : Link) (sub : Nat) : Bytes :=
  match sub with
  | 0x01 => [l.forceFr] | 0x02 => toLe 4 l.stallT.toNat | 0x03 => toLe 4 l.idleT.toNat | 0x04 => toLe 4 l.symTh.toNat
  | 0x05 => toLe 8 (clStatus l) | n => toLe 8 (tget (0 : BitVec 64) l.counters (n - 0x10)).toNat

/-- Pinned pages of a partition that hold a frame. -/
def pinnedPages (P : Part) : Nat := P.pages.countP fun e => e.2.frame.isSome && e.2.pinned

/-- Value of an entry that exists, as a session sees it. -/
def entryValue (s : State) (S : Session) (g : Grp) (sub : Nat) : Bytes :=
  match g with
  | .identity => identityValue s sub
  | .config => configValue s sub
  | .security => securityValue s sub
  | .power => powerValue s sub
  | .ageing => toLe 1 ((s.die (sub - 1)).trim % 256).toNat
  | .reliability => reliabilityValue s S sub
  | .port p => portValue s p sub
  | .portM => portValue s 16 sub
  | .fabric => if sub = 1 then toLe 2 s.xft.udp.toNat else toLe 4 ((xftParams s.xft).getD (sub - 2) 0).toNat
  | .cerral => cerralValue s.link sub
  | .telemetry =>
    (match sub with
     | 0x01 => (List.range 80).map fun i => tget 0 s.power.temps i
     | 0x02 => ageBytes s
     | n => utilByte s (n - 0x11))
  | .alloc k => allocValue (s.part k) sub
  | .powerOf k =>
    if sub ≤ 6 then [(s.part k).dict.phaseOp.getD (sub - 1) 0]
    else if sub = 7 then [(s.part k).dict.priority] else toLe 2 (shareOf s k)
  | .securing k => securingValue (s.part k) sub
  | .health k => healthValue s k sub
  | .collective k => toLe 8 (tget (0 : BitVec 64) (s.part k).coll (sub - 1)).toNat
  | .near k =>
    let P := s.part k
    toLe 4 (match sub with
      | 1 => P.dict.iwinFrames.toNat
      | 2 => poolFrames P
      | 3 => P.pages.countP fun e => e.2.frame.isSome
      | _ => pinnedPages P)
  | .address k =>
    let d := (s.part k).dict
    (match sub with | 1 => toLe 16 d.addr.toNat | 2 => toBe 6 d.mac.toNat | _ => [d.dscp])
  | .transport k => toLe 8 (tget (0 : BitVec 64) (s.part k).xfer (sub - 1)).toNat
  | .portOf k p =>
    if sub = 1 then toLe 2 (tget (0 : BitVec 16) (s.part k).dict.vlan p).toNat
    else toLe 8 (tget (0 : BitVec 64) (s.part k).frames (8 * p + sub - 2)).toNat
  | .qp k => qpValue s S k sub

/-! ### READ (R418, Table 14.3) -/

/-- An item of READ_R and EVENT: index, subindex, status, type, length, value; a failing one has type and length 0 (log 64). -/
def valueItem (i sub st ty : Nat) (v : Bytes) : Bytes := toLe 2 i ++ toLe 1 sub ++ toLe 1 st ++ toLe 1 ty ++ toLe 2 v.length ++ v

/-- RMA_NONCE is new at every read (Table 14.7). -/
def freshNonce (s : State) (g : Grp) (sub : Nat) : State :=
  if g = .security ∧ sub = 0x11 then
    let (b, s) := s.draw 32
    s.setTrust { s.trust with rmaNonce := b }
  else s

/-- Reads one item. -/
def readItem (S : Session) (a : State × Bytes) (it : Nat × Nat) : State × Bytes :=
  let (s, out) := a
  match access s S it.1 it.2 mayRead true with
  | .error st => (s, out ++ valueItem it.1 it.2 st 0 [])
  | .ok (g, r) =>
    let s := freshNonce s g it.2
    (s, out ++ valueItem it.1 it.2 0x00 r.ty (entryValue s S g it.2))

/-- Items of a READ: a count, then 4 B each; none where the payload has another form. -/
def readItems (b : Bytes) : Option (List (Nat × Nat)) :=
  let n := leNat (b.take 2)
  if b.length = 2 + 4 * n then
    some ((List.range n).map fun i => (leNat (slice b (2 + 4 * i) 2), (b.getD (4 + 4 * i) 0).toNat))
  else none

/-- A READ served (R418). -/
def serveRead (s : State) (sid : Nat) (S : Session) (m : RolMsg) : State :=
  match readItems m.payload with
  | none => freeBusy s m.mbox
  | some l =>
    let r := l.foldl (readItem S) (s, [])
    rolReply r.1 sid 0x11 (toLe 2 l.length ++ r.2)

/-- READ (R418); a payload of another form gets no answer (log 54). -/
def execRead (s : State) : Host.Outcome State Fault Refusal := .next (onRequest s rkRead serveRead)

end Sys2Proof.Machine
end

