-- ==== Sys2Proof/Machine/DictionaryWrite.lean ====
section
/-! DEFINITION. Writing the object dictionary (14 R418, R419, R422 to R430, R452) and its subscriptions (14 R420). -/

namespace Sys2Proof.Machine

open Sys2Proof

/-! ### Shared by the entries -/

/-- What writing one entry answers: a status of Table 14.4, or the next state. -/
abbrev WRes := Except Nat State

/-- A value within its range (R21; Table 14.4). -/
def within (ok : Bool) (s : State) : WRes := if ok then .ok s else .error 0x04

/-- An entry marked I has changed: MR2 is extended (11 R337; the digest's layout is not stated, log 53). -/
def noteI (i sub : Nat) (old new : Bytes) (s : State) : State :=
  if old = new then s
  else
    let d := fit 64 (Config.shake256 (Config.measured 53 [i, sub, new.length, leNat new]) 512)
    s.setTrust { s.trust with mr2 := extendMr s.trust.mr2 d }

/-- A partition's mode or power mode has changed: MR2 and MR3 are extended (11 R331, R337). -/
def noteMode (k sub : Nat) (old new : BitVec 8) (s : State) : State :=
  if old = new then s else noteI (0x8100 + 0x100 * k) sub [old] [new] (s.modPart k measurePart)

/-- A change of a partition's entries. -/
def modDict (s : State) (k : Nat) (f : PDict → PDict) : State := s.modPart k fun P => { P with dict := f P.dict }

/-! ### Device entries (Tables 14.7, 14.8, 14.10) -/

def writeConfig (s : State) (sub : Nat) (v : Nat) : WRes :=
  let r := s.rolser
  let put (r : Rolser) : State := s.setRolser r
  match sub with
  | 0x01 => within (v ≤ 1) (put { r with mgmtIf := BitVec.ofNat 8 v, mgmtIfSet := true })
  | 0x03 => .ok (put { r with mgmtAddr := BitVec.ofNat 128 v })
  | 0x04 => within (v ≤ 128) (put { r with mgmtPrefix := BitVec.ofNat 8 v })
  | 0x05 => .ok (put { r with mgmtGw := BitVec.ofNat 128 v })
  | 0x06 => within (v ≤ 31) (put { r with phyMdio := BitVec.ofNat 8 v })
  | 0x07 => within (10 ≤ v ∧ v ≤ 86400) (put { r with idleT := BitVec.ofNat 32 v })
  | 0x08 => within (v ≤ 15 ∨ v = 0xFF) (s.setTrust { s.trust with feedOverride := BitVec.ofNat 8 v })
  | 0x09 => within (v ≤ 1) (s.setTrust { s.trust with coFatedAllow := BitVec.ofNat 8 v })
  | 0x0B => if s.pins.cprstUp.isSome then .error 0x08 else if !s.pins.cprstN then .error 0x05 else .ok (pulseCprst s)
  | _ => .error 0x02

/-- Keys of the roles and the firewall limit; the limit is fixed from SEALED on (11 Table 11.12; log 60). -/
def writeSecurity (s : State) (sub : Nat) (b : Bytes) : WRes :=
  let t := s.trust
  match sub with
  | 0x01 => .ok (noteI 0x3000 1 t.soKey b (s.setTrust { t with soKey := b }))
  | 0x02 => .ok (noteI 0x3000 2 t.operatorKey b (s.setTrust { t with operatorKey := b }))
  | 0x03 => .ok (noteI 0x3000 3 t.fieldKey b (s.setTrust { t with fieldKey := b }))
  | 0x14 =>
    if t.lcs = 2 then .error 0x05
    else within (1 ≤ leNat b ∧ leNat b ≤ 1024)
      (noteI 0x3000 0x14 (toLe 2 t.fwLimit.toNat) b (s.setTrust { t with fwLimit := BitVec.ofNat 16 (leNat b) }))
  | _ => .error 0x02

/-- A new cap; the power of the last 10 ms is held against it (13 R395). -/
def writeCap (s : State) (v : Nat) : State :=
  let s := s.setPower { s.power with cap := BitVec.ofNat 16 v }
  if overNow s then driveAlert (s.setPower { s.power with overCap := true }) else s

def writePower (s : State) (sub v : Nat) : WRes :=
  match sub with
  | 0x01 => within (350 ≤ v ∧ v ≤ 950) (writeCap s v)
  | 0x06 => within (v < 32) (driveAlert (s.setPower { s.power with alertMask := BitVec.ofNat 8 v }))
  | 0x07 => .ok (alertClear s)
  | n => within (v < 128) (s.setPower { s.power with pmbusAddr := s.power.pmbusAddr.set (n - 0x10) (BitVec.ofNat 8 v) })

def writeReliability (s : State) (sub v : Nat) : WRes :=
  match sub with
  | 0x02 => within (1000 ≤ v) (updateRisk (s.setRipstop { s.ripstop with secureTh := BitVec.ofNat 16 v }))
  | 0x03 => within (s.ripstop.secureTh.toNat < v) (updateRisk (s.setRipstop { s.ripstop with evacTh := BitVec.ofNat 16 v }))
  | _ => within (clearOk s v) (clearFence s v)

/-- Writes a byte entry of a port, or has it wait for the end of a retrain (R426). -/
def deferOr (s : State) (p sub v : Nat) (f : Port → Port) : State :=
  s.modPort p fun x => if x.st = 2 then { x with deferred := tins sub (BitVec.ofNat 8 v) (tdel x.deferred sub) } else f x

/-- Table 14.9. -/
def writePort (s : State) (p sub v : Nat) : WRes :=
  let b : BitVec 8 := BitVec.ofNat 8 v
  let x := s.port p
  match sub with
  | 0x01 => within (v ≤ 6) (deferOr s p 1 v fun x => { x with mode := b })
  | 0x02 => within (v ≤ 4) (noteI (0x6000 + p) 2 [x.axis] [b] (s.modPort p fun x => { x with axis := b }))
  | 0x03 => within (1518 ≤ v ∧ v ≤ 9216) (s.modPort p fun x => { x with maxFrame := BitVec.ofNat 16 v })
  | 0x04 => .ok (s.modPort p fun x => { x with nextHop := BitVec.ofNat 48 v })
  | 0x05 => within (v ≤ 1) (deferOr s p 5 v fun x => { x with stepEn := b })
  | 0x06 => within (v ≤ 6) (deferOr s p 6 v fun x => { x with floor := some b })
  | 0x07 => within (100 ≤ v ∧ v ≤ 60000) (s.modPort p fun x => { x with stepHold := BitVec.ofNat 32 v })
  | 0x08 =>
    if 1 < v then .error 0x04
    else if v = 1 ∧ !eeeAllowed s p x.mode then .error 0x05
    else .ok (deferOr s p 8 v fun x =>
      { x with eeeEn := b
               wakeAt := if x.lpi ∧ v = 0 ∧ x.wakeAt.isNone then some (s.now.toNat + (x.wake + 9) / 10) else x.wakeAt })
  | 0x09 => within (v ≤ 5) (s.modPort p fun x => { x with startRung := b })
  | 0x0A => if x.st = 2 then .error 0x08 else .ok (resetPort s p)
  | 0x0B => if x.st = 3 then .ok (releasePort s p) else .error 0x05
  | _ => .error 0x02

/-- Ranges of 0x6020.02 to .0A in µs or B (09 Table 09.8). -/
def xftRange (x : Xft) (i v : Nat) : Bool :=
  match i with
  | 0 => 10 ≤ v && v ≤ 10000
  | 1 => 5 ≤ v && v ≤ 1000
  | 2 => 1000 ≤ v && v ≤ 1000000
  | 3 => 100000 ≤ v && v ≤ 30000000 && v < x.deadT.toNat
  | 4 => 1000000 ≤ v && v ≤ 60000000 && x.reasmTo.toNat < v
  | 5 => 2 ^ 14 ≤ v && v ≤ 2 ^ 24
  | 6 => x.iw.toNat ≤ v && v ≤ 2 ^ 26
  | 7 => 2 ^ 13 ≤ v && v ≤ 2 ^ 20
  | _ => 1 ≤ v && v ≤ 100

def setXftParam (x : Xft) (i : Nat) (w : BitVec 32) : Xft :=
  match i with
  | 0 => { x with rtoInit := w } | 1 => { x with rtoMin := w } | 2 => { x with rtoMax := w } | 3 => { x with reasmTo := w }
  | 4 => { x with deadT := w } | 5 => { x with iw := w } | 6 => { x with cwndMax := w } | 7 => { x with ai := w } | _ => { x with delayTgt := w }

def writeFabric (s : State) (sub v : Nat) : WRes :=
  if sub = 1 then within (1024 ≤ v ∧ v ≤ 0xFFFF ∧ v ≠ 4791 ∧ v ≠ 48721) (s.setXft { s.xft with udp := BitVec.ofNat 16 v })
  else within (xftRange s.xft (sub - 2) v) (s.setXft (setXftParam s.xft (sub - 2) (BitVec.ofNat 32 v)))

def writeCerral (s : State) (sub v : Nat) : WRes :=
  let w : BitVec 32 := BitVec.ofNat 32 v
  match sub with
  | 0x01 => within (v ≤ 1) (s.setLink { s.link with forceFr := BitVec.ofNat 8 v })
  | 0x02 => within (10 ≤ v ∧ v ≤ 60000) (s.setLink { s.link with stallT := w })
  | 0x03 => within (10 ≤ v ∧ v ≤ 100000) (s.setLink { s.link with idleT := w })
  | _ => .ok (s.setLink { s.link with symTh := w })

/-! ### Partition entries (Tables 14.11 to 14.14) -/

/-- A staging entry is written while the partition is FREE, or ACTIVE for a resize; TENANT_KEY only while FREE (R427). -/
def writeStaging (s : State) (k sub v : Nat) (b : Bytes) : WRes :=
  let P := s.part k
  let put (A : Alloc) : State := s.putPart k { P with staged := A }
  let A := P.staged
  if ¬(P.st = .free ∨ (P.st = .active ∧ sub ≠ 0x08)) then .error 0x05
  else match sub with
    | 0x02 => .ok (put { A with slices := BitVec.ofNat 16 v })
    | 0x03 => within (1 ≤ v ∧ v ≤ 576) (put { A with farGib := BitVec.ofNat 16 v })
    | 0x04 => within (v % 4096 = 0) (put { A with qbase := BitVec.ofNat 32 v })
    | 0x05 => within (v % 4096 = 0) (put { A with qcount := BitVec.ofNat 32 v })
    | 0x06 => within (v % 64 = 0) (put { A with cbase := BitVec.ofNat 16 v })
    | 0x07 => within (v % 64 = 0) (put { A with ccount := BitVec.ofNat 16 v })
    | _ => .ok (s.putPart k { P with tenantKey := b })

/-- The device, or the operator, sets MODE or POWER_POOLED. -/
def setMode (s : State) (k : Nat) (v : BitVec 8) : State :=
  noteMode k 0x0D (s.part k).dict.mode v (modDict s k fun d => { d with mode := v })
def setPooledPower (s : State) (k : Nat) (v : BitVec 8) : State :=
  noteMode k 0x0F (s.part k).dict.powerPooled v (modDict s k fun d => { d with powerPooled := v })

/-- MODE and POWER_POOLED need a consent; withdrawing one undoes them (R428; 11 R331, R333; the round boundary and the 1 ms are
not waited for, log 6). -/
def writeModes (s : State) (k sub v : Nat) : WRes :=
  let d := (s.part k).dict
  let b : BitVec 8 := BitVec.ofNat 8 v
  if 1 < v then .error 0x04
  else match sub with
    | 0x0D => if v = 1 ∧ d.poolConsent ≠ 1 then .error 0x07 else .ok (setMode s k b)
    | 0x0E =>
      let s := modDict s k fun d => { d with poolConsent := b }
      .ok (if v = 0 then setMode s k 0 else s)
    | 0x0F => if v = 1 ∧ d.powerConsent ≠ 1 then .error 0x07 else .ok (setPooledPower s k b)
    | 0x10 =>
      let s := modDict s k fun d => { d with powerConsent := b }
      .ok (if v = 0 then setPooledPower s k 0 else s)
    | 0x11 => .ok (modDict s k fun d => { d with plainStaging := b })
    | _ => .ok (modDict s k fun d => { d with subwinEn := b })

/-- CREATE, RESIZE, PART_RESET and DESTROY (11 R323, R325, R326). -/
def partAction (s : State) (k sub : Nat) : WRes :=
  let st := match sub with | 0x09 => createStatus s k | 0x0A => resizeStatus s k | _ => endStatus s k
  if st ≠ 0x00 then .error st
  else .ok (match sub with
    | 0x09 => startCreate s k
    | 0x0A => startResize s k
    | 0x0B => startEnd s k .resetting
    | _ => startEnd s k .destroying)

/-- An entry of class P or V is written while the partition is RESERVED, ACTIVE or RESIZING (R452). -/
def whenLive (s : State) (k : Nat) (r : WRes) : WRes := if entriesLive (s.part k) then r else .error 0x05

def writeAlloc (s : State) (k sub v : Nat) (b : Bytes) : WRes :=
  if 0x02 ≤ sub ∧ sub ≤ 0x08 then writeStaging s k sub v b
  else if 0x09 ≤ sub ∧ sub ≤ 0x0C then partAction s k sub
  else whenLive s k <|
    if sub = 0x13 then within (v % 2 ^ 21 = 0) (modDict s k fun d => { d with subwinBase := BitVec.ofNat 64 v })
    else if sub = 0x14 then within (v % 2 ^ 21 = 0 ∧ v ≤ 2 ^ 32) (modDict s k fun d => { d with subwinLen := BitVec.ofNat 64 v })
    else writeModes s k sub v

/-- A preferred point acts at once (13 R391). -/
def writePowerOf (s : State) (k sub v : Nat) : WRes :=
  if sub = 7 then within (v ≤ 5) (modDict s k fun d => { d with priority := BitVec.ofNat 8 v })
  else within (v ≤ 6) (retargetPart (modDict s k fun d => { d with phaseOp := d.phaseOp.set (sub - 1) (BitVec.ofNat 8 v) }) k)

def writeSecuring (s : State) (k sub v : Nat) : WRes :=
  let put (f : PDict → PDict) : State := modDict s k f
  let b : BitVec 8 := BitVec.ofNat 8 v
  match sub with
  | 0x01 => within (!(s.part k).job.any fun J => J.rank.toNat = v) (put fun d => { d with buddy := BitVec.ofNat 16 v })
  | 0x02 => .ok (put fun d => { d with storeQp := b })
  | 0x03 => within (10 ≤ v ∧ v ≤ 3600) (put fun d => { d with securePeriod := BitVec.ofNat 32 v })
  | 0x04 => within (1 ≤ v ∧ v ≤ 3600) (put fun d => { d with secureMin := BitVec.ofNat 32 v })
  | 0x05 => within (1 ≤ v ∧ v ≤ 50) (put fun d => { d with secureShare := b })
  | 0x06 => within (1 ≤ v ∧ v ≤ 50) (put fun d => { d with storeShare := b })
  | 0x08 => within (v % 256 = 0) (put fun d => { d with storeRaddr := BitVec.ofNat 64 v })
  | 0x09 => .ok (put fun d => { d with storeRkey := BitVec.ofNat 32 v })
  | 0x0A => within (v % 256 = 0) (put fun d => { d with storeGenBytes := BitVec.ofNat 64 v })
  | 0x15 => within (1 ≤ v ∧ v ≤ 15) (put fun d => { d with xsatReplays := b })
  | 0x16 => within (v ≤ 15) (put fun d => { d with spikeRelax := b })
  | n => within (v ≤ 4) (put fun d => { d with policy := d.policy.set (n - 0x10) b })

/-- Thresholds and detector parameters; a step already latched keeps those of its latch (R430). -/
def writeHealth (s : State) (k sub v : Nat) : WRes :=
  let put (f : PDict → PDict) : State := modDict s k f
  match sub with
  | 0x06 => within (v ≤ 0x7FF) (put fun d => { d with voteMask := BitVec.ofNat 16 v })
  | 0x07 => .ok (put fun d => { d with lsK := BitVec.ofNat 16 v })
  | 0x08 => within (v ≤ 16) (put fun d => { d with lsA := BitVec.ofNat 8 v })
  | 0x09 => .ok (put fun d => { d with lsMin := BitVec.ofNat 64 v })
  | 0x0A => .ok (put fun d => { d with lsMax := BitVec.ofNat 64 v })
  | 0x0B => within (1 ≤ v) (put fun d => { d with voteDl := BitVec.ofNat 16 v })
  | 0x0C => within (10 ≤ v ∧ v ≤ 60000) (put fun d => { d with sealTo := BitVec.ofNat 32 v })
  | 0x0D => within (10 ≤ v ∧ v ≤ 600000) (put fun d => { d with gholdT := BitVec.ofNat 32 v })
  | n => .ok (put fun d => { d with hcTh := d.hcTh.set (n - 1) (BitVec.ofNat 32 v) })

/-- Starts evictions from the interleaved window, oldest age first, n at most (R429; 05 R146). -/
def evictWindow (s : State) (k : Nat) : Nat → State
  | 0 => s
  | n + 1 => match victimOf (s.part k) 4 with
    | some r => evictWindow (acceptPage s k r .evicting false id) k n
    | none => s

/-- IWIN_FRAMES (R429). -/
def writeIwin (s : State) (k v : Nat) : WRes :=
  let P := s.part k
  if poolFrames P < v ∨ v < pinnedAt P 4 then .error 0x04
  else
    let going := P.pages.countP fun e => e.2.frame = some 4 ∧ e.2.st = .evicting
    .ok (evictWindow (modDict s k fun d => { d with iwinFrames := BitVec.ofNat 32 v }) k (framesUsed P 4 - going - v))

def writeAddress (s : State) (k sub v : Nat) (b : Bytes) : WRes :=
  let i := 0x8150 + 0x100 * k
  let d := (s.part k).dict
  match sub with
  | 1 => .ok (noteI i 1 (toLe 16 d.addr.toNat) b (modDict s k fun d => { d with addr := BitVec.ofNat 128 v }))
  | 2 => .ok (noteI i 2 (toBe 6 d.mac.toNat) b (modDict s k fun d => { d with mac := BitVec.ofNat 48 v }))
  | _ => within (v ≤ 63) (noteI i 3 [d.dscp] b (modDict s k fun d => { d with dscp := BitVec.ofNat 8 v }))

def writeVlan (s : State) (k p v : Nat) (b : Bytes) : WRes :=
  within (v ≤ 4094) (noteI (0x8160 + 0x100 * k + p) 1 (toLe 2 (tget (0 : BitVec 16) (s.part k).dict.vlan p).toNat) b
    (modDict s k fun d => { d with vlan := tset 0 d.vlan p (BitVec.ofNat 16 v) }))

/-- Table 14.14: what QP_SEL names; its settings are written while it is RESET. -/
def writeQp (s : State) (sid k sub v : Nat) : WRes :=
  let i := (s.session sid).qpSel.toNat
  let put (f : Qp → Qp) : WRes := if (s.qp k i).st ≠ 0 then .error 0x05 else .ok (modQp s k i f)
  let w : BitVec 24 := BitVec.ofNat 24 v
  match sub with
  | 0x01 => .ok (putSession s sid { s.session sid with qpSel := BitVec.ofNat 8 v })
  | 0x02 => put fun q => { q with peer := BitVec.ofNat 128 v }
  | 0x03 => if 0xFFFFFF < v then .error 0x04 else put fun q => { q with peerQpn := w }
  | 0x04 => if 0xFFFFFF < v then .error 0x04 else put fun q => { q with sqPsn := w }
  | 0x05 => if 0xFFFFFF < v then .error 0x04 else put fun q => { q with rqPsn := w }
  | 0x06 => if 2 < v then .error 0x04 else put fun q => { q with pmtu := BitVec.ofNat 8 v }
  | 0x07 => if v = 0 ∨ 31 < v then .error 0x04 else put fun q => { q with ackTo := BitVec.ofNat 8 v }
  | 0x0A => (match openQp s k i with | some s => .ok s | none => .error 0x05)
  | _ => .ok (closeQp s k i)

/-- SVN_FUSE: above the fused value, up to SVN (Table 14.7; 11 R349). -/
def writeSvn (s : State) (v : Nat) : WRes :=
  within (s.trust.svnFuse.toNat < v ∧ v ≤ s.trust.svn.toNat) (s.setTrust { s.trust with svnFuse := BitVec.ofNat 32 v })

/-- Writes one entry that its role may write, with a value of its type. -/
def writeEntry (s : State) (sid : Nat) (g : Grp) (sub ty : Nat) (b : Bytes) : WRes :=
  let v := if ty = tyMac then beNat b else leNat b
  match g with
  | .identity => writeSvn s v
  | .config => writeConfig s sub v
  | .security => writeSecurity s sub b
  | .power => writePower s sub v
  | .reliability => writeReliability s sub v
  | .port p => writePort s p sub v
  | .portM => writePort s 16 sub v
  | .fabric => writeFabric s sub v
  | .cerral => writeCerral s sub v
  | .alloc k => writeAlloc s k sub v b
  | .powerOf k => whenLive s k (writePowerOf s k sub v)
  | .securing k => whenLive s k (writeSecuring s k sub v)
  | .health k => whenLive s k (writeHealth s k sub v)
  | .near k => whenLive s k (writeIwin s k v)
  | .address k => whenLive s k (writeAddress s k sub v b)
  | .portOf k p => whenLive s k (writeVlan s k p v b)
  | .qp k => whenLive s k (writeQp s sid k sub v)
  | .ageing | .telemetry | .collective _ | .transport _ => .error 0x02

/-! ### WRITE (R418, R419) -/

/-- An action that ends in a device reset: it runs once the response is on its way, and no later item of the WRITE may
follow it (log 64). -/
inductive Ending where
  | reset | decommission | rma | sealing (key : Bytes)
  deriving DecidableEq, Repr

/-- The ending an entry asks for, with its status. -/
def endingOf (s : State) (g : Grp) (sub : Nat) (b : Bytes) : Option (Ending × Nat) :=
  match g, sub with
  | .config, 0x0A => some (.reset, 0x00)
  | .security, 0x10 => some (.sealing b, sealStatus s b)
  | .security, 0x12 => some (.rma, rmaStatus s b)
  | .security, 0x13 => some (.decommission, decommissionStatus s (BitVec.ofNat 128 (leNat b)))
  | _, _ => none

/-- Runs an ending; a decommissioned device has no transition left (R348). -/
def runEnding (s : State) : Option Ending → State
  | none => s
  | some .reset => deviceReset s
  | some .decommission => lcDecommission s
  | some .rma => if s.trust.lcs = 4 then s else lcRma s
  | some (.sealing b) => if s.trust.lcs = 4 then s else lcSeal s b

/-- A WRITE under way: the state its items so far leave, their statuses, its ending. -/
structure WAcc where
  s : State
  sts : List Nat
  ending : Option Ending

/-- An item of a WRITE. -/
structure WItem where
  index : Nat
  sub : Nat
  ty : Nat
  value : Bytes
  deriving DecidableEq, Repr

/-- Validates one item against the state the earlier ones leave, and applies it there (R418). A write of IDENTITY is ignored
without an error (00 R4). -/
def writeItem (sid : Nat) (a : WAcc) (it : WItem) : WAcc :=
  let say (st : Nat) : WAcc := { a with sts := a.sts ++ [st] }
  let s := a.s
  if it.index = 0x1000 ∧ it.sub = 0x01 then say 0x00
  else if a.ending.isSome then say 0x05
  else match access s (s.session sid) it.index it.sub mayWrite false with
    | .error st => say st
    | .ok (g, r) =>
      if it.ty ≠ r.ty ∨ !r.lens.contains it.value.length then say 0x03
      else match endingOf s g it.sub it.value with
        | some (e, st) => if st = 0x00 then { s := s, sts := a.sts ++ [0x00], ending := some e } else say st
        | none =>
          match writeEntry s sid g it.sub it.ty it.value with
          | .ok s' => { s := s', sts := a.sts ++ [0x00], ending := none }
          | .error st => say st

/-- Items of a WRITE (Table 14.3): none where the payload has another form. -/
def writeItems : Nat → Bytes → Option (List WItem)
  | 0, [] => some []
  | 0, _ :: _ => none
  | n + 1, b =>
    let len := leNat (slice b 4 2)
    if b.length < 6 + len then none
    else (writeItems n (b.drop (6 + len))).map fun l =>
      { index := leNat (slice b 0 2), sub := (b.getD 2 0).toNat, ty := (b.getD 3 0).toNat, value := slice b 6 len } :: l

/-- The answer to a WRITE; a failing item spoils the others (R418, Table 14.4). -/
def writeAnswer (l : List WItem) (sts : List Nat) : Bytes :=
  let ok := sts.all (· = 0x00)
  toLe 2 l.length ++ (l.zip sts).flatMap fun e =>
    toLe 2 e.1.index ++ toLe 1 e.1.sub ++ toLe 1 (if ok then 0x00 else if e.2 = 0x00 then 0x06 else e.2)

/-- Roles whose key entries a WRITE has rewritten: their sessions close (R416). -/
def rekeyed (l : List WItem) (role : Nat) : Bool :=
  l.any fun it => it.index = 0x3000 &&
    ((it.sub = 1 && role = 17) || (it.sub = 2 && role = 0) || (it.sub = 3 && role = 18))

/-- A WRITE of these items by a session: all of them or none (R418). -/
def applyWrite (s : State) (sid : Nat) (l : List WItem) : State :=
  let r := l.foldl (writeItem sid) { s := s, sts := [], ending := none }
  let ans := writeAnswer l r.sts
  if r.sts.all (· = 0x00) then
    runEnding (closeSessions (rolReply r.s sid 0x13 ans) fun S => rekeyed l S.role) r.ending
  else rolReply s sid 0x13 ans

/-- WRITE (R418); a payload of another form gets no answer (log 54). -/
def execWrite (s : State) : Host.Outcome State Fault Refusal :=
  outcome s <| onRequest s rkWrite fun s sid _ m =>
    match writeItems (leNat (m.payload.take 2)) (m.payload.drop 2) with
    | none => freeBusy s m.mbox
    | some l => applyWrite s sid l

/-! ### Subscriptions (R420) -/

/-- 100 ms and 1 ms in AONCLK. -/
def ticks100ms : Nat := 10000000
def ticks1ms : Nat := 100000

/-- A SUBSCRIBE of one entry: its status, and the session's subscriptions (limits log 64). -/
def subscribe (s : State) (S : Session) (i sub mode period : Nat) : Nat × List Sub :=
  match access s S i sub mayRead true with
  | .error st => (st, S.subs)
  | .ok (g, _) =>
    let others := S.subs.filter fun x => !(x.index.toNat = i && x.sub.toNat = sub)
    if mode = 2 then (0x00, others)
    else if 2 < mode ∨ (mode = 1 ∧ (period < 100 ∨ 60000 < period)) then (0x04, S.subs)
    else if 64 ≤ others.length then (0x05, S.subs)
    else (0x00, others ++ [{ index := BitVec.ofNat 16 i, sub := BitVec.ofNat 8 sub, periodic := mode = 1, period := BitVec.ofNat 16 period,
                             lastVal := entryValue s S g sub, sentAt := s.now.toNat }])

/-- SUBSCRIBE (R420); a payload of another length gets no answer (log 54). -/
def execSubscribe (s : State) : Host.Outcome State Fault Refusal :=
  .next <| onRequest s rkSubscribe fun s sid S m =>
    let b := m.payload
    if b.length ≠ 6 then freeBusy s m.mbox
    else
      let r := subscribe s S (leNat (slice b 0 2)) (b.getD 2 0).toNat (b.getD 3 0).toNat (leNat (slice b 4 2))
      rolReply (putSession s sid { S with subs := r.2 }) sid 0x15 [BitVec.ofNat 8 r.1]

/-- Values of an entry that delivers each of its records, newest first: EVENTS, PART_EVENTS, HEALTH (Tables 14.8, 14.13). -/
def records (s : State) (S : Session) (g : Grp) (sub : Nat) : Option (List Bytes) :=
  match g, sub with
  | .reliability, 0x04 => some (s.ripstop.ring.map fun e => eventBytes e (S.role = 18))
  | .health k, 0x1E => some ((s.part k).events.map fun e => eventBytes e false)
  | .health k, 0x1C =>
    let h := (s.part k).health
    some ((if h.history.head? = some h.word then h.history else h.word :: h.history).map fun w => toLe 8 w.toNat)
  | _, _ => none

/-- What a subscription has to send now, oldest first: every new record, at most 256 at once, or the latest value. -/
def dueValues (s : State) (S : Session) (x : Sub) (g : Grp) (sub : Nat) : List Bytes :=
  let v := entryValue s S g sub
  if x.periodic then (if x.sentAt + x.period.toNat * ticks1ms ≤ s.now.toNat then [v] else [])
  else if s.now.toNat < x.sentAt + ticks100ms ∨ v = x.lastVal then []
  else match records s S g sub with
    | some l => ((l.takeWhile (· ≠ x.lastVal)).reverse).take 256
    | none => [v]

/-- PERIODIC_SUBSCRIPTION (R420): a periodic or on-change subscription sends what it has to send. -/
def execPeriodicSubscription (sid : BitVec 32) (index : BitVec 16) (sub : BitVec 8) (s : State) : Host.Outcome State Fault Refusal :=
  .next <|
    let S := s.session sid.toNat
    match S.subs.find? fun x => x.index = index && x.sub = sub with
    | none => s
    | some x =>
      match access s S index.toNat sub.toNat mayRead true with
      | .error _ => s
      | .ok (g, r) =>
        let vs := dueValues s S x g sub.toNat
        if s.boot.clocksOff ∨ vs = [] then s
        else
          let subs := S.subs.map fun y =>
            if y.index = index && y.sub = sub then { y with lastVal := vs.getLastD [], sentAt := s.now.toNat } else y
          sendEvent (putSession s sid.toNat { S with subs := subs }) sid.toNat vs.length
            (vs.flatMap fun v => valueItem index.toNat sub.toNat 0x00 r.ty v)

end Sys2Proof.Machine
end

