-- ==== Sys2Proof/Machine/Dispatch.lean ====
section
/-! DEFINITION. The one dispatch over the commands of the block. -/

namespace Sys2Proof.Machine

open Sys2Proof

def exec (i : Instr) (s : State) : Host.Outcome State Fault Refusal :=
  match i with
  | .wait q => Sys2Proof.Machine.execWait q s
  | .signal q => Sys2Proof.Machine.execSignal q s
  | .rsignal q => Sys2Proof.Machine.execRsignal q s
  | .nop q => Sys2Proof.Machine.execNop q s
  | .matmul q => Sys2Proof.Machine.execMatmul q s
  | .fillTile q mu => Sys2Proof.Machine.execFillTile q mu s
  | .modeChange mu quad => Sys2Proof.Machine.execModeChange mu quad s
  | .planeLoad mu qrow qcol plane row => Sys2Proof.Machine.execPlaneLoad mu qrow qcol plane row s
  | .inboxWrite vc => Sys2Proof.Machine.execInboxWrite vc s
  | .add48 k addr img => Sys2Proof.Machine.execAdd48 k addr img s
  | .add32e k addr val exp => Sys2Proof.Machine.execAdd32e k addr val exp s
  | .vprog q => Sys2Proof.Machine.execVprog q s
  | .vNop vc => Sys2Proof.Machine.execVNop vc s
  | .vEnd vc => Sys2Proof.Machine.execVEnd vc s
  | .vSeta vc => Sys2Proof.Machine.execVSeta vc s
  | .vAdda vc => Sys2Proof.Machine.execVAdda vc s
  | .vLoop vc => Sys2Proof.Machine.execVLoop vc s
  | .vAdd vc => Sys2Proof.Machine.execVAdd vc s
  | .vSub vc => Sys2Proof.Machine.execVSub vc s
  | .vAdds vc => Sys2Proof.Machine.execVAdds vc s
  | .vSubs vc => Sys2Proof.Machine.execVSubs vc s
  | .vMullo vc => Sys2Proof.Machine.execVMullo vc s
  | .vMulhi vc => Sys2Proof.Machine.execVMulhi vc s
  | .vShl vc => Sys2Proof.Machine.execVShl vc s
  | .vShr vc => Sys2Proof.Machine.execVShr vc s
  | .vMin vc => Sys2Proof.Machine.execVMin vc s
  | .vMax vc => Sys2Proof.Machine.execVMax vc s
  | .vAnd vc => Sys2Proof.Machine.execVAnd vc s
  | .vOr vc => Sys2Proof.Machine.execVOr vc s
  | .vXor vc => Sys2Proof.Machine.execVXor vc s
  | .vSel vc => Sys2Proof.Machine.execVSel vc s
  | .vCmpeq vc => Sys2Proof.Machine.execVCmpeq vc s
  | .vCmplt vc => Sys2Proof.Machine.execVCmplt vc s
  | .vCmple vc => Sys2Proof.Machine.execVCmple vc s
  | .vIota vc => Sys2Proof.Machine.execVIota vc s
  | .vAlign vc => Sys2Proof.Machine.execVAlign vc s
  | .vNorm vc => Sys2Proof.Machine.execVNorm vc s
  | .vExp2 vc => Sys2Proof.Machine.execVExp2 vc s
  | .vLog2 vc => Sys2Proof.Machine.execVLog2 vc s
  | .vRcp vc => Sys2Proof.Machine.execVRcp vc s
  | .vRsqrt vc => Sys2Proof.Machine.execVRsqrt vc s
  | .vLogistic vc => Sys2Proof.Machine.execVLogistic vc s
  | .vRsum vc => Sys2Proof.Machine.execVRsum vc s
  | .vRssq vc => Sys2Proof.Machine.execVRssq vc s
  | .vRmax vc => Sys2Proof.Machine.execVRmax vc s
  | .vRmin vc => Sys2Proof.Machine.execVRmin vc s
  | .vRargmax vc => Sys2Proof.Machine.execVRargmax vc s
  | .vRargmin vc => Sys2Proof.Machine.execVRargmin vc s
  | .vRcount vc => Sys2Proof.Machine.execVRcount vc s
  | .vRmean vc => Sys2Proof.Machine.execVRmean vc s
  | .vMov vc => Sys2Proof.Machine.execVMov vc s
  | .vTrans vc => Sys2Proof.Machine.execVTrans vc s
  | .vShuf vc => Sys2Proof.Machine.execVShuf vc s
  | .vSetexp vc => Sys2Proof.Machine.execVSetexp vc s
  | .vPand vc => Sys2Proof.Machine.execVPand vc s
  | .vPor vc => Sys2Proof.Machine.execVPor vc s
  | .vPxor vc => Sys2Proof.Machine.execVPxor vc s
  | .vPnot vc => Sys2Proof.Machine.execVPnot vc s
  | .vLd vc => Sys2Proof.Machine.execVLd vc s
  | .vSt vc => Sys2Proof.Machine.execVSt vc s
  | .vGather vc => Sys2Proof.Machine.execVGather vc s
  | .vScatter vc => Sys2Proof.Machine.execVScatter vc s
  | .vLdexp vc => Sys2Proof.Machine.execVLdexp vc s
  | .vSttag vc => Sys2Proof.Machine.execVSttag vc s
  | .vCvt vc => Sys2Proof.Machine.execVCvt vc s
  | .vRand vc => Sys2Proof.Machine.execVRand vc s
  | .promote q => Sys2Proof.Machine.execPromote q s
  | .demote q => Sys2Proof.Machine.execDemote q s
  | .pin q => Sys2Proof.Machine.execPin q s
  | .unpin q => Sys2Proof.Machine.execUnpin q s
  | .affinity q => Sys2Proof.Machine.execAffinity q s
  | .clean q => Sys2Proof.Machine.execClean q s
  | .pageRequestAccept k => Sys2Proof.Machine.execPageRequestAccept k s
  | .promotionCompletes k page => Sys2Proof.Machine.execPromotionCompletes k page s
  | .writeBackCompletes k page => Sys2Proof.Machine.execWriteBackCompletes k page s
  | .cxfer q => Sys2Proof.Machine.execCxfer q s
  | .sxferRead q per => Sys2Proof.Machine.execSxferRead q per s
  | .sxferWrite q => Sys2Proof.Machine.execSxferWrite q s
  | .expose q => Sys2Proof.Machine.execExpose q s
  | .qconfig q => Sys2Proof.Machine.execQconfig q s
  | .qpause q => Sys2Proof.Machine.execQpause q s
  | .qresume q => Sys2Proof.Machine.execQresume q s
  | .qreset q => Sys2Proof.Machine.execQreset q s
  | .qread q => Sys2Proof.Machine.execQread q s
  | .ctrReset q => Sys2Proof.Machine.execCtrReset q s
  | .commandCompletes q => Sys2Proof.Machine.execCommandCompletes q s
  | .sgdWithMomentum q => Sys2Proof.Machine.execSgdWithMomentum q s
  | .adamw q => Sys2Proof.Machine.execAdamw q s
  | .lion q => Sys2Proof.Machine.execLion q s
  | .factored q => Sys2Proof.Machine.execFactored q s
  | .custom q => Sys2Proof.Machine.execCustom q s
  | .copy q => Sys2Proof.Machine.execCopy q s
  | .microEnd pipe w => Sys2Proof.Machine.execMicroEnd pipe w s
  | .microMov pipe w => Sys2Proof.Machine.execMicroMov pipe w s
  | .microAdd pipe w => Sys2Proof.Machine.execMicroAdd pipe w s
  | .microSub pipe w => Sys2Proof.Machine.execMicroSub pipe w s
  | .microMul pipe w => Sys2Proof.Machine.execMicroMul pipe w s
  | .microMulh pipe w => Sys2Proof.Machine.execMicroMulh pipe w s
  | .microAddh pipe w => Sys2Proof.Machine.execMicroAddh pipe w s
  | .microDiv pipe w => Sys2Proof.Machine.execMicroDiv pipe w s
  | .microSqrt pipe w => Sys2Proof.Machine.execMicroSqrt pipe w s
  | .microSign pipe w => Sys2Proof.Machine.execMicroSign pipe w s
  | .microNeg pipe w => Sys2Proof.Machine.execMicroNeg pipe w s
  | .microMax pipe w => Sys2Proof.Machine.execMicroMax pipe w s
  | .enc pipe w => Sys2Proof.Machine.execEnc pipe w s
  | .backPageWrite q => Sys2Proof.Machine.execBackPageWrite q s
  | .loss q => Sys2Proof.Machine.execLoss q s
  | .latch q => Sys2Proof.Machine.execLatch q s
  | .commit q => Sys2Proof.Machine.execCommit q s
  | .refuse q => Sys2Proof.Machine.execRefuse q s
  | .defineDamaskPair q => Sys2Proof.Machine.execDefineDamaskPair q s
  | .defineStepScratchRange q => Sys2Proof.Machine.execDefineStepScratchRange q s
  | .removeEntry q => Sys2Proof.Machine.execRemoveEntry q s
  | .defineBuddyRange q => Sys2Proof.Machine.execDefineBuddyRange q s
  | .dstep q => Sys2Proof.Machine.execDstep q s
  | .phase q => Sys2Proof.Machine.execPhase q s
  | .join q => Sys2Proof.Machine.execJoin q s
  | .slotopen q => Sys2Proof.Machine.execSlotopen q s
  | .contrib q => Sys2Proof.Machine.execContrib q s
  | .bcast q => Sys2Proof.Machine.execBcast q s
  | .put q => Sys2Proof.Machine.execPut q s
  | .fgather q => Sys2Proof.Machine.execFgather q s
  | .ladd48 q => Sys2Proof.Machine.execLadd48 q s
  | .hvote q => Sys2Proof.Machine.execHvote q s
  | .jersey q => Sys2Proof.Machine.execJersey q s
  | .rankset q => Sys2Proof.Machine.execRankset q s
  | .claim k => Sys2Proof.Machine.execClaim k s
  | .answer k => Sys2Proof.Machine.execAnswer k s
  | .data k => Sys2Proof.Machine.execData k s
  | .placed k => Sys2Proof.Machine.execPlaced k s
  | .seal k => Sys2Proof.Machine.execSeal k s
  | .confirm k => Sys2Proof.Machine.execConfirm k s
  | .resend k => Sys2Proof.Machine.execResend k s
  | .call k => Sys2Proof.Machine.execCall k s
  | .release k => Sys2Proof.Machine.execRelease k s
  | .failed k => Sys2Proof.Machine.execFailed k s
  | .land k => Sys2Proof.Machine.execLand k s
  | .lseal k => Sys2Proof.Machine.execLseal k s
  | .lack k => Sys2Proof.Machine.execLack k s
  | .greq k => Sys2Proof.Machine.execGreq k s
  | .gdata k => Sys2Proof.Machine.execGdata k s
  | .gend k => Sys2Proof.Machine.execGend k s
  | .rsig k => Sys2Proof.Machine.execRsig k s
  | .rsigAck k => Sys2Proof.Machine.execRsigAck k s
  | .vote k => Sys2Proof.Machine.execVote k s
  | .voteBc k => Sys2Proof.Machine.execVoteBc k s
  | .deadline k epoch slot => Sys2Proof.Machine.execDeadline k epoch slot s
  | .sealTo k epoch slot mbid => Sys2Proof.Machine.execSealTo k epoch slot mbid s
  | .busyReclaim q => Sys2Proof.Machine.execBusyReclaim q s
  | .voteDeadline k => Sys2Proof.Machine.execVoteDeadline k s
  | .voteBcTimeout k => Sys2Proof.Machine.execVoteBcTimeout k s
  | .gholdT k n => Sys2Proof.Machine.execGholdT k n s
  | .xftData k => Sys2Proof.Machine.execXftData k s
  | .xftAck k => Sys2Proof.Machine.execXftAck k s
  | .xftNack k => Sys2Proof.Machine.execXftNack k s
  | .probe k => Sys2Proof.Machine.execProbe k s
  | .ackTimer k rank => Sys2Proof.Machine.execAckTimer k rank s
  | .retransmissionTimer k rank => Sys2Proof.Machine.execRetransmissionTimer k rank s
  | .probeTimer k rank => Sys2Proof.Machine.execProbeTimer k rank s
  | .reasmTo k rank msn => Sys2Proof.Machine.execReasmTo k rank msn s
  | .deadT k rank => Sys2Proof.Machine.execDeadT k rank s
  | .slotEmptied k slot => Sys2Proof.Machine.execSlotEmptied k slot s
  | .receiveFrame port frame rx => Sys2Proof.Machine.execReceiveFrame port frame rx s
  | .arp port => Sys2Proof.Machine.execArp port s
  | .lldp port stepDown eee wake => Sys2Proof.Machine.execLldp port stepDown eee wake s
  | .txUnderrun port => Sys2Proof.Machine.execTxUnderrun port s
  | .portLinkLoss port => Sys2Proof.Machine.execPortLinkLoss port s
  | .portLinkUp port speed => Sys2Proof.Machine.execPortLinkUp port speed s
  | .rateStepDown port => Sys2Proof.Machine.execRateStepDown port s
  | .stepUp port => Sys2Proof.Machine.execStepUp port s
  | .lowPowerIdle port enter => Sys2Proof.Machine.execLowPowerIdle port enter s
  | .rdmaRead k qp rkey raddr len => Sys2Proof.Machine.execRdmaRead k qp rkey raddr len s
  | .rdmaWrite k qp rkey raddr data => Sys2Proof.Machine.execRdmaWrite k qp rkey raddr data s
  | .send k qp token status => Sys2Proof.Machine.execSend k qp token status s
  | .roceNak k qp => Sys2Proof.Machine.execRoceNak k qp s
  | .cnp k qp => Sys2Proof.Machine.execCnp k qp s
  | .flitReceive flit => Sys2Proof.Machine.execFlitReceive flit s
  | .ack => Sys2Proof.Machine.execAck s
  | .nak => Sys2Proof.Machine.execNak s
  | .credit => Sys2Proof.Machine.execCredit s
  | .pmReq => Sys2Proof.Machine.execPmReq s
  | .pmAck => Sys2Proof.Machine.execPmAck s
  | .pmNak => Sys2Proof.Machine.execPmNak s
  | .nakRepeat => Sys2Proof.Machine.execNakRepeat s
  | .controlFlit => Sys2Proof.Machine.execControlFlit s
  | .rdShared => Sys2Proof.Machine.execRdShared s
  | .rdOwn => Sys2Proof.Machine.execRdOwn s
  | .rdNc => Sys2Proof.Machine.execRdNc s
  | .wrNc => Sys2Proof.Machine.execWrNc s
  | .wrPart => Sys2Proof.Machine.execWrPart s
  | .evictDirty => Sys2Proof.Machine.execEvictDirty s
  | .evictClean => Sys2Proof.Machine.execEvictClean s
  | .snpInv => Sys2Proof.Machine.execSnpInv s
  | .snpShare => Sys2Proof.Machine.execSnpShare s
  | .cmp => Sys2Proof.Machine.execCmp s
  | .dataNc => Sys2Proof.Machine.execDataNc s
  | .dataS => Sys2Proof.Machine.execDataS s
  | .dataE => Sys2Proof.Machine.execDataE s
  | .srspI => Sys2Proof.Machine.execSrspI s
  | .srspS => Sys2Proof.Machine.execSrspS s
  | .srspDataI => Sys2Proof.Machine.execSrspDataI s
  | .srspDataS => Sys2Proof.Machine.execSrspDataS s
  | .clStallT => Sys2Proof.Machine.execClStallT s
  | .linkIdleT => Sys2Proof.Machine.execLinkIdleT s
  | .training lanes peer => Sys2Proof.Machine.execTraining lanes peer s
  | .trainingRetry => Sys2Proof.Machine.execTrainingRetry s
  | .retrain lanes forerunner => Sys2Proof.Machine.execRetrain lanes forerunner s
  | .linkLoss => Sys2Proof.Machine.execLinkLoss s
  | .qDoorbell k val => Sys2Proof.Machine.execQDoorbell k val s
  | .rw1cWrite addr val => Sys2Proof.Machine.execRw1cWrite addr val s
  | .syncArmVal k val => Sys2Proof.Machine.execSyncArmVal k val s
  | .clBootDone val => Sys2Proof.Machine.execClBootDone val s
  | .bootRegionTimeout => Sys2Proof.Machine.execBootRegionTimeout s
  | .mbxReqLen m len => Sys2Proof.Machine.execMbxReqLen m len s
  | .rspReady m => Sys2Proof.Machine.execRspReady m s
  | .interruptMaskWrite v mask => Sys2Proof.Machine.execInterruptMaskWrite v mask s
  | .registerWrite addr val => Sys2Proof.Machine.execRegisterWrite addr val s
  | .hello => Sys2Proof.Machine.execHello s
  | .auth => Sys2Proof.Machine.execAuth s
  | .close => Sys2Proof.Machine.execClose s
  | .read => Sys2Proof.Machine.execRead s
  | .write => Sys2Proof.Machine.execWrite s
  | .subscribe => Sys2Proof.Machine.execSubscribe s
  | .eventAck => Sys2Proof.Machine.execEventAck s
  | .poll => Sys2Proof.Machine.execPoll s
  | .attest => Sys2Proof.Machine.execAttest s
  | .keyreq => Sys2Proof.Machine.execKeyreq s
  | .keyset => Sys2Proof.Machine.execKeyset s
  | .keyload => Sys2Proof.Machine.execKeyload s
  | .decapsulationKeyExpiry k => Sys2Proof.Machine.execDecapsulationKeyExpiry k s
  | .fragmentTimeout sid seq => Sys2Proof.Machine.execFragmentTimeout sid seq s
  | .authTimeout sid => Sys2Proof.Machine.execAuthTimeout sid s
  | .sessionIdleT sid => Sys2Proof.Machine.execSessionIdleT sid s
  | .eventResend sid => Sys2Proof.Machine.execEventResend sid s
  | .periodicSubscription sid index sub => Sys2Proof.Machine.execPeriodicSubscription sid index sub s
  | .deviceReset => Sys2Proof.Machine.execDeviceReset s
  | .cprstPulse => Sys2Proof.Machine.execCprstPulse s
  | .lcSeal key => Sys2Proof.Machine.execLcSeal key s
  | .lcRma token => Sys2Proof.Machine.execLcRma token s
  | .lcDecommission serial => Sys2Proof.Machine.execLcDecommission serial s
  | .alertClear => Sys2Proof.Machine.execAlertClear s
  | .fenceClear val => Sys2Proof.Machine.execFenceClear val s
  | .portReset port => Sys2Proof.Machine.execPortReset port s
  | .releaseHoldDown port => Sys2Proof.Machine.execReleaseHoldDown port s
  | .create k => Sys2Proof.Machine.execCreate k s
  | .resize k => Sys2Proof.Machine.execResize k s
  | .partReset k => Sys2Proof.Machine.execPartReset k s
  | .destroy k => Sys2Proof.Machine.execDestroy k s
  | .qpOpen k qp => Sys2Proof.Machine.execQpOpen k qp s
  | .qpClose k qp => Sys2Proof.Machine.execQpClose k qp s
  | .creationCompletes k => Sys2Proof.Machine.execCreationCompletes k s
  | .resizeCompletes k => Sys2Proof.Machine.execResizeCompletes k s
  | .resetCompletes k => Sys2Proof.Machine.execResetCompletes k s
  | .destructionCompletes k => Sys2Proof.Machine.execDestructionCompletes k s
  | .age k => Sys2Proof.Machine.execAge k s
  | .patrolScrub tier => Sys2Proof.Machine.execPatrolScrub tier s
  | .correctableError tier unit row => Sys2Proof.Machine.execCorrectableError tier unit row s
  | .uncorrectableError place q idx addr => Sys2Proof.Machine.execUncorrectableError place q idx addr s
  | .laneWarning die module lane => Sys2Proof.Machine.execLaneWarning die module lane s
  | .laneRepair die module lane => Sys2Proof.Machine.execLaneRepair die module lane s
  | .sergeReplay die module lane => Sys2Proof.Machine.execSergeReplay die module lane s
  | .firewallDrop access => Sys2Proof.Machine.execFirewallDrop access s
  | .lockstepMismatch pair => Sys2Proof.Machine.execLockstepMismatch pair s
  | .fence cls die lidx => Sys2Proof.Machine.execFence cls die lidx s
  | .takeover cls die lidx => Sys2Proof.Machine.execTakeover cls die lidx s
  | .selfTest cls die pass => Sys2Proof.Machine.execSelfTest cls die pass s
  | .risk => Sys2Proof.Machine.execRisk s
  | .secreq k => Sys2Proof.Machine.execSecreq k s
  | .secat k => Sys2Proof.Machine.execSecat k s
  | .secdone k => Sys2Proof.Machine.execSecdone k s
  | .secok k => Sys2Proof.Machine.execSecok k s
  | .securingDrain k feed base size => Sys2Proof.Machine.execSecuringDrain k feed base size s
  | .securePeriod k => Sys2Proof.Machine.execSecurePeriod k s
  | .restore k pulled => Sys2Proof.Machine.execRestore k pulled s
  | .substitution k rank planned step standby => Sys2Proof.Machine.execSubstitution k rank planned step standby s
  | .powerEvaluation k counts => Sys2Proof.Machine.execPowerEvaluation k counts s
  | .avsbusPoll readings => Sys2Proof.Machine.execAvsbusPoll readings s
  | .pmbusPoll readings => Sys2Proof.Machine.execPmbusPoll readings s
  | .operatingPointChange slice => Sys2Proof.Machine.execOperatingPointChange slice s
  | .droop slice => Sys2Proof.Machine.execDroop slice s
  | .droopClear slice => Sys2Proof.Machine.execDroopClear slice s
  | .ageTrim die slack => Sys2Proof.Machine.execAgeTrim die slack s
  | .thermalStep slice temps => Sys2Proof.Machine.execThermalStep slice temps s
  | .hotstop temps => Sys2Proof.Machine.execHotstop temps s
  | .thermtrip temps => Sys2Proof.Machine.execThermtrip temps s
  | .referenceLost ref => Sys2Proof.Machine.execReferenceLost ref s
  | .referencePresent ref => Sys2Proof.Machine.execReferencePresent ref s
  | .pmbAlertN level status => Sys2Proof.Machine.execPmbAlertN level status s
  | .porstN level straps => Sys2Proof.Machine.execPorstN level straps s
  | .sysrstN level => Sys2Proof.Machine.execSysrstN level s
  | .romSecureBoot images fwVersion => Sys2Proof.Machine.execRomSecureBoot images fwVersion s
  | .memoryTraining far => Sys2Proof.Machine.execMemoryTraining far s
  | .bist near failed => Sys2Proof.Machine.execBist near failed s
  | .wipes => Sys2Proof.Machine.execWipes s
  | .companionImage image load entry sig => Sys2Proof.Machine.execCompanionImage image load entry sig s
  | .powerCalibration => Sys2Proof.Machine.execPowerCalibration s
  | .trstN level => Sys2Proof.Machine.execTrstN level s
  | .bypass => Sys2Proof.Machine.execBypass s
  | .samplePreload => Sys2Proof.Machine.execSamplePreload s
  | .extest => Sys2Proof.Machine.execExtest s
  | .clamp => Sys2Proof.Machine.execClamp s
  | .highz => Sys2Proof.Machine.execHighz s
  | .extestPulse => Sys2Proof.Machine.execExtestPulse s
  | .extestTrain => Sys2Proof.Machine.execExtestTrain s
  | .localAckTimeout k qp => Sys2Proof.Machine.execLocalAckTimeout k qp s
  | .rateRecovery k qp => Sys2Proof.Machine.execRateRecovery k qp s
  | .payloadFlitAckTimer => Sys2Proof.Machine.execPayloadFlitAckTimer s
  | .blankToProvisioned drs serial cert soKey => Sys2Proof.Machine.execBlankToProvisioned drs serial cert soKey s
  | .rmaToProvisioned cert => Sys2Proof.Machine.execRmaToProvisioned cert s

end Sys2Proof.Machine
end

