-- ==== Sys2Proof/Machine/Tick.lean ====
section
/-! DEFINITION. One AONCLK tick, which step takes on an empty queue (log 7): time, copies in flight, late requests, changes of
operating point under way, what waits in the collective engine, the commands of the step
service, what waits in low-power idle, the end of a pulse on CPRST_N, and the counts that begin anew each second. -/

namespace Sys2Proof.Machine

open Sys2Proof

/-- Counts kept for the present second begin anew (09 R261, 14 R415). -/
def newSecond (s : State) : State :=
  let s := s.setPorts ((s.ports.map fun e => (e.1, { e.2 with ctrlRate := 0 })).filter fun e => e.2 ≠ portDefault e.1)
  s.setRolser { s.rolser with helloSec := 0 }

/-- One tick of AONCLK; with the clocks stopped only time goes on (13 R401, R403). -/
def tick (s : State) : State :=
  let s := s.setNow (s.now + 1)
  if s.boot.clocksOff then s
  else
    let s := (List.range 16).foldl startRelock ((List.range 16).foldl endLowerWait s)
    let s := allParts.foldl (fun s k => issuePlanned (collStep (lateStep (copyStep s k) k) k) k) s
    let s := (List.range 17).foldl wakePort (endPulse s)
    if s.now.toNat % 100000000 = 0 then newSecond s else s

end Sys2Proof.Machine
end

