-- ==== Sys2Proof/Safety.lean ====
section
/-! DEFINITION. What counts as a safe state and a safe run, in the terms the claims use. -/

namespace Sys2Proof.Machine

open Sys2Proof

/-- A command answers a next state with this property. -/
def Answers (o : Host.Outcome State Fault Refusal) (p : State → Prop) : Prop := ∃ t, o = .next t ∧ p t

/-- The block runs: its clocks are on (13 R401, R403). -/
def State.running (s : State) : Prop := s.boot.clocksOff = false

/-- The companion holds no line of device memory, and no coherent transaction is open (10 R307, R308; log 47). -/
def State.calm (s : State) : Prop := s.link.dir = [] ∧ s.link.home = []

/-- Memory is in its canonical form. -/
def State.memOk (s : State) : Prop := memWf s.mem = true

/-- The transport parameters lie in the ranges of 09 Table 09.8, and DEAD_T is above REASM_TO (14 Table 14.10). -/
def Xft.inRange (x : Xft) : Prop :=
  1024 ≤ x.udp.toNat ∧ x.udp ≠ 4791 ∧ x.udp ≠ 48721 ∧ 10 ≤ x.rtoInit.toNat ∧ x.rtoInit.toNat ≤ 10000
    ∧ 5 ≤ x.rtoMin.toNat ∧ x.rtoMin.toNat ≤ 1000 ∧ 1000 ≤ x.rtoMax.toNat ∧ x.rtoMax.toNat ≤ 1000000
    ∧ 100000 ≤ x.reasmTo.toNat ∧ x.reasmTo.toNat ≤ 30000000 ∧ 1000000 ≤ x.deadT.toNat ∧ x.deadT.toNat ≤ 60000000
    ∧ x.reasmTo.toNat < x.deadT.toNat

/-- Fuses of the life cycle only ever blow (11 R348): a killed DRS stays killed, entries to RMA never fall, a decommissioned
device stays so, and the fused SVN never falls. -/
def FusesStand (t t' : Trust) : Prop :=
  (t.drsKilled = true → t'.drsKilled = true) ∧ t.rmaCount ≤ t'.rmaCount ∧ (t.lcs = 4 → t'.lcs = 4) ∧ t.svnFuse.toNat ≤ t'.svnFuse.toNat

/-! ### What a queue command answers -/

/-- The command of queue q that may start is c, of partition k (06 R171, R178), it has met no bad data (05 R160), and no coherent
transaction is open. -/
def State.ready (s : State) (q : Qid) (k c : Nat) : Prop :=
  s.calm ∧ startable s q.toNat = some (k, c) ∧ (s.queue q.toNat).bad = none

/-- The command c at HEAD of queue q starts: its own effect leaves u, its progress and outcome are r, and the next command of
the queue is read (06 R171, R165). -/
def StartsAs (o : Host.Outcome State Fault Refusal) (s : State) (q : Qid) (c : Nat) (u : State) (r : Started) : Prop :=
  o = .next (pushStarted u q.toNat (s.queue q.toNat).head c r)

/-! ### Frames: everything but the named fields stands as it did -/

/-- The fields of State but the queue of waiting commands. -/
inductive FieldName where
  | now | draws | mem | ctrs | queues | parts | vcs | mus | pipes
  | slices | dies | ports | serge | pdies | link | vectors | mailboxes | rolser
  | trust | boot | pins | power | ripstop | xft | ethTx | order | snoops
  deriving DecidableEq, Repr

/-- A field stands as it did. -/
def FieldName.same (s t : State) : FieldName → Prop
  | .now => t.now = s.now
  | .draws => t.draws = s.draws
  | .mem => t.mem = s.mem
  | .ctrs => t.ctrs = s.ctrs
  | .queues => t.queues = s.queues
  | .parts => t.parts = s.parts
  | .vcs => t.vcs = s.vcs
  | .mus => t.mus = s.mus
  | .pipes => t.pipes = s.pipes
  | .slices => t.slices = s.slices
  | .dies => t.dies = s.dies
  | .ports => t.ports = s.ports
  | .serge => t.serge = s.serge
  | .pdies => t.pdies = s.pdies
  | .link => t.link = s.link
  | .vectors => t.vectors = s.vectors
  | .mailboxes => t.mailboxes = s.mailboxes
  | .rolser => t.rolser = s.rolser
  | .trust => t.trust = s.trust
  | .boot => t.boot = s.boot
  | .pins => t.pins = s.pins
  | .power => t.power = s.power
  | .ripstop => t.ripstop = s.ripstop
  | .xft => t.xft = s.xft
  | .ethTx => t.ethTx = s.ethTx
  | .order => t.order = s.order
  | .snoops => t.snoops = s.snoops

/-- Every field but these stands as it did, and so does the queue of waiting commands. -/
def Frame (ws : List FieldName) (s t : State) : Prop := t.pending = s.pending ∧ ∀ f, f ∉ ws → f.same s t

/-- Every byte of memory whose key lies outside n keys from a reads as before. -/
def BytesStand (a n : Nat) (s t : State) : Prop := ∀ x, x < a ∨ a + n ≤ x → cellAt t.mem x = cellAt s.mem x

/-- No byte of memory changes but those behind these spans (address, length) of partition k's addresses, mapped as P maps
them (05 R125, 07 R206). -/
def StoresWithin (P : Part) (k : Nat) (spans : List (Nat × Nat)) (s t : State) : Prop :=
  ∀ key, (∀ p ∈ spans, ∀ a, p.1 ≤ a → a < p.1 + p.2 → keyOf P k a ≠ some key) → cellAt t.mem key = cellAt s.mem key

/-- Every partition stands as it was, but for the substitutions it has asked for (12 R367). -/
def PartsStand (s t : State) : Prop := ∀ k, { t.part k with subAsked := [] } = { s.part k with subAsked := [] }

/-- The spans of memory a matrix command may store to: the rows of its outputs and their scale arrays (03 R72 to R74, R86). -/
def matSpans (P : Part) (c d : Nat) : List (Nat × Nat) :=
  ((matUses P c d).filter Use.write).flatMap fun u => (List.range u.rows).map fun r => (u.base + r * u.ld.getD 0, u.per)

/-- A command that answers a next state changes these fields alone. -/
def Framed (o : Host.Outcome State Fault Refusal) (ws : List FieldName) (s : State) : Prop := ∀ t, o = .next t → Frame ws s t

/-- The fields each command may change, in its family's words (a command may leave some of them as they were). -/
def touched : Instr → List FieldName
  | .wait .. | .nop .. | .cxfer .. | .qconfig .. | .qresume .. | .loss .. | .defineDamaskPair .. | .removeEntry ..
  | .defineBuddyRange .. | .dstep .. | .join .. | .rankset .. | .confirm .. | .release .. | .gend .. | .rsigAck ..
  | .roceNak .. | .qpClose .. => [.queues, .parts, .link, .snoops]
  | .signal .. => [.ctrs, .queues, .parts, .link, .vectors, .snoops]
  | .rsignal .. | .bcast .. | .put .. | .fgather .. | .jersey .. | .answer .. | .resend .. | .call .. | .failed ..
  | .lack .. | .greq .. | .busyReclaim .. | .gholdT .. =>
    [.queues, .parts, .ports, .link, .vectors, .pins, .power, .ripstop, .ethTx, .snoops]
  | .matmul .. | .fillTile .. | .inboxWrite .. => [.mem, .queues, .parts, .vcs, .mus, .link, .snoops]
  | .modeChange .. => [.mus]
  | .planeLoad .. => [.mus, .link, .snoops]
  | .add48 .. | .add32e .. | .land .. => [.mem, .parts, .link, .snoops]
  | .vprog .. | .vEnd .. | .vLd .. | .vGather .. | .vLdexp .. => [.queues, .parts, .vcs, .link, .snoops]
  | .vNop .. | .vSeta .. | .vAdda .. | .vLoop .. | .vAdd .. | .vSub .. | .vAdds .. | .vSubs .. | .vMullo ..
  | .vMulhi .. | .vShl .. | .vShr .. | .vMin .. | .vMax .. | .vAnd .. | .vOr .. | .vXor .. | .vSel .. | .vCmpeq ..
  | .vCmplt .. | .vCmple .. | .vIota .. | .vAlign .. | .vNorm .. | .vExp2 .. | .vLog2 .. | .vRcp .. | .vRsqrt ..
  | .vLogistic .. | .vRsum .. | .vRssq .. | .vRmax .. | .vRmin .. | .vRargmax .. | .vRargmin .. | .vRcount ..
  | .vRmean .. | .vMov .. | .vTrans .. | .vShuf .. | .vSetexp .. | .vPand .. | .vPor .. | .vPxor .. | .vPnot ..
  | .vCvt .. | .vRand .. => [.queues, .parts, .vcs]
  | .vSt .. | .vScatter .. | .vSttag .. => [.mem, .queues, .parts, .vcs, .link, .snoops]
  | .promote .. | .demote .. | .pin .. | .unpin .. | .affinity .. | .clean .. | .pageRequestAccept .. =>
    [.ctrs, .queues, .parts, .link, .vectors, .order, .snoops]
  | .promotionCompletes .. | .writeBackCompletes .. | .commandCompletes .. | .cmp .. | .dataNc .. | .dataS ..
  | .dataE .. => [.mem, .ctrs, .queues, .parts, .link, .vectors, .snoops]
  | .sxferRead .. | .sxferWrite .. | .send .. | .localAckTimeout .. => [.queues, .parts, .ports, .link, .ethTx, .snoops]
  | .expose .. => [.draws, .queues, .parts, .ports, .link, .ethTx, .snoops]
  | .qpause .. => [.queues, .parts, .link, .vectors, .snoops]
  | .qreset .. | .partReset .. | .destroy .. => [.mem, .queues, .parts, .vcs, .mus, .link, .vectors, .snoops]
  | .qread .. | .microEnd .. | .backPageWrite .. | .latch .. | .refuse .. | .defineStepScratchRange .. | .ladd48 ..
  | .gdata .. => [.mem, .queues, .parts, .link, .snoops]
  | .ctrReset .. => [.ctrs, .queues, .parts, .link, .snoops]
  | .sgdWithMomentum .. | .adamw .. | .lion .. | .factored .. | .custom .. | .copy .. =>
    [.mem, .ctrs, .queues, .parts, .pipes, .link, .vectors, .order, .snoops]
  | .microMov .. | .microAdd .. | .microSub .. | .microMul .. | .microMulh .. | .microAddh .. | .microDiv ..
  | .microSqrt .. | .microSign .. | .microNeg .. | .microMax .. => [.parts, .pipes]
  | .enc .. => [.mem, .queues, .parts, .pipes, .link, .snoops]
  | .commit .. | .retrain .. | .linkLoss .. | .cprstPulse .. =>
    [.mem, .ctrs, .queues, .parts, .link, .vectors, .pins, .power, .ripstop, .snoops]
  | .phase .. => [.queues, .parts, .slices, .dies, .link, .snoops]
  | .slotopen .. => [.mem, .ctrs, .queues, .parts, .ports, .link, .vectors, .pins, .power, .ripstop, .ethTx, .order, .snoops]
  | .contrib .. | .hvote .. | .vote .. | .voteBc .. | .sealTo .. | .voteDeadline .. | .voteBcTimeout .. =>
    [.mem, .queues, .parts, .ports, .link, .vectors, .pins, .power, .ripstop, .ethTx, .snoops]
  | .claim .. | .deadline .. | .xftData .. | .xftAck .. | .xftNack .. | .probe .. | .ackTimer ..
  | .retransmissionTimer .. | .probeTimer .. | .reasmTo .. | .secreq .. | .secat .. | .secdone .. | .secok ..
  | .securePeriod .. => [.parts, .ports, .link, .vectors, .pins, .power, .ripstop, .ethTx, .snoops]
  | .data .. | .seal .. => [.mem, .ctrs, .queues, .parts, .ports, .link, .vectors, .pins, .power, .ripstop, .ethTx, .snoops]
  | .placed .. => [.ctrs, .queues, .parts, .ports, .link, .vectors, .pins, .power, .ripstop, .ethTx, .snoops]
  | .lseal .. | .rsig .. => [.ctrs, .parts, .ports, .link, .vectors, .pins, .power, .ripstop, .ethTx, .snoops]
  | .deadT .. => [.queues, .parts, .link, .vectors, .pins, .power, .ripstop, .snoops]
  | .slotEmptied .. | .cnp .. | .qpOpen .. | .rateRecovery .. => [.parts, .link, .snoops]
  | .receiveFrame .. => [.mem, .queues, .parts, .ports, .mailboxes, .rolser, .ethTx, .snoops]
  | .arp .. => [.parts, .ports, .ethTx]
  | .lldp .. => [.ports]
  | .txUnderrun .. | .lowPowerIdle .. => [.ports, .ethTx]
  | .portLinkLoss .. | .rateStepDown .. | .stepUp .. | .portReset .. =>
    [.parts, .ports, .link, .vectors, .pins, .power, .ripstop, .ethTx]
  | .portLinkUp .. => [.ports, .rolser]
  | .rdmaRead .. => [.parts, .ports, .link, .ethTx, .snoops]
  | .rdmaWrite .. => [.mem, .queues, .parts, .ports, .link, .ethTx, .snoops]
  | .flitReceive .. | .ack .. | .nak .. | .credit .. | .pmReq .. | .pmAck .. | .pmNak .. | .nakRepeat ..
  | .controlFlit .. | .snpInv .. | .snpShare .. | .linkIdleT .. | .trainingRetry .. | .payloadFlitAckTimer .. => [.link]
  | .rdShared .. | .rdOwn .. | .rdNc .. | .syncArmVal .. => [.parts, .link, .vectors, .snoops]
  | .wrNc .. | .wrPart .. => [.mem, .queues, .parts, .link, .vectors, .mailboxes, .rolser, .order, .snoops]
  | .evictDirty .. | .evictClean .. | .srspI .. | .srspS .. | .srspDataI .. | .srspDataS .. =>
    [.mem, .parts, .link, .vectors, .snoops]
  | .clStallT .. | .bootRegionTimeout .. | .interruptMaskWrite .. => [.link, .vectors]
  | .training .. | .correctableError .. | .lockstepMismatch .. => [.parts, .link, .vectors, .pins, .power, .ripstop]
  | .qDoorbell .. => [.queues, .parts, .link, .vectors, .order, .snoops]
  | .rw1cWrite .. | .clBootDone .. | .registerWrite .. =>
    [.queues, .parts, .link, .vectors, .mailboxes, .rolser, .order, .snoops]
  | .mbxReqLen .. => [.link, .mailboxes, .rolser]
  | .rspReady .. => [.link, .vectors, .mailboxes]
  | .hello .. => [.draws, .ports, .link, .vectors, .mailboxes, .rolser, .ethTx]
  | .auth .. | .close .. | .subscribe .. | .eventAck .. | .poll .. | .attest .. | .authTimeout .. | .eventResend ..
  | .periodicSubscription .. => [.ports, .link, .vectors, .mailboxes, .rolser, .ethTx]
  | .read .. => [.draws, .ports, .link, .vectors, .mailboxes, .rolser, .trust, .ethTx]
  | .write .. =>
    [.now, .mem, .ctrs, .queues, .parts, .vcs, .mus, .pipes, .slices, .dies, .ports, .serge, .pdies, .link, .vectors, .mailboxes, .rolser, .trust, .boot, .pins, .power, .ripstop, .xft, .ethTx, .order, .snoops]
  | .keyreq .. => [.draws, .parts, .ports, .link, .vectors, .mailboxes, .rolser, .ethTx]
  | .keyset .. | .keyload .. => [.queues, .parts, .ports, .link, .vectors, .mailboxes, .rolser, .ethTx]
  | .decapsulationKeyExpiry .. | .age .. => [.parts]
  | .fragmentTimeout .. | .sessionIdleT .. => [.rolser]
  | .deviceReset .. | .lcSeal .. | .lcRma .. | .lcDecommission .. | .sysrstN .. | .blankToProvisioned ..
  | .rmaToProvisioned .. =>
    [.now, .mem, .ctrs, .queues, .parts, .vcs, .mus, .pipes, .slices, .dies, .ports, .serge, .pdies, .link, .vectors, .mailboxes, .rolser, .trust, .boot, .pins, .power, .ripstop, .snoops]
  | .alertClear .. | .avsbusPoll .. | .pmbusPoll .. | .pmbAlertN .. => [.pins, .power]
  | .fenceClear .. | .patrolScrub .. => [.ripstop]
  | .releaseHoldDown .. => [.parts, .ports, .pins, .power, .ripstop]
  | .create .. | .resize .. | .powerEvaluation .. => [.parts, .slices, .dies]
  | .creationCompletes .. => [.draws, .mem, .ctrs, .queues, .parts, .vcs, .mus, .pipes]
  | .resizeCompletes .. => [.mem, .ctrs, .queues, .parts, .vcs, .mus, .pipes, .slices, .dies, .link, .vectors, .snoops]
  | .resetCompletes .. =>
    [.draws, .mem, .ctrs, .queues, .parts, .vcs, .mus, .pipes, .slices, .dies, .link, .vectors, .mailboxes, .rolser, .snoops]
  | .destructionCompletes .. =>
    [.mem, .ctrs, .queues, .parts, .vcs, .mus, .pipes, .slices, .dies, .link, .vectors, .mailboxes, .rolser, .snoops]
  | .uncorrectableError .. =>
    [.mem, .ctrs, .queues, .parts, .vcs, .ports, .link, .vectors, .pins, .power, .ripstop, .ethTx, .snoops]
  | .laneWarning .. | .laneRepair .. | .sergeReplay .. => [.parts, .serge, .link, .vectors, .pins, .power, .ripstop]
  | .firewallDrop .. => [.parts, .ports, .pdies, .link, .vectors, .pins, .power, .ripstop, .ethTx]
  | .fence .. | .takeover .. => [.mem, .queues, .parts, .vcs, .mus, .pipes, .link, .vectors, .pins, .power, .ripstop, .snoops]
  | .selfTest .. => [.mem, .queues, .parts, .vcs, .mus, .pipes, .serge, .link, .vectors, .pins, .power, .ripstop, .snoops]
  | .risk .. => [.parts, .pins, .power, .ripstop]
  | .securingDrain .. => [.mem, .queues, .parts, .vcs, .mus, .ports, .link, .vectors, .pins, .power, .ripstop, .ethTx, .snoops]
  | .restore .. => [.mem, .ctrs, .queues, .parts, .vcs, .mus, .link, .vectors, .pins, .power, .ripstop, .snoops]
  | .substitution .. => [.mem, .queues, .parts, .link, .vectors, .pins, .power, .ripstop, .snoops]
  | .operatingPointChange .. => [.slices, .dies]
  | .droop .. => [.parts, .slices, .link, .vectors, .pins, .power, .ripstop]
  | .droopClear .. => [.slices]
  | .ageTrim .. | .thermalStep .. => [.slices, .dies, .power]
  | .hotstop .. => [.parts, .slices, .dies, .link, .vectors, .pins, .power, .ripstop]
  | .thermtrip .. => [.boot, .pins, .power]
  | .referenceLost .. =>
    [.mem, .ctrs, .queues, .parts, .ports, .link, .vectors, .boot, .pins, .power, .ripstop, .ethTx, .snoops]
  | .referencePresent .. => [.link, .pins]
  | .porstN .. =>
    [.now, .ctrs, .queues, .parts, .vcs, .mus, .pipes, .slices, .dies, .ports, .serge, .pdies, .link, .vectors, .mailboxes, .rolser, .trust, .boot, .pins, .power, .ripstop, .snoops]
  | .romSecureBoot .. => [.parts, .trust, .boot, .pins, .power, .ripstop]
  | .memoryTraining .. | .powerCalibration .. => [.parts, .boot, .pins, .power, .ripstop]
  | .bist .. => [.mem, .queues, .parts, .vcs, .mus, .pipes, .serge, .link, .vectors, .boot, .pins, .power, .ripstop, .snoops]
  | .wipes .. => [.mem, .parts, .boot, .pins, .power, .ripstop]
  | .companionImage .. => [.link, .trust, .boot, .pins]
  | .trstN .. | .bypass .. | .samplePreload .. | .extest .. | .clamp .. | .highz .. | .extestPulse .. | .extestTrain .. =>
    [.pins]

/-! ### What a vector instruction leaves -/

/-- The program goes on at this index: there is an instruction there, of a known opcode (04 R102, R103). -/
def Vc.goesOn (v : Vc) (pc : Nat) : Prop := ∃ y, v.prog[pc]? = some y ∧ opcodeKnown (iOpc y.toNat) = true

/-- Core n runs the command of ring index i of queue q, of partition k, with command word c, and its next instruction x has
this opcode (04 R95, R103). -/
def State.atInstr (s : State) (n opc : Nat) (q : BitVec 20) (i : BitVec 24) (k c x : Nat) : Prop :=
  vcReady s n opc = some (q, i, k, c, x)

/-- Only core n, the queue's counters and started commands and the partition's counters change, and the core goes on at pc
with these registers. -/
def CoreStep (s t : State) (n pc : Nat) (f : Vc → Prop) : Prop :=
  Frame [.vcs, .parts, .queues] s t ∧ (∀ m, m ≠ n → t.vc m = s.vc m) ∧ (t.vc n).pc = pc ∧ f (t.vc n)

/-- Every part of a core but its tiles, their tags, the predicates, the address registers and the instruction index. -/
def Vc.bare (v : Vc) : Vc := { v with tiles := [], tags := [], preds := [], aregs := [], pc := 0 }

/-- Nothing of a core changes but tile td, its tags and the instruction index. -/
def TileOnly (v u : Vc) (td : Nat) : Prop :=
  u.bare = v.bare ∧ u.preds = v.preds ∧ u.aregs = v.aregs ∧ ∀ t, t ≠ td → u.tile t = v.tile t ∧ u.tagWord t = v.tagWord t

/-- Row i of tile td after an operation under the mask of x (04 R101, R107): a row without an active element keeps its code,
and its elements unless ZM zeroes them; a NaN row has code 0xFF and zero elements; any other takes the code, the new value
where active, and the old one, or zero under ZM, where not. -/
def RowLeft (v u : Vc) (x td i : Nat) (nan : Bool) (els : List Int) (code : Int) : Prop :=
  let w := iWidth x
  let act := v.active (iPred x) w i
  if act.any id = false then u.rowBits td i = (if iZm x then 0 else v.rowBits td i) ∧ u.tag td i = v.tag td i
  else if nan = true ∨ code < 0 ∨ 254 < code then u.rowBits td i = 0 ∧ u.tag td i = 0xFF
  else u.tag td i = code.toNat ∧ ∀ j < 1024 / w, (u.els w td i).getD j 0 =
    if act.getD j false then pat w (els.getD j 0) else if iZm x then 0 else (v.els w td i).getD j 0

/-- Row i of predicate pd after an operation under the mask of x (04 R100, R101). -/
def PredLeft (v u : Vc) (x pd i : Nat) (bits : List Bool) : Prop :=
  let w := iWidth x
  ∀ j < 1024 / w, (u.active (8 + pd) w i).getD j false =
    if (v.active (iPred x) w i).getD j false then bits.getD j false else if iZm x then false else (v.active (8 + pd) w i).getD j false

/-- A step neither stops nor leaves memory out of form: a safe step. -/
def SafeStep (s : State) : Prop := Answers (step s) State.memOk

end Sys2Proof.Machine
end

