-- ==== Sys2Proof/WellFormed.lean ====
section
/-! DEFINITION. Which commands the outside world can give: operand lengths and field values the spec fixes. Every meaning is
total; an ill-formed command is one that no run of the hardware contains. -/

namespace Sys2Proof

/-- OP of a micro-operation word (07 Table 07.6). -/
def microOpcode (w : BitVec 32) : Nat := (w.extractLsb' 27 5).toNat

/-- Sensor readings: one byte for each of 80 sensors (14 Table 14.8). -/
def tempsOk (t : Bytes) : Bool := t.length = 80

/-- Tiers of memory: 0 SRAM, 1 near, 2 far (05). -/
def tierOk (t : BitVec 2) : Bool := t ≠ 3

/-- A firmware image in flash: one copy or two (11 R349). -/
def copiesOk (l : List (BitVec 32 × Bytes × Bytes × Bytes)) : Bool := 1 ≤ l.length && l.length ≤ 2

/-- Whether a command is one the hardware can be given. -/
def Instr.wf : Instr → Bool
  | .microEnd _ w => microOpcode w = 0x00
  | .microMov _ w => microOpcode w = 0x01
  | .microAdd _ w => microOpcode w = 0x02
  | .microSub _ w => microOpcode w = 0x03
  | .microMul _ w => microOpcode w = 0x04
  | .microMulh _ w => microOpcode w = 0x05
  | .microAddh _ w => microOpcode w = 0x06
  | .microDiv _ w => microOpcode w = 0x07
  | .microSqrt _ w => microOpcode w = 0x08
  | .microSign _ w => microOpcode w = 0x09
  | .microNeg _ w => microOpcode w = 0x0A
  | .microMax _ w => microOpcode w = 0x0B
  | .enc _ w => microOpcode w = 0x0C
  | .avsbusPoll r => r.length = 5
  | .pmbusPoll r => r.length = 10
  | .thermalStep _ t | .hotstop t | .thermtrip t => tempsOk t
  | .patrolScrub t | .correctableError t _ _ => tierOk t
  | .romSecureBoot l _ => l ≠ [] && l.all copiesOk
  | .companionImage i _ _ _ => i.length ≤ 0x3FFF000
  | .blankToProvisioned d _ c k => d.length = 32 && c.length ≤ 6144 && k.length = 1952
  | .rmaToProvisioned c => c.length ≤ 6144
  | .lcSeal k => k = [] || k.length = 1952
  | .lcRma t => t.length = 3309
  | _ => true

end Sys2Proof
end

