-- ==== Sys2Proof/Certificates/Slice0/Obligations.lean ====
section
/-! DEFINITION. The statements for the provers, from the numbered rules of the spec. Where a statement rests on a choice of
the model, its text names the log entry. -/

open Sys2Proof Sys2Proof.Machine

/-- With command c at the front of the queue of waiting commands, step answers exactly what exec of c answers on the state
with the rest of the queue. The queue is the model's own (log 1). (00 Scope, 95 What each step holds) -/
def Obligations.StepRunsTheFrontCommand : Prop :=
  ∀ (s : State) (c : Instr) (rest : List Instr), s.pending = c :: rest → step s = exec c (s.setPending rest)

/-- On an empty queue step answers the tick: the AONCLK count rises by one modulo 2^64 and the queue stays empty; with the
clocks stopped nothing else changes (the model's choice, log 7). The table of commands gives no row any bits:
decodeTableWord answers none for every word, and placing a word changes no state. (13 R402, 05 R145, 00 Scope) -/
def Obligations.EmptyQueueTicks : Prop :=
  (∀ s : State, s.pending = [] →
    Answers (step s) fun t => t.now = s.now + 1 ∧ t.pending = [] ∧ (s.boot.clocksOff = true → t = s.setNow (s.now + 1))) ∧
  (∀ (s : State) (n w : Nat), decodeTableWord n w = none ∧ s.withFetchWord n w = s)

/-- After reset every partition is FREE, every queue DISABLED with HEAD = TAIL = 0 and EXP_SEQ 0, every sync counter zero,
every byte of memory zero, every flag and event counter of the queue pages clear, the queue of waiting commands empty,
the transport parameters in their ranges and memory in its canonical form. (11 R322, 06 R161, 06 R182, 11 R347, 05 R127,
07 R190, 09 Table 09.8, 14 Table 14.10) -/
def Obligations.ResetState : Prop :=
  State.reset.pending = [] ∧ State.reset.memOk ∧ State.reset.xft.inRange ∧ State.reset.calm ∧
  (∀ k, (State.reset.part k).st = .free ∧ (State.reset.part k).qpage.event = 0 ∧ (State.reset.part k).pages = []) ∧
  (∀ q, (State.reset.queue q).st = .disabled ∧ (State.reset.queue q).head = 0 ∧ (State.reset.queue q).tail = 0
    ∧ (State.reset.queue q).expSeq = 0 ∧ (State.reset.queue q).started = []) ∧
  (∀ c, State.reset.ctr c = 0) ∧ (∀ a, cellAt State.reset.mem a = 0)

/-- From every state whose memory lists rising keys and no zero byte, every step that answers a next state answers one whose
memory has that form. So equal memories are equal data. (05 R125, 11 R347) -/
def Obligations.StepKeepsMemoryForm : Prop :=
  ∀ s t : State, s.memOk → step s = .next t → t.memOk

/-- From every state, every step that answers a next state leaves a killed DRS killed, a decommissioned device
decommissioned, the count of entries to RMA no smaller and the fused security version no smaller. (11 R348) -/
def Obligations.FusesStayBlown : Prop :=
  ∀ s t : State, step s = .next t → FusesStand s.trust t.trust

/-- From every state whose transport parameters lie in the ranges their entries allow, with DEAD_T above REASM_TO, every
step that answers a next state leaves them so. (09 Table 09.8, 14 Table 14.10, 09 R276, 09 R279) -/
def Obligations.TransportParametersStayInRange : Prop :=
  ∀ s t : State, s.xft.inRange → step s = .next t → t.xft.inRange

/-- Every command on every state answers a next state, never a fault or a refusal, and leaves the queue of waiting commands
as it was: an error of a command is a status, a flag or an event of the state (log 1). (06 R165, 06 R173) -/
def Obligations.EveryCommandIsAnswered : Prop :=
  ∀ (i : Instr) (s : State), Answers (exec i s) fun t => t.pending = s.pending

/-- For memory in canonical form: bytes written from a key on read back as written; every byte of another key reads as
before; the form is kept; writing what is already there changes nothing. (05 R125, 01 R7) -/
def Obligations.MemoryReadAfterWrite : Prop :=
  ∀ (m : List Host.Cell) (a : Nat) (b : Bytes), memWf m = true →
    memRead (memWrite m a b) a b.length = b ∧ memWf (memWrite m a b) = true ∧
    (∀ x, x < a ∨ a + b.length ≤ x → cellAt (memWrite m a b) x = cellAt m x) ∧
    memWrite m a (memRead m a b.length) = m

/-- Adding a partial of at most 33 bits to an accumulator whose V has 54 bits leaves a V of 54 bits, as merging two
accumulators does; a NaN accumulator stays NaN under both; a zero partial changes nothing; and every finite (V, X) in
range, and the NaN, is read back from its 64-bit image as it was. (03 R69, 03 R74, 02 R38) -/
def Obligations.S48Arithmetic : Prop :=
  (∀ v x p e : Int, -(2 ^ 53) ≤ v → v < 2 ^ 53 → -(2 ^ 32) ≤ p → p < 2 ^ 32 →
    -(2 ^ 53) ≤ (s48Add (v, x) p e).1 ∧ (s48Add (v, x) p e).1 < 2 ^ 53) ∧
  (∀ v x w y : Int, -(2 ^ 53) ≤ v → v < 2 ^ 53 → -(2 ^ 53) ≤ w → w < 2 ^ 53 →
    -(2 ^ 53) ≤ (s48Merge (v, x) (w, y)).1 ∧ (s48Merge (v, x) (w, y)).1 < 2 ^ 53) ∧
  (∀ v p e : Int, s48Add (v, -512) p e = (0, -512)) ∧ (∀ v x e : Int, x ≠ -512 → s48Add (v, x) 0 e = (v, x)) ∧
  (∀ v w y : Int, s48Merge (v, -512) (w, y) = (0, -512) ∧ s48Merge (w, y) (v, -512) = (0, -512)) ∧
  (∀ v x : Int, -(2 ^ 53) ≤ v → v < 2 ^ 53 → -511 ≤ x → x ≤ 511 → s48Of (s48To (v, x)) = (v, x)) ∧
  (∀ v : Int, s48Of (s48To (v, -512)) = (0, -512))

/-- encode_group keeps the number of elements and bounds each by 2^(n-1) - 1; its code is 0xFF exactly when a NaN is among
the values, and then every element is zero; a group of finite zeros takes code 0x00 with zero elements and no event.
encode_plain stays within its limits (-7 to 7 for S4 but for the NaN code 0b1000), and an integer within the limits
under tensor exponent t is stored as it is and decodes to itself without an event. (02 R42, 02 R43, 02 R44) -/
def Obligations.EncodingBounds : Prop :=
  (∀ (n : Nat) (vs : List Exact), 2 ≤ n →
    let r := encodeGroup n vs
    r.2.1.length = vs.length ∧ (∀ x ∈ r.2.1, -(2 ^ (n - 1) - 1 : Int) ≤ x ∧ x ≤ 2 ^ (n - 1) - 1) ∧
    (r.1 = 0xFF ↔ ∃ v ∈ vs, v.cls = .nan) ∧ (r.1 = 0xFF → ∀ x ∈ r.2.1, x = 0) ∧
    ((∀ v ∈ vs, v.cls = .fin ∧ v.m = 0) → r.1 = 0 ∧ (∀ x ∈ r.2.1, x = 0) ∧ r.2.2 = {})) ∧
  (∀ (n : Nat) (t : Int) (v : Exact), n = 4 ∨ n = 8 ∨ n = 16 ∨ n = 32 →
    let r := encodePlain n t v
    (v.cls ≠ .nan → (if n = 4 then -7 else -(2 ^ (n - 1))) ≤ r.1 ∧ r.1 ≤ 2 ^ (n - 1) - 1) ∧
    (v.cls = .nan → r.1 = if n = 4 then 8 else 0)) ∧
  (∀ (f : Nat) (t x : Int), f ≤ 3 → (if f = 0 then -7 else -(2 ^ (fmtBits f - 1))) ≤ x → x ≤ 2 ^ (fmtBits f - 1) - 1 →
    encodePlain (fmtBits f) t (exactOf x t) = (x, {}) ∧ decodePlain f t (pat (fmtBits f) x) = exactOf x t)

/-- While the clocks run, ADD48 at an aligned writable slot leaves there the image of the merge of the stored slot with the
incoming image, and ADD32E the image of the stored slot plus the S32 value at its exchange exponent; every other byte
reads as before and nothing else but page records changes. An addition that may not be written (unaligned, unmapped or
in a guarded range) changes nothing. (05 R153, 03 R69, 03 R74, 05 R126, 07 R207) -/
def Obligations.AdderOperations : Prop :=
  ∀ (s : State) (k : Fin 16) (addr : BitVec 48) (img : BitVec 64) (val : BitVec 32) (exp : BitVec 8), s.running → s.calm →
    let a := addr.toNat
    let old := s48Of (s.loadNat k a 8)
    let ok := a % 8 = 0 ∧ writable (s.part k) a 8 = true
    (ok → ∃ key, keyOf (s.part k) k a = some key ∧
      (Answers (exec (.add48 k addr img) s) fun t =>
        memRead t.mem key 8 = toLe 8 (s48To (s48Merge old (s48Of img.toNat))) ∧ BytesStand key 8 s t ∧ Frame [.mem, .parts] s t) ∧
      (Answers (exec (.add32e k addr val exp) s) fun t =>
        memRead t.mem key 8 = toLe 8 (s48To (s48Add old val.toInt exp.toInt)) ∧ BytesStand key 8 s t ∧ Frame [.mem, .parts] s t)) ∧
    (¬ok → exec (.add48 k addr img) s = .next s ∧ exec (.add32e k addr val exp) s = .next s)

/-- Every element (i, n) of an M by N output lies in exactly one output tile, its number below the tile count. (03 R88, 03
Table 03.1) -/
def Obligations.TilesCoverTheOutput : Prop :=
  ∀ c i n : Nat, i < mM c → n < mN c →
    ∃ t, t < tileCount c ∧ i ∈ tileRows c t ∧ n ∈ tileCols c t ∧
      ∀ t', t' < tileCount c → i ∈ tileRows c t' → n ∈ tileCols c t' → t' = t

/-- A matrix or fill command that fails validation ends with the status and address validation gives, stores nothing and
changes nothing but its queue and the age of the page its descriptor was read from. With M = 0 or N = 0 a valid one is
done, with DEGEN. A valid fill command is left to its tiles, in ascending order, with the descriptor and the masks as
validation read them. A valid matrix command waits while an MU of it is in the other mode, and in Quad mode while no
quad is free; otherwise it starts on its MUs, or on the first free quad: its tiles are dealt to them and run or wait,
DEGEN tells K = 0, only memory, page records, inbox tiles, its MUs and its queue and partition counters change, and
memory only inside the rows of its outputs and their scale arrays. (03 R84, 03 R85, 03 R88, 03 R93, 03 R67, 03 R79, 03
R86, 06 R180, 06 R181, 05 R126) -/
def Obligations.MatmulStarts : Prop :=
  ∀ (s : State) (q : Qid) (k c : Nat), s.ready q k c → (hdrClass c = 0 ∨ hdrClass c = 6) → hdrKind c = 0x10 →
    let sl := targetSlice (s.part k) c
    let v := matValidate s k sl c
    let p := (popFront s q.toNat).noteIf k (mDesc c) 128
    let d := s.loadNat k (mDesc c) 128
    let masks := pinMasks s k c d
    (v.1 ≠ stOK → StartsAs (exec (.matmul q) s) s q c p (failed v.1 1 v.2)) ∧
    (v.1 = stOK → mM c = 0 ∨ mN c = 0 → StartsAs (exec (.matmul q) s) s q c p { degen := true }) ∧
    (v.1 = stOK → mM c ≠ 0 → mN c ≠ 0 → hdrClass c = 6 →
      StartsAs (exec (.matmul q) s) s q c p
        { work := .tiles (List.range (tileCount c)), degen := mK c = 0, desc := BitVec.ofNat 1024 d, aux := masks }) ∧
    (v.1 = stOK → mM c ≠ 0 → mN c ≠ 0 → hdrClass c = 0 → musReady s sl c = none → exec (.matmul q) s = .next s) ∧
    (v.1 = stOK → mM c ≠ 0 → mN c ≠ 0 → hdrClass c = 0 → ∀ mus qd, musReady s sl c = some (mus, qd) →
      let x : MJob := { k := k, q := q.toNat, idx := (s.queue q.toNat).head, c := c, d := d, masks := masks, sl := sl }
      let e := startTiles (noteOperands p k (matUses (s.part k) c d)) x mus qd
      StartsAs (exec (.matmul q) s) s q c e.1
        { e.2 with degen := mK c = 0, desc := BitVec.ofNat 1024 d, aux := masks, mus := mus, quadIx := qd } ∧
      Frame [.mem, .parts, .queues, .vcs, .mus, .snoops] s e.1 ∧ StoresWithin (s.part k) k (matSpans (s.part k) c d) s e.1)

/-- Whatever list of MUs, and whatever quad of them, the tiles of a command are dealt to, the memory, page records and
conversion counters they leave are the same, and so are the status, address and completion bits. (03 R89, 03 R70) -/
def Obligations.MatmulIndependentOfMus : Prop :=
  ∀ (s : State) (x : MJob) (mus mus' ts : List Nat) (q q' : Nat) (r : Started),
    let a := runTiles s x mus q ts r
    let b := runTiles s x mus' q' ts r
    a.1.mem = b.1.mem ∧ a.1.parts = b.1.parts ∧ a.1.queues = b.1.queues ∧
    a.2.1.status = b.2.1.status ∧ a.2.1.faddr = b.2.1.faddr ∧ a.2.1.sat = b.2.1.sat ∧ a.2.1.nanIn = b.2.1.nanIn
      ∧ a.2.1.flush = b.2.1.flush ∧ a.2.1.strict = b.2.1.strict

/-- While the clocks run: an MU that fits the queue's oldest fill command with a tile left (its slice, its mask, its mode,
no takeover due), with a quad that has a free drain buffer and no fill command of another queue before it, runs that
command's first tile left: it stores to that tile's spans alone, and the command then has one tile fewer, or its work
ends; on any other MU nothing runs. An MU whose drain credits are all back takes the mode commanded and keeps all else;
one with a drain write waiting keeps its mode. For the tile that waits first in a quad of an MU in its mode, the next
cube row of a plane is written once that row's credit is there: the row's cubes take the block, the credit leaves, the
row counts as loaded, and no other cube, plane or MU changes; in any other case nothing happens. (06 R178, 06 R180, 06
R181, 03 R63, 03 R64, 03 R66, 03 R67, 03 R89, 12 R352) -/
def Obligations.FillModeAndPlanes : Prop :=
  ∀ (s : State) (q : Qid) (mu : Fin 96) (quad : Bool) (qr qc : Fin 2) (plane : Fin 2) (row : Fin 8), s.running → s.calm →
    let qd := 2 * qr.val + qc.val
    (∀ (k i : Nat) (r : Started) (t : Nat) (ts : List Nat), ownerOf s q.toNat = some k → fillCmd (s.queue q.toNat) = some r →
      fillQuad (s.mu mu.val) = some i → r.work = .tiles (t :: ts) →
      let may := fillFits s k (mu.val / 6) (mu.val % 6) r = true ∧ fillOutranked s k q.toNat (mu.val / 6) (mu.val % 6) r = false
      let x : MJob := { jobOf s k q.toNat r with sl := mu.val / 6 }
      (may → Answers (exec (.fillTile q mu) s) fun u =>
        Frame [.mem, .parts, .queues, .vcs, .mus, .snoops] s u
          ∧ StoresWithin (s.part k) k (tileSpans (noteOperands s k (matUses (s.part k) x.c x.d)) x (mu.val % 6) i t) s u
          ∧ (u.queue q.toNat).head = (s.queue q.toNat).head
          ∧ (u.queue q.toNat).started.length = (s.queue q.toNat).started.length
          ∧ ∀ r' ∈ (u.queue q.toNat).started, r'.idx = r.idx → r'.cmd = r.cmd ∧
              (r'.work = .tiles ts ∧ ts ≠ [] ∨ r'.work = .done ∨ r'.work = .inbox)) ∧
      (¬may → exec (.fillTile q mu) s = .next s)) ∧
    (fillQuad (s.mu mu.val) = none ∨ fillCmd (s.queue q.toNat) = none → exec (.fillTile q mu) s = .next s) ∧
    (drainOut s mu = false → Answers (exec (.modeChange mu quad) s) fun t =>
      t.mu mu = { s.mu mu with quad := quad } ∧ (∀ x, x ≠ mu.val → t.mu x = s.mu x) ∧ Frame [.mus] s t) ∧
    (drainOut s mu = true → exec (.modeChange mu quad) s = .next s) ∧
    (∀ (k : Nat) (r : Started) (t : Nat) (l : Nat × Piece × Piece × Int), headTile s mu.val qd = some (k, r, t) →
      nextLoad (s.mu mu.val) qd plane.val r.cmd.toNat = some l →
      let m := s.mu mu.val
      let c := r.cmd.toNat
      let i := qd * 2 + plane.val
      let bits := creditMask (mQuad c) qd plane.val row.val
      let cube (cc : Nat) : Nat := (plane.val * 8 + quadRow (mQuad c) qd + row.val) * 8 + quadCol (mQuad c) qd + cc
      let pl := planeOf c r.aux ((tileCols c t).map fun n => (vecB s k c r.desc.toNat n).1) l.1 l.2.2.1
      let may := m.quad = mQuad c ∧ (tget {} m.info i).rows = row.val ∧ row.val < cubeRows c ∧ m.credits &&& bits = bits
      (may → Answers (exec (.planeLoad mu qr qc plane row) s) fun u =>
        let m' := u.mu mu.val
        (∀ cc < (if mQuad c then 4 else 8), tget 0 m'.cubes (cube cc) = cubeBits c pl row.val cc) ∧
        (∀ j, (∀ cc < (if mQuad c then 4 else 8), j ≠ cube cc) → tget 0 m'.cubes j = tget 0 m.cubes j) ∧
        m'.credits = m.credits &&& ~~~bits ∧ tget {} m'.info i = infoOf pl (row.val + 1) ∧
        (∀ j, j ≠ i → tget {} m'.info j = tget {} m.info j) ∧ m'.quad = m.quad ∧ m'.queue = m.queue ∧ m'.bufs = m.bufs ∧
        (∀ x, x ≠ mu.val → u.mu x = s.mu x) ∧ Frame [.mus] s u) ∧
      (¬may → exec (.planeLoad mu qr qc plane row) s = .next s)) ∧
    (headTile s mu.val qd = none → exec (.planeLoad mu qr qc plane row) s = .next s)

/-- A vector command that fails validation ends with that status and changes nothing but its queue and the age of the pages
it read. While a core of its mask is busy or about to be taken over it waits. A valid one that may start starts every
core of the mask, and no other, at instruction 0 of the program read at PROG_ADDR, with A1 to A14 from the argument
block, A15 the core's ordinal, A0 reading zero, predicates and T0 to T23 cleared and T24 to T31 kept, and the program
goes on or faults at once. (04 R98, 04 R117, 04 R118, 06 R171, 05 R126) -/
def Obligations.VprogStarts : Prop :=
  (∀ (s : State) (q : Qid) (k : Nat) (c : BitVec 512), s.calm → ownerOf s q.toNat = some k → (s.queue q.toNat).front = some c →
    isKind 1 0x10 c.toNat = true → ∀ n ∈ vcsOf (targetSlice (s.part k) c.toNat) c.toNat,
    ((s.vc n).run.isSome = true ∨ (s.block clsVc (n / 16) (n % 16)).due = true) → exec (.vprog q) s = .next s) ∧
  (∀ (s : State) (q : Qid) (k c : Nat), s.ready q k c → isKind 1 0x10 c = true →
    let sl := targetSlice (s.part k) c
    let v := vValidate s k sl c
    let vs := vcsOf sl c
    let prog := (List.range (vPlen c)).map fun i => BitVec.ofNat 64 (s.loadNat k (vProgAddr c + 8 * i) 8)
    let first : Prop := ∃ y, prog[0]? = some y ∧ opcodeKnown (iOpc y.toNat) = true
    (v.1 ≠ stOK → StartsAs (exec (.vprog q) s) s q c (((popFront s q.toNat).noteIf k (vArg c) 112).noteIf k (vProgAddr c) (8 * vPlen c))
      (failed v.1 2 v.2 (vs.headD 0))) ∧
    (v.1 = stOK → first → ∃ u, StartsAs (exec (.vprog q) s) s q c u { work := .vector } ∧
      Frame [.vcs, .parts, .queues, .snoops] s u ∧ (∀ n, n ∉ vs → u.vc n = s.vc n) ∧
      ∀ j n, vs[j]? = some n → (u.vc n).prog = prog ∧ (u.vc n).pc = 0 ∧ (u.vc n).run = some (q, (s.queue q.toNat).head)
        ∧ (u.vc n).ended = false ∧ (u.vc n).areg 0 = 0 ∧ (u.vc n).areg 15 = j ∧ (u.vc n).preds = []
        ∧ (∀ i, 1 ≤ i → i ≤ 14 → (u.vc n).areg i = s.loadNat k (vArg c + 8 * (i - 1)) 8)
        ∧ (∀ t, t < 24 → (u.vc n).tile t = 0) ∧ (∀ t, 24 ≤ t → (u.vc n).tile t = (s.vc n).tile t)))

/-- NOP goes on at the next instruction. SETA sets its address register to the immediate; ADDA to its source plus the
immediate, both modulo 2^48. LOOP on a non-zero register counts it down by one and goes on at its own index plus the
offset; on zero it goes on at the next instruction. A0 reads zero whatever is written. Nothing else of the core, and no
other core, changes. (04 R96, 04 R102, 04 R104, 04 R118, 04 Table 04.5) -/
def Obligations.VectorControlRows : Prop :=
  ∀ (s : State) (n : Fin 64) (q : BitVec 20) (i : BitVec 24) (k c x : Nat),
    let v := s.vc n
    let same (t : State) (pc : Nat) (d : Option Nat) (a : Nat) : Prop :=
      CoreStep s t n pc fun u => u.bare = v.bare ∧ u.preds = v.preds ∧ u.tiles = v.tiles ∧ u.tags = v.tags
        ∧ ∀ r, u.areg r = if d = some r ∧ r ≠ 0 then a else v.areg r
    let tgt : Int := (v.pc : Int) + iImm48 x
    (s.atInstr n 0x00 q i k c x → bitsOf x 55 0 = 0 → v.goesOn (v.pc + 1) →
      Answers (exec (.vNop n) s) fun t => same t (v.pc + 1) none 0) ∧
    (s.atInstr n 0x02 q i k c x → iAs x = 0 → v.goesOn (v.pc + 1) →
      Answers (exec (.vSeta n) s) fun t => same t (v.pc + 1) (some (iAd x)) (bitsOf x 47 0)) ∧
    (s.atInstr n 0x03 q i k c x → v.goesOn (v.pc + 1) →
      Answers (exec (.vAdda n) s) fun t => same t (v.pc + 1) (some (iAd x)) ((v.areg (iAs x) + bitsOf x 47 0) % 2 ^ 48)) ∧
    (s.atInstr n 0x04 q i k c x → iAs x = 0 → v.areg (iAd x) = 0 → v.goesOn (v.pc + 1) →
      Answers (exec (.vLoop n) s) fun t => same t (v.pc + 1) none 0) ∧
    (s.atInstr n 0x04 q i k c x → iAs x = 0 → v.areg (iAd x) ≠ 0 → 0 ≤ tgt → tgt < v.prog.length → v.goesOn tgt.toNat →
      Answers (exec (.vLoop n) s) fun t => same t tgt.toNat (some (iAd x)) (v.areg (iAd x) - 1))

/-- For each of ADD, SUB, ADDS, SUBS, MULLO, MULHI, SHL, SHR, MIN, MAX, AND, OR and XOR in a legal form, with TB or the
immediate as second operand: every row whose mask holds an active element becomes NaN if either source row is NaN or its
code leaves 0 to 254, and otherwise takes the operation's low w bits in each active element and its code; every other
tile, predicate and register of the core stands, and the core goes on. (04 R100, 04 R101, 04 R102, 04 R104, 04 R105, 04
R107) -/
def Obligations.VectorIntegerRows : Prop :=
  ∀ (s : State) (n : Fin 64) (q : BitVec 20) (i : BitVec 24) (k c x : Nat),
    let v := s.vc n
    let w := iWidth x
    let sg := iSgn x
    let lo : Int := if sg then -(2 ^ (w - 1)) else 0
    let hi : Int := if sg then 2 ^ (w - 1) - 1 else 2 ^ w - 1
    let sA (a : Nat) : Int := toI sg w a
    let cA (ca _ : Nat) : Int := ca
    let rows (t : State) (g : Nat → Nat → Int) (code : Nat → Nat → Int) : Prop :=
      CoreStep s t n (v.pc + 1) fun u => TileOnly v u (iTd x) ∧ ∀ r < 32,
        let b := secondOf v x w r
        RowLeft v u x (iTd x) r (decide (v.code (iTa x) r = 0xFF ∨ b.2 = 0xFF))
          (List.zipWith g (v.els w (iTa x) r) b.1) (code (v.code (iTa x) r) b.2)
    rOk { ta := true, tb := true } x = true → v.goesOn (v.pc + 1) →
    (s.atInstr n 0x20 q i k c x → Answers (exec (.vAdd n) s) fun t => rows t (fun a b => sA a + sA b) cA) ∧
    (s.atInstr n 0x21 q i k c x → Answers (exec (.vSub n) s) fun t => rows t (fun a b => sA a - sA b) cA) ∧
    (s.atInstr n 0x22 q i k c x → Answers (exec (.vAdds n) s) fun t => rows t (fun a b => max lo (min hi (sA a + sA b))) cA) ∧
    (s.atInstr n 0x23 q i k c x → Answers (exec (.vSubs n) s) fun t => rows t (fun a b => max lo (min hi (sA a - sA b))) cA) ∧
    (s.atInstr n 0x24 q i k c x → Answers (exec (.vMullo n) s) fun t =>
      rows t (fun a b => sA a * sA b) fun ca cb => (ca : Int) + cb - 127) ∧
    (s.atInstr n 0x25 q i k c x → Answers (exec (.vMulhi n) s) fun t =>
      rows t (fun a b => (sA a * sA b).fdiv (2 ^ w)) fun ca cb => (ca : Int) + cb - 127 + w) ∧
    (s.atInstr n 0x26 q i k c x → Answers (exec (.vShl n) s) fun t =>
      rows t (fun a b => if w ≤ b then 0 else (a : Int) * 2 ^ b) cA) ∧
    (s.atInstr n 0x27 q i k c x → Answers (exec (.vShr n) s) fun t => rows t (fun a b => (sA a).fdiv (2 ^ min b w)) cA) ∧
    (s.atInstr n 0x28 q i k c x → Answers (exec (.vMin n) s) fun t => rows t (fun a b => min (sA a) (sA b)) cA) ∧
    (s.atInstr n 0x29 q i k c x → Answers (exec (.vMax n) s) fun t => rows t (fun a b => max (sA a) (sA b)) cA) ∧
    (s.atInstr n 0x2A q i k c x → Answers (exec (.vAnd n) s) fun t => rows t (fun a b => ((a &&& b : Nat) : Int)) cA) ∧
    (s.atInstr n 0x2B q i k c x → Answers (exec (.vOr n) s) fun t => rows t (fun a b => ((a ||| b : Nat) : Int)) cA) ∧
    (s.atInstr n 0x2C q i k c x → Answers (exec (.vXor n) s) fun t => rows t (fun a b => ((a ^^^ b : Nat) : Int)) cA)

/-- CMPEQ, CMPLT and CMPLE set each active element's bit of Pd when the comparison of the two elements holds, and clear it
in a row where either source is NaN. PAND, POR, PXOR and PNOT combine predicates bit for bit. Inactive bits keep their
value, or clear under ZM. No tile, address register or other predicate changes. (04 R100, 04 R101, 04 R102, 04 R104, 04
R107) -/
def Obligations.VectorPredicateRows : Prop :=
  ∀ (s : State) (n : Fin 64) (q : BitVec 20) (i : BitVec 24) (k c x : Nat),
    let v := s.vc n
    let w := iWidth x
    let pred (t : State) (g : Nat → List Bool) : Prop :=
      CoreStep s t n (v.pc + 1) fun u => u.bare = v.bare ∧ u.tiles = v.tiles ∧ u.tags = v.tags ∧ u.aregs = v.aregs ∧
        (∀ p r, p < 8 → p ≠ iTd x → u.predBits p r = v.predBits p r) ∧ ∀ r < 32, PredLeft v u x (iTd x) r (g r)
    let cmp (g : Int → Int → Bool) (r : Nat) : List Bool :=
      let b := secondOf v x w r
      List.zipWith (fun a b' => !(decide (v.code (iTa x) r = 0xFF ∨ b.2 = 0xFF)) && g (toI (iSgn x) w a) (toI (iSgn x) w b'))
        (v.els w (iTa x) r) b.1
    let log (g : Bool → Bool → Bool) (r : Nat) : List Bool :=
      List.zipWith g (v.active (8 + iTa x) w r) (v.active (8 + iTb x) w r)
    iTd x < 8 → v.goesOn (v.pc + 1) →
    (rOk { ta := true, tb := true } x = true →
      (s.atInstr n 0x2E q i k c x → Answers (exec (.vCmpeq n) s) fun t => pred t (cmp fun a b => a == b)) ∧
      (s.atInstr n 0x2F q i k c x → Answers (exec (.vCmplt n) s) fun t => pred t (cmp fun a b => decide (a < b))) ∧
      (s.atInstr n 0x30 q i k c x → Answers (exec (.vCmple n) s) fun t => pred t (cmp fun a b => decide (a ≤ b)))) ∧
    (rOk { ta := true, tb := true } x = true → iTa x < 8 → iTb x < 8 → iIb x = false →
      (s.atInstr n 0x84 q i k c x → Answers (exec (.vPand n) s) fun t => pred t (log (· && ·))) ∧
      (s.atInstr n 0x85 q i k c x → Answers (exec (.vPor n) s) fun t => pred t (log (· || ·))) ∧
      (s.atInstr n 0x86 q i k c x → Answers (exec (.vPxor n) s) fun t => pred t (log (· != ·)))) ∧
    (rOk { ta := true } x = true → iTa x < 8 → s.atInstr n 0x87 q i k c x →
      Answers (exec (.vPnot n) s) fun t => pred t fun r => (v.active (8 + iTa x) w r).map (!·))

/-- Each in a legal form leaves, in every row of its mask, the elements and row code Table 04.5 gives it: SEL the element
its predicate picks; IOTA the column, row or linear index; MOV and SHUF elements of TA; SETEXP those of TA under a new
code (log 29); ALIGN the element rescaled to the target code, rounded to even and saturated symmetrically; NORM the
encoding of the row by encode_group; a function the saturated value for its aligned input, or NaN for the row on a
domain error. A NaN source row gives a NaN row. Nothing else of the core changes but its index. EXP2 of a whole number
is the power of two; LOG2 of a power of two its exponent; RCP is the quotient rounded to nearest even, and RSQRT the
nearest root: no number is closer to the exact value. LOG2, RCP and RSQRT of zero give the limit of Table 04.6 and count
one divide by zero; LOG2 and RSQRT of a negative number give none. LOGISTIC of 0 is one half. (04 R101, 04 R102, 04
R104, 04 R106, 04 R107, 04 R108, 04 Table 04.5, 04 Table 04.6) -/
def Obligations.VectorRowOperations : Prop :=
  (∀ (j fin fout : Nat), fin ≤ 31 → j + fout ≤ 30 → (fnExp2 ((j : Int) * 2 ^ fin) fin fout).val = some (2 ^ (j + fout))) ∧
  (∀ (j fin fout : Nat), (fnLog2 (2 ^ j) fin fout).val = some (((j : Int) - fin) * 2 ^ fout)) ∧
  (∀ (x : Int) (fin fout : Nat), x < 0 → (fnLog2 x fin fout).val = none ∧ (fnRsqrt x fin fout).val = none) ∧
  (∀ fin fout : Nat, fnLog2 0 fin fout = { val := some (-(2 ^ 31)), div0 := 1 } ∧ fnRcp 0 fin fout = { val := some (2 ^ 31 - 1), div0 := 1 }
    ∧ fnRsqrt 0 fin fout = { val := some (2 ^ 31 - 1), div0 := 1 }) ∧
  (∀ (x : Int) (fin fout : Nat) (y : Int), x ≠ 0 → (fnRcp x fin fout).val = some y → 2 * (y * x - 2 ^ (fin + fout)).natAbs ≤ x.natAbs) ∧
  (∀ (x : Int) (fin fout : Nat) (y : Int), 0 < x → (fnRsqrt x fin fout).val = some y → 0 ≤ y ∧
    4 * (2 : Int) ^ (2 * fout + fin) ≤ x * (2 * y + 1) ^ 2 ∧ (0 < y → x * (2 * y - 1) ^ 2 ≤ 4 * (2 : Int) ^ (2 * fout + fin))) ∧
  (∀ fin fout : Nat, 1 ≤ fout → (fnLogistic 0 fin fout).val = some (2 ^ (fout - 1))) ∧
  (∀ (s : State) (n : Fin 64) (q : BitVec 20) (i : BitVec 24) (k c x : Nat),
    let v := s.vc n
    let w := iWidth x
    let m := 1024 / w
    let cd (r : Nat) : Nat := v.code (iTa x) r
    let els (r : Nat) : List Nat := v.els w (iTa x) r
    let rows (t : State) (nan : Nat → Bool) (g : Nat → List Int) (code : Nat → Int) : Prop :=
      CoreStep s t n (v.pc + 1) fun u => TileOnly v u (iTd x) ∧ ∀ r < 32, RowLeft v u x (iTd x) r (nan r) (g r) (code r)
    let isNan (r : Nat) : Bool := decide (cd r = 0xFF)
    let fin := bitsOf (iImm x) 9 5
    let fout := bitsOf (iImm x) 4 0
    let fn (f : Int → Nat → Nat → FnOut) (t : State) : Prop :=
      let y (r j : Nat) : Option Int := (f (alignElem 32 true (cd r) (127 - (fin : Int)) (sext 32 ((els r).getD j 0))).1 fin fout).val
      rows t (fun r => isNan r || (List.range 32).any fun j => (v.active (iPred x) 32 r).getD j false && (y r j).isNone)
        (fun r => (List.range 32).map fun j => max (-(2 ^ 31)) (min (2 ^ 31 - 1) ((y r j).getD 0))) fun _ => 127 - (fout : Int)
    v.goesOn (v.pc + 1) →
    (rOk { ta := true, tb := true, sel := true } x = true → s.atInstr n 0x2D q i k c x → Answers (exec (.vSel n) s) fun t =>
      let p (r : Nat) := v.active (8 + iTc x % 8) w r
      rows t (fun r => (List.zipWith (fun a b => a && (if b then isNan r else decide ((secondOf v x w r).2 = 0xFF)))
          (v.active (iPred x) w r) (p r)).any id)
        (fun r => (List.range m).map fun j => (((if (p r).getD j false then els r else (secondOf v x w r).1).getD j 0 : Nat) : Int))
        fun r => cd r) ∧
    (rOk { imm := true } x = true → iImm x < 3 → s.atInstr n 0x31 q i k c x → Answers (exec (.vIota n) s) fun t =>
      rows t (fun _ => false)
        (fun r => (List.range m).map fun j => ((if iImm x = 0 then j else if iImm x = 1 then r else r * m + j : Nat) : Int)) fun _ => 0x7F) ∧
    (rOk { ta := true, imm := true } x = true → iImm x < 0xFF → s.atInstr n 0x32 q i k c x → Answers (exec (.vAlign n) s) fun t =>
      rows t isNan (fun r => (els r).map fun e => (alignElem w (iSgn x) (cd r) (iImm x) (toI (iSgn x) w e)).1) fun _ => iImm x) ∧
    (rOk { ta := true } x = true → iSgn x = true → s.atInstr n 0x33 q i k c x → Answers (exec (.vNorm n) s) fun t =>
      let enc (r : Nat) := encodeGroup w (List.zipWith (fun a e => if a then e else {}) (v.active (iPred x) w r) (rowExact w (cd r) (els r)))
      rows t (fun r => decide ((enc r).1 = 0xFF)) (fun r => (enc r).2.1) fun r => (enc r).1) ∧
    (rOk { ta := true } x = true → s.atInstr n 0x80 q i k c x → Answers (exec (.vMov n) s) fun t =>
      rows t isNan (fun r => (els r).map Int.ofNat) fun r => cd r) ∧
    (rOk { ta := true, tb := true } x = true → s.atInstr n 0x82 q i k c x → Answers (exec (.vShuf n) s) fun t =>
      rows t (fun r => isNan r || decide ((secondOf v x w r).2 = 0xFF))
        (fun r => (secondOf v x w r).1.map fun e => ((els r).getD (e % m) 0 : Int)) fun r => cd r) ∧
    (rOk { ta := true, imm := true } x = true → iImm x < 0xFF → s.atInstr n 0x83 q i k c x → Answers (exec (.vSetexp n) s) fun t =>
      rows t isNan (fun r => (els r).map Int.ofNat) fun _ => iImm x) ∧
    (rOk { ta := true, imm := true } x = true → iW x = 2 → iSgn x = true → iImm x < 2 ^ 10 → fout ≤ 30 →
      (s.atInstr n 0x40 q i k c x → Answers (exec (.vExp2 n) s) (fn fnExp2)) ∧
      (s.atInstr n 0x41 q i k c x → Answers (exec (.vLog2 n) s) (fn fnLog2)) ∧
      (s.atInstr n 0x42 q i k c x → Answers (exec (.vRcp n) s) (fn fnRcp)) ∧
      (s.atInstr n 0x43 q i k c x → Answers (exec (.vRsqrt n) s) (fn fnRsqrt)) ∧
      (s.atInstr n 0x44 q i k c x → Answers (exec (.vLogistic n) s) (fn fnLogistic))))

/-- A legal reduction over rows leaves in each row of TD, in the 32-bit view: from no active element the identity, the row's
code and EMPTY set; from a NaN row, NaN; else its result from column 0 on with the reduction's code: the exact sum or
sum of squares saturated, the extreme, the lowest index of the extreme, the count of active elements, or the mean
nearest to the exact one; a code outside 0 to 254 gives NaN. The other elements are kept, or zeroed under ZM. Over
columns the core goes on and rows past the result rows keep their tag. (04 R109, 04 R110, 04 R111, 04 Table 04.7, 04
R107) -/
def Obligations.VectorReductions : Prop :=
  ∀ (s : State) (n : Fin 64) (q : BitVec 20) (i : BitVec 24) (k c x : Nat),
    let v := s.vc n
    let w := iWidth x
    let sg := iSgn x
    let l (r : Nat) : List (Nat × Int) := (List.range (1024 / w)).filterMap fun j =>
      if (v.active (iPred x) w r).getD j false then some (j, toI sg w ((v.els w (iTa x) r).getD j 0)) else none
    let clamp (b : Nat) (y : Int) : Int :=
      if sg then max (-(2 ^ (b - 1))) (min (2 ^ (b - 1) - 1) y) else max 0 (min (2 ^ b - 1) y)
    let sum (l : List (Nat × Int)) : Int := (l.map Prod.snd).sum
    let left (u : Vc) (ident : List Nat) (ok : List (Nat × Int) → List Nat → Prop) (code : Int → Int) (r : Nat) : Prop :=
      let put (ws : List Nat) : Prop := ∀ j < 32, (u.els 32 (iTd x) r).getD j 0 =
        if j < ws.length then ws.getD j 0 else if iZm x then 0 else (v.els 32 (iTd x) r).getD j 0
      let cd := v.code (iTa x) r
      if l r = [] then put ident ∧ u.tag (iTd x) r = v.code (iTd x) r + 256
      else if cd = 0xFF ∨ code cd < 0 ∨ 254 < code cd then u.rowBits (iTd x) r = 0 ∧ u.tag (iTd x) r = 0xFF
      else u.tag (iTd x) r = (code cd).toNat ∧ ∃ ws, ok (l r) ws ∧ put ws
    let red (e : Instr) (ident : List Nat) (ok : List (Nat × Int) → List Nat → Prop) (code : Int → Int) : Prop :=
      Answers (exec e s) fun t => CoreStep s t n (v.pc + 1) fun u => TileOnly v u (iTd x) ∧
        (iAxis x = false → ∀ r < 32, left u ident ok code r) ∧
        (iAxis x = true → ∀ r, 2 * (1024 / w / 32) ≤ r → r < 32 → u.tag (iTd x) r = v.tag (iTd x) r)
    let best (better : Int → Int → Prop) (arg : Bool) (l : List (Nat × Int)) (ws : List Nat) : Prop :=
      ∃ j y, (j, y) ∈ l ∧ (∀ e ∈ l, better y e.2 ∨ (e.2 = y ∧ j ≤ e.1)) ∧ ws = [if arg then j else pat 32 y]
    rOk { ta := true, axis := true } x = true → v.goesOn (v.pc + 1) →
    (s.atInstr n 0x60 q i k c x → red (.vRsum n) [0] (fun l ws => ws = [pat 32 (clamp 32 (sum l))]) id) ∧
    (s.atInstr n 0x61 q i k c x → red (.vRssq n) [0, 0] (fun l ws =>
      let y := pat 64 (clamp 64 (l.map fun e => e.2 * e.2).sum)
      ws = [y % 2 ^ 32, y / 2 ^ 32]) fun c => 2 * c - 127) ∧
    (s.atInstr n 0x62 q i k c x → red (.vRmax n) [0x80000000] (best (· > ·) false) id) ∧
    (s.atInstr n 0x63 q i k c x → red (.vRmin n) [0x7FFFFFFF] (best (· < ·) false) id) ∧
    (s.atInstr n 0x64 q i k c x → red (.vRargmax n) [0xFFFFFFFF] (best (· > ·) true) fun _ => 0x7F) ∧
    (s.atInstr n 0x65 q i k c x → red (.vRargmin n) [0xFFFFFFFF] (best (· < ·) true) fun _ => 0x7F) ∧
    (s.atInstr n 0x66 q i k c x → red (.vRcount n) [0] (fun l ws => ws = [l.length]) fun _ => 0x7F) ∧
    (s.atInstr n 0x67 q i k c x → red (.vRmean n) [0] (fun l ws =>
      ∃ y : Int, 2 * (y * l.length - sum l).natAbs ≤ l.length ∧ ws = [pat 32 y]) id)

/-- TRANS of a tile without a NaN row gives every row the largest code and, at (r, j), the element (j, r) shifted right to
that code with floor; of one with a NaN row, 32 NaN rows. CVT at one width copies rows; narrowing encodes the joined
rows by encode_group; widening sign-extends each part of a row into its own tile under the row's code. RAND fills each
row with the draws its position fixes, under code 0x7F. (04 R115, 04 R116, 04 R120, 04 R121, 04 R122, 04 R107) -/
def Obligations.VectorMoves : Prop :=
  ∀ (s : State) (n : Fin 64) (q : BitVec 20) (i : BitVec 24) (k c x : Nat),
    let v := s.vc n
    let w := iWidth x
    let ws := viewW (iImm x % 4)
    let step (t : State) (f : Vc → Prop) : Prop := CoreStep s t n (v.pc + 1) f
    let cmax := ((List.range 32).map fun r => v.code (iTa x) r).foldl max 0
    v.goesOn (v.pc + 1) →
    (s.atInstr n 0x81 q i k c x → rOk { ta := true } x = true → iW x = 2 → iPred x = 0 →
      Answers (exec (.vTrans n) s) fun t => step t fun u => TileOnly v u (iTd x) ∧ ∀ r < 32,
        (cmax = 0xFF → u.rowBits (iTd x) r = 0 ∧ u.tag (iTd x) r = 0xFF) ∧
        (cmax ≠ 0xFF → u.tag (iTd x) r = cmax ∧ ∀ j < 32, (u.els 32 (iTd x) r).getD j 0 =
          pat 32 ((sext 32 ((v.els 32 (iTa x) j).getD r 0)).fdiv (2 ^ (cmax - v.code (iTa x) j))))) ∧
    (s.atInstr n 0xC0 q i k c x → rOk { ta := true, imm := true } x = true → iImm x < 3 →
      (ws = w → Answers (exec (.vCvt n) s) fun t => step t fun u => TileOnly v u (iTd x) ∧ ∀ r < 32,
        RowLeft v u x (iTd x) r (decide (v.code (iTa x) r = 0xFF)) ((v.els w (iTa x) r).map Int.ofNat) (v.code (iTa x) r)) ∧
      (w < ws → iTa x + ws / w ≤ 32 → Answers (exec (.vCvt n) s) fun t => step t fun u => TileOnly v u (iTd x) ∧ ∀ r < 32,
        let src := (List.range (ws / w)).flatMap fun j => rowExact ws (v.code (iTa x + j) r) (v.els ws (iTa x + j) r)
        let e := encodeGroup w (List.zipWith (fun a y => if a then y else {}) (v.active (iPred x) w r) src)
        RowLeft v u x (iTd x) r (decide (e.1 = 0xFF)) e.2.1 e.1) ∧
      (ws < w → iTd x + w / ws ≤ 32 →
        Answers (exec (.vCvt n) s) fun t => step t fun u => u.bare = v.bare ∧ u.preds = v.preds ∧ u.aregs = v.aregs ∧
          (∀ t, t < iTd x ∨ iTd x + w / ws ≤ t → u.tile t = v.tile t ∧ u.tagWord t = v.tagWord t) ∧
          ∀ j < w / ws, ∀ r < 32, RowLeft v u x (iTd x + j) r (decide (v.code (iTa x) r = 0xFF))
            ((((v.els ws (iTa x) r).drop (j * (1024 / w))).take (1024 / w)).map (sext ws)) (v.code (iTa x) r))) ∧
    (s.atInstr n 0xC1 q i k c x → viewOk x = true → bitsOf x 25 24 = 0 → iTb x < 16 → iTa x = 0 → iTc x = 0 → iIb x = false →
      iAxis x = false → iImm x = 0 → Answers (exec (.vRand n) s) fun t => step t fun u => TileOnly v u (iTd x) ∧ ∀ r < 32,
        let key := (tget (0 : BitVec 128) (s.part k).keys.streams (bitsOf c 271 268)).toNat
        let draws := (List.range 8).map fun j => drawAt key c ((v.areg (iTb x % 16) % 2 ^ 32 + 8 * r + j) % 2 ^ 32)
        RowLeft v u x (iTd x) r false ((elemsOf w (joinBits 128 draws)).map Int.ofNat) 0x7F)

/-- A legal LD that finds no address fault leaves each row of its mask with the elements read (bit for bit where the format
has the view's width, else encoded by encode_group) and its code, and stores nothing. ST changes no tile, and no byte of
memory outside the pieces its live rows store. GATHER leaves the raw 128 B rows it reads and keeps the rest; SCATTER
stores nothing but 128 B at each of its rows' addresses. LDEXP sets the codes of its live rows alone, a row of code 0xFF
becoming NaN; STTAG stores the 64 B of row tags alone. (04 R103, 04 R112, 04 R113, 04 R114, 04 R101, 05 R126, 05 R130) -/
def Obligations.VectorMemory : Prop :=
  ∀ (s : State) (n : Fin 64) (q : BitVec 20) (i : BitVec 24) (k c x : Nat), s.calm →
    let v := s.vc n
    let P := s.part k
    let m := 1024 / iWidth x
    let live := liveRows v x
    let coreStep (t : State) (f : Vc → Prop) : Prop := CoreStep s t n (v.pc + 1) f
    let storeStep (t : State) (spans : List (Nat × Nat)) : Prop :=
      Frame [.vcs, .parts, .queues, .mem, .snoops] s t ∧ (∀ j, j ≠ n.val → t.vc j = s.vc j) ∧ t.vc n = { v with pc := v.pc + 1 } ∧
        ∀ key, (∀ p ∈ spans, ∀ a, p.1 ≤ a → a < p.1 + p.2 → keyOf P k a ≠ some key) → cellAt t.mem key = cellAt s.mem key
    v.goesOn (v.pc + 1) →
    (s.atInstr n 0xA0 q i k c x → ldstOk x = true → (memBits (iFmt x) ≠ 4 ∨ iWidth x = 8) →
      ¬(ldCopies x = true ∧ iMode x = 0 ∧ iTexp x = -128) →
      live.findSome? (fun r => spanFault P (rowAlign (iFmt x)) false (ldSpans v x r)) = none →
      Answers (exec (.vLd n) s) fun t => coreStep t fun u => TileOnly v u (iTd x) ∧ ∀ r < 32,
        let bits := memBits (iFmt x)
        let cnt := if iB0 x then 1 else m
        let b := s.load k (mRow v x r) (rowBytes bits cnt)
        let raw := (List.range m).map fun j => elemRaw bits b (if iB0 x then 0 else j)
        let g := groupOf (iMode x)
        let sc := s.load k (mScale v x r) (if iMode x = 4 then 1 else (cnt + g - 1) / g)
        let code (j : Nat) : Nat := (sc.getD (if iMode x = 4 ∨ iB0 x = true then 0 else j / g) 0).toNat
        let e := encodeGroup (iWidth x) (List.zipWith (fun a y => if a then y else {}) (v.active (iPred x) (iWidth x) r)
          ((List.range m).map fun j => if iMode x = 0 then decodePlain (iFmt x) (iTexp x) (raw.getD j 0)
            else decodeScaled (iFmt x) (code j) (raw.getD j 0)))
        (ldCopies x = true → RowLeft v u x (iTd x) r false (raw.map Int.ofNat) (if iMode x = 0 then iTexp x + 127 else code 0)) ∧
        (ldCopies x = false → RowLeft v u x (iTd x) r (decide (e.1 = 0xFF)) e.2.1 e.1)) ∧
    (s.atInstr n 0xA1 q i k c x → ldstOk x = true → iZm x = false → iB0 x = false →
      (iPred x = 0 ∨ (iMode x = 0 ∧ 8 ≤ memBits (iFmt x))) →
      let spans := live.flatMap fun r => (stRow v x r (v.active (iPred x) (iWidth x) r)).1.map fun p => (p.1, p.2.length)
      (∀ r ∈ live, mRow v x r % rowAlign (iFmt x) = 0) → (∀ p ∈ spans, writable P p.1 p.2 = true) →
      Answers (exec (.vSt n) s) fun t => storeStep t spans) ∧
    (s.atInstr n 0xA2 q i k c x → indexOk x = true → iTexp x ≠ -128 → (∀ r ∈ indexRows v x, inSram P r.2 = true) →
      Answers (exec (.vGather n) s) fun t => coreStep t fun u => TileOnly v u (iTd x) ∧ ∀ r < 32,
        (∀ a, (r, a) ∈ indexRows v x → u.rowBits (iTd x) r = s.loadNat k a 128 ∧ u.tag (iTd x) r = (iTexp x + 127).toNat) ∧
        ((∀ a, (r, a) ∉ indexRows v x) → u.tag (iTd x) r = v.tag (iTd x) r
          ∧ u.rowBits (iTd x) r = if iZm x then 0 else v.rowBits (iTd x) r)) ∧
    (s.atInstr n 0xA3 q i k c x → indexOk x = true → iZm x = false → iTexp x = 0 → (∀ r ∈ indexRows v x, inSram P r.2 = true) →
      Answers (exec (.vScatter n) s) fun t => storeStep t ((indexRows v x).map fun r => (r.2, 128))) ∧
    (s.atInstr n 0xA4 q i k c x → tagFieldsOk x = true → readable P (mBase v x) 32 = true →
      Answers (exec (.vLdexp n) s) fun t => coreStep t fun u => TileOnly v u (iTd x) ∧ ∀ r < 32,
        (r ∈ live → u.tag (iTd x) r = ((s.load k (mBase v x) 32).getD r 0).toNat
          ∧ u.rowBits (iTd x) r = if (s.load k (mBase v x) 32).getD r 0 = 0xFF then 0 else v.rowBits (iTd x) r) ∧
        (r ∉ live → u.tag (iTd x) r = v.tag (iTd x) r ∧ u.rowBits (iTd x) r = if iZm x then 0 else v.rowBits (iTd x) r)) ∧
    (s.atInstr n 0xA5 q i k c x → tagFieldsOk x = true → iZm x = false → iW x = 0 → iPred x = 0 → writable P (mBase v x) 64 = true →
      Answers (exec (.vSttag n) s) fun t => storeStep t [(mBase v x, 64)] ∧
        ∀ key, mBase v x / 2 ^ 16 = (mBase v x + 63) / 2 ^ 16 → keyOf P k (mBase v x) = some key →
          memRead t.mem key 64 = toLe 64 (v.tagWord (iTd x)))

/-- A core that reaches END waits; when it is the last of its command, every core of the command is free and the command's
work is done, with OK, or RANGE under STRICT after a saturation. An instruction with an illegal field stops every core
of its command at once and gives the command INVALID with the core and the instruction index in its record. A drain
write is accepted by a core between commands: its bytes and row code stand in the inbox tile, the writes behind it keep
their order, no other tile of any core changes, and the last write of a drain buffer returns the buffer's credit; where
no tile waits on the MUs of that slice, nothing else moves but the end of a MATMUL none of whose writes waits any more.
A core that runs a command accepts none. (04 R99, 04 R102, 04 R103, 04 R118, 05 R130, 02 R47, 03 R66) -/
def Obligations.VectorEndings : Prop :=
  (∀ (s : State) (n : Fin 64) (q : BitVec 20) (i : BitVec 24) (k c x : Nat), s.calm → s.atInstr n 0x01 q i k c x → bitsOf x 55 0 = 0 →
    let others := ∃ m ∈ s.vcs, m.1 ≠ n.val ∧ m.2.run = some (q, i) ∧ m.2.ended = false;
    (others → Answers (exec (.vEnd n) s) fun t =>
      t.vc n = { s.vc n with ended := true } ∧ (∀ m, m ≠ n.val → t.vc m = s.vc m) ∧ Frame [.vcs] s t) ∧
    (¬others → ∀ r, (s.queue q.toNat).started.find? (fun r => r.idx = i) = some r →
      Answers (exec (.vEnd n) s) fun t => Frame [.vcs, .queues, .parts] s t ∧
        (∀ m, (t.vc m).run ≠ some (q, i)) ∧ (∀ m, (s.vc m).run ≠ some (q, i) → t.vc m = s.vc m) ∧
        let st := if faulting r.status then r.status else if vStrict r.cmd.toNat && r.sat then stRANGE else stOK;
        (t.queue q.toNat).started.find? (fun r => r.idx = i) = some { r with work := .done, status := st })) ∧
  (∀ (s : State) (n : Fin 64) (q : BitVec 20) (i : BitVec 24) (k c x : Nat), rOk { ta := true, tb := true } x = false →
    ∀ e ∈ [(Instr.vAdd n, 0x20), (.vSub n, 0x21), (.vAdds n, 0x22), (.vSubs n, 0x23), (.vMullo n, 0x24), (.vMulhi n, 0x25),
      (.vShl n, 0x26), (.vShr n, 0x27), (.vMin n, 0x28), (.vMax n, 0x29), (.vAnd n, 0x2A), (.vOr n, 0x2B), (.vXor n, 0x2C),
      (.vCmpeq n, 0x2E), (.vCmplt n, 0x2F), (.vCmple n, 0x30), (.vShuf n, 0x82)],
    s.atInstr n e.2 q i k c x → Answers (exec e.1 s) fun t => Frame [.vcs, .queues, .parts] s t ∧
      (∀ m, (t.vc m).run ≠ some (q, i)) ∧ (∀ m, (s.vc m).run ≠ some (q, i) → t.vc m = s.vc m) ∧
      ∀ r ∈ (t.queue q.toNat).started, r.idx = i → r.work = .done ∧ faulting r.status = true ∧ r.ukind = 2
        ∧ r.uidx = vcUnit n ∧ r.detail = BitVec.ofNat 16 (s.vc n).pc) ∧
  (∀ (s : State) (n : Fin 64) (w : DrainWrite) (rest : List DrainWrite), s.running → s.calm → (s.vc n).inbox = w :: rest →
    w.tile < 32 → w.row < 32 → w.bytes ≠ [] → w.col + w.bytes.length ≤ 128 →
    ((s.vc n).run ≠ none → exec (.inboxWrite n) s = .next s) ∧
    ((s.vc n).run = none → Answers (exec (.inboxWrite n) s) fun t =>
      let other (y : DrainWrite) : Prop := y.mu ≠ w.mu ∨ y.buf ≠ w.buf
      let last := (∀ y ∈ rest, other y) ∧ ∀ e ∈ s.vcs, e.1 ≠ n.val → ∀ y ∈ e.2.inbox, other y
      let idle := ∀ j < 6, (s.mu (w.mu / 6 * 6 + j)).queue = []
      Frame [.mem, .vcs, .queues, .mus, .parts, .snoops] s t ∧ (idle → Frame [.vcs, .queues, .mus] s t) ∧
      (∃ more, (t.vc n).inbox = rest ++ more ∧ (idle → more = [])) ∧
      (idle → (last → t.mu w.mu = { s.mu w.mu with bufs := (s.mu w.mu).bufs ||| (1#8 <<< w.buf) }) ∧ (¬last → t.mu w.mu = s.mu w.mu)) ∧
      (t.vc n).code w.tile w.row = w.code.toNat ∧
      toLe 128 ((t.vc n).rowBits w.tile w.row) =
        (toLe 128 ((s.vc n).rowBits w.tile w.row)).take w.col ++ w.bytes
          ++ (toLe 128 ((s.vc n).rowBits w.tile w.row)).drop (w.col + w.bytes.length) ∧
      (∀ a, a ≠ w.tile → (t.vc n).tile a = (s.vc n).tile a) ∧ ∀ m, m ≠ n.val → { t.vc m with inbox := (s.vc m).inbox } = s.vc m))

/-- A PROMOTE, DEMOTE, PIN, UNPIN, AFFINITY or CLEAN that may start is valid exactly when no reserved bit is set, its
operation is one of the six, it names at least one page from a page-aligned address, DIE is a die of the partition or 4
(or 7 for AFFINITY), the range starts outside SRAM and the tile window and lies in the tensor range. A valid one starts
with its pages waiting in ascending order, takes its place in the order of arrival and is accepted as far as it can be;
any other ends INVALID or ADDRESS and touches no page. (05 R129, 05 R139, 05 R140, 05 R142, 05 Table 05.5) -/
def Obligations.MigrationStarts : Prop :=
  ∀ (s : State) (q : Qid) (k c : Nat), s.ready q k c → isKind 3 0x10 c = true →
    let P := s.part k
    let a := mgAddr c
    let v := mgValidate P c
    let h := (s.queue q.toNat).head
    (v.1 = stOK ↔ bodyClear c [(211, 211), (210, 210), (209, 207), (206, 203), (199, 176), (175, 128)] = true
      ∧ 1 ≤ mgOp c ∧ mgOp c ≤ 6 ∧ 1 ≤ mgPages c ∧ a % 2 ^ 21 = 0
      ∧ (mgDie c < 4 ∧ dieSlices P (mgDie c) ≠ 0 ∨ mgDie c = 4 ∨ mgDie c = 7 ∧ mgOp c = 5)
      ∧ (∀ i o, place P a ≠ .sram i o ∧ place P a ≠ .tile i o) ∧ a + 2 ^ 21 * mgPages c ≤ tensorSize P) ∧
    (v.1 = stOK ∨ v.1 = stINVALID ∨ v.1 = stADDRESS) ∧
    ∀ e ∈ [(Instr.promote q, 1), (.demote q, 2), (.pin q, 3), (.unpin q, 4), (.affinity q, 5), (.clean q, 6)],
      (mgOp c = e.2 ∨ e.2 = 1 ∧ (mgOp c = 0 ∨ 6 < mgOp c)) →
      (v.1 ≠ stOK → StartsAs (exec e.1 s) s q c (popFront s q.toNat) (failed v.1 4 v.2)) ∧
      (v.1 = stOK → exec e.1 s = .next (startPages (pushStarted ((popFront s q.toNat).setOrder (s.order + 1)) q.toNat h c
        { work := .pages ((List.range (mgPages c)).map fun i => pageNo a + i) [] none [], arrived := s.order + 1 }) k q.toNat h))

/-- Accepting the oldest request that can go on, for its one page: PROMOTE sets LAST of a NEAR page to AGE and gives a FAR
page a frame of the place and starts it PROMOTING; DEMOTE unpins a NEAR page and starts it EVICTING; PIN pins a NEAR
page below the limit, promotes a FAR one pinned, and at the limit leaves the page; UNPIN unpins; AFFINITY records the
die; CLEAN starts a NEAR page CLEANING; the rest find nothing to do on a FAR page. With every frame of the place used,
the victim of the place starts EVICTING instead. No other page changes, but that the next accepted copy may start to
move. (05 R141, 05 R142, 05 R146, 05 R147, 05 Table 05.6) -/
def Obligations.PageRequests : Prop :=
  ∀ (s : State) (k : Fin 16) (q : Nat) (w : Started) (pg : Nat), s.running → s.calm →
    firstReady s k.val [] (pageReqsInOrder s k.val) = some (q, w) → w.work = .pages [pg] [] none [] →
    let P := s.part k.val
    let r := recordOf P pg
    let g := pageRec P r
    let c := w.cmd.toNat
    let op := pageOp c
    let d := placeOf P c g
    let far : Prop := op = 1 ∨ op = 3 ∧ pinOver P d = false
    let stands (t : State) (x : Nat) : Prop := { pageRec (t.part k.val) x with moving := (pageRec P x).moving } = pageRec P x
    migrating g = false ∧ Answers (exec (.pageRequestAccept k) s) fun t =>
      let h := pageRec (t.part k.val) r
      Frame [.ctrs, .queues, .parts, .link, .vectors, .order] s t ∧
      (g.st = .near ∨ ¬far ∨ framesUsed P d < placeFrames P d → ∀ x, x ≠ r → stands t x) ∧
      (g.st = .near →
        (op = 1 → h = { g with last := P.age }) ∧
        (op = 2 → h.st = .evicting ∧ h.pinned = false ∧ h.frame = g.frame ∧ h.dirty = g.dirty ∧ h.affinity = g.affinity) ∧
        (op = 3 → h = if g.pinned = false ∧ pinOver P (g.frame.getD 0) = true then g else { g with pinned := true, last := P.age }) ∧
        (op = 4 → h = { g with pinned := false }) ∧
        (op = 5 → h = { g with affinity := affinityOf P c g }) ∧
        (op = 6 → h.st = .cleaning ∧ h.pinned = g.pinned ∧ h.frame = g.frame ∧ h.dirty = g.dirty ∧ h.affinity = g.affinity)) ∧
      (g.st = .far →
        (op = 2 ∨ op = 4 ∨ op = 6 ∨ op = 3 ∧ pinOver P d = true → h = g) ∧
        (op = 5 → h = { g with affinity := affinityOf P c g }) ∧
        (far → framesUsed P d < placeFrames P d → h.st = .promoting ∧ h.frame = some d ∧ h.pinned = decide (op = 3)
          ∧ h.last = P.age ∧ h.dirty = 0 ∧ h.cursor = 0 ∧ h.affinity = g.affinity) ∧
        (far → ¬framesUsed P d < placeFrames P d → ∃ v, victimOf P d = some v ∧ (pageRec (t.part k.val) v).st = .evicting
          ∧ ∀ x, x ≠ v → stands t x))

/-- When a promotion in flight completes, the sectors its walk had still to copy are in the near frame as they are in far
memory and the page is NEAR. When a write-back in flight completes, every dirty sector ahead of its walk is in far
memory as it is in the frame; an evicted page is FAR with its affinity alone, a cleaned one NEAR with those dirty bits
clear. No other byte of memory and no other page record changes, but that the next accepted copy may start to move. (05
R133, 05 R135, 05 R136, 05 R137, 05 R144) -/
def Obligations.CopiesComplete : Prop :=
  ∀ (s : State) (k : Fin 16) (page : BitVec 27), s.running → s.calm → s.memOk →
    let P := s.part k.val
    let r := page.toNat
    let g := pageRec P r
    let a := 2 ^ 21 * r + 2 ^ 16 * g.cursor
    let n := 2 ^ 16 * (32 - g.cursor)
    let stands (t : State) (x : Nat) : Prop := { pageRec (t.part k.val) x with moving := (pageRec P x).moving } = pageRec P x
    inFlight P r = true → nextToComplete s k.val r = true →
    (g.st = .promoting → Answers (exec (.promotionCompletes k page) s) fun t =>
      Frame [.mem, .ctrs, .queues, .parts, .link, .vectors] s t ∧
      pageRec (t.part k.val) r = { g with st := .near, cursor := 0, boost := false, moving := false } ∧
      (∀ x, x ≠ r → stands t x) ∧
      (∀ x < n, cellAt t.mem (nearKey k.val a + x) = cellAt s.mem (farKey k.val a + x)) ∧ BytesStand (nearKey k.val a) n s t) ∧
    (g.st = .cleaning ∨ g.st = .evicting → Answers (exec (.writeBackCompletes k page) s) fun t =>
      let h := pageRec (t.part k.val) r
      let moved (j : Nat) : Prop := g.cursor ≤ j ∧ j < 32 ∧ g.dirty.getLsbD j = true
      let far (j : Nat) := farKey k.val (2 ^ 21 * r + 2 ^ 16 * j)
      Frame [.mem, .ctrs, .queues, .parts, .link, .vectors] s t ∧
      (g.st = .evicting → h = { affinity := g.affinity }) ∧
      (g.st = .cleaning → h.st = .near ∧ h.frame = g.frame ∧ h.pinned = g.pinned ∧ h.last = g.last ∧ h.affinity = g.affinity
        ∧ ∀ j < 32, h.dirty.getLsbD j = (g.dirty.getLsbD j && decide (j < g.cursor))) ∧
      (∀ x, x ≠ r → stands t x) ∧
      (∀ j, moved j → ∀ x < 2 ^ 16, cellAt t.mem (far j + x) = cellAt s.mem (nearKey k.val (2 ^ 21 * r + 2 ^ 16 * j) + x)) ∧
      (∀ x, (∀ j, moved j → x < far j ∨ far j + 2 ^ 16 ≤ x) → cellAt t.mem x = cellAt s.mem x))

/-- When a queue's command may start, the queue belongs to an ACTIVE partition, is ACTIVE itself, holds that command at
HEAD, and no started command of it has a faulting status; a command with FENCE, and every WAIT, SIGNAL and RSIGNAL,
finds no started command; a valid WAIT finds its counter at VALUE or above, unsigned; a vector command finds every core
of its mask free; a matrix, vector, update or fill command finds no other queue quiescing the partition; and no queue of
the partition of the same class that asks for a unit in common and comes first (higher PRIO, then eligible earlier, then
the lower queue ID) holds an eligible command. (06 R171, 06 R178, 06 R183, 07 R191, 11 R322) -/
def Obligations.StartableIsEligible : Prop :=
  ∀ (s : State) (q k c : Nat), startable s q = some (k, c) →
    ownerOf s q = some k ∧ (s.part k).st = .active ∧ (s.queue q).st = .active ∧ (s.queue q).front.map BitVec.toNat = some c ∧
    (∀ r ∈ (s.queue q).started, faulting r.status = false) ∧
    (hdrFence c = true ∨ hdrKind c ≤ 2 → (s.queue q).started = []) ∧
    (hdrKind c = 0 → waitValid (s.part k) c = true → fld c 207 144 ≤ (s.ctr (fld c 141 128)).toNat) ∧
    (isKind 1 0x10 c = true → ∀ n ∈ vcsOf (targetSlice (s.part k) c) c, (s.vc n).run = none) ∧
    (heldClass (hdrClass c) = true → (s.part k).holder = none ∨ (s.part k).holder = some (BitVec.ofNat 20 q)) ∧
    (∀ q' ∈ queuesOf s k, ∀ c', (s.queue q').front = some c' → (s.queue q').cls = (s.queue q).cls →
      sharesUnit c c'.toNat = true →
      ranksBefore (s.queue q').prio.toNat (moment s k q' c'.toNat) q' (s.queue q).prio.toNat (moment s k q c) q = true →
      eligible s k q' c'.toNat = false)

/-- A command read at HEAD whose tag or sequence number fails completes with AUTH and EXP_SEQ stays; one that passes adds 1
to EXP_SEQ, and completes with INVALID when its header fails; either takes its place behind the started commands and
HEAD moves past it. One that passes both is held at HEAD to start. (06 R165, 11 R340, 11 R341) -/
def Obligations.FrontEndOrder : Prop :=
  ∀ (s : State) (k q c : Nat),
    let Q := s.queue q
    let U := (acceptCmd s k q c).queue q
    (cmdAuth (s.part k) Q k q c = false →
      U.started = Q.started ++ [{ cmd := BitVec.ofNat 512 c, idx := Q.head, status := stAUTH, ukind := 8, atHead := true }]
        ∧ U.head = Q.head + 1 ∧ U.expSeq = Q.expSeq) ∧
    (cmdAuth (s.part k) Q k q c = true → headerCheck (s.part k) Q c = false →
      U.started = Q.started ++ [{ cmd := BitVec.ofNat 512 c, idx := Q.head, status := stINVALID, ukind := 7, atHead := true }]
        ∧ U.head = Q.head + 1 ∧ U.expSeq = Q.expSeq + 1) ∧
    (cmdAuth (s.part k) Q k q c = true → headerCheck (s.part k) Q c = true →
      U.front = some (BitVec.ofNat 512 c) ∧ U.started = Q.started ∧ U.head = Q.head ∧ U.expSeq = Q.expSeq + 1)

/-- A WAIT that may start has its counter at VALUE or above and is done. A NOP with a clear body does nothing and is done. A
SIGNAL with a counter of its partition and an ADD of at least 1 raises that counter by ADD, stopping at 2^64 - 1, and no
other counter. Each of the three with a counter outside the range, a zero ADD or a reserved bit set ends INVALID and
does nothing else. (06 R164, 06 R182, 06 R183, 01 R8) -/
def Obligations.CommonKindsComplete : Prop :=
  ∀ (s : State) (q : Qid) (k c : Nat), s.ready q k c →
    let P := s.part k
    let u := popFront s q.toNat
    let bad := failed stINVALID (unitOf (hdrClass c))
    let sigOk := ctrIn P (fld c 141 128) = true ∧ fld c 175 144 ≠ 0 ∧ bodyClear c [(141, 128), (175, 144)] = true
    (hdrKind c = 0 → StartsAs (exec (.wait q) s) s q c u (if waitValid P c then {} else bad)
      ∧ (waitValid P c = true → fld c 207 144 ≤ (s.ctr (fld c 141 128)).toNat)) ∧
    (hdrKind c = 3 → StartsAs (exec (.nop q) s) s q c u (if bodyClear c [] then {} else bad)) ∧
    (hdrKind c = 1 → ¬sigOk → StartsAs (exec (.signal q) s) s q c u bad) ∧
    (hdrKind c = 1 → sigOk → ∃ v, StartsAs (exec (.signal q) s) s q c v {}
      ∧ (v.ctr (fld c 141 128)).toNat = min ((s.ctr (fld c 141 128)).toNat + fld c 175 144) (2 ^ 64 - 1)
      ∧ (∀ x, x ≠ fld c 141 128 → v.ctr x = s.ctr x) ∧ Frame [.ctrs, .queues, .parts, .link, .vectors] s v)

/-- A write of SYNC_ARM_VAL stores the value. With SYNC_ARM_ID outside the partition's counters it arms nothing and no
ARM_HIT follows; inside, the watch is armed where the counter is below the value, unsigned, and fires at once where it
is not, whatever stood before. An increment that brings the counter to the value fires the watch: ARM_HIT is set and the
watch disarmed; a watch that is not armed never fires. Writing SYNC_ARM_ID neither arms nor disarms, and an armed watch
stays on the counter it was armed with. Partition reset disarms the watch. An increment lowers no counter, changes no
other, and stops at 2^64 - 1, where it sets CTR_SAT. (06 R449) -/
def Obligations.ArmedWatch : Prop :=
  (∀ (s : State) (k : Fin 16) (val : BitVec 64), s.running → s.calm →
    let P := s.part k
    let below := (s.ctr P.qpage.armId.toNat).toNat < val.toNat
    (Answers (exec (.syncArmVal k val) s) fun t =>
      (t.part k).qpage.armVal = val ∧ (t.part k).qpage.armId = P.qpage.armId ∧ (t.part k).qpage.armedId = P.qpage.armId ∧ Frame [.parts, .link, .vectors] s t ∧
      (ctrIn P P.qpage.armId.toNat = false → (t.part k).qpage.armed = false ∧ (t.part k).qpage.event = P.qpage.event) ∧
      (ctrIn P P.qpage.armId.toNat = true → below → (t.part k).qpage.armed = true ∧ (t.part k).qpage.event = P.qpage.event) ∧
      (ctrIn P P.qpage.armId.toNat = true → ¬below → (t.part k).qpage.armed = false ∧ (t.part k).qpage.event.getLsbD 4 = true)) ∧
    (s.link.st = 2 → Answers (exec (.registerWrite (BitVec.ofNat 64 (0x10040 + 0x1000 * k.val)) val) s) fun t =>
      t = s.modPart k fun P => { P with qpage := { P.qpage with armId := val.setWidth 14 } }) ∧
    (P.st = .resetting → queuesStopped ((queuesOf s k).foldl (fun s q => finishReset s k q) s) k = true →
      Answers (exec (.resetCompletes k) s) fun t => (t.part k).qpage.armed = false)) ∧
  (∀ (s : State) (k c n : Nat),
    let t := addCtr s k c n
    let Q := (s.part k).qpage
    let hit : Prop := Q.armed = true ∧ Q.armVal.toNat ≤ (t.ctr Q.armedId.toNat).toNat
    (t.ctr c).toNat = min ((s.ctr c).toNat + n) (2 ^ 64 - 1) ∧ (∀ x, x ≠ c → t.ctr x = s.ctr x) ∧
    (2 ^ 64 - 1 < (s.ctr c).toNat + n → (t.part k).qpage.event.getLsbD 3 = true) ∧
    (hit → (t.part k).qpage.event.getLsbD 4 = true ∧ (t.part k).qpage.armed = false) ∧
    (¬hit → (t.part k).qpage.armed = Q.armed ∧ (t.part k).qpage.event.getLsbD 4 = Q.event.getLsbD 4))

/-- QPAUSE moves an ACTIVE queue to PAUSING; the completion of its last started command moves it to PAUSED and sets
Q_EVENT.PAUSED, which happens at once where nothing it started is left, and, for a queue that pauses itself, when that
QPAUSE completes. QRESUME moves a PAUSING, PAUSED or FAULT queue to ACTIVE at its HEAD with its fault record in place;
resuming a PAUSING queue leaves its started commands and sets no flag. In every other state each has no effect and ends
OK. A target outside the partition makes them INVALID. (06 R175) -/
def Obligations.PauseAndResume : Prop :=
  (∀ (s : State) (q : Qid) (k c : Nat), s.ready q k c → hdrClass c = 5 →
    let P := s.part k
    let p := popFront s q.toNat
    let t := fld c 147 128
    let T := s.queue t
    let bad := failed stINVALID 7
    let ok := queueIn P t = true ∧ bodyClear c [(147, 128)] = true
    (hdrKind c = 0x11 →
      (¬ok → StartsAs (exec (.qpause q) s) s q c p bad) ∧
      (ok → t = q.toNat → StartsAs (exec (.qpause q) s) s q c p { work := .selfPause }) ∧
      (ok → t ≠ q.toNat → T.st ≠ .active → StartsAs (exec (.qpause q) s) s q c p {}) ∧
      (ok → t ≠ q.toNat → T.st = .active → ∃ u, StartsAs (exec (.qpause q) s) s q c u {} ∧ (∀ x, x ≠ t → u.queue x = p.queue x) ∧
        u.queue t = { T with st := if T.started = [] then .paused else .pausing } ∧
        (T.started = [] → (u.part k).qpage.event.getLsbD 1 = true) ∧ (T.started ≠ [] → u.parts = s.parts))) ∧
    (hdrKind c = 0x12 →
      let wakes := T.st = .pausing ∨ T.st = .paused ∨ T.st = .faulted
      (¬ok → StartsAs (exec (.qresume q) s) s q c p bad) ∧
      (ok → ¬wakes → StartsAs (exec (.qresume q) s) s q c p {}) ∧
      (ok → wakes → ∃ u, StartsAs (exec (.qresume q) s) s q c u {} ∧
        (∀ x, x ≠ t → { u.queue x with inSlice := (p.queue x).inSlice } = p.queue x) ∧
        (u.queue t).st = .active ∧ (u.queue t).fault = T.fault ∧ T.started <+: (u.queue t).started ∧
        (T.front.isSome = true → (u.queue t).head = T.head ∧ (u.queue t).front = T.front) ∧
        (u.part k).qpage.event = P.qpage.event))) ∧
  (∀ (s : State) (q : Qid) (k : Nat) (r : Started) (rest : List Started), s.calm → ownerOf s q.toNat = some k →
    let Q := s.queue q.toNat
    Q.started = r :: rest → Q.cplRec = false → r.recTag = none → faulting r.status = false →
    ((Q.st = .pausing ∧ r.work = .done) ∨ (Q.st = .active ∧ r.work = .selfPause) → Answers (exec (.commandCompletes q) s) fun t =>
      (rest = [] → (t.queue q.toNat).st = .paused ∧ (t.part k).qpage.event.getLsbD 1 = true) ∧
      (rest ≠ [] → (t.queue q.toNat).st = .pausing)))

/-- QCONFIG with a valid image makes a DISABLED queue of the partition ACTIVE with that image, and otherwise ends INVALID
with every context as it was; which contexts the hub caches may change. QRESET leaves its target RESETTING, or, where
every unit has stopped, ACTIVE or DISABLED with HEAD = TAIL and nothing started; a queue that names itself is done
first. CTR_RESET zeroes its counters and no other. QREAD to a writable destination aligned to 128 B copies the context
image of Table 06.4 there and stores nothing else; an unaligned one ends INVALID, an unwritable one ADDRESS. A target
outside the partition makes each of them INVALID. (06 R166, 06 R176, 06 R177, 06 R182, 06 Table 06.4, 06 Table 06.9, 05
R126) -/
def Obligations.QueueControl : Prop :=
  ∀ (s : State) (q : Qid) (k c : Nat), s.ready q k c → hdrClass c = 5 →
    let P := s.part k
    let p := popFront s q.toNat
    let t := fld c 147 128
    let T := s.queue t
    let bad := failed stINVALID 7
    (hdrKind c = 0x10 →
      let ok := queueIn P t = true ∧ T.st = .disabled ∧ bodyClear c [(147, 128), (275, 148), (278, 276), (280, 279)] = true
        ∧ configOk P (fld c 275 148) (fld c 278 276) = true
      (ok → ∃ u, StartsAs (exec (.qconfig q) s) s q c u {} ∧ Frame [.queues] s u
        ∧ u.queue t = { configured T (fld c 275 148) (fld c 278 276) (fld c 280 279) with paged := false } ∧ (u.queue t).st = .active
        ∧ (u.queue t).head = T.tail ∧ (u.queue t).tail = T.tail ∧ (u.queue t).expSeq = T.expSeq
        ∧ ∀ x, x ≠ t → { u.queue x with paged := (p.queue x).paged } = p.queue x) ∧
      (¬ok → StartsAs (exec (.qconfig q) s) s q c p bad)) ∧
    (hdrKind c = 0x13 →
      let ok := queueIn P t = true ∧ bodyClear c [(148, 128)] = true
      (ok → t = q.toNat → StartsAs (exec (.qreset q) s) s q c p { work := .selfReset (bitOf c 148) }) ∧
      (ok → t ≠ q.toNat → T.st ≠ .resetting →
        ∃ u, StartsAs (exec (.qreset q) s) s q c u { work := .qreset (BitVec.ofNat 20 t) (bitOf c 148) }
          ∧ (∀ x, x ≠ t → u.queue x = p.queue x)
          ∧ ((u.queue t).st = .resetting
            ∨ ((u.queue t).st = (if bitOf c 148 = true ∨ T.st = .disabled then .disabled else .active)
              ∧ (u.queue t).head = T.tail ∧ (u.queue t).tail = T.tail ∧ (u.queue t).started = []
              ∧ (u.queue t).expSeq = T.expSeq ∧ (u.queue t).fault = {}))) ∧
      (¬ok → StartsAs (exec (.qreset q) s) s q c p bad)) ∧
    (hdrKind c = 0x15 →
      let f := fld c 141 128
      let n := fld c 156 142
      let ok := 1 ≤ n ∧ n ≤ 16384 ∧ ctrIn P f = true ∧ ctrIn P (f + n - 1) = true ∧ bodyClear c [(141, 128), (156, 142)] = true
      (ok → ∃ u, StartsAs (exec (.ctrReset q) s) s q c u {} ∧ Frame [.queues, .ctrs] s u
        ∧ ∀ x, u.ctr x = if f ≤ x ∧ x < f + n then 0 else s.ctr x) ∧
      (¬ok → StartsAs (exec (.ctrReset q) s) s q c p bad)) ∧
    (hdrKind c = 0x14 →
      let d := fld c 223 176
      let ok := queueIn P t = true ∧ d % 128 = 0 ∧ bodyClear c [(147, 128), (223, 176)] = true
      (¬ok → StartsAs (exec (.qread q) s) s q c p (failed stINVALID 7)) ∧
      (ok → writable P d 128 = false → StartsAs (exec (.qread q) s) s q c p (failed stADDRESS 7 d)) ∧
      (ok → writable P d 128 = true → ∃ u key, StartsAs (exec (.qread q) s) s q c u {} ∧ keyOf P k d = some key ∧
        memRead u.mem key 128 = toLe 128 (ctxImage k (p.queue t)) ∧ BytesStand key 128 s u ∧ Frame [.queues, .parts, .mem] s u))

/-- In a queue that is not RESETTING and writes no completion records, the oldest started command whose work is done
completes: the commands behind it move up, and with CPL_EN its counter rises by one on status OK or LIMIT and stands on
any other. A faulting status puts the queue into FAULT, HEAD where it was, with the fault record written if it is the
first and FCOUNT raised if not. While its work is not done nothing changes. (06 R172, 06 R173, 06 R174, 07 R191) -/
def Obligations.OldestCommandCompletes : Prop :=
  ∀ (s : State) (q : Qid) (k : Nat) (r : Started) (rest : List Started), s.calm → ownerOf s q.toNat = some k →
    let Q := s.queue q.toNat
    let c := r.cmd.toNat
    Q.st = .active ∨ Q.st = .faulted → Q.started = r :: rest → Q.cplRec = false → r.recTag = none →
    (r.work = .done → pageSig c = false →
      Answers (exec (.commandCompletes q) s) fun t =>
        rest <+: (t.queue q.toNat).started ∧
        (faulting r.status = false → (t.ctr (hdrCplCtr c)).toNat =
          if hdrCplEn c = true ∧ (r.status = stOK ∨ r.status = stLIMIT) then min ((s.ctr (hdrCplCtr c)).toNat + 1) (2 ^ 64 - 1)
          else (s.ctr (hdrCplCtr c)).toNat) ∧
        (faulting r.status = true → (t.queue q.toNat).st = .faulted ∧ (t.queue q.toNat).head = Q.head ∧ t.ctrs = s.ctrs ∧
          (t.queue q.toNat).fault = if Q.fault.fcount = 0 then faultRec (s.part k).stepNo r
            else { Q.fault with fcount := satAdd 16 Q.fault.fcount 1 })) ∧
    ((∃ ts, r.work = .tiles ts) → exec (.commandCompletes q) s = .next s)

/-- While the clocks run: a doorbell for a queue outside the page's range, DISABLED, or of a partition not ACTIVE is
dropped, counted and flagged, and no queue changes; one with the queue's own TAIL changes nothing; one within the ring
and less than 2^23 ahead gives the queue its new TAIL; any other leaves TAIL and puts the queue into FAULT, and the
first such fault records DOORBELL with the offending TAIL. (06 R170, 06 R174, 06 R186, 11 R322, 06 Table 06.10) -/
def Obligations.Doorbells : Prop :=
  ∀ (s : State) (k : Fin 16) (val : BitVec 64), s.running → s.calm →
    let q := val.toNat % 2 ^ 20
    let tail : BitVec 24 := val.extractLsb' 20 24
    let P := s.part k
    let Q := s.queue q
    let mine := P.alloc.qbase.toNat ≤ q ∧ q < P.alloc.qbase.toNat + P.alloc.qcount.toNat ∧ Q.st ≠ .disabled ∧ P.st = .active
    let fits := (tail - Q.head).toNat ≤ 2 ^ Q.ringLog2.toNat ∧ (tail - Q.tail).toNat < 2 ^ 23
    (¬mine → Answers (exec (.qDoorbell k val) s) fun t => Frame [.parts] s t ∧ (t.part k).qpage.event.getLsbD 2 = true
      ∧ (t.part k).qpage.dbDrop = satAdd 64 P.qpage.dbDrop 1) ∧
    (mine → tail = Q.tail → exec (.qDoorbell k val) s = .next s) ∧
    (mine → tail ≠ Q.tail → fits → Answers (exec (.qDoorbell k val) s) fun t => (t.queue q).tail = tail ∧ (t.queue q).st = Q.st) ∧
    (mine → tail ≠ Q.tail → ¬fits → Answers (exec (.qDoorbell k val) s) fun t =>
      (t.queue q).tail = Q.tail ∧ (t.queue q).st = (if Q.st = .resetting then .resetting else .faulted) ∧ t.ctrs = s.ctrs ∧ t.mem = s.mem
        ∧ (Q.fault.fcount = 0 → (t.queue q).fault.status = stDOORBELL ∧ (t.queue q).fault.idx = tail)
        ∧ (Q.st ≠ .faulted → (t.part k).qpage.lastFault = BitVec.ofNat 20 q))

/-- An UPDATE that may start: with no update pipe it ends INVALID; on a pipe that waits for no takeover, one that fails
validation ends with that status; one of no rows is degenerate; one with IWIN first promotes its pages; any other sweeps
its rows on the pipe, ending OK, RANGE or ADDRESS, or held back by a securing drain, and stores to no byte outside the
ranges its descriptor names, front ranges through their back range. The descriptor and custom program are read once, at
validation, and kept. An UPDATE whose pages have been promoted then sweeps in the same way from what it kept, or ends
INVALID with no pipe left. (07 R192, 07 R193, 07 R194, 07 R198, 07 R200, 07 R201, 07 R202, 07 R204, 05 R138, 12 R355) -/
def Obligations.UpdateStarts : Prop :=
  ∀ (s : State) (q : Qid) (k c : Nat), s.calm → ∀ e ∈ [(Instr.sgdWithMomentum q, 0), (.adamw q, 1), (.lion q, 2), (.factored q, 3),
      (.custom q, 4), (.copy q, 5)],
    let P := s.part k
    let v := uValidate s k c
    let h := (s.queue q.toNat).head
    let swept (p : Nat) (idx : BitVec 24) (d : Nat) (ws : List Nat) (z u : State) (r : Started) : Prop :=
      (u, r) = runUpdate z k q.toNat p idx c d ws ∧ Frame [.mem, .queues, .parts, .pipes, .snoops] s u
        ∧ (r.status = stOK ∨ r.status = stRANGE ∨ r.status = stADDRESS) ∧ (r.work = .done ∨ ∃ w, w ≠ [] ∧ r.work = .held w)
        ∧ ((∀ x ∈ uUses c d, x.2.2 = true → ∀ a, x.1 ≤ a → a < x.1 + x.2.1 → backOf P a = backOf P x.1 + (a - x.1)) →
          StoresWithin P k ((uUses c d).map fun x => (if x.2.2 then backOf P x.1 else x.1, x.2.1)) s u)
    let d := s.loadNat k (uDesc c) 128
    let ws := uWords s k c d
    isUpdate e.2 c = true →
    (s.ready q k c → readyUpdate s q.toNat e.2 = none →
      (pipeOf s P c = none → StartsAs (exec e.1 s) s q c (popFront s q.toNat) (failed stINVALID 3)) ∧
      let z := noteUpdate (popFront s q.toNat) k c
      ∀ p, pipeOf s P c = some p → pipeDue s k c = false →
        (v.1 ≠ stOK → StartsAs (exec e.1 s) s q c z (failed v.1 3 v.2 p)) ∧
        (v.1 = stOK → uRows c = 0 → StartsAs (exec e.1 s) s q c z { degen := true }) ∧
        (v.1 = stOK → uRows c ≠ 0 → uIwin c = true →
          exec e.1 s = .next (startPages (pushStarted (z.setOrder (s.order + 1)) q.toNat h c
            { work := .pages (uPages c d) [] none [], arrived := s.order + 1, desc := BitVec.ofNat 1024 d, aux := ws }) k q.toNat h)) ∧
        (v.1 = stOK → uRows c ≠ 0 → uIwin c = false →
          ∃ u r, StartsAs (exec e.1 s) s q c u { r with desc := BitVec.ofNat 1024 d, aux := ws } ∧ swept p h d ws z u r)) ∧
    (∀ w, s.running → readyUpdate s q.toNat e.2 = some w → w.cmd.toNat = c → ownerOf s q.toNat = some k →
      (s.queue q.toNat).st ≠ .resetting → uCmdOk c = true →
      (pipeOf s P c = none → exec e.1 s = .next (endWork s q.toNat w.idx stINVALID)) ∧
      ∀ p, pipeOf s P c = some p → pipeDue s k c = false →
      ∃ u r, swept p w.idx w.desc.toNat w.aux s u r ∧
        exec e.1 s = .next (modStarted u q.toNat w.idx fun y => { r with
          idx := y.idx, cmd := y.cmd, arrived := y.arrived, since := y.since, desc := BitVec.ofNat 1024 w.desc.toNat, aux := w.aux }))

/-- While the UPDATE of a pipe's group has not completed, MOV, ADD, SUB, MUL, MULH, ADDH, DIV, SQRT, SIGN, NEG and MAX with
that OP and no reserved bit complete: every element that is not NaN takes the operation's result in register D, and is
NaN from then on when its exponent leaves [-16384, 16383]; a NaN element keeps its registers. DIV by zero gives zero and
counts in HC_DIV0. Every other register, pipe and part of the pipe stands. The pipe rows are the model's (log 32).
Fitting a number to the machine leaves it alone below 2^62 in magnitude; else it has fewer than 63 bits, its sign stands
and it lies within half a unit of the exact value. Sums are exact before they are fitted. A quotient truncates the
division of magnitudes at 64 fraction bits and has the sign of the exact quotient. A square root of a positive number is
the integer root of the mantissa at an even exponent with 64 more bits; of any other it is zero. (07 R196, 07 R197, 07
R199, 07 Table 07.6, 07 Table 07.7, 02 R40) -/
def Obligations.MicroOperations : Prop :=
  (∀ n q : Int,
    let r := fitQ n q
    (n.natAbs < 2 ^ 62 → r = (n, q)) ∧
    (2 ^ 62 ≤ n.natAbs → q < r.2 ∧ r.1.natAbs < 2 ^ 62 ∧ (0 < r.1 ↔ 0 < n)
      ∧ 2 * (r.1 * 2 ^ (r.2 - q).toNat - n).natAbs ≤ 2 ^ (r.2 - q).toNat)) ∧
  (∀ a b : Int × Int,
    let r := xadd a b
    r.2 ≤ a.2 ∧ r.2 ≤ b.2 ∧ r.1 = a.1 * 2 ^ (a.2 - r.2).toNat + b.1 * 2 ^ (b.2 - r.2).toNat) ∧
  (∀ a b : Int × Int, b.1 ≠ 0 → ∃ n : Int, divQ a b = fitQ n (a.2 - b.2 - 64)
    ∧ n.natAbs * b.1.natAbs ≤ a.1.natAbs * 2 ^ 64 ∧ a.1.natAbs * 2 ^ 64 < (n.natAbs + 1) * b.1.natAbs
    ∧ (n < 0 → a.1 * b.1 < 0) ∧ (0 < n → 0 < a.1 * b.1)) ∧
  (∀ a : Int × Int, (a.1 ≤ 0 → sqrtQ a = (0, 0)) ∧
    (0 < a.1 → ∃ (t : Nat) (e : Int) (n : Nat), e % 2 = 0 ∧ ((t : Int) = a.1 ∧ e = a.2 ∨ (t : Int) = 2 * a.1 ∧ e = a.2 - 1)
      ∧ n * n ≤ t * 2 ^ 64 ∧ t * 2 ^ 64 < (n + 1) * (n + 1) ∧ ∃ h : Int, 2 * h = e - 64 ∧ sqrtQ a = fitQ n h)) ∧
  (∀ (s : State) (p : Fin 16) (w : BitVec 32) (g : Pipe) (x : UCtx) (es : List UEl), pipeGroup s p.val = some (g, x, es) →
    let m := mopOf w.toNat
    ∀ e ∈ ([(.microMov p w, 1, fun a _ _ => a), (.microAdd p w, 2, fun a b _ => fitP (xadd a b)),
        (.microSub p w, 3, fun a b _ => fitP (xadd a (-b.1, b.2))), (.microMul p w, 4, fun a b _ => fitQ (a.1 * b.1) (a.2 + b.2)),
        (.microMulh p w, 5, fun a _ h => fitQ (a.1 * h.1) (a.2 + h.2)), (.microAddh p w, 6, fun a _ h => fitP (xadd a h)),
        (.microDiv p w, 7, fun a b _ => if b.1 = 0 then (0, 0) else divQ a b), (.microSqrt p w, 8, fun a _ _ => sqrtQ a),
        (.microSign p w, 9, fun a _ _ => (if a.1 > 0 then 1 else if a.1 < 0 then -1 else 0, 0)),
        (.microNeg p w, 10, fun a _ _ => (-a.1, a.2)),
        (.microMax p w, 11, fun a b _ => if 0 ≤ (xadd a (-b.1, b.2)).1 then a else b)] :
          List (Instr × Nat × (Int × Int → Int × Int → Int × Int → Int × Int))),
      m.op = e.2.1 → bitsOf w.toNat 14 0 = 0 →
      Answers (exec e.1 s) fun t => Frame [.parts, .pipes] s t ∧ (∀ i, i ≠ p.val → t.pipe i = s.pipe i) ∧
        (∀ i, i ≠ x.k → t.part i = s.part i) ∧
        (let z := es.countP fun v => !v.nan && decide ((v.x.getD m.b (0, 0)).1 = 0)
         t.part x.k = { s.part x.k with health := { (s.part x.k).health with
           div0 := satAdd 32 (s.part x.k).health.div0 (if e.2.1 = 7 then z else 0) } }) ∧
        t.pipe p.val = { g with regs := (t.pipe p.val).regs, nans := (t.pipe p.val).nans } ∧
        (t.pipe p.val).regs.length = es.length ∧ (t.pipe p.val).nans.length = es.length ∧
        ∀ i v, es[i]? = some v →
          let y := e.2.2 (v.x.getD m.a (0, 0)) (v.x.getD m.b (0, 0)) (x.hp.getD m.h (0, 0))
          (t.pipe p.val).regs.getD i [] = (if v.nan then v.x else v.x.set m.d y) ∧
          (t.pipe p.val).nans.getD i false = (v.nan || decide (y.2 < -16384 ∨ 16383 < y.2)))

/-- ENC encodes x2 (and x3 with two moments) of the group as one S16 group each, writes elements and scale to the back face
and reloads them: each element then holds the stored integer at the group's exponent, or all are NaN. END writes the
group's master, working and serving elements with their scales and the row code. Neither stores anywhere else or touches
another pipe. BACK_PAGE_WRITE stores the held writes whose page no drain holds any more; with none left the work is
done. (07 R198, 07 R199, 07 R204, 02 R42) -/
def Obligations.UpdateStores : Prop :=
  (∀ (s : State) (p : Fin 16) (w : BitVec 32) (g : Pipe) (x : UCtx) (es : List UEl), s.calm → pipeGroup s p.val = some (g, x, es) →
    bitsOf w.toNat 14 0 = 0 →
    let P := s.part x.k
    let n := es.length
    let o := g.row * uCols x.c + g.col
    let wg := groupOf (ccwMode (uWccw x.c))
    let sg := groupOf (ccwMode (uSccw x.c))
    let moment (j : Nat) : List (Nat × Nat) := [(backOf P (uAddr x.d (uM1 + 2 * (j - 2)) + 2 * o), 2 * n),
      (backOf P (uAddr x.d (uM1Sc + 2 * (j - 2)) + o / 128), 1)]
    (bitsOf w.toNat 31 27 = 0x0C → uMoms x.c ≠ 0 → Answers (exec (.enc p w) s) fun t =>
      let e (j : Nat) := encodeGroup 16 (es.map fun v => if v.nan then exactNan else exactOf (v.x.getD j (0, 0)).1 (v.x.getD j (0, 0)).2)
      Frame [.mem, .queues, .parts, .pipes, .snoops] s t ∧ (∀ i, i ≠ p.val → t.pipe i = s.pipe i) ∧
      StoresWithin P x.k (moment 2 ++ if uMoms x.c = 2 then moment 3 else []) s t ∧
      (uMoms x.c = 1 → ∀ i v, es[i]? = some v →
        (t.pipe p.val).nans.getD i false = (v.nan || decide ((e 2).1 = 0xFF)) ∧
        (t.pipe p.val).regs.getD i [] =
          if (e 2).1 = 0xFF then v.x else v.x.set 2 ((e 2).2.1.getD i 0, ((e 2).1 : Int) - 127)) ∧
      (uMoms x.c = 2 →
        let f := encodeGroup 16 (es.map fun v => if v.nan || decide ((e 2).1 = 0xFF) then exactNan
          else exactOf (v.x.getD 3 (0, 0)).1 (v.x.getD 3 (0, 0)).2)
        ∀ i v, es[i]? = some v →
          (t.pipe p.val).nans.getD i false = (v.nan || decide ((e 2).1 = 0xFF) || decide (f.1 = 0xFF)) ∧
          (t.pipe p.val).regs.getD i [] =
            let y := if (e 2).1 = 0xFF then v.x else v.x.set 2 ((e 2).2.1.getD i 0, ((e 2).1 : Int) - 127)
            if f.1 = 0xFF then y else y.set 3 (f.2.1.getD i 0, (f.1 : Int) - 127))) ∧
    (bitsOf w.toNat 31 27 = 0 → Answers (exec (.microEnd p w) s) fun t =>
      Frame [.mem, .queues, .parts, .snoops] s t ∧
      StoresWithin P x.k ([(backOf P (uAddr x.d uMasterSc + g.row), 1), (backOf P (uAddr x.d uMaster + 4 * o), 4 * n),
        (uAddr x.d uWork + o, n), (uAddr x.d uWorkSc + o / wg, (n + wg - 1) / wg)]
        ++ if uServe x.c then [(backOf P (uAddr x.d uServeA + o / 2), (4 * n + 7) / 8), (backOf P (uAddr x.d uServeSc + o / sg), (n + sg - 1) / sg)]
           else []) s t)) ∧
  (∀ (s : State) (q : Qid) (k : Nat) (r : Started) (ws : List (Nat × Bytes)), s.running → s.calm → ownerOf s q.toNat = some k →
    (s.queue q.toNat).started.find? (fun y => match y.work with | .held _ => true | _ => false) = some r → r.work = .held ws →
    let P := s.part k
    let free := ws.filter fun w => !heldPage P w.1
    let left := ws.filter fun w => heldPage P w.1
    Answers (exec (.backPageWrite q) s) fun t => Frame [.mem, .queues, .parts, .snoops] s t ∧
      StoresWithin P k (free.map fun w => (w.1, w.2.length)) s t ∧
      (∀ y ∈ (t.queue q.toNat).started, y.idx = r.idx → y.work = if left = [] then .done else .held left))

/-- A LOSS or LATCH of an aligned address with no reserved bit set, on a pipe that waits for no takeover, reads or writes
eight bytes there, ADDRESS if it may not. LOSS clears NOLOSS; a NaN record adds one to HC_NAN and leaves the register;
any other replaces it by the loss in units of 2^-16, rounded and saturated, and sets SPIKE when that lies outside LS_MIN
to LS_MAX or, after 64 folded steps, more than LS_K deviations above the mean; SPIKE never clears. LATCH stores the
health word at its destination and records it with the five counters, VOTE_MASK and LS_A. Both leave memory otherwise as
it was. (07 R212, 07 R213, 07 R215, 07 Table 07.9, 07 Table 07.11, 05 R126, 12 R378, 14 R430) -/
def Obligations.LossAndLatch : Prop :=
  ∀ (s : State) (q : Qid) (k c p : Nat), s.ready q k c → pipeOf s (s.part k) c = some p → pipeDue s k c = false →
    let P := s.part k
    let h := P.health
    let a := fld c 175 128
    let z := popFront s q.toNat
    let legal : Prop := a % 8 = 0 ∧ bodyClear c [(175, 128)] = true
    (isKind 2 0x11 c = true →
      (¬legal → StartsAs (exec (.loss q) s) s q c z (failed stINVALID 3 0 p)) ∧
      (legal → readable P a 8 = false → StartsAs (exec (.loss q) s) s q c z (failed stADDRESS 3 a p)) ∧
      (legal → readable P a 8 = true → ∃ u, StartsAs (exec (.loss q) s) s q c u {} ∧ Frame [.queues, .parts, .snoops] s u ∧
        let g := (u.part k).health
        let w := s.loadNat k a 8
        let x := roundInt (BitVec.ofNat 32 (bitsOf w 31 0)).toInt ((bitsOf w 39 32 : Int) - 127) (-16)
        let lq := max (-(2 ^ 63 - 1)) (min (2 ^ 63 - 1) x)
        let d := lq - h.lsMean.toInt
        g.noLoss = false ∧ (h.spike = true → g.spike = true) ∧ g.lsMean = h.lsMean ∧ g.lsVar = h.lsVar ∧ g.lsN = h.lsN ∧
        g.latch = h.latch ∧ g.sat = h.sat ∧ g.flush = h.flush ∧ g.div0 = h.div0 ∧ g.xsat = h.xsat ∧ g.ue = h.ue ∧ g.qfault = h.qfault ∧
        (bitsOf w 39 32 = 0xFF → g.loss = h.loss ∧ g.nanLoss = true ∧ g.nan = satAdd 32 h.nan 1 ∧ g.spike = h.spike) ∧
        (bitsOf w 39 32 ≠ 0xFF → g.loss.toInt = lq ∧ g.nan = h.nan ∧ g.nanLoss = h.nanLoss ∧
          (h.spike = false → (g.spike = true ↔ lq < P.dict.lsMin.toInt ∨ P.dict.lsMax.toInt < lq ∨
            64 ≤ h.lsN.toNat ∧ 0 < d ∧ (P.dict.lsK.toNat * P.dict.lsK.toNat * h.lsVar.toNat : Int) < d * d * 2 ^ 16))))) ∧
    (isKind 2 0x12 c = true →
      (¬legal → StartsAs (exec (.latch q) s) s q c z (failed stINVALID 3 0 p)) ∧
      (legal → writable P a 8 = false → StartsAs (exec (.latch q) s) s q c z (failed stADDRESS 3 a p)) ∧
      (legal → writable P a 8 = true → ∃ u, StartsAs (exec (.latch q) s) s q c u {} ∧ Frame [.mem, .queues, .parts, .snoops] s u ∧
        let g := (u.part k).health
        let w : BitVec 64 := BitVec.ofNat 64 (healthWord P)
        g.latch = some (w, [h.nan, h.sat, h.flush, h.div0, h.xsat]) ∧ g.word = w ∧ g.latchMask = P.dict.voteMask ∧
        g.latchLsA = P.dict.lsA ∧ g.post = 0 ∧ g.nan = h.nan ∧ g.sat = h.sat ∧ g.flush = h.flush ∧ g.div0 = h.div0 ∧
        g.xsat = h.xsat ∧ g.spike = h.spike ∧ g.loss = h.loss ∧ (u.part k).stepNo = P.stepNo ∧
        (∀ key, keyOf P k a = some key → memRead u.mem key 8 = toLe 8 w.toNat) ∧ StoresWithin P k [(a, 8)] s u))

/-- A valid COMMIT of the partition's step, its pairs at rest, reads the voted word. If no masked bit is set, its step
agrees, and the replay of a restored step shows the recorded fingerprint, the step number rises by one, the loss
register is folded into the detector, the committed count rises, and OK_CTR alone gains one; memory stands, so every
pair has turned over by the step number. Else, and on REFUSE, the step number and detector stand, scratch ranges read
zero, the refused count rises, and a COMMIT adds one to REF_CTR. Both take the latched counters away and leave the rest
for the next step. A COMMIT or REFUSE naming another step ends INVALID. (07 R190, 07 R214, 07 R217, 07 R218, 07 R219, 07
R206, 12 Table 12.8, 14 R430) -/
def Obligations.CommitGate : Prop :=
  ∀ (s : State) (q : Qid) (k c p : Nat), s.ready q k c → pipeOf s (s.part k) c = some p → pipeDue s k c = false →
    let P := s.part k
    let h := P.health
    let z := popFront s q.toNat
    let a := fld c 175 128
    let v := s.loadNat k a 8
    let passes : Prop := (BitVec.ofNat 16 v &&& judgeMask P) = 0 ∧ bitsOf v 63 48 = P.stepNo.toNat % 2 ^ 16
      ∧ P.verify.any (fun f => decide (f ≠ h.fp)) = false
    let sub (i : Nat) (x : BitVec 32) : BitVec 32 := match h.latch with | some (_, l) => x - l.getD i 0 | none => 0
    let closed (g : Health) : Prop := g.nan = sub 0 h.nan ∧ g.sat = sub 1 h.sat ∧ g.flush = sub 2 h.flush ∧ g.div0 = sub 3 h.div0
      ∧ g.xsat = sub 4 h.xsat ∧ g.ue = (h.latch.isSome && h.post.getLsbD 0) ∧ g.qfault = (h.latch.isSome && h.post.getLsbD 1)
      ∧ g.spike = (h.latch.isSome && h.post.getLsbD 2) ∧ g.noLoss = !(h.latch.isSome && h.post.getLsbD 3) ∧ g.latch = none
      ∧ g.loss = h.loss
    let refused (u : State) : Prop := (u.part k).stepNo = P.stepNo ∧ closed (u.part k).health
      ∧ (u.part k).health.stepsRef = satAdd 64 h.stepsRef 1 ∧ (u.part k).health.stepsOk = h.stepsOk
      ∧ (u.part k).health.lsMean = h.lsMean ∧ (u.part k).health.lsVar = h.lsVar ∧ (u.part k).health.lsN = h.lsN
      ∧ StoresWithin P k ((P.regions.filter fun e => e.2.kind = .scratch).map fun e => (e.2.front.toNat, 2 ^ 21 * e.2.npages)) s u
      ∧ ∀ e ∈ P.regions, e.2.kind = .scratch → ∀ x, e.2.front.toNat ≤ x → x < e.2.front.toNat + 2 ^ 21 * e.2.npages →
          ∀ key, keyOf P k x = some key → cellAt u.mem key = 0
    (isKind 2 0x13 c = true → commitOk P c = false → StartsAs (exec (.commit q) s) s q c z (failed stINVALID 3 0 p)) ∧
    (isKind 2 0x13 c = true → commitOk P c = true → pairsMigrating P = false →
      fld c 223 176 = P.stepNo.toNat ∧
      (readable P a 8 = false → StartsAs (exec (.commit q) s) s q c z (failed stADDRESS 3 a p)) ∧
      (readable P a 8 = true → ∃ u, StartsAs (exec (.commit q) s) s q c u {} ∧
        Frame [.mem, .queues, .ctrs, .parts, .link, .vectors, .pins, .power, .ripstop, .snoops] s u ∧
        (passes → u.mem = s.mem ∧ (u.part k).stepNo = P.stepNo + 1 ∧ closed (u.part k).health ∧
          (u.part k).health.stepsOk = satAdd 64 h.stepsOk 1 ∧ (u.part k).health.stepsRef = h.stepsRef ∧
          (∀ x, u.ctr x = if x = fld c 237 224 then satAdd 64 (s.ctr x) 1 else s.ctr x) ∧
          (u.part k).health.lsN.toNat = min (2 ^ 32 - 1) (h.lsN.toNat + 1) ∧
          (h.lsN = 0 → (u.part k).health.lsMean = h.loss ∧ (u.part k).health.lsVar = 0) ∧
          (h.lsN ≠ 0 → let d := h.loss.toInt - h.lsMean.toInt
            (u.part k).health.lsMean = BitVec.ofInt 64 (h.lsMean.toInt + d / 2 ^ judgeLsA P) ∧
            (u.part k).health.lsVar = BitVec.ofInt 128 ((h.lsVar.toNat : Int) + (d * d - h.lsVar.toNat) / 2 ^ judgeLsA P))) ∧
        (¬passes → refused u ∧ ∀ x, u.ctr x = if x = fld c 251 238 then satAdd 64 (s.ctr x) 1 else s.ctr x))) ∧
    (isKind 2 0x14 c = true →
      let legal : Prop := fld c 223 176 = P.stepNo.toNat ∧ bodyClear c [(223, 176)] = true
      (¬legal → StartsAs (exec (.refuse q) s) s q c z (failed stINVALID 3 0 p)) ∧
      (legal → ∃ u, StartsAs (exec (.refuse q) s) s q c u {} ∧ Frame [.mem, .queues, .parts, .snoops] s u ∧ refused u))

/-- A valid definition enters its range under its INDEX with the present step number, every other entry as it was; a scratch
range then reads zero, and no other byte changes. An invalid one, and a removal of an index that holds nothing, ends
INVALID. A removal drops that entry alone. DSTEP sets the step number, and is INVALID while a pair is defined. PHASE
gives each slice it names the phase and ends when the last has switched; a phase above 5 or a slice outside the
partition is INVALID. With no update pipe each ends INVALID. (07 R188, 07 R205, 07 R206, 07 R208, 07 R222, 12 R377) -/
def Obligations.RegionsStepAndPhase : Prop :=
  ∀ (s : State) (q : Qid) (k c : Nat), s.ready q k c →
    let P := s.part k
    let z := popFront s q.toNat
    let i := rgIndex c
    let only (u : State) (r : Region) : Prop := tfind (u.part k).regions i = some r ∧ (∀ j, j ≠ i → tfind (u.part k).regions j = tfind P.regions j)
      ∧ (u.part k).stepNo = P.stepNo
    let scratch := regionOf P c .scratch
    (pipeOf s P c = none → ∀ e ∈ [(Instr.dstep q, isKind 2 0x16 c), (.phase q, isKind 2 0x17 c), (.loss q, isKind 2 0x11 c),
        (.latch q, isKind 2 0x12 c), (.refuse q, isKind 2 0x14 c), (.defineDamaskPair q, isKind 2 0x15 c && rgOp c = 0),
        (.defineStepScratchRange q, isKind 2 0x15 c && rgOp c = 1), (.removeEntry q, isKind 2 0x15 c && rgOp c = 2),
        (.defineBuddyRange q, isKind 2 0x15 c && rgOp c = 3)],
      e.2 = true → StartsAs (exec e.1 s) s q c z (failed stINVALID 3)) ∧
    ∀ p, pipeOf s P c = some p → pipeDue s k c = false →
      let bad := failed stINVALID 3 0 p
      (isKind 2 0x15 c = true → rgOp c = 0 →
        let r := regionOf P c .pair
        (regionOk P c r = false → StartsAs (exec (.defineDamaskPair q) s) s q c z bad) ∧
        (regionOk P c r = true → ∃ u, StartsAs (exec (.defineDamaskPair q) s) s q c u {} ∧ Frame [.queues, .parts] s u ∧ only u r)) ∧
      (isKind 2 0x15 c = true → rgOp c = 1 →
        (¬(regionOk P c scratch = true ∧ rgBack c = 0) → StartsAs (exec (.defineStepScratchRange q) s) s q c z bad) ∧
        (regionOk P c scratch = true → rgBack c = 0 → ∃ u, StartsAs (exec (.defineStepScratchRange q) s) s q c u {} ∧
          Frame [.mem, .queues, .parts, .snoops] s u ∧ only u scratch ∧
          StoresWithin P k [(rgFront c, 2 ^ 21 * rgPages c)] s u ∧
          ∀ x, rgFront c ≤ x → x < rgFront c + 2 ^ 21 * rgPages c → ∀ key, keyOf P k x = some key → cellAt u.mem key = 0)) ∧
      (isKind 2 0x15 c = true → rgOp c = 2 →
        (tfind P.regions i = none ∨ bodyClear c [(255, 128)] = false → StartsAs (exec (.removeEntry q) s) s q c z bad) ∧
        (tfind P.regions i ≠ none → bodyClear c [(255, 128)] = true →
          ∃ u, StartsAs (exec (.removeEntry q) s) s q c u {} ∧ Frame [.queues, .parts] s u ∧ tfind (u.part k).regions i = none ∧
            (∀ j, j ≠ i → tfind (u.part k).regions j = tfind P.regions j) ∧ (u.part k).stepNo = P.stepNo)) ∧
      (isKind 2 0x15 c = true → rgOp c = 3 →
        let r := regionOf P c .buddy
        (¬(regionOk P c r = true ∧ rgBack c < 2 ^ 16) → StartsAs (exec (.defineBuddyRange q) s) s q c z bad) ∧
        (regionOk P c r = true → rgBack c < 2 ^ 16 →
          ∃ u, StartsAs (exec (.defineBuddyRange q) s) s q c u {} ∧ Frame [.queues, .parts] s u ∧ only u r)) ∧
      (isKind 2 0x16 c = true →
        let legal : Prop := (∀ e ∈ P.regions, e.2.kind ≠ .pair) ∧ bodyClear c [(175, 128)] = true
        (¬legal → StartsAs (exec (.dstep q) s) s q c z bad) ∧
        (legal → ∃ u, StartsAs (exec (.dstep q) s) s q c u {} ∧ Frame [.queues, .parts] s u ∧
          u.part k = { P with stepNo := BitVec.ofNat 48 (fld c 175 128) } ∧ ∀ j, j ≠ k → u.part j = s.part j)) ∧
      (isKind 2 0x17 c = true →
        let m := fld c 146 131
        let legal : Prop := fld c 130 128 ≤ 5 ∧ m < 2 ^ sliceCount P ∧ bodyClear c [(130, 128), (146, 131)] = true
        (¬legal → StartsAs (exec (.phase q) s) s q c z bad) ∧
        (legal → ∃ u, StartsAs (exec (.phase q) s) s q c u
            { work := if maskSlices P m = [] then .done else .phase (maskSlices P m) } ∧ Frame [.queues, .slices, .dies] s u ∧
          ∀ j, (j ∈ maskSlices P m → (u.slice j).phase = BitVec.ofNat 3 (fld c 130 128)) ∧ (j ∉ maskSlices P m → u.slice j = s.slice j)))

/-- Each of them that may start and fails validation ends INVALID or ADDRESS and does nothing else but refresh the age of
the pages it read; a command that needs a job ends INVALID without one. JOIN gives the partition the job its descriptor
describes, and the newest key loaded before it becomes the send slot. SLOTOPEN with its pages in place opens the slot,
zero-filled, under the present step; in an epoch a transition has closed it is INVALID. A CONTRIB zero-fills its source,
keeps its narrowed elements in CBUF and, as primary, claims. A BCAST waits for its slot. PUT, FGATHER and RSIGNAL send
their messages. Each writes only the ranges it names. (08 R225, 08 R226, 08 R230, 08 R232, 08 R234, 08 R245, 08 R246, 08
R249, 08 R252, 06 R184, 05 R138, 11 R336) -/
def Obligations.CollectiveStarts : Prop :=
  ∀ (s : State) (q : Qid) (k c : Nat), s.ready q k c →
    let P := s.part k
    let z := popFront s q.toNat
    let h := (s.queue q.toNat).head
    let bad := failed stINVALID 6
    let goes (i : Instr) (u : State) (r : Started) (g : State → Nat → Started → State) : Prop :=
      exec i s = .next (g (pushStarted u q.toNat h c r) k { r with idx := h, cmd := BitVec.ofNat 512 c })
    (P.job = none → ∀ e ∈ [(Instr.slotopen q, 0x11), (.contrib q, 0x12), (.bcast q, 0x13), (.put q, 0x14), (.fgather q, 0x15),
        (.hvote q, 0x17), (.jersey q, 0x18), (.rankset q, 0x19)],
      isKind 4 e.2 c = true → (e.2 = 0x11 → (s.queue q.toNat).started.find? (fun r => r.work = .iwin && isKind 4 0x11 r.cmd.toNat) = none) →
      StartsAs (exec e.1 s) s q c z bad) ∧
    (isKind 4 0x10 c = true →
      let a := fld c 175 128
      let legal : Prop := P.job = none ∧ a % 64 = 0 ∧ bodyClear c [(175, 128), (191, 176)] = true
      let d := readJob s k a (BitVec.ofNat 16 (fld c 191 176))
      (¬legal → StartsAs (exec (.join q) s) s q c z bad) ∧
      (legal → ∀ f, d = .error f → StartsAs (exec (.join q) s) s q c (noteJob z k a) (failed stADDRESS 6 f)) ∧
      (legal → d = .ok none → StartsAs (exec (.join q) s) s q c (noteJob z k a) bad) ∧
      (legal → ∀ J, d = .ok (some J) → ∃ u, StartsAs (exec (.join q) s) s q c u {} ∧ Frame [.queues, .parts] s u ∧
        u.part k = takeLoaded { (noteJob z k a).part k with job := some J, conns := [], silent := [], subAsked := [] } ∧ ∀ j, j ≠ k → u.part j = s.part j)) ∧
    (isKind 4 0x11 c = true → P.job ≠ none →
      (s.queue q.toNat).started.find? (fun r => r.work = .iwin && isKind 4 0x11 r.cmd.toNat) = none →
      let v := if epochClosed P (soEpoch c) = true then (stINVALID, 0) else soValidate s k c
      (v.1 ≠ stOK → StartsAs (exec (.slotopen q) s) s q c (z.noteIf k (soMap c) (4 * soNc c)) (failed v.1 6 v.2)) ∧
      (v.1 = stOK → (bitOf c 349 = false ∨ 0xF00000000000 ≤ soAddr c) → ∃ u, StartsAs (exec (.slotopen q) s) s q c u {} ∧
        Frame [.mem, .queues, .parts, .ports, .link, .vectors, .pins, .power, .ripstop, .ethTx, .snoops] s u ∧
        StoresWithin P k [(soAddr c, 8 * soLen c)] s u ∧
        (∀ x, soAddr c ≤ x → x < soAddr c + 8 * soLen c → ∀ key, keyOf P k x = some key → cellAt u.mem key = 0) ∧
        ∃ S, tfind (u.part k).slots (slotKey (soEpoch c) (soSlot c)) = some S ∧ S.st = .opened ∧ S.addr.toNat = soAddr c ∧
          S.len = soLen c ∧ S.step = P.stepNo ∧ S.sealed = [] ∧ S.sum1 = 0 ∧ S.sum2 = 0 ∧ S.resets = 0 ∧ S.cmap.length = soNc c) ∧
      (v.1 = stOK → bitOf c 349 = true → soAddr c < 0xF00000000000 → goes (.slotopen q) ((z.noteIf k (soMap c) (4 * soNc c)).setOrder (s.order + 1))
        { work := .pages (pagesOf (soAddr c) (8 * soLen c)) [] none [], arrived := s.order + 1 } (movePages q.toNat))) ∧
    (isKind 4 0x12 c = true → P.job ≠ none →
      let v := ctValidate P c
      let n := narrowAll s k (ctSrc c) (ctLen c) (sext 8 (ctExp c))
      (v.1 ≠ stOK → StartsAs (exec (.contrib q) s) s q c z (failed v.1 6 v.2)) ∧
      (v.1 = stOK → ∃ u, goes (.contrib q) u { work := .contrib .waitCall 0 0, flush := n.2.flush > 0, step16 := BitVec.ofNat 16 P.stepNo.toNat }
          (fun t k r => if ctRole c then t else sendClaim t k q.toNat r) ∧
        Frame [.mem, .queues, .parts, .snoops] s u ∧ StoresWithin P k [(ctSrc c, 8 * ctLen c), (ctBuf c, 4 * ctLen c)] s u ∧
        u.mem = ((s.zeroFill k (ctSrc c) (8 * ctLen c)).store k (ctBuf c) (packElems 32 (n.1.map (pat 32)))).mem ∧
        (u.part k).health.xsat = satAdd 32 P.health.xsat n.2.sat ∧ (u.part k).health.nan = satAdd 32 P.health.nan n.2.nanIn)) ∧
    (isKind 4 0x13 c = true → P.job ≠ none →
      let legal : Prop := bcDst c % 64 = 0 ∧ ctrIn P (bcCtr c) = true ∧ fld c 511 234 = 0
      (¬legal → StartsAs (exec (.bcast q) s) s q c z bad) ∧
      (legal → goes (.bcast q) z { work := .bcastWait } (bcastNow q)) ∧
      (legal → (∀ S, tfind P.slots (slotKey (bcEpoch c) (bcSlot c)) = some S → S.st ≠ .closed ∧ S.st ≠ .failed) →
        StartsAs (exec (.bcast q) s) s q c z { work := .bcastWait })) ∧
    (isKind 4 0x14 c = true → ∀ J, P.job = some J →
      let legal : Prop := ptSrc c % 64 = 0 ∧ ptDst c % 64 = 0 ∧ ptBytes c ≠ 0 ∧ ptBytes c % 64 = 0 ∧ fld c 511 287 = 0
      (¬legal → StartsAs (exec (.put q) s) s q c z bad) ∧
      (legal → rankValid J (ptRank c) = false → StartsAs (exec (.put q) s) s q c z (failed stADDRESS 6)) ∧
      (legal → rankValid J (ptRank c) = true → readable P (ptSrc c) (ptBytes c) = false →
        StartsAs (exec (.put q) s) s q c z (failed stADDRESS 6 (firstBad P (ptSrc c) (ptBytes c) false))) ∧
      (legal → rankValid J (ptRank c) = true → readable P (ptSrc c) (ptBytes c) = true →
        goes (.put q) (z.noteRead k (ptSrc c) (ptBytes c)) { work := .lacks ((List.range (putParts c)).map fun i => (ptRank c, i)) }
          (fun t k r => (List.range (putParts c)).foldl (fun t i => sendPart t k q.toNat r i) t))) ∧
    (isKind 4 0x15 c = true → ∀ J, P.job = some J →
      let legal : Prop := fgDst c % 64 = 0 ∧ fgDstSc c % 64 = 0 ∧ fgM c % 64 = 0 ∧ fgMSc c % 64 = 0 ∧ fld c 511 454 = 0 ∧
        fgCols c ≠ 0 ∧ fgCols c % 128 = 0 ∧ (fgFmt c = 0x01 ∨ fgFmt c = 0x06) ∧ ccwOk (fgFmt c) (fgCcw c) = true ∧
        groupOf (ccwMode (fgCcw c)) ≠ 0 ∧ (fgAsync c = true ∨ fgFace c = P.stepNo.toNat)
      let room : Prop := writable P (fgDst c) (fgBytes c) = true ∧ writable P (fgDstSc c) (fgScBytes c) = true
      (¬legal → StartsAs (exec (.fgather q) s) s q c z bad) ∧
      (legal → rankValid J (fgRank c) = true → room → goes (.fgather q) z { work := .gather 0 } (sendGreq q)) ∧
      (legal → ¬(rankValid J (fgRank c) = true ∧ room) → ∃ a, StartsAs (exec (.fgather q) s) s q c z (failed stADDRESS 6 a))) ∧
    (hdrKind c = 2 →
      let u := unitOf (hdrClass c)
      let legal : Prop := fld c 191 160 ≠ 0 ∧ bodyClear c [(141, 128), (159, 144), (191, 160)] = true
      (¬legal ∨ P.job = none → StartsAs (exec (.rsignal q) s) s q c z (failed stINVALID u)) ∧
      (legal → ∀ J, P.job = some J → rankValid J (fld c 159 144) = false →
        StartsAs (exec (.rsignal q) s) s q c z (failed stADDRESS u)) ∧
      (legal → ∀ J, P.job = some J → rankValid J (fld c 159 144) = true →
        goes (.rsignal q) z { work := .rsignal (BitVec.ofNat 16 (fld c 159 144)), ukind := BitVec.ofNat 4 u } (sendRsig q)))

/-- LADD48 of readable images to writable ones adds each image to its destination and stores nowhere else. RANKSET, which
R178 lets start once nothing is incomplete before it, replaces one rank's entry and drops that rank's connection, every
other entry as it was. HVOTE starts a vote with the word at its source, reserved bits cleared. JERSEY takes the job of
the next epoch its descriptor describes. What fails validation ends INVALID or ADDRESS and changes nothing else but the
age of the pages it read. (08 R247, 08 R248, 08 R251, 08 R252, 08 R226, 06 R171) -/
def Obligations.JobCommandsStart : Prop :=
  ∀ (s : State) (q : Qid) (k c : Nat), s.ready q k c →
    let P := s.part k
    let z := popFront s q.toNat
    let h := (s.queue q.toNat).head
    let bad := failed stINVALID 6
    let a := fld c 175 128
    (isKind 4 0x16 c = true →
      let d := fld c 223 176
      let n := fld c 247 224
      let legal : Prop := a % 64 = 0 ∧ d % 64 = 0 ∧ n ≠ 0 ∧ bodyClear c [(175, 128), (223, 176), (247, 224)] = true
      (¬legal → StartsAs (exec (.ladd48 q) s) s q c z bad) ∧
      (legal → readable P a (8 * n) = false →
        StartsAs (exec (.ladd48 q) s) s q c z (failed stADDRESS 6 (firstBad P a (8 * n) false))) ∧
      (legal → readable P a (8 * n) = true → writable P d (8 * n) = false →
        StartsAs (exec (.ladd48 q) s) s q c z (failed stADDRESS 6 (firstBad P d (8 * n) true))) ∧
      (legal → readable P a (8 * n) = true → writable P d (8 * n) = true →
        ∃ u, StartsAs (exec (.ladd48 q) s) s q c u {} ∧ Frame [.mem, .queues, .parts, .snoops] s u ∧ StoresWithin P k [(d, 8 * n)] s u ∧
          (n = 1 → ∀ x y, keyOf P k a = some x → keyOf P k d = some y →
            memRead u.mem y 8 = toLe 8 (s48To (s48Merge (s48Of (s.loadNat k d 8)) (s48Of (s.loadNat k a 8))))))) ∧
    (isKind 4 0x19 c = true → P.job ≠ none →
      let r := fld c 191 176
      let legal : Prop := a % 64 = 0 ∧ bodyClear c [(175, 128), (191, 176)] = true ∧ ∃ J, P.job = some J ∧ r < jobSize J
      (¬legal → StartsAs (exec (.rankset q) s) s q c z bad) ∧
      (legal → readable P a 32 = false → StartsAs (exec (.rankset q) s) s q c z (failed stADDRESS 6 a)) ∧
      (legal → readable P a 32 = true → rankClear (s.loadNat k a 32) = false →
        StartsAs (exec (.rankset q) s) s q c (z.noteRead k a 32) bad) ∧
      (legal → readable P a 32 = true → rankClear (s.loadNat k a 32) = true → ∃ u, StartsAs (exec (.rankset q) s) s q c u {} ∧ Frame [.queues, .parts] s u ∧
        tget {} (u.part k).conns r = {} ∧ (∀ i, i ≠ r → tget {} (u.part k).conns i = tget {} P.conns i) ∧
        ∀ J, P.job = some J → ∃ J', (u.part k).job = some J' ∧ J'.epoch = J.epoch ∧ J'.rank = J.rank ∧ jobSize J' = jobSize J ∧
          rankEntry J' r = rankOfImage (s.loadNat k a 32) ∧ ∀ i, i ≠ r → rankEntry J' i = rankEntry J i)) ∧
    (isKind 4 0x17 c = true → P.job ≠ none →
      let o := fld c 223 176
      let legal : Prop := a % 64 = 0 ∧ o % 64 = 0 ∧ bodyClear c [(175, 128), (223, 176), (239, 224)] = true
      (¬legal → StartsAs (exec (.hvote q) s) s q c z bad) ∧
      (legal → readable P a 8 = false → StartsAs (exec (.hvote q) s) s q c z (failed stADDRESS 6 a)) ∧
      (legal → readable P a 8 = true → writable P o 8 = false → StartsAs (exec (.hvote q) s) s q c z (failed stADDRESS 6 o)) ∧
      (legal → readable P a 8 = true → writable P o 8 = true → ∃ u,
        exec (.hvote q) s = .next (voteFirst (pushStarted u q.toNat h c { work := .vote }) k) ∧ Frame [.queues, .parts, .snoops] s u ∧
        ∃ v, (u.part k).vote = some v ∧ v.qid = q ∧ v.idx = h ∧ v.word = voteBits (BitVec.ofNat 64 (s.loadNat k a 8)) ∧ v.stage = 0 ∧
          v.got = [] ∧ v.sent = false ∧ v.out.toNat = o ∧ v.dl = if fld c 239 224 = 0 then P.dict.voteDl.toNat else fld c 239 224)) ∧
    (isKind 4 0x18 c = true → ∀ J, P.job = some J →
      let e : BitVec 16 := BitVec.ofNat 16 (fld c 191 176)
      let legal : Prop := a % 64 = 0 ∧ bodyClear c [(175, 128), (191, 176)] = true ∧ e = J.epoch + 1
      (¬legal → StartsAs (exec (.jersey q) s) s q c z bad) ∧
      (legal → ∀ f, readJob s k a e = .error f → StartsAs (exec (.jersey q) s) s q c (noteJob z k a) (failed stADDRESS 6 f)) ∧
      (legal → readJob s k a e = .ok none → StartsAs (exec (.jersey q) s) s q c (noteJob z k a) bad) ∧
      (legal → ∀ J', readJob s k a e = .ok (some J') → ∃ u,
        exec (.jersey q) s = .next (tryJersey (pushStarted u q.toNat h c { work := .jersey }) k) ∧ Frame [.queues, .parts] s u ∧
        u.part k = { (noteJob z k a).part k with nextJob := some J' } ∧ ∀ j, j ≠ k → u.part j = s.part j))

/-- The first delivered message of a kind is taken. A CLAIM is granted exactly when the slot is open and its epoch, step,
MBID, rank, exponent, length and role all match, held where its slot is not open yet (BUSY past 64), else answered with
the code of Table 08.9. DATA and SEAL of a grant add or record and are tried for the seal; others are dropped. A LAND
that may be written is stored, a secured-state record kept aside, any other noted as bad; LSEAL verifies, signals and
answers LACK (codes: log 36); RSIG signals or counts; GREQ is served by the step. A reset slot is open again and zero,
but FAILED after the fourth reset. DEADLINE, SEAL_TO and GHOLD_T act on their slot or request alone. (08 R235, 08 R236,
08 R237, 08 R238, 08 R240, 08 R242, 08 R243, 08 R246, 08 R249, 06 R184, 05 R126, 12 R377) -/
def Obligations.OwnerMessages : Prop :=
  ∀ (s : State) (k : Fin 16), s.running → s.calm →
    let P := s.part k.val
    let kv := k.val
    (∀ (m : Msg) (z : State),
      let taken (opk : Nat) : Prop := takeMsg s kv (fun m => m.opk.toNat = opk && true) = some (m, z)
      let key := slotKey m.epoch.toNat m.slotId.toNat
      let i := m.mbid.toNat
      let o := m.off.toNat
      (taken 0x01 → ∀ J, P.job = some J →
        (∀ n, claimAnswer P J m = .code n → exec (.claim k) s = .next (answer z kv m n)) ∧
        (claimAnswer P J m = .held → exec (.claim k) s = .next (if 64 ≤ P.claims.length then answer z kv m 7
          else z.modPart kv fun P => { P with claims := P.claims ++ [m] })) ∧
        (claimAnswer P J m = .code 0 ↔ ∃ S, tfind P.slots key = some S ∧ m.epoch = J.epoch ∧ m.step16.toNat = S.step.toNat % 2 ^ 16
          ∧ i < S.cmap.length ∧ m.src.toNat = (if m.role then backupOf S i else primaryOf S i) ∧ m.exp = S.exp ∧ o = S.len
          ∧ S.st = .opened ∧ tfind S.granted i = none ∧ i ∉ S.sealed ∧ (m.role = true → i ∈ S.called))) ∧
      (taken 0x03 →
        let fits (S : Slot) (g : MbRec) : Prop := o ∉ g.placed ∧ o % 2048 = 0 ∧ o < S.len ∧ m.count.toNat = min 2048 (S.len - o)
          ∧ m.payload.length = 4 * m.count.toNat
        ((∀ S g, grantFor P m = some (S, g) → ¬fits S g) → exec (.data k) s = .next z) ∧
        (∀ S g, grantFor P m = some (S, g) → fits S g → ∃ w, Frame [.mem, .parts, .snoops] s w ∧
          StoresWithin P kv [(S.addr.toNat + 8 * o, 8 * m.count.toNat)] s w ∧
          exec (.data k) s = .next (trySeal (sendMsg (modSlot w kv key fun S => { S with granted := S.granted.map fun e =>
            if e.1 = i then (e.1, { e.2 with placed := e.2.placed ++ [o] }) else e }) kv m.src.toNat none
            { slotMsg 0x04 key i m.role [] with off := m.off }) kv key i))) ∧
      (taken 0x05 →
        (grantFor P m = none → exec (.seal k) s = .next z) ∧
        (grantFor P m ≠ none →
          let x : BitVec 64 × BitVec 64 := (BitVec.ofNat 64 (leNat (slice m.payload 0 8)), BitVec.ofNat 64 (leNat (slice m.payload 8 8) % 2 ^ 61))
          exec (.seal k) s = .next (trySeal (modSlot z kv key fun S => { S with granted := S.granted.map fun e =>
            if e.1 = i then (e.1, { e.2 with sums := some x }) else e }) kv key i))) ∧
      (taken 0x10 →
        let a := m.dst.toNat + 64 * o
        let n := 64 * m.count.toNat
        let whole : Prop := n ≠ 0 ∧ m.payload.length = n
        let aside : Prop := securing m = true ∧ secName m = secRecord
        (¬whole → exec (.land k) s = .next z) ∧
        (whole → landable P m a n = false → Answers (exec (.land k) s) fun t => Frame [.parts] s t ∧
          ∃ L ∈ (t.part kv).land, L.src = m.src ∧ L.base = m.dst ∧ L.bad = true) ∧
        (whole → landable P m a n = true → aside → Answers (exec (.land k) s) fun t => Frame [.parts] s t ∧
          ∃ L ∈ (t.part kv).land, L.src = m.src ∧ L.base = m.dst ∧ tfind L.units o = some m.count.toNat ∧ L.aside = m.payload) ∧
        (whole → landable P m a n = true → ¬aside → Answers (exec (.land k) s) fun t => Frame [.mem, .parts, .snoops] s t ∧ StoresWithin P kv [(a, n)] s t ∧
          (∀ y, keyOf P kv a = some y → a / 2 ^ 16 = (a + n - 1) / 2 ^ 16 → memRead t.mem y n = m.payload) ∧
          ∃ L ∈ (t.part kv).land, L.src = m.src ∧ L.base = m.dst ∧ tfind L.units o = some m.count.toNat)) ∧
      (taken 0x11 →
        let L := (P.land.find? fun L => L.src = m.src && L.base = m.dst).getD { src := m.src, base := m.dst }
        let x := leNat (slice m.payload 0 8)
        let ok : Bool := !L.bad && if m.role then landedBytes L = x else csum (landedElems s kv L) = (x, leNat (slice m.payload 8 8) % 2 ^ 61)
        let c := leNat (slice m.payload 16 2)
        let asks : Bool := ok && bitOf (m.payload.getD 18 0).toNat 0
        let code : Byte := if L.bad || (m.role && asks && !ctrIn P c) then 2 else if ok then 0 else 1
        let lack : Msg := echo m { opk := 0x12, slotId := m.slotId, epoch := m.epoch, role := m.role, exp := m.exp, payload := [code] }
        ∃ w, Frame [.ctrs, .parts, .link, .vectors] s w ∧
          (∀ y, w.ctr y = if asks = true ∧ ctrIn P c = true ∧ y = c then satAdd 64 (s.ctr y) 1 else s.ctr y) ∧
          (w.part kv).rsigDrop = (if asks && !ctrIn P c then satAdd 64 P.rsigDrop 1 else P.rsigDrop) ∧
          (∀ y ∈ (w.part kv).land, ¬(y.src = m.src ∧ y.base = m.dst)) ∧
          (ok = true → securing m = true → secName m = secRecord →
            (w.part kv).secRecs.head? = some { secRecOf (leNat (slice L.aside 0 32)) with half := buddyHalf P m.src m.dst.toNat }) ∧
          exec (.lseal k) s = .next (sendMsg w kv m.src.toNat none lack)) ∧
      (taken 0x16 →
        let c := leNat (slice m.payload 0 2)
        let ok := ctrIn P c
        ∃ w, Frame [.ctrs, .parts, .link, .vectors] s w ∧
          (∀ y, w.ctr y = if ok = true ∧ y = c then satAdd 64 (s.ctr y) (leNat (slice m.payload 4 4)) else s.ctr y) ∧
          (w.part kv).rsigDrop = (if ok then P.rsigDrop else satAdd 64 P.rsigDrop 1) ∧
          exec (.rsig k) s = .next (sendMsg w kv m.src.toNat none (echo m { opk := 0x17, payload := [if ok then 0 else 1] }))) ∧
      (taken 0x13 → P.greqs.findIdx? (fun m => gatherServe P (leNat m.payload * 2 ^ 128) ≠ .hold) = none →
        let c := leNat m.payload * 2 ^ 128
        exec (.greq k) s = .next (answerGather z kv m (gatherServe P c)) ∧
        (P.stepNo.toNat < fgFace c → gatherServe P c = .hold) ∧
        (gatherServe P c = .serve false → fgFace c = P.stepNo.toNat) ∧ (gatherServe P c = .serve true → fgFace c + 1 = P.stepNo.toNat))) ∧
    (∀ n m, P.greqs[n]? = some m → exec (.gholdT k n) s
      = .next (answerGather (s.putPart kv { P with greqs := P.greqs.eraseIdx n }) kv m (.refuse stDATA))) ∧
    (∀ i, P.greqs.findIdx? (fun m => gatherServe P (leNat m.payload * 2 ^ 128) ≠ .hold) = some i →
      let m := P.greqs[i]?.getD {}
      exec (.greq k) s = .next (answerGather (s.putPart kv { P with greqs := P.greqs.eraseIdx i }) kv m
        (gatherServe P (leNat m.payload * 2 ^ 128)))) ∧
    (∀ (epoch slot mbid : BitVec 16) (S : Slot), tfind P.slots (slotKey epoch.toNat slot.toNat) = some S →
      let key := slotKey epoch.toNat slot.toNat
      (S.timer = true → S.st = .opened → exec (.deadline k epoch slot) s
        = .next (callBackups (modSlot s kv key fun S => { S with timer := false }) kv key S fun i => (tfind S.granted i).isNone)) ∧
      (S.timer = false ∨ S.st ≠ .opened → exec (.deadline k epoch slot) s = .next s) ∧
      (S.st = .opened → tfind S.granted mbid.toNat ≠ none → mbid.toNat ∉ S.sealed →
        let w := resetSlot (countColl s kv cSealTo) kv key S
        exec (.sealTo k epoch slot mbid) s = .next (match tfind (w.part kv).slots key with
          | some S => if S.st = .opened then callBackups w kv key S (· = mbid.toNat) else w
          | none => w)) ∧
      (S.st ≠ .opened ∨ tfind S.granted mbid.toNat = none ∨ mbid.toNat ∈ S.sealed → exec (.sealTo k epoch slot mbid) s = .next s) ∧
      (S.resets ≠ 3 → let w := resetSlot s kv key S
        (∃ S', tfind (w.part kv).slots key = some S' ∧ S'.st = .opened ∧ S'.granted = [] ∧ S'.sealed = [] ∧ S'.sum1 = 0 ∧ S'.sum2 = 0
          ∧ S'.resets = S.resets + 1 ∧ S'.addr = S.addr ∧ S'.len = S.len ∧ S'.cmap = S.cmap)) ∧
      (S.resets = 3 → ∀ S', tfind ((resetSlot s kv key S).part kv).slots key = some S' → S'.st = .failed) ∧
      (writable P S.addr.toNat (8 * S.len) = true → let w := resetSlot s kv key S
        ∀ x, S.addr.toNat ≤ x → x < S.addr.toNat + 8 * S.len → ∀ y, keyOf P kv x = some y → cellAt w.mem y = 0))

/-- The first delivered message that answers a started command is taken: GRANT sends, DUPLICATE, STALE and LATE end OK, BUSY
waits, any other answer ends INVALID; PLACED returns its credit; CONFIRM and RELEASE end OK, FAILED ends DATA_ERROR;
RESEND and CALL claim again, as BUSY_RECLAIM does. LACK ends the command with its last receiver, with ADDRESS (code 2,
log 36), or sends again. GDATA stores its own bytes alone or ends the gather with ADDRESS; GEND and RSIG_ACK end with
their status. VOTE joins the flags, MISMATCH where the steps differ, whose sender's substitution is asked for; a stage
that times out goes on ABSENT; VOTE_BC and its timeout write the word to OUT and end the vote. (08 R234, 08 R236, 08
R237, 08 R238, 08 R240, 08 R241, 08 R245, 08 R249, 08 R251, 08 Table 08.9, 06 R184) -/
def Obligations.SenderMessages : Prop :=
  ∀ (s : State) (k : Fin 16), s.running → s.calm →
    let P := s.part k.val
    let kv := k.val
    (∀ (q : Nat) (idx : BitVec 24) (st : BitVec 8), ∀ r ∈ ((endColl s q idx st).queue q).started, r.idx = idx →
      r.work = .done ∧ (r.status = st ∨ faulting r.status = true)) ∧
    (∀ (m : Msg) (z : State),
      let taken (opk : Nat) (p : Msg → Bool) : Prop := takeMsg s kv (fun m => m.opk.toNat = opk && p m) = some (m, z)
      (∀ e ∈ ([(.confirm k, 0x06, fun _ => true, fun q r => endColl z q r.idx stOK),
          (.failed k, 0x0A, fun _ => true, fun q r => pumpContribs (endColl z q r.idx stDATA) kv),
          (.release k, 0x09, (· = .waitCall), fun q r => endColl z q r.idx stOK),
          (.resend k, 0x07, (· ≠ .waitCall), fun q r => pumpContribs (sendClaim z kv q r) kv),
          (.call k, 0x08, (· = .waitCall), fun q r => sendClaim z kv q r),
          (.answer k, 0x02, (· = .claimed), fun q r =>
            let n := (m.payload.getD 0 0).toNat
            if n = 0 then pumpContribs (setWork z q r.idx (.contrib .sending 0 0)) kv
            else if n ≤ 3 then endColl z q r.idx stOK
            else if n = 7 then setWork z q r.idx (.contrib .busy 0 0)
            else endColl z q r.idx stINVALID)] : List (Instr × Nat × (ContribPhase → Bool) × (Nat → Started → State))),
        taken e.2.1 (fun m => (contribOf s kv m e.2.2.1).isSome) → ∀ q r, contribOf s kv m e.2.2.1 = some (q, r) →
        exec e.1 s = .next (e.2.2.2 q r)) ∧
      (taken 0x04 (fun m => (contribOf s kv m fun p => p = .sending ∨ p = .sealSent).isSome) →
        ∀ q r ph sent placed, contribOf s kv m (fun p => p = .sending ∨ p = .sealSent) = some (q, r) → r.work = .contrib ph sent placed →
        let c := r.cmd.toNat
        let w := pumpContribs (setWork z q r.idx (.contrib ph sent (placed + 1))) kv
        exec (.placed k) s = .next (if placed + 1 = contribPkts c ∧ ctSentEn c then addCtr w kv (ctSentCtr c) 1 else w)) ∧
      (taken 0x12 (fun m => securing m || (lackOf s kv m).isSome) →
        (securing m = true → exec (.lack k) s = .next (drainLack z kv m)) ∧
        (securing m = false → ∀ q r l, lackOf s kv m = some (q, r) → r.work = .lacks l →
          let c := r.cmd.toNat
          let rest := l.filter (· ≠ (m.src.toNat, partOf m))
          let o := 2 ^ 30 * partOf m
          let again := countColl z kv cLandRetry
          (m.payload.getD 0 0 = 0 → exec (.lack k) s
            = .next (if rest = [] then endColl z q r.idx stOK else setWork z q r.idx (.lacks rest))) ∧
          (m.payload.getD 0 0 = 2 → exec (.lack k) s = .next (endColl z q r.idx stADDRESS)) ∧
          (m.payload.getD 0 0 ≠ 0 → m.payload.getD 0 0 ≠ 2 →
            (m.role = true → exec (.lack k) s
              = .next (sendPart (again.noteRead kv (ptSrc c + o) (min (2 ^ 30) (ptBytes c - o))) kv q r (partOf m))) ∧
            (m.role = false → ∀ S, tfind P.slots (slotKey (bcEpoch c) (bcSlot c)) = some S → exec (.lack k) s
              = .next (sendShard (again.noteRead kv S.addr.toNat (8 * S.len)) kv q r m.src.toNat (shardOf again kv S c).1)) ∧
            (m.role = false → tfind P.slots (slotKey (bcEpoch c) (bcSlot c)) = none → exec (.lack k) s
              = .next (endColl again q r.idx stDATA))))) ∧
      (taken 0x14 (fun m => (gatherOf s kv m).isSome) → ∀ q r got, gatherOf s kv m = some (q, r) → r.work = .gather got →
        let c := r.cmd.toNat
        let len := if m.dst.toNat = fgDst c then fgBytes c else if m.dst.toNat = fgDstSc c then fgScBytes c else 0
        let b := m.payload.take (len - 64 * m.off.toNat)
        let a := m.dst.toNat + 64 * m.off.toNat
        (b = [] → exec (.gdata k) s = .next z) ∧
        (b ≠ [] → writable P a b.length = false → exec (.gdata k) s = .next (endColl (modStarted z q r.idx fun x =>
          { x with faddr := BitVec.ofNat 48 (firstBad P a b.length true) }) q r.idx stADDRESS)) ∧
        (b ≠ [] → writable P a b.length = true → Answers (exec (.gdata k) s) fun t =>
          Frame [.mem, .queues, .parts, .snoops] s t ∧ StoresWithin P kv [(a, b.length)] s t ∧
            t = setWork (z.store kv a b) q r.idx (.gather (got + b.length)))) ∧
      (∀ q r got, gatherOf s kv m = some (q, r) → r.work = .gather got →
        (m.payload.getD 0 0 ≠ 0 ∧ m.payload.getD 0 0 ≠ stRANGE) ∨ fgBytes r.cmd.toNat + fgScBytes r.cmd.toNat ≤ got →
        P.rx = m :: (z.part kv).rx → z = s.modPart kv (fun P => { P with rx := P.rx.tail }) → m.opk = 0x15 →
        exec (.gend k) s = .next (endColl z q r.idx (m.payload.getD 0 0))) ∧
      (∀ q r, let pick (m : Msg) (q : Nat) (r : Started) : Bool := r.work = .rsignal m.src && names m q r
        taken 0x17 (fun m => (findCmd s kv (pick m)).isSome) → findCmd s kv (pick m) = some (q, r) →
        exec (.rsigAck k) s = .next (endWork z q r.idx (if m.payload.getD 0 0 = 0 then stOK else stADDRESS))) ∧
      (∀ J v, P.job = some J → P.vote = some v →
        let w : BitVec 64 := BitVec.ofNat 64 (leNat (slice m.payload 0 8))
        (taken 0x20 (fun m => (voteAwait P).contains m.src.toNat && P.vote.any fun v => !v.got.contains m.src.toNat) →
          let x := v.word ||| (w &&& 0x7FF)
          let agree := w.extractLsb' 48 16 = v.word.extractLsb' 48 16
          let y := if agree then x else x ||| 0x200
          exec (.vote k) s = .next (voteGo (if agree then z else z.modPart kv fun P => askSub P m.src false) kv J { v with word := y, got := v.got ++ [m.src.toNat] } 5)) ∧
        (taken 0x21 (fun _ => P.vote.any fun v => v.sent) → exec (.voteBc k) s = .next (finishVote z kv v (voteBits w) true)))) ∧
    (∀ (q : Qid) r, ownerOf s q.toNat = some kv → (s.queue q.toNat).started.find? (fun r => r.work = .contrib .busy 0 0) = some r →
      exec (.busyReclaim q) s = .next (sendClaim s kv q.toNat r)) ∧
    (∀ J v, P.job = some J → P.vote = some v →
      (v.sent = false → exec (.voteDeadline k) s
        = .next (voteGo (s.modPart kv fun P => missing P (voteAwait P) v.got) kv J { v with word := v.word ||| 0x400, stage := v.stage + 1, got := [] } 5)) ∧
      (v.sent = true → Answers (exec (.voteBcTimeout k) s) fun t => Frame [.mem, .queues, .parts, .snoops] s t ∧
        (t.part kv).vote = none ∧ StoresWithin P kv [(v.out.toNat, 8)] s t ∧
        (writable P v.out.toNat 8 = true → ∀ y, keyOf P kv v.out.toNat = some y → v.out.toNat % 8 = 0 →
          memRead t.mem y 8 = toLe 8 (v.word ||| 0x400).toNat) ∧
        ∀ r ∈ (t.queue v.qid.toNat).started, r.idx = v.idx → r.work = .done))

/-- The first packet of a type in the receive buffer is taken; one that fails authentication, its source or its header is
dropped and counted once. DATA is delivered exactly once: a duplicate delivers nothing, a whole message is delivered and
remembered, a part joins its record. ACK, NACK and PROBE act on the sender's connection. The ACK timer acknowledges what
is owed; the retransmission timer halves the window, at least 8,280; REASM_TO frees a record; DEAD_T ends every command
with a message on the connection; an emptied slot loses its key. A NACK of a queue being reset frees the message. A
round leaves the window between 8,280 and CWND_MAX. (09 R271, 09 R273, 09 R275, 09 R276, 09 R277, 09 R278, 09 R279, 09
R280, 11 R336) -/
def Obligations.TransportPackets : Prop :=
  (∀ (s : State) (k : Fin 16), s.running → s.calm →
    let kv := k.val
    let P := s.part kv
    (∀ e ∈ ([(.xftData k, fun t => t ≠ 2 ∧ t ≠ 3 ∧ t ≠ 4), (.xftAck k, (· = 2)), (.xftNack k, (· = 3)), (.probe k, (· = 4))] :
        List (Instr × (Nat → Bool))), ∀ u z, takeXft s kv e.2 = some (u, z) →
      (∀ z', openXft z kv u = .inl z' → exec e.1 s = .next z' ∧ ∃ i ∈ [xAuthFail, xSrcMismatch, xBadHdr], z' = countXfer z kv i) ∧
      (∀ h p, openXft z kv u = .inr (h, p) → xhdrOk u.payload h = true ∧ ∃ J key, P.job = some J ∧ h.dst = J.rank.toNat ∧
        rankValid J h.src = true ∧ toLe 16 (rankEntry J h.src).addr.toNat = u.src ∧
        (tget ({} : XftSlot) P.xslots h.keyslot).key = some key ∧
        gcmOpen key (xNonce h) (u.payload.take 40) (u.payload.drop 40) = some p)) ∧
    (∀ u z h p, openXft z kv u = .inr (h, p) →
      let r := h.src
      (takeXft s kv (fun t => t ≠ 2 ∧ t ≠ 3 ∧ t ≠ 4) = some (u, z) → exec (.xftData k) s = .next (takeData z kv h p u.ce)) ∧
      (takeXft s kv (· = 2) = some (u, z) → exec (.xftAck k) s = .next (takeAck z kv h p)) ∧
      (takeXft s kv (· = 3) = some (u, z) → let c := connOf z (z.part kv) r
        exec (.xftNack k) s = .next (if isReset z c h.aux then putConn z kv r (freeMsg c h.aux)
          else retransmit (putConn z kv r (recallPkts c h.aux)) kv r fun x => x.msn.toNat = h.aux)) ∧
      (takeXft s kv (· = 4) = some (u, z) → exec (.probe k) s = .next (sendAck z kv r))) ∧
    (∀ rank : BitVec 16,
      let r := rank.toNat
      let c := connOf s P r
      (exec (.ackTimer k rank) s = .next (if c.rxNew = [] then s else sendAck s kv r)) ∧
      (c.retained = [] → exec (.retransmissionTimer k rank) s = .next s ∧ exec (.probeTimer k rank) s = .next s
        ∧ exec (.deadT k rank) s = .next s) ∧
      (∀ p rest, c.retained = p :: rest →
        exec (.retransmissionTimer k rank) s
          = .next (retransmit (putConn s kv r { c with expiries := c.expiries + 1, cwnd := max (c.cwnd / 2) 8280 }) kv r
            fun x => x.psn = p.psn || rtoOf s.xft c ≤ (s.now.toNat + 2 ^ 32 - x.ts.toNat) % 2 ^ 32) ∧
        exec (.probeTimer k rank) s = .next (sendPlain s kv r 4 0) ∧
        (let f := failMsgs s kv r
         let d := connOf f (f.part kv) r
         exec (.deadT k rank) s = .next (ripEvent (f.modPart kv fun P => unanswered P rank) (if P.dict.buddy = rank then 0x13 else 0x21) (kv + 1) 4 0 0 r) ∧
         d.retained = [] ∧ d.waiting = [] ∧ d.msgs = [] ∧
         ∀ m ∈ c.msgs, ∀ x ∈ (f.queue m.2.1.toNat).started, x.idx = m.2.2 → x.work = .done ∧ faulting x.status = true)) ∧
      (∀ msn : BitVec 32, let hit (R : Reasm) : Bool := R.src = rank && R.msn = msn
        exec (.reasmTo k rank msn) s = .next (if P.reasm.any hit then
          sendPlain (countXfer (s.modPart kv fun P => { P with reasm := P.reasm.filter (!hit ·) }) kv xReasmTimeout) kv r 3 msn.toNat
          else s))) ∧
    (∀ slot : Fin 4,
      ((tget ({} : XftSlot) P.xslots slot.val).leaving = false → exec (.slotEmptied k slot) s = .next s) ∧
      ((tget ({} : XftSlot) P.xslots slot.val).leaving = true → Answers (exec (.slotEmptied k slot) s) fun t =>
        Frame [.parts] s t ∧ tget ({} : XftSlot) (t.part kv).xslots slot.val = {} ∧
        ∀ i, i ≠ slot.val → tget ({} : XftSlot) (t.part kv).xslots i = tget {} P.xslots i))) ∧
  (∀ (s : State) (k : Nat) (h : XHdr) (p : Bytes) (ce : Bool),
    let P := s.part k
    let t := takeData s k h p ce
    let msn : BitVec 32 := BitVec.ofNat 32 h.msn
    let c := connOf s P h.src
    let mine (R : Reasm) : Bool := R.src.toNat = h.src && R.msn = msn
    let whole : Prop := h.moff = 0 ∧ h.plen = h.mlen
    (msn ∈ c.delivered → (t.part k).rx = P.rx ∧ (t.part k).reasm = P.reasm) ∧
    (msn ∉ c.delivered → whole → (t.part k).rx = P.rx ++ [msgOf p] ∧ msn ∈ (connOf t (t.part k) h.src).delivered) ∧
    (msn ∉ c.delivered → ¬whole → P.reasm.any mine = false → 4096 ≤ P.reasm.length → t = countXfer s k xReasmFull) ∧
    (msn ∉ c.delivered → ¬whole → (P.reasm.any mine = true ∨ P.reasm.length < 4096) →
      let R := (P.reasm.find? mine).getD { src := BitVec.ofNat 16 h.src, msn := msn, mlen := h.mlen }
      let R := { R with parts := tins h.moff p (tdel R.parts h.moff) }
      (h.mlen ≤ reasmGot R → (t.part k).rx = P.rx ++ [msgOf (reasmBytes R)] ∧ (t.part k).reasm.any mine = false) ∧
      (reasmGot R < h.mlen → (t.part k).rx = P.rx ∧ R ∈ (t.part k).reasm))) ∧
  (∀ (x : Xft) (c : Conn), let d := endRound x c
    d.cwnd ≤ x.cwndMax.toNat ∧ (8280 ≤ x.cwndMax.toNat → 8280 ≤ d.cwnd) ∧ d.acked = 0 ∧ d.ce = 0 ∧
    (c.ce = 0 → x.cwndMax.toNat ≤ c.cwnd + x.ai.toNat → c.rttMin ≤ 100 * x.delayTgt.toNat → 8280 ≤ x.cwndMax.toNat →
      d.cwnd = x.cwndMax.toNat))

/-- An up port counts its corrected codewords, and counts and drops aborted, short, corrupt and pause frames and those no
filter takes; an XFT frame of a partition's address and VLAN reaches that partition's buffer alone. ARP answers for an
address the port carries; LLDP records the partner. An underrun spoils the last frame, while whole, and raises the
threshold to at most five. A link loss takes the port down, and holds it down at the third in ten minutes; link up,
step-down, step-up, low-power idle, reset and release change that port as the rules say, and no other port but for
frames held back in low-power idle, which leaving it sends. (09 R260, 09 R261, 09 R262, 09 R264, 09 R266, 09 R267, 09
R268, 12 R364, 13 R404, 13 Table 13.4) -/
def Obligations.EthernetPorts : Prop :=
  ∀ (s : State) (p : Fin 17), s.running →
    let x := s.port p.val
    let others (t : State) : Prop := ∀ i, i ≠ p.val → t.port i = s.port i
    let sends (t : State) : Prop := t.mem = s.mem ∧ ∀ i, i ≠ p.val →
      t.port i = { s.port i with lpiHeld := (t.port i).lpiHeld, wakeAt := (t.port i).wakeAt }
    let up : Prop := portUp s p.val = true
    (up → ∀ (f : Bytes) (a b : BitVec 16),
      let z := countPortBy (countPortBy s p.val pcFecCorr a.toNat) p.val pcFecUncorr b.toNat
      let ok : Prop := 64 ≤ f.length ∧ fcsOk f = true
      (exec (.receiveFrame p f ⟨true, a, b⟩) s = .next (countPort z p.val pcAborted)) ∧
      (f.length < 64 → exec (.receiveFrame p f ⟨false, a, b⟩) s = .next (countPort z p.val pcRunt)) ∧
      (64 ≤ f.length → fcsOk f = false → exec (.receiveFrame p f ⟨false, a, b⟩) s = .next (countPort z p.val pcFcsErr)) ∧
      (ok → frameType f = 0x8808 → exec (.receiveFrame p f ⟨false, a, b⟩) s = .next (countPort z p.val pcPauseDrop)) ∧
      (ok → frameType f ≠ 0x8808 → filterPart s p.val (frameDst f) = none → filterMgmt s p.val (frameDst f) = false →
        filterSpare s p.val (frameDst f) = false → frameDst f ≠ macBroadcast → frameDst f ≠ macLldp →
        exec (.receiveFrame p f ⟨false, a, b⟩) s = .next (countPort z p.val pcFilterDrop)) ∧
      (ok → frameType f ≠ 0x8808 → f.length ≤ x.maxFrame.toNat → ∀ k, filterPart s p.val (frameDst f) = some k →
        let P := s.part k
        (frameVlan f ≠ (tget (0 : BitVec 16) P.dict.vlan p.val).toNat → Answers (exec (.receiveFrame p f ⟨false, a, b⟩) s) fun t =>
          Frame [.parts, .ports] s t ∧ others t ∧ (t.part k).ethRx = P.ethRx) ∧
        (frameVlan f = (tget (0 : BitVec 16) P.dict.vlan p.val).toNat → ∀ u, ipIn (frameType f) (frameBody f) = some u →
          u.frag = false → u.sumOk = true → u.dport = s.xft.udp.toNat → Answers (exec (.receiveFrame p f ⟨false, a, b⟩) s) fun t =>
          Frame [.parts, .ports] s t ∧ others t ∧ (t.part k).ethRx = P.ethRx ++ [(p.val, f)] ∧ ∀ j, j ≠ k → t.part j = s.part j))) ∧
    (up → ∀ f z, takeControl s p.val (fun f => isArpRequest f || isSolicit f) = some (f, z) → p.val ≠ 16 →
      let e (k : Nat) := solicitReply (s.part k).dict.mac f
      exec (.arp p) s = .next (match allParts.find? (fun k => (s.part k).st ≠ .free && askedAddr f = toLe 16 (s.part k).dict.addr.toNat
        && carries s (s.part k) p.val) with
        | some k => sendFrame z k p.val (e k).1 (e k).2
        | none => z)) ∧
    (up → ∀ f z, takeControl s p.val (fun f => isArpRequest f || isSolicit f) = some (f, z) → p.val = 16 →
      let e := solicitReply s.rolser.mgmtMac f
      exec (.arp p) s = .next (if askedAddr f = toLe 16 s.rolser.mgmtAddr.toNat then
        queueFrame z 16 (frameOf (BitVec.ofNat 48 (beNat (slice f 6 6))) s.rolser.mgmtMac 0 e.1 e.2) else z)) ∧
    (up → ∀ f z a b w, takeControl s p.val (fun f => frameType f = 0x88CC) = some (f, z) → Answers (exec (.lldp p a b w) s) fun t =>
      Frame [.ports] s t ∧ others t ∧ (t.port p.val).partnerStep = a ∧ (t.port p.val).partnerEee = b ∧ (t.port p.val).wake = w.toNat) ∧
    (up → ∀ j, s.ethTx.reverse.findIdx? (fun e => e.1 = p.val) = some j →
      let whole := fcsOk (s.ethTx.getD (s.ethTx.length - 1 - j) (p.val, [])).2
      (5 ≤ x.startRung.toNat ∨ whole = false → exec (.txUnderrun p) s = .next s) ∧
      (x.startRung.toNat < 5 → whole = true → Answers (exec (.txUnderrun p) s) fun t => Frame [.ports, .ethTx] s t ∧ others t ∧
        (t.port p.val).startRung = x.startRung + 1 ∧ t.ethTx = s.ethTx.modify (s.ethTx.length - 1 - j) fun e => (e.1, spoilFcs e.2))) ∧
    (up → Answers (exec (.portLinkLoss p) s) fun t =>
      let third : Prop := 2 ≤ (x.losses.filter fun y => s.now.toNat < y + 60000000000).length ∧ p.val < 16
      sends t ∧ ((t.port p.val).st = if third then 3 else 0) ∧ (t.port p.val).cur = x.base ∧ (t.port p.val).lpi = false) ∧
    (¬up → exec (.portLinkLoss p) s = .next s) ∧
    (∀ speed, x.st = 0 ∨ x.st = 2 → portClock s p.val = true → Answers (exec (.portLinkUp p speed) s) fun t =>
      Frame [.ports, .rolser] s t ∧ others t ∧ (t.port p.val).st = (if x.cur = x.base then 1 else 4) ∧
      (t.port p.val).upSince = s.now.toNat ∧ (t.port p.val).deferred = [] ∧ (x.st = 0 → (t.port p.val).startRung = 1) ∧
      (p.val = 16 → t.rolser.phySpeed = speedOf s.rolser speed)) ∧
    (∀ m, mayStepDown s p.val = some m → lowerRung x.cur.toNat = some m ∧ up ∧ x.stepEn ≠ 0 ∧ x.eeeEn = 0 ∧ x.partnerStep = true ∧
      x.upSince + 6000000000 ≤ s.now.toNat ∧ x.lastStep + 1000000000 ≤ s.now.toNat ∧ aboveFloor (floorOf x) x.cur.toNat 4 = true ∧ strictOn s p.val < 2 ∧ (∀ i ∈ axisMates s p.val, portUp s i = true) ∧
      Answers (exec (.rateStepDown p) s) fun t => sends t ∧ (t.port p.val).st = 2 ∧ (t.port p.val).cur = BitVec.ofNat 8 m
        ∧ (t.port p.val).lastStep = s.now.toNat) ∧
    (mayStepDown s p.val = none → exec (.rateStepDown p) s = .next s) ∧
    (x.st = 4 → Answers (exec (.stepUp p) s) fun t => sends t ∧ (t.port p.val).st = 2 ∧
      (t.port p.val).cur = BitVec.ofNat 8 (upperRung x.cur.toNat)) ∧
    (up → x.lpi = false → x.eeeEn ≠ 0 → x.partnerEee = true → eeeAllowed s p.val x.cur = true →
      Answers (exec (.lowPowerIdle p true) s) fun t => Frame [.ports] s t ∧ others t ∧ (t.port p.val).lpi = true) ∧
    (up → x.lpi = true → Answers (exec (.lowPowerIdle p false) s) fun t => Frame [.ports, .ethTx] s t ∧ others t ∧
      (t.port p.val).lpi = false ∧ t.ethTx = s.ethTx ++ x.lpiHeld.map fun f => (p.val, f)) ∧
    (Answers (exec (.portReset p) s) fun t => sends t ∧ (t.port p.val).counters = [] ∧ (t.port p.val).startRung = 1 ∧
      (t.port p.val).cur = x.mode ∧ (t.port p.val).base = x.mode ∧ ((t.port p.val).st = if x.st = 3 ∨ x.st = 5 then x.st else 2)) ∧
    (x.st = 3 → Answers (exec (.releaseHoldDown p) s) fun t => Frame [.parts, .ports, .pins, .power, .ripstop] s t ∧ others t ∧
      (t.port p.val).st = 0 ∧ (t.port p.val).losses = []) ∧
    (x.st ≠ 3 → exec (.releaseHoldDown p) s = .next s)

/-- A transfer that fails validation ends with that status; any other starts. CXFER sends requests of 256 B. SXFER READ asks
for chunks, never more than 1 MiB in flight; a chunk that verifies is written to its place alone, the last ends the
command OK, one that does not verify DATA_ERROR. SXFER WRITE sends the sealed chunks, one seal counter a chunk, all kept
until acknowledged; EXPOSE registers a view under a fresh key and asks the target. The target's accesses outside a live
view are denied and counted; a read returns the sealed bytes asked for. A NAK, or an eighth acknowledgement timeout,
puts the queue pair in ERROR and ends its transfers DATA_ERROR; before that everything unacknowledged goes again.
QP_OPEN and QP_CLOSE, CNP and recovery change that queue pair alone. (09 R282, 09 R283, 09 R284, 09 R285, 09 R286, 09
R287, 10 R316, 11 R344, 11 R345, 14 Table 14.14) -/
def Obligations.StorageCommands : Prop :=
  (∀ (s : State) (q : Qid) (k c : Nat) (per : Fin 15), s.ready q k c →
    let P := s.part k
    let z := popFront s q.toNat
    let h := (s.queue q.toNat).head
    let i := sxQp c
    let n := sxBytes c
    let begun (w : Work) (r : Started) : Prop := r = { work := w, idx := h, cmd := BitVec.ofNat 512 c }
    (isKind 3 0x12 c = true →
      let v := sxValidate s k c
      (v.1 ≠ stOK → ∀ e ∈ [(Instr.sxferRead q per, sxOp c = 0 ∨ sxOp c = 3), (.sxferWrite q, sxOp c = 1), (.expose q, sxOp c = 2)], e.2 →
        StartsAs (exec e.1 s) s q c z (failed v.1 5 v.2)) ∧
      (v.1 = stOK → ∀ x, storSeal P = some x →
        (sxOp c = 0 → ∃ t, exec (.sxferRead q per) s = .next t ∧
          t = askChunks (pushStarted z q.toNat h c { work := .sread i (per.val + 1) 0 0 [] }) k q.toNat h 16 ∧
          Frame [.queues, .parts, .ports, .link, .ethTx, .snoops] s t ∧
          readInFlight (t.qp k i) ≤ max (2 ^ 20) (readInFlight (s.qp k i))) ∧
        (sxOp c = 1 → ∃ r t, begun (.sxfer i) r ∧ exec (.sxferWrite q) s = .next t ∧
          t = sendWrite q (pushStarted z q.toNat h c { work := .sxfer i }) k r ∧ Frame [.queues, .parts, .ports, .link, .ethTx, .snoops] s t ∧
          (t.part k).keys.storCtr = P.keys.storCtr + BitVec.ofNat 64 (chunksOf n) ∧
          ∃ ps, (t.qp k i).unacked = (s.qp k i).unacked ++ ps ∧ (∀ p ∈ ps, p.cmd = some (q, h)) ∧
            (ps.map RocePkt.payload).flatten = (sealAll x P.keys.storCtr.toNat (sealObj P c) (s.load k (sxDaddr c) n)).flatten) ∧
        (sxOp c = 2 → ∃ r t b, begun (.expose i) r ∧ exec (.expose q) s = .next t ∧
          t = sendExpose q (pushStarted z q.toNat h c { work := .expose i }) k r ∧
          Frame [.draws, .queues, .parts, .ports, .link, .ethTx, .snoops] s t ∧
          t.draws = s.draws + 1 ∧ (t.qp k i).bufs = (s.qp k i).bufs ++ [b] ∧ b.rkey.toNat = leNat (fit 4 (Config.random s.draws 4)) ∧
          b.addr.toNat = sxDaddr c ∧ b.plain = n ∧ b.len = sealedLen n ∧ b.write = sxAccess c ∧ b.base = P.keys.storCtr ∧ b.qid = q ∧
          (t.part k).keys.storCtr = P.keys.storCtr + (if sxAccess c then 0 else BitVec.ofNat 64 (chunksOf n)) ∧
          ∃ p, (t.qp k i).unacked = (s.qp k i).unacked ++ [p] ∧ p.op = rcSendOnly ∧
            p.payload = exposeRequest (fit 4 (Config.random s.draws 4)) (hdrSeq c) (sealedLen n) (sxAccess c)))) ∧
    (isKind 3 0x11 c = true →
      let v := cxValidate P c
      let b := s.load k (cxDaddr c) (cxBytes c)
      let noted := z.noteRead k (cxDaddr c) (cxBytes c)
      let goes (u : State) (l : List (Nat × Bytes)) : Prop :=
        exec (.cxfer q) s = .next (cxPumpAll (pushStarted u q.toNat h c { work := .cxfer l 0 [] 0 0 }))
      let cut (y : Bytes) : List (Nat × Bytes) := (pieces 256 y).zipIdx.map fun e => (256 * e.2, e.1)
      (v.1 ≠ stOK → StartsAs (exec (.cxfer q) s) s q c z (failed v.1 5 v.2)) ∧
      (v.1 = stOK →
        (cxOut c = false → goes z ((List.range (cxSpan c / 256)).map fun j => (256 * j, []))) ∧
        (cxOut c = true → cxSealed c = false → goes noted (cut b)) ∧
        (cxOut c = true → cxSealed c = true → ∀ x, stageSeal P = some x →
          goes (noted.modPart k fun P => { P with keys := { P.keys with stageCtr := P.keys.stageCtr + BitVec.ofNat 64 (chunksOf (cxBytes c)) } })
            (cut (sealAll x P.keys.stageCtr.toNat P.stepNo.toNat b).flatten))))) ∧
  (∀ (s : State) (k : Nat) (q : BitVec 20) (r : Started) (i per asked got : Nat) (b d : Bytes) (x : SealKey),
    (s.queue q.toNat).started.find? (fun y => y.idx = r.idx) = some r → r.work = .sread i per asked got b → storSeal (s.part k) = some x →
    let c := r.cmd.toNat
    let n := sxBytes c
    let a := sxDaddr c + 65536 * got
    let opened := openChunk x got (sxObj c) (got + 1 = chunksOf n) (chunkLen n got) ((b ++ d).take (sealedChunk n got))
    let t := takeReadChunk s k (q, r.idx) d
    ((b ++ d).length < sealedChunk n got → t = modStarted s q.toNat r.idx fun y => { y with work := .sread i per asked got (b ++ d) }) ∧
    (sealedChunk n got ≤ (b ++ d).length → opened = none → t = endAs s 5 q.toNat r.idx stDATA) ∧
    (sealedChunk n got ≤ (b ++ d).length → ∀ p, opened = some p → writable (s.part k) a p.length = true →
      StoresWithin (s.part k) k [(a, p.length)] s t ∧ (got + 1 = chunksOf n → t = endAs (s.store k a p) 5 q.toNat r.idx stOK))) ∧
  (∀ (s : State) (k : Fin 16) (i : BitVec 8), s.running → s.calm →
    let kv := k.val
    let Q := s.qp kv i.toNat
    let only (t : State) : Prop := ∀ j, j ≠ i.toNat → t.qp kv j = s.qp kv j
    let sentBy (t : State) (ps : List RocePkt) : Prop := (t.part kv).roceTx = (s.part kv).roceTx ++ ps.map fun p => { qp := i, pkt := p }
    let broken (o : Host.Outcome State Fault Refusal) : Prop := Answers o fun t => Frame [.queues, .parts] s t ∧ only t ∧
      (t.qp kv i.toNat).st = 2 ∧ (t.qp kv i.toNat).unacked = [] ∧ (t.qp kv i.toNat).bufs = []
    (∀ rkey ra len, (∀ b, bufOf s kv i.toNat rkey = some b → b.write = true ∨ b.len < ra.toNat + len.toNat) →
      exec (.rdmaRead k i rkey ra len) s = .next (denyRoce s kv i.toNat (packetsOf Q len.toNat))) ∧
    (∀ rkey ra len b, bufOf s kv i.toNat rkey = some b → b.write = false → ra.toNat + len.toNat ≤ b.len →
      Answers (exec (.rdmaRead k i rkey ra len) s) fun t => Frame [.parts, .ports, .ethTx, .snoops] s t ∧ only t ∧
        (t.qp kv i.toNat).rxPsn = Q.rxPsn + BitVec.ofNat 24 (packetsOf Q len.toNat) ∧ (t.qp kv i.toNat).msn = Q.msn + 1 ∧
        ∃ ps, (ps.map RocePkt.payload).flatten = slice (viewBytes s kv b) ra.toNat len.toNat ∧ (portUp s Q.port = true → sentBy t ps)) ∧
    (∀ rkey ra d, (∀ b, bufOf s kv i.toNat rkey = some b → b.write = false ∨ b.len < ra.toNat + d.length) →
      exec (.rdmaWrite k i rkey ra d) s = .next (denyRoce s kv i.toNat (packetsOf Q d.length))) ∧
    (∀ rkey ra d b, bufOf s kv i.toNat rkey = some b → b.write = true → ra.toNat + d.length ≤ b.len →
      Answers (exec (.rdmaWrite k i rkey ra d) s) fun t => Frame [.mem, .queues, .parts, .ports, .ethTx, .snoops] s t ∧ only t ∧
        StoresWithin (s.part kv) kv [(b.addr.toNat, 65536 * chunksOf b.plain)] s t) ∧
    (∀ tok st, Q.st = 1 →
      let pick (b : RBuf) : Bool := b.token = tok && (bufCmd s i.toNat b).isSome
      (Q.bufs.find? pick = none → exec (.send k i tok st) s = .next (answerReq s kv i.toNat 1 synAck)) ∧
      (∀ b, Q.bufs.find? pick = some b →
        let all := (List.range (chunksOf b.plain)).all b.done.contains
        exec (.send k i tok st) s = .next (answerReq
          (endExpose s kv i.toNat b (if st = 0 ∧ (b.write = false ∨ all = true) then stOK else stDATA)) kv i.toNat 1 synAck))) ∧
    (Q.st = 1 → broken (exec (.roceNak k i) s)) ∧
    (Q.st = 1 → ∀ p l, Q.unacked = p :: l → (7 ≤ Q.retries → broken (exec (.localAckTimeout k i) s)) ∧
      (Q.retries < 7 → Answers (exec (.localAckTimeout k i) s) fun t => Frame [.parts, .ports, .ethTx] s t ∧ only t ∧
        t.qp kv i.toNat = { Q with retries := Q.retries + 1 } ∧ (portUp s Q.port = true →
          sentBy t ((Q.unacked.filter fun y => !psnBefore (y.psn + BitVec.ofNat 24 (y.span - 1)) p.psn).map (again Q))))) ∧
    (Q.st = 1 → Answers (exec (.cnp k i) s) fun t => Frame [.parts] s t ∧ only t ∧ t.qp kv i.toNat = { Q with rate := Q.rate + 1 }) ∧
    (Answers (exec (.rateRecovery k i) s) fun t => Frame [.parts] s t ∧ only t ∧ t.qp kv i.toNat = { Q with rate := Q.rate - 1 }) ∧
    (entriesLive (s.part kv) = true →
      (Q.peer = 0 ∨ Q.st ≠ 0 → exec (.qpOpen k i) s = .next s) ∧
      (Q.peer ≠ 0 → Q.st = 0 → Answers (exec (.qpOpen k i) s) fun t => Frame [.parts] s t ∧ only t ∧
        t.qp kv i.toNat = { Q with st := 1, nextPsn := Q.sqPsn, rxPsn := Q.rqPsn, port := qpPort s kv i.toNat }) ∧
      (Answers (exec (.qpClose k i) s) fun t => Frame [.queues, .parts] s t ∧ only t ∧ (t.qp kv i.toNat).st = 0 ∧
        (t.qp kv i.toNat).unacked = [] ∧ (t.qp kv i.toNat).bufs = [] ∧ (t.qp kv i.toNat).peer = Q.peer)))

/-- A flit whose CRC fails is counted and answered by one NAK until the expected flit comes; a payload flit out of turn is
discarded; the expected one advances FSN; link slots are kept for their commands. ACK drops the flits it covers from the
replay buffer; NAK sends the rest again and the fourth without progress retrains; CREDIT sets a balance; PM_REQ is
agreed to unless strict partitions or open work forbid it; PM_ACK enters the power state asked for. A control flit
carries ACK and every changed credit count. The timers act only in their condition. Training brings up the widest width
both sides have whose lanes pass, on the lowest such lanes, with FSN 0 and the grants exchanged, or leaves the link
DOWN; a retrain keeps the replay buffer and grants; any other is a link loss, which drops the cache and the directory,
and sets CL_EVENT bit 1. (10 R290, 10 R291, 10 R292, 10 R294, 10 R296, 10 R297, 10 R300, 10 R302, 10 R303, 10 R305, 10
R318, 10 Table 10.8) -/
def Obligations.CerralLinkLayer : Prop :=
  ∀ s : State, s.running →
    let L := s.link
    (L.st = 2 → ∀ (x : BitVec 128) (lop : Nat), L.slots.find? (fun y => y.toNat / 2 ^ 124 = lop) = some x →
      let z := s.setLink { L with slots := L.slots.erase x }
      let n := x.toNat
      let p := slPstate n
      (lop = 1 → ∀ pre e post, L.replay = pre ++ e :: post → (∀ y ∈ pre, y.1 ≠ slFsn n) → e.1 = slFsn n →
        exec .ack s = .next (pump (z.setLink { z.link with replay := post, nakSame := 0 }))) ∧
      (lop = 1 → (∀ y ∈ L.replay, y.1 ≠ slFsn n) → exec .ack s = .next (pump z)) ∧
      (lop = 2 → ∀ pre e post, L.replay = pre ++ e :: post → (∀ y ∈ pre, y.1 ≠ slFsn n) → e.1 = slFsn n →
        let l := { z.link with replay := post, nakSame := 1, nakFsn := slFsn n }
        exec .nak s = .next (clCount (z.setLink { l with sent := L.sent ++ post.map Prod.snd }) clReplay 1)) ∧
      (lop = 2 → (∀ y ∈ L.replay, y.1 ≠ slFsn n) →
        let i := if L.nakSame ≠ 0 ∧ L.nakFsn = slFsn n then L.nakSame + 1 else 1
        exec .nak s = .next (if 4 ≤ i then z.setLink { z.link with nakSame := 0, nakFsn := slFsn n, st := 1, retraining := true }
          else clCount (z.setLink { z.link with nakSame := i, nakFsn := slFsn n, sent := L.sent ++ L.replay.map Prod.snd }) clReplay 1)) ∧
      (lop = 3 → exec .credit s = .next (if slChn n = 3 then z
        else pump (z.setLink { z.link with grants := tset 0 L.grants (creditIx (slChn n) (slKind n)) (BitVec.ofNat 32 (slCount n)) }))) ∧
      (lop = 4 → exec .pmReq s = .next (
        if 3 < p ∨ (p ≠ 0 ∧ strictTwo z) ∨ (p = 3 ∧ !linkIdle z) then z.setLink (sendControl z.link [slotOf 6 0 0 0 0 p])
        else pump (z.setLink (enterPstate (sendControl z.link [slotOf 5 0 0 0 0 p]) p)))) ∧
      (lop = 5 → exec .pmAck s = .next (if L.pmAsked.map (·.toNat) = some p then pump (z.setLink (enterPstate { z.link with pmAsked := none } p))
        else z)) ∧
      (lop = 6 → exec .pmNak s = .next (z.setLink { z.link with pmAsked := none }))) ∧
    (∀ e ∈ [(Instr.ack, 1), (.nak, 2), (.credit, 3), (.pmReq, 4), (.pmAck, 5), (.pmNak, 6)],
      L.st ≠ 2 ∨ L.slots.find? (fun y => y.toNat / 2 ^ 124 = e.2) = none → exec e.1 s = .next s) ∧
    (let ack := slotOf 1 (lastGood L) 0 0 0 0
     let cs := ((List.range 5).filter fun i => tget (0 : BitVec 32) L.freed i ≠ tget 0 L.freedSent i).map fun i =>
      slotOf 3 0 (i / 2) (i % 2) (tget (0 : BitVec 32) L.freed i).toNat 0
     let t := s.setLink { sendControl L (ack :: cs) with freedSent := L.freed, rxUnacked := 0 }
     exec .controlFlit s = .next (if linkUp L then t else s) ∧
     exec .payloadFlitAckTimer s = .next (if linkUp L ∧ 0 < L.rxUnacked then t else s) ∧
     exec .nakRepeat s = .next (if linkUp L ∧ L.naking then s.setLink (sendControl L [slotOf 2 (lastGood L) 0 0 0 0]) else s) ∧
     exec .linkIdleT s = .next (if linkUp L ∧ linkIdle s ∧ !strictTwo s ∧ L.pmAsked = none then
      s.setLink { sendControl L [slotOf 4 0 0 0 0 2] with pmAsked := some 2 } else s) ∧
     exec .clStallT s = .next (if L.partSlots = [] then s else clEvent (clCount s clStallCnt 1) 0)) ∧
    (∀ flit : BitVec 2048,
      let e := flitFec L.forerunner (toLe 256 flit.toNat)
      let w := if e.2 = 0 then s else clCount s clFecCorr e.2
      let h := leNat (e.1.take 4)
      let on : Prop := L.st = 2 ∧ L.pstate ≠ 3
      (¬on → exec (.flitReceive flit) s = .next s) ∧
      (on → flitCrcOk e.1 = false →
        let v := clCount w clCrcErr 1
        exec (.flitReceive flit) s
          = .next (if L.naking then v else v.setLink (sendControl { v.link with naking := true } [slotOf 2 (lastGood L) 0 0 0 0]))) ∧
      (on → flitCrcOk e.1 = true →
        (fld h 31 30 = 0 → BitVec.ofNat 10 (fld h 29 20) ≠ L.rxFsn → exec (.flitReceive flit) s = .next w) ∧
        (fld h 31 30 = 0 → BitVec.ofNat 10 (fld h 29 20) = L.rxFsn → Answers (exec (.flitReceive flit) s) fun t =>
          Frame [.link] s t ∧ t.link.rxFsn = L.rxFsn + 1 ∧ t.link.naking = false ∧
          t.link.rxUnacked = (if 16 ≤ L.rxUnacked + 1 then 0 else L.rxUnacked + 1) ∧
          (let x := BitVec.ofNat 128 (leNat (slice e.1 4 16))
           fld h 14 0 = 1 → L.partSlots = [] → headerOk x = true → dataSlots (msgOfHeader x) = 0 →
            t.link.rx = L.rx ++ [msgOfHeader x])) ∧
        (fld h 31 30 = 1 → exec (.flitReceive flit) s = .next (w.setLink { w.link with slots := L.slots ++
          ((((flitSlots e.1).zipIdx.filter fun y => bitOf (fld h 14 0) y.2).map Prod.fst).filter fun y => 1 ≤ y.toNat / 2 ^ 124 ∧ y.toNat / 2 ^ 124 ≤ 6) })) ∧
        (fld h 31 30 = 2 → exec (.flitReceive flit) s = .next w) ∧
        (fld h 31 30 = 3 → exec (.flitReceive flit) s = .next (clCount w clBadFlit 1)))) ∧
    (∀ (lanes : BitVec 32) (widths : BitVec 3) (grants : List Nat) (fr : Bool),
      let pass (o n : Nat) : Prop := ∀ i < n, lanes.getLsbD (o + i) = true
      let groups : List (Nat × Nat) := [(0, 0), (1, 0), (1, 16), (2, 0), (2, 8), (2, 16), (2, 24)]
      let can (e : Nat × Nat) : Prop := widths.getLsbD e.1 = true ∧ pass e.2 (32 / 2 ^ e.1)
      let may : Prop := s.pins.refCl = true ∧ s.pins.cprstN = true
      let up : Prop := (L.st = 2 ∧ L.pstate ≠ 3) ∨ L.retraining = true
      let mode := fr || decide (L.forceFr ≠ 0)
      (trainWidth lanes widths = none ↔ ∀ e ∈ groups, ¬can e) ∧
      (∀ e, trainWidth lanes widths = some e → e ∈ groups ∧ can e ∧ ∀ x ∈ groups, can x → e.1 < x.1 ∨ e.1 = x.1 ∧ e.2 ≤ x.2) ∧
      (¬may ∨ up → exec (.training lanes ⟨widths, grants, fr⟩) s = .next s) ∧
      (may → ¬up → trainWidth lanes widths = none → exec (.training lanes ⟨widths, grants, fr⟩) s = .next (s.setLink { L with st := 0 })) ∧
      (may → ¬up → ∀ w, trainWidth lanes widths = some w → Answers (exec (.training lanes ⟨widths, grants, fr⟩) s) fun t =>
        Frame [.parts, .link, .vectors, .pins, .power, .ripstop] s t ∧ t.link.st = 2 ∧ t.link.width.toNat = w.1 ∧ t.link.lane0 = w.2 ∧
        t.link.forerunner = mode ∧ t.link.rxFsn = 0 ∧ t.link.pstate = 0 ∧ t.link.grant = grantsOf grants ∧ t.link.offered = deviceGrant) ∧
      exec .trainingRetry s = .next (if s.pins.refCl ∧ s.pins.cprstN ∧ L.st = 0 then s.setLink { L with st := 1 } else s) ∧
      (s.calm →
        (¬may ∨ ¬up → exec (.retrain lanes fr) s = .next s) ∧
        (may → up → ∀ w, trainWidth lanes 7 = some w → mode = L.forerunner → Answers (exec (.retrain lanes fr) s) fun t =>
          Frame [.parts, .link, .vectors, .pins, .power, .ripstop] s t ∧ t.link.st = 2 ∧ t.link.width.toNat = w.1 ∧ t.link.lane0 = w.2 ∧
          t.link.rxFsn = L.rxFsn ∧ t.link.grant = L.grant ∧ L.replay <+: t.link.replay ∧ t.link.event.getLsbD 2 = true) ∧
        (may → up → trainWidth lanes 7 = none ∨ mode ≠ L.forerunner → exec (.retrain lanes fr) s = .next (linkLoss s 1)) ∧
        (¬(L.st = 2 ∨ L.retraining = true) → exec .linkLoss s = .next s) ∧
        (L.st = 2 ∨ L.retraining = true → Answers (exec .linkLoss s) fun t =>
          t.link.st = (if s.pins.refCl ∧ s.pins.cprstN then 1 else 0) ∧ t.link.cache = [] ∧ t.calm ∧ t.link.homeWait = [] ∧
          t.link.rx = (if s.pins.cprstN then L.rx.filter (fun m => m.ch ≠ 1) else []) ∧ t.link.event.getLsbD 1 = true)))

/-- Each command takes the first message of its opcode whose turn it is in its domain and frees its credits; with none, or
in reset, nothing happens. A response ends the request of its TAG with its STATUS. RD_NC answers DATA_NC, WR_NC and
WR_PART write their 8 B units and answer CMP. A coherent request that is unmapped or that its domain may not make is
answered with its status; else one below the sub-windows, or in forerunner mode, is UNSUPPORTED; one of a line with a
transaction open waits; else it is granted, with the line's 64 bytes, as shared or owned, and the directory holds it. An
eviction clears the directory entry, a dirty one stores its line where its domain may write. A snoop is answered as
Table 10.9 says. A snoop response writes dirty data back and closes its transaction, unless it must wait for an
eviction. Stated for a calm link, or where no access is under way (log 47). (10 R298, 10 R299, 10 R305, 10 R306, 10
R307, 10 R308, 10 R309, 10 R310, 10 R311, 10 R320, 10 Table 10.6, 10 Table 10.9) -/
def Obligations.CoherenceAndTarget : Prop :=
  ∀ s : State, s.running →
    let L := s.link
    (∀ e ∈ [(Instr.rdShared, 0x01), (.rdOwn, 0x02), (.rdNc, 0x03), (.wrNc, 0x04), (.wrPart, 0x05), (.evictDirty, 0x06),
        (.evictClean, 0x07), (.cmp, 0x20), (.dataNc, 0x21), (.dataS, 0x22), (.dataE, 0x23), (.srspI, 0x24), (.srspS, 0x25),
        (.srspDataI, 0x26), (.srspDataS, 0x27), (.snpInv, 0x30), (.snpShare, 0x31)],
      s.calm → (∀ m ∈ L.rx, m.opc.toNat ≠ e.2) ∨ s.pins.cprstN = false → exec e.1 s = .next s) ∧
    (∀ (opc : Nat) (m : ClMsg) (r : List ClMsg), s.pins.cprstN = true → pickMsg opc (fun _ => true) [] L.rx = some (m, r) →
      let z := s.setLink (freeCredit { L with rx := r } m 1)
      let off := m.addr.toNat
      let rd := m.rdom.toNat
      let line := reqLine m
      let done (t : State) : State := if noneHeld s then t else t.setLink (wakeHome t.link)
      (m ∈ L.rx ∧ m.opc.toNat = opc) ∧
      (s.calm →
        (let e := windowRead z off (64 * m.len.toNat) rd
         opc = 0x03 → exec .rdNc s = .next (clRespond e.1 m 0x21 e.2.1 e.2.2)) ∧
        (let unit (i : Nat) : Nat × Nat := (off + 8 * i, leNat (slice m.data (8 * i) 8))
         let e := windowWrite z rd off m.data.length ((List.range (m.data.length / 8)).map unit)
         let e' := windowWrite z rd off 64 (((List.range (m.data.length / 8)).filter fun i => m.qmask.getLsbD i).map unit)
         (opc = 0x04 → exec .wrNc s = .next (clRespond e.1 m 0x20 e.2 [])) ∧
         (opc = 0x05 → exec .wrPart s = .next (clRespond e'.1 m 0x20 e'.2 []))) ∧
        (∀ e ∈ [(Instr.cmp, 0x20, LineSt.invalid), (.dataNc, 0x21, .invalid), (.dataS, 0x22, .shared), (.dataE, 0x23, .exclusive)],
          opc = e.2.1 →
          let w := z.setLink { z.link with reqs := tdel z.link.reqs m.tag.toNat }
          let got := tfind L.reqs m.tag.toNat
          (got = none → exec e.1 s = .next z) ∧
          (∀ f, got = some f → exec e.1 s = .next (cxPumpAll (finishReq w f m.status.toNat e.2.2 m.data))) ∧
          (∀ v, got = some (.irq v) → Answers (exec e.1 s) fun t => Frame [.queues, .link, .vectors] s t ∧ (t.vec v).inFlight = false) ∧
          (∀ n dom mask d, got = some (.own n dom mask d) → m.status = 0 → Answers (exec e.1 s) fun t => Frame [.queues, .link] s t ∧
            tfind t.link.cache n = some { st := .modified, data := lineWith (BitVec.ofNat 512 (leNat m.data)) mask d, rdom := BitVec.ofNat 5 dom }))) ∧
      (s.snoops = [] →
        (∀ e ∈ [(Instr.rdShared, 0x01, false), (.rdOwn, 0x02, true)], opc = e.2.1 →
          let x := if e.2.2 then subWriteStatus z off 64 rd else subStatus z off 64 rd
          let low := lowStatus z m
          (off < subBase → exec e.1 s = .next (done (clRespond (noteStatus z low) m 0x20 low []))) ∧
          (subBase ≤ off → x.1 ≠ csOK → exec e.1 s = .next (done (clRespond (noteStatus z x.1) m 0x20 x.1 []))) ∧
          (subBase ≤ off → x.1 = csOK → L.forerunner = true → exec e.1 s = .next (done (clRespond z m 0x20 csUNSUPPORTED []))) ∧
          (subBase ≤ off → x.1 = csOK → L.forerunner = false →
            let kept : Prop := (∃ y ∈ L.dir, y.1 = line) ∨ L.dir.length < dirEntries
            (homeBusy L line = true → Answers (exec e.1 s) fun t => Frame [.link] s t ∧ m ∈ t.link.homeWait ∧ t.link.dir = L.dir) ∧
            (homeBusy L line = false → kept → Answers (exec e.1 s) fun t =>
              Frame [.link, .parts] s t ∧ (line, e.2.2) ∈ t.link.dir ∧ (∀ y ∈ t.link.dir, y.1 = line ∨ y ∈ L.dir) ∧
              t = done (grantLine z m e.2.2 x.2.1 x.2.2)) ∧
            (homeBusy L line = false → ¬kept → ∀ o, L.dir.find? (fun y => !homeBusy L y.1) = some o →
              exec e.1 s = .next (done (openHome z o.1 true (some m)))))) ∧
        (∀ e ∈ [(Instr.evictDirty, 0x06, true), (.evictClean, 0x07, false)], opc = e.2.1 →
          let x := if e.2.2 then subWriteStatus z off 64 rd else subStatus z off 64 rd
          let w := if x.1 = csOK ∧ e.2.2 then storeHome z x.2.1 x.2.2 m.data else noteStatus z x.1
          let v := evictionArrived (clRespond (w.setLink (setDir w.link line false)) m 0x20 x.1 []) line
          let low := lowStatus z m
          (off < subBase → exec e.1 s = .next (done (clRespond (noteStatus z low) m 0x20 low []))) ∧
          (subBase ≤ off → exec e.1 s = .next (done (v.setLink (wakeHome v.link)))) ∧
          (subBase ≤ off → (∀ h ∈ L.home, h.line ≠ line) → Answers (exec e.1 s) fun t =>
            (∀ y ∈ t.link.dir, y.1 ≠ line) ∧ (e.2.2 = false → t.mem = s.mem))) ∧
        (∀ e ∈ [(Instr.srspI, 0x24, false), (.srspS, 0x25, true), (.srspDataI, 0x26, false), (.srspDataS, 0x27, true)], opc = e.2.1 →
          (L.home.find? (fun h => h.tag = m.tag && !h.done) = none → exec e.1 s = .next (done z)) ∧
          (∀ h, L.home.find? (fun h => h.tag = m.tag && !h.done) = some h →
            let w := if m.data = [] then z else writeBack z h.line m.data
            let v := w.setLink (setDir w.link h.line e.2.2)
            exec e.1 s = .next (done (if m.qmask.getLsbD 0 && !h.evicted then
                v.setLink { v.link with home := v.link.home.map fun x => if x.tag = h.tag then { x with evp := true } else x }
              else closeHome v h)) ∧
            (h.req = none → closeHome v h = v.setLink { v.link with home := v.link.home.filter (fun x => x.tag ≠ h.tag) ++ [{ h with done := true }] }) ∧
            (∀ q, h.req = some q → let y := serveCoherent (v.setLink { v.link with home := v.link.home.filter fun x => x.tag ≠ h.tag }) q
              closeHome v h = y.setLink (wakeHome y.link))))) ∧
      (∀ row ∈ [(true, LineSt.invalid, 0x24, LineSt.invalid), (true, .shared, 0x24, .invalid), (true, .exclusive, 0x24, .invalid),
          (true, .modified, 0x26, .invalid), (false, .invalid, 0x24, .invalid), (false, .shared, 0x25, .shared),
          (false, .exclusive, 0x25, .shared), (false, .modified, 0x27, .shared)],
        opc = (if row.1 then 0x30 else 0x31) →
        let e := tget ({} : CacheLine) L.cache line
        let b := if e.st = .modified then toLe 64 e.data.toNat else []
        let evp := (L.reqs.any fun r => r.2 = .evict line) && e.st = .invalid
        let cache := if row.2.2.2 = .invalid then tdel L.cache line else tset {} L.cache line { e with st := row.2.2.2 }
        let a : ClMsg := { ch := 1, opc := BitVec.ofNat 6 row.2.2.1, len := BitVec.ofNat 3 (b.length / 64), tag := m.tag, data := b }
        e.st = row.2.1 → exec (if row.1 then .snpInv else .snpShare) s
          = .next (clSend (z.setLink { z.link with cache := cache }) { a with rdom := m.rdom, qmask := if evp then 1 else 0, addr := m.addr })))

/-- A request below the sub-windows is DENIED if any of its units lies in a region that does not admit its domain, UNMAPPED
if none is a register, else it reads every unit, an unmapped one as zero; a write, judged by the units it selects and
mapped if its lines hold one register, drops those of unmapped units; a request that is not OK reads zeros, changes no
register but its counter, event and vector, and is counted. A sub-window is reached by its own domain alone, within its
length, while the partition is ACTIVE. Writing 1 to an RW1C bit clears it and no other. Unmasking a pending vector sends
its write. CL_BOOT_DONE, or its timeout, closes the boot region. A mailbox request is taken unless the mailbox is busy
or the length is out of range; clearing RSP_READY brings the next fragment. A write of a read-only register changes
nothing, one of an unmapped address counts. Nothing arrives while the link is not ACTIVE. (10 R310, 10 R311, 10 R313, 10
R314, 10 R315, 10 R320, 10 R448, 06 R186, 06 R170, 14 R411) -/
def Obligations.RegisterWindow : Prop :=
  (∀ (s : State) (off n rd : Nat), n ≠ 0 → off + 8 * n ≤ subBase →
    let us := (List.range n).map fun i => off + 8 * i
    let denied : Prop := ∃ o ∈ us, admits s o rd = some false
    let mapped : Prop := ∃ o ∈ us, (unitRead s o).isSome = true
    (denied → windowRead s off (8 * n) rd = (noteDenied s, 2, List.replicate (8 * n) 0)) ∧
    (¬denied → ¬mapped → windowRead s off (8 * n) rd = (noteUnmapped s, 1, List.replicate (8 * n) 0)) ∧
    (¬denied → mapped → windowRead s off (8 * n) rd = (s, 0, us.flatMap fun o => toLe 8 ((unitRead s o).getD 0))) ∧
    (∀ vs : List (Nat × Nat), vs ≠ [] → (∀ e ∈ vs, e.1 ∈ us) →
      let denied : Prop := ∃ e ∈ vs, admits s e.1 rd = some false
      (denied → windowWrite s rd off (8 * n) vs = (noteDenied s, 2)) ∧
      (¬denied → ¬mapped → windowWrite s rd off (8 * n) vs = (noteUnmapped s, 1)) ∧
      (¬denied → mapped → windowWrite s rd off (8 * n) vs =
        (vs.foldl (fun u e => if (unitRead u e.1).isSome then unitWrite u e.1 e.2 else u) s, 0)))) ∧
  (∀ (s : State) (k o n rd : Nat), k < 16 → o < 2 ^ 32 →
    let P := s.part k
    let off := 2 ^ 32 * (k + 1) + o
    let a := P.dict.subwinBase.toNat + o
    let there : Prop := P.dict.subwinEn ≠ 0 ∧ P.st = .active ∧ o + n ≤ P.dict.subwinLen.toNat
    (¬there → (subStatus s off n rd).1 = 1) ∧ (there → rd ≠ k + 1 → (subStatus s off n rd).1 = 2) ∧
    (there → rd = k + 1 → readable P a n = false → (subStatus s off n rd).1 = 1) ∧
    (there → rd = k + 1 → readable P a n = true → windowRead s off n rd = (s.noteRead k a n, 0, s.load k a n) ∧
      (writable P a n = false → (subWriteStatus s off n rd).1 = 2) ∧ (writable P a n = true → subWriteStatus s off n rd = (0, k, a)))) ∧
  (∀ s : State, s.running →
    (∀ (a v : BitVec 64) (i : Fin 64) (b : Bool) (m : Fin 17), s.link.st ≠ 2 →
      (∀ e ∈ [Instr.rw1cWrite a v, .clBootDone v, .interruptMaskWrite i b, .mbxReqLen m v, .rspReady m], exec e s = .next s) ∧
      (s.calm → exec (.registerWrite a v) s = .next s)) ∧
    (exec .bootRegionTimeout s = .next (if s.pins.cprstN then closeBoot s else s)) ∧
    (s.link.st = 2 →
      (∀ a v : BitVec 64,
        (a = 0x1008 → exec (.rw1cWrite a v) s = .next (s.setLink { s.link with event := s.link.event &&& ~~~(v.setWidth 6) })) ∧
        (∀ k < 16, a.toNat = 0x10008 + 0x1000 * k → exec (.rw1cWrite a v) s = .next (s.modPart k fun P =>
          { P with qpage := { P.qpage with event := P.qpage.event &&& ~~~(v.setWidth 5) } })) ∧
        (∀ d < 17, a.toNat = 0x207F8 + 0x1000 * d → exec (.rw1cWrite a v) s = .next (if v.getLsbD 1 then clearReady s d else s)) ∧
        (a ≠ 0x1008 → (∀ k < 16, a.toNat ≠ 0x10008 + 0x1000 * k) → (∀ d < 17, a.toNat ≠ 0x207F8 + 0x1000 * d) →
          exec (.rw1cWrite a v) s = .next s) ∧
        (exec (.clBootDone v) s = .next (if v = 1 then closeBoot s else s)) ∧
        (s.calm →
          let off := a.toNat / 8 * 8
          (unitRead s off = none → exec (.registerWrite a v) s = .next (noteUnmapped s)) ∧
          ((unitRead s off).isSome = true → exec (.registerWrite a v) s = .next (unitWrite s off v.toNat)) ∧
          ((off < 0x1008 ∨ (0x1040 ≤ off ∧ off < 0x8000) ∨ (0x100000 ≤ off ∧ off < 2 ^ 32)) →
            (unitRead s off).isSome = true → exec (.registerWrite a v) s = .next s) ∧
          (∀ k < 16, off = 0x10000 + 0x1000 * k → exec (.registerWrite a v) s = .next (doorbell s k v)) ∧
          (∀ k < 16, ∀ o, (o = 0x010 ∨ o = 0x018 ∨ (0x020 ≤ o ∧ o ≤ 0x038 ∧ o % 8 = 0) ∨ o = 0x050) → off = 0x10000 + 0x1000 * k + o →
            exec (.registerWrite a v) s = .next s) ∧
          (∀ i, vecMapped i = true → off = 0x8008 + 16 * i → exec (.registerWrite a v) s = .next (s.putVec i { s.vec i with addr := v })))) ∧
      (∀ (i : Fin 64) (b : Bool),
        let e := s.vec i.val
        (vecMapped i.val = false → exec (.interruptMaskWrite i b) s = .next s) ∧
        (vecMapped i.val = true → b = true ∨ e.pend = false → exec (.interruptMaskWrite i b) s = .next (s.putVec i.val { e with mask := b })) ∧
        (vecMapped i.val = true → b = false → e.pend = true → Answers (exec (.interruptMaskWrite i b) s) fun t =>
          Frame [.link, .vectors] s t ∧ t.vec i.val = { e with mask := false, pend := false, inFlight := true })) ∧
      (∀ (m : Fin 17) (v : BitVec 64),
        let b := s.mailbox m.val
        let bad : Prop := b.busy = true ∨ v = 0 ∨ 2032 < v.toNat
        (bad → exec (.mbxReqLen m v) s = .next (clCount s mbxOverrun 1)) ∧
        (¬bad → exec (.mbxReqLen m v) s = .next (rolArrives (s.putMailbox m.val { b with busy := true }) (some m.val) {}
          ((List.range v.toNat).map fun i => tget 0 b.req i))) ∧
        (b.ready = false → exec (.rspReady m) s = .next s) ∧
        (b.ready = true → b.frags = [] → exec (.rspReady m) s = .next (s.putMailbox m.val { b with ready := false })) ∧
        (∀ f r, b.ready = true → b.frags = f :: r → exec (.rspReady m) s
          = .next (raise (s.putMailbox m.val { b with rsp := f, rspLen := BitVec.ofNat 16 f.length, frags := r, ready := true, readyCnt := satAdd 32 b.readyCnt 1 }) (32 + m.val)))))) ∧
  (∀ s : State, (closeBoot s).link.bootOpen = false ∧ (s.link.bootOpen = false → closeBoot s = s) ∧
    (s.link.bootOpen = true → (closeBoot s).link.event.getLsbD 5 = true ∧ Frame [.link, .vectors] s (closeBoot s)))

/-- A request is served when its message is first in line, its session is open and its SEQ is the next; the last SEQ again
gets the kept response, any other is dropped and counted. Each kind answers under the session's key: READ its items,
WRITE all items or none, SUBSCRIBE, POLL the oldest event or an empty one, ATTEST a report, KEYREQ a report with a fresh
key pair, KEYSET and KEYLOAD their status; CLOSE and EVENT_ACK answer nothing. HELLO is answered, at most eight in a
second; AUTH opens its session exactly when key, place, role, partition and signature allow. A closed session leaves no
key and no message. Each timer acts on its own session, message or key alone. Status bytes and malformed payloads: logs
46, 54. (14 R410, 14 R411, 14 R412, 14 R413, 14 R414, 14 R415, 14 R416, 14 R417, 14 R418, 14 R420, 14 Table 14.3, 11
R339) -/
def Obligations.RolserEndpoint : Prop :=
  ∀ s : State, s.running →
    let R := s.rolser
    (∀ e ∈ [(Instr.close, rkClose), (.read, rkRead), (.write, rkWrite), (.subscribe, rkSubscribe), (.eventAck, rkEventAck), (.poll, rkPoll),
        (.attest, rkAttest), (.keyreq, rkKeyreq), (.keyset, rkKeyset), (.keyload, rkKeyload)], s.calm →
      ((∀ m ∈ R.msgs.head?, m.kind.toNat ≠ e.2) → exec e.1 s = .next s) ∧
      (∀ m r, R.msgs = m :: r → m.kind.toNat = e.2 →
        let sid := m.sid.toNat
        let z := s.setRolser { R with msgs := r }
        let S := s.session sid
        (hasSession s sid = false ∨ S.opened = false → exec e.1 s = .next (freeBusy z m.mbox)) ∧
        (hasSession s sid = true → S.opened = true → m.seq ≠ S.lastSeq + 1 → exec e.1 s
          = .next (if m.seq ≠ S.lastSeq then rolSeqDrop z m.mbox else if S.kept = [] then freeBusy z m.mbox else rolSend z m.mbox m.peer S.kept)))) ∧
    (∀ m r, R.msgs = m :: r → hasSession s m.sid.toNat = true → (s.session m.sid.toNat).opened = true →
      m.seq = (s.session m.sid.toNat).lastSeq + 1 →
      let sid := m.sid.toNat
      let S : Session := { s.session sid with lastSeq := m.seq, kept := [] }
      let w := putSession (s.setRolser { R with msgs := r }) sid S
      let k := S.role - 1
      let tenant : Prop := 1 ≤ S.role ∧ S.role ≤ 16
      let P := s.part k
      let p := m.payload
      (m.kind.toNat = rkClose → Answers (exec .close s) fun t => Frame [.rolser, .mailboxes] s t ∧ hasSession t sid = false ∧
        (∀ x, x ≠ sid → t.session x = s.session x) ∧ (∀ x ∈ t.rolser.msgs, x.sid ≠ m.sid) ∧ ∀ x ∈ t.rolser.frags, x.sid ≠ m.sid) ∧
      (m.kind.toNat = rkRead →
        (readItems p = none → exec .read s = .next (freeBusy w m.mbox)) ∧
        (∀ l, readItems p = some l → (∀ it ∈ l, it ≠ (0x3000, 0x11)) →
          exec .read s = .next (rolReply w sid 0x11 (toLe 2 l.length ++ l.flatMap fun it =>
            match access w S it.1 it.2 mayRead true with
            | .error st => valueItem it.1 it.2 st 0 []
            | .ok g => valueItem it.1 it.2 0x00 g.2.ty (entryValue w S g.1 it.2))))) ∧
      (m.kind.toNat = rkWrite → s.calm →
        let items := writeItems (leNat (p.take 2)) (p.drop 2)
        (items = none → exec .write s = .next (freeBusy w m.mbox)) ∧
        (∀ l, items = some l →
          let a := l.foldl (writeItem sid) { s := w, sts := [], ending := none }
          (a.sts.any (· ≠ 0x00) = true → exec .write s = .next (rolReply w sid 0x13 (writeAnswer l a.sts))) ∧
          (a.sts.any (· ≠ 0x00) = false → exec .write s
            = .next (runEnding (closeSessions (rolReply a.s sid 0x13 (writeAnswer l a.sts)) fun S => rekeyed l S.role) a.ending)))) ∧
      (m.kind.toNat = rkSubscribe →
        (p.length ≠ 6 → exec .subscribe s = .next (freeBusy w m.mbox)) ∧
        (p.length = 6 →
          let x := Sys2Proof.Machine.subscribe w S (leNat (slice p 0 2)) (p.getD 2 0).toNat (p.getD 3 0).toNat (leNat (slice p 4 2))
          exec .subscribe s = .next (rolReply (putSession w sid { S with subs := x.2 }) sid 0x15 [BitVec.ofNat 8 x.1]))) ∧
      (m.kind.toNat = rkEventAck → exec .eventAck s
        = .next (freeBusy (putSession w sid { S with events := S.events.filter fun e => e.1.toNat ≠ leNat p % 2 ^ 64 }) m.mbox)) ∧
      (m.kind.toNat = rkPoll → ∀ e es, S.events = e :: es →
        let fs := rolFrames (some S.keyOut) sid e.1.toNat rkEvent 2 e.2.1
        exec .poll s = .next (rolSend (putSession w sid { S with events := es, kept := fs }) m.mbox m.peer fs)) ∧
      (m.kind.toNat = rkPoll → S.events = [] →
        let fs := rolFrames (some S.keyOut) sid (S.evSeq + 1).toNat rkEvent 2 (eventPayload S.lost 0 [])
        exec .poll s = .next (rolSend (putSession w sid { S with evSeq := S.evSeq + 1, lost := false, kept := fs }) m.mbox m.peer fs)) ∧
      (m.kind.toNat = rkAttest → exec .attest s
        = .next (if p.length = 32 then rolReply w sid 0x21 (report w none p []) else freeBusy w m.mbox)) ∧
      (m.kind.toNat = rkKeyreq →
        (¬tenant → exec .keyreq s = .next (rolReply w sid 0x23 [rsDENIED])) ∧
        (tenant → ¬(P.st = .reserved ∨ P.st = .active) ∨ p.length ≠ 32 → exec .keyreq s = .next (rolReply w sid 0x23 [rsSTATE])) ∧
        (tenant → P.st = .reserved ∨ P.st = .active → p.length = 32 → Answers (exec .keyreq s) fun t =>
          let pair := Config.mlkemKeyGen (w.draw 64).1
          let z := (w.draw 64).2
          let rep := report z (some k) p (fit 1184 pair.1)
          t = rolReply (z.modPart k fun P => { P with keys := { P.keys with kem := some (pair.2, digest rep) } }) sid 0x23 rep)) ∧
      (m.kind.toNat = rkKeyset →
        (¬tenant → exec .keyset s = .next (rolReply w sid 0x25 [rsDENIED])) ∧
        (tenant → P.keys.kem = none ∨ P.st ≠ .reserved → exec .keyset s = .next (rolReply w sid 0x25 [rsSTATE])) ∧
        (∀ dk d, tenant → P.keys.kem = some (dk, d) → P.st = .reserved →
          let z := w.modPart k fun P => { P with keys := { P.keys with kem := none } }
          let id : BitVec 32 := BitVec.ofNat 32 (leNat (slice p 1088 4))
          let good : Prop := p.length = 4401 ∧ Config.mldsaVerify P.tenantKey [] (d ++ p.take 1092) (p.drop 1092) = true ∧ id ≠ 0
          let secret := Config.mlkemDecap dk (slice p 0 1088)
          (∀ ss, secret = some ss → good → exec .keyset s
            = .next (rolReply (firstControlQueue (z.modPart k fun P => establish P ss d id) k) sid 0x25 [rsOK])) ∧
          (secret = none ∨ ¬good → exec .keyset s = .next (rolReply (z.modPart k keyFail) sid 0x25 [rsDENIED])))) ∧
      (m.kind.toNat = rkKeyload →
        (¬tenant → exec .keyload s = .next (rolReply w sid 0x27 [rsDENIED])) ∧
        (tenant → P.st ≠ .active ∨ P.keys.prk = none ∨ P.keys.wrapKey = none → exec .keyload s = .next (rolReply w sid 0x27 [rsSTATE])) ∧
        (∀ prk wrap, tenant → P.st = .active → P.keys.prk = some prk → P.keys.wrapKey = some wrap →
          (Config.keyUnwrap wrap p = none → exec .keyload s = .next (rolReply w sid 0x27 [rsDENIED])) ∧
          (∀ l, Config.keyUnwrap wrap p = some l →
            let x := l.foldl (loadItem k prk) (w, rsOK)
            exec .keyload s = .next (rolReply (if x.2 = rsOK then x.1 else w) sid 0x27 [x.2]))))) ∧
    (∀ e ∈ [(Instr.hello, rkHello), (.auth, rkAuth)], (∀ m ∈ R.msgs.head?, m.kind.toNat ≠ e.2) → exec e.1 s = .next s) ∧
    (∀ m r, R.msgs = m :: r →
      let z := s.setRolser { R with msgs := r }
      let sid := m.sid.toNat
      let S := s.session sid
      (m.kind.toNat = rkHello →
        let formed : Prop := rolserUp s = true ∧ m.payload.length = 1220 ∧ (m.payload.getD 0 0).toNat ≤ 18
        (¬formed → exec .hello s = .next (freeBusy z m.mbox)) ∧
        (formed → 8 ≤ R.helloSec → exec .hello s = .next (freeBusy (z.setRolser { z.rolser with helloDrop := satAdd 64 R.helloDrop 1 }) m.mbox)) ∧
        (formed → R.helloSec < 8 → Answers (exec .hello s) fun t =>
          Frame [.draws, .ports, .rolser, .mailboxes, .link, .vectors, .ethTx] s t ∧ t.rolser.helloSec = R.helloSec + 1 ∧
          ∃ S', tfind t.rolser.sessions R.nextSid.toNat = some S' ∧ S'.opened = false ∧ S'.mbox = m.mbox ∧ S'.peer = m.peer ∧
            S'.role = (m.payload.getD 0 0).toNat ∧ S'.lastSeq = 0)) ∧
      (m.kind.toNat = rkAuth →
        (hasSession s sid = false ∨ S.opened = true → exec .auth s = .next (freeBusy z m.mbox)) ∧
        (hasSession s sid = true → S.opened = false →
          let fs (b : Byte) := rolFrames (some S.keyOut) sid 0 rkAuthR 1 [b]
          exec .auth s = .next (if authOk z S m.payload then rolSend (putSession z sid { S with opened := true }) m.mbox m.peer (fs rsOK)
            else rolSend (closeSession z sid) m.mbox m.peer (fs rsDENIED))))) ∧
    (∀ (k : Fin 16) (sid : BitVec 32) (seq : BitVec 64) (ix : BitVec 16) (sub : BitVec 8),
      let S := s.session sid.toNat
      exec (.decapsulationKeyExpiry k) s = .next (s.modPart k.val fun P => { P with keys := { P.keys with kem := none } }) ∧
      exec (.fragmentTimeout sid seq) s = .next (s.setRolser { R with frags := R.frags.filter fun x => x.sid ≠ sid || x.seq ≠ seq }) ∧
      exec (.sessionIdleT sid) s = .next (if S.opened then closeSession s sid.toNat else s) ∧
      exec (.authTimeout sid) s = .next (
        if !hasSession s sid.toNat || S.opened then s
        else if S.mbox = none then rolSend (closeSession s sid.toNat) none S.peer (rolFrames (some S.keyOut) sid.toNat 0 rkAuthR 1 [rsDENIED])
        else closeSession s sid.toNat) ∧
      (S.opened = false ∨ S.mbox ≠ none → exec (.eventResend sid) s = .next s) ∧
      (S.opened = true → S.mbox = none → Answers (exec (.eventResend sid) s) fun t => Frame [.rolser, .ports, .ethTx] s t ∧
        let keep := S.events.filter fun e => e.2.2 < 4
        t.session sid.toNat = { S with events := keep.map fun e => (e.1, e.2.1, e.2.2 + 1), lost := S.lost || decide (keep.length < S.events.length) } ∧
        t.rolser.out = R.out ++ keep.flatMap fun e => rolFrames (some S.keyOut) sid.toNat e.1.toNat rkEvent 2 e.2.1) ∧
      ((∀ x ∈ S.subs, ¬(x.index = ix ∧ x.sub = sub)) → exec (.periodicSubscription sid ix sub) s = .next s) ∧
      (∀ x g r, S.subs.find? (fun x => x.index = ix && x.sub = sub) = some x → access s S ix.toNat sub.toNat mayRead true = .ok (g, r) →
        let vs := dueValues s S x g sub.toNat
        (vs = [] → exec (.periodicSubscription sid ix sub) s = .next s) ∧
        (vs ≠ [] → Answers (exec (.periodicSubscription sid ix sub) s) fun t => Frame [.rolser, .ports, .ethTx, .link, .vectors] s t ∧
          (t.session sid.toNat).evSeq = S.evSeq + 1 ∧ (t.session sid.toNat).events.getLast?.map (·.1) = some (S.evSeq + 1))))

/-- A device reset leaves every partition FREE, every queue DISABLED, every counter, core, plane and event clear, every
session closed, the link down, CPRST_N low and start-up at its first stage; it keeps fuses, flash entries, straps and
the waiting commands, writes to memory the ABORTED records of every queue, wiping it only in the start-up that follows,
and counts BOOT_COUNT. SYSRST_N low, and PORST_N low over it, reset and stop the clocks; rising they let the device
start, CLOCK_LOST without REFCLK_SYS, held after a trip. PORST_N also clears a latched trip and samples the straps. A
life-cycle transition runs exactly in its state with its argument, and else changes nothing: LC_SEAL, LC_RMA with a
valid token and at most seven times, LC_DECOMMISSION with SERIAL, provisioning from BLANK and from RMA. Each ends in a
device reset. A pulse on CPRST_N loses the link. What a reset keeps beside the table's text, and argument errors: logs
52, 60. (06 R176, 11 R347, 11 R348, 13 R404, 13 R405, 13 R406, 13 Table 13.4, 13 R401, 13 R403, 15 R442, 15 R443, 10
R320) -/
def Obligations.ResetsAndLifeCycle : Prop :=
  ∀ s : State,
    let T := s.trust
    let cleared (t : State) : Prop :=
      (t.parts = [] ∧ t.queues = [] ∧ t.ctrs = [] ∧ t.vcs = [] ∧ t.mus = [] ∧ t.pipes = [] ∧ t.slices = [] ∧ t.serge = [] ∧ t.pdies = []
        ∧ t.vectors = [] ∧ t.mailboxes = [] ∧ t.snoops = []) ∧
      (t.pending = s.pending ∧ t.draws = s.draws ∧ t.xft = s.xft) ∧
      (t.link.st = 0 ∧ t.link.cache = [] ∧ t.calm ∧ t.link.reqs = [] ∧ t.link.forceFr = s.link.forceFr ∧ t.link.bootOpen = false) ∧
      (t.rolser.sessions = [] ∧ t.rolser.msgs = [] ∧ t.rolser.idleT = s.rolser.idleT ∧ t.rolser.mgmtAddr = s.rolser.mgmtAddr) ∧
      (t.boot.state = 0x01 ∧ t.boot.romDone = false ∧ t.boot.wiped = false ∧ t.boot.slotId = s.boot.slotId ∧ t.boot.feedId = s.boot.feedId) ∧
      (t.pins.cprstN = false ∧ t.pins.alertN = true ∧ t.pins.hotstopN = true ∧ t.pins.tap = s.pins.tap ∧ t.pins.refSys = s.pins.refSys) ∧
      (t.power.cap = s.power.cap ∧ t.power.alertMask = s.power.alertMask ∧ t.power.overCap = false ∧ t.power.samples = []) ∧
      (t.ripstop.ring = [] ∧ t.ripstop.usedSpares = [] ∧ t.ripstop.secureTh = s.ripstop.secureTh ∧ t.ripstop.evacTh = s.ripstop.evacTh ∧
        t.ripstop.fenceList = s.ripstop.fenceList.filter fun e => !s.ripstop.fenceClear.contains e) ∧
      (t.trust.mr0 = [] ∧ t.trust.mr1 = [] ∧ t.trust.mr2 = [] ∧ FusesStand T t.trust) ∧
      (rising s.ports = true → ∀ p, (t.port p).axis = (s.port p).axis ∧ (t.port p).maxFrame = (s.port p).maxFrame ∧ (t.port p).st = 0) ∧
      (rising s.dies = true → ∀ d, (t.die d).trim = (s.die d).trim ∧ (t.die d).strap = (s.die d).strap ∧ (t.die d).barred = false)
    let reset (t : State) : Prop := cleared t ∧ t.now = 0 ∧ t.boot.clocksOff = false ∧ ∃ T', t.mem = (abortQueues (s.setTrust T')).mem
    let counted (t : State) : Prop := t.trust.bootCount = satAdd 64 T.bootCount 1
    (∀ (key token drs cert soKey : Bytes) (serial : BitVec 128), s.boot.clocksOff = true →
      ∀ i ∈ [Instr.deviceReset, .lcSeal key, .lcRma token, .lcDecommission serial, .blankToProvisioned drs serial cert soKey, .rmaToProvisioned cert],
        exec i s = .next s) ∧
    (s.running →
      (Answers (exec .deviceReset s) fun t => reset t ∧ t.mem = (abortQueues s).mem ∧ counted t ∧ t.trust.lcs = T.lcs ∧ t.trust.soKey = T.soKey) ∧
      (∀ key : Bytes,
        let ok : Prop := T.lcs = 1 ∧ (key = [] ∨ key.length = 1952)
        (¬ok → exec (.lcSeal key) s = .next s) ∧
        (ok → Answers (exec (.lcSeal key) s) fun t => reset t ∧ counted t ∧ t.trust.lcs = 2 ∧
          t.trust.ownerKey = (if key = [] then T.ownerKey else key) ∧
          t.trust.ownerDigest = (if key = [] then T.ownerDigest else fit 64 (Config.shake256 key 512)))) ∧
      (∀ token : Bytes,
        let ok : Prop := (T.lcs = 1 ∨ T.lcs = 2) ∧ T.rmaCount < 7 ∧ T.rmaNonce ≠ [] ∧
          Config.mldsaVerify Config.nimornKey [] (toLe 16 T.serial.toNat ++ T.rmaNonce) token = true
        (¬ok → exec (.lcRma token) s = .next s) ∧
        (ok → Answers (exec (.lcRma token) s) fun t => reset t ∧ counted t ∧ t.trust.lcs = 3 ∧ t.trust.rmaCount = T.rmaCount + 1 ∧
          t.trust.idkSigns = false)) ∧
      (∀ serial : BitVec 128,
        (T.lcs = 4 ∨ serial ≠ T.serial → exec (.lcDecommission serial) s = .next s) ∧
        (T.lcs ≠ 4 → serial = T.serial → Answers (exec (.lcDecommission serial) s) fun t => reset t ∧ counted t ∧ t.trust.lcs = 4 ∧
          t.trust.drsKilled = true)) ∧
      (∀ (drs cert soKey : Bytes) (serial : BitVec 128),
        let ok : Prop := T.lcs = 0 ∧ drs.length = 32 ∧ cert.length ≤ 6144 ∧ soKey.length = 1952
        (¬ok → exec (.blankToProvisioned drs serial cert soKey) s = .next s) ∧
        (ok → Answers (exec (.blankToProvisioned drs serial cert soKey) s) fun t => reset t ∧ t.trust.lcs = 1 ∧ t.trust.drs = some drs ∧
          t.trust.serial = serial ∧ t.trust.idkSigns = true ∧ t.trust.idkCert = cert ∧ t.trust.soKey = soKey ∧ t.trust.bootCount = 0)) ∧
      (∀ cert : Bytes,
        (T.lcs ≠ 3 ∨ 6144 < cert.length → exec (.rmaToProvisioned cert) s = .next s) ∧
        (T.lcs = 3 → cert.length ≤ 6144 → Answers (exec (.rmaToProvisioned cert) s) fun t => reset t ∧ counted t ∧ t.trust.lcs = 1 ∧
          t.trust.idkSigns = true ∧ t.trust.idkCert = cert ∧ t.trust.ownerKey = [] ∧ t.trust.ownerDigest = [] ∧ t.trust.rmaCount = T.rmaCount)) ∧
      (s.calm → (s.pins.cprstN = false → exec .cprstPulse s = .next s) ∧
        (s.pins.cprstN = true → Answers (exec .cprstPulse s) fun t => t.pins.cprstN = false ∧ t.pins.cprstUp = some (s.now.toNat + 100000) ∧
          t.link.st = 0 ∧ t.link.cache = [] ∧ t.link.event.getLsbD 1 = true))) ∧
    (∀ level : Bool, s.pins.sysrstN = level → exec (.sysrstN level) s = .next s) ∧
    (s.pins.sysrstN = true → s.pins.porstN = true → Answers (exec (.sysrstN false) s) fun t => cleared t ∧ counted t ∧
      t.boot.clocksOff = true ∧ t.pins.sysrstN = false ∧ t.boot.calibrated = s.boot.calibrated ∧ t.boot.calib = s.boot.calib ∧
      t.mem = (abortQueues (s.setPins { s.pins with sysrstN := false })).mem) ∧
    (∀ level : Bool, s.pins.sysrstN ≠ level → s.pins.porstN = false → exec (.sysrstN level) s = .next (s.setPins { s.pins with sysrstN := level })) ∧
    (let started (o : Host.Outcome State Fault Refusal) : Prop := Answers o fun t => t.now = 0 ∧ t.parts = s.parts ∧ t.mem = s.mem ∧
        (s.pins.refSys = true → t.boot.clocksOff = !s.pins.thermtripN ∧ t.boot.state = s.boot.state) ∧
        (s.pins.refSys = false → t.boot.clocksOff = true ∧ t.boot.state = 0x83 ∧ t.power.bootFail = true)
     (s.pins.sysrstN = false → s.pins.porstN = true → started (exec (.sysrstN true) s)) ∧
     (∀ x, s.pins.porstN = false → s.pins.sysrstN = true → started (exec (.porstN true x) s))) ∧
    (∀ (level : Bool) (x : BitVec 14), s.pins.porstN = level → exec (.porstN level x) s = .next s) ∧
    (∀ x, s.pins.porstN = false → Answers (exec (.porstN true x) s) fun t => t.pins.porstN = true ∧ t.boot.slotId = x.extractLsb' 6 8 ∧
      t.boot.feedId = x.extractLsb' 2 4 ∧ t.boot.bootSrc = x.extractLsb' 0 2 ∧
      (s.pins.sysrstN = false → t.boot.clocksOff = s.boot.clocksOff ∧ t.now = s.now)) ∧
    (∀ x, s.pins.porstN = true → Answers (exec (.porstN false x) s) fun t => cleared t ∧ t.mem = s.mem ∧ t.boot.clocksOff = true ∧ t.pins.porstN = false ∧
      t.pins.thermtripN = true ∧ t.boot.calibrated = false ∧ t.boot.stored = false ∧ t.boot.everReady = false ∧
      t.trust.bootCount = T.bootCount ∧ ∀ d, (t.die d).rail = 850) ∧
    ((∀ q, (s.queue q).started = [] ∧ (s.queue q).head = (s.queue q).tail) → (abortQueues s).mem = s.mem)

/-- Each start-up stage runs once, when the stages it needs have ended, while start-up has not failed; STATE is then the
earliest stage not ended, 0x00 when all have. ROM secure boot checks steppings, then straps (log 79), then the first or
second copy of each image, and fails with 0x80, 0x81, 0x82, which asserts ALERT_N; passing it measures the images. BIST
fences what fails; WIPES clears memory. A companion image that verifies is measured, put into the boot region, and
releases CPRST_N; any other sets CP_IMAGE_BAD. Losing REFCLK_SYS stops the clocks with CLOCK_LOST; losing REFCLK_CL is a
link loss; losing a REFCLK_NET takes down the ports that are up on its P-die. PMB_ALERT_N falling sets REG_FAULT;
ALERT_CLEAR clears what has ended. The test access port takes its instruction, on the lands only while PORST_N is low.
(13 R403, 13 R405, 13 R406, 13 R407, 13 Table 13.5, 13 Table 13.6, 11 R349, 11 R350, 11 R347, 10 R319, 10 R320, 15 R445) -/
def Obligations.StartUpPinsAndTap : Prop :=
  ∀ s : State,
    let B := s.boot
    let up : Prop := s.running ∧ B.state.toNat < 0x80
    let failed' (o : Host.Outcome State Fault Refusal) (n : BitVec 8) : Prop := Answers o fun t => t.boot.state = n ∧ t.power.bootFail = true ∧
      t.boot.romDone = false ∧ t.trust = s.trust ∧ (s.power.alertMask.getLsbD 4 = false → t.pins.alertN = false)
    let earliest (b : Boot) : BitVec 8 := if !b.romDone then 0x01 else if !(b.nearTrained && b.farTrained) then 0x02
      else if !(b.nearBist && b.bistDone) then 0x03 else if !b.wiped then 0x04 else if !b.calibrated then 0x05 else 0x00
    let staged (o : Host.Outcome State Fault Refusal) (f : Boot → Boot) : Prop := Answers o fun t =>
      t.boot.state = earliest (f B) ∧ (∀ g : Boot → Bool, (g = Boot.romDone ∨ g = Boot.nearTrained ∨ g = Boot.farTrained ∨ g = Boot.nearBist ∨
        g = Boot.bistDone ∨ g = Boot.wiped ∨ g = Boot.calibrated) → g t.boot = g (f B)) ∧ PartsStand s t ∧ t.link = s.link
    (∀ (imgs : List (List (BitVec 32 × Bytes × Bytes × Bytes))) (fw : Bytes),
      (¬up ∨ B.romDone = true → exec (.romSecureBoot imgs fw) s = .next s) ∧
      (up → B.romDone = false →
        (stepsAgree s = false → failed' (exec (.romSecureBoot imgs fw) s) 0x80 ∧
          Answers (exec (.romSecureBoot imgs fw) s) fun t => t.boot.identity.toNat = 0x4E4D0754_01A10000) ∧
        (stepsAgree s = true → strapsAgree s = false → failed' (exec (.romSecureBoot imgs fw) s) 0x81 ∧
          Answers (exec (.romSecureBoot imgs fw) s) fun t => t.boot.identity = 0) ∧
        (stepsAgree s = true → strapsAgree s = true →
          (chosen s.trust imgs = none → failed' (exec (.romSecureBoot imgs fw) s) 0x82) ∧
          (∀ l, chosen s.trust imgs = some l → staged (exec (.romSecureBoot imgs fw) s) (fun b => { b with romDone := true }) ∧
            Answers (exec (.romSecureBoot imgs fw) s) fun t =>
              t.trust.mr0 = ((l.map fun c => digest c.2.1).take 1).foldl extendMr s.trust.mr0 ∧
              t.trust.mr1 = ((l.map fun c => digest c.2.1).drop 1).foldl extendMr s.trust.mr1 ∧
              t.boot.identity.toNat = 0x4E4D0754_01A10000 + (s.die 0).step.toNat * 256)))) ∧
    (∀ (imgs : List (List (BitVec 32 × Bytes × Bytes × Bytes))) l, chosen s.trust imgs = some l →
      s.trust.lcs ≠ 4 ∧ l.length = imgs.length ∧ ∀ c ∈ l, copyOk s.trust c = true) ∧
    (∀ far : Bool,
      (¬up ∨ B.romDone = false → exec (.memoryTraining far) s = .next s) ∧
      (up → B.romDone = true → staged (exec (.memoryTraining far) s) fun b =>
        if far then { b with farTrained := true } else { b with nearTrained := true })) ∧
    (∀ (near : Bool) (l : List (BitVec 8 × BitVec 4 × BitVec 12)),
      let may : Prop := up ∧ (if near then B.nearTrained = true else B.farTrained = true ∧ B.bistDone = false)
      (¬may → exec (.bist near l) s = .next s) ∧
      (may → near = true → staged (exec (.bist near l) s) fun b => { b with nearBist := true }) ∧
      (may → near = false → Answers (exec (.bist near l) s) fun t => t.boot.bistDone = true ∧ t.boot.state = earliest { B with bistDone := true } ∧
        (∀ e ∈ s.ripstop.fenceList, e ∈ t.ripstop.fenceList) ∧ ((∀ n, (s.mu n).queue = []) → t.mem = s.mem ∧ PartsStand s t))) ∧
    (let may : Prop := up ∧ B.bistDone = true ∧ B.nearBist = true ∧ B.wiped = false
     (¬may → exec .wipes s = .next s) ∧
     (may → staged (exec .wipes s) (fun b => { b with wiped := true }) ∧ Answers (exec .wipes s) fun t => t.mem = [])) ∧
    (let may : Prop := up ∧ B.wiped = true ∧ B.calibrated = false
     (¬may → exec .powerCalibration s = .next s) ∧ (may → staged (exec .powerCalibration s) (fun b => { b with calibrated := true }) ∧
      Answers (exec .powerCalibration s) fun t => t.boot.calib = B.calib + 1)) ∧
    (∀ (image sig : Bytes) (load entry : BitVec 64),
      let may : Prop := up ∧ B.nearBist = true ∧ s.pins.cprstN = false ∧ B.imageBad = false ∧ s.link.boot = []
      let good : Prop := image ≠ [] ∧ image.length ≤ 0x3FFF000 ∧ Config.mldsaVerify (imageKey s.trust) [] image sig = true
      (¬may → exec (.companionImage image load entry sig) s = .next s) ∧
      (may → ¬good → exec (.companionImage image load entry sig) s = .next (s.setBoot { B with imageBad := true })) ∧
      (may → good → Answers (exec (.companionImage image load entry sig) s) fun t => Frame [.trust, .link, .pins] s t ∧
        t.trust = { s.trust with mr1 := extendMr s.trust.mr1 (digest image) } ∧ t.pins.cprstN = true ∧ t.link.bootOpen = true ∧
        t.link.st = (if s.pins.refCl then 1 else 0) ∧
        ∀ i < image.length, tget (0 : BitVec 8) t.link.boot (0x1000 + i) = image.getD i 0)) ∧
    (s.calm →
      (Answers (exec (.referenceLost 0) s) fun t => t.pins.refSys = false ∧ t.parts = s.parts ∧
        (let run := s.pins.refSys && s.pins.porstN && s.pins.sysrstN && s.pins.thermtripN
         (run = true → t.boot.clocksOff = true ∧ t.boot.state = 0x83 ∧ t.power.bootFail = true) ∧
         (run = false → t = s.setPins { s.pins with refSys := false }))) ∧
      (Answers (exec (.referenceLost 1) s) fun t => t.pins.refCl = false ∧ t.link.st = 0 ∧
        (s.running → s.link.st = 2 ∨ s.link.retraining = true → t.link.cache = [] ∧ t.link.event.getLsbD 1 = true)) ∧
      (∀ d < 2, Answers (exec (.referenceLost (BitVec.ofNat 2 (2 + d))) s) fun t =>
        (if d = 0 then t.pins.refNet0 else t.pins.refNet1) = false ∧
        (s.boot.clocksOff = true → t.ports = s.ports) ∧
        (s.running → ∀ i < 8, portUp s (8 * d + i) = true → portUp t (8 * d + i) = false))) ∧
    (exec (.referencePresent 0) s = .next (s.setPins { s.pins with refSys := true })) ∧
    (Answers (exec (.referencePresent 1) s) fun t => t.pins = { s.pins with refCl := true } ∧
      t.link.st = (if s.pins.refCl = false ∧ s.boot.clocksOff = false ∧ s.pins.cprstN = true ∧ s.link.st = 0 then 1 else s.link.st)) ∧
    (exec (.referencePresent 2) s = .next (s.setPins { s.pins with refNet0 := true })) ∧
    (exec (.referencePresent 3) s = .next (s.setPins { s.pins with refNet1 := true })) ∧
    (∀ (level : Bool) (st : BitVec 16),
      (level = true ∨ s.pins.pmbAlertN = false ∨ s.boot.clocksOff = true →
        exec (.pmbAlertN level st) s = .next (s.setPins { s.pins with pmbAlertN := level })) ∧
      (level = false → s.pins.pmbAlertN = true → s.running → Answers (exec (.pmbAlertN level st) s) fun t => Frame [.pins, .power] s t ∧
        t.power = { s.power with regFault := true, regStatus := st } ∧ t.pins.pmbAlertN = false ∧
        (s.power.alertMask.getLsbD 0 = false → t.pins.alertN = false))) ∧
    (s.running → Answers (exec .alertClear s) fun t => Frame [.pins, .power] s t ∧
      t.power = { s.power with overCap := s.power.overCap && overNow s, regFault := s.power.regFault && !s.pins.pmbAlertN }) ∧
    (∀ e ∈ [(Instr.bypass, TapInstr.bypass), (.samplePreload, .samplePreload), (.extest, .extest), (.clamp, .clamp), (.highz, .highz),
        (.extestPulse, .extestPulse), (.extestTrain, .extestTrain)],
      (s.pins.trstN = false → exec e.1 s = .next s) ∧
      (s.pins.trstN = true → exec e.1 s = .next (
        let held : Bool := decide (e.2 ≠ .bypass ∧ e.2 ≠ .samplePreload ∧ s.pins.porstN = true)
        s.setPins { s.pins with tap := e.2, lands := if held then .bypass else e.2 }))) ∧
    (exec (.trstN true) s = .next (s.setPins { s.pins with trstN := true })) ∧
    (exec (.trstN false) s = .next (s.setPins { s.pins with trstN := false, tap := .bypass, lands := .bypass }))

/-- CREATE is accepted exactly for a FREE partition on a READY device in PROVISIONED or SEALED, with a tenant key and an
allotment that keeps the units and shares nothing with another partition; it takes the slices and far units no other
holds. When it completes the partition is RESERVED with a fresh far key, step 0 and age 0, its near and far memory, the
SRAM of its slices, its counters and its queues read zero, and nothing of another partition has changed. RESIZE is
accepted for an ACTIVE partition with no queue running; when it completes the allotment is the new one and no page lies
beyond it. PART_RESET and DESTROY are accepted when RESERVED or ACTIVE and stop the queues; once none is RESETTING, the
keys, memory, counters, queues and sessions of the partition are gone, and it is RESERVED with its allotment and
entries, or FREE. AGE counts a pass. A command that is not accepted changes nothing. Busy and least ranges: logs 57, 58.
(05 R127, 06 R186, 11 R321, 11 R322, 11 R323, 11 R324, 11 R325, 11 R326, 11 R347, 11 Table 11.1, 05 R145) -/
def Obligations.PartitionLifecycle : Prop :=
  (∀ (s : State) (k : Nat) (A : Alloc), allotOk s k A = true → A.slices ≠ 0 ∧
    (∀ i, A.slices.getLsbD i = true → (s.slice i).owner = none ∨ (s.slice i).owner = some k) ∧
    (∀ j < 16, j ≠ k → (s.part j).st ≠ .free →
      let B := (s.part j).alloc
      (A.qbase.toNat + A.qcount.toNat ≤ B.qbase.toNat ∨ B.qbase.toNat + B.qcount.toNat ≤ A.qbase.toNat) ∧
      (A.cbase.toNat + A.ccount.toNat ≤ B.cbase.toNat ∨ B.cbase.toNat + B.ccount.toNat ≤ A.cbase.toNat))) ∧
  (∀ (s : State) (k : Fin 16),
    (s.boot.clocksOff = true → s.calm → ∀ i ∈ [Instr.create k, .resize k, .partReset k, .destroy k, .creationCompletes k, .resizeCompletes k,
      .resetCompletes k, .destructionCompletes k, .age k], exec i s = .next s) ∧
    (s.running →
      let kv := k.val
      let P := s.part kv
      let A := P.alloc
      let others (t : State) : Prop := ∀ j, j ≠ kv → t.part j = s.part j
      let blank (t : State) : Prop :=
        (∀ a < 2 ^ 48, cellAt t.mem (farKey kv a) = 0 ∧ cellAt t.mem (nearKey kv a) = 0) ∧
        (∀ i < 16, A.slices.getLsbD i = true → ∀ o < 2 ^ 27, cellAt t.mem (sramKey i o) = 0) ∧
        (∀ c, A.cbase.toNat ≤ c → c < A.cbase.toNat + A.ccount.toNat → t.ctr c = 0) ∧
        (∀ q, A.qbase.toNat ≤ q → q < A.qbase.toNat + A.qcount.toNat → t.queue q = {})
      (let ok : Prop := P.st = .free ∧ s.boot.state = 0x00 ∧ (s.trust.lcs = 1 ∨ s.trust.lcs = 2) ∧ P.tenantKey ≠ [] ∧ allotOk s kv P.staged = true
       (¬ok → exec (.create k) s = .next s) ∧
       (ok → Answers (exec (.create k) s) fun t => Frame [.parts, .slices, .dies] s t ∧ others t ∧ (t.part kv).st = .creating ∧
        (∀ u ∈ (t.part kv).farUnits, u < 576 ∧ ∀ j < 16, j ≠ kv → u ∉ (s.part j).farUnits) ∧
        (t.part kv).alloc = P.staged ∧ (t.part kv).tenantKey = P.tenantKey ∧ (t.part kv).dict = dictDefaults s kv P.staged ∧
        ∀ i < 16, P.staged.slices.getLsbD i = true → (t.slice i).owner = some kv ∧ (t.slice i).phase = 5)) ∧
      (P.st ≠ .creating → exec (.creationCompletes k) s = .next s) ∧
      (P.st = .creating → Answers (exec (.creationCompletes k) s) fun t =>
        Frame [.draws, .mem, .ctrs, .queues, .parts, .vcs, .mus, .pipes] s t ∧ others t ∧ blank t ∧ t.draws = s.draws + 1 ∧
        (t.part kv).st = .reserved ∧ (t.part kv).stepNo = 0 ∧ (t.part kv).age = 0 ∧ (t.part kv).alloc = A ∧
        (t.part kv).keys.far = some (fit 64 (Config.random s.draws 64)) ∧
        (∀ c, (c < A.cbase.toNat ∨ A.cbase.toNat + A.ccount.toNat ≤ c) → t.ctr c = s.ctr c) ∧
        (∀ q, (q < A.qbase.toNat ∨ A.qbase.toNat + A.qcount.toNat ≤ q) → t.queue q = s.queue q) ∧
        (s.memOk → ∀ x, (∀ a < 2 ^ 48, x ≠ farKey kv a ∧ x ≠ nearKey kv a) →
          (∀ i < 16, A.slices.getLsbD i = true → ∀ o < 2 ^ 27, x ≠ sramKey i o) → cellAt t.mem x = cellAt s.mem x)) ∧
      (let still (q : Nat) : Prop := (s.queue q).st = .paused ∨ (s.queue q).st = .faulted ∨ (s.queue q).st = .disabled
       let ok : Prop := P.st = .active ∧ (∀ q ∈ queuesOf s kv, still q) ∧ allotOk s kv P.staged = true
       (¬ok → exec (.resize k) s = .next s) ∧
       (ok → Answers (exec (.resize k) s) fun t => Frame [.parts, .slices, .dies] s t ∧ others t ∧ t.part kv = { P with st := .resizing } ∧
        ∀ i < 16, (P.staged.slices.getLsbD i = true → A.slices.getLsbD i = false → (t.slice i).owner = some kv) ∧
          (A.slices.getLsbD i = true → P.staged.slices.getLsbD i = false → (t.slice i).leaving = true))) ∧
      (s.calm →
        (P.st ≠ .resizing → exec (.resizeCompletes k) s = .next s) ∧
        (P.st = .resizing → Answers (exec (.resizeCompletes k) s) fun t => (t.part kv).st = .active ∧ (t.part kv).alloc = P.staged ∧
          (∀ e ∈ (t.part kv).pages, 2 ^ 21 * e.1 < 2 ^ 30 * P.staged.farGib.toNat) ∧
          (∀ a < 2 ^ 48, 2 ^ 30 * P.staged.farGib.toNat ≤ a → cellAt t.mem (farKey kv a) = 0 ∧ cellAt t.mem (nearKey kv a) = 0) ∧
          ∀ i < 16, A.slices.getLsbD i = true → P.staged.slices.getLsbD i = false → (t.slice i).owner = none) ∧
        (let ok : Prop := P.st = .reserved ∨ P.st = .active
         (¬ok → exec (.partReset k) s = .next s ∧ exec (.destroy k) s = .next s) ∧
         (ok →
          (Answers (exec (.partReset k) s) fun t => Frame [.mem, .queues, .parts, .vcs, .mus, .link, .vectors, .snoops] s t ∧ (t.part kv).st = .resetting ∧
            (t.part kv).alloc = A) ∧
          (Answers (exec (.destroy k) s) fun t => Frame [.mem, .queues, .parts, .vcs, .mus, .link, .vectors, .snoops] s t ∧ (t.part kv).st = .destroying ∧
            (t.part kv).alloc = A))) ∧
        (let w := (queuesOf s kv).foldl (fun s q => finishReset s kv q) s
         let ended (t : State) : Prop := blank t ∧ (∀ e ∈ t.rolser.sessions, e.2.role ≠ kv + 1) ∧ (t.mailbox (kv + 1)).readyCnt = 0 ∧ t.power = s.power ∧ t.trust = s.trust
         (P.st ≠ .resetting → exec (.resetCompletes k) s = .next s) ∧
         (P.st = .resetting → queuesStopped w kv = false → exec (.resetCompletes k) s = .next w) ∧
         (P.st = .resetting → queuesStopped w kv = true → Answers (exec (.resetCompletes k) s) fun t => ended t ∧
          t.draws = s.draws + 1 ∧ (t.part kv).st = .reserved ∧ (t.part kv).alloc = A ∧ (t.part kv).dict = P.dict ∧
          (t.part kv).tenantKey = P.tenantKey ∧ (t.part kv).keys = { far := some (fit 64 (Config.random s.draws 64)) } ∧
          (t.part kv).job = none ∧ (t.part kv).pages = [] ∧ (t.part kv).stepNo = 0) ∧
         (P.st ≠ .destroying → exec (.destructionCompletes k) s = .next s) ∧
         (P.st = .destroying → queuesStopped w kv = false → exec (.destructionCompletes k) s = .next w) ∧
         (P.st = .destroying → queuesStopped w kv = true → Answers (exec (.destructionCompletes k) s) fun t => ended t ∧
          t.part kv = {} ∧ ∀ i < 16, A.slices.getLsbD i = true → (t.slice i).owner = none))) ∧
      (exec (.age k) s = .next (if P.st = .free then s else s.putPart kv { P with age := P.age + 1 }))))

/-- An event's record goes to the device ring, newest first, at most 4,096, with its class's weight and the risk recomputed;
a rise past the evacuate threshold asks for each member's substitution. A second of operation adds one to the clock and
takes 500 a minute off the warm-up. FENCE puts what serves a block into the fence list and has it replaced at its
takeover point; there the lowest free spare takes its index, or it is absent, its tiles dealt to other MUs. A block
tested on loan gets its index back. A failed one is fenced; a turn without a spare is skipped. A failed lane takes a
spare lane, then the module goes down the ladder. A corrected error changes no byte; a near row with its third in a day
is remapped. Bad data in a clean near sector are read again from the far home, else their command ends DATA_ERROR; a
command whose ring slot could not be read ends so, and its sequence number is consumed. A transaction the firewall does
not admit is dropped, its read answered zeros; at the limit the P-die is fenced. A patrol reads the next allotted unit.
Logs 27, 68, 76. (12 R352, 12 R353, 12 R354, 12 R357, 12 R358, 12 R360, 12 R361, 12 R366, 12 R367, 05 R160, 06 R450, 11
R346) -/
def Obligations.RipstopCommands : Prop :=
  let ripF : List FieldName := [.parts, .link, .vectors, .pins, .power, .ripstop]
  (∀ (s : State) (cls part die lidx psite detail : Nat),
    let t := ripEvent s cls part die lidx psite detail
    let same (e : EventRec) : Prop := e.time = s.now ∧ e.cls.toNat = cls % 2 ^ 16 ∧ e.weight.toNat = weightOf cls ∧ e.part.toNat = part % 2 ^ 5 ∧
      e.die.toNat = die % 2 ^ 4 ∧ e.lidx.toNat = lidx % 2 ^ 12 ∧ e.psite.toNat = psite % 2 ^ 12 ∧ e.detail.toNat = detail % 2 ^ 40 ∧ e.risk = t.ripstop.risk
    Frame ripF s t ∧ t.ripstop.risk.toNat = riskOf t.ripstop ∧ t.power.evacuate = decide (s.ripstop.evacTh.toNat ≤ riskOf t.ripstop) ∧
    (s.power.evacuate = false → t.power.evacuate = true → ∀ k < 16, ∀ J, (s.part k).job = some J → ∃ b, (J.rank, b) ∈ (t.part k).subAsked) ∧
    (cls < 0x20 ∨ part = 0 → PartsStand s t ∧ ∃ e, same e ∧ t.ripstop.ring = (e :: s.ripstop.ring).take 4096) ∧
    (∀ k, part = k + 1 → 0x20 ≤ cls → t.ripstop.ring = s.ripstop.ring ∧ ∃ e, same e ∧
      t = (updateRisk (s.setRipstop (countEvent s.ripstop cls))).modPart k fun P => { P with events := (e :: P.events).take 256 })) ∧
  (∀ s : State, s.running →
    let R := s.ripstop
    (s.boot.state ≠ 0x00 → exec .risk s = .next s) ∧
    (s.boot.state = 0x00 → Answers (exec .risk s) fun t => Frame [.parts, .pins, .power, .ripstop] s t ∧ PartsStand s t ∧ t.ripstop.upSec = R.upSec + 1 ∧
      t.ripstop.warm = (if (R.upSec + 1) % 60 = 0 then R.warm - 500 else R.warm) ∧ t.ripstop.risk.toNat = riskOf t.ripstop ∧
      t.ripstop.buckets = shiftBuckets R.buckets (R.upSec + 1)) ∧
    (∀ v : BitVec 64,
      let e : Nat × Nat × Nat := (v.toNat % 256, v.toNat / 256 % 256, v.toNat / 65536 % 65536)
      exec (.fenceClear v) s = .next (if R.fenceList.contains e ∧ !R.fenceClear.contains e then
        s.setRipstop { R with fenceClear := R.fenceClear ++ [e] } else s)) ∧
    (∀ (cls : BitVec 8) (die : BitVec 4) (lidx : BitVec 12), s.calm →
      let c := cls.toNat
      let d := die.toNat
      let i := lidx.toNat
      let b := s.block c d i
      let site := servingSite s c d i
      let wide : List FieldName := [.mem, .queues, .vcs, .mus, .pipes, .snoops] ++ ripF
      (canFence s c d i = false → exec (.fence cls die lidx) s = .next s) ∧
      (canFence s c d i = true → Answers (exec (.fence cls die lidx) s) fun t =>
        Frame wide s t ∧ (∀ e, e ∈ R.fenceList ∨ e = (d, c, site) → e ∈ t.ripstop.fenceList) ∧
        (atOnce c = false → Frame ripF s t ∧ (t.block c d i).due = true ∧ (t.block c d i).testing = false ∧
          (t.block c d i).fenced = (b.fenced || b.site.isNone)) ∧
        (∀ x xs, atOnce c = true → b.loan = false → loanOut s c d = none → (freeSpares s c d).filter (· ≠ site) = x :: xs →
          (t.block c d i).site = some x ∧ (t.block c d i).due = false)) ∧
      (let mirror : Bool := decide (c = clsBank) && R.mirrors.contains (128 * d + i)
       let go : Prop := mirror = false ∧ b.due = true ∧ atPoint s c d i = true
       (mirror = true → exec (.takeover cls die lidx) s
        = .next (s.setRipstop { R with mirrors := R.mirrors.filter (· ≠ 128 * d + i) })) ∧
       (mirror = false → b.due = false ∨ atPoint s c d i = false → exec (.takeover cls die lidx) s = .next s) ∧
       (go → Answers (exec (.takeover cls die lidx) s) fun t => Frame wide s t ∧ t.ripstop.fenceList = R.fenceList ∧
        let b' := t.block c d i
        let failed := servingFenced s c d i
        (b.loan = true → b'.site = b.under ∧ b'.due = false ∧ b'.loan = false ∧ b'.testing = false) ∧
        (∀ x xs, b.loan = false → failed = true → loanOut s c d = none → freeSpares s c d = x :: xs →
          b'.site = some x ∧ b'.due = false ∧ (d, c, x) ∈ t.ripstop.usedSpares) ∧
        (b.loan = false → failed = true → freeSpares s c d = [] →
          (loanOut s c d = none → c ≠ clsBank → b'.absent = true ∧ b'.due = false ∧ (c = clsMu → d < 4 → i < 24 → (t.mu (24 * d + i)).queue = [])) ∧
          ((loanOut s c d).isSome = true → atOnce c = false → b' = b)) ∧
        (∀ x xs, b.loan = false → failed = false → b.testing = true → failedWaiting s c d < (freeSpares s c d).length → freeSpares s c d = x :: xs →
          b'.site = some x ∧ b'.under = b.site ∧ b'.loan = true ∧ b'.testing = true ∧ b'.due = false ∧ (d, c, x) ∈ t.ripstop.usedSpares) ∧
        (b.loan = false → failed = false → b.testing = false ∨ (freeSpares s c d).length ≤ failedWaiting s c d →
          b' = { b with testing := false, due := false }))) ∧
      (∀ pass : Bool,
        let under := (List.range (blockCount c d)).find? fun i => (s.block c d i).testing && (s.block c d i).loan
        (∀ j, under = some j → pass = true →
          (atOnce c = false → exec (.selfTest cls die pass) s = .next (s.putBlock c d j { s.block c d j with testing := false, due := true })) ∧
          (atOnce c = true → Answers (exec (.selfTest cls die pass) s) fun t => Frame wide s t ∧ t.ripstop.fenceList = R.fenceList ∧
            (t.block c d j).site = (s.block c d j).under ∧ (t.block c d j).loan = false ∧ (t.block c d j).testing = false)) ∧
        (∀ j, under = some j → pass = false → Answers (exec (.selfTest cls die pass) s) fun t => Frame ripF s t ∧
          (t.block c d j).site = (s.block c d j).site ∧ (t.block c d j).fenced = true ∧ (t.block c d j).loan = false ∧
          (t.block c d j).testing = false ∧ (d, c, (s.block c d j).under.getD (siteOf s c d j)) ∈ t.ripstop.fenceList) ∧
        (under = none → nextTest s c d = none → exec (.selfTest cls die pass) s = .next s) ∧
        (∀ j, under = none → nextTest s c d = some j →
          (c = clsLane → exec (.selfTest cls die pass) s = .next (
            if 4 ≤ (s.serg d (j / 68)).lost then skipTest s c d (j / 68) else if pass then advanceTest s c d j
            else laneRepair (advanceTest s c d j) d (j / 68) (j % 68))) ∧
          (c ≠ clsLane → (freeSpares s c d).length ≤ failedWaiting s c d → exec (.selfTest cls die pass) s = .next (skipTest s c d j)) ∧
          (c ≠ clsLane → failedWaiting s c d < (freeSpares s c d).length → Answers (exec (.selfTest cls die pass) s) fun t =>
            Frame wide s t ∧ (t.block c d j).testing = true ∧ (atOnce c = false → (t.block c d j).due = true) ∧
            (atOnce c = true → (t.block c d j).site = (freeSpares s c d).head? ∧ (t.block c d j).loan = true))))) ∧
    (∀ (die : Fin 4) (m : Fin 16) (lane : BitVec 8),
      let x := s.serg die.val m.val
      let l := lane.toNat
      let dead : Prop := x.fenced = true ∨ l ∈ x.swapped ∨ 68 ≤ l
      (dead → exec (.laneWarning die m lane) s = .next s) ∧
      (¬dead → exec (.laneWarning die m lane) s
        = .next (ripEvent (s.putSerg die.val m.val { x with warned := if l ∈ x.warned then x.warned else x.warned ++ [l] }) 0x08 0 die.val m.val
          (siteOf s clsLane die.val m.val) (68 - x.lost))) ∧
      (dead → exec (.laneRepair die m lane) s = .next s) ∧
      (¬dead → Answers (exec (.laneRepair die m lane) s) fun t => Frame (.serge :: ripF) s t ∧
        let y := t.serg die.val m.val
        y.lost = x.lost + 1 ∧ y.swapped = x.swapped ++ [l] ∧ l ∉ y.warned ∧ (y.fenced = true ↔ 37 ≤ x.lost + 1) ∧
        (x.lost < 4 ∨ sergeWidth x.lost ≠ sergeWidth (x.lost + 1) → ∃ e, t.ripstop.ring = (e :: R.ring).take 4096 ∧
          e.cls = (if x.lost < 4 then 0x09 else if 36 ≤ x.lost then 0x0B else 0x0A))) ∧
      (let r := (l, s.now.toNat) :: x.replays.filter (fun e => s.now.toNat < e.2 + 100000000)
       let w := s.putSerg die.val m.val { x with replays := r }
       exec (.sergeReplay die m lane) s = .next (if x.fenced ∨ 68 ≤ l then s
        else if 8 ≤ (r.filter fun e => e.1 = l).length then laneRepair w die.val m.val l else w))) ∧
    (∀ pair : BitVec 8, exec (.lockstepMismatch pair) s
      = .next (ripEvent (s.setRipstop { R with lockstepErr := R.lockstepErr + 1 }) 0x11 0 4 pair.toNat 0 0)) ∧
    (∀ (d : Fin 2) (wr : Bool) (region : BitVec 2) (n : BitVec 16),
      let x : Pdie := tget {} s.pdies d.val
      let admitted : Prop := (region = 0 ∧ wr = false) ∨ (region = 1 ∧ wr = true) ∨ region = 2
      (x.fenced = true ∨ admitted → exec (.firewallDrop ⟨d, wr, region, n⟩) s = .next s) ∧
      (x.fenced = false → ¬admitted → Answers (exec (.firewallDrop ⟨d, wr, region, n⟩) s) fun t =>
      let y : Pdie := tget {} t.pdies d.val
      let recent := x.window.filter fun c => s.now.toNat < c + 100000000
      y.drops = satAdd 64 x.drops 1 ∧ y.window = s.now.toNat :: recent ∧
      y.rdata = (if wr then x.rdata else List.replicate n.toNat 0) ∧
      (let fence : Prop := s.trust.fwLimit.toNat ≤ recent.length + 1
       (¬fence → Frame [.pdies] s t ∧ y.fenced = x.fenced) ∧
       (fence → Frame ([.ports, .pdies, .ethTx] ++ ripF) s t ∧ y.fenced = true ∧ (∀ i < 8, (t.port (8 * d.val + i)).st = 5) ∧
        t.ripstop.ring.head?.map (·.cls) = some 0x14)))) ∧
    (∀ tier : BitVec 2,
      (tier = 3 → exec (.patrolScrub tier) s = .next s) ∧
      (let at_ := tget 0 R.patrol tier.toNat
       let held (u : Nat) : Prop := u < 576 ∧ ∃ k < 16, u ∈ (s.part k).farUnits
       let goes (n : Nat) : Prop := exec (.patrolScrub tier) s = .next (s.setRipstop { R with patrol := tset 0 R.patrol tier.toNat n })
       (tier = 0 → goes ((at_ + 1) % 512)) ∧ (tier = 1 → goes ((at_ + 1) % 24576)) ∧
       (tier = 2 → (∀ u, ¬held u) → exec (.patrolScrub tier) s = .next s) ∧
       (∀ u, tier = 2 → held u → at_ < u → (∀ v, held v → at_ < v → u ≤ v) → goes u) ∧
       (∀ u, tier = 2 → held u → (∀ v, held v → v ≤ at_ ∧ u ≤ v) → goes u))) ∧
    (∀ (unit : BitVec 16) (row : BitVec 32),
      let u := unit.toNat
      (exec (.correctableError 0 unit row) s = .next (if u < 512 then ripEvent s 0x01 (slicePart s (u / 32)) (u / 128) (u % 128)
        (servingSite s clsBank (u / 128) (u % 128)) 0 else s)) ∧
      (exec (.correctableError 2 unit row) s = .next (if u < 32 then ripEvent s 0x03 0 4 u 0 0 else s)) ∧
      (32 ≤ u → exec (.correctableError 3 unit row) s = .next s) ∧
      (u < 32 →
        let e := tget (0, 0) R.farRetries u
        let n := if e.1 = row.toNat then e.2 + 1 else 1
        (n ≤ 3 → exec (.correctableError 3 unit row) s
          = .next (ripEvent (s.setRipstop { R with farRetries := tset (0, 0) R.farRetries u (row.toNat, n) }) 0x03 0 4 u 0 row.toNat)) ∧
        (3 < n → exec (.correctableError 3 unit row) s = .next (s.setRipstop { R with farRetries := tset (0, 0) R.farRetries u (0, 0) }))) ∧
      (128 ≤ u → exec (.correctableError 1 unit row) s = .next s) ∧
      (u < 128 → Answers (exec (.correctableError 1 unit row) s) fun t => Frame ripF s t ∧
        let key := 2 ^ 32 * u + row.toNat
        let l := (tget [] R.rowErrs key).filter fun x => nowSec s < x + 86400
        (l.length < 2 → tget [] t.ripstop.rowErrs key = nowSec s :: l ∧ t.ripstop.rowMoved = R.rowMoved) ∧
        (2 ≤ l.length → tget [] t.ripstop.rowErrs key = [] ∧ t.ripstop.rowMoved = R.rowMoved ++ [key]))) ∧
    (∀ (place : BitVec 2) (q : Qid) (idx : BitVec 24) (addr : BitVec 48),
      (place = 1 → exec (.uncorrectableError place q idx addr) s = .next (ripPersist s 0x14 0 7 0 0 0)) ∧
      (∀ k c, place = 3 → s.calm → ownerOf s q.toNat = some k →
        let Q := s.queue q.toNat
        let seq : BitVec 32 := Q.expSeq - 1
        Q.started = [] → Q.front = some c → Q.head = idx → Q.ringLoc = false → slotAddr Q idx.toNat = addr.toNat → cleanNear (s.part k) addr.toNat = none →
        Answers (exec (.uncorrectableError place q idx addr) s) fun t => (t.part k).health.ue = true ∧ t.mem = s.mem ∧
          t.queue q.toNat = { Q with
            front := none, head := Q.head + 1, fetching := false, bad := none
            started := [{ idx := idx, cmd := BitVec.ofNat 512 (seq.toNat * 2 ^ 32), status := stDATA, ukind := 8, faddr := addr }] }) ∧
      (∀ k r, place = 3 → s.calm → ownerOf s q.toNat = some k →
        let Q := s.queue q.toNat
        let seq : BitVec 32 := if r.status = stAUTH then Q.expSeq else Q.expSeq - 1
        Q.front = none → Q.started.getLast? = some r → r.atHead = true → r.idx = idx → r.recTag = none → Q.ringLoc = false →
        slotAddr Q idx.toNat = addr.toNat → recordNext s k q.toNat idx addr.toNat = none → cleanNear (s.part k) addr.toNat = none →
        Answers (exec (.uncorrectableError place q idx addr) s) fun t => (t.part k).health.ue = true ∧ t.mem = s.mem ∧
          t.queue q.toNat = { (if r.status = stAUTH then bumpSeq Q else Q) with
            started := Q.started.dropLast ++
              [{ idx := idx, cmd := BitVec.ofNat 512 (seq.toNat * 2 ^ 32), status := stDATA, ukind := 8, faddr := addr }] }) ∧
      (place ≠ 1 → ownerOf s q.toNat = none → exec (.uncorrectableError place q idx addr) s = .next s) ∧
      (∀ k, place ≠ 1 → place ≠ 3 → ownerOf s q.toNat = some k →
        (place = 2 → exec (.uncorrectableError place q idx addr) s
          = .next (ripEvent (reserveFails s k) 0x05 (k + 1) 7 0 0 0)) ∧
        (place ≠ 2 → (∀ r ∈ (s.queue q.toNat).started, r.idx ≠ idx) →
          let Q := s.queue q.toNat
          let next : Prop := Q.head = idx ∧ ∃ c, Q.front = some c ∧ runsWhole c.toNat = true
          (¬next → exec (.uncorrectableError place q idx addr) s = .next s) ∧
          (next → cleanNear (s.part k) addr.toNat = none → Answers (exec (.uncorrectableError place q idx addr) s) fun t =>
            Frame (.queues :: ripF) s t ∧ t.queue q.toNat = { Q with bad := some addr }) ∧
          (∀ p x, next → cleanNear (s.part k) addr.toNat = some (p, x) → Answers (exec (.uncorrectableError place q idx addr) s) fun t =>
            Frame (.mem :: ripF) s t ∧
            t.mem = memCopy s.mem (farKey k (2 ^ 21 * p + 2 ^ 16 * x)) (nearKey k (2 ^ 21 * p + 2 ^ 16 * x)) (2 ^ 16))) ∧
        (∀ r, place ≠ 2 → (s.queue q.toNat).started.find? (fun r => r.idx = idx) = some r →
          let w := ueEvent s k addr.toNat
          let a := addr.toNat
          (cleanNear (s.part k) a = none → exec (.uncorrectableError place q idx addr) s
              = .next (readFails (w.modPart k fun P => spoil P a) k q.toNat r a) ∧
            Answers (exec (.uncorrectableError place q idx addr) s) fun t => (t.part k).health.ue = true ∧ t.mem = s.mem) ∧
          (∀ p x, cleanNear (s.part k) a = some (p, x) → s.memOk → Answers (exec (.uncorrectableError place q idx addr) s) fun t =>
            Frame (.mem :: ripF) s t ∧ t.queues = s.queues ∧
            (∀ y < 2 ^ 16, cellAt t.mem (nearKey k (2 ^ 21 * p + 2 ^ 16 * x + y)) = cellAt s.mem (farKey k (2 ^ 21 * p + 2 ^ 16 * x + y))) ∧
            BytesStand (nearKey k (2 ^ 21 * p + 2 ^ 16 * x)) (2 ^ 16) s t)))))

/-- A poll stores its rails' readings, and the last 10 ms above 102 % of the cap set OVER_CAP. The estimate of a partition
depends on its own work, points and the calibration alone. An evaluation whose average over 1 ms is above the share
takes one step from the last class of the priority order that can be reduced; with room for it, it restores one step of
the first class that is reduced. A slice switches to its new point unless a droop holds it, and the rail is then what
its die needs plus the trim. A droop stretches and is logged once, its clear lets changes start 1 µs later. Negative
slack adds 5 mV of trim, at most 30, else bars OP0; each hour of 24 or more above 10 ps takes 5 mV off. A slice that
reaches 95 °C goes one point slower at each thermal step until it reads 92 °C or below, then one faster, and meanwhile
no restoring step moves it faster. While HOTSTOP is asserted neither acts. HOTSTOP is asserted at 105 °C and released
after 1 s at 95 °C or below. A sensor at 115 °C latches THERMTRIP and stops the clocks. The unit of readings, the
estimate and HOTSTOP's rule over steps: logs 15, 26, 66. (13 R389, 13 R390, 13 R392, 13 R393, 13 R394, 13 R395, 13 R396,
13 R397, 13 R398, 13 R399, 13 R400, 13 R401) -/
def Obligations.PowerManager : Prop :=
  (∀ (s : State) (temps : Bytes),
    let hot : Prop := ∃ i < 80, 115 ≤ (temps.getD i 0xFF).toNat ∧ temps.getD i 0xFF ≠ 0xFF
    (¬hot → exec (.thermtrip temps) s = .next s) ∧
    (hot → Answers (exec (.thermtrip temps) s) fun t => Frame [.pins, .boot, .power] s t ∧ t.boot = { s.boot with clocksOff := true } ∧
      t.pins = { s.pins with thermtripN := false, cprstN := false })) ∧
  (∀ (s : State) (i : Nat) (k : Nat), (s.slice i).owner = some k →
    let P := s.part k
    let base := max (max (P.dict.phaseOp.getD (s.slice i).phase.toNat 6).toNat P.opCap) (if (s.die (i / 4)).barred then 1 else 0)
    effective s i = if s.power.hotstop then 6 else min 6 (max base (s.slice i).throttle)) ∧
  (∀ (s t : State) (k : Nat) (counts : List (BitVec 4 × BitVec 8 × BitVec 32)), s.part k = t.part k →
    (∀ i ∈ slicesOf (s.part k), (s.slice i).op = (t.slice i).op) → s.boot.calib = t.boot.calib → estimateOf s k counts = estimateOf t k counts) ∧
  (∀ (s : State) (i : Nat), ((retarget s i).slice i).change
    = if (s.slice i).op.toNat = effective s i then none else some (BitVec.ofNat 3 (effective s i))) ∧
  (∀ s : State, s.running →
    let W := s.power
    (∀ e ∈ [(Instr.avsbusPoll, 0, 5), (.pmbusPoll, 5, 10)], ∀ rs : List (BitVec 32), Answers (exec (e.1 rs) s) fun t => Frame [.pins, .power] s t ∧
      (∀ i < min e.2.2 rs.length, tget (0, 0) t.power.rails (e.2.1 + i)
        = ((rs.getD i 0).toNat / 65536, (rs.getD i 0).toNat % 65536 * 10)) ∧
      (∀ j, j < e.2.1 ∨ e.2.1 + min e.2.2 rs.length ≤ j → tget (0, 0) t.power.rails j = tget (0, 0) W.rails j) ∧
      t.power.samples = ((s.now.toNat, packagePower t.power) :: W.samples).filter (fun x => s.now.toNat ≤ x.1 + 100000000) ∧
      t.power.overCap = (W.overCap || overNow t) ∧ t.power.cap = W.cap ∧ t.power.regFault = W.regFault) ∧
    (∀ (k : Fin 16) (counts : List (BitVec 4 × BitVec 8 × BitVec 32)),
      let g := shareGroup s k.val
      let w := s.modPart k.val fun P => { P with estimates := (estimateOf s k.val counts :: P.estimates).take 10 }
      let avg := (g.map fun j => averageMw (w.part j)).foldl (· + ·) 0
      let order := priorityOrder (s.part k.val).dict.priority.toNat
      let share := groupShare s g
      let o := exec (.powerEvaluation k counts) s
      let live : Prop := (s.part k.val).st ≠ .free
      let acts : Prop := live ∧ W.hotstop = false ∧ g.head? = some k.val
      let stepped (f : Part → Part) : Prop := Answers o fun t => Frame [.parts, .slices, .dies] s t ∧
        (∀ j, j ∉ g → t.part j = s.part j) ∧ ∀ j ∈ g, t.part j = f (w.part j)
      (¬live → o = .next s) ∧ (live → ¬acts → o = .next w) ∧
      (acts → share < avg →
        (order.reverse.find? (reducible s g) = none → o = .next w) ∧
        (∀ c, order.reverse.find? (reducible s g) = some c → stepped fun P => match c with
          | .compute => { P with opCap := max (groupPoint s g + 1) P.opCap }
          | .memory => { P with memPace := max 1 (P.memPace - 1) }
          | .links => { P with linkPace := max 1 (P.linkPace - 1) })) ∧
      (acts → avg ≤ share →
        (order.find? (reduced s g) = none → o = .next w) ∧
        (∀ c, order.find? (reduced s g) = some c →
          let room : Prop := 100 * (avg + addedPower w g c) ≤ 98 * share
          let top := (g.map fun j => (s.part j).opCap).foldl max 0
          (¬room → o = .next w) ∧
          (room → stepped fun P => match c with
            | .compute => { P with opCap := min P.opCap (top - 1) }
            | .memory => { P with memPace := min 16 (P.memPace + 1) }
            | .links => { P with linkPace := min 16 (P.linkPace + 1) })))) ∧
    (∀ i : Fin 16,
      let x := s.slice i.val
      let d := i.val / 4
      let railOf (t : State) : Prop := 
        (t.die d).rail = (let mv := ((dieNeed t d true : Int) + (s.die d).trim).toNat
          if dieNeed t d true = 0 ∨ (mv < (s.die d).rail ∧ lowerHeld t d = true) then (s.die d).rail else mv)
      let only (t : State) : Prop := ∀ j, j ≠ i.val → t.slice j = s.slice j
      (x.change = none ∨ x.droop = true ∨ (x.locking = false ∧ changeFree s x = false) → exec (.operatingPointChange i) s = .next s) ∧
      (∀ p, x.change = some p → x.droop = false → x.locking = true ∨ changeFree s x = true →
        Answers (exec (.operatingPointChange i) s) fun t => Frame [.slices, .dies] s t ∧ only t ∧
          t.slice i.val = { x with
            op := p, change := none, locking := false, lowerWait := !changeFree s x
            droopEnd := if changeFree s x = true then none else x.droopEnd } ∧ railOf t) ∧
      (x.droop = true ∨ x.op = 7 → exec (.droop i) s = .next s) ∧
      (x.droop = false → x.op ≠ 7 → Answers (exec (.droop i) s) fun t => only t ∧ t.slice i.val = { x with droop := true } ∧
        ∃ e, t.ripstop.ring = (e :: s.ripstop.ring).take 4096 ∧ e.cls = 0x06 ∧ e.lidx.toNat = i.val) ∧
      (x.droop = false → exec (.droopClear i) s = .next s) ∧
      (x.droop = true → exec (.droopClear i) s = .next (s.putSlice i.val { x with droop := false, droopEnd := some s.now.toNat })) ∧
      (∀ temps : Bytes,
        let ts := sliceTemps temps i.val
        let w := putTemps s temps
        let hot : Prop := (∃ y ∈ ts, 95 ≤ y) ∨ (x.heating = true ∧ ∃ y ∈ ts, 92 < y)
        let moved (n : Nat) (h : Bool) : Prop := Answers (exec (.thermalStep i temps) s) fun t => Frame [.slices, .dies, .power] s t ∧ only t ∧
          (t.slice i.val).throttle = n ∧ (t.slice i.val).heating = h ∧ t.power.heatLog = (s.now.toNat, i.val, n) :: W.heatLog ∧
          (t.power.throttled = true ↔ ∃ j < 16, 0 < (t.slice j).throttle)
        (W.hotstop = true → exec (.thermalStep i temps) s = .next w) ∧
        (W.hotstop = false → hot → effective s i.val < 6 → moved (effective s i.val + 1) true) ∧
        (W.hotstop = false → hot → 6 ≤ effective s i.val → exec (.thermalStep i temps) s = .next (w.putSlice i.val { x with heating := true })) ∧
        (W.hotstop = false → ¬hot → 0 < x.throttle →
          moved (if x.throttle - 1 ≤ effective (s.putSlice i.val { x with throttle := 0 }) i.val then 0 else x.throttle - 1) false) ∧
        (W.hotstop = false → ¬hot → x.throttle = 0 → exec (.thermalStep i temps) s = .next (w.putSlice i.val { x with heating := false })))) ∧
    (∀ (d : Fin 4) (slack : BitVec 16),
      let D := s.die d.val
      let v := slack.toInt
      let keep (t : State) : Prop := ∀ j, j ≠ d.val → t.die j = s.die j
      (v < 0 → D.trim ≤ 25 → Answers (exec (.ageTrim d slack) s) fun t => Frame [.dies, .power] s t ∧ keep t ∧ (t.die d.val).trim = D.trim + 5 ∧
        (t.die d.val).slack24 = 0 ∧ ∃ p, t.power = { W with ageLog := (s.now.toNat, d.val, p, D.trim + 5) :: W.ageLog }) ∧
      (v < 0 → 25 < D.trim → Answers (exec (.ageTrim d slack) s) fun t => Frame [.slices, .dies, .power] s t ∧
        (∀ j, j ≠ d.val → { t.die j with rail := 0 } = { s.die j with rail := 0 }) ∧
        { t.die d.val with rail := 0 } = { D with slack24 := 0, barred := true, rail := 0 } ∧ t.power = { W with ageLimit := true }) ∧
      (0 ≤ v → v ≤ 10 → exec (.ageTrim d slack) s = .next (s.putDie d.val { D with slack24 := 0 })) ∧
      (10 < v → 23 ≤ D.slack24 → -25 ≤ D.trim → Answers (exec (.ageTrim d slack) s) fun t => Frame [.dies, .power] s t ∧ keep t ∧
        (t.die d.val).trim = D.trim - 5 ∧ (t.die d.val).slack24 = 24 ∧ ∃ p, t.power = { W with ageLog := (s.now.toNat, d.val, p, D.trim - 5) :: W.ageLog }) ∧
      (10 < v → D.slack24 < 23 ∨ D.trim < -25 → exec (.ageTrim d slack) s = .next (s.putDie d.val { D with slack24 := min 24 (D.slack24 + 1) }))) ∧
    (∀ temps : Bytes,
      let ts := (readTemps temps).map Prod.snd
      let w := putTemps s temps
      (W.hotstop = false → (∀ y ∈ ts, y < 105) → exec (.hotstop temps) s = .next w) ∧
      (W.hotstop = false → (∃ y ∈ ts, 105 ≤ y) → Answers (exec (.hotstop temps) s) fun t => t.power.hotstop = true ∧ t.pins.hotstopN = false ∧
        (W.alertMask.getLsbD 2 = false → t.pins.alertN = false) ∧ ∃ e, t.ripstop.ring = (e :: s.ripstop.ring).take 4096 ∧ e.cls = 0x07) ∧
      (W.hotstop = true → (∃ y ∈ ts, 95 < y) → exec (.hotstop temps) s = .next (w.setPower { w.power with coolSince := none })) ∧
      (W.hotstop = true → (∀ y ∈ ts, y ≤ 95) →
        (W.coolSince = none → exec (.hotstop temps) s = .next (w.setPower { w.power with coolSince := some s.now.toNat })) ∧
        (∀ c, W.coolSince = some c → s.now.toNat < c + 100000000 → exec (.hotstop temps) s = .next w) ∧
        (∀ c, W.coolSince = some c → c + 100000000 ≤ s.now.toNat → Answers (exec (.hotstop temps) s) fun t => Frame [.slices, .dies, .pins, .power] s t ∧
          t.power.hotstop = false ∧ t.pins.hotstopN = true))))

/-- Writing the cap's dictionary entry with a value from 350 W to 950 W sets the cap to that number of watts and changes
nothing but power and pin state; with a value outside it answers RANGE. A WRITE request any of whose items is refused
leaves the cap as it was; the operator's WRITE of the cap alone on a READY device sets it where the value is in range,
and leaves it where not. (01 R21) -/
def Obligations.PowerCapRange : Prop :=
  (∀ (s : State) (sid : Nat) (b : Bytes),
    (leNat b < 350 ∨ 950 < leNat b → writeEntry s sid .power 0x01 tyU16 b = .error 0x04) ∧
    (350 ≤ leNat b → leNat b ≤ 950 → ∃ t, writeEntry s sid .power 0x01 tyU16 b = .ok t ∧ t.power.cap.toNat = leNat b ∧
      Frame [.pins, .power] s t)) ∧
  (∀ (s : State) (m : RolMsg) (r : List RolMsg) (l : List WItem), s.running → s.calm → s.rolser.msgs = m :: r → m.kind.toNat = rkWrite →
    hasSession s m.sid.toNat = true → (s.session m.sid.toNat).opened = true → m.seq = (s.session m.sid.toNat).lastSeq + 1 →
    writeItems (leNat (m.payload.take 2)) (m.payload.drop 2) = some l →
    let sid := m.sid.toNat
    let w := putSession (s.setRolser { s.rolser with msgs := r }) sid { s.session sid with lastSeq := m.seq, kept := [] }
    let a := l.foldl (writeItem sid) { s := w, sts := [], ending := none }
    (a.sts.any (· ≠ 0x00) = true → Answers (exec .write s) fun t => t.power = s.power) ∧
    (∀ b : Bytes, b.length = 2 → l = [{ index := 0x4000, sub := 0x01, ty := tyU16, value := b }] → (s.session sid).role = 0 →
      s.boot.state = 0x00 → Answers (exec .write s) fun t =>
        t.power.cap.toNat = if 350 ≤ leNat b ∧ leNat b ≤ 950 then leNat b else s.power.cap.toNat))

/-- The period, or the risk at its threshold, asks for securing; while a drain is in flight the request waits. The
coordinator, rank 0 or the lowest that answers, announces its step plus 2; a member keeps the step unless it has passed
it, and relays the message. A drain checks its buddy first, refusing a co-fated or small one, then sends its pages in
order, a waiting UPDATE's page first when urgent, then the snapshot, then, when all is acknowledged and the fingerprint
known, the record, and ends with a report; with no target left it ends. With a report from every rank the coordinator
sends SECOK, and each member keeps the two newest. RESTORE resets the queues, refuses the step under way, and takes from
parts that verify the snapshot's layout, counters, cursors and tables, with N0 one step on and the record's FP to be
reached; a copy that fails counts as tried, and with none left the job stops. SUBSTITUTION rolls back a step its failed
member never voted on, pauses the queues, fails what was under way with the rank, replaces its entry, loads a new key
generation, and logs 0x13 for a neighbour; a planned member hands its face over and is destroyed. Message forms: log 62.
(11 R335, 12 R368, 12 R371, 12 R372, 12 R373, 12 R374, 12 R376, 12 R377, 12 R379, 12 R381, 12 R382, 12 Table 12.9) -/
def Obligations.SecuringCommands : Prop :=
  ∀ (s : State) (k : Fin 16), s.running →
    let kv := k.val
    let P := s.part kv
    (s.calm →
      (∀ e ∈ [(Instr.secreq k, 0x30), (.secat k, 0x31), (.secdone k, 0x32), (.secok k, 0x33)],
        takeMsg s kv (fun m => m.opk.toNat = e.2 && true) = none → exec e.1 s = .next s) ∧
      (∀ (m : Msg) (z : State),
        let taken (opk : Nat) : Prop := takeMsg s kv (fun m => m.opk.toNat = opk && true) = some (m, z)
        let n : BitVec 48 := BitVec.ofNat 48 (leNat (slice m.payload 0 8))
        (P.job = none → ∀ e ∈ [(Instr.secreq k, 0x30), (.secat k, 0x31), (.secdone k, 0x32), (.secok k, 0x33)], taken e.2 → exec e.1 s = .next z) ∧
        (∀ J, P.job = some J →
          (taken 0x30 → exec (.secreq k) s
            = .next (if P.drain.isSome then z.modPart kv fun P => { P with secWait := true } else announce z kv J)) ∧
          (taken 0x31 → let w := relay z kv J (secStepMsg 0x31 n)
            Answers (exec (.secat k) s) fun t => t = (if n.toNat < P.stepNo.toNat then w else w.modPart kv fun P => { P with secAt := some n }) ∧
              ((t.part kv).secAt = if n.toNat < P.stepNo.toNat then P.secAt else some n)) ∧
          (taken 0x32 → exec (.secdone k) s = .next (countDone z kv J n m.src)) ∧
          (taken 0x33 → Answers (exec (.secok k) s) fun t => (t.part kv).secOk = (keepSecok P n).secOk ∧
            t = (relay z kv J (secStepMsg 0x33 n)).modPart kv fun P => keepSecok P n))) ∧
      (let since := s.now.toNat - P.boundaryTime
       let due : Prop := P.dict.securePeriod.toNat * 100000000 ≤ since ∨
        (s.ripstop.secureTh.toNat ≤ s.ripstop.risk.toNat ∧ P.dict.secureMin.toNat * 100000000 ≤ since)
       (P.job = none ∨ ¬due → exec (.securePeriod k) s = .next s) ∧
       (∀ J, P.job = some J → due →
        (P.drain.isSome = true → exec (.securePeriod k) s = .next (s.modPart kv fun P => { P with secWait := true })) ∧
        (P.drain = none → let w := s.modPart kv fun P => { P with secWait := false }
          let c := coordOf P J
          exec (.securePeriod k) s = .next (if c = J.rank.toNat then announce w kv J else sendMsg w kv c none { opk := 0x30 })))) ∧
      (∀ (storage : Bool) (parts : List (Bytes × BitVec 64)),
        let o := exec (.restore k ⟨storage, parts⟩) s
        let w := resetAll s kv
        let z := refuseStep w kv 0
        let none_ : Prop := restoreFrom P = none ∧ (P.secOk ≠ [] ∨ parts = [])
        let pulls : Prop := P.st = .active ∧ P.job.isSome = true ∧ fetchesPages P = false ∧ ¬none_
        (P.st ≠ .active ∨ P.job = none → o = .next s) ∧
        (P.st = .active → P.job.isSome = true → fetchesPages P = true → o = .next (fetchPages s kv storage parts)) ∧
        (P.st = .active → P.job.isSome = true → fetchesPages P = false → none_ → o = .next (s.modPart kv fun P => { P with restoreFailed := true })) ∧
        (pulls → queuesStopped w kv = false → o = .next w) ∧
        (pulls → queuesStopped w kv = true → pulledOf (z.part kv) storage parts = none → o = .next (z.modPart kv restoreFails)) ∧
        (∀ y, pulls → queuesStopped w kv = true → pulledOf (z.part kv) storage parts = some y → Answers o fun t =>
          let T := t.part kv
          let x := y.snap
          let mine (c : Nat) : Prop := P.alloc.cbase.toNat ≤ c ∧ c < P.alloc.cbase.toNat + P.alloc.ccount.toNat
          t = restoreWith z kv y ∧ T.stepNo = x.step + 1 ∧ T.job = restoreJob P x ∧ T.planCursor = x.planCursor ∧ T.verify = y.fp ∧
          T.restoreFailed = false ∧ T.fetch = [] ∧ T.streamPos = x.streams.map (derivedPos x) ∧
          T.health.loss = x.loss ∧ T.health.lsN = x.lsN ∧ T.health.lsMean = x.lsMean ∧ T.health.lsVar = x.lsVar ∧ T.health.fp = x.fp ∧
          (rising x.regions = true → ∀ e ∈ x.regions, e.2.kind ≠ .buddy →
            tfind T.regions e.1 = some { e.2 with n0 := if e.2.kind = .pair then x.step + 1 else e.2.n0 }) ∧
          (∀ c, ¬mine c → t.ctr c = s.ctr c) ∧ (rising x.ctrs = true → ∀ c, mine c → t.ctr c = tget 0 x.ctrs c) ∧
          (rising x.cursors = true → ∀ e ∈ x.cursors, e.1 ∈ queuesOf s kv → (t.queue e.1).head = e.2.1 ∧ (t.queue e.1).tail = e.2.2.1 ∧
            (t.queue e.1).expSeq = e.2.2.2.1 ∧ (t.queue e.1).st = e.2.2.2.2))) ∧
      (∀ (rank : BitVec 16) (planned : Bool) (step : BitVec 48) (v4 : Bool) (addr : BitVec 128),
        let o := exec (.substitution k rank planned step ⟨v4, addr⟩) s
        (P.job = none → o = .next s) ∧
        (∀ J, P.job = some J →
          (P.st ≠ .active ∨ jobSize J ≤ rank.toNat → o = .next s) ∧
          (P.st = .active → rank.toNat < jobSize J → Answers o fun t =>
            let T := t.part kv
            T.substituting = true ∧ (∃ J', T.job = some J' ∧ tfind J'.table rank.toNat = some { valid := true, v4 := v4, addr := addr } ∧
              J'.epoch = J.epoch ∧ J'.rank = J.rank) ∧ tfind T.conns rank.toNat = none ∧ (∀ x ∈ T.reasm, x.src ≠ rank) ∧
            T.stepNo = (if planned = false ∧ P.stepNo = step + 1 then step else P.stepNo) ∧
            (planned = true → rank = J.rank → ∃ l, T.handing = some (rank, l) ∧ T.handed = []) ∧
            (∀ js i, P.keys.js = some js → P.sendSlot = some i →
              let g := (tget {} P.xslots i).gen.toNat + 1
              tget {} T.xslots (if i = 0 then 1 else 0) = { key := some (kmac js (toLe 4 g) 32 "XT4 XFT"), gen := BitVec.ofNat 32 g }) ∧
            (neighbour P J rank = true → t.ripstop.ring.head?.map (·.cls) = some 0x13) ∧
            ∀ q ∈ queuesOf s kv, (t.queue q).st ≠ .active))) ∧
      (∀ (feed : BitVec 4) (base size : BitVec 48),
        let ex := exec (.securingDrain k feed base size) s
        (P.st ≠ .active ∨ (P.handing = none ∧ P.drain = none) → ex = .next s) ∧
        (∀ rank r l, P.st = .active → P.handing = some (rank, r :: l) → ex = .next (s.modPart kv fun P =>
          { P with handing := some (rank, l), handed := P.handed ++ [loadRec s kv r] })) ∧
        (∀ rank, P.st = .active → P.handing = some (rank, []) → Answers ex fun t => (t.part kv).st = .destroying ∧ (t.part kv).handing = none ∧
          (t.part kv).handed = P.handed ++ [snapImage (smallState s kv (P.stepNo - 1))]) ∧
        (∀ d, P.st = .active → P.handing = none → P.drain = some d →
          let d := buddyGone P d
          let w := putDrain s kv d
          let named : Prop := P.dict.buddy ≠ 0xFFFF ∧ ∀ J, P.job = some J → J.rank ≠ P.dict.buddy
          let fated : Prop := feed = ownFeed s
          let refuse : Prop := named ∧ ((fated ∧ s.trust.coFatedAllow = 0) ∨ size.toNat < 2 * drainSize d)
          let none_ : Prop := d.toBuddy = false ∧ d.toStore = false
          let acked : Prop := d.recAck = true ∧ (d.toStore = false ∨ storeAcked w kv = true)
          (d.checked = false → Answers ex fun t =>
            let left := (t.part kv).drain
            (named → ¬refuse → t.ripstop = s.ripstop ∧ ∃ d', left = some d' ∧ d'.checked = true ∧ d'.toBuddy = true ∧ d'.feed = feed ∧
              (d'.coFated = true ↔ fated) ∧ d'.base = base + (if P.secGen then BitVec.ofNat 48 (size.toNat / 2) else 0)) ∧
            (refuse ∨ ¬named → storeOpen s kv = true → ∃ d', left = some d' ∧ d'.checked = true ∧ d'.toBuddy = false ∧ d'.toStore = true) ∧
            (refuse ∨ ¬named → storeOpen s kv = false → left = none) ∧
            (refuse → P.secWait = false → ∃ e, (t.part kv).events = (e :: P.events).take 256 ∧ e.cls = 0x22)) ∧
          (d.checked = true → none_ → ex = .next (endDrain w kv)) ∧
          (d.checked = true → ¬none_ → ∀ r, nextPage w kv d = some r → ex = .next (drainPage w kv d r)) ∧
          (d.checked = true → ¬none_ → nextPage w kv d = none →
            (d.snapSent = false → ex = .next (drainSnap w kv d)) ∧
            (d.snapSent = true → d.fp = none ∨ d.held ≠ [] ∨ d.snapAck = false ∨ (d.recSent = true ∧ ¬acked) → ex = .next w) ∧
            (∀ fp, d.snapSent = true → d.fp = some fp → d.held = [] → d.snapAck = true →
              (d.recSent = false → ex = .next (drainRec w kv d fp)) ∧
              (d.recSent = true → acked → ex = .next (drainDone w kv d fp) ∧
                Answers ex fun t => (t.part kv).drain = none ∧ (t.part kv).secGen = !P.secGen)))) ∧
        (∀ d r, nextPage s kv d = some r → r ∈ d.pages ∧ r ∉ d.sent) ∧ (∀ d, nextPage s kv d = none → ∀ r ∈ d.pages, r ∈ d.sent)) ∧
      (∀ n : BitVec 48,
        (n ∈ P.secOk → keepSecok P n = P) ∧
        (n ∉ P.secOk → (∀ x ∈ P.secOk, x.toNat < n.toNat) → (keepSecok P n).secOk = (n :: P.secOk).take 2)))

/-- For every command and every state: where the command answers a next state, every part of the machine but those that the
table of touched parts gives that command stands as it did, and so does the queue of waiting commands. A vector
instruction changes no byte of memory unless it stores; a link timer changes no partition; a power command changes no
queue; no command but those that draw changes the random source. (00 Scope, 95 What each step holds, 11 R321) -/
def Obligations.EveryCommandsFrame : Prop :=
  ∀ (i : Instr) (s : State), Framed (exec i s) (touched i) s
end

