-- ==== Sys2Proof/Laws/State.lean ====
section
/-! SUPPORT. What each plain update of a state field leaves in each field: one lemma per field per update. -/

namespace Sys2Proof.Machine

@[simp] theorem State.setPending_pending (s : State) (v : List Instr) : (s.setPending v).pending = v := rfl
@[simp] theorem State.setPending_now (s : State) (v : List Instr) : (s.setPending v).now = s.now := rfl
@[simp] theorem State.setPending_draws (s : State) (v : List Instr) : (s.setPending v).draws = s.draws := rfl
@[simp] theorem State.setPending_mem (s : State) (v : List Instr) : (s.setPending v).mem = s.mem := rfl
@[simp] theorem State.setPending_ctrs (s : State) (v : List Instr) : (s.setPending v).ctrs = s.ctrs := rfl
@[simp] theorem State.setPending_queues (s : State) (v : List Instr) : (s.setPending v).queues = s.queues := rfl
@[simp] theorem State.setPending_parts (s : State) (v : List Instr) : (s.setPending v).parts = s.parts := rfl
@[simp] theorem State.setPending_vcs (s : State) (v : List Instr) : (s.setPending v).vcs = s.vcs := rfl
@[simp] theorem State.setPending_mus (s : State) (v : List Instr) : (s.setPending v).mus = s.mus := rfl
@[simp] theorem State.setPending_pipes (s : State) (v : List Instr) : (s.setPending v).pipes = s.pipes := rfl
@[simp] theorem State.setPending_slices (s : State) (v : List Instr) : (s.setPending v).slices = s.slices := rfl
@[simp] theorem State.setPending_dies (s : State) (v : List Instr) : (s.setPending v).dies = s.dies := rfl
@[simp] theorem State.setPending_ports (s : State) (v : List Instr) : (s.setPending v).ports = s.ports := rfl
@[simp] theorem State.setPending_serge (s : State) (v : List Instr) : (s.setPending v).serge = s.serge := rfl
@[simp] theorem State.setPending_pdies (s : State) (v : List Instr) : (s.setPending v).pdies = s.pdies := rfl
@[simp] theorem State.setPending_link (s : State) (v : List Instr) : (s.setPending v).link = s.link := rfl
@[simp] theorem State.setPending_vectors (s : State) (v : List Instr) : (s.setPending v).vectors = s.vectors := rfl
@[simp] theorem State.setPending_mailboxes (s : State) (v : List Instr) : (s.setPending v).mailboxes = s.mailboxes := rfl
@[simp] theorem State.setPending_rolser (s : State) (v : List Instr) : (s.setPending v).rolser = s.rolser := rfl
@[simp] theorem State.setPending_trust (s : State) (v : List Instr) : (s.setPending v).trust = s.trust := rfl
@[simp] theorem State.setPending_boot (s : State) (v : List Instr) : (s.setPending v).boot = s.boot := rfl
@[simp] theorem State.setPending_pins (s : State) (v : List Instr) : (s.setPending v).pins = s.pins := rfl
@[simp] theorem State.setPending_power (s : State) (v : List Instr) : (s.setPending v).power = s.power := rfl
@[simp] theorem State.setPending_ripstop (s : State) (v : List Instr) : (s.setPending v).ripstop = s.ripstop := rfl
@[simp] theorem State.setPending_xft (s : State) (v : List Instr) : (s.setPending v).xft = s.xft := rfl
@[simp] theorem State.setPending_ethTx (s : State) (v : List Instr) : (s.setPending v).ethTx = s.ethTx := rfl
@[simp] theorem State.setPending_snoops (s : State) (v : List Instr) : (s.setPending v).snoops = s.snoops := rfl
@[simp] theorem State.setPending_order (s : State) (v : List Instr) : (s.setPending v).order = s.order := rfl
@[simp] theorem State.setNow_pending (s : State) (v : BitVec 64) : (s.setNow v).pending = s.pending := rfl
@[simp] theorem State.setNow_now (s : State) (v : BitVec 64) : (s.setNow v).now = v := rfl
@[simp] theorem State.setNow_draws (s : State) (v : BitVec 64) : (s.setNow v).draws = s.draws := rfl
@[simp] theorem State.setNow_mem (s : State) (v : BitVec 64) : (s.setNow v).mem = s.mem := rfl
@[simp] theorem State.setNow_ctrs (s : State) (v : BitVec 64) : (s.setNow v).ctrs = s.ctrs := rfl
@[simp] theorem State.setNow_queues (s : State) (v : BitVec 64) : (s.setNow v).queues = s.queues := rfl
@[simp] theorem State.setNow_parts (s : State) (v : BitVec 64) : (s.setNow v).parts = s.parts := rfl
@[simp] theorem State.setNow_vcs (s : State) (v : BitVec 64) : (s.setNow v).vcs = s.vcs := rfl
@[simp] theorem State.setNow_mus (s : State) (v : BitVec 64) : (s.setNow v).mus = s.mus := rfl
@[simp] theorem State.setNow_pipes (s : State) (v : BitVec 64) : (s.setNow v).pipes = s.pipes := rfl
@[simp] theorem State.setNow_slices (s : State) (v : BitVec 64) : (s.setNow v).slices = s.slices := rfl
@[simp] theorem State.setNow_dies (s : State) (v : BitVec 64) : (s.setNow v).dies = s.dies := rfl
@[simp] theorem State.setNow_ports (s : State) (v : BitVec 64) : (s.setNow v).ports = s.ports := rfl
@[simp] theorem State.setNow_serge (s : State) (v : BitVec 64) : (s.setNow v).serge = s.serge := rfl
@[simp] theorem State.setNow_pdies (s : State) (v : BitVec 64) : (s.setNow v).pdies = s.pdies := rfl
@[simp] theorem State.setNow_link (s : State) (v : BitVec 64) : (s.setNow v).link = s.link := rfl
@[simp] theorem State.setNow_vectors (s : State) (v : BitVec 64) : (s.setNow v).vectors = s.vectors := rfl
@[simp] theorem State.setNow_mailboxes (s : State) (v : BitVec 64) : (s.setNow v).mailboxes = s.mailboxes := rfl
@[simp] theorem State.setNow_rolser (s : State) (v : BitVec 64) : (s.setNow v).rolser = s.rolser := rfl
@[simp] theorem State.setNow_trust (s : State) (v : BitVec 64) : (s.setNow v).trust = s.trust := rfl
@[simp] theorem State.setNow_boot (s : State) (v : BitVec 64) : (s.setNow v).boot = s.boot := rfl
@[simp] theorem State.setNow_pins (s : State) (v : BitVec 64) : (s.setNow v).pins = s.pins := rfl
@[simp] theorem State.setNow_power (s : State) (v : BitVec 64) : (s.setNow v).power = s.power := rfl
@[simp] theorem State.setNow_ripstop (s : State) (v : BitVec 64) : (s.setNow v).ripstop = s.ripstop := rfl
@[simp] theorem State.setNow_xft (s : State) (v : BitVec 64) : (s.setNow v).xft = s.xft := rfl
@[simp] theorem State.setNow_ethTx (s : State) (v : BitVec 64) : (s.setNow v).ethTx = s.ethTx := rfl
@[simp] theorem State.setNow_snoops (s : State) (v : BitVec 64) : (s.setNow v).snoops = s.snoops := rfl
@[simp] theorem State.setNow_order (s : State) (v : BitVec 64) : (s.setNow v).order = s.order := rfl
@[simp] theorem State.setDraws_pending (s : State) (v : Nat) : (s.setDraws v).pending = s.pending := rfl
@[simp] theorem State.setDraws_now (s : State) (v : Nat) : (s.setDraws v).now = s.now := rfl
@[simp] theorem State.setDraws_draws (s : State) (v : Nat) : (s.setDraws v).draws = v := rfl
@[simp] theorem State.setDraws_mem (s : State) (v : Nat) : (s.setDraws v).mem = s.mem := rfl
@[simp] theorem State.setDraws_ctrs (s : State) (v : Nat) : (s.setDraws v).ctrs = s.ctrs := rfl
@[simp] theorem State.setDraws_queues (s : State) (v : Nat) : (s.setDraws v).queues = s.queues := rfl
@[simp] theorem State.setDraws_parts (s : State) (v : Nat) : (s.setDraws v).parts = s.parts := rfl
@[simp] theorem State.setDraws_vcs (s : State) (v : Nat) : (s.setDraws v).vcs = s.vcs := rfl
@[simp] theorem State.setDraws_mus (s : State) (v : Nat) : (s.setDraws v).mus = s.mus := rfl
@[simp] theorem State.setDraws_pipes (s : State) (v : Nat) : (s.setDraws v).pipes = s.pipes := rfl
@[simp] theorem State.setDraws_slices (s : State) (v : Nat) : (s.setDraws v).slices = s.slices := rfl
@[simp] theorem State.setDraws_dies (s : State) (v : Nat) : (s.setDraws v).dies = s.dies := rfl
@[simp] theorem State.setDraws_ports (s : State) (v : Nat) : (s.setDraws v).ports = s.ports := rfl
@[simp] theorem State.setDraws_serge (s : State) (v : Nat) : (s.setDraws v).serge = s.serge := rfl
@[simp] theorem State.setDraws_pdies (s : State) (v : Nat) : (s.setDraws v).pdies = s.pdies := rfl
@[simp] theorem State.setDraws_link (s : State) (v : Nat) : (s.setDraws v).link = s.link := rfl
@[simp] theorem State.setDraws_vectors (s : State) (v : Nat) : (s.setDraws v).vectors = s.vectors := rfl
@[simp] theorem State.setDraws_mailboxes (s : State) (v : Nat) : (s.setDraws v).mailboxes = s.mailboxes := rfl
@[simp] theorem State.setDraws_rolser (s : State) (v : Nat) : (s.setDraws v).rolser = s.rolser := rfl
@[simp] theorem State.setDraws_trust (s : State) (v : Nat) : (s.setDraws v).trust = s.trust := rfl
@[simp] theorem State.setDraws_boot (s : State) (v : Nat) : (s.setDraws v).boot = s.boot := rfl
@[simp] theorem State.setDraws_pins (s : State) (v : Nat) : (s.setDraws v).pins = s.pins := rfl
@[simp] theorem State.setDraws_power (s : State) (v : Nat) : (s.setDraws v).power = s.power := rfl
@[simp] theorem State.setDraws_ripstop (s : State) (v : Nat) : (s.setDraws v).ripstop = s.ripstop := rfl
@[simp] theorem State.setDraws_xft (s : State) (v : Nat) : (s.setDraws v).xft = s.xft := rfl
@[simp] theorem State.setDraws_ethTx (s : State) (v : Nat) : (s.setDraws v).ethTx = s.ethTx := rfl
@[simp] theorem State.setDraws_snoops (s : State) (v : Nat) : (s.setDraws v).snoops = s.snoops := rfl
@[simp] theorem State.setDraws_order (s : State) (v : Nat) : (s.setDraws v).order = s.order := rfl
@[simp] theorem State.setMem_pending (s : State) (v : List Host.Cell) : (s.setMem v).pending = s.pending := rfl
@[simp] theorem State.setMem_now (s : State) (v : List Host.Cell) : (s.setMem v).now = s.now := rfl
@[simp] theorem State.setMem_draws (s : State) (v : List Host.Cell) : (s.setMem v).draws = s.draws := rfl
@[simp] theorem State.setMem_mem (s : State) (v : List Host.Cell) : (s.setMem v).mem = v := rfl
@[simp] theorem State.setMem_ctrs (s : State) (v : List Host.Cell) : (s.setMem v).ctrs = s.ctrs := rfl
@[simp] theorem State.setMem_queues (s : State) (v : List Host.Cell) : (s.setMem v).queues = s.queues := rfl
@[simp] theorem State.setMem_parts (s : State) (v : List Host.Cell) : (s.setMem v).parts = s.parts := rfl
@[simp] theorem State.setMem_vcs (s : State) (v : List Host.Cell) : (s.setMem v).vcs = s.vcs := rfl
@[simp] theorem State.setMem_mus (s : State) (v : List Host.Cell) : (s.setMem v).mus = s.mus := rfl
@[simp] theorem State.setMem_pipes (s : State) (v : List Host.Cell) : (s.setMem v).pipes = s.pipes := rfl
@[simp] theorem State.setMem_slices (s : State) (v : List Host.Cell) : (s.setMem v).slices = s.slices := rfl
@[simp] theorem State.setMem_dies (s : State) (v : List Host.Cell) : (s.setMem v).dies = s.dies := rfl
@[simp] theorem State.setMem_ports (s : State) (v : List Host.Cell) : (s.setMem v).ports = s.ports := rfl
@[simp] theorem State.setMem_serge (s : State) (v : List Host.Cell) : (s.setMem v).serge = s.serge := rfl
@[simp] theorem State.setMem_pdies (s : State) (v : List Host.Cell) : (s.setMem v).pdies = s.pdies := rfl
@[simp] theorem State.setMem_link (s : State) (v : List Host.Cell) : (s.setMem v).link = s.link := rfl
@[simp] theorem State.setMem_vectors (s : State) (v : List Host.Cell) : (s.setMem v).vectors = s.vectors := rfl
@[simp] theorem State.setMem_mailboxes (s : State) (v : List Host.Cell) : (s.setMem v).mailboxes = s.mailboxes := rfl
@[simp] theorem State.setMem_rolser (s : State) (v : List Host.Cell) : (s.setMem v).rolser = s.rolser := rfl
@[simp] theorem State.setMem_trust (s : State) (v : List Host.Cell) : (s.setMem v).trust = s.trust := rfl
@[simp] theorem State.setMem_boot (s : State) (v : List Host.Cell) : (s.setMem v).boot = s.boot := rfl
@[simp] theorem State.setMem_pins (s : State) (v : List Host.Cell) : (s.setMem v).pins = s.pins := rfl
@[simp] theorem State.setMem_power (s : State) (v : List Host.Cell) : (s.setMem v).power = s.power := rfl
@[simp] theorem State.setMem_ripstop (s : State) (v : List Host.Cell) : (s.setMem v).ripstop = s.ripstop := rfl
@[simp] theorem State.setMem_xft (s : State) (v : List Host.Cell) : (s.setMem v).xft = s.xft := rfl
@[simp] theorem State.setMem_ethTx (s : State) (v : List Host.Cell) : (s.setMem v).ethTx = s.ethTx := rfl
@[simp] theorem State.setMem_snoops (s : State) (v : List Host.Cell) : (s.setMem v).snoops = s.snoops := rfl
@[simp] theorem State.setMem_order (s : State) (v : List Host.Cell) : (s.setMem v).order = s.order := rfl
@[simp] theorem State.setCtrs_pending (s : State) (v : List (Nat × BitVec 64)) : (s.setCtrs v).pending = s.pending := rfl
@[simp] theorem State.setCtrs_now (s : State) (v : List (Nat × BitVec 64)) : (s.setCtrs v).now = s.now := rfl
@[simp] theorem State.setCtrs_draws (s : State) (v : List (Nat × BitVec 64)) : (s.setCtrs v).draws = s.draws := rfl
@[simp] theorem State.setCtrs_mem (s : State) (v : List (Nat × BitVec 64)) : (s.setCtrs v).mem = s.mem := rfl
@[simp] theorem State.setCtrs_ctrs (s : State) (v : List (Nat × BitVec 64)) : (s.setCtrs v).ctrs = v := rfl
@[simp] theorem State.setCtrs_queues (s : State) (v : List (Nat × BitVec 64)) : (s.setCtrs v).queues = s.queues := rfl
@[simp] theorem State.setCtrs_parts (s : State) (v : List (Nat × BitVec 64)) : (s.setCtrs v).parts = s.parts := rfl
@[simp] theorem State.setCtrs_vcs (s : State) (v : List (Nat × BitVec 64)) : (s.setCtrs v).vcs = s.vcs := rfl
@[simp] theorem State.setCtrs_mus (s : State) (v : List (Nat × BitVec 64)) : (s.setCtrs v).mus = s.mus := rfl
@[simp] theorem State.setCtrs_pipes (s : State) (v : List (Nat × BitVec 64)) : (s.setCtrs v).pipes = s.pipes := rfl
@[simp] theorem State.setCtrs_slices (s : State) (v : List (Nat × BitVec 64)) : (s.setCtrs v).slices = s.slices := rfl
@[simp] theorem State.setCtrs_dies (s : State) (v : List (Nat × BitVec 64)) : (s.setCtrs v).dies = s.dies := rfl
@[simp] theorem State.setCtrs_ports (s : State) (v : List (Nat × BitVec 64)) : (s.setCtrs v).ports = s.ports := rfl
@[simp] theorem State.setCtrs_serge (s : State) (v : List (Nat × BitVec 64)) : (s.setCtrs v).serge = s.serge := rfl
@[simp] theorem State.setCtrs_pdies (s : State) (v : List (Nat × BitVec 64)) : (s.setCtrs v).pdies = s.pdies := rfl
@[simp] theorem State.setCtrs_link (s : State) (v : List (Nat × BitVec 64)) : (s.setCtrs v).link = s.link := rfl
@[simp] theorem State.setCtrs_vectors (s : State) (v : List (Nat × BitVec 64)) : (s.setCtrs v).vectors = s.vectors := rfl
@[simp] theorem State.setCtrs_mailboxes (s : State) (v : List (Nat × BitVec 64)) : (s.setCtrs v).mailboxes = s.mailboxes := rfl
@[simp] theorem State.setCtrs_rolser (s : State) (v : List (Nat × BitVec 64)) : (s.setCtrs v).rolser = s.rolser := rfl
@[simp] theorem State.setCtrs_trust (s : State) (v : List (Nat × BitVec 64)) : (s.setCtrs v).trust = s.trust := rfl
@[simp] theorem State.setCtrs_boot (s : State) (v : List (Nat × BitVec 64)) : (s.setCtrs v).boot = s.boot := rfl
@[simp] theorem State.setCtrs_pins (s : State) (v : List (Nat × BitVec 64)) : (s.setCtrs v).pins = s.pins := rfl
@[simp] theorem State.setCtrs_power (s : State) (v : List (Nat × BitVec 64)) : (s.setCtrs v).power = s.power := rfl
@[simp] theorem State.setCtrs_ripstop (s : State) (v : List (Nat × BitVec 64)) : (s.setCtrs v).ripstop = s.ripstop := rfl
@[simp] theorem State.setCtrs_xft (s : State) (v : List (Nat × BitVec 64)) : (s.setCtrs v).xft = s.xft := rfl
@[simp] theorem State.setCtrs_ethTx (s : State) (v : List (Nat × BitVec 64)) : (s.setCtrs v).ethTx = s.ethTx := rfl
@[simp] theorem State.setCtrs_snoops (s : State) (v : List (Nat × BitVec 64)) : (s.setCtrs v).snoops = s.snoops := rfl
@[simp] theorem State.setCtrs_order (s : State) (v : List (Nat × BitVec 64)) : (s.setCtrs v).order = s.order := rfl
@[simp] theorem State.setQueues_pending (s : State) (v : List (Nat × QCtx)) : (s.setQueues v).pending = s.pending := rfl
@[simp] theorem State.setQueues_now (s : State) (v : List (Nat × QCtx)) : (s.setQueues v).now = s.now := rfl
@[simp] theorem State.setQueues_draws (s : State) (v : List (Nat × QCtx)) : (s.setQueues v).draws = s.draws := rfl
@[simp] theorem State.setQueues_mem (s : State) (v : List (Nat × QCtx)) : (s.setQueues v).mem = s.mem := rfl
@[simp] theorem State.setQueues_ctrs (s : State) (v : List (Nat × QCtx)) : (s.setQueues v).ctrs = s.ctrs := rfl
@[simp] theorem State.setQueues_queues (s : State) (v : List (Nat × QCtx)) : (s.setQueues v).queues = v := rfl
@[simp] theorem State.setQueues_parts (s : State) (v : List (Nat × QCtx)) : (s.setQueues v).parts = s.parts := rfl
@[simp] theorem State.setQueues_vcs (s : State) (v : List (Nat × QCtx)) : (s.setQueues v).vcs = s.vcs := rfl
@[simp] theorem State.setQueues_mus (s : State) (v : List (Nat × QCtx)) : (s.setQueues v).mus = s.mus := rfl
@[simp] theorem State.setQueues_pipes (s : State) (v : List (Nat × QCtx)) : (s.setQueues v).pipes = s.pipes := rfl
@[simp] theorem State.setQueues_slices (s : State) (v : List (Nat × QCtx)) : (s.setQueues v).slices = s.slices := rfl
@[simp] theorem State.setQueues_dies (s : State) (v : List (Nat × QCtx)) : (s.setQueues v).dies = s.dies := rfl
@[simp] theorem State.setQueues_ports (s : State) (v : List (Nat × QCtx)) : (s.setQueues v).ports = s.ports := rfl
@[simp] theorem State.setQueues_serge (s : State) (v : List (Nat × QCtx)) : (s.setQueues v).serge = s.serge := rfl
@[simp] theorem State.setQueues_pdies (s : State) (v : List (Nat × QCtx)) : (s.setQueues v).pdies = s.pdies := rfl
@[simp] theorem State.setQueues_link (s : State) (v : List (Nat × QCtx)) : (s.setQueues v).link = s.link := rfl
@[simp] theorem State.setQueues_vectors (s : State) (v : List (Nat × QCtx)) : (s.setQueues v).vectors = s.vectors := rfl
@[simp] theorem State.setQueues_mailboxes (s : State) (v : List (Nat × QCtx)) : (s.setQueues v).mailboxes = s.mailboxes := rfl
@[simp] theorem State.setQueues_rolser (s : State) (v : List (Nat × QCtx)) : (s.setQueues v).rolser = s.rolser := rfl
@[simp] theorem State.setQueues_trust (s : State) (v : List (Nat × QCtx)) : (s.setQueues v).trust = s.trust := rfl
@[simp] theorem State.setQueues_boot (s : State) (v : List (Nat × QCtx)) : (s.setQueues v).boot = s.boot := rfl
@[simp] theorem State.setQueues_pins (s : State) (v : List (Nat × QCtx)) : (s.setQueues v).pins = s.pins := rfl
@[simp] theorem State.setQueues_power (s : State) (v : List (Nat × QCtx)) : (s.setQueues v).power = s.power := rfl
@[simp] theorem State.setQueues_ripstop (s : State) (v : List (Nat × QCtx)) : (s.setQueues v).ripstop = s.ripstop := rfl
@[simp] theorem State.setQueues_xft (s : State) (v : List (Nat × QCtx)) : (s.setQueues v).xft = s.xft := rfl
@[simp] theorem State.setQueues_ethTx (s : State) (v : List (Nat × QCtx)) : (s.setQueues v).ethTx = s.ethTx := rfl
@[simp] theorem State.setQueues_snoops (s : State) (v : List (Nat × QCtx)) : (s.setQueues v).snoops = s.snoops := rfl
@[simp] theorem State.setQueues_order (s : State) (v : List (Nat × QCtx)) : (s.setQueues v).order = s.order := rfl
@[simp] theorem State.setParts_pending (s : State) (v : List (Nat × Part)) : (s.setParts v).pending = s.pending := rfl
@[simp] theorem State.setParts_now (s : State) (v : List (Nat × Part)) : (s.setParts v).now = s.now := rfl
@[simp] theorem State.setParts_draws (s : State) (v : List (Nat × Part)) : (s.setParts v).draws = s.draws := rfl
@[simp] theorem State.setParts_mem (s : State) (v : List (Nat × Part)) : (s.setParts v).mem = s.mem := rfl
@[simp] theorem State.setParts_ctrs (s : State) (v : List (Nat × Part)) : (s.setParts v).ctrs = s.ctrs := rfl
@[simp] theorem State.setParts_queues (s : State) (v : List (Nat × Part)) : (s.setParts v).queues = s.queues := rfl
@[simp] theorem State.setParts_parts (s : State) (v : List (Nat × Part)) : (s.setParts v).parts = v := rfl
@[simp] theorem State.setParts_vcs (s : State) (v : List (Nat × Part)) : (s.setParts v).vcs = s.vcs := rfl
@[simp] theorem State.setParts_mus (s : State) (v : List (Nat × Part)) : (s.setParts v).mus = s.mus := rfl
@[simp] theorem State.setParts_pipes (s : State) (v : List (Nat × Part)) : (s.setParts v).pipes = s.pipes := rfl
@[simp] theorem State.setParts_slices (s : State) (v : List (Nat × Part)) : (s.setParts v).slices = s.slices := rfl
@[simp] theorem State.setParts_dies (s : State) (v : List (Nat × Part)) : (s.setParts v).dies = s.dies := rfl
@[simp] theorem State.setParts_ports (s : State) (v : List (Nat × Part)) : (s.setParts v).ports = s.ports := rfl
@[simp] theorem State.setParts_serge (s : State) (v : List (Nat × Part)) : (s.setParts v).serge = s.serge := rfl
@[simp] theorem State.setParts_pdies (s : State) (v : List (Nat × Part)) : (s.setParts v).pdies = s.pdies := rfl
@[simp] theorem State.setParts_link (s : State) (v : List (Nat × Part)) : (s.setParts v).link = s.link := rfl
@[simp] theorem State.setParts_vectors (s : State) (v : List (Nat × Part)) : (s.setParts v).vectors = s.vectors := rfl
@[simp] theorem State.setParts_mailboxes (s : State) (v : List (Nat × Part)) : (s.setParts v).mailboxes = s.mailboxes := rfl
@[simp] theorem State.setParts_rolser (s : State) (v : List (Nat × Part)) : (s.setParts v).rolser = s.rolser := rfl
@[simp] theorem State.setParts_trust (s : State) (v : List (Nat × Part)) : (s.setParts v).trust = s.trust := rfl
@[simp] theorem State.setParts_boot (s : State) (v : List (Nat × Part)) : (s.setParts v).boot = s.boot := rfl
@[simp] theorem State.setParts_pins (s : State) (v : List (Nat × Part)) : (s.setParts v).pins = s.pins := rfl
@[simp] theorem State.setParts_power (s : State) (v : List (Nat × Part)) : (s.setParts v).power = s.power := rfl
@[simp] theorem State.setParts_ripstop (s : State) (v : List (Nat × Part)) : (s.setParts v).ripstop = s.ripstop := rfl
@[simp] theorem State.setParts_xft (s : State) (v : List (Nat × Part)) : (s.setParts v).xft = s.xft := rfl
@[simp] theorem State.setParts_ethTx (s : State) (v : List (Nat × Part)) : (s.setParts v).ethTx = s.ethTx := rfl
@[simp] theorem State.setParts_snoops (s : State) (v : List (Nat × Part)) : (s.setParts v).snoops = s.snoops := rfl
@[simp] theorem State.setParts_order (s : State) (v : List (Nat × Part)) : (s.setParts v).order = s.order := rfl
@[simp] theorem State.setVcs_pending (s : State) (v : List (Nat × Vc)) : (s.setVcs v).pending = s.pending := rfl
@[simp] theorem State.setVcs_now (s : State) (v : List (Nat × Vc)) : (s.setVcs v).now = s.now := rfl
@[simp] theorem State.setVcs_draws (s : State) (v : List (Nat × Vc)) : (s.setVcs v).draws = s.draws := rfl
@[simp] theorem State.setVcs_mem (s : State) (v : List (Nat × Vc)) : (s.setVcs v).mem = s.mem := rfl
@[simp] theorem State.setVcs_ctrs (s : State) (v : List (Nat × Vc)) : (s.setVcs v).ctrs = s.ctrs := rfl
@[simp] theorem State.setVcs_queues (s : State) (v : List (Nat × Vc)) : (s.setVcs v).queues = s.queues := rfl
@[simp] theorem State.setVcs_parts (s : State) (v : List (Nat × Vc)) : (s.setVcs v).parts = s.parts := rfl
@[simp] theorem State.setVcs_vcs (s : State) (v : List (Nat × Vc)) : (s.setVcs v).vcs = v := rfl
@[simp] theorem State.setVcs_mus (s : State) (v : List (Nat × Vc)) : (s.setVcs v).mus = s.mus := rfl
@[simp] theorem State.setVcs_pipes (s : State) (v : List (Nat × Vc)) : (s.setVcs v).pipes = s.pipes := rfl
@[simp] theorem State.setVcs_slices (s : State) (v : List (Nat × Vc)) : (s.setVcs v).slices = s.slices := rfl
@[simp] theorem State.setVcs_dies (s : State) (v : List (Nat × Vc)) : (s.setVcs v).dies = s.dies := rfl
@[simp] theorem State.setVcs_ports (s : State) (v : List (Nat × Vc)) : (s.setVcs v).ports = s.ports := rfl
@[simp] theorem State.setVcs_serge (s : State) (v : List (Nat × Vc)) : (s.setVcs v).serge = s.serge := rfl
@[simp] theorem State.setVcs_pdies (s : State) (v : List (Nat × Vc)) : (s.setVcs v).pdies = s.pdies := rfl
@[simp] theorem State.setVcs_link (s : State) (v : List (Nat × Vc)) : (s.setVcs v).link = s.link := rfl
@[simp] theorem State.setVcs_vectors (s : State) (v : List (Nat × Vc)) : (s.setVcs v).vectors = s.vectors := rfl
@[simp] theorem State.setVcs_mailboxes (s : State) (v : List (Nat × Vc)) : (s.setVcs v).mailboxes = s.mailboxes := rfl
@[simp] theorem State.setVcs_rolser (s : State) (v : List (Nat × Vc)) : (s.setVcs v).rolser = s.rolser := rfl
@[simp] theorem State.setVcs_trust (s : State) (v : List (Nat × Vc)) : (s.setVcs v).trust = s.trust := rfl
@[simp] theorem State.setVcs_boot (s : State) (v : List (Nat × Vc)) : (s.setVcs v).boot = s.boot := rfl
@[simp] theorem State.setVcs_pins (s : State) (v : List (Nat × Vc)) : (s.setVcs v).pins = s.pins := rfl
@[simp] theorem State.setVcs_power (s : State) (v : List (Nat × Vc)) : (s.setVcs v).power = s.power := rfl
@[simp] theorem State.setVcs_ripstop (s : State) (v : List (Nat × Vc)) : (s.setVcs v).ripstop = s.ripstop := rfl
@[simp] theorem State.setVcs_xft (s : State) (v : List (Nat × Vc)) : (s.setVcs v).xft = s.xft := rfl
@[simp] theorem State.setVcs_ethTx (s : State) (v : List (Nat × Vc)) : (s.setVcs v).ethTx = s.ethTx := rfl
@[simp] theorem State.setVcs_snoops (s : State) (v : List (Nat × Vc)) : (s.setVcs v).snoops = s.snoops := rfl
@[simp] theorem State.setVcs_order (s : State) (v : List (Nat × Vc)) : (s.setVcs v).order = s.order := rfl
@[simp] theorem State.setMus_pending (s : State) (v : List (Nat × Mu)) : (s.setMus v).pending = s.pending := rfl
@[simp] theorem State.setMus_now (s : State) (v : List (Nat × Mu)) : (s.setMus v).now = s.now := rfl
@[simp] theorem State.setMus_draws (s : State) (v : List (Nat × Mu)) : (s.setMus v).draws = s.draws := rfl
@[simp] theorem State.setMus_mem (s : State) (v : List (Nat × Mu)) : (s.setMus v).mem = s.mem := rfl
@[simp] theorem State.setMus_ctrs (s : State) (v : List (Nat × Mu)) : (s.setMus v).ctrs = s.ctrs := rfl
@[simp] theorem State.setMus_queues (s : State) (v : List (Nat × Mu)) : (s.setMus v).queues = s.queues := rfl
@[simp] theorem State.setMus_parts (s : State) (v : List (Nat × Mu)) : (s.setMus v).parts = s.parts := rfl
@[simp] theorem State.setMus_vcs (s : State) (v : List (Nat × Mu)) : (s.setMus v).vcs = s.vcs := rfl
@[simp] theorem State.setMus_mus (s : State) (v : List (Nat × Mu)) : (s.setMus v).mus = v := rfl
@[simp] theorem State.setMus_pipes (s : State) (v : List (Nat × Mu)) : (s.setMus v).pipes = s.pipes := rfl
@[simp] theorem State.setMus_slices (s : State) (v : List (Nat × Mu)) : (s.setMus v).slices = s.slices := rfl
@[simp] theorem State.setMus_dies (s : State) (v : List (Nat × Mu)) : (s.setMus v).dies = s.dies := rfl
@[simp] theorem State.setMus_ports (s : State) (v : List (Nat × Mu)) : (s.setMus v).ports = s.ports := rfl
@[simp] theorem State.setMus_serge (s : State) (v : List (Nat × Mu)) : (s.setMus v).serge = s.serge := rfl
@[simp] theorem State.setMus_pdies (s : State) (v : List (Nat × Mu)) : (s.setMus v).pdies = s.pdies := rfl
@[simp] theorem State.setMus_link (s : State) (v : List (Nat × Mu)) : (s.setMus v).link = s.link := rfl
@[simp] theorem State.setMus_vectors (s : State) (v : List (Nat × Mu)) : (s.setMus v).vectors = s.vectors := rfl
@[simp] theorem State.setMus_mailboxes (s : State) (v : List (Nat × Mu)) : (s.setMus v).mailboxes = s.mailboxes := rfl
@[simp] theorem State.setMus_rolser (s : State) (v : List (Nat × Mu)) : (s.setMus v).rolser = s.rolser := rfl
@[simp] theorem State.setMus_trust (s : State) (v : List (Nat × Mu)) : (s.setMus v).trust = s.trust := rfl
@[simp] theorem State.setMus_boot (s : State) (v : List (Nat × Mu)) : (s.setMus v).boot = s.boot := rfl
@[simp] theorem State.setMus_pins (s : State) (v : List (Nat × Mu)) : (s.setMus v).pins = s.pins := rfl
@[simp] theorem State.setMus_power (s : State) (v : List (Nat × Mu)) : (s.setMus v).power = s.power := rfl
@[simp] theorem State.setMus_ripstop (s : State) (v : List (Nat × Mu)) : (s.setMus v).ripstop = s.ripstop := rfl
@[simp] theorem State.setMus_xft (s : State) (v : List (Nat × Mu)) : (s.setMus v).xft = s.xft := rfl
@[simp] theorem State.setMus_ethTx (s : State) (v : List (Nat × Mu)) : (s.setMus v).ethTx = s.ethTx := rfl
@[simp] theorem State.setMus_snoops (s : State) (v : List (Nat × Mu)) : (s.setMus v).snoops = s.snoops := rfl
@[simp] theorem State.setMus_order (s : State) (v : List (Nat × Mu)) : (s.setMus v).order = s.order := rfl
@[simp] theorem State.setPipes_pending (s : State) (v : List (Nat × Pipe)) : (s.setPipes v).pending = s.pending := rfl
@[simp] theorem State.setPipes_now (s : State) (v : List (Nat × Pipe)) : (s.setPipes v).now = s.now := rfl
@[simp] theorem State.setPipes_draws (s : State) (v : List (Nat × Pipe)) : (s.setPipes v).draws = s.draws := rfl
@[simp] theorem State.setPipes_mem (s : State) (v : List (Nat × Pipe)) : (s.setPipes v).mem = s.mem := rfl
@[simp] theorem State.setPipes_ctrs (s : State) (v : List (Nat × Pipe)) : (s.setPipes v).ctrs = s.ctrs := rfl
@[simp] theorem State.setPipes_queues (s : State) (v : List (Nat × Pipe)) : (s.setPipes v).queues = s.queues := rfl
@[simp] theorem State.setPipes_parts (s : State) (v : List (Nat × Pipe)) : (s.setPipes v).parts = s.parts := rfl
@[simp] theorem State.setPipes_vcs (s : State) (v : List (Nat × Pipe)) : (s.setPipes v).vcs = s.vcs := rfl
@[simp] theorem State.setPipes_mus (s : State) (v : List (Nat × Pipe)) : (s.setPipes v).mus = s.mus := rfl
@[simp] theorem State.setPipes_pipes (s : State) (v : List (Nat × Pipe)) : (s.setPipes v).pipes = v := rfl
@[simp] theorem State.setPipes_slices (s : State) (v : List (Nat × Pipe)) : (s.setPipes v).slices = s.slices := rfl
@[simp] theorem State.setPipes_dies (s : State) (v : List (Nat × Pipe)) : (s.setPipes v).dies = s.dies := rfl
@[simp] theorem State.setPipes_ports (s : State) (v : List (Nat × Pipe)) : (s.setPipes v).ports = s.ports := rfl
@[simp] theorem State.setPipes_serge (s : State) (v : List (Nat × Pipe)) : (s.setPipes v).serge = s.serge := rfl
@[simp] theorem State.setPipes_pdies (s : State) (v : List (Nat × Pipe)) : (s.setPipes v).pdies = s.pdies := rfl
@[simp] theorem State.setPipes_link (s : State) (v : List (Nat × Pipe)) : (s.setPipes v).link = s.link := rfl
@[simp] theorem State.setPipes_vectors (s : State) (v : List (Nat × Pipe)) : (s.setPipes v).vectors = s.vectors := rfl
@[simp] theorem State.setPipes_mailboxes (s : State) (v : List (Nat × Pipe)) : (s.setPipes v).mailboxes = s.mailboxes := rfl
@[simp] theorem State.setPipes_rolser (s : State) (v : List (Nat × Pipe)) : (s.setPipes v).rolser = s.rolser := rfl
@[simp] theorem State.setPipes_trust (s : State) (v : List (Nat × Pipe)) : (s.setPipes v).trust = s.trust := rfl
@[simp] theorem State.setPipes_boot (s : State) (v : List (Nat × Pipe)) : (s.setPipes v).boot = s.boot := rfl
@[simp] theorem State.setPipes_pins (s : State) (v : List (Nat × Pipe)) : (s.setPipes v).pins = s.pins := rfl
@[simp] theorem State.setPipes_power (s : State) (v : List (Nat × Pipe)) : (s.setPipes v).power = s.power := rfl
@[simp] theorem State.setPipes_ripstop (s : State) (v : List (Nat × Pipe)) : (s.setPipes v).ripstop = s.ripstop := rfl
@[simp] theorem State.setPipes_xft (s : State) (v : List (Nat × Pipe)) : (s.setPipes v).xft = s.xft := rfl
@[simp] theorem State.setPipes_ethTx (s : State) (v : List (Nat × Pipe)) : (s.setPipes v).ethTx = s.ethTx := rfl
@[simp] theorem State.setPipes_snoops (s : State) (v : List (Nat × Pipe)) : (s.setPipes v).snoops = s.snoops := rfl
@[simp] theorem State.setPipes_order (s : State) (v : List (Nat × Pipe)) : (s.setPipes v).order = s.order := rfl
@[simp] theorem State.setSlices_pending (s : State) (v : List (Nat × Slice)) : (s.setSlices v).pending = s.pending := rfl
@[simp] theorem State.setSlices_now (s : State) (v : List (Nat × Slice)) : (s.setSlices v).now = s.now := rfl
@[simp] theorem State.setSlices_draws (s : State) (v : List (Nat × Slice)) : (s.setSlices v).draws = s.draws := rfl
@[simp] theorem State.setSlices_mem (s : State) (v : List (Nat × Slice)) : (s.setSlices v).mem = s.mem := rfl
@[simp] theorem State.setSlices_ctrs (s : State) (v : List (Nat × Slice)) : (s.setSlices v).ctrs = s.ctrs := rfl
@[simp] theorem State.setSlices_queues (s : State) (v : List (Nat × Slice)) : (s.setSlices v).queues = s.queues := rfl
@[simp] theorem State.setSlices_parts (s : State) (v : List (Nat × Slice)) : (s.setSlices v).parts = s.parts := rfl
@[simp] theorem State.setSlices_vcs (s : State) (v : List (Nat × Slice)) : (s.setSlices v).vcs = s.vcs := rfl
@[simp] theorem State.setSlices_mus (s : State) (v : List (Nat × Slice)) : (s.setSlices v).mus = s.mus := rfl
@[simp] theorem State.setSlices_pipes (s : State) (v : List (Nat × Slice)) : (s.setSlices v).pipes = s.pipes := rfl
@[simp] theorem State.setSlices_slices (s : State) (v : List (Nat × Slice)) : (s.setSlices v).slices = v := rfl
@[simp] theorem State.setSlices_dies (s : State) (v : List (Nat × Slice)) : (s.setSlices v).dies = s.dies := rfl
@[simp] theorem State.setSlices_ports (s : State) (v : List (Nat × Slice)) : (s.setSlices v).ports = s.ports := rfl
@[simp] theorem State.setSlices_serge (s : State) (v : List (Nat × Slice)) : (s.setSlices v).serge = s.serge := rfl
@[simp] theorem State.setSlices_pdies (s : State) (v : List (Nat × Slice)) : (s.setSlices v).pdies = s.pdies := rfl
@[simp] theorem State.setSlices_link (s : State) (v : List (Nat × Slice)) : (s.setSlices v).link = s.link := rfl
@[simp] theorem State.setSlices_vectors (s : State) (v : List (Nat × Slice)) : (s.setSlices v).vectors = s.vectors := rfl
@[simp] theorem State.setSlices_mailboxes (s : State) (v : List (Nat × Slice)) : (s.setSlices v).mailboxes = s.mailboxes := rfl
@[simp] theorem State.setSlices_rolser (s : State) (v : List (Nat × Slice)) : (s.setSlices v).rolser = s.rolser := rfl
@[simp] theorem State.setSlices_trust (s : State) (v : List (Nat × Slice)) : (s.setSlices v).trust = s.trust := rfl
@[simp] theorem State.setSlices_boot (s : State) (v : List (Nat × Slice)) : (s.setSlices v).boot = s.boot := rfl
@[simp] theorem State.setSlices_pins (s : State) (v : List (Nat × Slice)) : (s.setSlices v).pins = s.pins := rfl
@[simp] theorem State.setSlices_power (s : State) (v : List (Nat × Slice)) : (s.setSlices v).power = s.power := rfl
@[simp] theorem State.setSlices_ripstop (s : State) (v : List (Nat × Slice)) : (s.setSlices v).ripstop = s.ripstop := rfl
@[simp] theorem State.setSlices_xft (s : State) (v : List (Nat × Slice)) : (s.setSlices v).xft = s.xft := rfl
@[simp] theorem State.setSlices_ethTx (s : State) (v : List (Nat × Slice)) : (s.setSlices v).ethTx = s.ethTx := rfl
@[simp] theorem State.setSlices_snoops (s : State) (v : List (Nat × Slice)) : (s.setSlices v).snoops = s.snoops := rfl
@[simp] theorem State.setSlices_order (s : State) (v : List (Nat × Slice)) : (s.setSlices v).order = s.order := rfl
@[simp] theorem State.setDies_pending (s : State) (v : List (Nat × Die)) : (s.setDies v).pending = s.pending := rfl
@[simp] theorem State.setDies_now (s : State) (v : List (Nat × Die)) : (s.setDies v).now = s.now := rfl
@[simp] theorem State.setDies_draws (s : State) (v : List (Nat × Die)) : (s.setDies v).draws = s.draws := rfl
@[simp] theorem State.setDies_mem (s : State) (v : List (Nat × Die)) : (s.setDies v).mem = s.mem := rfl
@[simp] theorem State.setDies_ctrs (s : State) (v : List (Nat × Die)) : (s.setDies v).ctrs = s.ctrs := rfl
@[simp] theorem State.setDies_queues (s : State) (v : List (Nat × Die)) : (s.setDies v).queues = s.queues := rfl
@[simp] theorem State.setDies_parts (s : State) (v : List (Nat × Die)) : (s.setDies v).parts = s.parts := rfl
@[simp] theorem State.setDies_vcs (s : State) (v : List (Nat × Die)) : (s.setDies v).vcs = s.vcs := rfl
@[simp] theorem State.setDies_mus (s : State) (v : List (Nat × Die)) : (s.setDies v).mus = s.mus := rfl
@[simp] theorem State.setDies_pipes (s : State) (v : List (Nat × Die)) : (s.setDies v).pipes = s.pipes := rfl
@[simp] theorem State.setDies_slices (s : State) (v : List (Nat × Die)) : (s.setDies v).slices = s.slices := rfl
@[simp] theorem State.setDies_dies (s : State) (v : List (Nat × Die)) : (s.setDies v).dies = v := rfl
@[simp] theorem State.setDies_ports (s : State) (v : List (Nat × Die)) : (s.setDies v).ports = s.ports := rfl
@[simp] theorem State.setDies_serge (s : State) (v : List (Nat × Die)) : (s.setDies v).serge = s.serge := rfl
@[simp] theorem State.setDies_pdies (s : State) (v : List (Nat × Die)) : (s.setDies v).pdies = s.pdies := rfl
@[simp] theorem State.setDies_link (s : State) (v : List (Nat × Die)) : (s.setDies v).link = s.link := rfl
@[simp] theorem State.setDies_vectors (s : State) (v : List (Nat × Die)) : (s.setDies v).vectors = s.vectors := rfl
@[simp] theorem State.setDies_mailboxes (s : State) (v : List (Nat × Die)) : (s.setDies v).mailboxes = s.mailboxes := rfl
@[simp] theorem State.setDies_rolser (s : State) (v : List (Nat × Die)) : (s.setDies v).rolser = s.rolser := rfl
@[simp] theorem State.setDies_trust (s : State) (v : List (Nat × Die)) : (s.setDies v).trust = s.trust := rfl
@[simp] theorem State.setDies_boot (s : State) (v : List (Nat × Die)) : (s.setDies v).boot = s.boot := rfl
@[simp] theorem State.setDies_pins (s : State) (v : List (Nat × Die)) : (s.setDies v).pins = s.pins := rfl
@[simp] theorem State.setDies_power (s : State) (v : List (Nat × Die)) : (s.setDies v).power = s.power := rfl
@[simp] theorem State.setDies_ripstop (s : State) (v : List (Nat × Die)) : (s.setDies v).ripstop = s.ripstop := rfl
@[simp] theorem State.setDies_xft (s : State) (v : List (Nat × Die)) : (s.setDies v).xft = s.xft := rfl
@[simp] theorem State.setDies_ethTx (s : State) (v : List (Nat × Die)) : (s.setDies v).ethTx = s.ethTx := rfl
@[simp] theorem State.setDies_snoops (s : State) (v : List (Nat × Die)) : (s.setDies v).snoops = s.snoops := rfl
@[simp] theorem State.setDies_order (s : State) (v : List (Nat × Die)) : (s.setDies v).order = s.order := rfl
@[simp] theorem State.setPorts_pending (s : State) (v : List (Nat × Port)) : (s.setPorts v).pending = s.pending := rfl
@[simp] theorem State.setPorts_now (s : State) (v : List (Nat × Port)) : (s.setPorts v).now = s.now := rfl
@[simp] theorem State.setPorts_draws (s : State) (v : List (Nat × Port)) : (s.setPorts v).draws = s.draws := rfl
@[simp] theorem State.setPorts_mem (s : State) (v : List (Nat × Port)) : (s.setPorts v).mem = s.mem := rfl
@[simp] theorem State.setPorts_ctrs (s : State) (v : List (Nat × Port)) : (s.setPorts v).ctrs = s.ctrs := rfl
@[simp] theorem State.setPorts_queues (s : State) (v : List (Nat × Port)) : (s.setPorts v).queues = s.queues := rfl
@[simp] theorem State.setPorts_parts (s : State) (v : List (Nat × Port)) : (s.setPorts v).parts = s.parts := rfl
@[simp] theorem State.setPorts_vcs (s : State) (v : List (Nat × Port)) : (s.setPorts v).vcs = s.vcs := rfl
@[simp] theorem State.setPorts_mus (s : State) (v : List (Nat × Port)) : (s.setPorts v).mus = s.mus := rfl
@[simp] theorem State.setPorts_pipes (s : State) (v : List (Nat × Port)) : (s.setPorts v).pipes = s.pipes := rfl
@[simp] theorem State.setPorts_slices (s : State) (v : List (Nat × Port)) : (s.setPorts v).slices = s.slices := rfl
@[simp] theorem State.setPorts_dies (s : State) (v : List (Nat × Port)) : (s.setPorts v).dies = s.dies := rfl
@[simp] theorem State.setPorts_ports (s : State) (v : List (Nat × Port)) : (s.setPorts v).ports = v := rfl
@[simp] theorem State.setPorts_serge (s : State) (v : List (Nat × Port)) : (s.setPorts v).serge = s.serge := rfl
@[simp] theorem State.setPorts_pdies (s : State) (v : List (Nat × Port)) : (s.setPorts v).pdies = s.pdies := rfl
@[simp] theorem State.setPorts_link (s : State) (v : List (Nat × Port)) : (s.setPorts v).link = s.link := rfl
@[simp] theorem State.setPorts_vectors (s : State) (v : List (Nat × Port)) : (s.setPorts v).vectors = s.vectors := rfl
@[simp] theorem State.setPorts_mailboxes (s : State) (v : List (Nat × Port)) : (s.setPorts v).mailboxes = s.mailboxes := rfl
@[simp] theorem State.setPorts_rolser (s : State) (v : List (Nat × Port)) : (s.setPorts v).rolser = s.rolser := rfl
@[simp] theorem State.setPorts_trust (s : State) (v : List (Nat × Port)) : (s.setPorts v).trust = s.trust := rfl
@[simp] theorem State.setPorts_boot (s : State) (v : List (Nat × Port)) : (s.setPorts v).boot = s.boot := rfl
@[simp] theorem State.setPorts_pins (s : State) (v : List (Nat × Port)) : (s.setPorts v).pins = s.pins := rfl
@[simp] theorem State.setPorts_power (s : State) (v : List (Nat × Port)) : (s.setPorts v).power = s.power := rfl
@[simp] theorem State.setPorts_ripstop (s : State) (v : List (Nat × Port)) : (s.setPorts v).ripstop = s.ripstop := rfl
@[simp] theorem State.setPorts_xft (s : State) (v : List (Nat × Port)) : (s.setPorts v).xft = s.xft := rfl
@[simp] theorem State.setPorts_ethTx (s : State) (v : List (Nat × Port)) : (s.setPorts v).ethTx = s.ethTx := rfl
@[simp] theorem State.setPorts_snoops (s : State) (v : List (Nat × Port)) : (s.setPorts v).snoops = s.snoops := rfl
@[simp] theorem State.setPorts_order (s : State) (v : List (Nat × Port)) : (s.setPorts v).order = s.order := rfl
@[simp] theorem State.setSerge_pending (s : State) (v : List (Nat × SergeMod)) : (s.setSerge v).pending = s.pending := rfl
@[simp] theorem State.setSerge_now (s : State) (v : List (Nat × SergeMod)) : (s.setSerge v).now = s.now := rfl
@[simp] theorem State.setSerge_draws (s : State) (v : List (Nat × SergeMod)) : (s.setSerge v).draws = s.draws := rfl
@[simp] theorem State.setSerge_mem (s : State) (v : List (Nat × SergeMod)) : (s.setSerge v).mem = s.mem := rfl
@[simp] theorem State.setSerge_ctrs (s : State) (v : List (Nat × SergeMod)) : (s.setSerge v).ctrs = s.ctrs := rfl
@[simp] theorem State.setSerge_queues (s : State) (v : List (Nat × SergeMod)) : (s.setSerge v).queues = s.queues := rfl
@[simp] theorem State.setSerge_parts (s : State) (v : List (Nat × SergeMod)) : (s.setSerge v).parts = s.parts := rfl
@[simp] theorem State.setSerge_vcs (s : State) (v : List (Nat × SergeMod)) : (s.setSerge v).vcs = s.vcs := rfl
@[simp] theorem State.setSerge_mus (s : State) (v : List (Nat × SergeMod)) : (s.setSerge v).mus = s.mus := rfl
@[simp] theorem State.setSerge_pipes (s : State) (v : List (Nat × SergeMod)) : (s.setSerge v).pipes = s.pipes := rfl
@[simp] theorem State.setSerge_slices (s : State) (v : List (Nat × SergeMod)) : (s.setSerge v).slices = s.slices := rfl
@[simp] theorem State.setSerge_dies (s : State) (v : List (Nat × SergeMod)) : (s.setSerge v).dies = s.dies := rfl
@[simp] theorem State.setSerge_ports (s : State) (v : List (Nat × SergeMod)) : (s.setSerge v).ports = s.ports := rfl
@[simp] theorem State.setSerge_serge (s : State) (v : List (Nat × SergeMod)) : (s.setSerge v).serge = v := rfl
@[simp] theorem State.setSerge_pdies (s : State) (v : List (Nat × SergeMod)) : (s.setSerge v).pdies = s.pdies := rfl
@[simp] theorem State.setSerge_link (s : State) (v : List (Nat × SergeMod)) : (s.setSerge v).link = s.link := rfl
@[simp] theorem State.setSerge_vectors (s : State) (v : List (Nat × SergeMod)) : (s.setSerge v).vectors = s.vectors := rfl
@[simp] theorem State.setSerge_mailboxes (s : State) (v : List (Nat × SergeMod)) : (s.setSerge v).mailboxes = s.mailboxes := rfl
@[simp] theorem State.setSerge_rolser (s : State) (v : List (Nat × SergeMod)) : (s.setSerge v).rolser = s.rolser := rfl
@[simp] theorem State.setSerge_trust (s : State) (v : List (Nat × SergeMod)) : (s.setSerge v).trust = s.trust := rfl
@[simp] theorem State.setSerge_boot (s : State) (v : List (Nat × SergeMod)) : (s.setSerge v).boot = s.boot := rfl
@[simp] theorem State.setSerge_pins (s : State) (v : List (Nat × SergeMod)) : (s.setSerge v).pins = s.pins := rfl
@[simp] theorem State.setSerge_power (s : State) (v : List (Nat × SergeMod)) : (s.setSerge v).power = s.power := rfl
@[simp] theorem State.setSerge_ripstop (s : State) (v : List (Nat × SergeMod)) : (s.setSerge v).ripstop = s.ripstop := rfl
@[simp] theorem State.setSerge_xft (s : State) (v : List (Nat × SergeMod)) : (s.setSerge v).xft = s.xft := rfl
@[simp] theorem State.setSerge_ethTx (s : State) (v : List (Nat × SergeMod)) : (s.setSerge v).ethTx = s.ethTx := rfl
@[simp] theorem State.setSerge_snoops (s : State) (v : List (Nat × SergeMod)) : (s.setSerge v).snoops = s.snoops := rfl
@[simp] theorem State.setSerge_order (s : State) (v : List (Nat × SergeMod)) : (s.setSerge v).order = s.order := rfl
@[simp] theorem State.setPdies_pending (s : State) (v : List (Nat × Pdie)) : (s.setPdies v).pending = s.pending := rfl
@[simp] theorem State.setPdies_now (s : State) (v : List (Nat × Pdie)) : (s.setPdies v).now = s.now := rfl
@[simp] theorem State.setPdies_draws (s : State) (v : List (Nat × Pdie)) : (s.setPdies v).draws = s.draws := rfl
@[simp] theorem State.setPdies_mem (s : State) (v : List (Nat × Pdie)) : (s.setPdies v).mem = s.mem := rfl
@[simp] theorem State.setPdies_ctrs (s : State) (v : List (Nat × Pdie)) : (s.setPdies v).ctrs = s.ctrs := rfl
@[simp] theorem State.setPdies_queues (s : State) (v : List (Nat × Pdie)) : (s.setPdies v).queues = s.queues := rfl
@[simp] theorem State.setPdies_parts (s : State) (v : List (Nat × Pdie)) : (s.setPdies v).parts = s.parts := rfl
@[simp] theorem State.setPdies_vcs (s : State) (v : List (Nat × Pdie)) : (s.setPdies v).vcs = s.vcs := rfl
@[simp] theorem State.setPdies_mus (s : State) (v : List (Nat × Pdie)) : (s.setPdies v).mus = s.mus := rfl
@[simp] theorem State.setPdies_pipes (s : State) (v : List (Nat × Pdie)) : (s.setPdies v).pipes = s.pipes := rfl
@[simp] theorem State.setPdies_slices (s : State) (v : List (Nat × Pdie)) : (s.setPdies v).slices = s.slices := rfl
@[simp] theorem State.setPdies_dies (s : State) (v : List (Nat × Pdie)) : (s.setPdies v).dies = s.dies := rfl
@[simp] theorem State.setPdies_ports (s : State) (v : List (Nat × Pdie)) : (s.setPdies v).ports = s.ports := rfl
@[simp] theorem State.setPdies_serge (s : State) (v : List (Nat × Pdie)) : (s.setPdies v).serge = s.serge := rfl
@[simp] theorem State.setPdies_pdies (s : State) (v : List (Nat × Pdie)) : (s.setPdies v).pdies = v := rfl
@[simp] theorem State.setPdies_link (s : State) (v : List (Nat × Pdie)) : (s.setPdies v).link = s.link := rfl
@[simp] theorem State.setPdies_vectors (s : State) (v : List (Nat × Pdie)) : (s.setPdies v).vectors = s.vectors := rfl
@[simp] theorem State.setPdies_mailboxes (s : State) (v : List (Nat × Pdie)) : (s.setPdies v).mailboxes = s.mailboxes := rfl
@[simp] theorem State.setPdies_rolser (s : State) (v : List (Nat × Pdie)) : (s.setPdies v).rolser = s.rolser := rfl
@[simp] theorem State.setPdies_trust (s : State) (v : List (Nat × Pdie)) : (s.setPdies v).trust = s.trust := rfl
@[simp] theorem State.setPdies_boot (s : State) (v : List (Nat × Pdie)) : (s.setPdies v).boot = s.boot := rfl
@[simp] theorem State.setPdies_pins (s : State) (v : List (Nat × Pdie)) : (s.setPdies v).pins = s.pins := rfl
@[simp] theorem State.setPdies_power (s : State) (v : List (Nat × Pdie)) : (s.setPdies v).power = s.power := rfl
@[simp] theorem State.setPdies_ripstop (s : State) (v : List (Nat × Pdie)) : (s.setPdies v).ripstop = s.ripstop := rfl
@[simp] theorem State.setPdies_xft (s : State) (v : List (Nat × Pdie)) : (s.setPdies v).xft = s.xft := rfl
@[simp] theorem State.setPdies_ethTx (s : State) (v : List (Nat × Pdie)) : (s.setPdies v).ethTx = s.ethTx := rfl
@[simp] theorem State.setPdies_snoops (s : State) (v : List (Nat × Pdie)) : (s.setPdies v).snoops = s.snoops := rfl
@[simp] theorem State.setPdies_order (s : State) (v : List (Nat × Pdie)) : (s.setPdies v).order = s.order := rfl
@[simp] theorem State.setLink_pending (s : State) (v : Link) : (s.setLink v).pending = s.pending := rfl
@[simp] theorem State.setLink_now (s : State) (v : Link) : (s.setLink v).now = s.now := rfl
@[simp] theorem State.setLink_draws (s : State) (v : Link) : (s.setLink v).draws = s.draws := rfl
@[simp] theorem State.setLink_mem (s : State) (v : Link) : (s.setLink v).mem = s.mem := rfl
@[simp] theorem State.setLink_ctrs (s : State) (v : Link) : (s.setLink v).ctrs = s.ctrs := rfl
@[simp] theorem State.setLink_queues (s : State) (v : Link) : (s.setLink v).queues = s.queues := rfl
@[simp] theorem State.setLink_parts (s : State) (v : Link) : (s.setLink v).parts = s.parts := rfl
@[simp] theorem State.setLink_vcs (s : State) (v : Link) : (s.setLink v).vcs = s.vcs := rfl
@[simp] theorem State.setLink_mus (s : State) (v : Link) : (s.setLink v).mus = s.mus := rfl
@[simp] theorem State.setLink_pipes (s : State) (v : Link) : (s.setLink v).pipes = s.pipes := rfl
@[simp] theorem State.setLink_slices (s : State) (v : Link) : (s.setLink v).slices = s.slices := rfl
@[simp] theorem State.setLink_dies (s : State) (v : Link) : (s.setLink v).dies = s.dies := rfl
@[simp] theorem State.setLink_ports (s : State) (v : Link) : (s.setLink v).ports = s.ports := rfl
@[simp] theorem State.setLink_serge (s : State) (v : Link) : (s.setLink v).serge = s.serge := rfl
@[simp] theorem State.setLink_pdies (s : State) (v : Link) : (s.setLink v).pdies = s.pdies := rfl
@[simp] theorem State.setLink_link (s : State) (v : Link) : (s.setLink v).link = v := rfl
@[simp] theorem State.setLink_vectors (s : State) (v : Link) : (s.setLink v).vectors = s.vectors := rfl
@[simp] theorem State.setLink_mailboxes (s : State) (v : Link) : (s.setLink v).mailboxes = s.mailboxes := rfl
@[simp] theorem State.setLink_rolser (s : State) (v : Link) : (s.setLink v).rolser = s.rolser := rfl
@[simp] theorem State.setLink_trust (s : State) (v : Link) : (s.setLink v).trust = s.trust := rfl
@[simp] theorem State.setLink_boot (s : State) (v : Link) : (s.setLink v).boot = s.boot := rfl
@[simp] theorem State.setLink_pins (s : State) (v : Link) : (s.setLink v).pins = s.pins := rfl
@[simp] theorem State.setLink_power (s : State) (v : Link) : (s.setLink v).power = s.power := rfl
@[simp] theorem State.setLink_ripstop (s : State) (v : Link) : (s.setLink v).ripstop = s.ripstop := rfl
@[simp] theorem State.setLink_xft (s : State) (v : Link) : (s.setLink v).xft = s.xft := rfl
@[simp] theorem State.setLink_ethTx (s : State) (v : Link) : (s.setLink v).ethTx = s.ethTx := rfl
@[simp] theorem State.setLink_snoops (s : State) (v : Link) : (s.setLink v).snoops = s.snoops := rfl
@[simp] theorem State.setLink_order (s : State) (v : Link) : (s.setLink v).order = s.order := rfl
@[simp] theorem State.setVectors_pending (s : State) (v : List (Nat × IVec)) : (s.setVectors v).pending = s.pending := rfl
@[simp] theorem State.setVectors_now (s : State) (v : List (Nat × IVec)) : (s.setVectors v).now = s.now := rfl
@[simp] theorem State.setVectors_draws (s : State) (v : List (Nat × IVec)) : (s.setVectors v).draws = s.draws := rfl
@[simp] theorem State.setVectors_mem (s : State) (v : List (Nat × IVec)) : (s.setVectors v).mem = s.mem := rfl
@[simp] theorem State.setVectors_ctrs (s : State) (v : List (Nat × IVec)) : (s.setVectors v).ctrs = s.ctrs := rfl
@[simp] theorem State.setVectors_queues (s : State) (v : List (Nat × IVec)) : (s.setVectors v).queues = s.queues := rfl
@[simp] theorem State.setVectors_parts (s : State) (v : List (Nat × IVec)) : (s.setVectors v).parts = s.parts := rfl
@[simp] theorem State.setVectors_vcs (s : State) (v : List (Nat × IVec)) : (s.setVectors v).vcs = s.vcs := rfl
@[simp] theorem State.setVectors_mus (s : State) (v : List (Nat × IVec)) : (s.setVectors v).mus = s.mus := rfl
@[simp] theorem State.setVectors_pipes (s : State) (v : List (Nat × IVec)) : (s.setVectors v).pipes = s.pipes := rfl
@[simp] theorem State.setVectors_slices (s : State) (v : List (Nat × IVec)) : (s.setVectors v).slices = s.slices := rfl
@[simp] theorem State.setVectors_dies (s : State) (v : List (Nat × IVec)) : (s.setVectors v).dies = s.dies := rfl
@[simp] theorem State.setVectors_ports (s : State) (v : List (Nat × IVec)) : (s.setVectors v).ports = s.ports := rfl
@[simp] theorem State.setVectors_serge (s : State) (v : List (Nat × IVec)) : (s.setVectors v).serge = s.serge := rfl
@[simp] theorem State.setVectors_pdies (s : State) (v : List (Nat × IVec)) : (s.setVectors v).pdies = s.pdies := rfl
@[simp] theorem State.setVectors_link (s : State) (v : List (Nat × IVec)) : (s.setVectors v).link = s.link := rfl
@[simp] theorem State.setVectors_vectors (s : State) (v : List (Nat × IVec)) : (s.setVectors v).vectors = v := rfl
@[simp] theorem State.setVectors_mailboxes (s : State) (v : List (Nat × IVec)) : (s.setVectors v).mailboxes = s.mailboxes := rfl
@[simp] theorem State.setVectors_rolser (s : State) (v : List (Nat × IVec)) : (s.setVectors v).rolser = s.rolser := rfl
@[simp] theorem State.setVectors_trust (s : State) (v : List (Nat × IVec)) : (s.setVectors v).trust = s.trust := rfl
@[simp] theorem State.setVectors_boot (s : State) (v : List (Nat × IVec)) : (s.setVectors v).boot = s.boot := rfl
@[simp] theorem State.setVectors_pins (s : State) (v : List (Nat × IVec)) : (s.setVectors v).pins = s.pins := rfl
@[simp] theorem State.setVectors_power (s : State) (v : List (Nat × IVec)) : (s.setVectors v).power = s.power := rfl
@[simp] theorem State.setVectors_ripstop (s : State) (v : List (Nat × IVec)) : (s.setVectors v).ripstop = s.ripstop := rfl
@[simp] theorem State.setVectors_xft (s : State) (v : List (Nat × IVec)) : (s.setVectors v).xft = s.xft := rfl
@[simp] theorem State.setVectors_ethTx (s : State) (v : List (Nat × IVec)) : (s.setVectors v).ethTx = s.ethTx := rfl
@[simp] theorem State.setVectors_snoops (s : State) (v : List (Nat × IVec)) : (s.setVectors v).snoops = s.snoops := rfl
@[simp] theorem State.setVectors_order (s : State) (v : List (Nat × IVec)) : (s.setVectors v).order = s.order := rfl
@[simp] theorem State.setMailboxes_pending (s : State) (v : List (Nat × Mailbox)) : (s.setMailboxes v).pending = s.pending := rfl
@[simp] theorem State.setMailboxes_now (s : State) (v : List (Nat × Mailbox)) : (s.setMailboxes v).now = s.now := rfl
@[simp] theorem State.setMailboxes_draws (s : State) (v : List (Nat × Mailbox)) : (s.setMailboxes v).draws = s.draws := rfl
@[simp] theorem State.setMailboxes_mem (s : State) (v : List (Nat × Mailbox)) : (s.setMailboxes v).mem = s.mem := rfl
@[simp] theorem State.setMailboxes_ctrs (s : State) (v : List (Nat × Mailbox)) : (s.setMailboxes v).ctrs = s.ctrs := rfl
@[simp] theorem State.setMailboxes_queues (s : State) (v : List (Nat × Mailbox)) : (s.setMailboxes v).queues = s.queues := rfl
@[simp] theorem State.setMailboxes_parts (s : State) (v : List (Nat × Mailbox)) : (s.setMailboxes v).parts = s.parts := rfl
@[simp] theorem State.setMailboxes_vcs (s : State) (v : List (Nat × Mailbox)) : (s.setMailboxes v).vcs = s.vcs := rfl
@[simp] theorem State.setMailboxes_mus (s : State) (v : List (Nat × Mailbox)) : (s.setMailboxes v).mus = s.mus := rfl
@[simp] theorem State.setMailboxes_pipes (s : State) (v : List (Nat × Mailbox)) : (s.setMailboxes v).pipes = s.pipes := rfl
@[simp] theorem State.setMailboxes_slices (s : State) (v : List (Nat × Mailbox)) : (s.setMailboxes v).slices = s.slices := rfl
@[simp] theorem State.setMailboxes_dies (s : State) (v : List (Nat × Mailbox)) : (s.setMailboxes v).dies = s.dies := rfl
@[simp] theorem State.setMailboxes_ports (s : State) (v : List (Nat × Mailbox)) : (s.setMailboxes v).ports = s.ports := rfl
@[simp] theorem State.setMailboxes_serge (s : State) (v : List (Nat × Mailbox)) : (s.setMailboxes v).serge = s.serge := rfl
@[simp] theorem State.setMailboxes_pdies (s : State) (v : List (Nat × Mailbox)) : (s.setMailboxes v).pdies = s.pdies := rfl
@[simp] theorem State.setMailboxes_link (s : State) (v : List (Nat × Mailbox)) : (s.setMailboxes v).link = s.link := rfl
@[simp] theorem State.setMailboxes_vectors (s : State) (v : List (Nat × Mailbox)) : (s.setMailboxes v).vectors = s.vectors := rfl
@[simp] theorem State.setMailboxes_mailboxes (s : State) (v : List (Nat × Mailbox)) : (s.setMailboxes v).mailboxes = v := rfl
@[simp] theorem State.setMailboxes_rolser (s : State) (v : List (Nat × Mailbox)) : (s.setMailboxes v).rolser = s.rolser := rfl
@[simp] theorem State.setMailboxes_trust (s : State) (v : List (Nat × Mailbox)) : (s.setMailboxes v).trust = s.trust := rfl
@[simp] theorem State.setMailboxes_boot (s : State) (v : List (Nat × Mailbox)) : (s.setMailboxes v).boot = s.boot := rfl
@[simp] theorem State.setMailboxes_pins (s : State) (v : List (Nat × Mailbox)) : (s.setMailboxes v).pins = s.pins := rfl
@[simp] theorem State.setMailboxes_power (s : State) (v : List (Nat × Mailbox)) : (s.setMailboxes v).power = s.power := rfl
@[simp] theorem State.setMailboxes_ripstop (s : State) (v : List (Nat × Mailbox)) : (s.setMailboxes v).ripstop = s.ripstop := rfl
@[simp] theorem State.setMailboxes_xft (s : State) (v : List (Nat × Mailbox)) : (s.setMailboxes v).xft = s.xft := rfl
@[simp] theorem State.setMailboxes_ethTx (s : State) (v : List (Nat × Mailbox)) : (s.setMailboxes v).ethTx = s.ethTx := rfl
@[simp] theorem State.setMailboxes_snoops (s : State) (v : List (Nat × Mailbox)) : (s.setMailboxes v).snoops = s.snoops := rfl
@[simp] theorem State.setMailboxes_order (s : State) (v : List (Nat × Mailbox)) : (s.setMailboxes v).order = s.order := rfl
@[simp] theorem State.setRolser_pending (s : State) (v : Rolser) : (s.setRolser v).pending = s.pending := rfl
@[simp] theorem State.setRolser_now (s : State) (v : Rolser) : (s.setRolser v).now = s.now := rfl
@[simp] theorem State.setRolser_draws (s : State) (v : Rolser) : (s.setRolser v).draws = s.draws := rfl
@[simp] theorem State.setRolser_mem (s : State) (v : Rolser) : (s.setRolser v).mem = s.mem := rfl
@[simp] theorem State.setRolser_ctrs (s : State) (v : Rolser) : (s.setRolser v).ctrs = s.ctrs := rfl
@[simp] theorem State.setRolser_queues (s : State) (v : Rolser) : (s.setRolser v).queues = s.queues := rfl
@[simp] theorem State.setRolser_parts (s : State) (v : Rolser) : (s.setRolser v).parts = s.parts := rfl
@[simp] theorem State.setRolser_vcs (s : State) (v : Rolser) : (s.setRolser v).vcs = s.vcs := rfl
@[simp] theorem State.setRolser_mus (s : State) (v : Rolser) : (s.setRolser v).mus = s.mus := rfl
@[simp] theorem State.setRolser_pipes (s : State) (v : Rolser) : (s.setRolser v).pipes = s.pipes := rfl
@[simp] theorem State.setRolser_slices (s : State) (v : Rolser) : (s.setRolser v).slices = s.slices := rfl
@[simp] theorem State.setRolser_dies (s : State) (v : Rolser) : (s.setRolser v).dies = s.dies := rfl
@[simp] theorem State.setRolser_ports (s : State) (v : Rolser) : (s.setRolser v).ports = s.ports := rfl
@[simp] theorem State.setRolser_serge (s : State) (v : Rolser) : (s.setRolser v).serge = s.serge := rfl
@[simp] theorem State.setRolser_pdies (s : State) (v : Rolser) : (s.setRolser v).pdies = s.pdies := rfl
@[simp] theorem State.setRolser_link (s : State) (v : Rolser) : (s.setRolser v).link = s.link := rfl
@[simp] theorem State.setRolser_vectors (s : State) (v : Rolser) : (s.setRolser v).vectors = s.vectors := rfl
@[simp] theorem State.setRolser_mailboxes (s : State) (v : Rolser) : (s.setRolser v).mailboxes = s.mailboxes := rfl
@[simp] theorem State.setRolser_rolser (s : State) (v : Rolser) : (s.setRolser v).rolser = v := rfl
@[simp] theorem State.setRolser_trust (s : State) (v : Rolser) : (s.setRolser v).trust = s.trust := rfl
@[simp] theorem State.setRolser_boot (s : State) (v : Rolser) : (s.setRolser v).boot = s.boot := rfl
@[simp] theorem State.setRolser_pins (s : State) (v : Rolser) : (s.setRolser v).pins = s.pins := rfl
@[simp] theorem State.setRolser_power (s : State) (v : Rolser) : (s.setRolser v).power = s.power := rfl
@[simp] theorem State.setRolser_ripstop (s : State) (v : Rolser) : (s.setRolser v).ripstop = s.ripstop := rfl
@[simp] theorem State.setRolser_xft (s : State) (v : Rolser) : (s.setRolser v).xft = s.xft := rfl
@[simp] theorem State.setRolser_ethTx (s : State) (v : Rolser) : (s.setRolser v).ethTx = s.ethTx := rfl
@[simp] theorem State.setRolser_snoops (s : State) (v : Rolser) : (s.setRolser v).snoops = s.snoops := rfl
@[simp] theorem State.setRolser_order (s : State) (v : Rolser) : (s.setRolser v).order = s.order := rfl
@[simp] theorem State.setTrust_pending (s : State) (v : Trust) : (s.setTrust v).pending = s.pending := rfl
@[simp] theorem State.setTrust_now (s : State) (v : Trust) : (s.setTrust v).now = s.now := rfl
@[simp] theorem State.setTrust_draws (s : State) (v : Trust) : (s.setTrust v).draws = s.draws := rfl
@[simp] theorem State.setTrust_mem (s : State) (v : Trust) : (s.setTrust v).mem = s.mem := rfl
@[simp] theorem State.setTrust_ctrs (s : State) (v : Trust) : (s.setTrust v).ctrs = s.ctrs := rfl
@[simp] theorem State.setTrust_queues (s : State) (v : Trust) : (s.setTrust v).queues = s.queues := rfl
@[simp] theorem State.setTrust_parts (s : State) (v : Trust) : (s.setTrust v).parts = s.parts := rfl
@[simp] theorem State.setTrust_vcs (s : State) (v : Trust) : (s.setTrust v).vcs = s.vcs := rfl
@[simp] theorem State.setTrust_mus (s : State) (v : Trust) : (s.setTrust v).mus = s.mus := rfl
@[simp] theorem State.setTrust_pipes (s : State) (v : Trust) : (s.setTrust v).pipes = s.pipes := rfl
@[simp] theorem State.setTrust_slices (s : State) (v : Trust) : (s.setTrust v).slices = s.slices := rfl
@[simp] theorem State.setTrust_dies (s : State) (v : Trust) : (s.setTrust v).dies = s.dies := rfl
@[simp] theorem State.setTrust_ports (s : State) (v : Trust) : (s.setTrust v).ports = s.ports := rfl
@[simp] theorem State.setTrust_serge (s : State) (v : Trust) : (s.setTrust v).serge = s.serge := rfl
@[simp] theorem State.setTrust_pdies (s : State) (v : Trust) : (s.setTrust v).pdies = s.pdies := rfl
@[simp] theorem State.setTrust_link (s : State) (v : Trust) : (s.setTrust v).link = s.link := rfl
@[simp] theorem State.setTrust_vectors (s : State) (v : Trust) : (s.setTrust v).vectors = s.vectors := rfl
@[simp] theorem State.setTrust_mailboxes (s : State) (v : Trust) : (s.setTrust v).mailboxes = s.mailboxes := rfl
@[simp] theorem State.setTrust_rolser (s : State) (v : Trust) : (s.setTrust v).rolser = s.rolser := rfl
@[simp] theorem State.setTrust_trust (s : State) (v : Trust) : (s.setTrust v).trust = v := rfl
@[simp] theorem State.setTrust_boot (s : State) (v : Trust) : (s.setTrust v).boot = s.boot := rfl
@[simp] theorem State.setTrust_pins (s : State) (v : Trust) : (s.setTrust v).pins = s.pins := rfl
@[simp] theorem State.setTrust_power (s : State) (v : Trust) : (s.setTrust v).power = s.power := rfl
@[simp] theorem State.setTrust_ripstop (s : State) (v : Trust) : (s.setTrust v).ripstop = s.ripstop := rfl
@[simp] theorem State.setTrust_xft (s : State) (v : Trust) : (s.setTrust v).xft = s.xft := rfl
@[simp] theorem State.setTrust_ethTx (s : State) (v : Trust) : (s.setTrust v).ethTx = s.ethTx := rfl
@[simp] theorem State.setTrust_snoops (s : State) (v : Trust) : (s.setTrust v).snoops = s.snoops := rfl
@[simp] theorem State.setTrust_order (s : State) (v : Trust) : (s.setTrust v).order = s.order := rfl
@[simp] theorem State.setBoot_pending (s : State) (v : Boot) : (s.setBoot v).pending = s.pending := rfl
@[simp] theorem State.setBoot_now (s : State) (v : Boot) : (s.setBoot v).now = s.now := rfl
@[simp] theorem State.setBoot_draws (s : State) (v : Boot) : (s.setBoot v).draws = s.draws := rfl
@[simp] theorem State.setBoot_mem (s : State) (v : Boot) : (s.setBoot v).mem = s.mem := rfl
@[simp] theorem State.setBoot_ctrs (s : State) (v : Boot) : (s.setBoot v).ctrs = s.ctrs := rfl
@[simp] theorem State.setBoot_queues (s : State) (v : Boot) : (s.setBoot v).queues = s.queues := rfl
@[simp] theorem State.setBoot_parts (s : State) (v : Boot) : (s.setBoot v).parts = s.parts := rfl
@[simp] theorem State.setBoot_vcs (s : State) (v : Boot) : (s.setBoot v).vcs = s.vcs := rfl
@[simp] theorem State.setBoot_mus (s : State) (v : Boot) : (s.setBoot v).mus = s.mus := rfl
@[simp] theorem State.setBoot_pipes (s : State) (v : Boot) : (s.setBoot v).pipes = s.pipes := rfl
@[simp] theorem State.setBoot_slices (s : State) (v : Boot) : (s.setBoot v).slices = s.slices := rfl
@[simp] theorem State.setBoot_dies (s : State) (v : Boot) : (s.setBoot v).dies = s.dies := rfl
@[simp] theorem State.setBoot_ports (s : State) (v : Boot) : (s.setBoot v).ports = s.ports := rfl
@[simp] theorem State.setBoot_serge (s : State) (v : Boot) : (s.setBoot v).serge = s.serge := rfl
@[simp] theorem State.setBoot_pdies (s : State) (v : Boot) : (s.setBoot v).pdies = s.pdies := rfl
@[simp] theorem State.setBoot_link (s : State) (v : Boot) : (s.setBoot v).link = s.link := rfl
@[simp] theorem State.setBoot_vectors (s : State) (v : Boot) : (s.setBoot v).vectors = s.vectors := rfl
@[simp] theorem State.setBoot_mailboxes (s : State) (v : Boot) : (s.setBoot v).mailboxes = s.mailboxes := rfl
@[simp] theorem State.setBoot_rolser (s : State) (v : Boot) : (s.setBoot v).rolser = s.rolser := rfl
@[simp] theorem State.setBoot_trust (s : State) (v : Boot) : (s.setBoot v).trust = s.trust := rfl
@[simp] theorem State.setBoot_boot (s : State) (v : Boot) : (s.setBoot v).boot = v := rfl
@[simp] theorem State.setBoot_pins (s : State) (v : Boot) : (s.setBoot v).pins = s.pins := rfl
@[simp] theorem State.setBoot_power (s : State) (v : Boot) : (s.setBoot v).power = s.power := rfl
@[simp] theorem State.setBoot_ripstop (s : State) (v : Boot) : (s.setBoot v).ripstop = s.ripstop := rfl
@[simp] theorem State.setBoot_xft (s : State) (v : Boot) : (s.setBoot v).xft = s.xft := rfl
@[simp] theorem State.setBoot_ethTx (s : State) (v : Boot) : (s.setBoot v).ethTx = s.ethTx := rfl
@[simp] theorem State.setBoot_snoops (s : State) (v : Boot) : (s.setBoot v).snoops = s.snoops := rfl
@[simp] theorem State.setBoot_order (s : State) (v : Boot) : (s.setBoot v).order = s.order := rfl
@[simp] theorem State.setPins_pending (s : State) (v : Pins) : (s.setPins v).pending = s.pending := rfl
@[simp] theorem State.setPins_now (s : State) (v : Pins) : (s.setPins v).now = s.now := rfl
@[simp] theorem State.setPins_draws (s : State) (v : Pins) : (s.setPins v).draws = s.draws := rfl
@[simp] theorem State.setPins_mem (s : State) (v : Pins) : (s.setPins v).mem = s.mem := rfl
@[simp] theorem State.setPins_ctrs (s : State) (v : Pins) : (s.setPins v).ctrs = s.ctrs := rfl
@[simp] theorem State.setPins_queues (s : State) (v : Pins) : (s.setPins v).queues = s.queues := rfl
@[simp] theorem State.setPins_parts (s : State) (v : Pins) : (s.setPins v).parts = s.parts := rfl
@[simp] theorem State.setPins_vcs (s : State) (v : Pins) : (s.setPins v).vcs = s.vcs := rfl
@[simp] theorem State.setPins_mus (s : State) (v : Pins) : (s.setPins v).mus = s.mus := rfl
@[simp] theorem State.setPins_pipes (s : State) (v : Pins) : (s.setPins v).pipes = s.pipes := rfl
@[simp] theorem State.setPins_slices (s : State) (v : Pins) : (s.setPins v).slices = s.slices := rfl
@[simp] theorem State.setPins_dies (s : State) (v : Pins) : (s.setPins v).dies = s.dies := rfl
@[simp] theorem State.setPins_ports (s : State) (v : Pins) : (s.setPins v).ports = s.ports := rfl
@[simp] theorem State.setPins_serge (s : State) (v : Pins) : (s.setPins v).serge = s.serge := rfl
@[simp] theorem State.setPins_pdies (s : State) (v : Pins) : (s.setPins v).pdies = s.pdies := rfl
@[simp] theorem State.setPins_link (s : State) (v : Pins) : (s.setPins v).link = s.link := rfl
@[simp] theorem State.setPins_vectors (s : State) (v : Pins) : (s.setPins v).vectors = s.vectors := rfl
@[simp] theorem State.setPins_mailboxes (s : State) (v : Pins) : (s.setPins v).mailboxes = s.mailboxes := rfl
@[simp] theorem State.setPins_rolser (s : State) (v : Pins) : (s.setPins v).rolser = s.rolser := rfl
@[simp] theorem State.setPins_trust (s : State) (v : Pins) : (s.setPins v).trust = s.trust := rfl
@[simp] theorem State.setPins_boot (s : State) (v : Pins) : (s.setPins v).boot = s.boot := rfl
@[simp] theorem State.setPins_pins (s : State) (v : Pins) : (s.setPins v).pins = v := rfl
@[simp] theorem State.setPins_power (s : State) (v : Pins) : (s.setPins v).power = s.power := rfl
@[simp] theorem State.setPins_ripstop (s : State) (v : Pins) : (s.setPins v).ripstop = s.ripstop := rfl
@[simp] theorem State.setPins_xft (s : State) (v : Pins) : (s.setPins v).xft = s.xft := rfl
@[simp] theorem State.setPins_ethTx (s : State) (v : Pins) : (s.setPins v).ethTx = s.ethTx := rfl
@[simp] theorem State.setPins_snoops (s : State) (v : Pins) : (s.setPins v).snoops = s.snoops := rfl
@[simp] theorem State.setPins_order (s : State) (v : Pins) : (s.setPins v).order = s.order := rfl
@[simp] theorem State.setPower_pending (s : State) (v : Power) : (s.setPower v).pending = s.pending := rfl
@[simp] theorem State.setPower_now (s : State) (v : Power) : (s.setPower v).now = s.now := rfl
@[simp] theorem State.setPower_draws (s : State) (v : Power) : (s.setPower v).draws = s.draws := rfl
@[simp] theorem State.setPower_mem (s : State) (v : Power) : (s.setPower v).mem = s.mem := rfl
@[simp] theorem State.setPower_ctrs (s : State) (v : Power) : (s.setPower v).ctrs = s.ctrs := rfl
@[simp] theorem State.setPower_queues (s : State) (v : Power) : (s.setPower v).queues = s.queues := rfl
@[simp] theorem State.setPower_parts (s : State) (v : Power) : (s.setPower v).parts = s.parts := rfl
@[simp] theorem State.setPower_vcs (s : State) (v : Power) : (s.setPower v).vcs = s.vcs := rfl
@[simp] theorem State.setPower_mus (s : State) (v : Power) : (s.setPower v).mus = s.mus := rfl
@[simp] theorem State.setPower_pipes (s : State) (v : Power) : (s.setPower v).pipes = s.pipes := rfl
@[simp] theorem State.setPower_slices (s : State) (v : Power) : (s.setPower v).slices = s.slices := rfl
@[simp] theorem State.setPower_dies (s : State) (v : Power) : (s.setPower v).dies = s.dies := rfl
@[simp] theorem State.setPower_ports (s : State) (v : Power) : (s.setPower v).ports = s.ports := rfl
@[simp] theorem State.setPower_serge (s : State) (v : Power) : (s.setPower v).serge = s.serge := rfl
@[simp] theorem State.setPower_pdies (s : State) (v : Power) : (s.setPower v).pdies = s.pdies := rfl
@[simp] theorem State.setPower_link (s : State) (v : Power) : (s.setPower v).link = s.link := rfl
@[simp] theorem State.setPower_vectors (s : State) (v : Power) : (s.setPower v).vectors = s.vectors := rfl
@[simp] theorem State.setPower_mailboxes (s : State) (v : Power) : (s.setPower v).mailboxes = s.mailboxes := rfl
@[simp] theorem State.setPower_rolser (s : State) (v : Power) : (s.setPower v).rolser = s.rolser := rfl
@[simp] theorem State.setPower_trust (s : State) (v : Power) : (s.setPower v).trust = s.trust := rfl
@[simp] theorem State.setPower_boot (s : State) (v : Power) : (s.setPower v).boot = s.boot := rfl
@[simp] theorem State.setPower_pins (s : State) (v : Power) : (s.setPower v).pins = s.pins := rfl
@[simp] theorem State.setPower_power (s : State) (v : Power) : (s.setPower v).power = v := rfl
@[simp] theorem State.setPower_ripstop (s : State) (v : Power) : (s.setPower v).ripstop = s.ripstop := rfl
@[simp] theorem State.setPower_xft (s : State) (v : Power) : (s.setPower v).xft = s.xft := rfl
@[simp] theorem State.setPower_ethTx (s : State) (v : Power) : (s.setPower v).ethTx = s.ethTx := rfl
@[simp] theorem State.setPower_snoops (s : State) (v : Power) : (s.setPower v).snoops = s.snoops := rfl
@[simp] theorem State.setPower_order (s : State) (v : Power) : (s.setPower v).order = s.order := rfl
@[simp] theorem State.setRipstop_pending (s : State) (v : Ripstop) : (s.setRipstop v).pending = s.pending := rfl
@[simp] theorem State.setRipstop_now (s : State) (v : Ripstop) : (s.setRipstop v).now = s.now := rfl
@[simp] theorem State.setRipstop_draws (s : State) (v : Ripstop) : (s.setRipstop v).draws = s.draws := rfl
@[simp] theorem State.setRipstop_mem (s : State) (v : Ripstop) : (s.setRipstop v).mem = s.mem := rfl
@[simp] theorem State.setRipstop_ctrs (s : State) (v : Ripstop) : (s.setRipstop v).ctrs = s.ctrs := rfl
@[simp] theorem State.setRipstop_queues (s : State) (v : Ripstop) : (s.setRipstop v).queues = s.queues := rfl
@[simp] theorem State.setRipstop_parts (s : State) (v : Ripstop) : (s.setRipstop v).parts = s.parts := rfl
@[simp] theorem State.setRipstop_vcs (s : State) (v : Ripstop) : (s.setRipstop v).vcs = s.vcs := rfl
@[simp] theorem State.setRipstop_mus (s : State) (v : Ripstop) : (s.setRipstop v).mus = s.mus := rfl
@[simp] theorem State.setRipstop_pipes (s : State) (v : Ripstop) : (s.setRipstop v).pipes = s.pipes := rfl
@[simp] theorem State.setRipstop_slices (s : State) (v : Ripstop) : (s.setRipstop v).slices = s.slices := rfl
@[simp] theorem State.setRipstop_dies (s : State) (v : Ripstop) : (s.setRipstop v).dies = s.dies := rfl
@[simp] theorem State.setRipstop_ports (s : State) (v : Ripstop) : (s.setRipstop v).ports = s.ports := rfl
@[simp] theorem State.setRipstop_serge (s : State) (v : Ripstop) : (s.setRipstop v).serge = s.serge := rfl
@[simp] theorem State.setRipstop_pdies (s : State) (v : Ripstop) : (s.setRipstop v).pdies = s.pdies := rfl
@[simp] theorem State.setRipstop_link (s : State) (v : Ripstop) : (s.setRipstop v).link = s.link := rfl
@[simp] theorem State.setRipstop_vectors (s : State) (v : Ripstop) : (s.setRipstop v).vectors = s.vectors := rfl
@[simp] theorem State.setRipstop_mailboxes (s : State) (v : Ripstop) : (s.setRipstop v).mailboxes = s.mailboxes := rfl
@[simp] theorem State.setRipstop_rolser (s : State) (v : Ripstop) : (s.setRipstop v).rolser = s.rolser := rfl
@[simp] theorem State.setRipstop_trust (s : State) (v : Ripstop) : (s.setRipstop v).trust = s.trust := rfl
@[simp] theorem State.setRipstop_boot (s : State) (v : Ripstop) : (s.setRipstop v).boot = s.boot := rfl
@[simp] theorem State.setRipstop_pins (s : State) (v : Ripstop) : (s.setRipstop v).pins = s.pins := rfl
@[simp] theorem State.setRipstop_power (s : State) (v : Ripstop) : (s.setRipstop v).power = s.power := rfl
@[simp] theorem State.setRipstop_ripstop (s : State) (v : Ripstop) : (s.setRipstop v).ripstop = v := rfl
@[simp] theorem State.setRipstop_xft (s : State) (v : Ripstop) : (s.setRipstop v).xft = s.xft := rfl
@[simp] theorem State.setRipstop_ethTx (s : State) (v : Ripstop) : (s.setRipstop v).ethTx = s.ethTx := rfl
@[simp] theorem State.setRipstop_snoops (s : State) (v : Ripstop) : (s.setRipstop v).snoops = s.snoops := rfl
@[simp] theorem State.setRipstop_order (s : State) (v : Ripstop) : (s.setRipstop v).order = s.order := rfl
@[simp] theorem State.setXft_pending (s : State) (v : Xft) : (s.setXft v).pending = s.pending := rfl
@[simp] theorem State.setXft_now (s : State) (v : Xft) : (s.setXft v).now = s.now := rfl
@[simp] theorem State.setXft_draws (s : State) (v : Xft) : (s.setXft v).draws = s.draws := rfl
@[simp] theorem State.setXft_mem (s : State) (v : Xft) : (s.setXft v).mem = s.mem := rfl
@[simp] theorem State.setXft_ctrs (s : State) (v : Xft) : (s.setXft v).ctrs = s.ctrs := rfl
@[simp] theorem State.setXft_queues (s : State) (v : Xft) : (s.setXft v).queues = s.queues := rfl
@[simp] theorem State.setXft_parts (s : State) (v : Xft) : (s.setXft v).parts = s.parts := rfl
@[simp] theorem State.setXft_vcs (s : State) (v : Xft) : (s.setXft v).vcs = s.vcs := rfl
@[simp] theorem State.setXft_mus (s : State) (v : Xft) : (s.setXft v).mus = s.mus := rfl
@[simp] theorem State.setXft_pipes (s : State) (v : Xft) : (s.setXft v).pipes = s.pipes := rfl
@[simp] theorem State.setXft_slices (s : State) (v : Xft) : (s.setXft v).slices = s.slices := rfl
@[simp] theorem State.setXft_dies (s : State) (v : Xft) : (s.setXft v).dies = s.dies := rfl
@[simp] theorem State.setXft_ports (s : State) (v : Xft) : (s.setXft v).ports = s.ports := rfl
@[simp] theorem State.setXft_serge (s : State) (v : Xft) : (s.setXft v).serge = s.serge := rfl
@[simp] theorem State.setXft_pdies (s : State) (v : Xft) : (s.setXft v).pdies = s.pdies := rfl
@[simp] theorem State.setXft_link (s : State) (v : Xft) : (s.setXft v).link = s.link := rfl
@[simp] theorem State.setXft_vectors (s : State) (v : Xft) : (s.setXft v).vectors = s.vectors := rfl
@[simp] theorem State.setXft_mailboxes (s : State) (v : Xft) : (s.setXft v).mailboxes = s.mailboxes := rfl
@[simp] theorem State.setXft_rolser (s : State) (v : Xft) : (s.setXft v).rolser = s.rolser := rfl
@[simp] theorem State.setXft_trust (s : State) (v : Xft) : (s.setXft v).trust = s.trust := rfl
@[simp] theorem State.setXft_boot (s : State) (v : Xft) : (s.setXft v).boot = s.boot := rfl
@[simp] theorem State.setXft_pins (s : State) (v : Xft) : (s.setXft v).pins = s.pins := rfl
@[simp] theorem State.setXft_power (s : State) (v : Xft) : (s.setXft v).power = s.power := rfl
@[simp] theorem State.setXft_ripstop (s : State) (v : Xft) : (s.setXft v).ripstop = s.ripstop := rfl
@[simp] theorem State.setXft_xft (s : State) (v : Xft) : (s.setXft v).xft = v := rfl
@[simp] theorem State.setXft_ethTx (s : State) (v : Xft) : (s.setXft v).ethTx = s.ethTx := rfl
@[simp] theorem State.setXft_snoops (s : State) (v : Xft) : (s.setXft v).snoops = s.snoops := rfl
@[simp] theorem State.setXft_order (s : State) (v : Xft) : (s.setXft v).order = s.order := rfl
@[simp] theorem State.setEthTx_pending (s : State) (v : List (Nat × List (BitVec 8))) : (s.setEthTx v).pending = s.pending := rfl
@[simp] theorem State.setEthTx_now (s : State) (v : List (Nat × List (BitVec 8))) : (s.setEthTx v).now = s.now := rfl
@[simp] theorem State.setEthTx_draws (s : State) (v : List (Nat × List (BitVec 8))) : (s.setEthTx v).draws = s.draws := rfl
@[simp] theorem State.setEthTx_mem (s : State) (v : List (Nat × List (BitVec 8))) : (s.setEthTx v).mem = s.mem := rfl
@[simp] theorem State.setEthTx_ctrs (s : State) (v : List (Nat × List (BitVec 8))) : (s.setEthTx v).ctrs = s.ctrs := rfl
@[simp] theorem State.setEthTx_queues (s : State) (v : List (Nat × List (BitVec 8))) : (s.setEthTx v).queues = s.queues := rfl
@[simp] theorem State.setEthTx_parts (s : State) (v : List (Nat × List (BitVec 8))) : (s.setEthTx v).parts = s.parts := rfl
@[simp] theorem State.setEthTx_vcs (s : State) (v : List (Nat × List (BitVec 8))) : (s.setEthTx v).vcs = s.vcs := rfl
@[simp] theorem State.setEthTx_mus (s : State) (v : List (Nat × List (BitVec 8))) : (s.setEthTx v).mus = s.mus := rfl
@[simp] theorem State.setEthTx_pipes (s : State) (v : List (Nat × List (BitVec 8))) : (s.setEthTx v).pipes = s.pipes := rfl
@[simp] theorem State.setEthTx_slices (s : State) (v : List (Nat × List (BitVec 8))) : (s.setEthTx v).slices = s.slices := rfl
@[simp] theorem State.setEthTx_dies (s : State) (v : List (Nat × List (BitVec 8))) : (s.setEthTx v).dies = s.dies := rfl
@[simp] theorem State.setEthTx_ports (s : State) (v : List (Nat × List (BitVec 8))) : (s.setEthTx v).ports = s.ports := rfl
@[simp] theorem State.setEthTx_serge (s : State) (v : List (Nat × List (BitVec 8))) : (s.setEthTx v).serge = s.serge := rfl
@[simp] theorem State.setEthTx_pdies (s : State) (v : List (Nat × List (BitVec 8))) : (s.setEthTx v).pdies = s.pdies := rfl
@[simp] theorem State.setEthTx_link (s : State) (v : List (Nat × List (BitVec 8))) : (s.setEthTx v).link = s.link := rfl
@[simp] theorem State.setEthTx_vectors (s : State) (v : List (Nat × List (BitVec 8))) : (s.setEthTx v).vectors = s.vectors := rfl
@[simp] theorem State.setEthTx_mailboxes (s : State) (v : List (Nat × List (BitVec 8))) : (s.setEthTx v).mailboxes = s.mailboxes := rfl
@[simp] theorem State.setEthTx_rolser (s : State) (v : List (Nat × List (BitVec 8))) : (s.setEthTx v).rolser = s.rolser := rfl
@[simp] theorem State.setEthTx_trust (s : State) (v : List (Nat × List (BitVec 8))) : (s.setEthTx v).trust = s.trust := rfl
@[simp] theorem State.setEthTx_boot (s : State) (v : List (Nat × List (BitVec 8))) : (s.setEthTx v).boot = s.boot := rfl
@[simp] theorem State.setEthTx_pins (s : State) (v : List (Nat × List (BitVec 8))) : (s.setEthTx v).pins = s.pins := rfl
@[simp] theorem State.setEthTx_power (s : State) (v : List (Nat × List (BitVec 8))) : (s.setEthTx v).power = s.power := rfl
@[simp] theorem State.setEthTx_ripstop (s : State) (v : List (Nat × List (BitVec 8))) : (s.setEthTx v).ripstop = s.ripstop := rfl
@[simp] theorem State.setEthTx_xft (s : State) (v : List (Nat × List (BitVec 8))) : (s.setEthTx v).xft = s.xft := rfl
@[simp] theorem State.setEthTx_ethTx (s : State) (v : List (Nat × List (BitVec 8))) : (s.setEthTx v).ethTx = v := rfl
@[simp] theorem State.setEthTx_snoops (s : State) (v : List (Nat × List (BitVec 8))) : (s.setEthTx v).snoops = s.snoops := rfl
@[simp] theorem State.setEthTx_order (s : State) (v : List (Nat × List (BitVec 8))) : (s.setEthTx v).order = s.order := rfl
@[simp] theorem State.setSnoops_pending (s : State) (v : List (Nat × Bool)) : (s.setSnoops v).pending = s.pending := rfl
@[simp] theorem State.setSnoops_now (s : State) (v : List (Nat × Bool)) : (s.setSnoops v).now = s.now := rfl
@[simp] theorem State.setSnoops_draws (s : State) (v : List (Nat × Bool)) : (s.setSnoops v).draws = s.draws := rfl
@[simp] theorem State.setSnoops_mem (s : State) (v : List (Nat × Bool)) : (s.setSnoops v).mem = s.mem := rfl
@[simp] theorem State.setSnoops_ctrs (s : State) (v : List (Nat × Bool)) : (s.setSnoops v).ctrs = s.ctrs := rfl
@[simp] theorem State.setSnoops_queues (s : State) (v : List (Nat × Bool)) : (s.setSnoops v).queues = s.queues := rfl
@[simp] theorem State.setSnoops_parts (s : State) (v : List (Nat × Bool)) : (s.setSnoops v).parts = s.parts := rfl
@[simp] theorem State.setSnoops_vcs (s : State) (v : List (Nat × Bool)) : (s.setSnoops v).vcs = s.vcs := rfl
@[simp] theorem State.setSnoops_mus (s : State) (v : List (Nat × Bool)) : (s.setSnoops v).mus = s.mus := rfl
@[simp] theorem State.setSnoops_pipes (s : State) (v : List (Nat × Bool)) : (s.setSnoops v).pipes = s.pipes := rfl
@[simp] theorem State.setSnoops_slices (s : State) (v : List (Nat × Bool)) : (s.setSnoops v).slices = s.slices := rfl
@[simp] theorem State.setSnoops_dies (s : State) (v : List (Nat × Bool)) : (s.setSnoops v).dies = s.dies := rfl
@[simp] theorem State.setSnoops_ports (s : State) (v : List (Nat × Bool)) : (s.setSnoops v).ports = s.ports := rfl
@[simp] theorem State.setSnoops_serge (s : State) (v : List (Nat × Bool)) : (s.setSnoops v).serge = s.serge := rfl
@[simp] theorem State.setSnoops_pdies (s : State) (v : List (Nat × Bool)) : (s.setSnoops v).pdies = s.pdies := rfl
@[simp] theorem State.setSnoops_link (s : State) (v : List (Nat × Bool)) : (s.setSnoops v).link = s.link := rfl
@[simp] theorem State.setSnoops_vectors (s : State) (v : List (Nat × Bool)) : (s.setSnoops v).vectors = s.vectors := rfl
@[simp] theorem State.setSnoops_mailboxes (s : State) (v : List (Nat × Bool)) : (s.setSnoops v).mailboxes = s.mailboxes := rfl
@[simp] theorem State.setSnoops_rolser (s : State) (v : List (Nat × Bool)) : (s.setSnoops v).rolser = s.rolser := rfl
@[simp] theorem State.setSnoops_trust (s : State) (v : List (Nat × Bool)) : (s.setSnoops v).trust = s.trust := rfl
@[simp] theorem State.setSnoops_boot (s : State) (v : List (Nat × Bool)) : (s.setSnoops v).boot = s.boot := rfl
@[simp] theorem State.setSnoops_pins (s : State) (v : List (Nat × Bool)) : (s.setSnoops v).pins = s.pins := rfl
@[simp] theorem State.setSnoops_power (s : State) (v : List (Nat × Bool)) : (s.setSnoops v).power = s.power := rfl
@[simp] theorem State.setSnoops_ripstop (s : State) (v : List (Nat × Bool)) : (s.setSnoops v).ripstop = s.ripstop := rfl
@[simp] theorem State.setSnoops_xft (s : State) (v : List (Nat × Bool)) : (s.setSnoops v).xft = s.xft := rfl
@[simp] theorem State.setSnoops_ethTx (s : State) (v : List (Nat × Bool)) : (s.setSnoops v).ethTx = s.ethTx := rfl
@[simp] theorem State.setSnoops_snoops (s : State) (v : List (Nat × Bool)) : (s.setSnoops v).snoops = v := rfl
@[simp] theorem State.setSnoops_order (s : State) (v : List (Nat × Bool)) : (s.setSnoops v).order = s.order := rfl
@[simp] theorem State.setOrder_pending (s : State) (v : Nat) : (s.setOrder v).pending = s.pending := rfl
@[simp] theorem State.setOrder_now (s : State) (v : Nat) : (s.setOrder v).now = s.now := rfl
@[simp] theorem State.setOrder_draws (s : State) (v : Nat) : (s.setOrder v).draws = s.draws := rfl
@[simp] theorem State.setOrder_mem (s : State) (v : Nat) : (s.setOrder v).mem = s.mem := rfl
@[simp] theorem State.setOrder_ctrs (s : State) (v : Nat) : (s.setOrder v).ctrs = s.ctrs := rfl
@[simp] theorem State.setOrder_queues (s : State) (v : Nat) : (s.setOrder v).queues = s.queues := rfl
@[simp] theorem State.setOrder_parts (s : State) (v : Nat) : (s.setOrder v).parts = s.parts := rfl
@[simp] theorem State.setOrder_vcs (s : State) (v : Nat) : (s.setOrder v).vcs = s.vcs := rfl
@[simp] theorem State.setOrder_mus (s : State) (v : Nat) : (s.setOrder v).mus = s.mus := rfl
@[simp] theorem State.setOrder_pipes (s : State) (v : Nat) : (s.setOrder v).pipes = s.pipes := rfl
@[simp] theorem State.setOrder_slices (s : State) (v : Nat) : (s.setOrder v).slices = s.slices := rfl
@[simp] theorem State.setOrder_dies (s : State) (v : Nat) : (s.setOrder v).dies = s.dies := rfl
@[simp] theorem State.setOrder_ports (s : State) (v : Nat) : (s.setOrder v).ports = s.ports := rfl
@[simp] theorem State.setOrder_serge (s : State) (v : Nat) : (s.setOrder v).serge = s.serge := rfl
@[simp] theorem State.setOrder_pdies (s : State) (v : Nat) : (s.setOrder v).pdies = s.pdies := rfl
@[simp] theorem State.setOrder_link (s : State) (v : Nat) : (s.setOrder v).link = s.link := rfl
@[simp] theorem State.setOrder_vectors (s : State) (v : Nat) : (s.setOrder v).vectors = s.vectors := rfl
@[simp] theorem State.setOrder_mailboxes (s : State) (v : Nat) : (s.setOrder v).mailboxes = s.mailboxes := rfl
@[simp] theorem State.setOrder_rolser (s : State) (v : Nat) : (s.setOrder v).rolser = s.rolser := rfl
@[simp] theorem State.setOrder_trust (s : State) (v : Nat) : (s.setOrder v).trust = s.trust := rfl
@[simp] theorem State.setOrder_boot (s : State) (v : Nat) : (s.setOrder v).boot = s.boot := rfl
@[simp] theorem State.setOrder_pins (s : State) (v : Nat) : (s.setOrder v).pins = s.pins := rfl
@[simp] theorem State.setOrder_power (s : State) (v : Nat) : (s.setOrder v).power = s.power := rfl
@[simp] theorem State.setOrder_ripstop (s : State) (v : Nat) : (s.setOrder v).ripstop = s.ripstop := rfl
@[simp] theorem State.setOrder_xft (s : State) (v : Nat) : (s.setOrder v).xft = s.xft := rfl
@[simp] theorem State.setOrder_ethTx (s : State) (v : Nat) : (s.setOrder v).ethTx = s.ethTx := rfl
@[simp] theorem State.setOrder_snoops (s : State) (v : Nat) : (s.setOrder v).snoops = s.snoops := rfl
@[simp] theorem State.setOrder_order (s : State) (v : Nat) : (s.setOrder v).order = v := rfl

end Sys2Proof.Machine
end

