-- ==== Sys2Proof/Laws/Ops.lean ====
section
/-! SUPPORT. Laws of the indexed lists and of memory: what reads after a write give, and that every operation keeps the
canonical form. -/

namespace Sys2Proof.Machine

open Sys2Proof

/-! ### Rising lists -/

theorem rising_iff {α : Type} (m : List (Nat × α)) : rising m = true ↔ m.Pairwise (fun a b => a.1 < b.1) := by
  induction m with
  | nil => simp [rising]
  | cons a r ih =>
    cases r with
    | nil => simp [rising]
    | cons b r =>
      rw [rising, Bool.and_eq_true, decide_eq_true_iff, ih, List.pairwise_cons (a := a), List.pairwise_cons]
      constructor
      · rintro ⟨hab, hb, hr⟩
        refine ⟨?_, hb, hr⟩
        intro c hc
        rcases List.mem_cons.1 hc with rfl | hc
        · exact hab
        · exact hab.trans (hb c hc)
      · rintro ⟨ha, hb, hr⟩
        exact ⟨ha b (by simp), hb, hr⟩

theorem tget_of_not_mem {α : Type} (d : α) (m : List (Nat × α)) (k : Nat) (h : ∀ e ∈ m, e.1 ≠ k) : tget d m k = d := by
  induction m with
  | nil => rfl
  | cons a r ih => simp [tget, h a (by simp), ih (fun e he => h e (by simp [he]))]

theorem tget_append {α : Type} (d : α) (m n : List (Nat × α)) (k : Nat) (h : ∀ e ∈ m, e.1 ≠ k) : tget d (m ++ n) k = tget d n k := by
  induction m with
  | nil => rfl
  | cons a r ih => simp [tget, h a (by simp), ih (fun e he => h e (by simp [he]))]

theorem tget_append_left {α : Type} (d : α) (m n : List (Nat × α)) (k : Nat) (h : ∀ e ∈ n, e.1 ≠ k) : tget d (m ++ n) k = tget d m k := by
  induction m with
  | nil => simpa [tget] using tget_of_not_mem d n k h
  | cons a r ih => simp only [List.cons_append, tget, ih]

theorem tget_filter {α : Type} (d : α) (m : List (Nat × α)) (k : Nat) (p : Nat × α → Bool) (h : ∀ v, p (k, v) = true) :
    tget d (m.filter p) k = tget d m k := by
  induction m with
  | nil => rfl
  | cons a r ih =>
    obtain ⟨i, v⟩ := a
    by_cases hi : i = k
    · subst hi; simp [List.filter, h v, tget]
    · cases hp : p (i, v) <;> simp [List.filter, hp, tget, hi, ih]

theorem tget_filter_out {α : Type} (d : α) (m : List (Nat × α)) (k : Nat) (p : Nat × α → Bool) (h : ∀ v, p (k, v) = false) :
    tget d (m.filter p) k = d :=
  tget_of_not_mem _ _ _ fun e he hk => by
    obtain ⟨i, v⟩ := e
    simp only at hk; subst hk
    simpa [h v] using (List.mem_filter.1 he).2

theorem tget_tdel {α : Type} (d : α) (m : List (Nat × α)) (k j : Nat) : tget d (tdel m k) j = if j = k then d else tget d m j := by
  by_cases h : j = k
  · subst h; simp [tdel, tget_filter_out]
  · simp only [h, if_false]; exact tget_filter _ _ _ _ (by simp [h])

theorem tget_tins {α : Type} (d v : α) (m : List (Nat × α)) (k j : Nat) (hm : ∀ e ∈ m, e.1 ≠ k) :
    tget d (tins k v m) j = if j = k then v else tget d m j := by
  induction m with
  | nil => by_cases h : k = j <;> simp [tins, tget, h, eq_comm]
  | cons a r ih =>
    obtain ⟨i, w⟩ := a
    have hi : i ≠ k := hm (i, w) (by simp)
    have ih := ih (fun e he => hm e (by simp [he]))
    unfold tins
    split
    · by_cases h : k = j
      · subst h; simp [tget]
      · simp [tget, h, Ne.symm h]
    · by_cases h : i = j
      · subst h; simp [tget, hi]
      · simp [tget, h, ih]

/-- A read of an indexed list after a write: the value there, every other one as before. -/
theorem tget_tset {α : Type} [DecidableEq α] (d v : α) (m : List (Nat × α)) (k j : Nat) :
    tget d (tset d m k v) j = if j = k then v else tget d m j := by
  unfold tset
  split
  · next h => subst h; rw [tget_tdel]
  · rw [tget_tins _ _ _ _ _ (by intro e he; simpa [tdel] using (List.mem_filter.1 he).2), tget_tdel]
    split <;> simp [*]

@[simp] theorem tget_tset_same {α : Type} [DecidableEq α] (d v : α) (m : List (Nat × α)) (k : Nat) : tget d (tset d m k v) k = v := by
  simp [tget_tset]
theorem tget_tset_ne {α : Type} [DecidableEq α] (d v : α) (m : List (Nat × α)) {k j : Nat} (h : j ≠ k) :
    tget d (tset d m k v) j = tget d m j := by simp [tget_tset, h]

theorem tget_tmod {α : Type} [DecidableEq α] (d : α) (m : List (Nat × α)) (k j : Nat) (f : α → α) :
    tget d (tmod d m k f) j = if j = k then f (tget d m k) else tget d m j := by simp [tmod, tget_tset]

theorem mem_tins {α : Type} (k : Nat) (v : α) (m : List (Nat × α)) (e : Nat × α) : e ∈ tins k v m ↔ e = (k, v) ∨ e ∈ m := by
  induction m with
  | nil => simp [tins]
  | cons a r ih =>
    unfold tins
    split
    · simp
    · simp only [List.mem_cons, ih]; tauto

theorem pairwise_tins {α : Type} (k : Nat) (v : α) (m : List (Nat × α)) (hm : m.Pairwise (fun a b => a.1 < b.1))
    (hk : ∀ e ∈ m, e.1 ≠ k) : (tins k v m).Pairwise (fun a b => a.1 < b.1) := by
  induction m with
  | nil => simp [tins]
  | cons a r ih =>
    have ⟨ha, hr⟩ := List.pairwise_cons.1 hm
    unfold tins
    split
    · next h =>
      refine List.pairwise_cons.2 ⟨?_, hm⟩
      intro c hc
      rcases List.mem_cons.1 hc with rfl | hc
      · exact h
      · exact Nat.lt_trans h (ha c hc)
    · next h =>
      refine List.pairwise_cons.2 ⟨?_, ih hr (fun e he => hk e (by simp [he]))⟩
      intro c hc
      rcases (mem_tins _ _ _ _).1 hc with rfl | hc
      · have := hk a (by simp); simp at h ⊢; omega
      · exact ha c hc

/-- Writing an indexed list keeps its indices rising. -/
theorem rising_tset {α : Type} [DecidableEq α] (d v : α) (m : List (Nat × α)) (k : Nat) (h : rising m = true) : rising (tset d m k v) = true := by
  rw [rising_iff] at h ⊢
  unfold tset
  split
  · exact h.filter _
  · exact pairwise_tins _ _ _ (h.filter _) (by intro e he; simpa [tdel] using (List.mem_filter.1 he).2)

/-! ### Memory -/

theorem memWf_iff (m : List Host.Cell) : memWf m = true ↔ m.Pairwise (fun a b => a.1 < b.1) ∧ ∀ c ∈ m, c.2 ≠ 0 := by
  simp [memWf, rising_iff]

theorem mem_cells (a : Nat) (b : Bytes) (c : Host.Cell) (h : c ∈ cells a b) : a ≤ c.1 ∧ c.1 < a + b.length ∧ c.2 ≠ 0 := by
  induction b generalizing a with
  | nil => simp [cells] at h
  | cons x r ih =>
    unfold cells at h
    split at h
    · have := ih _ h
      exact ⟨by omega, by simp only [List.length_cons]; omega, this.2.2⟩
    · next hx =>
      rcases List.mem_cons.1 h with rfl | h
      · simpa using hx
      · have := ih _ h
        exact ⟨by omega, by simp only [List.length_cons]; omega, this.2.2⟩

theorem cells_pairwise (a : Nat) (b : Bytes) : (cells a b).Pairwise (fun x y => x.1 < y.1) := by
  induction b generalizing a with
  | nil => simp [cells]
  | cons x r ih =>
    unfold cells
    split
    · exact ih _
    · refine List.pairwise_cons.2 ⟨?_, ih _⟩
      intro c hc
      have := mem_cells _ _ _ hc
      simp; omega

theorem tget_cells (a : Nat) (b : Bytes) (x : Nat) : tget 0 (cells a b) x = if a ≤ x ∧ x < a + b.length then b.getD (x - a) 0 else 0 := by
  induction b generalizing a with
  | nil => simp [cells, tget]
  | cons y r ih =>
    unfold cells
    by_cases hx : x = a
    · subst hx
      split
      · next hy => rw [ih]; simp [hy]
      · simp [tget]
    · have key : (if a ≤ x ∧ x < a + (y :: r).length then (y :: r).getD (x - a) 0 else 0)
          = if a + 1 ≤ x ∧ x < a + 1 + r.length then r.getD (x - (a + 1)) 0 else (0 : Byte) := by
        by_cases h : a + 1 ≤ x ∧ x < a + 1 + r.length
        · have h1 : a ≤ x ∧ x < a + (y :: r).length := by simp; omega
          have h2 : x - a = (x - (a + 1)) + 1 := by omega
          rw [if_pos h, if_pos h1, h2]; simp
        · have h1 : ¬(a ≤ x ∧ x < a + (y :: r).length) := by simp; omega
          rw [if_neg h, if_neg h1]
      rw [key]
      split
      · exact ih _
      · rw [tget, if_neg (Ne.symm hx)]; exact ih _

/-- A write keeps the canonical form of memory. -/
theorem memWf_write (m : List Host.Cell) (a : Nat) (b : Bytes) (h : memWf m = true) : memWf (memWrite m a b) = true := by
  rw [memWf_iff] at h ⊢
  obtain ⟨hp, hz⟩ := h
  constructor
  · unfold memWrite
    refine List.pairwise_append.2 ⟨List.pairwise_append.2 ⟨hp.filter _, cells_pairwise _ _, ?_⟩, hp.filter _, ?_⟩
    · intro x hx y hy
      have := mem_cells _ _ _ hy
      have := (List.mem_filter.1 hx).2
      simp at this; omega
    · intro x hx y hy
      have hy := (List.mem_filter.1 hy).2
      simp at hy
      rcases List.mem_append.1 hx with hx | hx
      · have := (List.mem_filter.1 hx).2
        simp at this; omega
      · have := mem_cells _ _ _ hx; omega
  · intro c hc
    unfold memWrite at hc
    rcases List.mem_append.1 hc with hc | hc
    · rcases List.mem_append.1 hc with hc | hc
      · exact hz c (List.mem_filter.1 hc).1
      · exact (mem_cells _ _ _ hc).2.2
    · exact hz c (List.mem_filter.1 hc).1

/-- A wipe keeps the canonical form of memory. -/
theorem memWf_wipe (m : List Host.Cell) (a n : Nat) (h : memWf m = true) : memWf (memWipe m a n) = true := by
  rw [memWf_iff] at h ⊢
  obtain ⟨hp, hz⟩ := h
  constructor
  · refine List.pairwise_append.2 ⟨hp.filter _, hp.filter _, ?_⟩
    intro x hx y hy
    have := (List.mem_filter.1 hx).2
    have := (List.mem_filter.1 hy).2
    simp at *; omega
  · intro c hc
    rcases List.mem_append.1 hc with hc | hc <;> exact hz c (List.mem_filter.1 hc).1

/-- A copy keeps the canonical form of memory. -/
theorem memWf_copy (m : List Host.Cell) (a b n : Nat) (h : memWf m = true) : memWf (memCopy m a b n) = true := by
  rw [memWf_iff] at h ⊢
  obtain ⟨hp, hz⟩ := h
  have hmid : ∀ c ∈ (m.filter fun c => a ≤ c.1 ∧ c.1 < a + n).map (fun c => ((c.1 - a + b, c.2) : Host.Cell)),
      b ≤ c.1 ∧ c.1 < b + n ∧ c.2 ≠ 0 := by
    intro c hc
    obtain ⟨e, he, rfl⟩ := List.mem_map.1 hc
    have h1 := (List.mem_filter.1 he).2
    have h2 := hz e (List.mem_filter.1 he).1
    simp at h1
    exact ⟨by simp, by simp; omega, h2⟩
  constructor
  · unfold memCopy
    refine List.pairwise_append.2 ⟨List.pairwise_append.2 ⟨hp.filter _, ?_, ?_⟩, hp.filter _, ?_⟩
    · rw [List.pairwise_map]
      refine (hp.filter _).imp_of_mem ?_
      intro x y hx hy hxy
      have := (List.mem_filter.1 hx).2
      have := (List.mem_filter.1 hy).2
      simp at *; omega
    · intro x hx y hy
      have := hmid y hy
      have := (List.mem_filter.1 hx).2
      simp at this; omega
    · intro x hx y hy
      have hy := (List.mem_filter.1 hy).2
      simp at hy
      rcases List.mem_append.1 hx with hx | hx
      · have := (List.mem_filter.1 hx).2
        simp at this; omega
      · have := hmid x hx; omega
  · intro c hc
    unfold memCopy at hc
    rcases List.mem_append.1 hc with hc | hc
    · rcases List.mem_append.1 hc with hc | hc
      · exact hz c (List.mem_filter.1 hc).1
      · exact (hmid c hc).2.2
    · exact hz c (List.mem_filter.1 hc).1

/-- A byte after a write: the byte written, or the byte that was there. -/
theorem cellAt_write (m : List Host.Cell) (a : Nat) (b : Bytes) (x : Nat) :
    cellAt (memWrite m a b) x = if a ≤ x ∧ x < a + b.length then b.getD (x - a) 0 else cellAt m x := by
  unfold cellAt memWrite
  by_cases h : a ≤ x ∧ x < a + b.length
  · rw [if_pos h, List.append_assoc, tget_append, tget_append_left, tget_cells, if_pos h]
    · intro e he
      have := (List.mem_filter.1 he).2
      simp at this; omega
    · intro e he
      have := (List.mem_filter.1 he).2
      simp at this; omega
  · rw [if_neg h]
    by_cases hx : x < a
    · rw [List.append_assoc, tget_append_left, tget_filter]
      · simpa using hx
      · intro e he
        rcases List.mem_append.1 he with he | he
        · have := mem_cells _ _ _ he; omega
        · have := (List.mem_filter.1 he).2
          simp at this; omega
    · rw [tget_append, tget_filter]
      · simp; omega
      · intro e he
        rcases List.mem_append.1 he with he | he
        · have := (List.mem_filter.1 he).2
          simp at this; omega
        · have := mem_cells _ _ _ he; omega

/-- A byte after a wipe: zero within it, else the byte that was there. -/
theorem cellAt_wipe (m : List Host.Cell) (a n x : Nat) :
    cellAt (memWipe m a n) x = if a ≤ x ∧ x < a + n then 0 else cellAt m x := by
  unfold cellAt memWipe
  by_cases h : a ≤ x ∧ x < a + n
  · rw [if_pos h]
    refine tget_of_not_mem _ _ _ ?_
    intro e he
    rcases List.mem_append.1 he with he | he
    · have := (List.mem_filter.1 he).2
      simp at this; omega
    · have := (List.mem_filter.1 he).2
      simp at this; omega
  · rw [if_neg h]
    by_cases hx : x < a
    · rw [tget_append_left, tget_filter]
      · simpa using hx
      · intro e he
        have := (List.mem_filter.1 he).2
        simp at this; omega
    · rw [tget_append, tget_filter]
      · simp; omega
      · intro e he
        have := (List.mem_filter.1 he).2
        simp at this; omega

/-- memRead reads byte by byte. -/
theorem memRead_getD (m : List Host.Cell) (a n i : Nat) (h : i < n) : (memRead m a n).getD i 0 = cellAt m (a + i) := by
  unfold memRead cellAt
  simp only [List.getD_eq_getElem?_getD, List.getElem?_map, List.getElem?_range h, Option.map_some, Option.getD_some]
  exact tget_filter _ _ _ _ (by intro v; simp; omega)

/-! ### Byte strings -/

@[simp] theorem toLe_length (n x : Nat) : (toLe n x).length = n := by
  induction n generalizing x with
  | zero => rfl
  | succ n ih => simp [toLe, ih]

/-- A number's low bytes, read back, are the number modulo their range. -/
theorem leNat_toLe (n x : Nat) : leNat (toLe n x) = x % 256 ^ n := by
  induction n generalizing x with
  | zero => simp [toLe, leNat, Nat.mod_one]
  | succ n ih => rw [toLe, leNat, ih, BitVec.toNat_ofNat, show (2 : Nat) ^ 8 = 256 by decide, pow_succ', Nat.mod_mul]

theorem leNat_lt (b : Bytes) : leNat b < 256 ^ b.length := by
  induction b with
  | nil => simp [leNat]
  | cons a r ih => have := a.isLt; simp only [leNat, List.length_cons, pow_succ]; omega

@[simp] theorem slice_length (b : Bytes) (o n : Nat) : (slice b o n).length = n := by
  simp only [slice, List.length_append, List.length_replicate, List.length_take]; omega

end Sys2Proof.Machine
end

