-- ==== Sys2Proof/Laws/KeepsCore.lean ====
section
/-! SUPPORT. What every shared operation keeps: the queue of waiting commands, memory's canonical form, the blown
fuses and the ranges of the transport parameters. One lemma per operation, cited and never unfolded. -/

set_option linter.unusedTactic false
set_option linter.unreachableTactic false
set_option linter.unusedVariables false
namespace Sys2Proof.Machine
open Sys2Proof

/-- These fields are among those. -/
def Among (a b : List FieldName) : Prop := ∀ f ∈ a, f ∈ b
theorem Among.mono {a b c : List FieldName} (hb : Among b c) (h : ∀ f ∈ a, f ∈ b) : Among a c := fun f hf => hb f (h f hf)
theorem among_refl (a : List FieldName) : Among a a := fun _ h => h

/-- What an operation that writes the fields ws alone keeps: the queue of waiting commands, memory's canonical form, the
blown fuses, the ranges of the transport parameters, and every other field as it stands. -/
structure Keeps (ws : List FieldName) (s t : State) : Prop where
  pending : t.pending = s.pending
  mem : memWf s.mem = true → memWf t.mem = true
  fuses : FusesStand s.trust t.trust
  xft : s.xft.inRange → t.xft.inRange
  same : ∀ f, f ∉ ws → f.same s t

theorem fusesStand_refl (t : Trust) : FusesStand t t := ⟨id, le_rfl, id, le_rfl⟩
theorem fusesStand_trans {a b c : Trust} (h : FusesStand a b) (g : FusesStand b c) : FusesStand a c :=
  ⟨g.1 ∘ h.1, h.2.1.trans g.2.1, g.2.2.1 ∘ h.2.2.1, h.2.2.2.trans g.2.2.2⟩
theorem same_refl (s : State) (f : FieldName) : f.same s s := by cases f <;> rfl
theorem same_trans {a b c : State} {f : FieldName} (h : f.same a b) (g : f.same b c) : f.same a c := by
  cases f <;> exact Eq.trans g h
theorem keeps_refl (ws : List FieldName) (s : State) : Keeps ws s s := ⟨rfl, id, fusesStand_refl _, id, fun f _ => same_refl s f⟩
theorem keeps_trans {ws : List FieldName} {a b c : State} (h : Keeps ws a b) (g : Keeps ws b c) : Keeps ws a c :=
  ⟨g.pending.trans h.pending, g.mem ∘ h.mem, fusesStand_trans h.fuses g.fuses, g.xft ∘ h.xft,
    fun f hf => same_trans (h.same f hf) (g.same f hf)⟩
/-- An operation that writes the fields a, all of them among ws. -/
theorem keeps_step {ws a : List FieldName} {z s t : State} (hw : Among a ws) (h : Keeps ws z s) (g : Keeps a s t) : Keeps ws z t :=
  ⟨g.pending.trans h.pending, g.mem ∘ h.mem, fusesStand_trans h.fuses g.fuses, g.xft ∘ h.xft,
    fun f hf => same_trans (h.same f hf) (g.same f fun ha => hf (hw f ha))⟩
theorem keeps_foldl {ws : List FieldName} {α : Type} {z s : State} {f : State → α → State} {l : List α}
    (hf : ∀ s x, Keeps ws z s → Keeps ws z (f s x)) (h : Keeps ws z s) : Keeps ws z (l.foldl f s) := by
  induction l generalizing s with
  | nil => exact h
  | cons a r ih => exact ih (hf _ _ h)
theorem keeps_setMem {ws : List FieldName} (hw : Among [.mem] ws) {z s : State} {v : List Host.Cell}
    (hv : memWf s.mem = true → memWf v = true) (h : Keeps ws z s) : Keeps ws z (s.setMem v) :=
  keeps_step hw h ⟨rfl, hv, fusesStand_refl _, id, fun f hf => by cases f <;> first | rfl | exact absurd (by simp) hf⟩
theorem keeps_setTrust {ws : List FieldName} (hw : Among [.trust] ws) {z s : State} {v : Trust} (hv : FusesStand s.trust v)
    (h : Keeps ws z s) : Keeps ws z (s.setTrust v) :=
  keeps_step hw h ⟨rfl, id, hv, id, fun f hf => by cases f <;> first | rfl | exact absurd (by simp) hf⟩
theorem keeps_setXft {ws : List FieldName} (hw : Among [.xft] ws) {z s : State} {v : Xft} (hv : s.xft.inRange → v.inRange)
    (h : Keeps ws z s) : Keeps ws z (s.setXft v) :=
  keeps_step hw h ⟨rfl, id, fusesStand_refl _, hv, fun f hf => by cases f <;> first | rfl | exact absurd (by simp) hf⟩
/-- The state of a pair is kept. -/
def Keeps1 (ws : List FieldName) {β : Type} (z : State) (p : State × β) : Prop := Keeps ws z p.1
theorem keeps1_mk {ws : List FieldName} {β : Type} {z s : State} {b : β} (h : Keeps ws z s) : Keeps1 ws z (s, b) := h
theorem keeps1_ite {ws : List FieldName} {β : Type} {z : State} {c : Prop} [Decidable c] {a b : State × β} (ha : Keeps1 ws z a)
    (hb : Keeps1 ws z b) : Keeps1 ws z (if c then a else b) := by
  split
  · exact ha
  · exact hb
theorem keeps1_fst {ws : List FieldName} {β : Type} {z : State} {p : State × β} (h : Keeps1 ws z p) : Keeps ws z p.1 := h
theorem keeps_foldl1 {ws : List FieldName} {α β : Type} {z : State} {f : State × β → α → State × β} {l : List α} {a : State × β}
    (hf : ∀ a x, Keeps1 ws z a → Keeps1 ws z (f a x)) (h : Keeps1 ws z a) : Keeps1 ws z (l.foldl f a) := by
  induction l generalizing a with
  | nil => exact h
  | cons x r ih => exact ih (hf _ _ h)
theorem keeps_ite {ws : List FieldName} {z : State} {c : Prop} [Decidable c] {a b : State} (ha : Keeps ws z a)
    (hb : Keeps ws z b) : Keeps ws z (if c then a else b) := by
  split
  · exact ha
  · exact hb
theorem keeps_setNow {ws : List FieldName} (hw : Among [.now] ws) {z s : State} {v : BitVec 64} (hk : Keeps ws z s) : Keeps ws z (s.setNow v) :=
  keeps_step hw hk ⟨rfl, id, fusesStand_refl _, id, fun f hf => by cases f <;> first | rfl | exact absurd (by simp) hf⟩
theorem keeps_setDraws {ws : List FieldName} (hw : Among [.draws] ws) {z s : State} {v : Nat} (hk : Keeps ws z s) : Keeps ws z (s.setDraws v) :=
  keeps_step hw hk ⟨rfl, id, fusesStand_refl _, id, fun f hf => by cases f <;> first | rfl | exact absurd (by simp) hf⟩
theorem keeps_setCtrs {ws : List FieldName} (hw : Among [.ctrs] ws) {z s : State} {v : List (Nat × BitVec 64)} (hk : Keeps ws z s) : Keeps ws z (s.setCtrs v) :=
  keeps_step hw hk ⟨rfl, id, fusesStand_refl _, id, fun f hf => by cases f <;> first | rfl | exact absurd (by simp) hf⟩
theorem keeps_setQueues {ws : List FieldName} (hw : Among [.queues] ws) {z s : State} {v : List (Nat × QCtx)} (hk : Keeps ws z s) : Keeps ws z (s.setQueues v) :=
  keeps_step hw hk ⟨rfl, id, fusesStand_refl _, id, fun f hf => by cases f <;> first | rfl | exact absurd (by simp) hf⟩
theorem keeps_setParts {ws : List FieldName} (hw : Among [.parts] ws) {z s : State} {v : List (Nat × Part)} (hk : Keeps ws z s) : Keeps ws z (s.setParts v) :=
  keeps_step hw hk ⟨rfl, id, fusesStand_refl _, id, fun f hf => by cases f <;> first | rfl | exact absurd (by simp) hf⟩
theorem keeps_setVcs {ws : List FieldName} (hw : Among [.vcs] ws) {z s : State} {v : List (Nat × Vc)} (hk : Keeps ws z s) : Keeps ws z (s.setVcs v) :=
  keeps_step hw hk ⟨rfl, id, fusesStand_refl _, id, fun f hf => by cases f <;> first | rfl | exact absurd (by simp) hf⟩
theorem keeps_setMus {ws : List FieldName} (hw : Among [.mus] ws) {z s : State} {v : List (Nat × Mu)} (hk : Keeps ws z s) : Keeps ws z (s.setMus v) :=
  keeps_step hw hk ⟨rfl, id, fusesStand_refl _, id, fun f hf => by cases f <;> first | rfl | exact absurd (by simp) hf⟩
theorem keeps_setPipes {ws : List FieldName} (hw : Among [.pipes] ws) {z s : State} {v : List (Nat × Pipe)} (hk : Keeps ws z s) : Keeps ws z (s.setPipes v) :=
  keeps_step hw hk ⟨rfl, id, fusesStand_refl _, id, fun f hf => by cases f <;> first | rfl | exact absurd (by simp) hf⟩
theorem keeps_setSlices {ws : List FieldName} (hw : Among [.slices] ws) {z s : State} {v : List (Nat × Slice)} (hk : Keeps ws z s) : Keeps ws z (s.setSlices v) :=
  keeps_step hw hk ⟨rfl, id, fusesStand_refl _, id, fun f hf => by cases f <;> first | rfl | exact absurd (by simp) hf⟩
theorem keeps_setDies {ws : List FieldName} (hw : Among [.dies] ws) {z s : State} {v : List (Nat × Die)} (hk : Keeps ws z s) : Keeps ws z (s.setDies v) :=
  keeps_step hw hk ⟨rfl, id, fusesStand_refl _, id, fun f hf => by cases f <;> first | rfl | exact absurd (by simp) hf⟩
theorem keeps_setPorts {ws : List FieldName} (hw : Among [.ports] ws) {z s : State} {v : List (Nat × Port)} (hk : Keeps ws z s) : Keeps ws z (s.setPorts v) :=
  keeps_step hw hk ⟨rfl, id, fusesStand_refl _, id, fun f hf => by cases f <;> first | rfl | exact absurd (by simp) hf⟩
theorem keeps_setSerge {ws : List FieldName} (hw : Among [.serge] ws) {z s : State} {v : List (Nat × SergeMod)} (hk : Keeps ws z s) : Keeps ws z (s.setSerge v) :=
  keeps_step hw hk ⟨rfl, id, fusesStand_refl _, id, fun f hf => by cases f <;> first | rfl | exact absurd (by simp) hf⟩
theorem keeps_setPdies {ws : List FieldName} (hw : Among [.pdies] ws) {z s : State} {v : List (Nat × Pdie)} (hk : Keeps ws z s) : Keeps ws z (s.setPdies v) :=
  keeps_step hw hk ⟨rfl, id, fusesStand_refl _, id, fun f hf => by cases f <;> first | rfl | exact absurd (by simp) hf⟩
theorem keeps_setLink {ws : List FieldName} (hw : Among [.link] ws) {z s : State} {v : Link} (hk : Keeps ws z s) : Keeps ws z (s.setLink v) :=
  keeps_step hw hk ⟨rfl, id, fusesStand_refl _, id, fun f hf => by cases f <;> first | rfl | exact absurd (by simp) hf⟩
theorem keeps_setVectors {ws : List FieldName} (hw : Among [.vectors] ws) {z s : State} {v : List (Nat × IVec)} (hk : Keeps ws z s) : Keeps ws z (s.setVectors v) :=
  keeps_step hw hk ⟨rfl, id, fusesStand_refl _, id, fun f hf => by cases f <;> first | rfl | exact absurd (by simp) hf⟩
theorem keeps_setMailboxes {ws : List FieldName} (hw : Among [.mailboxes] ws) {z s : State} {v : List (Nat × Mailbox)} (hk : Keeps ws z s) : Keeps ws z (s.setMailboxes v) :=
  keeps_step hw hk ⟨rfl, id, fusesStand_refl _, id, fun f hf => by cases f <;> first | rfl | exact absurd (by simp) hf⟩
theorem keeps_setRolser {ws : List FieldName} (hw : Among [.rolser] ws) {z s : State} {v : Rolser} (hk : Keeps ws z s) : Keeps ws z (s.setRolser v) :=
  keeps_step hw hk ⟨rfl, id, fusesStand_refl _, id, fun f hf => by cases f <;> first | rfl | exact absurd (by simp) hf⟩
theorem keeps_setBoot {ws : List FieldName} (hw : Among [.boot] ws) {z s : State} {v : Boot} (hk : Keeps ws z s) : Keeps ws z (s.setBoot v) :=
  keeps_step hw hk ⟨rfl, id, fusesStand_refl _, id, fun f hf => by cases f <;> first | rfl | exact absurd (by simp) hf⟩
theorem keeps_setPins {ws : List FieldName} (hw : Among [.pins] ws) {z s : State} {v : Pins} (hk : Keeps ws z s) : Keeps ws z (s.setPins v) :=
  keeps_step hw hk ⟨rfl, id, fusesStand_refl _, id, fun f hf => by cases f <;> first | rfl | exact absurd (by simp) hf⟩
theorem keeps_setPower {ws : List FieldName} (hw : Among [.power] ws) {z s : State} {v : Power} (hk : Keeps ws z s) : Keeps ws z (s.setPower v) :=
  keeps_step hw hk ⟨rfl, id, fusesStand_refl _, id, fun f hf => by cases f <;> first | rfl | exact absurd (by simp) hf⟩
theorem keeps_setRipstop {ws : List FieldName} (hw : Among [.ripstop] ws) {z s : State} {v : Ripstop} (hk : Keeps ws z s) : Keeps ws z (s.setRipstop v) :=
  keeps_step hw hk ⟨rfl, id, fusesStand_refl _, id, fun f hf => by cases f <;> first | rfl | exact absurd (by simp) hf⟩
theorem keeps_setEthTx {ws : List FieldName} (hw : Among [.ethTx] ws) {z s : State} {v : List (Nat × List (BitVec 8))} (hk : Keeps ws z s) : Keeps ws z (s.setEthTx v) :=
  keeps_step hw hk ⟨rfl, id, fusesStand_refl _, id, fun f hf => by cases f <;> first | rfl | exact absurd (by simp) hf⟩
theorem keeps_setOrder {ws : List FieldName} (hw : Among [.order] ws) {z s : State} {v : Nat} (hk : Keeps ws z s) : Keeps ws z (s.setOrder v) :=
  keeps_step hw hk ⟨rfl, id, fusesStand_refl _, id, fun f hf => by cases f <;> first | rfl | exact absurd (by simp) hf⟩
theorem keeps_setSnoops {ws : List FieldName} (hw : Among [.snoops] ws) {z s : State} {v : List (Nat × Bool)} (hk : Keeps ws z s) : Keeps ws z (s.setSnoops v) :=
  keeps_step hw hk ⟨rfl, id, fusesStand_refl _, id, fun f hf => by cases f <;> first | rfl | exact absurd (by simp) hf⟩

/-! ### Ops -/

theorem keeps_putPart {ws : List FieldName} (hw : Among [.parts] ws) {z s : State} (hk : Keeps ws z s) (k : Nat) (v : Part) :
    Keeps ws z (State.putPart s k v) := by
  unfold State.putPart; try dsimp only
  repeat' (with_reducible first | exact hk | apply keeps_setParts (hw.mono (by decide))  | apply keeps_ite | intro _ _ hk | split)
theorem keeps_putQueue {ws : List FieldName} (hw : Among [.queues] ws) {z s : State} (hk : Keeps ws z s) (q : Nat) (v : QCtx) :
    Keeps ws z (State.putQueue s q v) := by
  unfold State.putQueue; try dsimp only
  repeat' (with_reducible first | exact hk | apply keeps_setQueues (hw.mono (by decide))  | apply keeps_ite | intro _ _ hk | split)
theorem keeps_putVc {ws : List FieldName} (hw : Among [.vcs] ws) {z s : State} (hk : Keeps ws z s) (i : Nat) (v : Vc) :
    Keeps ws z (State.putVc s i v) := by
  unfold State.putVc; try dsimp only
  repeat' (with_reducible first | exact hk | apply keeps_setVcs (hw.mono (by decide))  | apply keeps_ite | intro _ _ hk | split)
theorem keeps_putMu {ws : List FieldName} (hw : Among [.mus] ws) {z s : State} (hk : Keeps ws z s) (i : Nat) (v : Mu) :
    Keeps ws z (State.putMu s i v) := by
  unfold State.putMu; try dsimp only
  repeat' (with_reducible first | exact hk | apply keeps_setMus (hw.mono (by decide))  | apply keeps_ite | intro _ _ hk | split)
theorem keeps_putPipe {ws : List FieldName} (hw : Among [.pipes] ws) {z s : State} (hk : Keeps ws z s) (i : Nat) (v : Pipe) :
    Keeps ws z (State.putPipe s i v) := by
  unfold State.putPipe; try dsimp only
  repeat' (with_reducible first | exact hk | apply keeps_setPipes (hw.mono (by decide))  | apply keeps_ite | intro _ _ hk | split)
theorem keeps_putSlice {ws : List FieldName} (hw : Among [.slices] ws) {z s : State} (hk : Keeps ws z s) (i : Nat) (v : Slice) :
    Keeps ws z (State.putSlice s i v) := by
  unfold State.putSlice; try dsimp only
  repeat' (with_reducible first | exact hk | apply keeps_setSlices (hw.mono (by decide))  | apply keeps_ite | intro _ _ hk | split)
theorem keeps_putDie {ws : List FieldName} (hw : Among [.dies] ws) {z s : State} (hk : Keeps ws z s) (d : Nat) (v : Die) :
    Keeps ws z (State.putDie s d v) := by
  unfold State.putDie; try dsimp only
  repeat' (with_reducible first | exact hk | apply keeps_setDies (hw.mono (by decide))  | apply keeps_ite | intro _ _ hk | split)
theorem keeps_putPort {ws : List FieldName} (hw : Among [.ports] ws) {z s : State} (hk : Keeps ws z s) (p : Nat) (v : Port) :
    Keeps ws z (State.putPort s p v) := by
  unfold State.putPort; try dsimp only
  repeat' (with_reducible first | exact hk | apply keeps_setPorts (hw.mono (by decide))  | apply keeps_ite | intro _ _ hk | split)
theorem keeps_putMailbox {ws : List FieldName} (hw : Among [.mailboxes] ws) {z s : State} (hk : Keeps ws z s) (d : Nat) (v : Mailbox) :
    Keeps ws z (State.putMailbox s d v) := by
  unfold State.putMailbox; try dsimp only
  repeat' (with_reducible first | exact hk | apply keeps_setMailboxes (hw.mono (by decide))  | apply keeps_ite | intro _ _ hk | split)
theorem keeps_putVec {ws : List FieldName} (hw : Among [.vectors] ws) {z s : State} (hk : Keeps ws z s) (i : Nat) (v : IVec) :
    Keeps ws z (State.putVec s i v) := by
  unfold State.putVec; try dsimp only
  repeat' (with_reducible first | exact hk | apply keeps_setVectors (hw.mono (by decide))  | apply keeps_ite | intro _ _ hk | split)
theorem keeps_modPart {ws : List FieldName} (hw : Among [.parts] ws) {z s : State} (hk : Keeps ws z s) (k : Nat) (f : Part → Part) :
    Keeps ws z (State.modPart s k f) := by
  unfold State.modPart; try dsimp only
  repeat' (with_reducible first | exact hk | apply keeps_putPart (hw.mono (by decide))  | apply keeps_ite | intro _ _ hk | split)
theorem keeps_modQueue {ws : List FieldName} (hw : Among [.queues] ws) {z s : State} (hk : Keeps ws z s) (q : Nat) (f : QCtx → QCtx) :
    Keeps ws z (State.modQueue s q f) := by
  unfold State.modQueue; try dsimp only
  repeat' (with_reducible first | exact hk | apply keeps_putQueue (hw.mono (by decide))  | apply keeps_ite | intro _ _ hk | split)
theorem keeps_modVc {ws : List FieldName} (hw : Among [.vcs] ws) {z s : State} (hk : Keeps ws z s) (v : Nat) (f : Vc → Vc) :
    Keeps ws z (State.modVc s v f) := by
  unfold State.modVc; try dsimp only
  repeat' (with_reducible first | exact hk | apply keeps_putVc (hw.mono (by decide))  | apply keeps_ite | intro _ _ hk | split)
theorem keeps_modMu {ws : List FieldName} (hw : Among [.mus] ws) {z s : State} (hk : Keeps ws z s) (m : Nat) (f : Mu → Mu) :
    Keeps ws z (State.modMu s m f) := by
  unfold State.modMu; try dsimp only
  repeat' (with_reducible first | exact hk | apply keeps_putMu (hw.mono (by decide))  | apply keeps_ite | intro _ _ hk | split)
theorem keeps_modPipe {ws : List FieldName} (hw : Among [.pipes] ws) {z s : State} (hk : Keeps ws z s) (p : Nat) (f : Pipe → Pipe) :
    Keeps ws z (State.modPipe s p f) := by
  unfold State.modPipe; try dsimp only
  repeat' (with_reducible first | exact hk | apply keeps_putPipe (hw.mono (by decide))  | apply keeps_ite | intro _ _ hk | split)
theorem keeps_modSlice {ws : List FieldName} (hw : Among [.slices] ws) {z s : State} (hk : Keeps ws z s) (i : Nat) (f : Slice → Slice) :
    Keeps ws z (State.modSlice s i f) := by
  unfold State.modSlice; try dsimp only
  repeat' (with_reducible first | exact hk | apply keeps_putSlice (hw.mono (by decide))  | apply keeps_ite | intro _ _ hk | split)
theorem keeps_modDie {ws : List FieldName} (hw : Among [.dies] ws) {z s : State} (hk : Keeps ws z s) (d : Nat) (f : Die → Die) :
    Keeps ws z (State.modDie s d f) := by
  unfold State.modDie; try dsimp only
  repeat' (with_reducible first | exact hk | apply keeps_putDie (hw.mono (by decide))  | apply keeps_ite | intro _ _ hk | split)
theorem keeps_modPort {ws : List FieldName} (hw : Among [.ports] ws) {z s : State} (hk : Keeps ws z s) (p : Nat) (f : Port → Port) :
    Keeps ws z (State.modPort s p f) := by
  unfold State.modPort; try dsimp only
  repeat' (with_reducible first | exact hk | apply keeps_putPort (hw.mono (by decide))  | apply keeps_ite | intro _ _ hk | split)
theorem keeps_modMailbox {ws : List FieldName} (hw : Among [.mailboxes] ws) {z s : State} (hk : Keeps ws z s) (d : Nat) (f : Mailbox → Mailbox) :
    Keeps ws z (State.modMailbox s d f) := by
  unfold State.modMailbox; try dsimp only
  repeat' (with_reducible first | exact hk | apply keeps_putMailbox (hw.mono (by decide))  | apply keeps_ite | intro _ _ hk | split)
theorem keeps_putBlock {ws : List FieldName} (hw : Among [.ripstop] ws) {z s : State} (hk : Keeps ws z s) (cls die idx : Nat) (b : Block) :
    Keeps ws z (State.putBlock s cls die idx b) := by
  unfold State.putBlock; try dsimp only
  repeat' (with_reducible first | exact hk | apply keeps_setRipstop (hw.mono (by decide))  | apply keeps_ite | intro _ _ hk | split)
theorem keeps_draw {ws : List FieldName} (hw : Among [.draws] ws) {z s : State} (hk : Keeps ws z s) (n : Nat) :
    Keeps ws z (State.draw s n).2 := by
  unfold State.draw; try dsimp only
  repeat' (with_reducible first | exact hk | apply keeps_setDraws (hw.mono (by decide))  | apply keeps_ite | intro _ _ hk | split)
theorem keeps_allotFar {ws : List FieldName} (hw : Among [.parts] ws) {z s : State} (hk : Keeps ws z s) (k n : Nat) :
    Keeps ws z (allotFar s k n) := by
  unfold allotFar; try dsimp only
  repeat' (with_reducible first | exact hk | apply keeps_modPart (hw.mono (by decide))  | apply keeps_ite | intro _ _ hk | split)
theorem keeps_noteMet {ws : List FieldName} (hw : Among [.snoops] ws) {z s : State} (hk : Keeps ws z s) (k a n : Nat) (write : Bool) :
    Keeps ws z (State.noteMet s k a n write) := by
  unfold State.noteMet; try dsimp only
  repeat' (with_reducible first | exact hk | apply keeps_setSnoops (hw.mono (by decide))  | apply keeps_ite | intro _ _ hk | split)
theorem keeps_noteRead {ws : List FieldName} (hw : Among [.parts, .snoops] ws) {z s : State} (hk : Keeps ws z s) (k a n : Nat) :
    Keeps ws z (State.noteRead s k a n) := by
  unfold State.noteRead; try dsimp only
  repeat' (with_reducible first | exact hk | apply keeps_modPart (hw.mono (by decide)) | apply keeps_noteMet (hw.mono (by decide))  | apply keeps_ite | intro _ _ hk | split)
theorem keeps_noteIf {ws : List FieldName} (hw : Among [.parts, .snoops] ws) {z s : State} (hk : Keeps ws z s) (k a n : Nat) :
    Keeps ws z (State.noteIf s k a n) := by
  unfold State.noteIf; split
  · exact keeps_noteRead hw hk k a n
  · exact hk
theorem memWf_fold {α : Type} {f : List Host.Cell → α → List Host.Cell} {l : List α} {m : List Host.Cell}
    (hf : ∀ m x, memWf m = true → memWf (f m x) = true) (h : memWf m = true) : memWf (l.foldl f m) = true := by
  induction l generalizing m with
  | nil => exact h
  | cons a r ih => exact ih (hf _ _ h)
theorem keeps_store {ws : List FieldName} (hw : Among [.mem, .parts, .snoops] ws) {z s : State} (hk : Keeps ws z s) (k a : Nat) (b : Bytes) : Keeps ws z (s.store k a b) := by
  unfold State.store; dsimp only
  refine keeps_noteMet (hw.mono (by decide)) (keeps_putPart (hw.mono (by decide)) (keeps_setMem (hw.mono (by decide)) (memWf_fold fun m w h => ?_) hk) _ _) _ _ _ _
  split
  · exact memWf_write _ _ _ h
  · exact h
theorem keeps_zeroFill {ws : List FieldName} (hw : Among [.mem, .parts, .snoops] ws) {z s : State} (hk : Keeps ws z s) (k a n : Nat) : Keeps ws z (s.zeroFill k a n) := by
  unfold State.zeroFill; dsimp only
  refine keeps_noteMet (hw.mono (by decide)) (keeps_putPart (hw.mono (by decide)) (keeps_setMem (hw.mono (by decide)) (memWf_fold fun m w h => ?_) hk) _ _) _ _ _ _
  split
  · exact memWf_wipe _ _ _ h
  · exact h
theorem keeps_modHealth {ws : List FieldName} (hw : Among [.parts] ws) {z s : State} (hk : Keeps ws z s) (k : Nat) (f : Health → Health) :
    Keeps ws z (modHealth s k f) := by
  unfold modHealth; try dsimp only
  repeat' (with_reducible first | exact hk | apply keeps_modPart (hw.mono (by decide))  | apply keeps_ite | intro _ _ hk | split)

/-! ### Link -/

theorem keeps_pump {ws : List FieldName} (hw : Among [.link] ws) {z s : State} (hk : Keeps ws z s) :
    Keeps ws z (pump s) := by
  unfold pump; try dsimp only
  repeat' (with_reducible first | exact hk | apply keeps_setLink (hw.mono (by decide))  | apply keeps_ite | intro _ _ hk | split)
theorem keeps_clSend {ws : List FieldName} (hw : Among [.link] ws) {z s : State} (hk : Keeps ws z s) (m : ClMsg) :
    Keeps ws z (clSend s m) := by
  unfold clSend; try dsimp only
  repeat' (with_reducible first | exact hk | apply keeps_setLink (hw.mono (by decide)) | apply keeps_pump (hw.mono (by decide))  | apply keeps_ite | intro _ _ hk | split)
theorem keeps_clRequest {ws : List FieldName} (hw : Among [.link] ws) {z s : State} (hk : Keeps ws z s) (f : ReqFor) (opc len rdom qmask : Nat) (addr : BitVec 64) (data : Bytes) :
    Keeps ws z (clRequest s f opc len rdom qmask addr data) := by
  unfold clRequest; try dsimp only
  repeat' (with_reducible first | exact hk | apply keeps_setLink (hw.mono (by decide)) | apply keeps_clSend (hw.mono (by decide))  | apply keeps_ite | intro _ _ hk | split)
theorem keeps_clWritePart {ws : List FieldName} (hw : Among [.link] ws) {z s : State} (hk : Keeps ws z s) (f : ReqFor) (rdom : Nat) (addr : Nat) (b : Bytes) :
    Keeps ws z (clWritePart s f rdom addr b) := by
  unfold clWritePart; try dsimp only
  repeat' (with_reducible first | exact hk | apply keeps_clRequest (hw.mono (by decide)) | apply keeps_foldl  | apply keeps_ite | intro _ _ hk | split)
theorem keeps_clRespond {ws : List FieldName} (hw : Among [.link] ws) {z s : State} (hk : Keeps ws z s) (m : ClMsg) (opc status : Nat) (data : Bytes) :
    Keeps ws z (clRespond s m opc status data) := by
  unfold clRespond; try dsimp only
  repeat' (with_reducible first | exact hk | apply keeps_clSend (hw.mono (by decide))  | apply keeps_ite | intro _ _ hk | split)
theorem keeps_openHome {ws : List FieldName} (hw : Among [.link] ws) {z s : State} (hk : Keeps ws z s) (line : Nat) (inv : Bool) (req : Option ClMsg) (comp : Bool) :
    Keeps ws z (openHome s line inv req comp) := by
  unfold openHome; try dsimp only
  repeat' (with_reducible first | exact hk | apply keeps_setLink (hw.mono (by decide)) | apply keeps_clSend (hw.mono (by decide))  | apply keeps_ite | intro _ _ hk | split)
theorem keeps_settle {ws : List FieldName} (hw : Among [.link, .snoops] ws) {z s s' : State} (hk : Keeps ws z s) (hk' : Keeps ws z s') (comp : Bool) : Keeps ws z (settle comp s s') := by
  unfold settle; dsimp only
  repeat' (with_reducible first | exact hk | exact hk' | apply keeps_setSnoops (hw.mono (by decide)) | apply keeps_setLink (hw.mono (by decide)) | apply keeps_openHome (hw.mono (by decide)) | apply keeps_foldl | intro _ _ hk | split)
theorem keeps_dropDone {ws : List FieldName} (hw : Among [.link] ws) {z s : State} (hk : Keeps ws z s) (k : Nat) :
    Keeps ws z (dropDone s k) := by
  unfold dropDone; try dsimp only
  repeat' (with_reducible first | exact hk | apply keeps_setLink (hw.mono (by decide))  | apply keeps_ite | intro _ _ hk | split)
theorem keeps_clCount {ws : List FieldName} (hw : Among [.link] ws) {z s : State} (hk : Keeps ws z s) (i n : Nat) :
    Keeps ws z (clCount s i n) := by
  unfold clCount; try dsimp only
  repeat' (with_reducible first | exact hk | apply keeps_setLink (hw.mono (by decide))  | apply keeps_ite | intro _ _ hk | split)
theorem keeps_sendIrq {ws : List FieldName} (hw : Among [.link, .vectors] ws) {z s : State} (hk : Keeps ws z s) (v : Nat) :
    Keeps ws z (sendIrq s v) := by
  unfold sendIrq; try dsimp only
  repeat' (with_reducible first | exact hk | apply keeps_putVec (hw.mono (by decide)) | apply keeps_clWritePart (hw.mono (by decide))  | apply keeps_ite | intro _ _ hk | split)
theorem keeps_raise {ws : List FieldName} (hw : Among [.link, .vectors] ws) {z s : State} (hk : Keeps ws z s) (v : Nat) :
    Keeps ws z (raise s v) := by
  unfold raise; try dsimp only
  repeat' (with_reducible first | exact hk | apply keeps_putVec (hw.mono (by decide)) | apply keeps_sendIrq (hw.mono (by decide))  | apply keeps_ite | intro _ _ hk | split)
theorem keeps_clEvent {ws : List FieldName} (hw : Among [.link, .vectors] ws) {z s : State} (hk : Keeps ws z s) (i : Nat) :
    Keeps ws z (clEvent s i) := by
  unfold clEvent; try dsimp only
  repeat' (with_reducible first | exact hk | apply keeps_setLink (hw.mono (by decide)) | apply keeps_raise (hw.mono (by decide))  | apply keeps_ite | intro _ _ hk | split)
theorem keeps_qEvent {ws : List FieldName} (hw : Among [.parts, .link, .vectors] ws) {z s : State} (hk : Keeps ws z s) (k i : Nat) :
    Keeps ws z (qEvent s k i) := by
  unfold qEvent; try dsimp only
  repeat' (with_reducible first | exact hk | apply keeps_modPart (hw.mono (by decide)) | apply keeps_raise (hw.mono (by decide))  | apply keeps_ite | intro _ _ hk | split)
theorem keeps_checkArm {ws : List FieldName} (hw : Among [.parts, .link, .vectors] ws) {z s : State} (hk : Keeps ws z s) (k : Nat) :
    Keeps ws z (checkArm s k) := by
  unfold checkArm; try dsimp only
  repeat' (with_reducible first | exact hk | apply keeps_qEvent (hw.mono (by decide)) | apply keeps_modPart (hw.mono (by decide))  | apply keeps_ite | intro _ _ hk | split)
theorem keeps_addCtr {ws : List FieldName} (hw : Among [.ctrs, .parts, .link, .vectors] ws) {z s : State} (hk : Keeps ws z s) (k c n : Nat) :
    Keeps ws z (addCtr s k c n) := by
  unfold addCtr; try dsimp only
  repeat' (with_reducible first | exact hk | apply keeps_setCtrs (hw.mono (by decide)) | apply keeps_qEvent (hw.mono (by decide)) | apply keeps_checkArm (hw.mono (by decide))  | apply keeps_ite | intro _ _ hk | split)

/-! ### Queue -/

theorem keeps_endAtHead {ws : List FieldName} (hw : Among [.queues] ws) {z s : State} (hk : Keeps ws z s) (q : Nat) (r : Started) :
    Keeps ws z (endAtHead s q r) := by
  unfold endAtHead; try dsimp only
  repeat' (with_reducible first | exact hk | apply keeps_modQueue (hw.mono (by decide))  | apply keeps_ite | intro _ _ hk | split)
theorem keeps_ringFault {ws : List FieldName} (hw : Among [.queues] ws) {z s : State} (hk : Keeps ws z s) (q : Nat) (status : BitVec 8) (faddr : Nat) :
    Keeps ws z (ringFault s q status faddr) := by
  unfold ringFault; try dsimp only
  repeat' (with_reducible first | exact hk | apply keeps_endAtHead (hw.mono (by decide)) | apply keeps_modQueue (hw.mono (by decide))  | apply keeps_ite | intro _ _ hk | split)
theorem keeps_claimHold {ws : List FieldName} (hw : Among [.parts] ws) {z s : State} (hk : Keeps ws z s) (k : Nat) :
    Keeps ws z (claimHold s k) := by
  unfold claimHold; try dsimp only
  repeat' (with_reducible first | exact hk | apply keeps_modPart (hw.mono (by decide)) | apply keeps_foldl  | apply keeps_ite | intro _ _ hk | split)
theorem keeps_endHold {ws : List FieldName} (hw : Among [.parts] ws) {z s : State} (hk : Keeps ws z s) (k q : Nat) :
    Keeps ws z (endHold s k q) := by
  unfold endHold; try dsimp only
  repeat' (with_reducible first | exact hk | apply keeps_modPart (hw.mono (by decide))  | apply keeps_ite | intro _ _ hk | split)
theorem keeps_stamp {ws : List FieldName} (hw : Among [.queues, .parts] ws) {z s : State} (hk : Keeps ws z s) (k q : Nat) :
    Keeps ws z (stamp s k q) := by
  unfold stamp; try dsimp only
  repeat' (with_reducible first | exact hk | apply keeps_modPart (hw.mono (by decide)) | apply keeps_modQueue (hw.mono (by decide))  | apply keeps_ite | intro _ _ hk | split)
theorem keeps_cacheHub {ws : List FieldName} (hw : Among [.queues] ws) {z s : State} (hk : Keeps ws z s) (q : Nat) :
    Keeps ws z (cacheHub s q) := by
  unfold cacheHub; try dsimp only
  repeat' (with_reducible first | exact hk | apply keeps_modQueue (hw.mono (by decide)) | apply keeps_foldl  | apply keeps_ite | intro _ _ hk | split)
theorem keeps_cacheSlice {ws : List FieldName} (hw : Among [.queues] ws) {z s : State} (hk : Keeps ws z s) (q sl : Nat) :
    Keeps ws z (cacheSlice s q sl) := by
  unfold cacheSlice; try dsimp only
  repeat' (with_reducible first | exact hk | apply keeps_modQueue (hw.mono (by decide)) | apply keeps_foldl  | apply keeps_ite | intro _ _ hk | split)
theorem keeps_acceptCmd {ws : List FieldName} (hw : Among [.queues, .parts] ws) {z s : State} (hk : Keeps ws z s) (k q : Nat) (c : Nat) :
    Keeps ws z (acceptCmd s k q c) := by
  unfold acceptCmd; try dsimp only
  repeat' (with_reducible first | exact hk | apply keeps_endAtHead (hw.mono (by decide)) | apply keeps_modQueue (hw.mono (by decide)) | apply keeps_stamp (hw.mono (by decide)) | apply keeps_claimHold (hw.mono (by decide)) | apply keeps_cacheSlice (hw.mono (by decide))  | apply keeps_ite | intro _ _ hk | split)
theorem keeps_fetchFront {ws : List FieldName} (hw : Among [.queues, .parts, .link, .snoops] ws) {z s : State} (hk : Keeps ws z s) (q : Nat) :
    Keeps ws z (fetchFront s q) := by
  unfold fetchFront; try dsimp only
  repeat' (with_reducible first | exact hk | apply keeps_acceptCmd (hw.mono (by decide)) | apply keeps_modQueue (hw.mono (by decide)) | apply keeps_clRequest (hw.mono (by decide)) | apply keeps_noteRead (hw.mono (by decide)) | apply keeps_ringFault (hw.mono (by decide))  | apply keeps_ite | intro _ _ hk | split)
theorem keeps_popFront {ws : List FieldName} (hw : Among [.queues] ws) {z s : State} (hk : Keeps ws z s) (q : Nat) :
    Keeps ws z (popFront s q) := by
  unfold popFront; try dsimp only
  repeat' (with_reducible first | exact hk | apply keeps_modQueue (hw.mono (by decide))  | apply keeps_ite | intro _ _ hk | split)
theorem keeps_pushStarted {ws : List FieldName} (hw : Among [.queues, .parts, .link, .snoops] ws) {z s : State} (hk : Keeps ws z s) (q : Nat) (idx : BitVec 24) (c : Nat) (r : Started) :
    Keeps ws z (pushStarted s q idx c r) := by
  unfold pushStarted; try dsimp only
  repeat' (with_reducible first | exact hk | apply keeps_fetchFront (hw.mono (by decide)) | apply keeps_modQueue (hw.mono (by decide))  | apply keeps_ite | intro _ _ hk | split)
theorem keeps_spoilt {ws : List FieldName} (hw : Among [.queues, .parts] ws) {z s : State} (hk : Keeps ws z s) (k q c : Nat) {e : State × Started} (he : Keeps1 ws z e) :
    Keeps1 ws z (spoilt s k q c e) := by
  unfold spoilt
  split
  · exact he
  · split
    · exact he
    · exact keeps1_mk (keeps_modHealth (hw.mono (by decide)) (keeps_popFront (hw.mono (by decide)) hk _) _ _)
theorem keepsf_spoilt {ws : List FieldName} (hw : Among [.queues, .parts] ws) {z s : State} (hk : Keeps ws z s) (k q c : Nat) {e : State × Started} (he : Keeps1 ws z e) :
    Keeps ws z (spoilt s k q c e).1 := keeps_spoilt hw hk k q c he
theorem keeps_runFront {ws : List FieldName} (hw : Among [.queues, .parts, .link, .snoops] ws) {z s : State} (hk : Keeps ws z s) {q : Nat} {sel : Nat → Bool} {f : State → Nat → Nat → State × Started}
    (hf : ∀ s k c, Keeps ws z s → Keeps1 ws z (f s k c)) : Keeps ws z (runFront s q sel f) := by
  unfold runFront; dsimp only
  split
  · split
    · exact keeps_pushStarted (hw.mono (by decide)) (keeps_spoilt (hw.mono (by decide)) hk _ _ _ (hf _ _ _ (keeps_popFront (hw.mono (by decide)) hk _))) _ _ _ _
    · exact hk
  · exact hk
theorem keeps_startThen {ws : List FieldName} (hw : Among [.queues, .parts, .link, .snoops] ws) {z s : State} (hk : Keeps ws z s) {q : Nat} {sel : State → Nat → Nat → Bool} {f : State → Nat → Nat → State × Started}
    {g : State → Nat → Started → State} (hf : ∀ s k c, Keeps ws z s → Keeps1 ws z (f s k c)) (hg : ∀ s k r, Keeps ws z s → Keeps ws z (g s k r)) :
    Keeps ws z (startThen s q sel f g) := by
  unfold startThen
  split
  · exact hk
  · dsimp only
    have h := fun k c => keeps_pushStarted (ws := ws) (hw.mono (by decide)) (keeps_spoilt (hw.mono (by decide)) hk k q c (hf _ k c (keeps_popFront (hw.mono (by decide)) hk q)))
    split
    · exact hk
    · split
      · exact h _ _ _ _ _ _
      · exact hg _ _ _ (h _ _ _ _ _ _)
theorem keeps_modStarted {ws : List FieldName} (hw : Among [.queues] ws) {z s : State} (hk : Keeps ws z s) (q : Nat) (idx : BitVec 24) (f : Started → Started) :
    Keeps ws z (modStarted s q idx f) := by
  unfold modStarted; try dsimp only
  repeat' (with_reducible first | exact hk | apply keeps_modQueue (hw.mono (by decide))  | apply keeps_ite | intro _ _ hk | split)
theorem keeps_endWork {ws : List FieldName} (hw : Among [.queues] ws) {z s : State} (hk : Keeps ws z s) (q : Nat) (idx : BitVec 24) (st : BitVec 8) :
    Keeps ws z (endWork s q idx st) := by
  unfold endWork; try dsimp only
  repeat' (with_reducible first | exact hk | apply keeps_modStarted (hw.mono (by decide))  | apply keeps_ite | intro _ _ hk | split)
theorem keeps_countEvt {ws : List FieldName} (hw : Among [.queues, .parts] ws) {z s : State} (hk : Keeps ws z s) (k q : Nat) (e : Evt) :
    Keeps ws z (countEvt s k q e) := by
  unfold countEvt; try dsimp only
  repeat' (with_reducible first | exact hk | apply keeps_modHealth (hw.mono (by decide)) | apply keeps_modQueue (hw.mono (by decide))  | apply keeps_ite | intro _ _ hk | split)
theorem keeps_countNan {ws : List FieldName} (hw : Among [.parts] ws) {z s : State} (hk : Keeps ws z s) (k n : Nat) :
    Keeps ws z (countNan s k n) := by
  unfold countNan; try dsimp only
  repeat' (with_reducible first | exact hk | apply keeps_modHealth (hw.mono (by decide))  | apply keeps_ite | intro _ _ hk | split)
theorem keeps_countDiv0 {ws : List FieldName} (hw : Among [.parts] ws) {z s : State} (hk : Keeps ws z s) (k n : Nat) :
    Keeps ws z (countDiv0 s k n) := by
  unfold countDiv0; try dsimp only
  repeat' (with_reducible first | exact hk | apply keeps_modHealth (hw.mono (by decide))  | apply keeps_ite | intro _ _ hk | split)
theorem keeps_enterFault {ws : List FieldName} (hw : Among [.queues, .parts, .link, .vectors] ws) {z s : State} (hk : Keeps ws z s) (k q : Nat) (f : FaultRec) :
    Keeps ws z (enterFault s k q f) := by
  unfold enterFault; try dsimp only
  repeat' (with_reducible first | exact hk | apply keeps_putQueue (hw.mono (by decide)) | apply keeps_qEvent (hw.mono (by decide)) | apply keeps_modPart (hw.mono (by decide))  | apply keeps_ite | intro _ _ hk | split)
theorem keeps_settlePause {ws : List FieldName} (hw : Among [.queues, .parts, .link, .vectors] ws) {z s : State} (hk : Keeps ws z s) (k q : Nat) :
    Keeps ws z (settlePause s k q) := by
  unfold settlePause; try dsimp only
  repeat' (with_reducible first | exact hk | apply keeps_qEvent (hw.mono (by decide)) | apply keeps_putQueue (hw.mono (by decide))  | apply keeps_ite | intro _ _ hk | split)
theorem keeps_keepPlan {ws : List FieldName} (hw : Among [.parts] ws) {z s : State} (hk : Keeps ws z s) (k c : Nat) :
    Keeps ws z (keepPlan s k c) := by
  unfold keepPlan; try dsimp only
  repeat' (with_reducible first | exact hk | apply keeps_modPart (hw.mono (by decide))  | apply keeps_ite | intro _ _ hk | split)
theorem keeps_closeCmd {ws : List FieldName} (hw : Among [.ctrs, .queues, .parts, .link, .vectors, .snoops] ws) {z s : State} (hk : Keeps ws z s) (k q : Nat) (r : Started) :
    Keeps ws z (closeCmd s k q r) := by
  unfold closeCmd; try dsimp only
  repeat' (with_reducible first | exact hk | apply keeps_modQueue (hw.mono (by decide)) | apply keeps_addCtr (hw.mono (by decide)) | apply keeps_enterFault (hw.mono (by decide)) | apply keeps_keepPlan (hw.mono (by decide)) | apply keeps_endHold (hw.mono (by decide)) | apply keeps_settlePause (hw.mono (by decide)) | apply keeps_stamp (hw.mono (by decide)) | apply keeps_claimHold (hw.mono (by decide)) | apply keeps_fetchFront (hw.mono (by decide))  | apply keeps_ite | intro _ _ hk | split)
theorem keeps_freeVcs {ws : List FieldName} (hw : Among [.parts, .vcs] ws) {z s : State} (hk : Keeps ws z s) (p : BitVec 20 × BitVec 24 → Bool) :
    Keeps ws z (freeVcs s p) := by
  unfold freeVcs; try dsimp only
  repeat' (with_reducible first | exact hk | apply keeps_setVcs (hw.mono (by decide)) | apply keeps_modPart (hw.mono (by decide))  | apply keeps_ite | intro _ _ hk | split)
theorem keeps_stopUnits {ws : List FieldName} (hw : Among [.queues, .parts, .vcs, .mus] ws) {z s : State} (hk : Keeps ws z s) (q : Nat) :
    Keeps ws z (stopUnits s q) := by
  unfold stopUnits; try dsimp only
  repeat' (with_reducible first | exact hk | apply keeps_setMus (hw.mono (by decide)) | apply keeps_modPart (hw.mono (by decide)) | apply keeps_freeVcs (hw.mono (by decide)) | apply keeps_modQueue (hw.mono (by decide))  | apply keeps_ite | intro _ _ hk | split)
theorem keeps_abortRecord {ws : List FieldName} (hw : Among [.mem, .queues, .parts, .link, .vectors, .snoops] ws) {z s : State} (hk : Keeps ws z s) (k q : Nat) (r : Started) :
    Keeps ws z (abortRecord s k q r) := by
  unfold abortRecord; try dsimp only
  repeat' (with_reducible first | exact hk | apply keeps_clWritePart (hw.mono (by decide)) | apply keeps_store (hw.mono (by decide)) | apply keeps_enterFault (hw.mono (by decide))  | apply keeps_ite | intro _ _ hk | split)
theorem keeps_abortFails {ws : List FieldName} (hw : Among [.queues, .parts, .link, .vectors] ws) {z s : State} (hk : Keeps ws z s) (q : Nat) (idx : BitVec 24) (cmd : BitVec 512) (st : BitVec 8) :
    Keeps ws z (abortFails s q idx cmd st) := by
  unfold abortFails; try dsimp only
  repeat' (with_reducible first | exact hk | apply keeps_enterFault (hw.mono (by decide))  | apply keeps_ite | intro _ _ hk | split)
theorem keeps_finishReset {ws : List FieldName} (hw : Among [.mem, .queues, .parts, .link, .vectors, .snoops] ws) {z s : State} (hk : Keeps ws z s) (k q : Nat) :
    Keeps ws z (finishReset s k q) := by
  unfold finishReset; try dsimp only
  repeat' (with_reducible first | exact hk | apply keeps_noteIf (hw.mono (by decide)) | apply keeps_abortRecord (hw.mono (by decide)) | apply keeps_dropDone (hw.mono (by decide)) | apply keeps_endHold (hw.mono (by decide)) | apply keeps_claimHold (hw.mono (by decide)) | apply keeps_modQueue (hw.mono (by decide)) | apply keeps_foldl  | apply keeps_ite | intro _ _ hk | split)
theorem keeps_beginReset {ws : List FieldName} (hw : Among [.queues, .parts, .vcs, .mus] ws) {z s : State} (hk : Keeps ws z s) (q by_ : Nat) (dis : Bool) :
    Keeps ws z (beginReset s q by_ dis) := by
  unfold beginReset; try dsimp only
  repeat' (with_reducible first | exact hk | apply keeps_stopUnits (hw.mono (by decide)) | apply keeps_putQueue (hw.mono (by decide))  | apply keeps_ite | intro _ _ hk | split)
theorem keeps_completeOldest {ws : List FieldName} (hw : Among [.mem, .ctrs, .queues, .parts, .link, .vectors, .snoops] ws) {z s : State} (hk : Keeps ws z s) (k q : Nat) :
    Keeps ws z (completeOldest s k q) := by
  unfold completeOldest; try dsimp only
  repeat' (with_reducible first | exact hk | apply keeps_closeCmd (hw.mono (by decide)) | apply keeps_modStarted (hw.mono (by decide)) | apply keeps_clWritePart (hw.mono (by decide)) | apply keeps_store (hw.mono (by decide))  | apply keeps_ite | intro _ _ hk | split)
theorem keeps_dropDoorbell {ws : List FieldName} (hw : Among [.parts, .link, .vectors] ws) {z s : State} (hk : Keeps ws z s) (k : Nat) :
    Keeps ws z (dropDoorbell s k) := by
  unfold dropDoorbell; try dsimp only
  repeat' (with_reducible first | exact hk | apply keeps_qEvent (hw.mono (by decide)) | apply keeps_modPart (hw.mono (by decide))  | apply keeps_ite | intro _ _ hk | split)
theorem keeps_pageContext {ws : List FieldName} (hw : Among [.queues, .order] ws) {z s : State} (hk : Keeps ws z s) (q : Nat) :
    Keeps ws z (pageContext s q) := by
  unfold pageContext; try dsimp only
  repeat' (with_reducible first | exact hk | apply keeps_setOrder (hw.mono (by decide)) | apply keeps_cacheHub (hw.mono (by decide)) | apply keeps_modQueue (hw.mono (by decide))  | apply keeps_ite | intro _ _ hk | split)
theorem keeps_doorbell {ws : List FieldName} (hw : Among [.queues, .parts, .link, .vectors, .order, .snoops] ws) {z s : State} (hk : Keeps ws z s) (k : Nat) (val : BitVec 64) :
    Keeps ws z (doorbell s k val) := by
  unfold doorbell; try dsimp only
  repeat' (with_reducible first | exact hk | apply keeps_dropDoorbell (hw.mono (by decide)) | apply keeps_fetchFront (hw.mono (by decide)) | apply keeps_pageContext (hw.mono (by decide)) | apply keeps_modQueue (hw.mono (by decide)) | apply keeps_enterFault (hw.mono (by decide))  | apply keeps_ite | intro _ _ hk | split)
theorem keeps_armWatch {ws : List FieldName} (hw : Among [.parts, .link, .vectors] ws) {z s : State} (hk : Keeps ws z s) (k : Nat) (val : BitVec 64) :
    Keeps ws z (armWatch s k val) := by
  unfold armWatch; try dsimp only
  repeat' (with_reducible first | exact hk | apply keeps_checkArm (hw.mono (by decide)) | apply keeps_modPart (hw.mono (by decide))  | apply keeps_ite | intro _ _ hk | split)

/-! ### Control -/

theorem keeps_pauseQueue {ws : List FieldName} (hw : Among [.queues, .parts, .link, .vectors] ws) {z s : State} (hk : Keeps ws z s) (k t : Nat) :
    Keeps ws z (pauseQueue s k t) := by
  unfold pauseQueue; try dsimp only
  repeat' (with_reducible first | exact hk | apply keeps_settlePause (hw.mono (by decide)) | apply keeps_modQueue (hw.mono (by decide))  | apply keeps_ite | intro _ _ hk | split)
theorem keeps_resumeQueue {ws : List FieldName} (hw : Among [.queues, .parts, .link, .snoops] ws) {z s : State} (hk : Keeps ws z s) (k t : Nat) :
    Keeps ws z (resumeQueue s k t) := by
  unfold resumeQueue; try dsimp only
  repeat' (with_reducible first | exact hk | apply keeps_claimHold (hw.mono (by decide)) | apply keeps_fetchFront (hw.mono (by decide)) | apply keeps_stamp (hw.mono (by decide)) | apply keeps_putQueue (hw.mono (by decide)) | apply keeps_modPart (hw.mono (by decide))  | apply keeps_ite | intro _ _ hk | split)

end Sys2Proof.Machine
end

