-- ==== Sys2Proof/Laws/KeepsCompute.lean ====
section
/-! SUPPORT. What every shared operation keeps, continued: matrix, vector, migration and update operations. -/

set_option linter.unusedTactic false
set_option linter.unreachableTactic false
set_option linter.unusedVariables false
namespace Sys2Proof.Machine
open Sys2Proof

/-! ### Matrix -/

theorem keeps_adder {ws : List FieldName} (hw : Among [.mem, .parts, .snoops] ws) {z s : State} (hk : Keeps ws z s) (k a : Nat) (f : Int × Int → Int × Int) :
    Keeps ws z (adder s k a f) := by
  unfold adder; try dsimp only
  repeat' (with_reducible first | exact hk | apply keeps_store (hw.mono (by decide))  | apply keeps_ite | intro _ _ hk | split)
theorem keeps_runTile {ws : List FieldName} (hw : Among [.mem, .queues, .parts, .vcs, .mus, .snoops] ws) {z s : State} (hk : Keeps ws z s) (x : MJob) (j q t : Nat) (r : Started) :
    Keeps1 ws z (runTile s x j q t r) := by
  unfold runTile; dsimp only
  split
  · exact keeps1_mk (keeps_putMu (hw.mono (by decide)) hk _ _)
  · refine keeps1_mk (keeps_countNan (hw.mono (by decide)) (keeps_countEvt (hw.mono (by decide)) (keeps_ite ?_ (keeps_modMu (hw.mono (by decide)) ?_ _ _)) _ _ _) _ _) <;>
    exact keeps_foldl (fun s w h => keeps_modVc (hw.mono (by decide)) h _ _) (keeps_foldl
      (fun s w h => keeps_adder (hw.mono (by decide)) h _ _ _) (keeps_foldl (fun s w h => keeps_store (hw.mono (by decide)) h _ _ _) (keeps_putMu (hw.mono (by decide)) hk _ _)))
theorem keepsf_runTile {ws : List FieldName} (hw : Among [.mem, .queues, .parts, .vcs, .mus, .snoops] ws) {z s : State} (hk : Keeps ws z s) (x : MJob) (j q t : Nat) (r : Started) :
    Keeps ws z (runTile s x j q t r).1 := keeps1_fst (keeps_runTile (hw.mono (by decide)) hk _ _ _ _ _)
theorem keeps_runTiles {ws : List FieldName} (hw : Among [.mem, .queues, .parts, .vcs, .mus, .snoops] ws) {z s : State} (hk : Keeps ws z s) (x : MJob) (mus : List Nat) (q : Nat) (ts : List Nat) (r : Started) :
    Keeps1 ws z (runTiles s x mus q ts r) := by
  unfold runTiles
  refine keeps_foldl1 (fun a t h => ?_) (keeps1_mk hk)
  split
  · exact h
  · exact keeps_runTile (hw.mono (by decide)) (keeps1_fst h) _ _ _ _ _
theorem keepsf_runTiles {ws : List FieldName} (hw : Among [.mem, .queues, .parts, .vcs, .mus, .snoops] ws) {z s : State} (hk : Keeps ws z s) (x : MJob) (mus : List Nat) (q : Nat) (ts : List Nat) (r : Started) :
    Keeps ws z (runTiles s x mus q ts r).1 := keeps1_fst (keeps_runTiles (hw.mono (by decide)) hk _ _ _ _ _)
theorem keeps_noteOperands {ws : List FieldName} (hw : Among [.parts, .snoops] ws) {z s : State} (hk : Keeps ws z s) (k : Nat) (us : List Use) :
    Keeps ws z (noteOperands s k us) := by
  unfold noteOperands; try dsimp only
  repeat' (with_reducible first | exact hk | apply keeps_noteRead (hw.mono (by decide)) | apply keeps_foldl  | apply keeps_ite | intro _ _ hk | split)
theorem keeps_enqueue {ws : List FieldName} (hw : Among [.mus] ws) {z s : State} (hk : Keeps ws z s) (x : MJob) (mus : List Nat) (q : Nat) (ts : List Nat) :
    Keeps ws z (enqueue s x mus q ts) := by
  unfold enqueue; try dsimp only
  repeat' (with_reducible first | exact hk | apply keeps_modMu (hw.mono (by decide)) | apply keeps_foldl  | apply keeps_ite | intro _ _ hk | split)
theorem keeps_startTiles {ws : List FieldName} (hw : Among [.mem, .queues, .parts, .vcs, .mus, .snoops] ws) {z s : State} (hk : Keeps ws z s) (x : MJob) (mus : List Nat) (q : Nat) :
    Keeps1 ws z (startTiles s x mus q) := by
  have h := fun l r => keepsf_runTiles (hw.mono (by decide)) hk x mus q l r
  unfold startTiles; dsimp only
  exact keeps1_ite (keeps1_mk (h _ _)) (keeps1_mk (keeps_enqueue (hw.mono (by decide)) (h _ _) _ _ _ _))
theorem keepsf_startTiles {ws : List FieldName} (hw : Among [.mem, .queues, .parts, .vcs, .mus, .snoops] ws) {z s : State} (hk : Keeps ws z s) (x : MJob) (mus : List Nat) (q : Nat) : Keeps ws z (startTiles s x mus q).1 := keeps1_fst (by apply keeps_startTiles (hw.mono (by decide)); exact hk)
theorem keeps_startMatmul {ws : List FieldName} (hw : Among [.mem, .queues, .parts, .vcs, .mus, .snoops] ws) {z s : State} (hk : Keeps ws z s) (q : Qid) (sl : Nat) (fill : Bool) (k c : Nat) :
    Keeps1 ws z (startMatmul q sl fill s k c) := by
  replace hk := keeps_noteIf (hw.mono (by decide)) hk k (mDesc c) 128
  unfold startMatmul; dsimp only
  refine keeps1_ite (keeps1_mk hk) (keeps1_ite (keeps1_mk hk) (keeps1_ite (keeps1_mk hk) ?_))
  split
  · exact keeps1_mk hk
  · exact keeps1_mk (keeps1_fst (keeps_startTiles (hw.mono (by decide)) (keeps_noteOperands (hw.mono (by decide)) hk _ _) _ _ _))
theorem keepsf_startMatmul {ws : List FieldName} (hw : Among [.mem, .queues, .parts, .vcs, .mus, .snoops] ws) {z s : State} (hk : Keeps ws z s) (q : Qid) (sl : Nat) (fill : Bool) (k c : Nat) : Keeps ws z (startMatmul q sl fill s k c).1 := keeps1_fst (by apply keeps_startMatmul (hw.mono (by decide)); exact hk)
theorem keeps_dropTiles {ws : List FieldName} (hw : Among [.mus] ws) {z s : State} (hk : Keeps ws z s) (q : Nat) (idx : BitVec 24) :
    Keeps ws z (dropTiles s q idx) := by
  unfold dropTiles; try dsimp only
  repeat' (with_reducible first | exact hk | apply keeps_setMus (hw.mono (by decide))  | apply keeps_ite | intro _ _ hk | split)
theorem keeps_runWaiting {ws : List FieldName} (hw : Among [.mem, .queues, .parts, .vcs, .mus, .snoops] ws) {z s : State} (hk : Keeps ws z s) (k q j qd : Nat) (r : Started) (t : Nat) (left : List Nat) :
    Keeps ws z (runWaiting s k q j qd r t left) := by
  have h := keepsf_runTile (hw.mono (by decide)) hk (jobOf s k q r) j qd t r
  unfold runWaiting; dsimp only
  exact keeps_modStarted (hw.mono (by decide)) (keeps_ite (keeps_dropTiles (hw.mono (by decide)) h _ _) h) _ _ _
theorem keeps_pumpQuad {ws : List FieldName} (hw : Among [.mem, .queues, .parts, .vcs, .mus, .snoops] ws) {z s : State} (hk : Keeps ws z s) (mu qd : Nat) :
    Keeps ws z (pumpQuad s mu qd) := by
  unfold pumpQuad; try dsimp only
  repeat' (with_reducible first | exact hk | apply keeps_putMu (hw.mono (by decide)) | apply keeps_runWaiting (hw.mono (by decide))  | apply keeps_ite | intro _ _ hk | split)
theorem keeps_pumpSlice {ws : List FieldName} (hw : Among [.mem, .queues, .parts, .vcs, .mus, .snoops] ws) {z s : State} (hk : Keeps ws z s) (sl : Nat) :
    Keeps ws z (pumpSlice s sl) := by
  unfold pumpSlice; try dsimp only
  repeat' (with_reducible first | exact hk | apply keeps_pumpQuad (hw.mono (by decide)) | apply keeps_foldl  | apply keeps_ite | intro _ _ hk | split)
theorem keeps_returnBuf {ws : List FieldName} (hw : Among [.mus] ws) {z s : State} (hk : Keeps ws z s) (w : DrainWrite) :
    Keeps ws z (returnBuf s w) := by
  unfold returnBuf; try dsimp only
  repeat' (with_reducible first | exact hk | apply keeps_modMu (hw.mono (by decide))  | apply keeps_ite | intro _ _ hk | split)
theorem keeps_fillTile {ws : List FieldName} (hw : Among [.mem, .queues, .parts, .vcs, .mus, .snoops] ws) {z s : State} (hk : Keeps ws z s) (k q sl j qd : Nat) (r : Started) (t : Nat) (ts : List Nat) :
    Keeps ws z (fillTile s k q sl j qd r t ts) := by
  unfold fillTile; dsimp only
  exact keeps_modStarted (hw.mono (by decide)) (keepsf_runTile (hw.mono (by decide)) (keeps_noteOperands (hw.mono (by decide)) hk _ _) _ _ _ _ _) _ _ _

/-! ### VFunc -/


/-! ### Operands -/


/-! ### VectorOps -/

/-- What a vector instruction leaves is kept. -/
def VKeeps (ws : List FieldName) (z : State) (o : VOut) : Prop := ∀ s a j, o = .ok s a j → Keeps ws z s
theorem keeps_illegal {ws : List FieldName} {z : State} : VKeeps ws z .illegal := fun _ _ _ h => by cases h
theorem keeps_addr {ws : List FieldName} {z : State} (a : Nat) : VKeeps ws z (.addr a) := fun _ _ _ h => by cases h
theorem keeps_vok {ws : List FieldName} {z s : State} {a : VAcc} {j : Option Nat} (hk : Keeps ws z s) : VKeeps ws z (.ok s a j) := fun _ _ _ h => by
  cases h; exact hk
theorem keeps_inCore {ws : List FieldName} {z : State} {c : VCtx} (hk : Keeps ws z c.s) (ok : Bool) (a : VAcc) :
    VKeeps ws z (inCore c ok a) := by
  unfold inCore; try dsimp only
  repeat' (with_reducible first | exact hk | apply keeps_inCore | exact keeps_illegal | exact keeps_addr _ | apply keeps_vok | apply keeps_foldl | intro _ _ hk | split)
theorem keeps_vNop {ws : List FieldName} {z : State} {c : VCtx} (hk : Keeps ws z c.s) (v : Vc) (x : Nat) :
    VKeeps ws z (vNop c v x) := by
  unfold vNop; try dsimp only
  repeat' (with_reducible first | exact hk | apply keeps_inCore | exact keeps_illegal | exact keeps_addr _ | apply keeps_vok | apply keeps_foldl | apply keeps_inCore | intro _ _ hk | split)
theorem keeps_vSeta {ws : List FieldName} {z : State} {c : VCtx} (hk : Keeps ws z c.s) (v : Vc) (x : Nat) :
    VKeeps ws z (vSeta c v x) := by
  unfold vSeta; try dsimp only
  repeat' (with_reducible first | exact hk | apply keeps_inCore | exact keeps_illegal | exact keeps_addr _ | apply keeps_vok | apply keeps_foldl | apply keeps_inCore | intro _ _ hk | split)
theorem keeps_vAdda {ws : List FieldName} {z : State} {c : VCtx} (hk : Keeps ws z c.s) (v : Vc) (x : Nat) :
    VKeeps ws z (vAdda c v x) := by
  unfold vAdda; try dsimp only
  repeat' (with_reducible first | exact hk | apply keeps_inCore | exact keeps_illegal | exact keeps_addr _ | apply keeps_vok | apply keeps_foldl | apply keeps_inCore | intro _ _ hk | split)
theorem keeps_vLoop {ws : List FieldName} {z : State} {c : VCtx} (hk : Keeps ws z c.s) (v : Vc) (x : Nat) :
    VKeeps ws z (vLoop c v x) := by
  unfold vLoop; try dsimp only
  repeat' (with_reducible first | exact hk | apply keeps_inCore | exact keeps_illegal | exact keeps_addr _ | apply keeps_vok | apply keeps_foldl | intro _ _ hk | split)
theorem keeps_binOp {ws : List FieldName} {z : State} {c : VCtx} (hk : Keeps ws z c.s) (v : Vc) (x : Nat) (g : Nat → Bool → Nat → Nat → Int × Evt) (code : Nat → Nat → Nat → Int) :
    VKeeps ws z (binOp c v x g code) := by
  unfold binOp; try dsimp only
  repeat' (with_reducible first | exact hk | apply keeps_inCore | exact keeps_illegal | exact keeps_addr _ | apply keeps_vok | apply keeps_foldl | apply keeps_inCore | intro _ _ hk | split)
theorem keeps_plainOp {ws : List FieldName} {z : State} {c : VCtx} (hk : Keeps ws z c.s) (v : Vc) (x : Nat) (g : Nat → Bool → Nat → Nat → Int) :
    VKeeps ws z (plainOp c v x g) := by
  unfold plainOp; try dsimp only
  repeat' (with_reducible first | exact hk | apply keeps_inCore | exact keeps_illegal | exact keeps_addr _ | apply keeps_vok | apply keeps_foldl | apply keeps_binOp | intro _ _ hk | split)
theorem keeps_vAdd {ws : List FieldName} {z : State} {c : VCtx} (hk : Keeps ws z c.s) (v : Vc) (x : Nat) :
    VKeeps ws z (vAdd c v x) := by
  unfold vAdd; try dsimp only
  repeat' (with_reducible first | exact hk | apply keeps_inCore | exact keeps_illegal | exact keeps_addr _ | apply keeps_vok | apply keeps_foldl | apply keeps_plainOp | intro _ _ hk | split)
theorem keeps_vSub {ws : List FieldName} {z : State} {c : VCtx} (hk : Keeps ws z c.s) (v : Vc) (x : Nat) :
    VKeeps ws z (vSub c v x) := by
  unfold vSub; try dsimp only
  repeat' (with_reducible first | exact hk | apply keeps_inCore | exact keeps_illegal | exact keeps_addr _ | apply keeps_vok | apply keeps_foldl | apply keeps_plainOp | intro _ _ hk | split)
theorem keeps_vAdds {ws : List FieldName} {z : State} {c : VCtx} (hk : Keeps ws z c.s) (v : Vc) (x : Nat) :
    VKeeps ws z (vAdds c v x) := by
  unfold vAdds; try dsimp only
  repeat' (with_reducible first | exact hk | apply keeps_inCore | exact keeps_illegal | exact keeps_addr _ | apply keeps_vok | apply keeps_foldl | apply keeps_binOp | intro _ _ hk | split)
theorem keeps_vSubs {ws : List FieldName} {z : State} {c : VCtx} (hk : Keeps ws z c.s) (v : Vc) (x : Nat) :
    VKeeps ws z (vSubs c v x) := by
  unfold vSubs; try dsimp only
  repeat' (with_reducible first | exact hk | apply keeps_inCore | exact keeps_illegal | exact keeps_addr _ | apply keeps_vok | apply keeps_foldl | apply keeps_binOp | intro _ _ hk | split)
theorem keeps_vMullo {ws : List FieldName} {z : State} {c : VCtx} (hk : Keeps ws z c.s) (v : Vc) (x : Nat) :
    VKeeps ws z (vMullo c v x) := by
  unfold vMullo; try dsimp only
  repeat' (with_reducible first | exact hk | apply keeps_inCore | exact keeps_illegal | exact keeps_addr _ | apply keeps_vok | apply keeps_foldl | apply keeps_binOp | intro _ _ hk | split)
theorem keeps_vMulhi {ws : List FieldName} {z : State} {c : VCtx} (hk : Keeps ws z c.s) (v : Vc) (x : Nat) :
    VKeeps ws z (vMulhi c v x) := by
  unfold vMulhi; try dsimp only
  repeat' (with_reducible first | exact hk | apply keeps_inCore | exact keeps_illegal | exact keeps_addr _ | apply keeps_vok | apply keeps_foldl | apply keeps_binOp | intro _ _ hk | split)
theorem keeps_vShl {ws : List FieldName} {z : State} {c : VCtx} (hk : Keeps ws z c.s) (v : Vc) (x : Nat) :
    VKeeps ws z (vShl c v x) := by
  unfold vShl; try dsimp only
  repeat' (with_reducible first | exact hk | apply keeps_inCore | exact keeps_illegal | exact keeps_addr _ | apply keeps_vok | apply keeps_foldl | apply keeps_plainOp | intro _ _ hk | split)
theorem keeps_vShr {ws : List FieldName} {z : State} {c : VCtx} (hk : Keeps ws z c.s) (v : Vc) (x : Nat) :
    VKeeps ws z (vShr c v x) := by
  unfold vShr; try dsimp only
  repeat' (with_reducible first | exact hk | apply keeps_inCore | exact keeps_illegal | exact keeps_addr _ | apply keeps_vok | apply keeps_foldl | apply keeps_plainOp | intro _ _ hk | split)
theorem keeps_vMin {ws : List FieldName} {z : State} {c : VCtx} (hk : Keeps ws z c.s) (v : Vc) (x : Nat) :
    VKeeps ws z (vMin c v x) := by
  unfold vMin; try dsimp only
  repeat' (with_reducible first | exact hk | apply keeps_inCore | exact keeps_illegal | exact keeps_addr _ | apply keeps_vok | apply keeps_foldl | apply keeps_plainOp | intro _ _ hk | split)
theorem keeps_vMax {ws : List FieldName} {z : State} {c : VCtx} (hk : Keeps ws z c.s) (v : Vc) (x : Nat) :
    VKeeps ws z (vMax c v x) := by
  unfold vMax; try dsimp only
  repeat' (with_reducible first | exact hk | apply keeps_inCore | exact keeps_illegal | exact keeps_addr _ | apply keeps_vok | apply keeps_foldl | apply keeps_plainOp | intro _ _ hk | split)
theorem keeps_vAnd {ws : List FieldName} {z : State} {c : VCtx} (hk : Keeps ws z c.s) (v : Vc) (x : Nat) :
    VKeeps ws z (vAnd c v x) := by
  unfold vAnd; try dsimp only
  repeat' (with_reducible first | exact hk | apply keeps_inCore | exact keeps_illegal | exact keeps_addr _ | apply keeps_vok | apply keeps_foldl | apply keeps_plainOp | intro _ _ hk | split)
theorem keeps_vOr {ws : List FieldName} {z : State} {c : VCtx} (hk : Keeps ws z c.s) (v : Vc) (x : Nat) :
    VKeeps ws z (vOr c v x) := by
  unfold vOr; try dsimp only
  repeat' (with_reducible first | exact hk | apply keeps_inCore | exact keeps_illegal | exact keeps_addr _ | apply keeps_vok | apply keeps_foldl | apply keeps_plainOp | intro _ _ hk | split)
theorem keeps_vXor {ws : List FieldName} {z : State} {c : VCtx} (hk : Keeps ws z c.s) (v : Vc) (x : Nat) :
    VKeeps ws z (vXor c v x) := by
  unfold vXor; try dsimp only
  repeat' (with_reducible first | exact hk | apply keeps_inCore | exact keeps_illegal | exact keeps_addr _ | apply keeps_vok | apply keeps_foldl | apply keeps_plainOp | intro _ _ hk | split)
theorem keeps_vSel {ws : List FieldName} {z : State} {c : VCtx} (hk : Keeps ws z c.s) (v : Vc) (x : Nat) :
    VKeeps ws z (vSel c v x) := by
  unfold vSel; try dsimp only
  repeat' (with_reducible first | exact hk | apply keeps_inCore | exact keeps_illegal | exact keeps_addr _ | apply keeps_vok | apply keeps_foldl | apply keeps_inCore | intro _ _ hk | split)
theorem keeps_cmpOp {ws : List FieldName} {z : State} {c : VCtx} (hk : Keeps ws z c.s) (v : Vc) (x : Nat) (g : Int → Int → Bool) :
    VKeeps ws z (cmpOp c v x g) := by
  unfold cmpOp; try dsimp only
  repeat' (with_reducible first | exact hk | apply keeps_inCore | exact keeps_illegal | exact keeps_addr _ | apply keeps_vok | apply keeps_foldl | apply keeps_inCore | intro _ _ hk | split)
theorem keeps_vCmpeq {ws : List FieldName} {z : State} {c : VCtx} (hk : Keeps ws z c.s) (v : Vc) (x : Nat) :
    VKeeps ws z (vCmpeq c v x) := by
  unfold vCmpeq; try dsimp only
  repeat' (with_reducible first | exact hk | apply keeps_inCore | exact keeps_illegal | exact keeps_addr _ | apply keeps_vok | apply keeps_foldl | apply keeps_cmpOp | intro _ _ hk | split)
theorem keeps_vCmplt {ws : List FieldName} {z : State} {c : VCtx} (hk : Keeps ws z c.s) (v : Vc) (x : Nat) :
    VKeeps ws z (vCmplt c v x) := by
  unfold vCmplt; try dsimp only
  repeat' (with_reducible first | exact hk | apply keeps_inCore | exact keeps_illegal | exact keeps_addr _ | apply keeps_vok | apply keeps_foldl | apply keeps_cmpOp | intro _ _ hk | split)
theorem keeps_vCmple {ws : List FieldName} {z : State} {c : VCtx} (hk : Keeps ws z c.s) (v : Vc) (x : Nat) :
    VKeeps ws z (vCmple c v x) := by
  unfold vCmple; try dsimp only
  repeat' (with_reducible first | exact hk | apply keeps_inCore | exact keeps_illegal | exact keeps_addr _ | apply keeps_vok | apply keeps_foldl | apply keeps_cmpOp | intro _ _ hk | split)
theorem keeps_vIota {ws : List FieldName} {z : State} {c : VCtx} (hk : Keeps ws z c.s) (v : Vc) (x : Nat) :
    VKeeps ws z (vIota c v x) := by
  unfold vIota; try dsimp only
  repeat' (with_reducible first | exact hk | apply keeps_inCore | exact keeps_illegal | exact keeps_addr _ | apply keeps_vok | apply keeps_foldl | apply keeps_inCore | intro _ _ hk | split)
theorem keeps_vAlign {ws : List FieldName} {z : State} {c : VCtx} (hk : Keeps ws z c.s) (v : Vc) (x : Nat) :
    VKeeps ws z (vAlign c v x) := by
  unfold vAlign; try dsimp only
  repeat' (with_reducible first | exact hk | apply keeps_inCore | exact keeps_illegal | exact keeps_addr _ | apply keeps_vok | apply keeps_foldl | apply keeps_inCore | intro _ _ hk | split)
theorem keeps_vNorm {ws : List FieldName} {z : State} {c : VCtx} (hk : Keeps ws z c.s) (v : Vc) (x : Nat) :
    VKeeps ws z (vNorm c v x) := by
  unfold vNorm; try dsimp only
  repeat' (with_reducible first | exact hk | apply keeps_inCore | exact keeps_illegal | exact keeps_addr _ | apply keeps_vok | apply keeps_foldl | apply keeps_inCore | intro _ _ hk | split)
theorem keeps_fnOp {ws : List FieldName} {z : State} {c : VCtx} (hk : Keeps ws z c.s) (v : Vc) (x : Nat) (f : Int → Nat → Nat → FnOut) :
    VKeeps ws z (fnOp c v x f) := by
  unfold fnOp; try dsimp only
  repeat' (with_reducible first | exact hk | apply keeps_inCore | exact keeps_illegal | exact keeps_addr _ | apply keeps_vok | apply keeps_foldl | apply keeps_inCore | intro _ _ hk | split)
theorem keeps_vExp2 {ws : List FieldName} {z : State} {c : VCtx} (hk : Keeps ws z c.s) (v : Vc) (x : Nat) :
    VKeeps ws z (vExp2 c v x) := by
  unfold vExp2; try dsimp only
  repeat' (with_reducible first | exact hk | apply keeps_inCore | exact keeps_illegal | exact keeps_addr _ | apply keeps_vok | apply keeps_foldl | apply keeps_fnOp | intro _ _ hk | split)
theorem keeps_vLog2 {ws : List FieldName} {z : State} {c : VCtx} (hk : Keeps ws z c.s) (v : Vc) (x : Nat) :
    VKeeps ws z (vLog2 c v x) := by
  unfold vLog2; try dsimp only
  repeat' (with_reducible first | exact hk | apply keeps_inCore | exact keeps_illegal | exact keeps_addr _ | apply keeps_vok | apply keeps_foldl | apply keeps_fnOp | intro _ _ hk | split)
theorem keeps_vRcp {ws : List FieldName} {z : State} {c : VCtx} (hk : Keeps ws z c.s) (v : Vc) (x : Nat) :
    VKeeps ws z (vRcp c v x) := by
  unfold vRcp; try dsimp only
  repeat' (with_reducible first | exact hk | apply keeps_inCore | exact keeps_illegal | exact keeps_addr _ | apply keeps_vok | apply keeps_foldl | apply keeps_fnOp | intro _ _ hk | split)
theorem keeps_vRsqrt {ws : List FieldName} {z : State} {c : VCtx} (hk : Keeps ws z c.s) (v : Vc) (x : Nat) :
    VKeeps ws z (vRsqrt c v x) := by
  unfold vRsqrt; try dsimp only
  repeat' (with_reducible first | exact hk | apply keeps_inCore | exact keeps_illegal | exact keeps_addr _ | apply keeps_vok | apply keeps_foldl | apply keeps_fnOp | intro _ _ hk | split)
theorem keeps_vLogistic {ws : List FieldName} {z : State} {c : VCtx} (hk : Keeps ws z c.s) (v : Vc) (x : Nat) :
    VKeeps ws z (vLogistic c v x) := by
  unfold vLogistic; try dsimp only
  repeat' (with_reducible first | exact hk | apply keeps_inCore | exact keeps_illegal | exact keeps_addr _ | apply keeps_vok | apply keeps_foldl | apply keeps_fnOp | intro _ _ hk | split)
theorem keeps_redOp {ws : List FieldName} {z : State} {c : VCtx} (hk : Keeps ws z c.s) (v : Vc) (x : Nat) (d : Red) :
    VKeeps ws z (redOp c v x d) := by
  unfold redOp; try dsimp only
  repeat' (with_reducible first | exact hk | apply keeps_inCore | exact keeps_illegal | exact keeps_addr _ | apply keeps_vok | apply keeps_foldl | apply keeps_inCore | intro _ _ hk | split)
theorem keeps_vRsum {ws : List FieldName} {z : State} {c : VCtx} (hk : Keeps ws z c.s) (v : Vc) (x : Nat) :
    VKeeps ws z (vRsum c v x) := by
  unfold vRsum; try dsimp only
  repeat' (with_reducible first | exact hk | apply keeps_inCore | exact keeps_illegal | exact keeps_addr _ | apply keeps_vok | apply keeps_foldl | apply keeps_redOp | intro _ _ hk | split)
theorem keeps_vRssq {ws : List FieldName} {z : State} {c : VCtx} (hk : Keeps ws z c.s) (v : Vc) (x : Nat) :
    VKeeps ws z (vRssq c v x) := by
  unfold vRssq; try dsimp only
  repeat' (with_reducible first | exact hk | apply keeps_inCore | exact keeps_illegal | exact keeps_addr _ | apply keeps_vok | apply keeps_foldl | apply keeps_redOp | intro _ _ hk | split)
theorem keeps_vRmax {ws : List FieldName} {z : State} {c : VCtx} (hk : Keeps ws z c.s) (v : Vc) (x : Nat) :
    VKeeps ws z (vRmax c v x) := by
  unfold vRmax; try dsimp only
  repeat' (with_reducible first | exact hk | apply keeps_inCore | exact keeps_illegal | exact keeps_addr _ | apply keeps_vok | apply keeps_foldl | apply keeps_redOp | intro _ _ hk | split)
theorem keeps_vRmin {ws : List FieldName} {z : State} {c : VCtx} (hk : Keeps ws z c.s) (v : Vc) (x : Nat) :
    VKeeps ws z (vRmin c v x) := by
  unfold vRmin; try dsimp only
  repeat' (with_reducible first | exact hk | apply keeps_inCore | exact keeps_illegal | exact keeps_addr _ | apply keeps_vok | apply keeps_foldl | apply keeps_redOp | intro _ _ hk | split)
theorem keeps_vRargmax {ws : List FieldName} {z : State} {c : VCtx} (hk : Keeps ws z c.s) (v : Vc) (x : Nat) :
    VKeeps ws z (vRargmax c v x) := by
  unfold vRargmax; try dsimp only
  repeat' (with_reducible first | exact hk | apply keeps_inCore | exact keeps_illegal | exact keeps_addr _ | apply keeps_vok | apply keeps_foldl | apply keeps_redOp | intro _ _ hk | split)
theorem keeps_vRargmin {ws : List FieldName} {z : State} {c : VCtx} (hk : Keeps ws z c.s) (v : Vc) (x : Nat) :
    VKeeps ws z (vRargmin c v x) := by
  unfold vRargmin; try dsimp only
  repeat' (with_reducible first | exact hk | apply keeps_inCore | exact keeps_illegal | exact keeps_addr _ | apply keeps_vok | apply keeps_foldl | apply keeps_redOp | intro _ _ hk | split)
theorem keeps_vRcount {ws : List FieldName} {z : State} {c : VCtx} (hk : Keeps ws z c.s) (v : Vc) (x : Nat) :
    VKeeps ws z (vRcount c v x) := by
  unfold vRcount; try dsimp only
  repeat' (with_reducible first | exact hk | apply keeps_inCore | exact keeps_illegal | exact keeps_addr _ | apply keeps_vok | apply keeps_foldl | apply keeps_redOp | intro _ _ hk | split)
theorem keeps_vRmean {ws : List FieldName} {z : State} {c : VCtx} (hk : Keeps ws z c.s) (v : Vc) (x : Nat) :
    VKeeps ws z (vRmean c v x) := by
  unfold vRmean; try dsimp only
  repeat' (with_reducible first | exact hk | apply keeps_inCore | exact keeps_illegal | exact keeps_addr _ | apply keeps_vok | apply keeps_foldl | apply keeps_redOp | intro _ _ hk | split)
theorem keeps_vMov {ws : List FieldName} {z : State} {c : VCtx} (hk : Keeps ws z c.s) (v : Vc) (x : Nat) :
    VKeeps ws z (vMov c v x) := by
  unfold vMov; try dsimp only
  repeat' (with_reducible first | exact hk | apply keeps_inCore | exact keeps_illegal | exact keeps_addr _ | apply keeps_vok | apply keeps_foldl | apply keeps_inCore | intro _ _ hk | split)
theorem keeps_vTrans {ws : List FieldName} {z : State} {c : VCtx} (hk : Keeps ws z c.s) (v : Vc) (x : Nat) :
    VKeeps ws z (vTrans c v x) := by
  unfold vTrans; try dsimp only
  repeat' (with_reducible first | exact hk | apply keeps_inCore | exact keeps_illegal | exact keeps_addr _ | apply keeps_vok | apply keeps_foldl | apply keeps_inCore | intro _ _ hk | split)
theorem keeps_vShuf {ws : List FieldName} {z : State} {c : VCtx} (hk : Keeps ws z c.s) (v : Vc) (x : Nat) :
    VKeeps ws z (vShuf c v x) := by
  unfold vShuf; try dsimp only
  repeat' (with_reducible first | exact hk | apply keeps_inCore | exact keeps_illegal | exact keeps_addr _ | apply keeps_vok | apply keeps_foldl | apply keeps_inCore | intro _ _ hk | split)
theorem keeps_vSetexp {ws : List FieldName} {z : State} {c : VCtx} (hk : Keeps ws z c.s) (v : Vc) (x : Nat) :
    VKeeps ws z (vSetexp c v x) := by
  unfold vSetexp; try dsimp only
  repeat' (with_reducible first | exact hk | apply keeps_inCore | exact keeps_illegal | exact keeps_addr _ | apply keeps_vok | apply keeps_foldl | apply keeps_inCore | intro _ _ hk | split)
theorem keeps_plogic {ws : List FieldName} {z : State} {c : VCtx} (hk : Keeps ws z c.s) (v : Vc) (x : Nat) (two : Bool) (g : Bool → Bool → Bool) :
    VKeeps ws z (plogic c v x two g) := by
  unfold plogic; try dsimp only
  repeat' (with_reducible first | exact hk | apply keeps_inCore | exact keeps_illegal | exact keeps_addr _ | apply keeps_vok | apply keeps_foldl | apply keeps_inCore | intro _ _ hk | split)
theorem keeps_vPand {ws : List FieldName} {z : State} {c : VCtx} (hk : Keeps ws z c.s) (v : Vc) (x : Nat) :
    VKeeps ws z (vPand c v x) := by
  unfold vPand; try dsimp only
  repeat' (with_reducible first | exact hk | apply keeps_inCore | exact keeps_illegal | exact keeps_addr _ | apply keeps_vok | apply keeps_foldl | apply keeps_plogic | intro _ _ hk | split)
theorem keeps_vPor {ws : List FieldName} {z : State} {c : VCtx} (hk : Keeps ws z c.s) (v : Vc) (x : Nat) :
    VKeeps ws z (vPor c v x) := by
  unfold vPor; try dsimp only
  repeat' (with_reducible first | exact hk | apply keeps_inCore | exact keeps_illegal | exact keeps_addr _ | apply keeps_vok | apply keeps_foldl | apply keeps_plogic | intro _ _ hk | split)
theorem keeps_vPxor {ws : List FieldName} {z : State} {c : VCtx} (hk : Keeps ws z c.s) (v : Vc) (x : Nat) :
    VKeeps ws z (vPxor c v x) := by
  unfold vPxor; try dsimp only
  repeat' (with_reducible first | exact hk | apply keeps_inCore | exact keeps_illegal | exact keeps_addr _ | apply keeps_vok | apply keeps_foldl | apply keeps_plogic | intro _ _ hk | split)
theorem keeps_vPnot {ws : List FieldName} {z : State} {c : VCtx} (hk : Keeps ws z c.s) (v : Vc) (x : Nat) :
    VKeeps ws z (vPnot c v x) := by
  unfold vPnot; try dsimp only
  repeat' (with_reducible first | exact hk | apply keeps_inCore | exact keeps_illegal | exact keeps_addr _ | apply keeps_vok | apply keeps_foldl | apply keeps_plogic | intro _ _ hk | split)
theorem keeps_vLd {ws : List FieldName} (hw : Among [.parts, .snoops] ws) {z : State} {c : VCtx} (hk : Keeps ws z c.s) (v : Vc) (x : Nat) :
    VKeeps ws z (vLd c v x) := by
  unfold vLd; try dsimp only
  repeat' (with_reducible first | exact hk | apply keeps_inCore | exact keeps_illegal | exact keeps_addr _ | apply keeps_vok | apply keeps_foldl | apply keeps_noteRead (hw.mono (by decide)) | intro _ _ hk | split)
theorem keeps_vSt {ws : List FieldName} (hw : Among [.mem, .parts, .snoops] ws) {z : State} {c : VCtx} (hk : Keeps ws z c.s) (v : Vc) (x : Nat) :
    VKeeps ws z (vSt c v x) := by
  unfold vSt; try dsimp only
  repeat' (with_reducible first | exact hk | apply keeps_inCore | exact keeps_illegal | exact keeps_addr _ | apply keeps_vok | apply keeps_foldl | apply keeps_store (hw.mono (by decide)) | intro _ _ hk | split)
theorem keeps_vGather {ws : List FieldName} (hw : Among [.parts, .snoops] ws) {z : State} {c : VCtx} (hk : Keeps ws z c.s) (v : Vc) (x : Nat) :
    VKeeps ws z (vGather c v x) := by
  unfold vGather; try dsimp only
  repeat' (with_reducible first | exact hk | apply keeps_inCore | exact keeps_illegal | exact keeps_addr _ | apply keeps_vok | apply keeps_foldl | apply keeps_noteRead (hw.mono (by decide)) | intro _ _ hk | split)
theorem keeps_vScatter {ws : List FieldName} (hw : Among [.mem, .parts, .snoops] ws) {z : State} {c : VCtx} (hk : Keeps ws z c.s) (v : Vc) (x : Nat) :
    VKeeps ws z (vScatter c v x) := by
  unfold vScatter; try dsimp only
  repeat' (with_reducible first | exact hk | apply keeps_inCore | exact keeps_illegal | exact keeps_addr _ | apply keeps_vok | apply keeps_foldl | apply keeps_store (hw.mono (by decide)) | intro _ _ hk | split)
theorem keeps_vLdexp {ws : List FieldName} (hw : Among [.parts, .snoops] ws) {z : State} {c : VCtx} (hk : Keeps ws z c.s) (v : Vc) (x : Nat) :
    VKeeps ws z (vLdexp c v x) := by
  unfold vLdexp; try dsimp only
  repeat' (with_reducible first | exact hk | apply keeps_inCore | exact keeps_illegal | exact keeps_addr _ | apply keeps_vok | apply keeps_foldl | apply keeps_load | apply keeps_noteRead (hw.mono (by decide)) | intro _ _ hk | split)
theorem keeps_vSttag {ws : List FieldName} (hw : Among [.mem, .parts, .snoops] ws) {z : State} {c : VCtx} (hk : Keeps ws z c.s) (v : Vc) (x : Nat) :
    VKeeps ws z (vSttag c v x) := by
  unfold vSttag; try dsimp only
  repeat' (with_reducible first | exact hk | apply keeps_inCore | exact keeps_illegal | exact keeps_addr _ | apply keeps_vok | apply keeps_foldl | apply keeps_store (hw.mono (by decide)) | intro _ _ hk | split)
theorem keeps_vCvt {ws : List FieldName} {z : State} {c : VCtx} (hk : Keeps ws z c.s) (v : Vc) (x : Nat) :
    VKeeps ws z (vCvt c v x) := by
  unfold vCvt; try dsimp only
  repeat' (with_reducible first | exact hk | apply keeps_inCore | exact keeps_illegal | exact keeps_addr _ | apply keeps_vok | apply keeps_foldl | apply keeps_inCore | intro _ _ hk | split)
theorem keeps_vRand {ws : List FieldName} {z : State} {c : VCtx} (hk : Keeps ws z c.s) (v : Vc) (x : Nat) :
    VKeeps ws z (vRand c v x) := by
  unfold vRand; try dsimp only
  repeat' (with_reducible first | exact hk | apply keeps_inCore | exact keeps_illegal | exact keeps_addr _ | apply keeps_vok | apply keeps_foldl | apply keeps_inCore | intro _ _ hk | split)

/-! ### Vector -/

theorem keeps_stopVcs {ws : List FieldName} (hw : Among [.parts, .vcs] ws) {z s : State} (hk : Keeps ws z s) (r : BitVec 20 × BitVec 24) :
    Keeps ws z (stopVcs s r) := by
  unfold stopVcs; try dsimp only
  repeat' (with_reducible first | exact hk | apply keeps_freeVcs (hw.mono (by decide))  | apply keeps_ite | intro _ _ hk | split)
theorem keeps_vcFault {ws : List FieldName} (hw : Among [.queues, .parts, .vcs] ws) {z s : State} (hk : Keeps ws z s) (n : Nat) (r : BitVec 20 × BitVec 24) (st : BitVec 8) (pc faddr : Nat) :
    Keeps ws z (vcFault s n r st pc faddr) := by
  unfold vcFault; try dsimp only
  repeat' (with_reducible first | exact hk | apply keeps_endWork (hw.mono (by decide)) | apply keeps_modStarted (hw.mono (by decide)) | apply keeps_stopVcs (hw.mono (by decide))  | apply keeps_ite | intro _ _ hk | split)
theorem keeps_settleVc {ws : List FieldName} (hw : Among [.queues, .parts, .vcs] ws) {z s : State} (hk : Keeps ws z s) (n : Nat) :
    Keeps ws z (settleVc s n) := by
  unfold settleVc; try dsimp only
  repeat' (with_reducible first | exact hk | apply keeps_vcFault (hw.mono (by decide))  | apply keeps_ite | intro _ _ hk | split)
theorem keeps_vcEvents {ws : List FieldName} (hw : Among [.queues, .parts] ws) {z s : State} (hk : Keeps ws z s) (k n pc : Nat) (r : BitVec 20 × BitVec 24) (a : VAcc) :
    Keeps ws z (vcEvents s k n pc r a) := by
  unfold vcEvents; try dsimp only
  repeat' (with_reducible first | exact hk | apply keeps_countDiv0 (hw.mono (by decide)) | apply keeps_countNan (hw.mono (by decide)) | apply keeps_countEvt (hw.mono (by decide)) | apply keeps_modStarted (hw.mono (by decide))  | apply keeps_ite | intro _ _ hk | split)
theorem keeps_runVc {ws : List FieldName} (hw : Among [.queues, .parts, .vcs] ws) {z s : State} (hk : Keeps ws z s) {n opc : Nat} {f : VCtx → Vc → Nat → VOut}
    (hf : ∀ c v x, Keeps ws z c.s → VKeeps ws z (f c v x)) : Keeps ws z (runVc s n opc f) := by
  unfold runVc; dsimp only
  split
  · exact hk
  · split
    · exact keeps_vcFault (hw.mono (by decide)) hk _ _ _ _ _
    · exact keeps_vcFault (hw.mono (by decide)) hk _ _ _ _ _
    · rename_i he
      exact keeps_settleVc (hw.mono (by decide)) (keeps_vcEvents (hw.mono (by decide)) (keeps_putVc (hw.mono (by decide)) (hf _ _ _ (by exact hk) _ _ _ he) _ _) _ _ _ _ _) _
theorem keeps_endVc {ws : List FieldName} (hw : Among [.queues, .parts, .vcs] ws) {z s : State} (hk : Keeps ws z s) (n : Nat) :
    Keeps ws z (endVc s n) := by
  unfold endVc; try dsimp only
  repeat' (with_reducible first | exact hk | apply keeps_vcFault (hw.mono (by decide)) | apply keeps_putVc (hw.mono (by decide)) | apply keeps_endWork (hw.mono (by decide)) | apply keeps_stopVcs (hw.mono (by decide))  | apply keeps_ite | intro _ _ hk | split)

/-! ### Migration -/

theorem keeps_modPage {ws : List FieldName} (hw : Among [.parts] ws) {z s : State} (hk : Keeps ws z s) (k r : Nat) (f : PageRec → PageRec) :
    Keeps ws z (modPage s k r f) := by
  unfold modPage; try dsimp only
  repeat' (with_reducible first | exact hk | apply keeps_modPart (hw.mono (by decide))  | apply keeps_ite | intro _ _ hk | split)
theorem keeps_startCopy {ws : List FieldName} (hw : Among [.parts] ws) {z s : State} (hk : Keeps ws z s) (k : Nat) :
    Keeps ws z (startCopy s k) := by
  unfold startCopy; try dsimp only
  repeat' (with_reducible first | exact hk | apply keeps_modPage (hw.mono (by decide))  | apply keeps_ite | intro _ _ hk | split)
theorem keeps_acceptPage {ws : List FieldName} (hw : Among [.parts, .order] ws) {z s : State} (hk : Keeps ws z s) (k r : Nat) (st : PageSt) (boost : Bool) (f : PageRec → PageRec) :
    Keeps ws z (acceptPage s k r st boost f) := by
  unfold acceptPage; try dsimp only
  repeat' (with_reducible first | exact hk | apply keeps_setOrder (hw.mono (by decide)) | apply keeps_startCopy (hw.mono (by decide)) | apply keeps_modPage (hw.mono (by decide))  | apply keeps_ite | intro _ _ hk | split)
/-- What an evaluated page request leaves is kept. -/
def PKeeps (ws : List FieldName) (z : State) : PageAcc → Prop
  | .victim _ s | .busy s _ | .done s _ => Keeps ws z s
  | _ => True
theorem keeps_acceptPromote {ws : List FieldName} (hw : Among [.parts, .order] ws) {z s : State} (hk : Keeps ws z s) (k r d : Nat) (boost pin : Bool) (victim : Option Nat) :
    PKeeps ws z (acceptPromote s k r d boost pin victim) := by
  unfold acceptPromote; dsimp only
  repeat' split
  · exact keeps_modPart (hw.mono (by decide)) (keeps_acceptPage (hw.mono (by decide)) hk _ _ _ _ _) _ _
  · trivial
  · exact keeps_acceptPage (hw.mono (by decide)) hk _ _ _ _ _
  · trivial
theorem keeps_evalPage {ws : List FieldName} (hw : Among [.parts, .order] ws) {z s : State} (hk : Keeps ws z s) (k c pg : Nat) (victim : Option Nat) : PKeeps ws z (evalPage s k c pg victim) := by
  unfold evalPage; dsimp only
  repeat' split
  all_goals first
    | trivial | exact keeps_acceptPromote (hw.mono (by decide)) hk _ _ _ _ _ _ | exact hk | exact keeps_modPage (hw.mono (by decide)) hk _ _ _ | exact keeps_acceptPage (hw.mono (by decide)) hk _ _ _ _ _
theorem keeps_flushPages {ws : List FieldName} (hw : Among [.ctrs, .queues, .parts, .link, .vectors] ws) {z s : State} (hk : Keeps ws z s) (k q : Nat) (idx : BitVec 24) (c : Nat) (todo : List Nat)
    (victim : Option Nat) (pins : List Nat) (busy : List (Nat × Bool)) :
    Keeps ws z (flushPages s k q idx c todo victim pins busy) := by
  induction busy generalizing s with
  | nil => unfold flushPages; exact keeps_modStarted (hw.mono (by decide)) hk _ _ _
  | cons b r ih =>
    unfold flushPages
    split
    · rename_i he; cases he
      apply ih
      split
      · exact keeps_addCtr (hw.mono (by decide)) hk _ _ _
      · exact hk
    · exact keeps_modStarted (hw.mono (by decide)) hk _ _ _
theorem keeps_pumpCmd {ws : List FieldName} (hw : Among [.ctrs, .queues, .parts, .link, .vectors, .order] ws) {z s : State} (hk : Keeps ws z s) (k q : Nat) (idx : BitVec 24) (c : Nat) (busy : List (Nat × Bool))
    (victim : Option Nat) (pins : List Nat) (todo : List Nat) : Keeps ws z (pumpCmd s k q idx c busy victim pins todo) := by
  induction todo generalizing s busy victim pins with
  | nil => exact keeps_flushPages (hw.mono (by decide)) hk _ _ _ _ _ _ _ _
  | cons pg todo ih =>
    have he := keeps_evalPage (hw.mono (by decide)) hk k c pg victim
    unfold pumpCmd; dsimp only
    split <;> rename_i e <;> rw [e] at he
    · exact keeps_flushPages (hw.mono (by decide)) hk _ _ _ _ _ _ _ _
    · exact keeps_flushPages (hw.mono (by decide)) he _ _ _ _ _ _ _ _
    · exact ih he _ _ _
    · exact ih he _ _ _
    · exact keeps_flushPages (hw.mono (by decide)) (keeps_modStarted (hw.mono (by decide)) (keeps_foldl (fun s x hs => keeps_modPage (hw.mono (by decide)) hs _ _ _) hk) _ _ _) _ _ _ _ _ _ _ _
theorem keeps_pumpStarted {ws : List FieldName} (hw : Among [.ctrs, .queues, .parts, .link, .vectors, .order] ws) {z s : State} (hk : Keeps ws z s) (k q : Nat) (r : Started) : Keeps ws z (pumpStarted s k q r) := by
  unfold pumpStarted
  split
  · exact keeps_pumpCmd (hw.mono (by decide)) hk _ _ _ _ _ _ _ _
  · exact hk
theorem keeps_startPages {ws : List FieldName} (hw : Among [.ctrs, .queues, .parts, .link, .vectors, .order] ws) {z s : State} (hk : Keeps ws z s) (k q : Nat) (idx : BitVec 24) :
    Keeps ws z (startPages s k q idx) := by
  unfold startPages; try dsimp only
  repeat' (with_reducible first | exact hk | apply keeps_pumpStarted (hw.mono (by decide))  | apply keeps_ite | intro _ _ hk | split)
theorem keeps_withPages {ws : List FieldName} (hw : Among [.order] ws) {z s : State} (hk : Keeps ws z s) (pages : List Nat) :
    Keeps1 ws z (withPages s pages) := by
  unfold withPages; try dsimp only
  repeat' (with_reducible first | exact hk | apply keeps_setOrder (hw.mono (by decide))  | apply keeps1_mk | apply keeps_ite | intro _ _ hk | split)
theorem keepsf_withPages {ws : List FieldName} (hw : Among [.order] ws) {z s : State} (hk : Keeps ws z s) (pages : List Nat) : Keeps ws z (withPages s pages).1 := keeps1_fst (by apply keeps_withPages (hw.mono (by decide)); exact hk)
theorem keeps_movePages {ws : List FieldName} (hw : Among [.ctrs, .queues, .parts, .link, .vectors, .order] ws) {z s : State} (hk : Keeps ws z s) (q : Nat) (k : Nat) (r : Started) :
    Keeps ws z (movePages q s k r) := by
  unfold movePages; try dsimp only
  repeat' (with_reducible first | exact hk | apply keeps_startPages (hw.mono (by decide))  | apply keeps_ite | intro _ _ hk | split)
theorem keeps_runMigrate {ws : List FieldName} (hw : Among [.ctrs, .queues, .parts, .link, .vectors, .order, .snoops] ws) {z s : State} (hk : Keeps ws z s) (q : Qid) (op : Nat) : Keeps ws z (runMigrate q op s) := by
  unfold runMigrate
  exact keeps_startThen (hw.mono (by decide)) hk (fun s k c h => keeps1_ite (keeps1_mk h) (keeps_withPages (hw.mono (by decide)) h _)) fun s k r h => keeps_movePages (hw.mono (by decide)) h _ _ _
theorem keeps_copySector {ws : List FieldName} (hw : Among [.mem, .parts] ws) {z s : State} (hk : Keeps ws z s) (k r : Nat) :
    Keeps ws z (copySector s k r) := by
  unfold copySector; try dsimp only
  repeat' (with_reducible first | exact hk | apply keeps_setMem (hw.mono (by decide)) | apply keeps_modPage (hw.mono (by decide))  | apply keeps_ite | intro _ _ hk | split)
  all_goals exact fun h => memWf_copy _ _ _ _ h
theorem keeps_copyRest {ws : List FieldName} (hw : Among [.mem, .parts] ws) {z s : State} (hk : Keeps ws z s) (k r : Nat) :
    Keeps ws z (copyRest s k r) := by
  unfold copyRest; try dsimp only
  repeat' (with_reducible first | exact hk | apply keeps_copySector (hw.mono (by decide)) | apply keeps_foldl  | apply keeps_ite | intro _ _ hk | split)
theorem keeps_pageDone {ws : List FieldName} (hw : Among [.ctrs, .queues, .parts, .link, .vectors] ws) {z s : State} (hk : Keeps ws z s) (k r : Nat) : Keeps ws z (pageDone s k r) := by
  unfold pageDone
  refine keeps_foldl (fun s q h => ?_) (keeps_startCopy (hw.mono (by decide)) hk _)
  split
  · split
    · exact keeps_flushPages (hw.mono (by decide)) h _ _ _ _ _ _ _ _
    · exact h
  · exact h
theorem keeps_lateStep {ws : List FieldName} (hw : Among [.parts] ws) {z s : State} (hk : Keeps ws z s) (k : Nat) :
    Keeps ws z (lateStep s k) := by
  unfold lateStep; try dsimp only
  repeat' (with_reducible first | exact hk | apply keeps_modPage (hw.mono (by decide)) | apply keeps_modHealth (hw.mono (by decide)) | apply keeps_foldl  | apply keeps_ite | intro _ _ hk | split)
theorem keeps_copyStep {ws : List FieldName} (hw : Among [.mem, .parts] ws) {z s : State} (hk : Keeps ws z s) (k : Nat) :
    Keeps ws z (copyStep s k) := by
  unfold copyStep; try dsimp only
  repeat' (with_reducible first | exact hk | apply keeps_copySector (hw.mono (by decide)) | apply keeps_foldl  | apply keeps_ite | intro _ _ hk | split)

/-! ### Update -/

theorem keeps_noteUpdate {ws : List FieldName} (hw : Among [.parts, .snoops] ws) {z s : State} (hk : Keeps ws z s) (k c : Nat) :
    Keeps ws z (noteUpdate s k c) := by
  unfold noteUpdate; dsimp only
  split
  · exact keeps_noteIf (hw.mono (by decide)) (keeps_noteIf (hw.mono (by decide)) hk _ _ _) _ _ _
  · exact keeps_noteIf (hw.mono (by decide)) hk _ _ _
theorem keeps_backNote {ws : List FieldName} (hw : Among [.parts] ws) {z s : State} (hk : Keeps ws z s) (k a n : Nat) :
    Keeps ws z (backNote s k a n) := by
  unfold backNote; try dsimp only
  repeat' (with_reducible first | exact hk | apply keeps_modPart (hw.mono (by decide))  | apply keeps_ite | intro _ _ hk | split)
def KeepsU (ws : List FieldName) (z : State) (a : UAcc) : Prop := Keeps ws z a.s
def KeepsU1 (ws : List FieldName) {β : Type} (z : State) (p : UAcc × β) : Prop := KeepsU ws z p.1
theorem keepsU1_mk {ws : List FieldName} {β : Type} {z : State} {a : UAcc} {b : β} (h : KeepsU ws z a) : KeepsU1 ws z (a, b) := h
theorem keepsU1_fst {ws : List FieldName} {β : Type} {z : State} {p : UAcc × β} (h : KeepsU1 ws z p) : KeepsU ws z p.1 := h
theorem keepsU_mk {ws : List FieldName} {z s : State} (h : Keeps ws z s) : KeepsU ws z { s := s } := h
theorem keepsU_s {ws : List FieldName} {z : State} {a : UAcc} (h : KeepsU ws z a) : Keeps ws z a.s := h
theorem keepsU_foldl {ws : List FieldName} {α : Type} {z : State} {a : UAcc} {f : UAcc → α → UAcc} {l : List α}
    (hf : ∀ a x, KeepsU ws z a → KeepsU ws z (f a x)) (h : KeepsU ws z a) : KeepsU ws z (l.foldl f a) := by
  induction l generalizing a with
  | nil => exact h
  | cons x r ih => exact ih (hf _ _ h)
theorem keepsU1_foldl {ws : List FieldName} {α β : Type} {z : State} {a : UAcc × β} {f : UAcc × β → α → UAcc × β} {l : List α}
    (hf : ∀ a x, KeepsU1 ws z a → KeepsU1 ws z (f a x)) (h : KeepsU1 ws z a) : KeepsU1 ws z (l.foldl f a) := by
  induction l generalizing a with
  | nil => exact h
  | cons x r ih => exact ih (hf _ _ h)
theorem keeps_uWrite {ws : List FieldName} (hw : Among [.mem, .parts, .snoops] ws) {z : State} {a : UAcc} (hk : KeepsU ws z a) (k addr : Nat) (b : Bytes) : KeepsU ws z (uWrite k a addr b) := by
  unfold uWrite
  split
  · exact hk
  · split
    · exact hk
    · refine keepsU_foldl (fun a x h => ?_) hk
      dsimp only
      split
      · exact h
      · exact keeps_backNote (hw.mono (by decide)) (keeps_store (hw.mono (by decide)) h _ _ _) _ _ _
theorem keeps_uEvents {ws : List FieldName} {z : State} {a : UAcc} (hk : KeepsU ws z a) (serving : Bool) (e : Evt) (nans : Nat) :
    KeepsU ws z (uEvents a serving e nans) := by
  unfold uEvents; dsimp only; split <;> exact hk
theorem keeps_uEncode {ws : List FieldName} (hw : Among [.mem, .parts, .snoops] ws) {z : State} {a : UAcc} (hk : KeepsU ws z a) (k n g : Nat) (serving : Bool) (ea sa : Nat) (vs : List Exact) :
    KeepsU ws z (uEncode k n g serving a ea sa vs) := by
  unfold uEncode; dsimp only
  exact keeps_uWrite (hw.mono (by decide)) (keeps_uWrite (hw.mono (by decide)) (keeps_uEvents hk _ _ _) _ _ _) _ _ _
theorem keeps_encMoment {ws : List FieldName} (hw : Among [.mem, .parts, .snoops] ws) {z : State} (x : UCtx) (r c0 j : Nat) (ae : UAcc × List UEl) (hk : KeepsU1 ws z ae) :
    KeepsU1 ws z (encMoment x r c0 j ae) := by
  unfold encMoment KeepsU1; dsimp only
  exact keeps_uWrite (hw.mono (by decide)) (keeps_uWrite (hw.mono (by decide)) (keeps_uEvents hk _ _ _) _ _ _) _ _ _
theorem keeps_encGroup {ws : List FieldName} (hw : Among [.mem, .parts, .snoops] ws) {z : State} (x : UCtx) (r c0 : Nat) (ae : UAcc × List UEl) (hk : KeepsU1 ws z ae) :
    KeepsU1 ws z (encGroup x r c0 ae) := by
  unfold encGroup; dsimp only
  split
  · exact keeps_encMoment (hw.mono (by decide)) _ _ _ _ _ (keeps_encMoment (hw.mono (by decide)) _ _ _ _ _ hk)
  · exact keeps_encMoment (hw.mono (by decide)) _ _ _ _ _ hk
theorem keeps_runGroup {ws : List FieldName} (hw : Among [.mem, .parts, .snoops] ws) {z : State} {a : UAcc} (hk : KeepsU ws z a) (x : UCtx) (ops : List MOp) (cw r c0 : Nat) :
    KeepsU1 ws z (runGroup x ops cw r c0 a) := by
  have h : ∀ ae : UAcc × List UEl, KeepsU1 ws z ae → ∀ n es, KeepsU1 ws z ({ ae.1 with div0 := ae.1.div0 + n }, (es : List UEl)) :=
    fun ae h n es => h
  unfold runGroup; dsimp only
  refine h _ ?_ _ _
  split
  · exact hk
  · exact keeps_encGroup (hw.mono (by decide)) _ _ _ _ hk
theorem keeps_endGroup {ws : List FieldName} (hw : Among [.mem, .parts, .snoops] ws) {z : State} {a : UAcc} (hk : KeepsU ws z a) (x : UCtx) (cw rc r c0 : Nat) (es : List UEl) :
    KeepsU ws z (endGroup x cw rc r c0 a es) := by
  unfold endGroup; dsimp only
  repeat' (with_reducible first | exact hk | apply keeps_uEncode (hw.mono (by decide)) | apply keeps_uWrite (hw.mono (by decide)) | apply keeps_uEvents | split)
theorem keeps_endRowCode {ws : List FieldName} (hw : Among [.mem, .parts, .snoops] ws) {z : State} {a : UAcc} (hk : KeepsU ws z a) (x : UCtx) (rc r : Nat) : KeepsU ws z (endRowCode x rc r a) := by
  unfold endRowCode; dsimp only
  split
  · exact hk
  · apply keeps_uWrite (hw.mono (by decide))
    split <;> exact hk
theorem keeps_runRow {ws : List FieldName} (hw : Among [.mem, .parts, .snoops] ws) {z : State} {a : UAcc} (hk : KeepsU ws z a) (x : UCtx) (ops : List MOp) (r : Nat) : KeepsU ws z (runRow x ops a r) := by
  unfold runRow
  split
  · exact hk
  · refine keepsU_foldl (fun a e he => keeps_endGroup (hw.mono (by decide)) he _ _ _ _ _ _) (keeps_endRowCode (hw.mono (by decide)) ?_ _ _ _)
    exact keepsU1_foldl (fun b c h => keeps_runGroup (hw.mono (by decide)) h _ _ _ _ _) hk
theorem keeps_factorArray {ws : List FieldName} (hw : Among [.mem, .parts, .snoops] ws) {z : State} {a : UAcc} (hk : KeepsU ws z a) (x : UCtx) (ai si count : Nat) (sums : List Int) :
    KeepsU1 ws z (factorArray x ai si count sums a) := by
  unfold factorArray KeepsU1; dsimp only
  exact keeps_uWrite (hw.mono (by decide)) (keeps_uWrite (hw.mono (by decide)) (keeps_uEvents hk _ _ _) _ _ _) _ _ _
theorem keeps_factorSweep {ws : List FieldName} (hw : Among [.mem, .parts, .snoops] ws) {z : State} {a : UAcc} (hk : KeepsU ws z a) (x : UCtx) : KeepsU1 ws z (factorSweep x a) := by
  unfold factorSweep KeepsU1; dsimp only
  exact keeps_factorArray (hw.mono (by decide)) (keeps_factorArray (hw.mono (by decide)) (keeps_uWrite (hw.mono (by decide)) hk _ _ _) _ _ _ _ _) _ _ _ _ _
theorem keeps_lastGroup {ws : List FieldName} (hw : Among [.mem, .parts, .pipes, .snoops] ws) {z s : State} (hk : Keeps ws z s) (pipe q : Nat) (idx : BitVec 24) (x : UCtx) (ops : List MOp) :
    Keeps ws z (lastGroup s pipe q idx x ops) := by
  unfold lastGroup; try dsimp only
  repeat' (with_reducible first | exact hk | apply keeps_putPipe (hw.mono (by decide))  | apply keeps_ite | intro _ _ hk | split)
theorem keeps_updateStart {ws : List FieldName} (hw : Among [.mem, .parts, .snoops] ws) {z s : State} (hk : Keeps ws z s) (k c d : Nat) (ops : List MOp) : KeepsU1 ws z (updateStart s k c d ops) := by
  have h0 := keeps_foldl (l := uReads c d) (fun s u h => keeps_noteRead (hw.mono (by decide)) (k := k) (a := u.1) (n := u.2.1) h) hk
  have h1 := keeps_ite (c := readsHp c ops = true)
    (keeps_noteRead (hw.mono (by decide)) h0 k (uAddr d uHp) 64) h0
  unfold updateStart; dsimp only
  split
  · exact keepsU1_mk (keepsU1_fst (keeps_factorSweep (hw.mono (by decide)) (keepsU_mk h1) _))
  · exact keepsU1_mk (keepsU_mk h1)
theorem keeps_updateEnd {ws : List FieldName} (hw : Among [.mem, .queues, .parts, .pipes, .snoops] ws) {z : State} {a : UAcc} (hk : KeepsU ws z a) (x : UCtx) (k q pipe : Nat) (idx : BitVec 24) (c : Nat)
    (ops : List MOp) : Keeps1 ws z (updateEnd a x k q pipe idx c ops) := by
  unfold updateEnd; dsimp only
  exact keeps1_mk (keeps_lastGroup (hw.mono (by decide)) (keeps_countDiv0 (hw.mono (by decide)) (keeps_countNan (hw.mono (by decide)) (keeps_countEvt (hw.mono (by decide)) (keepsU_s hk) _ _ _) _ _) _ _) _ _ _ _ _)
theorem keepsf_updateEnd {ws : List FieldName} (hw : Among [.mem, .queues, .parts, .pipes, .snoops] ws) {z : State} {a : UAcc} (hk : KeepsU ws z a) (x : UCtx) (k q pipe : Nat) (idx : BitVec 24) (c : Nat)
    (ops : List MOp) : Keeps ws z (updateEnd a x k q pipe idx c ops).1 := keeps1_fst (by apply keeps_updateEnd (hw.mono (by decide)); exact hk)
theorem keeps_runUpdate {ws : List FieldName} (hw : Among [.mem, .queues, .parts, .pipes, .snoops] ws) {z s : State} (hk : Keeps ws z s) (k q pipe : Nat) (idx : BitVec 24) (c d : Nat) (l : List Nat) :
    Keeps1 ws z (runUpdate s k q pipe idx c d l) := by
  unfold runUpdate; dsimp only
  exact keeps_updateEnd (hw.mono (by decide)) (keepsU_foldl (fun a r h => keeps_runRow (hw.mono (by decide)) h _ _ _) (keepsU1_fst (keeps_updateStart (hw.mono (by decide)) hk _ _ _ _))) _ _ _ _ _ _ _
theorem keepsf_runUpdate {ws : List FieldName} (hw : Among [.mem, .queues, .parts, .pipes, .snoops] ws) {z s : State} (hk : Keeps ws z s) (k q pipe : Nat) (idx : BitVec 24) (c d : Nat) (l : List Nat) :
    Keeps ws z (runUpdate s k q pipe idx c d l).1 := keeps1_fst (keeps_runUpdate (hw.mono (by decide)) hk _ _ _ _ _ _ _)
theorem keeps_startUpdate {ws : List FieldName} (hw : Among [.mem, .queues, .parts, .pipes, .order, .snoops] ws) {z s : State} (hk : Keeps ws z s) (q : Nat) (k c : Nat) : Keeps1 ws z (startUpdate q s k c) := by
  unfold startUpdate
  split
  · exact keeps1_mk hk
  · replace hk := keeps_noteUpdate (hw.mono (by decide)) hk k c
    dsimp only
    exact keeps1_ite (keeps1_mk hk) (keeps1_ite (keeps1_mk hk) (keeps1_mk (keeps1_fst (keeps1_ite (keeps_withPages (hw.mono (by decide)) hk _) (keeps_runUpdate (hw.mono (by decide)) hk _ _ _ _ _ _ _)))))
theorem keepsf_startUpdate {ws : List FieldName} (hw : Among [.mem, .queues, .parts, .pipes, .order, .snoops] ws) {z s : State} (hk : Keeps ws z s) (q : Nat) (k c : Nat) : Keeps ws z (startUpdate q s k c).1 := keeps1_fst (by apply keeps_startUpdate (hw.mono (by decide)); exact hk)
theorem keeps_resumeUpdate {ws : List FieldName} (hw : Among [.mem, .queues, .parts, .pipes, .snoops] ws) {z s : State} (hk : Keeps ws z s) (k q : Nat) (x : Started) : Keeps ws z (resumeUpdate s k q x) := by
  unfold resumeUpdate
  dsimp only
  split
  · exact keeps_endWork (hw.mono (by decide)) hk _ _ _
  · exact keeps_modStarted (hw.mono (by decide)) (keepsf_runUpdate (hw.mono (by decide)) hk _ _ _ _ _ _ _) _ _ _
theorem keeps_runUpdateRow {ws : List FieldName} (hw : Among [.mem, .ctrs, .queues, .parts, .pipes, .link, .vectors, .order, .snoops] ws) {z s : State} (hk : Keeps ws z s) (q : Qid) (r : Nat) : Keeps ws z (runUpdateRow q r s) := by
  unfold runUpdateRow
  split
  · split
    · exact hk
    · exact keeps_resumeUpdate (hw.mono (by decide)) hk _ _ _
  · exact keeps_startThen (hw.mono (by decide)) hk (fun s k c h => keeps_startUpdate (hw.mono (by decide)) h _ _ _) fun s k r h => keeps_movePages (hw.mono (by decide)) h _ _ _
theorem keeps_putGroup {ws : List FieldName} (hw : Among [.pipes] ws) {z s : State} (hk : Keeps ws z s) (p : Nat) (g : Pipe) (es : List UEl) :
    Keeps ws z (putGroup s p g es) := by
  unfold putGroup; try dsimp only
  repeat' (with_reducible first | exact hk | apply keeps_putPipe (hw.mono (by decide))  | apply keeps_ite | intro _ _ hk | split)
theorem keeps_microStep {ws : List FieldName} (hw : Among [.parts, .pipes] ws) {z s : State} (hk : Keeps ws z s) (p op : Nat) (w : BitVec 32) :
    Keeps ws z (microStep s p op w) := by
  unfold microStep; try dsimp only
  repeat' (with_reducible first | exact hk | apply keeps_countDiv0 (hw.mono (by decide)) | apply keeps_putGroup (hw.mono (by decide))  | apply keeps_ite | intro _ _ hk | split)
theorem keeps_settlePipe {ws : List FieldName} (hw : Among [.queues, .parts] ws) {z : State} {a : UAcc} (hk : KeepsU ws z a) (x : UCtx) (pipe : Nat) (g : Pipe) : Keeps ws z (settlePipe a x pipe g) := by
  unfold settlePipe; dsimp only
  exact keeps_modStarted (hw.mono (by decide)) (keeps_countNan (hw.mono (by decide)) (keeps_countEvt (hw.mono (by decide)) (keepsU_s hk) _ _ _) _ _) _ _ _

end Sys2Proof.Machine
end

