-- ==== Sys2Proof/Laws/KeepsNet.lean ====
section
/-! SUPPORT. What every shared operation keeps, continued: power, the training step, the transport and the collective engine. -/

set_option linter.unusedTactic false
set_option linter.unreachableTactic false
set_option linter.unusedVariables false
namespace Sys2Proof.Machine
open Sys2Proof

/-! ### Flags -/

theorem keeps_driveAlert {ws : List FieldName} (hw : Among [.pins] ws) {z s : State} (hk : Keeps ws z s) :
    Keeps ws z (driveAlert s) := by
  unfold driveAlert; try dsimp only
  repeat' (with_reducible first | exact hk | apply keeps_setPins (hw.mono (by decide))  | apply keeps_ite | intro _ _ hk | split)
theorem keeps_askEvacuate {ws : List FieldName} (hw : Among [.parts] ws) {z s : State} (hk : Keeps ws z s) :
    Keeps ws z (askEvacuate s) := by
  unfold askEvacuate; try dsimp only
  repeat' (with_reducible first | exact hk | apply keeps_modPart (hw.mono (by decide)) | apply keeps_foldl  | apply keeps_ite | intro _ _ hk | split)
theorem keeps_updateRisk {ws : List FieldName} (hw : Among [.parts, .pins, .power, .ripstop] ws) {z s : State} (hk : Keeps ws z s) :
    Keeps ws z (updateRisk s) := by
  unfold updateRisk; try dsimp only
  repeat' (with_reducible first | exact hk | apply keeps_setPower (hw.mono (by decide)) | apply keeps_setRipstop (hw.mono (by decide)) | apply keeps_driveAlert (hw.mono (by decide)) | apply keeps_askEvacuate (hw.mono (by decide))  | apply keeps_ite | intro _ _ hk | split)
theorem keeps_setPers {ws : List FieldName} (hw : Among [.ripstop] ws) {z s : State} (hk : Keeps ws z s) (c : Nat) (up : Bool) :
    Keeps ws z (setPers s c up) := by
  unfold setPers; try dsimp only
  repeat' (with_reducible first | exact hk | apply keeps_setRipstop (hw.mono (by decide))  | apply keeps_ite | intro _ _ hk | split)
theorem keeps_ripEvent {ws : List FieldName} (hw : Among [.parts, .link, .vectors, .pins, .power, .ripstop] ws) {z s : State} (hk : Keeps ws z s) (cls part die lidx psite detail : Nat) :
    Keeps ws z (ripEvent s cls part die lidx psite detail) := by
  unfold ripEvent; try dsimp only
  repeat' (with_reducible first | exact hk | apply keeps_setRipstop (hw.mono (by decide)) | apply keeps_updateRisk (hw.mono (by decide)) | apply keeps_modPart (hw.mono (by decide)) | apply keeps_raise (hw.mono (by decide))  | apply keeps_ite | intro _ _ hk | split)
theorem keeps_ripPersist {ws : List FieldName} (hw : Among [.parts, .link, .vectors, .pins, .power, .ripstop] ws) {z s : State} (hk : Keeps ws z s) (cls part die lidx psite detail : Nat) :
    Keeps ws z (ripPersist s cls part die lidx psite detail) := by
  unfold ripPersist; try dsimp only
  repeat' (with_reducible first | exact hk | apply keeps_ripEvent (hw.mono (by decide)) | apply keeps_setPers (hw.mono (by decide))  | apply keeps_ite | intro _ _ hk | split)

/-! ### Power -/

theorem keeps_setRail {ws : List FieldName} (hw : Among [.dies] ws) {z s : State} (hk : Keeps ws z s) (d : Nat) :
    Keeps ws z (setRail s d) := by
  unfold setRail; try dsimp only
  repeat' (with_reducible first | exact hk | apply keeps_modDie (hw.mono (by decide))  | apply keeps_ite | intro _ _ hk | split)
theorem keeps_retarget {ws : List FieldName} (hw : Among [.slices, .dies] ws) {z s : State} (hk : Keeps ws z s) (i : Nat) :
    Keeps ws z (retarget s i) := by
  unfold retarget; try dsimp only
  repeat' (with_reducible first | exact hk | apply keeps_setRail (hw.mono (by decide)) | apply keeps_putSlice (hw.mono (by decide))  | apply keeps_ite | intro _ _ hk | split)
theorem keeps_retargetAll {ws : List FieldName} (hw : Among [.slices, .dies] ws) {z s : State} (hk : Keeps ws z s) :
    Keeps ws z (retargetAll s) := by
  unfold retargetAll; try dsimp only
  repeat' (with_reducible first | exact hk | apply keeps_retarget (hw.mono (by decide)) | apply keeps_foldl  | apply keeps_ite | intro _ _ hk | split)
theorem keeps_retargetPart {ws : List FieldName} (hw : Among [.slices, .dies] ws) {z s : State} (hk : Keeps ws z s) (k : Nat) :
    Keeps ws z (retargetPart s k) := by
  unfold retargetPart; try dsimp only
  repeat' (with_reducible first | exact hk | apply keeps_retarget (hw.mono (by decide)) | apply keeps_foldl  | apply keeps_ite | intro _ _ hk | split)
theorem keeps_startRelock {ws : List FieldName} (hw : Among [.slices, .dies] ws) {z s : State} (hk : Keeps ws z s) (i : Nat) :
    Keeps ws z (startRelock s i) := by
  unfold startRelock; try dsimp only
  repeat' (with_reducible first | exact hk | apply keeps_setRail (hw.mono (by decide)) | apply keeps_putSlice (hw.mono (by decide))  | apply keeps_ite | intro _ _ hk | split)
theorem keeps_endLowerWait {ws : List FieldName} (hw : Among [.slices, .dies] ws) {z s : State} (hk : Keeps ws z s) (i : Nat) :
    Keeps ws z (endLowerWait s i) := by
  unfold endLowerWait; try dsimp only
  repeat' (with_reducible first | exact hk | apply keeps_setRail (hw.mono (by decide)) | apply keeps_putSlice (hw.mono (by decide))  | apply keeps_ite | intro _ _ hk | split)
theorem keeps_reduceStep {ws : List FieldName} (hw : Among [.parts, .slices, .dies] ws) {z s : State} (hk : Keeps ws z s) (g : List Nat) (c : PClass) :
    Keeps ws z (reduceStep s g c) := by
  unfold reduceStep; try dsimp only
  repeat' (with_reducible first | exact hk | apply keeps_retargetAll (hw.mono (by decide)) | apply keeps_modPart (hw.mono (by decide)) | apply keeps_foldl  | apply keeps_ite | intro _ _ hk | split)
theorem keeps_restoreStep {ws : List FieldName} (hw : Among [.parts, .slices, .dies] ws) {z s : State} (hk : Keeps ws z s) (g : List Nat) (c : PClass) :
    Keeps ws z (restoreStep s g c) := by
  unfold restoreStep; try dsimp only
  repeat' (with_reducible first | exact hk | apply keeps_retargetAll (hw.mono (by decide)) | apply keeps_modPart (hw.mono (by decide)) | apply keeps_foldl  | apply keeps_ite | intro _ _ hk | split)
theorem keeps_evaluate {ws : List FieldName} (hw : Among [.parts, .slices, .dies] ws) {z s : State} (hk : Keeps ws z s) (g : List Nat) :
    Keeps ws z (evaluate s g) := by
  unfold evaluate; try dsimp only
  repeat' (with_reducible first | exact hk | apply keeps_reduceStep (hw.mono (by decide)) | apply keeps_restoreStep (hw.mono (by decide)) | apply keeps_foldl  | apply keeps_ite | intro _ _ hk | split)
theorem keeps_sampled {ws : List FieldName} (hw : Among [.pins, .power] ws) {z s : State} (hk : Keeps ws z s) :
    Keeps ws z (sampled s) := by
  unfold sampled; try dsimp only
  repeat' (with_reducible first | exact hk | apply keeps_setPower (hw.mono (by decide)) | apply keeps_driveAlert (hw.mono (by decide))  | apply keeps_ite | intro _ _ hk | split)
theorem keeps_putRails {ws : List FieldName} (hw : Among [.power] ws) {z s : State} (hk : Keeps ws z s) (base : Nat) (l : List (BitVec 32)) :
    Keeps ws z (putRails s base l) := by
  unfold putRails; try dsimp only
  repeat' (with_reducible first | exact hk | apply keeps_setPower (hw.mono (by decide)) | apply keeps_foldl  | apply keeps_ite | intro _ _ hk | split)
theorem keeps_putTemps {ws : List FieldName} (hw : Among [.power] ws) {z s : State} (hk : Keeps ws z s) (temps : Bytes) :
    Keeps ws z (putTemps s temps) := by
  unfold putTemps; try dsimp only
  repeat' (with_reducible first | exact hk | apply keeps_setPower (hw.mono (by decide)) | apply keeps_foldl  | apply keeps_ite | intro _ _ hk | split)
theorem keeps_noteThrottle {ws : List FieldName} (hw : Among [.power] ws) {z s : State} (hk : Keeps ws z s) :
    Keeps ws z (noteThrottle s) := by
  unfold noteThrottle; try dsimp only
  repeat' (with_reducible first | exact hk | apply keeps_setPower (hw.mono (by decide))  | apply keeps_ite | intro _ _ hk | split)
theorem keeps_heatStep {ws : List FieldName} (hw : Among [.slices, .dies, .power] ws) {z s : State} (hk : Keeps ws z s) (i : Nat) (heating : Bool) (n : Nat) :
    Keeps ws z (heatStep s i heating n) := by
  unfold heatStep; try dsimp only
  repeat' (with_reducible first | exact hk | apply keeps_setPower (hw.mono (by decide)) | apply keeps_noteThrottle (hw.mono (by decide)) | apply keeps_retarget (hw.mono (by decide)) | apply keeps_modSlice (hw.mono (by decide))  | apply keeps_ite | intro _ _ hk | split)
theorem keeps_setHotstop {ws : List FieldName} (hw : Among [.pins, .power] ws) {z s : State} (hk : Keeps ws z s) (on : Bool) :
    Keeps ws z (setHotstop s on) := by
  unfold setHotstop; try dsimp only
  repeat' (with_reducible first | exact hk | apply keeps_setPins (hw.mono (by decide)) | apply keeps_setPower (hw.mono (by decide)) | apply keeps_driveAlert (hw.mono (by decide))  | apply keeps_ite | intro _ _ hk | split)
theorem keeps_cprstLow {ws : List FieldName} (hw : Among [.pins] ws) {z s : State} (hk : Keeps ws z s) :
    Keeps ws z (cprstLow s) := by
  unfold cprstLow; try dsimp only
  repeat' (with_reducible first | exact hk | apply keeps_setPins (hw.mono (by decide))  | apply keeps_ite | intro _ _ hk | split)

/-! ### Training -/

theorem keeps_onPipe {ws : List FieldName} (hw : Among [.queues, .parts, .link, .snoops] ws) {z s : State} (hk : Keeps ws z s) {q : Qid} {sel : State → Nat → Nat → Bool}
    {f : State → Nat → Nat → Nat → State × Started} (hf : ∀ s k c p, Keeps ws z s → Keeps1 ws z (f s k c p)) :
    Keeps ws z (onPipe s q sel f) := by
  unfold onPipe
  split
  · exact hk
  · split
    · exact hk
    · refine keeps_runFront (hw.mono (by decide)) hk fun s k c h => ?_
      split
      · exact keeps1_mk h
      · exact hf _ _ _ _ h
theorem keeps_refuseStep {ws : List FieldName} (hw : Among [.mem, .parts, .snoops] ws) {z s : State} (hk : Keeps ws z s) (k v : Nat) :
    Keeps ws z (refuseStep s k v) := by
  unfold refuseStep; try dsimp only
  repeat' (with_reducible first | exact hk | apply keeps_zeroFill (hw.mono (by decide)) | apply keeps_modPart (hw.mono (by decide)) | apply keeps_foldl  | apply keeps_ite | intro _ _ hk | split)
theorem keeps_secureAt {ws : List FieldName} (hw : Among [.parts, .link, .vectors, .pins, .power, .ripstop] ws) {z s : State} (hk : Keeps ws z s) (k : Nat) (n : BitVec 48) :
    Keeps ws z (secureAt s k n) := by
  unfold secureAt; try dsimp only
  repeat' (with_reducible first | exact hk | apply keeps_modPart (hw.mono (by decide)) | apply keeps_ripEvent (hw.mono (by decide))  | apply keeps_ite | intro _ _ hk | split)
theorem keeps_passStep {ws : List FieldName} (hw : Among [.ctrs, .parts, .link, .vectors, .pins, .power, .ripstop] ws) {z s : State} (hk : Keeps ws z s) (k : Nat) (okCtr : Nat) :
    Keeps ws z (passStep s k okCtr) := by
  unfold passStep; try dsimp only
  repeat' (with_reducible first | exact hk | apply keeps_modPart (hw.mono (by decide)) | apply keeps_addCtr (hw.mono (by decide)) | apply keeps_secureAt (hw.mono (by decide))  | apply keeps_ite | intro _ _ hk | split)
theorem keeps_refuseReplay {ws : List FieldName} (hw : Among [.mem, .parts, .snoops] ws) {z s : State} (hk : Keeps ws z s) (k v : Nat) :
    Keeps ws z (refuseReplay s k v) := by
  unfold refuseReplay; try dsimp only
  repeat' (with_reducible first | exact hk | apply keeps_refuseStep (hw.mono (by decide)) | apply keeps_modPart (hw.mono (by decide))  | apply keeps_ite | intro _ _ hk | split)
theorem keeps_addRegion {ws : List FieldName} (hw : Among [.parts] ws) {z s : State} (hk : Keeps ws z s) (k c : Nat) (r : Region) :
    Keeps ws z (addRegion s k c r) := by
  unfold addRegion; try dsimp only
  repeat' (with_reducible first | exact hk | apply keeps_modPart (hw.mono (by decide))  | apply keeps_ite | intro _ _ hk | split)
theorem keeps_removeEntry {ws : List FieldName} (hw : Among [.parts] ws) {z s : State} (hk : Keeps ws z s) (k c p : Nat) :
    Keeps1 ws z (removeEntry s k c p) := by
  unfold removeEntry; try dsimp only
  repeat' (with_reducible first | exact hk | apply keeps_modPart (hw.mono (by decide))  | apply keeps1_mk | apply keeps_ite | intro _ _ hk | split)
theorem keepsf_removeEntry {ws : List FieldName} (hw : Among [.parts] ws) {z s : State} (hk : Keeps ws z s) (k c p : Nat) : Keeps ws z (removeEntry s k c p).1 := keeps1_fst (by apply keeps_removeEntry (hw.mono (by decide)); exact hk)

/-! ### Transport -/

theorem keeps_queueFrame {ws : List FieldName} (hw : Among [.ports, .ethTx] ws) {z s : State} (hk : Keeps ws z s) (p : Nat) (f : Bytes) :
    Keeps ws z (queueFrame s p f) := by
  unfold queueFrame; try dsimp only
  repeat' (with_reducible first | exact hk | apply keeps_setEthTx (hw.mono (by decide)) | apply keeps_modPort (hw.mono (by decide))  | apply keeps_ite | intro _ _ hk | split)
theorem keeps_leaveIdle {ws : List FieldName} (hw : Among [.ports, .ethTx] ws) {z s : State} (hk : Keeps ws z s) (p : Nat) :
    Keeps ws z (leaveIdle s p) := by
  unfold leaveIdle; try dsimp only
  repeat' (with_reducible first | exact hk | apply keeps_setEthTx (hw.mono (by decide)) | apply keeps_putPort (hw.mono (by decide))  | apply keeps_ite | intro _ _ hk | split)
theorem keeps_wakePort {ws : List FieldName} (hw : Among [.ports, .ethTx] ws) {z s : State} (hk : Keeps ws z s) (p : Nat) :
    Keeps ws z (wakePort s p) := by
  unfold wakePort; try dsimp only
  repeat' (with_reducible first | exact hk | apply keeps_leaveIdle (hw.mono (by decide))  | apply keeps_ite | intro _ _ hk | split)
theorem keeps_sendFrame {ws : List FieldName} (hw : Among [.parts, .ports, .ethTx] ws) {z s : State} (hk : Keeps ws z s) (k p : Nat) (etype : Nat) (b : Bytes) :
    Keeps ws z (sendFrame s k p etype b) := by
  unfold sendFrame; try dsimp only
  repeat' (with_reducible first | exact hk | apply keeps_queueFrame (hw.mono (by decide)) | apply keeps_modPart (hw.mono (by decide))  | apply keeps_ite | intro _ _ hk | split)
theorem keeps_putConn {ws : List FieldName} (hw : Among [.parts] ws) {z s : State} (hk : Keeps ws z s) (k r : Nat) (c : Conn) :
    Keeps ws z (putConn s k r c) := by
  unfold putConn; try dsimp only
  repeat' (with_reducible first | exact hk | apply keeps_modPart (hw.mono (by decide))  | apply keeps_ite | intro _ _ hk | split)
theorem keeps_emitXft {ws : List FieldName} (hw : Among [.parts, .ports, .link, .vectors, .pins, .power, .ripstop, .ethTx] ws) {z s : State} (hk : Keeps ws z s) (k p : Nat) (h : XHdr) (payload : Bytes) :
    Keeps ws z (emitXft s k p h payload) := by
  unfold emitXft; try dsimp only
  repeat' (with_reducible first | exact hk | apply keeps_modPart (hw.mono (by decide)) | apply keeps_ripEvent (hw.mono (by decide)) | apply keeps_setPers (hw.mono (by decide)) | apply keeps_sendFrame (hw.mono (by decide))  | apply keeps_ite | intro _ _ hk | split)
theorem keeps_sendData {ws : List FieldName} (hw : Among [.parts, .ports, .link, .vectors, .pins, .power, .ripstop, .ethTx] ws) {z s : State} (hk : Keeps ws z s) (k r : Nat) (c : Conn) (p : Pkt) {t : State} {c' : Conn}
    (h : sendData s k r c p = some (t, c')) : Keeps ws z t := by
  unfold sendData at h; dsimp only at h
  split at h
  · split at h
    · cases h
    · injection h with h; injection h with h _; subst h
      exact keeps_emitXft (hw.mono (by decide)) (keeps_putPart (hw.mono (by decide)) hk _ _) _ _ _ _
  · cases h
theorem keeps_pumpConn {ws : List FieldName} (hw : Among [.parts, .ports, .link, .vectors, .pins, .power, .ripstop, .ethTx] ws) {z s : State} (hk : Keeps ws z s) (k r fuel : Nat) : Keeps ws z (pumpConn s k r fuel) := by
  induction fuel generalizing s with
  | zero => exact hk
  | succ n ih =>
    unfold pumpConn; dsimp only
    split
    · exact hk
    · split
      · exact hk
      · split
        · exact hk
        · rename_i he
          exact ih (keeps_putConn (hw.mono (by decide)) (keeps_sendData (hw.mono (by decide)) hk _ _ _ _ he) _ _ _)
theorem keeps_pumpTo {ws : List FieldName} (hw : Among [.parts, .ports, .link, .vectors, .pins, .power, .ripstop, .ethTx] ws) {z s : State} (hk : Keeps ws z s) (k r : Nat) :
    Keeps ws z (pumpTo s k r) := by
  unfold pumpTo; try dsimp only
  repeat' (with_reducible first | exact hk | apply keeps_pumpConn (hw.mono (by decide))  | apply keeps_ite | intro _ _ hk | split)
theorem keeps_sendMsg {ws : List FieldName} (hw : Among [.parts, .ports, .link, .vectors, .pins, .power, .ripstop, .ethTx] ws) {z s : State} (hk : Keeps ws z s) (k r : Nat) (cmd : Option (BitVec 20 × BitVec 24)) (m : Msg) :
    Keeps ws z (sendMsg s k r cmd m) := by
  unfold sendMsg; try dsimp only
  repeat' (with_reducible first | exact hk | apply keeps_modPart (hw.mono (by decide)) | apply keeps_pumpTo (hw.mono (by decide)) | apply keeps_putConn (hw.mono (by decide))  | apply keeps_ite | intro _ _ hk | split)
theorem keeps_endAs {ws : List FieldName} (hw : Among [.queues] ws) {z s : State} (hk : Keeps ws z s) (ukind : Nat) (q : Nat) (idx : BitVec 24) (st : BitVec 8) :
    Keeps ws z (endAs s ukind q idx st) := by
  unfold endAs; try dsimp only
  repeat' (with_reducible first | exact hk | apply keeps_endWork (hw.mono (by decide)) | apply keeps_modStarted (hw.mono (by decide))  | apply keeps_ite | intro _ _ hk | split)
theorem keeps_failMsgs {ws : List FieldName} (hw : Among [.queues, .parts] ws) {z s : State} (hk : Keeps ws z s) (k r : Nat) :
    Keeps ws z (failMsgs s k r) := by
  unfold failMsgs; try dsimp only
  repeat' (with_reducible first | exact hk | apply keeps_putConn (hw.mono (by decide)) | apply keeps_endAs (hw.mono (by decide)) | apply keeps_foldl  | apply keeps_ite | intro _ _ hk | split)
theorem keeps_countXfer {ws : List FieldName} (hw : Among [.parts] ws) {z s : State} (hk : Keeps ws z s) (k i : Nat) :
    Keeps ws z (countXfer s k i) := by
  unfold countXfer; try dsimp only
  repeat' (with_reducible first | exact hk | apply keeps_modPart (hw.mono (by decide))  | apply keeps_ite | intro _ _ hk | split)
theorem keeps_takeXft {ws : List FieldName} (hw : Among [.parts] ws) {z s : State} (hk : Keeps ws z s) (k : Nat) (sel : Nat → Bool) {u : Udp} {t : State}
    (h : takeXft s k sel = some (u, t)) : Keeps ws z t := by
  unfold takeXft at h; dsimp only at h
  repeat' split at h
  all_goals first
    | cases h; done
    | (injection h with h; injection h with _ h; subst h; exact keeps_modPart (hw.mono (by decide)) hk _ _)
/-- What opening a transport packet leaves is kept. -/
def XKeeps (ws : List FieldName) (z : State) (h : XHdr) (p : Bytes) (s : State) : State ⊕ (XHdr × Bytes) → Prop
  | .inl t => Keeps ws z t
  | .inr _ => True
theorem keeps_sendAck {ws : List FieldName} (hw : Among [.parts, .ports, .link, .vectors, .pins, .power, .ripstop, .ethTx] ws) {z s : State} (hk : Keeps ws z s) (k r : Nat) :
    Keeps ws z (sendAck s k r) := by
  unfold sendAck; try dsimp only
  repeat' (with_reducible first | exact hk | apply keeps_putConn (hw.mono (by decide)) | apply keeps_putPart (hw.mono (by decide)) | apply keeps_emitXft (hw.mono (by decide))  | apply keeps_ite | intro _ _ hk | split)
theorem keeps_sendPlain {ws : List FieldName} (hw : Among [.parts, .ports, .link, .vectors, .pins, .power, .ripstop, .ethTx] ws) {z s : State} (hk : Keeps ws z s) (k r type aux : Nat) :
    Keeps ws z (sendPlain s k r type aux) := by
  unfold sendPlain; try dsimp only
  repeat' (with_reducible first | exact hk | apply keeps_putConn (hw.mono (by decide)) | apply keeps_putPart (hw.mono (by decide)) | apply keeps_emitXft (hw.mono (by decide))  | apply keeps_ite | intro _ _ hk | split)
theorem keeps_deliver {ws : List FieldName} (hw : Among [.parts] ws) {z s : State} (hk : Keeps ws z s) (k r : Nat) (msn : BitVec 32) (b : Bytes) :
    Keeps ws z (deliver s k r msn b) := by
  unfold deliver; try dsimp only
  repeat' (with_reducible first | exact hk | apply keeps_putConn (hw.mono (by decide)) | apply keeps_modPart (hw.mono (by decide))  | apply keeps_ite | intro _ _ hk | split)
theorem keeps_takeData {ws : List FieldName} (hw : Among [.parts, .ports, .link, .vectors, .pins, .power, .ripstop, .ethTx] ws) {z s : State} (hk : Keeps ws z s) (k : Nat) (h : XHdr) (p : Bytes) (ce : Bool) :
    Keeps ws z (takeData s k h p ce) := by
  unfold takeData; try dsimp only
  repeat' (with_reducible first | exact hk | apply keeps_countXfer (hw.mono (by decide)) | apply keeps_putConn (hw.mono (by decide)) | apply keeps_deliver (hw.mono (by decide)) | apply keeps_modPart (hw.mono (by decide)) | apply keeps_sendAck (hw.mono (by decide))  | apply keeps_ite | intro _ _ hk | split)
theorem keeps_retransmit {ws : List FieldName} (hw : Among [.parts, .ports, .link, .vectors, .pins, .power, .ripstop, .ethTx] ws) {z s : State} (hk : Keeps ws z s) (k r : Nat) (sel : Pkt → Bool) : Keeps ws z (retransmit s k r sel) := by
  unfold retransmit; dsimp only
  refine keeps_foldl (fun s p h => ?_) hk
  split
  · rename_i he
    exact keeps_putConn (hw.mono (by decide)) (keeps_sendData (hw.mono (by decide)) h _ _ _ _ he) _ _ _
  · exact h
theorem keeps_takeAck {ws : List FieldName} (hw : Among [.parts, .ports, .link, .vectors, .pins, .power, .ripstop, .ethTx] ws) {z s : State} (hk : Keeps ws z s) (k : Nat) (h : XHdr) (p : Bytes) :
    Keeps ws z (takeAck s k h p) := by
  unfold takeAck; try dsimp only
  repeat' (with_reducible first | exact hk | apply keeps_putConn (hw.mono (by decide)) | apply keeps_retransmit (hw.mono (by decide)) | apply keeps_pumpTo (hw.mono (by decide)) | apply keeps_foldl  | apply keeps_ite | intro _ _ hk | split)

/-! ### Collective -/

theorem keeps_countColl {ws : List FieldName} (hw : Among [.parts] ws) {z s : State} (hk : Keeps ws z s) (k i : Nat) :
    Keeps ws z (countColl s k i) := by
  unfold countColl; try dsimp only
  repeat' (with_reducible first | exact hk | apply keeps_modPart (hw.mono (by decide))  | apply keeps_ite | intro _ _ hk | split)
theorem keeps_takeMsg {ws : List FieldName} (hw : Among [.parts] ws) {z s : State} (hk : Keeps ws z s) (k : Nat) (p : Msg → Bool) {m : Msg} {t : State}
    (h : takeMsg s k p = some (m, t)) : Keeps ws z t := by
  unfold takeMsg at h
  split at h
  · cases h
  · injection h with h; injection h with _ h; subst h
    exact keeps_modPart (hw.mono (by decide)) hk _ _
theorem keeps_onMsg {ws : List FieldName} (hw : Among [.parts] ws) {z s : State} (hk : Keeps ws z s) {k opk : Nat} {p : Msg → Bool} {f : State → Msg → State}
    (hf : ∀ s m, Keeps ws z s → Keeps ws z (f s m)) : Keeps ws z (onMsg s k opk p f) := by
  unfold onMsg
  split
  · exact hk
  · split
    · exact hk
    · rename_i he
      exact hf _ _ (keeps_takeMsg (hw.mono (by decide)) hk _ _ he)
theorem keeps_endColl {ws : List FieldName} (hw : Among [.queues] ws) {z s : State} (hk : Keeps ws z s) (q : Nat) (idx : BitVec 24) (st : BitVec 8) :
    Keeps ws z (endColl s q idx st) := by
  unfold endColl; try dsimp only
  repeat' (with_reducible first | exact hk | apply keeps_endAs (hw.mono (by decide))  | apply keeps_ite | intro _ _ hk | split)
theorem keeps_setWork {ws : List FieldName} (hw : Among [.queues] ws) {z s : State} (hk : Keeps ws z s) (q : Nat) (idx : BitVec 24) (w : Work) :
    Keeps ws z (setWork s q idx w) := by
  unfold setWork; try dsimp only
  repeat' (with_reducible first | exact hk | apply keeps_modStarted (hw.mono (by decide))  | apply keeps_ite | intro _ _ hk | split)
theorem keeps_onColl {ws : List FieldName} (hw : Among [.queues, .parts, .link, .snoops] ws) {z s : State} (hk : Keeps ws z s) {q : Qid} {kind : Nat} {ok : State → Nat → Nat → Bool}
    {f : State → Nat → Nat → State × Started} (hf : ∀ s k c, Keeps ws z s → Keeps1 ws z (f s k c)) :
    Keeps ws z (onColl s q kind ok f) := by
  unfold onColl
  split
  · exact hk
  · split
    · exact hk
    · refine keeps_runFront (hw.mono (by decide)) hk fun s k c h => ?_
      split
      · exact keeps1_mk h
      · exact hf _ _ _ h
theorem keeps_onCollThen {ws : List FieldName} (hw : Among [.queues, .parts, .link, .snoops] ws) {z s : State} (hk : Keeps ws z s) {q : Qid} {kind : Nat} {ok : State → Nat → Nat → Bool}
    {f : State → Nat → Nat → State × Started} {g : State → Nat → Started → State} (hf : ∀ s k c, Keeps ws z s → Keeps1 ws z (f s k c))
    (hg : ∀ s k r, Keeps ws z s → Keeps ws z (g s k r)) : Keeps ws z (onCollThen s q kind ok f g) := by
  unfold onCollThen
  exact keeps_startThen (hw.mono (by decide)) hk (fun s k c h => keeps1_ite (keeps1_mk h) (hf _ _ _ h)) hg
theorem keeps_noteJob {ws : List FieldName} (hw : Among [.parts, .snoops] ws) {z s : State} (hk : Keeps ws z s) (k a : Nat) :
    Keeps ws z (noteJob s k a) := keeps_noteIf (hw.mono (by decide)) (keeps_noteIf (hw.mono (by decide)) hk _ _ _) _ _ _
theorem keeps_joinJob {ws : List FieldName} (hw : Among [.parts, .snoops] ws) {z s : State} (hk : Keeps ws z s) (k c : Nat) :
    Keeps1 ws z (joinJob s k c) := by
  unfold joinJob; try dsimp only
  repeat' (with_reducible first | exact hk | apply keeps_noteJob (hw.mono (by decide)) | apply keeps_modPart (hw.mono (by decide))  | apply keeps1_mk | apply keeps_ite | intro _ _ hk | split)
theorem keepsf_joinJob {ws : List FieldName} (hw : Among [.parts, .snoops] ws) {z s : State} (hk : Keeps ws z s) (k c : Nat) : Keeps ws z (joinJob s k c).1 := keeps1_fst (by apply keeps_joinJob (hw.mono (by decide)); exact hk)
theorem keeps_modSlot {ws : List FieldName} (hw : Among [.parts] ws) {z s : State} (hk : Keeps ws z s) (k key : Nat) (f : Slot → Slot) :
    Keeps ws z (modSlot s k key f) := by
  unfold modSlot; try dsimp only
  repeat' (with_reducible first | exact hk | apply keeps_modPart (hw.mono (by decide))  | apply keeps_ite | intro _ _ hk | split)
theorem keeps_answer {ws : List FieldName} (hw : Among [.parts, .ports, .link, .vectors, .pins, .power, .ripstop, .ethTx] ws) {z s : State} (hk : Keeps ws z s) (k : Nat) (m : Msg) (n : Nat) :
    Keeps ws z (answer s k m n) := by
  unfold answer; try dsimp only
  repeat' (with_reducible first | exact hk | apply keeps_countColl (hw.mono (by decide)) | apply keeps_modSlot (hw.mono (by decide)) | apply keeps_sendMsg (hw.mono (by decide))  | apply keeps_ite | intro _ _ hk | split)
theorem keeps_takeClaim {ws : List FieldName} (hw : Among [.parts, .ports, .link, .vectors, .pins, .power, .ripstop, .ethTx] ws) {z s : State} (hk : Keeps ws z s) (k : Nat) (m : Msg) :
    Keeps ws z (takeClaim s k m) := by
  unfold takeClaim; try dsimp only
  repeat' (with_reducible first | exact hk | apply keeps_answer (hw.mono (by decide)) | apply keeps_modPart (hw.mono (by decide))  | apply keeps_ite | intro _ _ hk | split)
theorem keeps_answerHeld {ws : List FieldName} (hw : Among [.parts, .ports, .link, .vectors, .pins, .power, .ripstop, .ethTx] ws) {z s : State} (hk : Keeps ws z s) (k : Nat) : Keeps ws z (answerHeld s k) := by
  unfold answerHeld; dsimp only
  exact keeps_foldl (fun s m h => keeps_takeClaim (hw.mono (by decide)) h _ _) (keeps_modPart (hw.mono (by decide)) hk _ _)
theorem keeps_sendFor {ws : List FieldName} (hw : Among [.queues, .parts, .ports, .link, .vectors, .pins, .power, .ripstop, .ethTx] ws) {z s : State} (hk : Keeps ws z s) (k q : Nat) (r : Started) (rank : Nat) (m : Msg) :
    Keeps ws z (sendFor s k q r rank m) := by
  unfold sendFor; try dsimp only
  repeat' (with_reducible first | exact hk | apply keeps_sendMsg (hw.mono (by decide)) | apply keeps_endColl (hw.mono (by decide))  | apply keeps_ite | intro _ _ hk | split)
theorem keeps_sendClaim {ws : List FieldName} (hw : Among [.queues, .parts, .ports, .link, .vectors, .pins, .power, .ripstop, .ethTx] ws) {z s : State} (hk : Keeps ws z s) (k q : Nat) (r : Started) :
    Keeps ws z (sendClaim s k q r) := by
  unfold sendClaim; try dsimp only
  repeat' (with_reducible first | exact hk | apply keeps_sendFor (hw.mono (by decide)) | apply keeps_setWork (hw.mono (by decide))  | apply keeps_ite | intro _ _ hk | split)
theorem keeps_sendUnits {ws : List FieldName} (hw : Among [.queues, .parts, .ports, .link, .vectors, .pins, .power, .ripstop, .ethTx, .snoops] ws) {z s : State} (hk : Keeps ws z s) (k q : Nat) (r : Started) (sent placed fuel : Nat) :
    Keeps ws z (sendUnits s k q r sent placed fuel) := by
  induction fuel generalizing s sent with
  | zero => exact keeps_setWork (hw.mono (by decide)) hk _ _ _
  | succ n ih =>
    unfold sendUnits; dsimp only
    split
    · exact keeps_sendFor (hw.mono (by decide)) (keeps_setWork (hw.mono (by decide)) (keeps_noteRead (hw.mono (by decide)) hk _ _ _) _ _ _) _ _ _ _ _
    · split
      · exact keeps_setWork (hw.mono (by decide)) hk _ _ _
      · exact ih (keeps_sendFor (hw.mono (by decide)) (keeps_noteRead (hw.mono (by decide)) hk _ _ _) _ _ _ _ _) _
theorem keeps_pumpContrib {ws : List FieldName} (hw : Among [.queues, .parts, .ports, .link, .vectors, .pins, .power, .ripstop, .ethTx, .snoops] ws) {z s : State} (hk : Keeps ws z s) (k q : Nat) (r : Started) (sent placed : Nat) :
    Keeps ws z (pumpContrib s k q r sent placed) := by
  unfold pumpContrib; try dsimp only
  repeat' (with_reducible first | exact hk | apply keeps_sendUnits (hw.mono (by decide))  | apply keeps_ite | intro _ _ hk | split)
theorem keeps_pumpContribs {ws : List FieldName} (hw : Among [.queues, .parts, .ports, .link, .vectors, .pins, .power, .ripstop, .ethTx, .snoops] ws) {z s : State} (hk : Keeps ws z s) (k : Nat) :
    Keeps ws z (pumpContribs s k) := by
  unfold pumpContribs; try dsimp only
  repeat' (with_reducible first | exact hk | apply keeps_pumpContrib (hw.mono (by decide)) | apply keeps_foldl  | apply keeps_ite | intro _ _ hk | split)
theorem keeps_onContrib {ws : List FieldName} (hw : Among [.parts] ws) {z s : State} (hk : Keeps ws z s) {k opk : Nat} {ph : ContribPhase → Bool}
    {f : State → Nat → Started → Msg → State} (hf : ∀ s q r m, Keeps ws z s → Keeps ws z (f s q r m)) :
    Keeps ws z (onContrib s k opk ph f) := by
  unfold onContrib
  refine keeps_onMsg (hw.mono (by decide)) hk fun s m h => ?_
  split
  · exact hf _ _ _ _ h
  · exact h
theorem keeps_countNarrow {ws : List FieldName} (hw : Among [.queues, .parts] ws) {z s : State} (hk : Keeps ws z s) (k q : Nat) (e : Evt) :
    Keeps ws z (countNarrow s k q e) := by
  unfold countNarrow; try dsimp only
  repeat' (with_reducible first | exact hk | apply keeps_countNan (hw.mono (by decide)) | apply keeps_modHealth (hw.mono (by decide)) | apply keeps_countEvt (hw.mono (by decide))  | apply keeps_ite | intro _ _ hk | split)
theorem keeps_startContrib {ws : List FieldName} (hw : Among [.mem, .queues, .parts, .snoops] ws) {z s : State} (hk : Keeps ws z s) (q : Qid) (k c : Nat) :
    Keeps1 ws z (startContrib q s k c) := by
  unfold startContrib; try dsimp only
  repeat' (with_reducible first | exact hk | apply keeps_zeroFill (hw.mono (by decide)) | apply keeps_store (hw.mono (by decide)) | apply keeps_countNarrow (hw.mono (by decide))  | apply keeps1_mk | apply keeps_ite | intro _ _ hk | split)
theorem keepsf_startContrib {ws : List FieldName} (hw : Among [.mem, .queues, .parts, .snoops] ws) {z s : State} (hk : Keeps ws z s) (q : Qid) (k c : Nat) : Keeps ws z (startContrib q s k c).1 := keeps1_fst (by apply keeps_startContrib (hw.mono (by decide)); exact hk)
theorem keeps_claimFirst {ws : List FieldName} (hw : Among [.queues, .parts, .ports, .link, .vectors, .pins, .power, .ripstop, .ethTx] ws) {z s : State} (hk : Keeps ws z s) (q : Qid) (k : Nat) (r : Started) :
    Keeps ws z (claimFirst q s k r) := by
  unfold claimFirst; try dsimp only
  repeat' (with_reducible first | exact hk | apply keeps_sendClaim (hw.mono (by decide))  | apply keeps_ite | intro _ _ hk | split)
theorem keeps_sendShard {ws : List FieldName} (hw : Among [.queues, .parts, .ports, .link, .vectors, .pins, .power, .ripstop, .ethTx] ws) {z s : State} (hk : Keeps ws z s) (k q : Nat) (r : Started) (rank : Nat) (xs : List Int) :
    Keeps ws z (sendShard s k q r rank xs) := by
  unfold sendShard; try dsimp only
  repeat' (with_reducible first | exact hk | apply keeps_sendFor (hw.mono (by decide)) | apply keeps_foldl  | apply keeps_ite | intro _ _ hk | split)
theorem keeps_runBcast {ws : List FieldName} (hw : Among [.queues, .parts, .ports, .link, .vectors, .pins, .power, .ripstop, .ethTx, .snoops] ws) {z s : State} (hk : Keeps ws z s) (k q : Nat) (r : Started) (S : Slot) :
    Keeps ws z (runBcast s k q r S) := by
  unfold runBcast; try dsimp only
  repeat' (with_reducible first | exact hk | apply keeps_endColl (hw.mono (by decide)) | apply keeps_modStarted (hw.mono (by decide)) | apply keeps_countNarrow (hw.mono (by decide)) | apply keeps_noteRead (hw.mono (by decide)) | apply keeps_sendShard (hw.mono (by decide)) | apply keeps_foldl  | apply keeps_ite | intro _ _ hk | split)
theorem keeps_wakeBcasts {ws : List FieldName} (hw : Among [.queues, .parts, .ports, .link, .vectors, .pins, .power, .ripstop, .ethTx, .snoops] ws) {z s : State} (hk : Keeps ws z s) (k key : Nat) :
    Keeps ws z (wakeBcasts s k key) := by
  unfold wakeBcasts; try dsimp only
  repeat' (with_reducible first | exact hk | apply keeps_runBcast (hw.mono (by decide)) | apply keeps_foldl  | apply keeps_ite | intro _ _ hk | split)
theorem keeps_startBcast {ws : List FieldName} {z s : State} (hk : Keeps ws z s) (k c : Nat) :
    Keeps1 ws z (startBcast s k c) := by
  unfold startBcast; try dsimp only
  repeat' (with_reducible first | exact hk  | apply keeps1_mk | apply keeps_ite | intro _ _ hk | split)
theorem keepsf_startBcast {ws : List FieldName} {z s : State} (hk : Keeps ws z s) (k c : Nat) : Keeps ws z (startBcast s k c).1 := keeps1_fst (by apply keeps_startBcast; exact hk)
theorem keeps_bcastNow {ws : List FieldName} (hw : Among [.queues, .parts, .ports, .link, .vectors, .pins, .power, .ripstop, .ethTx, .snoops] ws) {z s : State} (hk : Keeps ws z s) (q : Qid) (k : Nat) (r : Started) :
    Keeps ws z (bcastNow q s k r) := by
  unfold bcastNow; try dsimp only
  repeat' (with_reducible first | exact hk | apply keeps_runBcast (hw.mono (by decide))  | apply keeps_ite | intro _ _ hk | split)
theorem keeps_sendPart {ws : List FieldName} (hw : Among [.queues, .parts, .ports, .link, .vectors, .pins, .power, .ripstop, .ethTx] ws) {z s : State} (hk : Keeps ws z s) (k q : Nat) (r : Started) (part : Nat) :
    Keeps ws z (sendPart s k q r part) := by
  unfold sendPart; try dsimp only
  repeat' (with_reducible first | exact hk | apply keeps_sendFor (hw.mono (by decide)) | apply keeps_foldl  | apply keeps_ite | intro _ _ hk | split)
theorem keeps_startPut {ws : List FieldName} (hw : Among [.parts, .snoops] ws) {z s : State} (hk : Keeps ws z s) (k c : Nat) :
    Keeps1 ws z (startPut s k c) := by
  unfold startPut; try dsimp only
  repeat' (with_reducible first | exact hk | apply keeps_noteRead (hw.mono (by decide))  | apply keeps1_mk | apply keeps_ite | intro _ _ hk | split)
theorem keepsf_startPut {ws : List FieldName} (hw : Among [.parts, .snoops] ws) {z s : State} (hk : Keeps ws z s) (k c : Nat) : Keeps ws z (startPut s k c).1 := keeps1_fst (by apply keeps_startPut (hw.mono (by decide)); exact hk)
theorem keeps_putNow {ws : List FieldName} (hw : Among [.queues, .parts, .ports, .link, .vectors, .pins, .power, .ripstop, .ethTx] ws) {z s : State} (hk : Keeps ws z s) (q : Qid) (k : Nat) (r : Started) :
    Keeps ws z (putNow q s k r) := by
  unfold putNow; try dsimp only
  repeat' (with_reducible first | exact hk | apply keeps_sendPart (hw.mono (by decide)) | apply keeps_foldl  | apply keeps_ite | intro _ _ hk | split)
theorem keeps_remoteSignal {ws : List FieldName} (hw : Among [.ctrs, .parts, .link, .vectors] ws) {z s : State} (hk : Keeps ws z s) (k ctr n : Nat) :
    Keeps1 ws z (remoteSignal s k ctr n) := by
  unfold remoteSignal; try dsimp only
  repeat' (with_reducible first | exact hk | apply keeps_addCtr (hw.mono (by decide)) | apply keeps_modPart (hw.mono (by decide))  | apply keeps1_mk | apply keeps_ite | intro _ _ hk | split)
theorem keepsf_remoteSignal {ws : List FieldName} (hw : Among [.ctrs, .parts, .link, .vectors] ws) {z s : State} (hk : Keeps ws z s) (k ctr n : Nat) : Keeps ws z (remoteSignal s k ctr n).1 := keeps1_fst (by apply keeps_remoteSignal (hw.mono (by decide)); exact hk)
theorem keeps_drainLack {ws : List FieldName} (hw : Among [.parts] ws) {z s : State} (hk : Keeps ws z s) (k : Nat) (m : Msg) :
    Keeps ws z (drainLack s k m) := by
  unfold drainLack; try dsimp only
  repeat' (with_reducible first | exact hk | apply keeps_countColl (hw.mono (by decide)) | apply keeps_modPart (hw.mono (by decide))  | apply keeps_ite | intro _ _ hk | split)
theorem keeps_takeLseal {ws : List FieldName} (hw : Among [.ctrs, .parts, .ports, .link, .vectors, .pins, .power, .ripstop, .ethTx] ws) {z s : State} (hk : Keeps ws z s) (k : Nat) (m : Msg) : Keeps ws z (takeLseal k s m) := by
  unfold takeLseal
  lift_lets
  intro same L a b ok s1 src s2 e
  have h1 : Keeps ws z s1 := keeps_modPart (hw.mono (by decide)) hk _ _
  have h2 : Keeps ws z s2 := keeps_ite (keeps_modPart (hw.mono (by decide)) h1 _ _) h1
  have h3 : Keeps ws z e.1 := by
    unfold e
    split
    · exact keepsf_remoteSignal (hw.mono (by decide)) h2 _ _ _
    · exact h2
  exact keeps_sendMsg (hw.mono (by decide)) h3 _ _ _ _
theorem keeps_clearConns {ws : List FieldName} (hw : Among [.queues, .parts] ws) {z s : State} (hk : Keeps ws z s) (k : Nat) :
    Keeps ws z (clearConns s k) := by
  unfold clearConns; try dsimp only
  repeat' (with_reducible first | exact hk | apply keeps_failMsgs (hw.mono (by decide)) | apply keeps_modPart (hw.mono (by decide)) | apply keeps_foldl  | apply keeps_ite | intro _ _ hk | split)
theorem keeps_tryJersey {ws : List FieldName} (hw : Among [.queues, .parts, .ports, .link, .vectors, .pins, .power, .ripstop, .ethTx] ws) {z s : State} (hk : Keeps ws z s) (k : Nat) :
    Keeps ws z (tryJersey s k) := by
  unfold tryJersey; try dsimp only
  repeat' (with_reducible first | exact hk | apply keeps_clearConns (hw.mono (by decide)) | apply keeps_modPart (hw.mono (by decide)) | apply keeps_answerHeld (hw.mono (by decide)) | apply keeps_endColl (hw.mono (by decide))  | apply keeps_ite | intro _ _ hk | split)
theorem keeps_startJersey {ws : List FieldName} (hw : Among [.parts, .snoops] ws) {z s : State} (hk : Keeps ws z s) (k c : Nat) :
    Keeps1 ws z (startJersey s k c) := by
  unfold startJersey; try dsimp only
  repeat' (with_reducible first | exact hk | apply keeps_noteJob (hw.mono (by decide)) | apply keeps_modPart (hw.mono (by decide))  | apply keeps1_mk | apply keeps_ite | intro _ _ hk | split)
theorem keepsf_startJersey {ws : List FieldName} (hw : Among [.parts, .snoops] ws) {z s : State} (hk : Keeps ws z s) (k c : Nat) : Keeps ws z (startJersey s k c).1 := keeps1_fst (by apply keeps_startJersey (hw.mono (by decide)); exact hk)
theorem keeps_tellGranted {ws : List FieldName} (hw : Among [.parts, .ports, .link, .vectors, .pins, .power, .ripstop, .ethTx] ws) {z s : State} (hk : Keeps ws z s) (k key opk : Nat) (S : Slot) :
    Keeps ws z (tellGranted s k key opk S) := by
  unfold tellGranted; try dsimp only
  repeat' (with_reducible first | exact hk | apply keeps_sendMsg (hw.mono (by decide)) | apply keeps_foldl  | apply keeps_ite | intro _ _ hk | split)
theorem keeps_tellBackups {ws : List FieldName} (hw : Among [.parts, .ports, .link, .vectors, .pins, .power, .ripstop, .ethTx] ws) {z s : State} (hk : Keeps ws z s) (k key opk : Nat) (S : Slot) :
    Keeps ws z (tellBackups s k key opk S) := by
  unfold tellBackups; try dsimp only
  repeat' (with_reducible first | exact hk | apply keeps_sendMsg (hw.mono (by decide)) | apply keeps_foldl  | apply keeps_ite | intro _ _ hk | split)
theorem keeps_closeSlot {ws : List FieldName} (hw : Among [.ctrs, .queues, .parts, .ports, .link, .vectors, .pins, .power, .ripstop, .ethTx, .snoops] ws) {z s : State} (hk : Keeps ws z s) (k key : Nat) (S : Slot) :
    Keeps ws z (closeSlot s k key S) := by
  unfold closeSlot; try dsimp only
  repeat' (with_reducible first | exact hk | apply keeps_modSlot (hw.mono (by decide)) | apply keeps_modHealth (hw.mono (by decide)) | apply keeps_tellBackups (hw.mono (by decide)) | apply keeps_tellGranted (hw.mono (by decide)) | apply keeps_tryJersey (hw.mono (by decide)) | apply keeps_wakeBcasts (hw.mono (by decide)) | apply keeps_addCtr (hw.mono (by decide))  | apply keeps_ite | intro _ _ hk | split)
theorem keeps_zeroSlot {ws : List FieldName} (hw : Among [.mem, .parts, .snoops] ws) {z s : State} (hk : Keeps ws z s) (k : Nat) (S : Slot) :
    Keeps ws z (zeroSlot s k S) := by
  unfold zeroSlot; try dsimp only
  repeat' (with_reducible first | exact hk | apply keeps_zeroFill (hw.mono (by decide))  | apply keeps_ite | intro _ _ hk | split)
theorem keeps_resetSlot {ws : List FieldName} (hw : Among [.mem, .queues, .parts, .ports, .link, .vectors, .pins, .power, .ripstop, .ethTx, .snoops] ws) {z s : State} (hk : Keeps ws z s) (k key : Nat) (S : Slot) :
    Keeps ws z (resetSlot s k key S) := by
  unfold resetSlot; try dsimp only
  repeat' (with_reducible first | exact hk | apply keeps_modSlot (hw.mono (by decide)) | apply keeps_zeroSlot (hw.mono (by decide)) | apply keeps_tellBackups (hw.mono (by decide)) | apply keeps_tellGranted (hw.mono (by decide)) | apply keeps_countColl (hw.mono (by decide)) | apply keeps_tryJersey (hw.mono (by decide)) | apply keeps_wakeBcasts (hw.mono (by decide))  | apply keeps_ite | intro _ _ hk | split)
theorem keeps_checkSlot {ws : List FieldName} (hw : Among [.mem, .ctrs, .queues, .parts, .ports, .link, .vectors, .pins, .power, .ripstop, .ethTx, .snoops] ws) {z s : State} (hk : Keeps ws z s) (k key : Nat) (S : Slot) :
    Keeps ws z (checkSlot s k key S) := by
  unfold checkSlot; try dsimp only
  repeat' (with_reducible first | exact hk | apply keeps_noteRead (hw.mono (by decide)) | apply keeps_closeSlot (hw.mono (by decide)) | apply keeps_resetSlot (hw.mono (by decide)) | apply keeps_countColl (hw.mono (by decide))  | apply keeps_ite | intro _ _ hk | split)
theorem keeps_trySeal {ws : List FieldName} (hw : Among [.mem, .ctrs, .queues, .parts, .ports, .link, .vectors, .pins, .power, .ripstop, .ethTx, .snoops] ws) {z s : State} (hk : Keeps ws z s) (k key i : Nat) :
    Keeps ws z (trySeal s k key i) := by
  unfold trySeal; try dsimp only
  repeat' (with_reducible first | exact hk | apply keeps_modSlot (hw.mono (by decide)) | apply keeps_addCtr (hw.mono (by decide)) | apply keeps_checkSlot (hw.mono (by decide))  | apply keeps_ite | intro _ _ hk | split)
theorem keeps_addElem {ws : List FieldName} (hw : Among [.mem, .parts, .snoops] ws) {z s : State} (hk : Keeps ws z s) (k a : Nat) (x e : Int) :
    Keeps ws z (addElem s k a x e) := by
  unfold addElem; try dsimp only
  repeat' (with_reducible first | exact hk | apply keeps_adder (hw.mono (by decide))  | apply keeps_ite | intro _ _ hk | split)
theorem keeps_callBackups {ws : List FieldName} (hw : Among [.parts, .ports, .link, .vectors, .pins, .power, .ripstop, .ethTx] ws) {z s : State} (hk : Keeps ws z s) (k key : Nat) (S : Slot) (p : Nat → Bool) :
    Keeps ws z (callBackups s k key S p) := by
  unfold callBackups; try dsimp only
  repeat' (with_reducible first | exact hk | apply keeps_sendMsg (hw.mono (by decide)) | apply keeps_modSlot (hw.mono (by decide)) | apply keeps_foldl  | apply keeps_ite | intro _ _ hk | split)
theorem keeps_openSlot {ws : List FieldName} (hw : Among [.mem, .parts, .ports, .link, .vectors, .pins, .power, .ripstop, .ethTx, .snoops] ws) {z s : State} (hk : Keeps ws z s) (k c : Nat) :
    Keeps ws z (openSlot s k c) := by
  unfold openSlot; try dsimp only
  repeat' (with_reducible first | exact hk | apply keeps_zeroFill (hw.mono (by decide)) | apply keeps_answerHeld (hw.mono (by decide)) | apply keeps_modPart (hw.mono (by decide))  | apply keeps_ite | intro _ _ hk | split)
theorem keeps_startSlot {ws : List FieldName} (hw : Among [.mem, .parts, .ports, .link, .vectors, .pins, .power, .ripstop, .ethTx, .order, .snoops] ws) {z s : State} (hk : Keeps ws z s) (k c : Nat) : Keeps1 ws z (startSlot s k c) := by
  replace hk := keeps_noteIf (hw.mono (by decide)) hk k (soMap c) (4 * soNc c)
  unfold startSlot; dsimp only
  exact keeps1_ite (keeps1_mk hk) (keeps1_ite (keeps_withPages (hw.mono (by decide)) hk _) (keeps1_mk (keeps_openSlot (hw.mono (by decide)) hk _ _)))
theorem keepsf_startSlot {ws : List FieldName} (hw : Among [.mem, .parts, .ports, .link, .vectors, .pins, .power, .ripstop, .ethTx, .order, .snoops] ws) {z s : State} (hk : Keeps ws z s) (k c : Nat) : Keeps ws z (startSlot s k c).1 := keeps1_fst (by apply keeps_startSlot (hw.mono (by decide)); exact hk)
theorem keeps_finishSlot {ws : List FieldName} (hw : Among [.mem, .queues, .parts, .ports, .link, .vectors, .pins, .power, .ripstop, .ethTx, .snoops] ws) {z s : State} (hk : Keeps ws z s) (k q : Nat) (r : Started) :
    Keeps ws z (finishSlot s k q r) := by
  unfold finishSlot; try dsimp only
  repeat' (with_reducible first | exact hk | apply keeps_noteIf (hw.mono (by decide)) | apply keeps_tryJersey (hw.mono (by decide)) | apply keeps_endColl (hw.mono (by decide)) | apply keeps_openSlot (hw.mono (by decide))  | apply keeps_ite | intro _ _ hk | split)
theorem keeps_addImages {ws : List FieldName} (hw : Among [.mem, .parts, .snoops] ws) {z s : State} (hk : Keeps ws z s) (k src dst i fuel : Nat) : Keeps ws z (addImages k src dst s i fuel) := by
  induction fuel generalizing s i with
  | zero => exact hk
  | succ n ih =>
    unfold addImages; dsimp only
    exact ih (keeps_adder (hw.mono (by decide)) (keeps_noteRead (hw.mono (by decide)) hk _ _ _) _ _ _) _
theorem keeps_startLadd {ws : List FieldName} (hw : Among [.mem, .parts, .snoops] ws) {z s : State} (hk : Keeps ws z s) (k c : Nat) : Keeps1 ws z (startLadd s k c) := by
  unfold startLadd; dsimp only
  exact keeps1_ite (keeps1_mk hk) (keeps1_ite (keeps1_mk hk) (keeps1_ite (keeps1_mk hk) (keeps1_mk (keeps_addImages (hw.mono (by decide)) hk _ _ _ _ _))))
theorem keepsf_startLadd {ws : List FieldName} (hw : Among [.mem, .parts, .snoops] ws) {z s : State} (hk : Keeps ws z s) (k c : Nat) : Keeps ws z (startLadd s k c).1 := keeps1_fst (by apply keeps_startLadd (hw.mono (by decide)); exact hk)
theorem keeps_startRsignal {ws : List FieldName} {z s : State} (hk : Keeps ws z s) (k c : Nat) :
    Keeps1 ws z (startRsignal s k c) := by
  unfold startRsignal; try dsimp only
  repeat' (with_reducible first | exact hk  | apply keeps1_mk | apply keeps_ite | intro _ _ hk | split)
theorem keepsf_startRsignal {ws : List FieldName} {z s : State} (hk : Keeps ws z s) (k c : Nat) : Keeps ws z (startRsignal s k c).1 := keeps1_fst (by apply keeps_startRsignal; exact hk)
theorem keeps_sendRsig {ws : List FieldName} (hw : Among [.queues, .parts, .ports, .link, .vectors, .pins, .power, .ripstop, .ethTx] ws) {z s : State} (hk : Keeps ws z s) (q : Qid) (k : Nat) (r : Started) :
    Keeps ws z (sendRsig q s k r) := by
  unfold sendRsig; try dsimp only
  repeat' (with_reducible first | exact hk | apply keeps_sendFor (hw.mono (by decide))  | apply keeps_ite | intro _ _ hk | split)
theorem keeps_takeRsig {ws : List FieldName} (hw : Among [.ctrs, .parts, .ports, .link, .vectors, .pins, .power, .ripstop, .ethTx] ws) {z s : State} (hk : Keeps ws z s) (k : Nat) (m : Msg) : Keeps ws z (takeRsig k s m) := by
  unfold takeRsig; dsimp only
  exact keeps_sendMsg (hw.mono (by decide)) (keepsf_remoteSignal (hw.mono (by decide)) hk _ _ _) _ _ _ _
theorem keeps_startGather {ws : List FieldName} {z s : State} (hk : Keeps ws z s) (k c : Nat) :
    Keeps1 ws z (startGather s k c) := by
  unfold startGather; try dsimp only
  repeat' (with_reducible first | exact hk  | apply keeps1_mk | apply keeps_ite | intro _ _ hk | split)
theorem keepsf_startGather {ws : List FieldName} {z s : State} (hk : Keeps ws z s) (k c : Nat) : Keeps ws z (startGather s k c).1 := keeps1_fst (by apply keeps_startGather; exact hk)
theorem keeps_sendGreq {ws : List FieldName} (hw : Among [.queues, .parts, .ports, .link, .vectors, .pins, .power, .ripstop, .ethTx] ws) {z s : State} (hk : Keeps ws z s) (q : Qid) (k : Nat) (r : Started) :
    Keeps ws z (sendGreq q s k r) := by
  unfold sendGreq; try dsimp only
  repeat' (with_reducible first | exact hk | apply keeps_sendFor (hw.mono (by decide))  | apply keeps_ite | intro _ _ hk | split)
theorem keeps_countGather {ws : List FieldName} (hw : Among [.queues, .parts] ws) {z s : State} (hk : Keeps ws z s) (k : Nat) (m : Msg) (g : GRows) :
    Keeps ws z (countGather s k m g) := by
  unfold countGather; try dsimp only
  repeat' (with_reducible first | exact hk | apply keeps_countNan (hw.mono (by decide)) | apply keeps_modStarted (hw.mono (by decide)) | apply keeps_countEvt (hw.mono (by decide))  | apply keeps_ite | intro _ _ hk | split)
theorem keeps_answerGather {ws : List FieldName} (hw : Among [.queues, .parts, .ports, .link, .vectors, .pins, .power, .ripstop, .ethTx, .snoops] ws) {z s : State} (hk : Keeps ws z s) (k : Nat) (m : Msg) (how : GServe) :
    Keeps ws z (answerGather s k m how) := by
  unfold answerGather; try dsimp only
  repeat' (with_reducible first | exact hk | apply keeps_sendMsg (hw.mono (by decide)) | apply keeps_modPart (hw.mono (by decide)) | apply keeps_countColl (hw.mono (by decide)) | apply keeps_noteRead (hw.mono (by decide)) | apply keeps_countGather (hw.mono (by decide)) | apply keeps_foldl  | apply keeps_ite | intro _ _ hk | split)
theorem keeps_finishVote {ws : List FieldName} (hw : Among [.mem, .queues, .parts, .ports, .link, .vectors, .pins, .power, .ripstop, .ethTx, .snoops] ws) {z s : State} (hk : Keeps ws z s) (k : Nat) (v : Vote) (w : BitVec 64) (pass : Bool) :
    Keeps ws z (finishVote s k v w pass) := by
  unfold finishVote; try dsimp only
  repeat' (with_reducible first | exact hk | apply keeps_modPart (hw.mono (by decide)) | apply keeps_endColl (hw.mono (by decide)) | apply keeps_store (hw.mono (by decide)) | apply keeps_sendMsg (hw.mono (by decide)) | apply keeps_foldl  | apply keeps_ite | intro _ _ hk | split)
theorem keeps_voteGo {ws : List FieldName} (hw : Among [.mem, .queues, .parts, .ports, .link, .vectors, .pins, .power, .ripstop, .ethTx, .snoops] ws) {z s : State} (hk : Keeps ws z s) (k : Nat) (J : Job) (v : Vote) (fuel : Nat) : Keeps ws z (voteGo s k J v fuel) := by
  induction fuel generalizing v with
  | zero => exact hk
  | succ n ih =>
    unfold voteGo; dsimp only
    repeat' (with_reducible first | exact hk | apply keeps_endColl (hw.mono (by decide)) | apply keeps_finishVote (hw.mono (by decide)) | apply keeps_sendMsg (hw.mono (by decide)) | apply keeps_modPart (hw.mono (by decide)) | exact ih _ | split)
theorem keeps_startVote {ws : List FieldName} (hw : Among [.parts, .snoops] ws) {z s : State} (hk : Keeps ws z s) (q : Qid) (k c : Nat) :
    Keeps1 ws z (startVote q s k c) := by
  unfold startVote; try dsimp only
  repeat' (with_reducible first | exact hk | apply keeps_noteRead (hw.mono (by decide)) | apply keeps_modPart (hw.mono (by decide))  | apply keeps1_mk | apply keeps_ite | intro _ _ hk | split)
theorem keepsf_startVote {ws : List FieldName} (hw : Among [.parts, .snoops] ws) {z s : State} (hk : Keeps ws z s) (q : Qid) (k c : Nat) : Keeps ws z (startVote q s k c).1 := keeps1_fst (by apply keeps_startVote (hw.mono (by decide)); exact hk)
theorem keeps_voteFirst {ws : List FieldName} (hw : Among [.mem, .queues, .parts, .ports, .link, .vectors, .pins, .power, .ripstop, .ethTx, .snoops] ws) {z s : State} (hk : Keeps ws z s) (k : Nat) :
    Keeps ws z (voteFirst s k) := by
  unfold voteFirst; try dsimp only
  repeat' (with_reducible first | exact hk | apply keeps_voteGo (hw.mono (by decide))  | apply keeps_ite | intro _ _ hk | split)
theorem keeps_collStep {ws : List FieldName} (hw : Among [.queues, .parts, .ports, .link, .vectors, .pins, .power, .ripstop, .ethTx, .snoops] ws) {z s : State} (hk : Keeps ws z s) (k : Nat) :
    Keeps ws z (collStep s k) := by
  unfold collStep; try dsimp only
  repeat' (with_reducible first | exact hk | apply keeps_tryJersey (hw.mono (by decide)) | apply keeps_pumpContribs (hw.mono (by decide))  | apply keeps_ite | intro _ _ hk | split)

end Sys2Proof.Machine
end

