-- ==== Sys2Proof/Laws/KeepsStore.lean ====
section
/-! SUPPORT. What every shared operation keeps, continued: storage, Rolser, the window, the Cerral Link and Ethernet. -/

set_option linter.unusedTactic false
set_option linter.unreachableTactic false
set_option linter.unusedVariables false
namespace Sys2Proof.Machine
open Sys2Proof

/-! ### Storage -/

theorem keeps_modQp {ws : List FieldName} (hw : Among [.parts] ws) {z s : State} (hk : Keeps ws z s) (k i : Nat) (f : Qp → Qp) :
    Keeps ws z (modQp s k i f) := by
  unfold modQp; try dsimp only
  repeat' (with_reducible first | exact hk | apply keeps_modPart (hw.mono (by decide))  | apply keeps_ite | intro _ _ hk | split)
theorem keeps_roceSend {ws : List FieldName} (hw : Among [.parts, .ports, .ethTx] ws) {z s : State} (hk : Keeps ws z s) (k i : Nat) (p : RocePkt) :
    Keeps ws z (roceSend s k i p) := by
  unfold roceSend; try dsimp only
  repeat' (with_reducible first | exact hk | apply keeps_sendFrame (hw.mono (by decide)) | apply keeps_modPart (hw.mono (by decide))  | apply keeps_ite | intro _ _ hk | split)
theorem keeps_sendKept {ws : List FieldName} (hw : Among [.parts, .ports, .ethTx] ws) {z s : State} (hk : Keeps ws z s) (k i : Nat) (ps : List RocePkt) :
    Keeps ws z (sendKept s k i ps) := by
  unfold sendKept; try dsimp only
  repeat' (with_reducible first | exact hk | apply keeps_roceSend (hw.mono (by decide)) | apply keeps_modQp (hw.mono (by decide)) | apply keeps_foldl  | apply keeps_ite | intro _ _ hk | split)
theorem keeps_goBack {ws : List FieldName} (hw : Among [.parts, .ports, .ethTx] ws) {z s : State} (hk : Keeps ws z s) (k i : Nat) (n : BitVec 24) :
    Keeps ws z (goBack s k i n) := by
  unfold goBack; try dsimp only
  repeat' (with_reducible first | exact hk | apply keeps_roceSend (hw.mono (by decide)) | apply keeps_foldl  | apply keeps_ite | intro _ _ hk | split)
theorem keeps_failQp {ws : List FieldName} (hw : Among [.queues, .parts] ws) {z s : State} (hk : Keeps ws z s) (k i : Nat) :
    Keeps ws z (failQp s k i) := by
  unfold failQp; try dsimp only
  repeat' (with_reducible first | exact hk | apply keeps_modQp (hw.mono (by decide)) | apply keeps_endAs (hw.mono (by decide)) | apply keeps_modPart (hw.mono (by decide)) | apply keeps_foldl  | apply keeps_ite | intro _ _ hk | split)
theorem keeps_qpError {ws : List FieldName} (hw : Among [.queues, .parts] ws) {z s : State} (hk : Keeps ws z s) (k i : Nat) :
    Keeps ws z (qpError s k i) := by
  unfold qpError; try dsimp only
  repeat' (with_reducible first | exact hk | apply keeps_modQp (hw.mono (by decide)) | apply keeps_failQp (hw.mono (by decide))  | apply keeps_ite | intro _ _ hk | split)
theorem keeps_movePort {ws : List FieldName} (hw : Among [.parts, .ports, .ethTx] ws) {z s : State} (hk : Keeps ws z s) (k i : Nat) :
    Keeps ws z (movePort s k i) := by
  unfold movePort; try dsimp only
  repeat' (with_reducible first | exact hk | apply keeps_goBack (hw.mono (by decide)) | apply keeps_modQp (hw.mono (by decide))  | apply keeps_ite | intro _ _ hk | split)
theorem keeps_openQp {ws : List FieldName} (hw : Among [.parts] ws) {z s : State} (hk : Keeps ws z s) (k i : Nat) {t : State} (h : openQp s k i = some t) : Keeps ws z t := by
  unfold openQp at h; dsimp only at h
  repeat' split at h
  all_goals first
    | cases h; done
    | (injection h with h; subst h; exact keeps_modQp (hw.mono (by decide)) hk _ _ _)
theorem keeps_closeQp {ws : List FieldName} (hw : Among [.queues, .parts] ws) {z s : State} (hk : Keeps ws z s) (k i : Nat) :
    Keeps ws z (closeQp s k i) := by
  unfold closeQp; try dsimp only
  repeat' (with_reducible first | exact hk | apply keeps_modQp (hw.mono (by decide)) | apply keeps_failQp (hw.mono (by decide))  | apply keeps_ite | intro _ _ hk | split)
theorem keeps_onSxfer {ws : List FieldName} (hw : Among [.queues, .parts, .link, .snoops] ws) {z s : State} (hk : Keeps ws z s) {q : Qid} {op : Nat → Bool} {f : State → Nat → Nat → SealKey → State × Started}
    {g : State → Nat → Started → State} (hf : ∀ s k c x, Keeps ws z s → Keeps1 ws z (f s k c x)) (hg : ∀ s k r, Keeps ws z s → Keeps ws z (g s k r)) : Keeps ws z (onSxfer s q op f g) := by
  unfold onSxfer
  refine keeps_startThen (hw.mono (by decide)) hk (fun s k c h => ?_) hg
  dsimp only
  refine keeps1_ite (keeps1_mk h) ?_
  split
  · exact hf _ _ _ _ h
  · exact keeps1_mk h
theorem keeps_askChunks {ws : List FieldName} (hw : Among [.queues, .parts, .ports, .ethTx] ws) {z s : State} (hk : Keeps ws z s) (k q : Nat) (idx : BitVec 24) (fuel : Nat) :
    Keeps ws z (askChunks s k q idx fuel) := by
  induction fuel generalizing s with
  | zero => exact hk
  | succ n ih =>
    unfold askChunks; dsimp only
    repeat' (with_reducible first | exact hk | apply ih | apply keeps_modStarted (hw.mono (by decide)) | apply keeps_sendKept (hw.mono (by decide)) | split)
theorem keeps_pumpReads {ws : List FieldName} (hw : Among [.queues, .parts, .ports, .ethTx] ws) {z s : State} (hk : Keeps ws z s) (k i : Nat) :
    Keeps ws z (pumpReads s k i) := by
  unfold pumpReads; try dsimp only
  repeat' (with_reducible first | exact hk | apply keeps_askChunks (hw.mono (by decide)) | apply keeps_foldl  | apply keeps_ite | intro _ _ hk | split)
theorem keeps_takeReadChunk {ws : List FieldName} (hw : Among [.mem, .queues, .parts, .snoops] ws) {z s : State} (hk : Keeps ws z s) (k : Nat) (e : BitVec 20 × BitVec 24) (p : Bytes) :
    Keeps ws z (takeReadChunk s k e p) := by
  unfold takeReadChunk; try dsimp only
  repeat' (with_reducible first | exact hk | apply keeps_modStarted (hw.mono (by decide)) | apply keeps_endAs (hw.mono (by decide)) | apply keeps_store (hw.mono (by decide))  | apply keeps_ite | intro _ _ hk | split)

theorem keeps_takeReadBytes {ws : List FieldName} (hw : Among [.mem, .queues, .parts, .snoops] ws) {z s : State} (hk : Keeps ws z s) (k : Nat) (e : BitVec 20 × BitVec 24) (p : Bytes) :
    Keeps ws z (takeReadBytes s k e p) := by
  unfold takeReadBytes
  exact keeps_takeReadChunk hw (keeps_takeReadChunk hw hk k e p) k e []

theorem keeps_sendWrite {ws : List FieldName} (hw : Among [.parts, .ports, .ethTx, .snoops] ws) {z s : State} (hk : Keeps ws z s) (q : Qid) (k : Nat) (r : Started) :
    Keeps ws z (sendWrite q s k r) := by
  unfold sendWrite; try dsimp only
  repeat' (with_reducible first | exact hk | apply keeps_noteRead (hw.mono (by decide)) | apply keeps_modPart (hw.mono (by decide)) | apply keeps_sendKept (hw.mono (by decide))  | apply keeps_ite | intro _ _ hk | split)
theorem keeps_sendExpose {ws : List FieldName} (hw : Among [.draws, .parts, .ports, .ethTx] ws) {z s : State} (hk : Keeps ws z s) (q : Qid) (k : Nat) (r : Started) :
    Keeps ws z (sendExpose q s k r) := by
  unfold sendExpose; try dsimp only
  repeat' (with_reducible first | exact hk | apply keeps_draw (hw.mono (by decide)) | apply keeps_putPart (hw.mono (by decide)) | apply keeps_sendKept (hw.mono (by decide)) | apply keeps_modQp (hw.mono (by decide))  | apply keeps_ite | intro _ _ hk | split)
theorem keeps_answerReq {ws : List FieldName} (hw : Among [.parts, .ports, .ethTx] ws) {z s : State} (hk : Keeps ws z s) (k i n syn : Nat) :
    Keeps ws z (answerReq s k i n syn) := by
  unfold answerReq; try dsimp only
  repeat' (with_reducible first | exact hk | apply keeps_roceSend (hw.mono (by decide)) | apply keeps_modQp (hw.mono (by decide))  | apply keeps_ite | intro _ _ hk | split)
theorem keeps_denyRoce {ws : List FieldName} (hw : Among [.parts, .ports, .ethTx] ws) {z s : State} (hk : Keeps ws z s) (k i n : Nat) :
    Keeps ws z (denyRoce s k i n) := by
  unfold denyRoce; try dsimp only
  repeat' (with_reducible first | exact hk | apply keeps_answerReq (hw.mono (by decide)) | apply keeps_countXfer (hw.mono (by decide))  | apply keeps_ite | intro _ _ hk | split)
theorem keeps_endExpose {ws : List FieldName} (hw : Among [.queues, .parts] ws) {z s : State} (hk : Keeps ws z s) (k i : Nat) (b : RBuf) (st : BitVec 8) :
    Keeps ws z (endExpose s k i b st) := by
  unfold endExpose; try dsimp only
  repeat' (with_reducible first | exact hk | apply keeps_endAs (hw.mono (by decide)) | apply keeps_modQp (hw.mono (by decide))  | apply keeps_ite | intro _ _ hk | split)
theorem keeps_serveRdmaRead {ws : List FieldName} (hw : Among [.parts, .ports, .ethTx, .snoops] ws) {z s : State} (hk : Keeps ws z s) (k i : Nat) (n : BitVec 24) (rkey : BitVec 32) (raddr : BitVec 64) (len : BitVec 32) :
    Keeps ws z (serveRdmaRead s k i n rkey raddr len) := by
  unfold serveRdmaRead; try dsimp only
  repeat' (with_reducible first | exact hk | apply keeps_denyRoce (hw.mono (by decide)) | apply keeps_modQp (hw.mono (by decide)) | apply keeps_noteRead (hw.mono (by decide)) | apply keeps_roceSend (hw.mono (by decide)) | apply keeps_foldl  | apply keeps_ite | intro _ _ hk | split)
theorem keeps_takeChunks {ws : List FieldName} (hw : Among [.mem, .parts, .snoops] ws) {z s : State} (hk : Keeps ws z s) (k : Nat) (b : RBuf) : Keeps1 ws z (takeChunks s k b) := by
  unfold takeChunks
  split
  · exact keeps1_mk hk
  · refine keeps_foldl1 (fun a j h => ?_) (keeps1_mk hk)
    obtain ⟨s, b, ok⟩ := a
    dsimp only
    repeat' split
    all_goals first | exact h | exact keeps1_mk (keeps1_fst h) | exact keeps1_mk (keeps_store (hw.mono (by decide)) (keeps1_fst h) _ _ _)
theorem keepsf_takeChunks {ws : List FieldName} (hw : Among [.mem, .parts, .snoops] ws) {z s : State} (hk : Keeps ws z s) (k : Nat) (b : RBuf) : Keeps ws z (takeChunks s k b).1 := keeps1_fst (by apply keeps_takeChunks (hw.mono (by decide)); exact hk)
theorem keeps_serveRdmaWrite {ws : List FieldName} (hw : Among [.mem, .queues, .parts, .snoops] ws) {z s : State} (hk : Keeps ws z s) (k i : Nat) (rkey : BitVec 32) (raddr : BitVec 64) (data : Bytes) {t : State}
    (h : serveRdmaWrite s k i rkey raddr data = some t) : Keeps ws z t := by
  unfold serveRdmaWrite at h; dsimp only at h
  split at h
  · split at h
    · cases h
    · injection h with h; subst h
      exact keeps_ite (keeps_modQp (hw.mono (by decide)) (keepsf_takeChunks (hw.mono (by decide)) hk _ _) _ _ _)
        (keeps_endExpose (hw.mono (by decide)) (keepsf_takeChunks (hw.mono (by decide)) hk _ _) _ _ _ _)
  · cases h
theorem keeps_serveSend {ws : List FieldName} (hw : Among [.queues, .parts] ws) {z s : State} (hk : Keeps ws z s) (k i : Nat) (token status : BitVec 32) :
    Keeps ws z (serveSend s k i token status) := by
  unfold serveSend; try dsimp only
  repeat' (with_reducible first | exact hk | apply keeps_endExpose (hw.mono (by decide))  | apply keeps_ite | intro _ _ hk | split)
theorem keeps_settleWrites {ws : List FieldName} (hw : Among [.queues] ws) {z s : State} (hk : Keeps ws z s) (k i : Nat) :
    Keeps ws z (settleWrites s k i) := by
  unfold settleWrites; try dsimp only
  repeat' (with_reducible first | exact hk | apply keeps_endAs (hw.mono (by decide)) | apply keeps_foldl  | apply keeps_ite | intro _ _ hk | split)
theorem keeps_takeRoceAck {ws : List FieldName} (hw : Among [.queues, .parts] ws) {z s : State} (hk : Keeps ws z s) (k i : Nat) (n : BitVec 24) :
    Keeps ws z (takeRoceAck s k i n) := by
  unfold takeRoceAck; try dsimp only
  repeat' (with_reducible first | exact hk | apply keeps_settleWrites (hw.mono (by decide)) | apply keeps_modQp (hw.mono (by decide))  | apply keeps_ite | intro _ _ hk | split)
theorem keeps_takeResponse {ws : List FieldName} (hw : Among [.mem, .queues, .parts, .ports, .ethTx, .snoops] ws) {z s : State} (hk : Keeps ws z s) (k i : Nat) (n : BitVec 24) (b : Bytes) :
    Keeps ws z (takeResponse s k i n b) := by
  unfold takeResponse; try dsimp only
  repeat' (with_reducible first | exact hk | apply keeps_modQp (hw.mono (by decide)) | apply keeps_settleWrites (hw.mono (by decide)) | apply keeps_takeReadBytes (hw.mono (by decide)) | apply keeps_pumpReads (hw.mono (by decide))  | apply keeps_ite | intro _ _ hk | split)
theorem keeps_retryFrom {ws : List FieldName} (hw : Among [.queues, .parts, .ports, .ethTx] ws) {z s : State} (hk : Keeps ws z s) (k i : Nat) (n : BitVec 24) :
    Keeps ws z (retryFrom s k i n) := by
  unfold retryFrom; try dsimp only
  repeat' (with_reducible first | exact hk | apply keeps_qpError (hw.mono (by decide)) | apply keeps_goBack (hw.mono (by decide)) | apply keeps_modQp (hw.mono (by decide))  | apply keeps_ite | intro _ _ hk | split)
theorem keeps_takeCnp {ws : List FieldName} (hw : Among [.parts] ws) {z s : State} (hk : Keeps ws z s) (k i : Nat) :
    Keeps ws z (takeCnp s k i) := by
  unfold takeCnp; try dsimp only
  repeat' (with_reducible first | exact hk | apply keeps_modQp (hw.mono (by decide))  | apply keeps_ite | intro _ _ hk | split)
theorem keeps_ackReq {ws : List FieldName} (hw : Among [.parts, .ports, .ethTx] ws) {z s : State} (hk : Keeps ws z s) (k i : Nat) (p : RocePkt) (last : Bool) :
    Keeps ws z (ackReq s k i p last) := by
  unfold ackReq; try dsimp only
  repeat' (with_reducible first | exact hk | apply keeps_modQp (hw.mono (by decide)) | apply keeps_roceSend (hw.mono (by decide))  | apply keeps_ite | intro _ _ hk | split)
theorem keeps_takeRequest {ws : List FieldName} (hw : Among [.mem, .queues, .parts, .ports, .ethTx, .snoops] ws) {z s : State} (hk : Keeps ws z s) (k i : Nat) (p : RocePkt) :
    Keeps ws z (takeRequest s k i p) := by
  unfold takeRequest; try dsimp only
  repeat' (with_reducible first | exact hk | apply keeps_serveRdmaRead (hw.mono (by decide)) | apply keeps_modQp (hw.mono (by decide)) | apply keeps_serveSend (hw.mono (by decide)) | apply keeps_ackReq (hw.mono (by decide)) | apply keeps_denyRoce (hw.mono (by decide))  | apply keeps_ite | split)
  exact keeps_serveRdmaWrite (hw.mono (by decide)) hk _ _ _ _ _ (by assumption)
theorem keeps_takeAgain {ws : List FieldName} (hw : Among [.parts, .ports, .ethTx, .snoops] ws) {z s : State} (hk : Keeps ws z s) (k i : Nat) (p : RocePkt) :
    Keeps ws z (takeAgain s k i p) := by
  unfold takeAgain; try dsimp only
  repeat' (with_reducible first | exact hk | apply keeps_serveRdmaRead (hw.mono (by decide)) | apply keeps_roceSend (hw.mono (by decide))  | apply keeps_ite | intro _ _ hk | split)
theorem keeps_takeAhead {ws : List FieldName} (hw : Among [.parts, .ports, .ethTx] ws) {z s : State} (hk : Keeps ws z s) (k i : Nat) :
    Keeps ws z (takeAhead s k i) := by
  unfold takeAhead; try dsimp only
  repeat' (with_reducible first | exact hk | apply keeps_roceSend (hw.mono (by decide)) | apply keeps_modQp (hw.mono (by decide))  | apply keeps_ite | intro _ _ hk | split)
theorem keeps_takeRoce {ws : List FieldName} (hw : Among [.mem, .queues, .parts, .ports, .ethTx, .snoops] ws) {z s : State} (hk : Keeps ws z s) (k i : Nat) (p : RocePkt) :
    Keeps ws z (takeRoce s k i p) := by
  unfold takeRoce; try dsimp only
  repeat' (with_reducible first | exact hk | apply keeps_takeCnp (hw.mono (by decide)) | apply keeps_takeRoceAck (hw.mono (by decide)) | apply keeps_retryFrom (hw.mono (by decide)) | apply keeps_qpError (hw.mono (by decide)) | apply keeps_takeResponse (hw.mono (by decide)) | apply keeps_takeRequest (hw.mono (by decide)) | apply keeps_modQp (hw.mono (by decide)) | apply keeps_takeAgain (hw.mono (by decide)) | apply keeps_takeAhead (hw.mono (by decide))  | apply keeps_ite | intro _ _ hk | split)
theorem keeps_answerCe {ws : List FieldName} (hw : Among [.parts, .ports, .ethTx] ws) {z s : State} (hk : Keeps ws z s) (k i : Nat) :
    Keeps ws z (answerCe s k i) := by
  unfold answerCe; try dsimp only
  repeat' (with_reducible first | exact hk | apply keeps_roceSend (hw.mono (by decide)) | apply keeps_modQp (hw.mono (by decide))  | apply keeps_ite | intro _ _ hk | split)
theorem keeps_roceArrives {ws : List FieldName} (hw : Among [.mem, .queues, .parts, .ports, .ethTx, .snoops] ws) {z s : State} (hk : Keeps ws z s) (k : Nat) (u : Udp) (ip : Bytes) :
    Keeps ws z (roceArrives s k u ip) := by
  unfold roceArrives; try dsimp only
  repeat' (with_reducible first | exact hk | apply keeps_countXfer (hw.mono (by decide)) | apply keeps_qpError (hw.mono (by decide)) | apply keeps_takeRoce (hw.mono (by decide)) | apply keeps_answerCe (hw.mono (by decide))  | apply keeps_ite | intro _ _ hk | split)

/-! ### Rolser -/

theorem keeps_sendToPeer {ws : List FieldName} (hw : Among [.ports, .ethTx] ws) {z s : State} (hk : Keeps ws z s) (peer : RolPeer) (f : Bytes) :
    Keeps ws z (sendToPeer peer s f) := by
  unfold sendToPeer; try dsimp only
  repeat' (with_reducible first | exact hk | apply keeps_queueFrame (hw.mono (by decide))  | apply keeps_ite | intro _ _ hk | split)
theorem keeps_rolSend {ws : List FieldName} (hw : Among [.ports, .link, .vectors, .mailboxes, .rolser, .ethTx] ws) {z s : State} (hk : Keeps ws z s) (mbox : Option Nat) (peer : RolPeer) (fs : List Bytes) :
    Keeps ws z (rolSend s mbox peer fs) := by
  unfold rolSend; try dsimp only
  repeat' (with_reducible first | exact hk | apply keeps_setRolser (hw.mono (by decide)) | apply keeps_sendToPeer (hw.mono (by decide)) | apply keeps_raise (hw.mono (by decide)) | apply keeps_modMailbox (hw.mono (by decide)) | apply keeps_foldl  | apply keeps_ite | intro _ _ hk | split)
theorem keeps_freeBusy {ws : List FieldName} (hw : Among [.mailboxes] ws) {z s : State} (hk : Keeps ws z s) (mbox : Option Nat) :
    Keeps ws z (freeBusy s mbox) := by
  unfold freeBusy; try dsimp only
  repeat' (with_reducible first | exact hk | apply keeps_modMailbox (hw.mono (by decide))  | apply keeps_ite | intro _ _ hk | split)
theorem keeps_putSession {ws : List FieldName} (hw : Among [.rolser] ws) {z s : State} (hk : Keeps ws z s) (sid : Nat) (S : Session) :
    Keeps ws z (putSession s sid S) := by
  unfold putSession; try dsimp only
  repeat' (with_reducible first | exact hk | apply keeps_setRolser (hw.mono (by decide))  | apply keeps_ite | intro _ _ hk | split)
theorem keeps_closeSession {ws : List FieldName} (hw : Among [.rolser] ws) {z s : State} (hk : Keeps ws z s) (sid : Nat) :
    Keeps ws z (closeSession s sid) := by
  unfold closeSession; try dsimp only
  repeat' (with_reducible first | exact hk | apply keeps_setRolser (hw.mono (by decide))  | apply keeps_ite | intro _ _ hk | split)
theorem keeps_closeSessions {ws : List FieldName} (hw : Among [.rolser] ws) {z s : State} (hk : Keeps ws z s) (f : Session → Bool) :
    Keeps ws z (closeSessions s f) := by
  unfold closeSessions; try dsimp only
  repeat' (with_reducible first | exact hk | apply keeps_closeSession (hw.mono (by decide)) | apply keeps_foldl  | apply keeps_ite | intro _ _ hk | split)
theorem keeps_closeAllSessions {ws : List FieldName} (hw : Among [.rolser] ws) {z s : State} (hk : Keeps ws z s) :
    Keeps ws z (closeAllSessions s) := by
  unfold closeAllSessions; try dsimp only
  repeat' (with_reducible first | exact hk | apply keeps_closeSessions (hw.mono (by decide))  | apply keeps_ite | intro _ _ hk | split)
theorem keeps_rolBad {ws : List FieldName} (hw : Among [.mailboxes, .rolser] ws) {z s : State} (hk : Keeps ws z s) (mbox : Option Nat) :
    Keeps ws z (rolBad s mbox) := by
  unfold rolBad; try dsimp only
  repeat' (with_reducible first | exact hk | apply keeps_setRolser (hw.mono (by decide)) | apply keeps_freeBusy (hw.mono (by decide))  | apply keeps_ite | intro _ _ hk | split)
theorem keeps_rolSeqDrop {ws : List FieldName} (hw : Among [.mailboxes, .rolser] ws) {z s : State} (hk : Keeps ws z s) (mbox : Option Nat) :
    Keeps ws z (rolSeqDrop s mbox) := by
  unfold rolSeqDrop; try dsimp only
  repeat' (with_reducible first | exact hk | apply keeps_setRolser (hw.mono (by decide)) | apply keeps_freeBusy (hw.mono (by decide))  | apply keeps_ite | intro _ _ hk | split)
theorem keeps_rolComplete {ws : List FieldName} (hw : Among [.mailboxes, .rolser] ws) {z s : State} (hk : Keeps ws z s) (m : RolMsg) :
    Keeps ws z (rolComplete s m) := by
  unfold rolComplete; try dsimp only
  repeat' (with_reducible first | exact hk | apply keeps_setRolser (hw.mono (by decide)) | apply keeps_rolSeqDrop (hw.mono (by decide))  | apply keeps_ite | intro _ _ hk | split)
theorem keeps_rolFragment {ws : List FieldName} (hw : Among [.mailboxes, .rolser] ws) {z s : State} (hk : Keeps ws z s) (mbox : Option Nat) (peer : RolPeer) (sid seq kind frag nfrag : Nat) (p : Bytes) :
    Keeps ws z (rolFragment s mbox peer sid seq kind frag nfrag p) := by
  unfold rolFragment; try dsimp only
  repeat' (with_reducible first | exact hk | apply keeps_setRolser (hw.mono (by decide)) | apply keeps_rolComplete (hw.mono (by decide)) | apply keeps_freeBusy (hw.mono (by decide))  | apply keeps_ite | intro _ _ hk | split)
theorem keeps_rolArrives {ws : List FieldName} (hw : Among [.mailboxes, .rolser] ws) {z s : State} (hk : Keeps ws z s) (mbox : Option Nat) (peer : RolPeer) (b : Bytes) :
    Keeps ws z (rolArrives s mbox peer b) := by
  unfold rolArrives; try dsimp only
  repeat' (with_reducible first | exact hk | apply keeps_setRolser (hw.mono (by decide)) | apply keeps_rolBad (hw.mono (by decide)) | apply keeps_rolFragment (hw.mono (by decide)) | apply keeps_freeBusy (hw.mono (by decide))  | apply keeps_ite | intro _ _ hk | split)
theorem keeps_rolReply {ws : List FieldName} (hw : Among [.ports, .link, .vectors, .mailboxes, .rolser, .ethTx] ws) {z s : State} (hk : Keeps ws z s) (sid kind : Nat) (payload : Bytes) :
    Keeps ws z (rolReply s sid kind payload) := by
  unfold rolReply; try dsimp only
  repeat' (with_reducible first | exact hk | apply keeps_rolSend (hw.mono (by decide)) | apply keeps_putSession (hw.mono (by decide))  | apply keeps_ite | intro _ _ hk | split)
theorem keeps_onRequest {ws : List FieldName} (hw : Among [.ports, .link, .vectors, .mailboxes, .rolser, .ethTx] ws) {z s : State} (hk : Keeps ws z s) {kind : Nat} {f : State → Nat → Session → RolMsg → State}
    (hf : ∀ s i S m, Keeps ws z s → Keeps ws z (f s i S m)) : Keeps ws z (onRequest s kind f) := by
  unfold onRequest; dsimp only
  repeat' (with_reducible first | exact hk | apply hf | apply keeps_freeBusy (hw.mono (by decide)) | apply keeps_putSession (hw.mono (by decide)) | apply keeps_rolSend (hw.mono (by decide)) | apply keeps_rolSeqDrop (hw.mono (by decide)) | apply keeps_setRolser (hw.mono (by decide)) | split)
theorem keeps_sendEvent {ws : List FieldName} (hw : Among [.ports, .link, .vectors, .mailboxes, .rolser, .ethTx] ws) {z s : State} (hk : Keeps ws z s) (sid n : Nat) (items : Bytes) :
    Keeps ws z (sendEvent s sid n items) := by
  unfold sendEvent; try dsimp only
  repeat' (with_reducible first | exact hk | apply keeps_rolSend (hw.mono (by decide)) | apply keeps_putSession (hw.mono (by decide)) | apply keeps_raise (hw.mono (by decide))  | apply keeps_ite | intro _ _ hk | split)
theorem keeps_submitMailbox {ws : List FieldName} (hw : Among [.link, .mailboxes, .rolser] ws) {z s : State} (hk : Keeps ws z s) (d : Nat) (len : Nat) :
    Keeps ws z (submitMailbox s d len) := by
  unfold submitMailbox; try dsimp only
  repeat' (with_reducible first | exact hk | apply keeps_clCount (hw.mono (by decide)) | apply keeps_rolArrives (hw.mono (by decide)) | apply keeps_putMailbox (hw.mono (by decide))  | apply keeps_ite | intro _ _ hk | split)
theorem keeps_clearReady {ws : List FieldName} (hw : Among [.link, .vectors, .mailboxes] ws) {z s : State} (hk : Keeps ws z s) (d : Nat) :
    Keeps ws z (clearReady s d) := by
  unfold clearReady; try dsimp only
  repeat' (with_reducible first | exact hk | apply keeps_putMailbox (hw.mono (by decide)) | apply keeps_raise (hw.mono (by decide))  | apply keeps_ite | intro _ _ hk | split)

/-! ### Window -/

theorem keeps_closeBoot {ws : List FieldName} (hw : Among [.link, .vectors] ws) {z s : State} (hk : Keeps ws z s) :
    Keeps ws z (closeBoot s) := by
  unfold closeBoot; try dsimp only
  repeat' (with_reducible first | exact hk | apply keeps_setLink (hw.mono (by decide)) | apply keeps_clEvent (hw.mono (by decide))  | apply keeps_ite | intro _ _ hk | split)
theorem keeps_writeMask {ws : List FieldName} (hw : Among [.link, .vectors] ws) {z s : State} (hk : Keeps ws z s) (v : Nat) (mask : Bool) :
    Keeps ws z (writeMask s v mask) := by
  unfold writeMask; try dsimp only
  repeat' (with_reducible first | exact hk | apply keeps_sendIrq (hw.mono (by decide)) | apply keeps_putVec (hw.mono (by decide))  | apply keeps_ite | intro _ _ hk | split)
theorem keeps_clearQEvent {ws : List FieldName} (hw : Among [.parts] ws) {z s : State} (hk : Keeps ws z s) (k : Nat) (v : Nat) :
    Keeps ws z (clearQEvent s k v) := by
  unfold clearQEvent; try dsimp only
  repeat' (with_reducible first | exact hk | apply keeps_modPart (hw.mono (by decide))  | apply keeps_ite | intro _ _ hk | split)
theorem keeps_clearClEvent {ws : List FieldName} (hw : Among [.link] ws) {z s : State} (hk : Keeps ws z s) (v : Nat) :
    Keeps ws z (clearClEvent s v) := by
  unfold clearClEvent; try dsimp only
  repeat' (with_reducible first | exact hk | apply keeps_setLink (hw.mono (by decide))  | apply keeps_ite | intro _ _ hk | split)
theorem keeps_unitWrite {ws : List FieldName} (hw : Among [.queues, .parts, .link, .vectors, .mailboxes, .rolser, .order, .snoops] ws) {z s : State} (hk : Keeps ws z s) (off v : Nat) :
    Keeps ws z (unitWrite s off v) := by
  unfold unitWrite; try dsimp only
  repeat' (with_reducible first | exact hk | apply keeps_clearClEvent (hw.mono (by decide)) | apply keeps_closeBoot (hw.mono (by decide)) | apply keeps_writeMask (hw.mono (by decide)) | apply keeps_putVec (hw.mono (by decide)) | apply keeps_doorbell (hw.mono (by decide)) | apply keeps_clearQEvent (hw.mono (by decide)) | apply keeps_modPart (hw.mono (by decide)) | apply keeps_armWatch (hw.mono (by decide)) | apply keeps_modMailbox (hw.mono (by decide)) | apply keeps_submitMailbox (hw.mono (by decide)) | apply keeps_clearReady (hw.mono (by decide)) | apply keeps_foldl  | apply keeps_ite | intro _ _ hk | split)
theorem keeps_noteUnmapped {ws : List FieldName} (hw : Among [.link, .vectors] ws) {z s : State} (hk : Keeps ws z s) :
    Keeps ws z (noteUnmapped s) := by
  unfold noteUnmapped; try dsimp only
  repeat' (with_reducible first | exact hk | apply keeps_clEvent (hw.mono (by decide)) | apply keeps_clCount (hw.mono (by decide))  | apply keeps_ite | intro _ _ hk | split)
theorem keeps_noteDenied {ws : List FieldName} (hw : Among [.link, .vectors] ws) {z s : State} (hk : Keeps ws z s) :
    Keeps ws z (noteDenied s) := by
  unfold noteDenied; try dsimp only
  repeat' (with_reducible first | exact hk | apply keeps_clEvent (hw.mono (by decide)) | apply keeps_clCount (hw.mono (by decide))  | apply keeps_ite | intro _ _ hk | split)
theorem keeps_noteStatus {ws : List FieldName} (hw : Among [.link, .vectors] ws) {z s : State} (hk : Keeps ws z s) (st : Nat) :
    Keeps ws z (noteStatus s st) := by
  unfold noteStatus; try dsimp only
  repeat' (with_reducible first | exact hk | apply keeps_noteUnmapped (hw.mono (by decide)) | apply keeps_noteDenied (hw.mono (by decide))  | apply keeps_ite | intro _ _ hk | split)
theorem keeps_windowRead {ws : List FieldName} (hw : Among [.parts, .link, .vectors, .snoops] ws) {z s : State} (hk : Keeps ws z s) (off n rdom : Nat) :
    Keeps1 ws z (windowRead s off n rdom) := by
  unfold windowRead; try dsimp only
  repeat' (with_reducible first | exact hk | apply keeps_noteRead (hw.mono (by decide)) | apply keeps_noteStatus (hw.mono (by decide))  | apply keeps1_mk | apply keeps_ite | intro _ _ hk | split)
theorem keepsf_windowRead {ws : List FieldName} (hw : Among [.parts, .link, .vectors, .snoops] ws) {z s : State} (hk : Keeps ws z s) (off n rdom : Nat) : Keeps ws z (windowRead s off n rdom).1 := keeps1_fst (by apply keeps_windowRead (hw.mono (by decide)); exact hk)
theorem keeps_windowWrite {ws : List FieldName} (hw : Among [.mem, .queues, .parts, .link, .vectors, .mailboxes, .rolser, .order, .snoops] ws) {z s : State} (hk : Keeps ws z s) (rdom off n : Nat) (us : List (Nat × Nat)) :
    Keeps1 ws z (windowWrite s rdom off n us) := by
  unfold windowWrite; try dsimp only
  repeat' (with_reducible first | exact hk | apply keeps_store (hw.mono (by decide)) | apply keeps_noteStatus (hw.mono (by decide)) | apply keeps_unitWrite (hw.mono (by decide)) | apply keeps_foldl  | apply keeps1_mk | apply keeps_ite | intro _ _ hk | split)
theorem keepsf_windowWrite {ws : List FieldName} (hw : Among [.mem, .queues, .parts, .link, .vectors, .mailboxes, .rolser, .order, .snoops] ws) {z s : State} (hk : Keeps ws z s) (rdom off n : Nat) (us : List (Nat × Nat)) : Keeps ws z (windowWrite s rdom off n us).1 := keeps1_fst (by apply keeps_windowWrite (hw.mono (by decide)); exact hk)

/-! ### Cerral -/

theorem keeps_onClMsg {ws : List FieldName} (hw : Among [.link] ws) {z s : State} (hk : Keeps ws z s) {opc : Nat} {f : State → ClMsg → State}
    (hf : ∀ s m, Keeps ws z s → Keeps ws z (f s m)) : Keeps ws z (onClMsg s opc f) := by
  unfold onClMsg; dsimp only
  repeat' (with_reducible first | exact hk | apply hf | apply keeps_setLink (hw.mono (by decide)) | split)
theorem keeps_evictLine {ws : List FieldName} (hw : Among [.link] ws) {z s : State} (hk : Keeps ws z s) (line : Nat) :
    Keeps ws z (evictLine s line) := by
  unfold evictLine; try dsimp only
  repeat' (with_reducible first | exact hk | apply keeps_setLink (hw.mono (by decide)) | apply keeps_clRequest (hw.mono (by decide))  | apply keeps_ite | intro _ _ hk | split)
theorem keeps_fillLine {ws : List FieldName} (hw : Among [.link] ws) {z s : State} (hk : Keeps ws z s) (line : Nat) (e : CacheLine) :
    Keeps ws z (fillLine s line e) := by
  unfold fillLine; try dsimp only
  repeat' (with_reducible first | exact hk | apply keeps_setLink (hw.mono (by decide)) | apply keeps_evictLine (hw.mono (by decide))  | apply keeps_ite | intro _ _ hk | split)
theorem keeps_localWrite {ws : List FieldName} (hw : Among [.link] ws) {z s : State} (hk : Keeps ws z s) (line rdom mask : Nat) (data : BitVec 512) :
    Keeps ws z (localWrite s line rdom mask data) := by
  unfold localWrite; try dsimp only
  repeat' (with_reducible first | exact hk | apply keeps_setLink (hw.mono (by decide)) | apply keeps_clRequest (hw.mono (by decide))  | apply keeps_ite | intro _ _ hk | split)
theorem keeps_ringAnswer {ws : List FieldName} (hw : Among [.queues, .parts, .link, .snoops] ws) {z s : State} (hk : Keeps ws z s) (line rdom st : Nat) (own : LineSt) (data : Bytes) :
    Keeps ws z (ringAnswer s line rdom st own data) := by
  unfold ringAnswer; try dsimp only
  repeat' (with_reducible first | exact hk | apply keeps_fillLine (hw.mono (by decide)) | apply keeps_fetchFront (hw.mono (by decide)) | apply keeps_modQueue (hw.mono (by decide)) | apply keeps_modHealth (hw.mono (by decide)) | apply keeps_ringFault (hw.mono (by decide)) | apply keeps_foldl  | apply keeps_ite | intro _ _ hk | split)
theorem keeps_cxPump {ws : List FieldName} (hw : Among [.queues, .link] ws) {z s : State} (hk : Keeps ws z s) (k q : Nat) (idx : BitVec 24) (fuel : Nat) : Keeps ws z (cxPump k q idx fuel s) := by
  induction fuel generalizing s with
  | zero => exact hk
  | succ n ih =>
    unfold cxPump; dsimp only
    split
    · exact hk
    · split
      · split
        · exact hk
        · apply ih
          split <;> exact keeps_clRequest (hw.mono (by decide)) (keeps_modStarted (hw.mono (by decide)) hk _ _ _) _ _ _ _ _ _ _
      · exact hk
theorem keeps_cxPumpAll {ws : List FieldName} (hw : Among [.queues, .link] ws) {z s : State} (hk : Keeps ws z s) : Keeps ws z (cxPumpAll s) := by
  unfold cxPumpAll
  refine keeps_foldl (fun s e h => keeps_foldl (fun s r h => ?_) h) hk
  split
  · exact keeps_cxPump (hw.mono (by decide)) h _ _ _ _
  · exact h
theorem keeps_startCxfer {ws : List FieldName} (hw : Among [.parts, .snoops] ws) {z s : State} (hk : Keeps ws z s) (k c : Nat) : Keeps1 ws z (startCxfer s k c) := by
  unfold startCxfer; dsimp only
  refine keeps1_ite (keeps1_mk hk) (keeps1_ite (keeps1_mk hk) ?_)
  split
  · exact keeps1_mk (keeps_modPart (hw.mono (by decide)) (keeps_noteRead (hw.mono (by decide)) hk _ _ _) _ _)
  · exact keeps1_mk (keeps_noteRead (hw.mono (by decide)) hk _ _ _)
theorem keepsf_startCxfer {ws : List FieldName} (hw : Among [.parts, .snoops] ws) {z s : State} (hk : Keeps ws z s) (k c : Nat) : Keeps ws z (startCxfer s k c).1 := keeps1_fst (by apply keeps_startCxfer (hw.mono (by decide)); exact hk)
theorem keeps_cxChunks {ws : List FieldName} (hw : Among [.mem, .parts, .snoops] ws) {z s : State} (hk : Keeps ws z s) (x : SealKey) (k c fuel : Nat) (got : List (Nat × Bytes)) (i obj : Nat) :
    Keeps1 ws z (cxChunks x k c fuel s got i obj) := by
  induction fuel generalizing s got i obj with
  | zero => exact keeps1_mk hk
  | succ n ih =>
    unfold cxChunks; dsimp only
    split
    · exact keeps1_mk hk
    · split
      · exact keeps1_mk hk
      · split
        · exact keeps1_mk hk
        · exact ih (keeps_store (hw.mono (by decide)) hk _ _ _) _ _ _
theorem keepsf_cxChunks {ws : List FieldName} (hw : Among [.mem, .parts, .snoops] ws) {z s : State} (hk : Keeps ws z s) (x : SealKey) (k c fuel : Nat) (got : List (Nat × Bytes)) (i obj : Nat) : Keeps ws z (cxChunks x k c fuel s got i obj).1 := keeps1_fst (by apply keeps_cxChunks (hw.mono (by decide)); exact hk)
theorem keeps_cxAnswer {ws : List FieldName} (hw : Among [.mem, .queues, .parts, .snoops] ws) {z s : State} (hk : Keeps ws z s) (q : Nat) (idx : BitVec 24) (off st : Nat) (data : Bytes) :
    Keeps ws z (cxAnswer s q idx off st data) := by
  unfold cxAnswer; dsimp only
  split
  · split
    · apply keeps_modStarted (hw.mono (by decide))
      split
      · exact keeps_modStarted (hw.mono (by decide)) hk _ _ _
      · split
        · exact keeps_modStarted (hw.mono (by decide)) hk _ _ _
        · split
          · exact keeps_modStarted (hw.mono (by decide)) hk _ _ _
          · split
            · split
              · exact keeps_modStarted (hw.mono (by decide)) hk _ _ _
              · exact keeps_modStarted (hw.mono (by decide)) (keeps_store (hw.mono (by decide)) hk _ _ _) _ _ _
            · split
              · exact keeps_modStarted (hw.mono (by decide)) hk _ _ _
              · have hc := fun x got ch obj => keeps_cxChunks (hw.mono (by decide)) hk x (i := ch) (got := got) (obj := obj)
                split <;> exact keeps_modStarted (hw.mono (by decide)) (keeps1_fst (hc _ _ _ _ _ _ _)) _ _ _
    · exact hk
  · exact hk
theorem keeps_finishReq {ws : List FieldName} (hw : Among [.mem, .ctrs, .queues, .parts, .link, .vectors, .snoops] ws) {z s : State} (hk : Keeps ws z s) (f : ReqFor) (st : Nat) (own : LineSt) (data : Bytes) :
    Keeps ws z (finishReq s f st own data) := by
  unfold finishReq; try dsimp only
  repeat' (with_reducible first | exact hk | apply keeps_ringAnswer (hw.mono (by decide)) | apply keeps_fillLine (hw.mono (by decide)) | apply keeps_closeCmd (hw.mono (by decide)) | apply keeps_putVec (hw.mono (by decide)) | apply keeps_cxAnswer (hw.mono (by decide)) | apply keeps_abortFails (hw.mono (by decide))  | apply keeps_ite | intro _ _ hk | split)
theorem keeps_onResponse {ws : List FieldName} (hw : Among [.mem, .ctrs, .queues, .parts, .link, .vectors, .snoops] ws) {z s : State} (hk : Keeps ws z s) (opc : Nat) (own : LineSt) :
    Keeps ws z (onResponse s opc own) := by
  unfold onResponse; try dsimp only
  repeat' (with_reducible first | exact hk | apply keeps_setLink (hw.mono (by decide)) | apply keeps_onClMsg (hw.mono (by decide)) | apply keeps_cxPumpAll (hw.mono (by decide)) | apply keeps_finishReq (hw.mono (by decide))  | apply keeps_ite | intro _ _ hk | split)
theorem keeps_serveRdNc {ws : List FieldName} (hw : Among [.parts, .link, .vectors, .snoops] ws) {z s : State} (hk : Keeps ws z s) (m : ClMsg) : Keeps ws z (serveRdNc s m) := by
  unfold serveRdNc; dsimp only
  exact keeps_clRespond (hw.mono (by decide)) (keeps1_fst (keeps_windowRead (hw.mono (by decide)) hk _ _ _)) _ _ _ _
theorem keeps_serveWr {ws : List FieldName} (hw : Among [.mem, .queues, .parts, .link, .vectors, .mailboxes, .rolser, .order, .snoops] ws) {z s : State} (hk : Keeps ws z s) (n : Nat) (ok : ClMsg → Nat → Bool) (m : ClMsg) :
    Keeps ws z (serveWr n ok s m) := by
  unfold serveWr; dsimp only
  exact keeps_clRespond (hw.mono (by decide)) (keeps1_fst (keeps_windowWrite (hw.mono (by decide)) hk _ _ _ _)) _ _ _ _
theorem keeps_storeHome {ws : List FieldName} (hw : Among [.mem, .parts, .snoops] ws) {z s : State} (hk : Keeps ws z s) (k a : Nat) (b : Bytes) :
    Keeps ws z (storeHome s k a b) := by
  unfold storeHome; try dsimp only
  repeat' (with_reducible first | exact hk | apply keeps_setSnoops (hw.mono (by decide)) | apply keeps_store (hw.mono (by decide))  | apply keeps_ite | intro _ _ hk | split)
theorem keeps_grantLine {ws : List FieldName} (hw : Among [.parts, .link] ws) {z s : State} (hk : Keeps ws z s) (m : ClMsg) (own : Bool) (k a : Nat) :
    Keeps ws z (grantLine s m own k a) := by
  unfold grantLine; try dsimp only
  repeat' (with_reducible first | exact hk | apply keeps_setLink (hw.mono (by decide)) | apply keeps_modPart (hw.mono (by decide)) | apply keeps_clRespond (hw.mono (by decide))  | apply keeps_ite | intro _ _ hk | split)
theorem keeps_serveCoherent {ws : List FieldName} (hw : Among [.parts, .link, .vectors] ws) {z s : State} (hk : Keeps ws z s) (m : ClMsg) :
    Keeps ws z (serveCoherent s m) := by
  unfold serveCoherent; try dsimp only
  repeat' (with_reducible first | exact hk | apply keeps_setLink (hw.mono (by decide)) | apply keeps_clRespond (hw.mono (by decide)) | apply keeps_noteStatus (hw.mono (by decide)) | apply keeps_grantLine (hw.mono (by decide)) | apply keeps_openHome (hw.mono (by decide))  | apply keeps_ite | intro _ _ hk | split)
theorem keeps_closeHome {ws : List FieldName} (hw : Among [.parts, .link, .vectors] ws) {z s : State} (hk : Keeps ws z s) (h : HomeTx) :
    Keeps ws z (closeHome s h) := by
  unfold closeHome; try dsimp only
  repeat' (with_reducible first | exact hk | apply keeps_setLink (hw.mono (by decide)) | apply keeps_serveCoherent (hw.mono (by decide))  | apply keeps_ite | intro _ _ hk | split)
theorem keeps_writeBack {ws : List FieldName} (hw : Among [.mem, .parts, .snoops] ws) {z s : State} (hk : Keeps ws z s) (line : Nat) (b : Bytes) :
    Keeps ws z (writeBack s line b) := by
  unfold writeBack; try dsimp only
  repeat' (with_reducible first | exact hk | apply keeps_storeHome (hw.mono (by decide))  | apply keeps_ite | intro _ _ hk | split)
theorem keeps_snoopAnswer {ws : List FieldName} (hw : Among [.mem, .parts, .link, .vectors, .snoops] ws) {z s : State} (hk : Keeps ws z s) (m : ClMsg) (share : Bool) :
    Keeps ws z (snoopAnswer s m share) := by
  unfold snoopAnswer; try dsimp only
  repeat' (with_reducible first | exact hk | apply keeps_setLink (hw.mono (by decide)) | apply keeps_writeBack (hw.mono (by decide)) | apply keeps_closeHome (hw.mono (by decide))  | apply keeps_ite | intro _ _ hk | split)
theorem keeps_evictionArrived {ws : List FieldName} (hw : Among [.parts, .link, .vectors] ws) {z s : State} (hk : Keeps ws z s) (line : Nat) :
    Keeps ws z (evictionArrived s line) := by
  unfold evictionArrived; try dsimp only
  repeat' (with_reducible first | exact hk | apply keeps_setLink (hw.mono (by decide)) | apply keeps_closeHome (hw.mono (by decide))  | apply keeps_ite | intro _ _ hk | split)
theorem keeps_serveEvict {ws : List FieldName} (hw : Among [.mem, .parts, .link, .vectors, .snoops] ws) {z s : State} (hk : Keeps ws z s) (m : ClMsg) :
    Keeps ws z (serveEvict s m) := by
  unfold serveEvict; try dsimp only
  repeat' (with_reducible first | exact hk | apply keeps_setLink (hw.mono (by decide)) | apply keeps_clRespond (hw.mono (by decide)) | apply keeps_noteStatus (hw.mono (by decide)) | apply keeps_storeHome (hw.mono (by decide)) | apply keeps_evictionArrived (hw.mono (by decide))  | apply keeps_ite | intro _ _ hk | split)
theorem keeps_answerSnoop {ws : List FieldName} (hw : Among [.link] ws) {z s : State} (hk : Keeps ws z s) (m : ClMsg) (inv : Bool) :
    Keeps ws z (answerSnoop s m inv) := by
  unfold answerSnoop; try dsimp only
  repeat' (with_reducible first | exact hk | apply keeps_setLink (hw.mono (by decide)) | apply keeps_clSend (hw.mono (by decide))  | apply keeps_ite | intro _ _ hk | split)
theorem keeps_onSlot {ws : List FieldName} (hw : Among [.link] ws) {z s : State} (hk : Keeps ws z s) {lop : Nat} {f : State → Nat → State}
    (hf : ∀ s n, Keeps ws z s → Keeps ws z (f s n)) : Keeps ws z (onSlot s lop f) := by
  unfold onSlot; dsimp only
  repeat' (with_reducible first | exact hk | apply hf | apply keeps_setLink (hw.mono (by decide)) | split)
theorem keeps_freeDropped {ws : List FieldName} (hw : Among [.link] ws) {z s : State} (hk : Keeps ws z s) (h : BitVec 128) :
    Keeps ws z (freeDropped s h) := by
  unfold freeDropped; try dsimp only
  repeat' (with_reducible first | exact hk | apply keeps_setLink (hw.mono (by decide))  | apply keeps_ite | intro _ _ hk | split)
theorem keeps_badMsg {ws : List FieldName} (hw : Among [.link] ws) {z s : State} (hk : Keeps ws z s) (h : BitVec 128) :
    Keeps ws z (badMsg s h) := by
  unfold badMsg; try dsimp only
  repeat' (with_reducible first | exact hk | apply keeps_freeDropped (hw.mono (by decide)) | apply keeps_clCount (hw.mono (by decide)) | apply keeps_clRespond (hw.mono (by decide))  | apply keeps_ite | intro _ _ hk | split)
theorem keeps_takeSlotIn {ws : List FieldName} (hw : Among [.link] ws) {z s : State} (hk : Keeps ws z s) (x : BitVec 128) (begins : Bool) :
    Keeps ws z (takeSlotIn s x begins) := by
  unfold takeSlotIn; try dsimp only
  repeat' (with_reducible first | exact hk | apply keeps_setLink (hw.mono (by decide)) | apply keeps_freeDropped (hw.mono (by decide)) | apply keeps_clCount (hw.mono (by decide)) | apply keeps_badMsg (hw.mono (by decide))  | apply keeps_ite | intro _ _ hk | split)
theorem keeps_takeFlit {ws : List FieldName} (hw : Among [.link] ws) {z s : State} (hk : Keeps ws z s) (b : Bytes) :
    Keeps ws z (takeFlit s b) := by
  unfold takeFlit; try dsimp only
  repeat' (with_reducible first | exact hk | apply keeps_setLink (hw.mono (by decide)) | apply keeps_takeSlotIn (hw.mono (by decide)) | apply keeps_clCount (hw.mono (by decide)) | apply keeps_foldl  | apply keeps_ite | intro _ _ hk | split)
theorem keeps_widthEvent {ws : List FieldName} (hw : Among [.parts, .link, .vectors, .pins, .power, .ripstop] ws) {z s : State} (hk : Keeps ws z s) (u w : Nat) :
    Keeps ws z (widthEvent s u w) := by
  unfold widthEvent; try dsimp only
  repeat' (with_reducible first | exact hk | apply keeps_ripEvent (hw.mono (by decide)) | apply keeps_foldl  | apply keeps_ite | intro _ _ hk | split)
theorem keeps_linkLoss {ws : List FieldName} (hw : Among [.mem, .ctrs, .queues, .parts, .link, .vectors, .pins, .power, .ripstop, .snoops] ws) {z s : State} (hk : Keeps ws z s) (st : BitVec 2) :
    Keeps ws z (linkLoss s st) := by
  unfold linkLoss; try dsimp only
  repeat' (with_reducible first | exact hk | apply keeps_setLink (hw.mono (by decide)) | apply keeps_cxPumpAll (hw.mono (by decide)) | apply keeps_finishReq (hw.mono (by decide)) | apply keeps_ripEvent (hw.mono (by decide)) | apply keeps_clEvent (hw.mono (by decide)) | apply keeps_foldl  | apply keeps_ite | intro _ _ hk | split)
theorem keeps_train {ws : List FieldName} (hw : Among [.parts, .link, .vectors, .pins, .power, .ripstop] ws) {z s : State} (hk : Keeps ws z s) (lanes : BitVec 32) (widths : BitVec 3) (grants : List Nat) (fr : Bool) :
    Keeps ws z (train s lanes widths grants fr) := by
  unfold train; try dsimp only
  repeat' (with_reducible first | exact hk | apply keeps_setLink (hw.mono (by decide)) | apply keeps_pump (hw.mono (by decide)) | apply keeps_widthEvent (hw.mono (by decide))  | apply keeps_ite | intro _ _ hk | split)

/-! ### Ethernet -/

theorem keeps_countPortBy {ws : List FieldName} (hw : Among [.ports] ws) {z s : State} (hk : Keeps ws z s) (p i n : Nat) :
    Keeps ws z (countPortBy s p i n) := by
  unfold countPortBy; try dsimp only
  repeat' (with_reducible first | exact hk | apply keeps_modPort (hw.mono (by decide))  | apply keeps_ite | intro _ _ hk | split)
theorem keeps_countPort {ws : List FieldName} (hw : Among [.ports] ws) {z s : State} (hk : Keeps ws z s) (p i : Nat) :
    Keeps ws z (countPort s p i) := by
  unfold countPort; try dsimp only
  repeat' (with_reducible first | exact hk | apply keeps_countPortBy (hw.mono (by decide))  | apply keeps_ite | intro _ _ hk | split)
theorem keeps_toControl {ws : List FieldName} (hw : Among [.ports] ws) {z s : State} (hk : Keeps ws z s) (p : Nat) (big : Bool) (f : Bytes) :
    Keeps ws z (toControl s p big f) := by
  unfold toControl; try dsimp only
  repeat' (with_reducible first | exact hk | apply keeps_modPort (hw.mono (by decide))  | apply keeps_ite | intro _ _ hk | split)
theorem keeps_toControlLimited {ws : List FieldName} (hw : Among [.ports] ws) {z s : State} (hk : Keeps ws z s) (p : Nat) (big : Bool) (f : Bytes) :
    Keeps ws z (toControlLimited s p big f) := by
  unfold toControlLimited; try dsimp only
  repeat' (with_reducible first | exact hk | apply keeps_countPort (hw.mono (by decide)) | apply keeps_toControl (hw.mono (by decide)) | apply keeps_modPort (hw.mono (by decide))  | apply keeps_ite | intro _ _ hk | split)
theorem keeps_toPortM {ws : List FieldName} (hw : Among [.ports, .mailboxes, .rolser] ws) {z s : State} (hk : Keeps ws z s) (big limited : Bool) (f : Bytes) :
    Keeps ws z (toPortM s big limited f) := by
  unfold toPortM; try dsimp only
  repeat' (with_reducible first | exact hk | apply keeps_toControlLimited (hw.mono (by decide)) | apply keeps_toControl (hw.mono (by decide)) | apply keeps_rolArrives (hw.mono (by decide))  | apply keeps_ite | intro _ _ hk | split)
theorem keeps_toPartition {ws : List FieldName} (hw : Among [.mem, .queues, .parts, .ports, .ethTx, .snoops] ws) {z s : State} (hk : Keeps ws z s) (p k : Nat) (big : Bool) (f : Bytes) :
    Keeps ws z (toPartition s p k big f) := by
  unfold toPartition; try dsimp only
  repeat' (with_reducible first | exact hk | apply keeps_modPart (hw.mono (by decide)) | apply keeps_countXfer (hw.mono (by decide)) | apply keeps_roceArrives (hw.mono (by decide))  | apply keeps_ite | intro _ _ hk | split)
theorem keeps_macReceive {ws : List FieldName} (hw : Among [.mem, .queues, .parts, .ports, .mailboxes, .rolser, .ethTx, .snoops] ws) {z s : State} (hk : Keeps ws z s) (p : Nat) (f : Bytes) (aborted : Bool) :
    Keeps ws z (macReceive s p f aborted) := by
  unfold macReceive; try dsimp only
  repeat' (with_reducible first | exact hk | apply keeps_countPort (hw.mono (by decide)) | apply keeps_toPartition (hw.mono (by decide)) | apply keeps_toPortM (hw.mono (by decide)) | apply keeps_toControl (hw.mono (by decide)) | apply keeps_toControlLimited (hw.mono (by decide))  | apply keeps_ite | intro _ _ hk | split)
theorem keeps_takeControl {ws : List FieldName} (hw : Among [.ports] ws) {z s : State} (hk : Keeps ws z s) (p : Nat) (sel : Bytes → Bool) {b : Bytes} {t : State}
    (h : takeControl s p sel = some (b, t)) : Keeps ws z t := by
  unfold takeControl at h; dsimp only at h
  repeat' split at h
  all_goals first
    | cases h; done
    | (injection h with h; injection h with _ h; subst h; exact keeps_modPort (hw.mono (by decide)) hk _ _)
theorem keeps_portGone {ws : List FieldName} (hw : Among [.parts, .ports, .link, .vectors, .pins, .power, .ripstop, .ethTx] ws) {z s : State} (hk : Keeps ws z s) (p : Nat) :
    Keeps ws z (portGone s p) := by
  unfold portGone; try dsimp only
  repeat' (with_reducible first | exact hk | apply keeps_retransmit (hw.mono (by decide)) | apply keeps_movePort (hw.mono (by decide)) | apply keeps_foldl  | apply keeps_ite | intro _ _ hk | split)
theorem keeps_portDown {ws : List FieldName} (hw : Among [.parts, .ports, .link, .vectors, .pins, .power, .ripstop, .ethTx] ws) {z s : State} (hk : Keeps ws z s) (p : Nat) (st : BitVec 8) :
    Keeps ws z (portDown s p st) := by
  unfold portDown; try dsimp only
  repeat' (with_reducible first | exact hk | apply keeps_portGone (hw.mono (by decide)) | apply keeps_modPort (hw.mono (by decide)) | apply keeps_ripPersist (hw.mono (by decide))  | apply keeps_ite | intro _ _ hk | split)
theorem keeps_portLoss {ws : List FieldName} (hw : Among [.parts, .ports, .link, .vectors, .pins, .power, .ripstop, .ethTx] ws) {z s : State} (hk : Keeps ws z s) (p : Nat) :
    Keeps ws z (portLoss s p) := by
  unfold portLoss; try dsimp only
  repeat' (with_reducible first | exact hk | apply keeps_countPort (hw.mono (by decide)) | apply keeps_modPort (hw.mono (by decide)) | apply keeps_portDown (hw.mono (by decide)) | apply keeps_ripEvent (hw.mono (by decide)) | apply keeps_ripPersist (hw.mono (by decide))  | apply keeps_ite | intro _ _ hk | split)
theorem keeps_stepTo {ws : List FieldName} (hw : Among [.parts, .ports, .link, .vectors, .pins, .power, .ripstop, .ethTx] ws) {z s : State} (hk : Keeps ws z s) (p m : Nat) :
    Keeps ws z (stepTo s p m) := by
  unfold stepTo; try dsimp only
  repeat' (with_reducible first | exact hk | apply keeps_portGone (hw.mono (by decide)) | apply keeps_modPort (hw.mono (by decide))  | apply keeps_ite | intro _ _ hk | split)
theorem keeps_resetPort {ws : List FieldName} (hw : Among [.parts, .ports, .link, .vectors, .pins, .power, .ripstop, .ethTx] ws) {z s : State} (hk : Keeps ws z s) (p : Nat) :
    Keeps ws z (resetPort s p) := by
  unfold resetPort; try dsimp only
  repeat' (with_reducible first | exact hk | apply keeps_modPart (hw.mono (by decide)) | apply keeps_portDown (hw.mono (by decide)) | apply keeps_modPort (hw.mono (by decide)) | apply keeps_foldl  | apply keeps_ite | intro _ _ hk | split)
theorem keeps_releasePort {ws : List FieldName} (hw : Among [.parts, .ports, .pins, .power, .ripstop] ws) {z s : State} (hk : Keeps ws z s) (p : Nat) :
    Keeps ws z (releasePort s p) := by
  unfold releasePort; try dsimp only
  repeat' (with_reducible first | exact hk | apply keeps_updateRisk (hw.mono (by decide)) | apply keeps_setPers (hw.mono (by decide)) | apply keeps_modPort (hw.mono (by decide))  | apply keeps_ite | intro _ _ hk | split)

end Sys2Proof.Machine
end

