-- ==== Sys2Proof/Laws/Keeps.lean ====
section
/-! SUPPORT. What every shared operation keeps, continued: partitions, Ripstop, trust, start-up, the dictionary and the tick. -/

set_option linter.unusedTactic false
set_option linter.unreachableTactic false
set_option linter.unusedVariables false
namespace Sys2Proof.Machine
open Sys2Proof

/-! ### Partition -/

theorem keeps_wipeSlice {ws : List FieldName} (hw : Among [.mem, .vcs, .mus, .pipes] ws) {z s : State} (hk : Keeps ws z s) (i : Nat) :
    Keeps ws z (wipeSlice s i) := by
  unfold wipeSlice; try dsimp only
  repeat' (with_reducible first | exact hk | apply keeps_setMem (hw.mono (by decide)) | apply keeps_putVc (hw.mono (by decide)) | apply keeps_modMu (hw.mono (by decide)) | apply keeps_putPipe (hw.mono (by decide)) | apply keeps_foldl  | apply keeps_ite | intro _ _ hk | split)
  all_goals exact fun h => memWf_wipe _ _ _ h
theorem keeps_wipeNear {ws : List FieldName} (hw : Among [.mem] ws) {z s : State} (hk : Keeps ws z s) (k : Nat) :
    Keeps ws z (wipeNear s k) := by
  unfold wipeNear; try dsimp only
  repeat' (with_reducible first | exact hk | apply keeps_setMem (hw.mono (by decide))  | apply keeps_ite | intro _ _ hk | split)
  all_goals exact fun h => memWf_wipe _ _ _ h
theorem keeps_wipeFar {ws : List FieldName} (hw : Among [.mem] ws) {z s : State} (hk : Keeps ws z s) (k : Nat) :
    Keeps ws z (wipeFar s k) := by
  unfold wipeFar; try dsimp only
  repeat' (with_reducible first | exact hk | apply keeps_setMem (hw.mono (by decide))  | apply keeps_ite | intro _ _ hk | split)
  all_goals exact fun h => memWf_wipe _ _ _ h
theorem keeps_zeroCtrs {ws : List FieldName} (hw : Among [.ctrs] ws) {z s : State} (hk : Keeps ws z s) (base n : Nat) :
    Keeps ws z (zeroCtrs s base n) := by
  unfold zeroCtrs; try dsimp only
  repeat' (with_reducible first | exact hk | apply keeps_setCtrs (hw.mono (by decide))  | apply keeps_ite | intro _ _ hk | split)
theorem keeps_clearQueues {ws : List FieldName} (hw : Among [.queues] ws) {z s : State} (hk : Keeps ws z s) (base n : Nat) :
    Keeps ws z (clearQueues s base n) := by
  unfold clearQueues; try dsimp only
  repeat' (with_reducible first | exact hk | apply keeps_setQueues (hw.mono (by decide))  | apply keeps_ite | intro _ _ hk | split)
theorem keeps_freshFarKey {ws : List FieldName} (hw : Among [.draws, .parts] ws) {z s : State} (hk : Keeps ws z s) (k : Nat) :
    Keeps ws z (freshFarKey s k) := by
  unfold freshFarKey; try dsimp only
  repeat' (with_reducible first | exact hk | apply keeps_draw (hw.mono (by decide)) | apply keeps_modPart (hw.mono (by decide))  | apply keeps_ite | intro _ _ hk | split)
theorem keeps_takeSlices {ws : List FieldName} (hw : Among [.slices] ws) {z s : State} (hk : Keeps ws z s) (mask : BitVec 16) (k : Nat) :
    Keeps ws z (takeSlices s mask k) := by
  unfold takeSlices; try dsimp only
  repeat' (with_reducible first | exact hk | apply keeps_modSlice (hw.mono (by decide)) | apply keeps_foldl  | apply keeps_ite | intro _ _ hk | split)
theorem keeps_startCreate {ws : List FieldName} (hw : Among [.parts, .slices, .dies] ws) {z s : State} (hk : Keeps ws z s) (k : Nat) :
    Keeps ws z (startCreate s k) := by
  unfold startCreate; try dsimp only
  repeat' (with_reducible first | exact hk | apply keeps_allotFar (hw.mono (by decide)) | apply keeps_putPart (hw.mono (by decide)) | apply keeps_retargetAll (hw.mono (by decide)) | apply keeps_takeSlices (hw.mono (by decide))  | apply keeps_ite | intro _ _ hk | split)
theorem keeps_finishCreate {ws : List FieldName} (hw : Among [.draws, .mem, .ctrs, .queues, .parts, .vcs, .mus, .pipes] ws) {z s : State} (hk : Keeps ws z s) (k : Nat) :
    Keeps ws z (finishCreate s k) := by
  unfold finishCreate; try dsimp only
  repeat' (with_reducible first | exact hk | apply keeps_freshFarKey (hw.mono (by decide)) | apply keeps_wipeSlice (hw.mono (by decide)) | apply keeps_wipeFar (hw.mono (by decide)) | apply keeps_wipeNear (hw.mono (by decide)) | apply keeps_clearQueues (hw.mono (by decide)) | apply keeps_zeroCtrs (hw.mono (by decide)) | apply keeps_modPart (hw.mono (by decide)) | apply keeps_foldl  | apply keeps_ite | intro _ _ hk | split)
theorem keeps_startResize {ws : List FieldName} (hw : Among [.parts, .slices, .dies] ws) {z s : State} (hk : Keeps ws z s) (k : Nat) :
    Keeps ws z (startResize s k) := by
  unfold startResize; try dsimp only
  repeat' (with_reducible first | exact hk | apply keeps_takeSlices (hw.mono (by decide)) | apply keeps_putPart (hw.mono (by decide)) | apply keeps_retargetAll (hw.mono (by decide)) | apply keeps_modSlice (hw.mono (by decide)) | apply keeps_foldl  | apply keeps_ite | intro _ _ hk | split)
theorem keeps_evictPage {ws : List FieldName} (hw : Among [.mem, .ctrs, .queues, .parts, .link, .vectors] ws) {z s : State} (hk : Keeps ws z s) (k r : Nat) : Keeps ws z (evictPage s k r) := by
  unfold evictPage; dsimp only
  apply keeps_pageDone (hw.mono (by decide))
  apply keeps_modPage (hw.mono (by decide))
  refine keeps_setMem (hw.mono (by decide)) (fun h => memWf_wipe _ _ _ h) (keeps_foldl (fun s x h => ?_) hk)
  split
  · exact keeps_setMem (hw.mono (by decide)) (fun h => memWf_copy _ _ _ _ h) h
  · exact h
theorem keeps_dropRanges {ws : List FieldName} (hw : Among [.ctrs, .queues] ws) {z s : State} (hk : Keeps ws z s) (A B : Alloc) :
    Keeps ws z (dropRanges s A B) := by
  unfold dropRanges; try dsimp only
  repeat' (with_reducible first | exact hk | apply keeps_setCtrs (hw.mono (by decide)) | apply keeps_setQueues (hw.mono (by decide))  | apply keeps_ite | intro _ _ hk | split)
theorem keeps_finishResize {ws : List FieldName} (hw : Among [.mem, .ctrs, .queues, .parts, .vcs, .mus, .pipes, .slices, .dies, .link, .vectors] ws) {z s : State} (hk : Keeps ws z s) (k : Nat) :
    Keeps ws z (finishResize s k) := by
  unfold finishResize; dsimp only
  apply keeps_retargetAll (hw.mono (by decide))
  apply keeps_allotFar (hw.mono (by decide))
  apply keeps_modPart (hw.mono (by decide))
  apply keeps_setMem (hw.mono (by decide)) (fun h => memWf_wipe _ _ _ (memWf_wipe _ _ _ h))
  repeat' (with_reducible first | exact hk | apply keeps_dropRanges (hw.mono (by decide)) | apply keeps_wipeSlice (hw.mono (by decide)) | apply keeps_evictPage (hw.mono (by decide)) | apply keeps_modSlice (hw.mono (by decide)) | apply keeps_foldl | intro _ _ hk)
theorem keeps_startEnd {ws : List FieldName} (hw : Among [.mem, .queues, .parts, .vcs, .mus, .link, .vectors, .snoops] ws) {z s : State} (hk : Keeps ws z s) (k : Nat) (st : PState) :
    Keeps ws z (startEnd s k st) := by
  unfold startEnd; try dsimp only
  repeat' (with_reducible first | exact hk | apply keeps_modPart (hw.mono (by decide)) | apply keeps_finishReset (hw.mono (by decide)) | apply keeps_beginReset (hw.mono (by decide)) | apply keeps_foldl  | apply keeps_ite | intro _ _ hk | split)
theorem keeps_stripPart {ws : List FieldName} (hw : Among [.mem, .ctrs, .queues, .parts, .vcs, .mus, .pipes, .slices, .link, .mailboxes, .rolser] ws) {z s : State} (hk : Keeps ws z s) (k : Nat) :
    Keeps ws z (stripPart s k) := by
  unfold stripPart; try dsimp only
  repeat' (with_reducible first | exact hk | apply keeps_clearQueues (hw.mono (by decide)) | apply keeps_zeroCtrs (hw.mono (by decide)) | apply keeps_evictLine (hw.mono (by decide)) | apply keeps_wipeSlice (hw.mono (by decide)) | apply keeps_wipeFar (hw.mono (by decide)) | apply keeps_wipeNear (hw.mono (by decide)) | apply keeps_modSlice (hw.mono (by decide)) | apply keeps_modPart (hw.mono (by decide)) | apply keeps_modMailbox (hw.mono (by decide)) | apply keeps_closeSessions (hw.mono (by decide)) | apply keeps_foldl  | apply keeps_ite | intro _ _ hk | split)
theorem keeps_freePart {ws : List FieldName} (hw : Among [.mem, .ctrs, .queues, .parts, .vcs, .mus, .pipes, .slices, .dies, .link, .mailboxes, .rolser] ws) {z s : State} (hk : Keeps ws z s) (k : Nat) :
    Keeps ws z (freePart s k) := by
  unfold freePart; try dsimp only
  repeat' (with_reducible first | exact hk | apply keeps_stripPart (hw.mono (by decide)) | apply keeps_putPart (hw.mono (by decide)) | apply keeps_retargetAll (hw.mono (by decide)) | apply keeps_modSlice (hw.mono (by decide)) | apply keeps_foldl  | apply keeps_ite | intro _ _ hk | split)

/-! ### Ripstop -/

theorem keeps_withPool {ws : List FieldName} (hw : Among [.parts, .link, .vectors, .pins, .power, .ripstop] ws) {z s : State} (hk : Keeps ws z s) (cls die : Nat) {f : State → State} (hf : Keeps ws z s → Keeps ws z (f s)) :
    Keeps ws z (withPool s cls die f) := by
  unfold withPool; dsimp only
  repeat' (with_reducible first | exact hf hk | apply keeps_ripPersist (hw.mono (by decide)) | apply keeps_updateRisk (hw.mono (by decide)) | apply keeps_setPers (hw.mono (by decide)) | split)
theorem keeps_freshLocal {ws : List FieldName} (hw : Among [.vcs, .mus, .pipes] ws) {z s : State} (hk : Keeps ws z s) (cls die idx : Nat) :
    Keeps ws z (freshLocal s cls die idx) := by
  unfold freshLocal; try dsimp only
  repeat' (with_reducible first | exact hk | apply keeps_modMu (hw.mono (by decide)) | apply keeps_modVc (hw.mono (by decide)) | apply keeps_putPipe (hw.mono (by decide))  | apply keeps_ite | intro _ _ hk | split)
theorem keeps_goOn {ws : List FieldName} (hw : Among [.mem, .queues, .parts, .vcs, .mus, .snoops] ws) {z s : State} (hk : Keeps ws z s) (cls die idx : Nat) :
    Keeps ws z (goOn s cls die idx) := by
  unfold goOn; try dsimp only
  repeat' (with_reducible first | exact hk | apply keeps_pumpSlice (hw.mono (by decide))  | apply keeps_ite | intro _ _ hk | split)
theorem keeps_useSpare {ws : List FieldName} (hw : Among [.parts, .vcs, .mus, .pipes, .link, .vectors, .pins, .power, .ripstop] ws) {z s : State} (hk : Keeps ws z s) (cls die idx x : Nat) (b : Block) :
    Keeps ws z (useSpare s cls die idx x b) := by
  unfold useSpare; dsimp only
  exact keeps_withPool (hw.mono (by decide)) (keeps_freshLocal (hw.mono (by decide)) hk _ _ _) _ _ fun h => keeps_putBlock (hw.mono (by decide)) (keeps_setRipstop (hw.mono (by decide)) h) _ _ _ _
theorem keeps_standIn {ws : List FieldName} (hw : Among [.mem, .queues, .parts, .vcs, .mus, .pipes, .link, .vectors, .pins, .power, .ripstop, .snoops] ws) {z s : State} (hk : Keeps ws z s) (cls die idx site : Nat) : Keeps ws z (standIn s cls die idx site) :=
  keeps_goOn (hw.mono (by decide)) (keeps_useSpare (hw.mono (by decide)) hk _ _ _ _ _) _ _ _
theorem keeps_borrow {ws : List FieldName} (hw : Among [.mem, .queues, .parts, .vcs, .mus, .pipes, .link, .vectors, .pins, .power, .ripstop, .snoops] ws) {z s : State} (hk : Keeps ws z s) (cls die idx x : Nat) :
    Keeps ws z (borrow s cls die idx x) := by
  unfold borrow; try dsimp only
  repeat' (with_reducible first | exact hk | apply keeps_goOn (hw.mono (by decide)) | apply keeps_useSpare (hw.mono (by decide))  | apply keeps_ite | intro _ _ hk | split)
theorem keeps_giveBack {ws : List FieldName} (hw : Among [.mem, .queues, .parts, .vcs, .mus, .pipes, .link, .vectors, .pins, .power, .ripstop, .snoops] ws) {z s : State} (hk : Keeps ws z s) (cls die idx : Nat) : Keeps ws z (giveBack s cls die idx) := by
  unfold giveBack; dsimp only
  exact keeps_goOn (hw.mono (by decide)) (keeps_withPool (hw.mono (by decide)) (keeps_freshLocal (hw.mono (by decide)) hk _ _ _) _ _ fun h => keeps_putBlock (hw.mono (by decide)) (keeps_setRipstop (hw.mono (by decide)) h) _ _ _ _) _ _ _
theorem keeps_endLoan {ws : List FieldName} (hw : Among [.mem, .queues, .parts, .vcs, .mus, .pipes, .link, .vectors, .pins, .power, .ripstop, .snoops] ws) {z s : State} (hk : Keeps ws z s) (cls die idx : Nat) :
    Keeps ws z (endLoan s cls die idx) := by
  unfold endLoan; try dsimp only
  repeat' (with_reducible first | exact hk | apply keeps_giveBack (hw.mono (by decide)) | apply keeps_putBlock (hw.mono (by decide))  | apply keeps_ite | intro _ _ hk | split)
theorem keeps_abandonTest {ws : List FieldName} (hw : Among [.mem, .queues, .parts, .vcs, .mus, .pipes, .link, .vectors, .pins, .power, .ripstop, .snoops] ws) {z s : State} (hk : Keeps ws z s) (cls die : Nat) :
    Keeps ws z (abandonTest s cls die) := by
  unfold abandonTest; try dsimp only
  repeat' (with_reducible first | exact hk | apply keeps_endLoan (hw.mono (by decide))  | apply keeps_ite | intro _ _ hk | split)
theorem keeps_dealAgain {ws : List FieldName} (hw : Among [.queues, .mus] ws) {z s : State} (hk : Keeps ws z s) (mu : Nat) (x : TileJob) :
    Keeps ws z (dealAgain s mu x) := by
  unfold dealAgain; try dsimp only
  repeat' (with_reducible first | exact hk | apply keeps_endWork (hw.mono (by decide)) | apply keeps_modStarted (hw.mono (by decide)) | apply keeps_dropTiles (hw.mono (by decide)) | apply keeps_enqueue (hw.mono (by decide))  | apply keeps_ite | intro _ _ hk | split)
theorem keeps_leaveMu {ws : List FieldName} (hw : Among [.queues, .mus] ws) {z s : State} (hk : Keeps ws z s) (mu : Nat) :
    Keeps ws z (leaveMu s mu) := by
  unfold leaveMu; try dsimp only
  repeat' (with_reducible first | exact hk | apply keeps_dealAgain (hw.mono (by decide)) | apply keeps_modMu (hw.mono (by decide)) | apply keeps_foldl  | apply keeps_ite | intro _ _ hk | split)
theorem keeps_noSpare {ws : List FieldName} (hw : Among [.mem, .queues, .parts, .vcs, .mus, .link, .vectors, .pins, .power, .ripstop, .snoops] ws) {z s : State} (hk : Keeps ws z s) (cls die idx : Nat) :
    Keeps ws z (noSpare s cls die idx) := by
  unfold noSpare; try dsimp only
  repeat' (with_reducible first | exact hk | apply keeps_ripPersist (hw.mono (by decide)) | apply keeps_putBlock (hw.mono (by decide)) | apply keeps_pumpSlice (hw.mono (by decide)) | apply keeps_leaveMu (hw.mono (by decide))  | apply keeps_ite | intro _ _ hk | split)
theorem keeps_replaceBlock {ws : List FieldName} (hw : Among [.mem, .queues, .parts, .vcs, .mus, .pipes, .link, .vectors, .pins, .power, .ripstop, .snoops] ws) {z s : State} (hk : Keeps ws z s) (cls die idx : Nat) :
    Keeps ws z (replaceBlock s cls die idx) := by
  unfold replaceBlock; try dsimp only
  repeat' (with_reducible first | exact hk | apply keeps_setRipstop (hw.mono (by decide)) | apply keeps_abandonTest (hw.mono (by decide)) | apply keeps_standIn (hw.mono (by decide)) | apply keeps_noSpare (hw.mono (by decide))  | apply keeps_ite | intro _ _ hk | split)
theorem keeps_fenceServing {ws : List FieldName} (hw : Among [.parts, .link, .vectors, .pins, .power, .ripstop] ws) {z s : State} (hk : Keeps ws z s) (cls die idx : Nat) : Keeps ws z (fenceServing s cls die idx) := by
  unfold fenceServing; dsimp only
  exact keeps_ripPersist (hw.mono (by decide)) (keeps_withPool (hw.mono (by decide)) hk _ _ fun h => keeps_putBlock (hw.mono (by decide)) (keeps_setRipstop (hw.mono (by decide)) h) _ _ _ _) _ _ _ _ _ _
theorem keeps_takeOut {ws : List FieldName} (hw : Among [.mem, .queues, .parts, .vcs, .mus, .pipes, .link, .vectors, .pins, .power, .ripstop, .snoops] ws) {z s : State} (hk : Keeps ws z s) (cls die idx : Nat) :
    Keeps ws z (takeOut s cls die idx) := by
  unfold takeOut; try dsimp only
  repeat' (with_reducible first | exact hk | apply keeps_giveBack (hw.mono (by decide)) | apply keeps_replaceBlock (hw.mono (by decide))  | apply keeps_ite | intro _ _ hk | split)
theorem keeps_fenceBlock {ws : List FieldName} (hw : Among [.mem, .queues, .parts, .vcs, .mus, .pipes, .link, .vectors, .pins, .power, .ripstop, .snoops] ws) {z s : State} (hk : Keeps ws z s) (cls die idx : Nat) :
    Keeps ws z (fenceBlock s cls die idx) := by
  unfold fenceBlock; try dsimp only
  repeat' (with_reducible first | exact hk | apply keeps_abandonTest (hw.mono (by decide)) | apply keeps_fenceServing (hw.mono (by decide)) | apply keeps_takeOut (hw.mono (by decide))  | apply keeps_ite | intro _ _ hk | split)
theorem keeps_takeover {ws : List FieldName} (hw : Among [.mem, .queues, .parts, .vcs, .mus, .pipes, .link, .vectors, .pins, .power, .ripstop, .snoops] ws) {z s : State} (hk : Keeps ws z s) (cls die idx : Nat) :
    Keeps ws z (takeover s cls die idx) := by
  unfold takeover; try dsimp only
  repeat' (with_reducible first | exact hk | apply keeps_takeOut (hw.mono (by decide)) | apply keeps_giveBack (hw.mono (by decide)) | apply keeps_borrow (hw.mono (by decide)) | apply keeps_goOn (hw.mono (by decide)) | apply keeps_putBlock (hw.mono (by decide))  | apply keeps_ite | intro _ _ hk | split)
theorem keeps_putSerg {ws : List FieldName} (hw : Among [.serge] ws) {z s : State} (hk : Keeps ws z s) (die m : Nat) (x : SergeMod) :
    Keeps ws z (State.putSerg s die m x) := by
  unfold State.putSerg; try dsimp only
  repeat' (with_reducible first | exact hk | apply keeps_setSerge (hw.mono (by decide))  | apply keeps_ite | intro _ _ hk | split)
theorem keeps_laneRepair {ws : List FieldName} (hw : Among [.parts, .serge, .link, .vectors, .pins, .power, .ripstop] ws) {z s : State} (hk : Keeps ws z s) (die m lane : Nat) :
    Keeps ws z (laneRepair s die m lane) := by
  unfold laneRepair; try dsimp only
  repeat' (with_reducible first | exact hk | apply keeps_putSerg (hw.mono (by decide)) | apply keeps_ripEvent (hw.mono (by decide)) | apply keeps_ripPersist (hw.mono (by decide))  | apply keeps_ite | intro _ _ hk | split)
theorem keeps_skipTest {ws : List FieldName} (hw : Among [.parts, .link, .vectors, .pins, .power, .ripstop] ws) {z s : State} (hk : Keeps ws z s) (cls die idx : Nat) :
    Keeps ws z (skipTest s cls die idx) := by
  unfold skipTest; try dsimp only
  repeat' (with_reducible first | exact hk | apply keeps_setRipstop (hw.mono (by decide)) | apply keeps_ripEvent (hw.mono (by decide))  | apply keeps_ite | intro _ _ hk | split)
theorem keeps_advanceTest {ws : List FieldName} (hw : Among [.ripstop] ws) {z s : State} (hk : Keeps ws z s) (cls die i : Nat) :
    Keeps ws z (advanceTest s cls die i) := by
  unfold advanceTest; try dsimp only
  repeat' (with_reducible first | exact hk | apply keeps_setRipstop (hw.mono (by decide))  | apply keeps_ite | intro _ _ hk | split)
theorem keeps_endTest {ws : List FieldName} (hw : Among [.mem, .queues, .parts, .vcs, .mus, .pipes, .link, .vectors, .pins, .power, .ripstop, .snoops] ws) {z s : State} (hk : Keeps ws z s) (cls die i : Nat) (pass : Bool) :
    Keeps ws z (endTest s cls die i pass) := by
  unfold endTest; try dsimp only
  repeat' (with_reducible first | exact hk | apply keeps_setRipstop (hw.mono (by decide)) | apply keeps_endLoan (hw.mono (by decide)) | apply keeps_ripPersist (hw.mono (by decide)) | apply keeps_putBlock (hw.mono (by decide))  | apply keeps_ite | intro _ _ hk | split)
theorem keeps_clearFence {ws : List FieldName} (hw : Among [.ripstop] ws) {z s : State} (hk : Keeps ws z s) (v : Nat) :
    Keeps ws z (clearFence s v) := by
  unfold clearFence; try dsimp only
  repeat' (with_reducible first | exact hk | apply keeps_setRipstop (hw.mono (by decide))  | apply keeps_ite | intro _ _ hk | split)
theorem keeps_nearRowError {ws : List FieldName} (hw : Among [.parts, .link, .vectors, .pins, .power, .ripstop] ws) {z s : State} (hk : Keeps ws z s) (unit row : Nat) :
    Keeps ws z (nearRowError s unit row) := by
  unfold nearRowError; try dsimp only
  repeat' (with_reducible first | exact hk | apply keeps_setRipstop (hw.mono (by decide)) | apply keeps_ripEvent (hw.mono (by decide))  | apply keeps_ite | intro _ _ hk | split)
theorem keeps_linkFailure {ws : List FieldName} (hw : Among [.parts, .link, .vectors, .pins, .power, .ripstop] ws) {z s : State} (hk : Keeps ws z s) (ch row : Nat) :
    Keeps ws z (linkFailure s ch row) := by
  unfold linkFailure; try dsimp only
  repeat' (with_reducible first | exact hk | apply keeps_setRipstop (hw.mono (by decide)) | apply keeps_ripEvent (hw.mono (by decide))  | apply keeps_ite | intro _ _ hk | split)
theorem keeps_ueEvent {ws : List FieldName} (hw : Among [.parts, .link, .vectors, .pins, .power, .ripstop] ws) {z s : State} (hk : Keeps ws z s) (k a : Nat) :
    Keeps ws z (ueEvent s k a) := by
  unfold ueEvent; try dsimp only
  repeat' (with_reducible first | exact hk | apply keeps_ripEvent (hw.mono (by decide))  | apply keeps_ite | intro _ _ hk | split)
theorem keeps_readFails {ws : List FieldName} (hw : Among [.queues, .parts, .vcs] ws) {z s : State} (hk : Keeps ws z s) (k q : Nat) (r : Started) (a : Nat) :
    Keeps ws z (readFails s k q r a) := by
  unfold readFails; try dsimp only
  repeat' (with_reducible first | exact hk | apply keeps_stopVcs (hw.mono (by decide)) | apply keeps_modStarted (hw.mono (by decide)) | apply keeps_modHealth (hw.mono (by decide)) | apply keeps_endWork (hw.mono (by decide))  | apply keeps_ite | intro _ _ hk | split)
theorem keeps_refetch {ws : List FieldName} (hw : Among [.mem] ws) {z s : State} (hk : Keeps ws z s) (k b : Nat) : Keeps ws z (refetch s k b) := by
  unfold refetch
  exact keeps_setMem (hw.mono (by decide)) (fun h => memWf_copy _ _ _ _ h) hk
theorem keeps_badData {ws : List FieldName} (hw : Among [.mem, .queues, .parts, .vcs] ws) {z s : State} (hk : Keeps ws z s) (k q a : Nat) (r : Started) : Keeps ws z (badData s k q a r) := by
  unfold badData
  split
  · exact keeps_refetch (hw.mono (by decide)) hk _ _
  · exact keeps_readFails (hw.mono (by decide)) (keeps_modPart (hw.mono (by decide)) hk _ _) _ _ _ _
theorem keeps_dataFault {ws : List FieldName} (hw : Among [.mem, .queues, .parts, .vcs, .link, .vectors, .pins, .power, .ripstop] ws) {z s : State} (hk : Keeps ws z s) (k q a : Nat) (r : Started) : Keeps ws z (dataFault s k q a r) := by
  unfold dataFault
  exact keeps_badData (hw.mono (by decide)) (keeps_ripEvent (hw.mono (by decide)) hk _ _ _ _ _ _) _ _ _ _
theorem keeps_ueAt {ws : List FieldName} (hw : Among [.parts] ws) {z s : State} (hk : Keeps ws z s) (k a : Nat) :
    Keeps ws z (ueAt s k a) := by
  unfold ueAt; try dsimp only
  repeat' (with_reducible first | exact hk | apply keeps_modHealth (hw.mono (by decide)) | apply keeps_modPart (hw.mono (by decide))  | apply keeps_ite | intro _ _ hk | split)
theorem keeps_slotFails {ws : List FieldName} (hw : Among [.queues, .parts] ws) {z s : State} (hk : Keeps ws z s) (k q a : Nat) :
    Keeps ws z (slotFails s k q a) := by
  unfold slotFails; try dsimp only
  repeat' (with_reducible first | exact hk | apply keeps_endHold (hw.mono (by decide)) | apply keeps_endAtHead (hw.mono (by decide)) | apply keeps_modQueue (hw.mono (by decide)) | apply keeps_claimHold (hw.mono (by decide)) | apply keeps_ueAt (hw.mono (by decide))  | apply keeps_ite | intro _ _ hk | split)
theorem keeps_companionFails {ws : List FieldName} (hw : Among [.parts, .link] ws) {z s : State} (hk : Keeps ws z s) (k a : Nat) :
    Keeps ws z (companionFails s k a) := by
  unfold companionFails; try dsimp only
  repeat' (with_reducible first | exact hk | apply keeps_setLink (hw.mono (by decide)) | apply keeps_ueAt (hw.mono (by decide)) | apply keeps_clRespond (hw.mono (by decide))  | apply keeps_ite | intro _ _ hk | split)
theorem keeps_unitFails {ws : List FieldName} (hw : Among [.queues, .parts, .ports, .link, .vectors, .pins, .power, .ripstop, .ethTx, .snoops] ws) {z s : State} (hk : Keeps ws z s) (k a : Nat) :
    Keeps ws z (unitFails s k a) := by
  unfold unitFails
  split
  · exact keeps_answerGather (hw.mono (by decide)) (keeps_ueAt (hw.mono (by decide)) (keeps_takeMsg (hw.mono (by decide)) hk _ _ (by assumption)) _ _) _ _ _
  · exact keeps_ueAt (hw.mono (by decide)) hk _ _
theorem keeps_hubError {ws : List FieldName} (hw : Among [.mem, .ctrs, .queues, .parts, .ports, .link, .vectors, .pins, .power, .ripstop, .ethTx, .snoops] ws) {z s : State} (hk : Keeps ws z s) (k q : Nat) (idx : BitVec 24) (a : Nat) :
    Keeps ws z (hubError s k q idx a) := by
  unfold hubError; try dsimp only
  repeat' (with_reducible first | exact hk | apply keeps_ueEvent (hw.mono (by decide)) | apply keeps_closeCmd (hw.mono (by decide)) | apply keeps_ueAt (hw.mono (by decide)) | apply keeps_refetch (hw.mono (by decide)) | apply keeps_slotFails (hw.mono (by decide)) | apply keeps_companionFails (hw.mono (by decide)) | apply keeps_unitFails (hw.mono (by decide))  | apply keeps_ite | intro _ _ hk | split)
theorem keeps_headFault {ws : List FieldName} (hw : Among [.mem, .queues, .parts, .link, .vectors, .pins, .power, .ripstop] ws) {z s : State} (hk : Keeps ws z s) (k q : Nat) (idx : BitVec 24) (a : Nat) :
    Keeps ws z (headFault s k q idx a) := by
  unfold headFault; try dsimp only
  repeat' (with_reducible first | exact hk | apply keeps_ueEvent (hw.mono (by decide)) | apply keeps_refetch (hw.mono (by decide)) | apply keeps_modPart (hw.mono (by decide)) | apply keeps_modQueue (hw.mono (by decide))  | apply keeps_ite | intro _ _ hk | split)
theorem keeps_reserveFails {ws : List FieldName} (hw : Among [.parts] ws) {z s : State} (hk : Keeps ws z s) (k : Nat) :
    Keeps ws z (reserveFails s k) := by
  unfold reserveFails; try dsimp only
  repeat' (with_reducible first | exact hk | apply keeps_modPart (hw.mono (by decide))  | apply keeps_ite | intro _ _ hk | split)
theorem keeps_passOn {ws : List FieldName} (hw : Among [.parts, .ports, .link, .vectors, .pins, .power, .ripstop, .ethTx] ws) {z s : State} (hk : Keeps ws z s) (k : Nat) (J : Job) (m : Msg) :
    Keeps ws z (passOn s k J m) := by
  unfold passOn; try dsimp only
  repeat' (with_reducible first | exact hk | apply keeps_sendMsg (hw.mono (by decide)) | apply keeps_foldl  | apply keeps_ite | intro _ _ hk | split)
theorem keeps_tellAll {ws : List FieldName} (hw : Among [.parts, .ports, .link, .vectors, .pins, .power, .ripstop, .ethTx] ws) {z s : State} (hk : Keeps ws z s) (k : Nat) (J : Job) (m : Msg) :
    Keeps ws z (tellAll s k J m) := by
  unfold tellAll; try dsimp only
  repeat' (with_reducible first | exact hk | apply keeps_passOn (hw.mono (by decide)) | apply keeps_sendMsg (hw.mono (by decide)) | apply keeps_foldl  | apply keeps_ite | intro _ _ hk | split)
theorem keeps_relay {ws : List FieldName} (hw : Among [.parts, .ports, .link, .vectors, .pins, .power, .ripstop, .ethTx] ws) {z s : State} (hk : Keeps ws z s) (k : Nat) (J : Job) (m : Msg) :
    Keeps ws z (relay s k J m) := by
  unfold relay; try dsimp only
  repeat' (with_reducible first | exact hk | apply keeps_passOn (hw.mono (by decide))  | apply keeps_ite | intro _ _ hk | split)
theorem keeps_announce {ws : List FieldName} (hw : Among [.parts, .ports, .link, .vectors, .pins, .power, .ripstop, .ethTx] ws) {z s : State} (hk : Keeps ws z s) (k : Nat) (J : Job) :
    Keeps ws z (announce s k J) := by
  unfold announce; try dsimp only
  repeat' (with_reducible first | exact hk | apply keeps_tellAll (hw.mono (by decide)) | apply keeps_modPart (hw.mono (by decide))  | apply keeps_ite | intro _ _ hk | split)
theorem keeps_askSecure {ws : List FieldName} (hw : Among [.parts, .ports, .link, .vectors, .pins, .power, .ripstop, .ethTx] ws) {z s : State} (hk : Keeps ws z s) (k : Nat) :
    Keeps ws z (askSecure s k) := by
  unfold askSecure; try dsimp only
  repeat' (with_reducible first | exact hk | apply keeps_modPart (hw.mono (by decide)) | apply keeps_announce (hw.mono (by decide)) | apply keeps_sendMsg (hw.mono (by decide))  | apply keeps_ite | intro _ _ hk | split)
theorem keeps_countDone {ws : List FieldName} (hw : Among [.parts, .ports, .link, .vectors, .pins, .power, .ripstop, .ethTx] ws) {z s : State} (hk : Keeps ws z s) (k : Nat) (J : Job) (n : BitVec 48) (src : BitVec 16) :
    Keeps ws z (countDone s k J n src) := by
  unfold countDone; try dsimp only
  repeat' (with_reducible first | exact hk | apply keeps_modPart (hw.mono (by decide)) | apply keeps_tellAll (hw.mono (by decide))  | apply keeps_ite | intro _ _ hk | split)
theorem keeps_reportDone {ws : List FieldName} (hw : Among [.parts, .ports, .link, .vectors, .pins, .power, .ripstop, .ethTx] ws) {z s : State} (hk : Keeps ws z s) (k : Nat) (n : BitVec 48) (fp : BitVec 64) :
    Keeps ws z (reportDone s k n fp) := by
  unfold reportDone; try dsimp only
  repeat' (with_reducible first | exact hk | apply keeps_countDone (hw.mono (by decide)) | apply keeps_sendMsg (hw.mono (by decide))  | apply keeps_ite | intro _ _ hk | split)
theorem keeps_secPut {ws : List FieldName} (hw : Among [.parts, .ports, .link, .vectors, .pins, .power, .ripstop, .ethTx] ws) {z s : State} (hk : Keeps ws z s) (k name a : Nat) (b : Bytes) :
    Keeps ws z (secPut s k name a b) := by
  unfold secPut; try dsimp only
  repeat' (with_reducible first | exact hk | apply keeps_sendMsg (hw.mono (by decide)) | apply keeps_foldl  | apply keeps_ite | intro _ _ hk | split)
theorem keeps_putDrain {ws : List FieldName} (hw : Among [.parts] ws) {z s : State} (hk : Keeps ws z s) (k : Nat) (d : Drain) :
    Keeps ws z (putDrain s k d) := by
  unfold putDrain; try dsimp only
  repeat' (with_reducible first | exact hk | apply keeps_modPart (hw.mono (by decide))  | apply keeps_ite | intro _ _ hk | split)
theorem keeps_storePart {ws : List FieldName} (hw : Among [.parts, .ports, .ethTx] ws) {z s : State} (hk : Keeps ws z s) (k : Nat) (d : Drain) (off : Nat) (b : Bytes) :
    Keeps ws z (storePart s k d off b) := by
  unfold storePart; try dsimp only
  repeat' (with_reducible first | exact hk | apply keeps_putDrain (hw.mono (by decide)) | apply keeps_modPart (hw.mono (by decide)) | apply keeps_sendKept (hw.mono (by decide))  | apply keeps_ite | intro _ _ hk | split)
theorem keeps_endDrain {ws : List FieldName} (hw : Among [.parts, .ports, .link, .vectors, .pins, .power, .ripstop, .ethTx] ws) {z s : State} (hk : Keeps ws z s) (k : Nat) :
    Keeps ws z (endDrain s k) := by
  unfold endDrain; try dsimp only
  repeat' (with_reducible first | exact hk | apply keeps_modPart (hw.mono (by decide)) | apply keeps_askSecure (hw.mono (by decide))  | apply keeps_ite | intro _ _ hk | split)
theorem keeps_checkBuddy {ws : List FieldName} (hw : Among [.parts, .ports, .link, .vectors, .pins, .power, .ripstop, .ethTx] ws) {z s : State} (hk : Keeps ws z s) (k : Nat) (d : Drain) (feed : BitVec 4) (base size : BitVec 48) :
    Keeps ws z (checkBuddy s k d feed base size) := by
  unfold checkBuddy; try dsimp only
  repeat' (with_reducible first | exact hk | apply keeps_putDrain (hw.mono (by decide)) | apply keeps_ripEvent (hw.mono (by decide)) | apply keeps_endDrain (hw.mono (by decide))  | apply keeps_ite | intro _ _ hk | split)
theorem keeps_drainPage {ws : List FieldName} (hw : Among [.parts, .ports, .link, .vectors, .pins, .power, .ripstop, .ethTx] ws) {z s : State} (hk : Keeps ws z s) (k : Nat) (d : Drain) (r : Nat) :
    Keeps ws z (drainPage s k d r) := by
  unfold drainPage; try dsimp only
  repeat' (with_reducible first | exact hk | apply keeps_storePart (hw.mono (by decide)) | apply keeps_putDrain (hw.mono (by decide)) | apply keeps_secPut (hw.mono (by decide))  | apply keeps_ite | intro _ _ hk | split)
theorem keeps_drainSnap {ws : List FieldName} (hw : Among [.parts, .ports, .link, .vectors, .pins, .power, .ripstop, .ethTx] ws) {z s : State} (hk : Keeps ws z s) (k : Nat) (d : Drain) :
    Keeps ws z (drainSnap s k d) := by
  unfold drainSnap; try dsimp only
  repeat' (with_reducible first | exact hk | apply keeps_storePart (hw.mono (by decide)) | apply keeps_putDrain (hw.mono (by decide)) | apply keeps_secPut (hw.mono (by decide))  | apply keeps_ite | intro _ _ hk | split)
theorem keeps_drainRec {ws : List FieldName} (hw : Among [.parts, .ports, .link, .vectors, .pins, .power, .ripstop, .ethTx] ws) {z s : State} (hk : Keeps ws z s) (k : Nat) (d : Drain) (fp : BitVec 64) :
    Keeps ws z (drainRec s k d fp) := by
  unfold drainRec; try dsimp only
  repeat' (with_reducible first | exact hk | apply keeps_storePart (hw.mono (by decide)) | apply keeps_putDrain (hw.mono (by decide)) | apply keeps_secPut (hw.mono (by decide))  | apply keeps_ite | intro _ _ hk | split)
theorem keeps_drainDone {ws : List FieldName} (hw : Among [.parts, .ports, .link, .vectors, .pins, .power, .ripstop, .ethTx] ws) {z s : State} (hk : Keeps ws z s) (k : Nat) (d : Drain) (fp : BitVec 64) :
    Keeps ws z (drainDone s k d fp) := by
  unfold drainDone; try dsimp only
  repeat' (with_reducible first | exact hk | apply keeps_modPart (hw.mono (by decide)) | apply keeps_ripEvent (hw.mono (by decide)) | apply keeps_reportDone (hw.mono (by decide)) | apply keeps_askSecure (hw.mono (by decide))  | apply keeps_ite | intro _ _ hk | split)
theorem keeps_drainStep {ws : List FieldName} (hw : Among [.parts, .ports, .link, .vectors, .pins, .power, .ripstop, .ethTx] ws) {z s : State} (hk : Keeps ws z s) (k : Nat) (d : Drain) (feed : BitVec 4) (base size : BitVec 48) :
    Keeps ws z (drainStep s k d feed base size) := by
  unfold drainStep; try dsimp only
  repeat' (with_reducible first | exact hk | apply keeps_checkBuddy (hw.mono (by decide)) | apply keeps_endDrain (hw.mono (by decide)) | apply keeps_drainPage (hw.mono (by decide)) | apply keeps_drainSnap (hw.mono (by decide)) | apply keeps_drainRec (hw.mono (by decide)) | apply keeps_drainDone (hw.mono (by decide))  | apply keeps_ite | intro _ _ hk | split)
theorem keeps_resetAll {ws : List FieldName} (hw : Among [.mem, .queues, .parts, .vcs, .mus, .link, .vectors, .snoops] ws) {z s : State} (hk : Keeps ws z s) (k : Nat) :
    Keeps ws z (resetAll s k) := by
  unfold resetAll; try dsimp only
  repeat' (with_reducible first | exact hk | apply keeps_finishReset (hw.mono (by decide)) | apply keeps_beginReset (hw.mono (by decide)) | apply keeps_foldl  | apply keeps_ite | intro _ _ hk | split)
theorem keeps_restoreFace {ws : List FieldName} (hw : Among [.mem, .parts, .snoops] ws) {z s : State} (hk : Keeps ws z s) (k : Nat) (x : Snapshot) (pages : List Bytes) :
    Keeps ws z (restoreFace s k x pages) := by
  unfold restoreFace; try dsimp only
  repeat' (with_reducible first | exact hk | apply keeps_store (hw.mono (by decide)) | apply keeps_foldl  | apply keeps_ite | intro _ _ hk | split)
theorem keeps_restoreTables {ws : List FieldName} (hw : Among [.mem, .parts, .snoops] ws) {z s : State} (hk : Keeps ws z s) (k : Nat) (l : List (Nat × Nat)) (b : Bytes) :
    Keeps ws z (restoreTables s k l b) := by
  induction l generalizing s b with
  | nil => exact hk
  | cons e l ih => exact ih (keeps_ite (keeps_store (hw.mono (by decide)) hk _ _ _) hk) _
theorem keeps_restoreCursor {ws : List FieldName} (hw : Among [.queues] ws) {z s : State} (hk : Keeps ws z s) (e : Nat × (BitVec 24 × BitVec 24 × BitVec 32 × QState)) :
    Keeps ws z (restoreCursor s e) := by
  unfold restoreCursor; try dsimp only
  repeat' (with_reducible first | exact hk | apply keeps_modQueue (hw.mono (by decide))  | apply keeps_ite | intro _ _ hk | split)
theorem keeps_restoreSmall {ws : List FieldName} (hw : Among [.mem, .ctrs, .queues, .parts, .snoops] ws) {z s : State} (hk : Keeps ws z s) (k : Nat) (x : Snapshot) :
    Keeps ws z (restoreSmall s k x) := by
  unfold restoreSmall; dsimp only
  repeat' (with_reducible first | exact hk | apply keeps_setCtrs (hw.mono (by decide)) | apply keeps_zeroCtrs (hw.mono (by decide)) | apply keeps_restoreCursor (hw.mono (by decide)) | apply keeps_restoreTables (hw.mono (by decide)) | apply keeps_modPart (hw.mono (by decide)) | apply keeps_zeroFill (hw.mono (by decide)) | apply keeps_foldl | intro _ _ hk)
theorem keeps_restoreWith {ws : List FieldName} (hw : Among [.mem, .ctrs, .queues, .parts, .link, .vectors, .pins, .power, .ripstop, .snoops] ws) {z s : State} (hk : Keeps ws z s) (k : Nat) (w : Pulled) :
    Keeps ws z (restoreWith s k w) := by
  unfold restoreWith; try dsimp only
  repeat' (with_reducible first | exact hk | apply keeps_modPart (hw.mono (by decide)) | apply keeps_restoreSmall (hw.mono (by decide)) | apply keeps_restoreFace (hw.mono (by decide)) | apply keeps_ripEvent (hw.mono (by decide))  | apply keeps_ite | intro _ _ hk | split)
theorem keeps_fetchPages {ws : List FieldName} (hw : Among [.mem, .parts, .snoops] ws) {z s : State} (hk : Keeps ws z s) (k : Nat) (storage : Bool) (parts : List (Bytes × BitVec 64)) :
    Keeps ws z (fetchPages s k storage parts) := by
  unfold fetchPages; try dsimp only
  repeat' (with_reducible first | exact hk | apply keeps_store (hw.mono (by decide)) | apply keeps_modPart (hw.mono (by decide)) | apply keeps_foldl  | apply keeps_ite | intro _ _ hk | split)
theorem keeps_rollBack {ws : List FieldName} (hw : Among [.mem, .parts, .snoops] ws) {z s : State} (hk : Keeps ws z s) (k : Nat) (step : BitVec 48) :
    Keeps ws z (rollBack s k step) := by
  unfold rollBack; try dsimp only
  repeat' (with_reducible first | exact hk | apply keeps_refuseStep (hw.mono (by decide)) | apply keeps_modPart (hw.mono (by decide))  | apply keeps_ite | intro _ _ hk | split)

/-! ### Trust -/

theorem keeps_takeRol {ws : List FieldName} (hw : Among [.rolser] ws) {z s : State} (hk : Keeps ws z s) (kind : Nat) {m : RolMsg} {t : State}
    (h : takeRol s kind = some (m, t)) : Keeps ws z t := by
  unfold takeRol at h; dsimp only at h
  repeat' split at h
  all_goals first
    | cases h; done
    | (injection h with h; injection h with _ h; subst h; exact keeps_setRolser (hw.mono (by decide)) hk)
theorem keeps_answerHello {ws : List FieldName} (hw : Among [.draws, .ports, .link, .vectors, .mailboxes, .rolser, .ethTx] ws) {z s : State} (hk : Keeps ws z s) (m : RolMsg) :
    Keeps ws z (answerHello s m) := by
  unfold answerHello; try dsimp only
  repeat' (with_reducible first | exact hk | apply keeps_setRolser (hw.mono (by decide)) | apply keeps_draw (hw.mono (by decide)) | apply keeps_rolSend (hw.mono (by decide))  | apply keeps_ite | intro _ _ hk | split)
theorem keeps_firstControlQueue {ws : List FieldName} (hw : Among [.queues] ws) {z s : State} (hk : Keeps ws z s) (k : Nat) :
    Keeps ws z (firstControlQueue s k) := by
  unfold firstControlQueue; try dsimp only
  repeat' (with_reducible first | exact hk | apply keeps_modQueue (hw.mono (by decide))  | apply keeps_ite | intro _ _ hk | split)
theorem keeps_rotateSubkey {ws : List FieldName} (hw : Among [.queues, .parts] ws) {z s : State} (hk : Keeps ws z s) (k g : Nat) (prk : Bytes) :
    Keeps ws z (rotateSubkey s k g prk) := by
  unfold rotateSubkey; try dsimp only
  repeat' (with_reducible first | exact hk | apply keeps_modPart (hw.mono (by decide)) | apply keeps_modQueue (hw.mono (by decide)) | apply keeps_foldl  | apply keeps_ite | intro _ _ hk | split)
theorem keeps_loadItem {ws : List FieldName} (hw : Among [.queues, .parts] ws) {z : State} {a : State × Byte} (hk : Keeps1 ws z a) (k : Nat) (prk : Bytes)
    (e : Nat × Nat × Nat × Nat × Bytes) : Keeps1 ws z (loadItem k prk a e) := by
  unfold loadItem; dsimp only
  repeat' (with_reducible first | exact hk | exact keeps1_mk (keeps1_fst hk) | exact keeps1_mk (keeps_modPart (hw.mono (by decide)) (keeps1_fst hk) _ _) | exact keeps1_mk (keeps_rotateSubkey (hw.mono (by decide)) (keeps1_fst hk) _ _ _) | split)
theorem keepsf_loadItem {ws : List FieldName} (hw : Among [.queues, .parts] ws) {z : State} {a : State × Byte} (hk : Keeps1 ws z a) (k : Nat) (prk : Bytes)
    (e : Nat × Nat × Nat × Nat × Bytes) : Keeps ws z (loadItem k prk a e).1 := keeps1_fst (by apply keeps_loadItem (hw.mono (by decide)); exact hk)
theorem keeps_serveKeyload {ws : List FieldName} (hw : Among [.queues, .parts, .ports, .link, .vectors, .mailboxes, .rolser, .ethTx] ws) {z s : State} (hk : Keeps ws z s) (sid : Nat) (S : Session) (m : RolMsg) :
    Keeps ws z (serveKeyload s sid S m) := by
  unfold serveKeyload
  split
  · exact keeps_rolReply (hw.mono (by decide)) hk _ _ _
  · split
    · split
      · exact keeps_rolReply (hw.mono (by decide)) hk _ _ _
      · dsimp only
        split
        · exact keeps_rolReply (hw.mono (by decide)) (keeps1_fst (keeps_foldl1 (fun a x h => keeps_loadItem (hw.mono (by decide)) h _ _ _) (keeps1_mk hk))) _ _ _
        · exact keeps_rolReply (hw.mono (by decide)) hk _ _ _
    · exact keeps_rolReply (hw.mono (by decide)) hk _ _ _
theorem keeps_issuePlanned {ws : List FieldName} (hw : Among [.mem, .queues, .parts, .link, .vectors, .order, .snoops] ws) {z s : State} (hk : Keeps ws z s) (k : Nat) :
    Keeps ws z (issuePlanned s k) := by
  unfold issuePlanned; try dsimp only
  repeat' (with_reducible first | exact hk | apply keeps_store (hw.mono (by decide)) | apply keeps_modPart (hw.mono (by decide)) | apply keeps_doorbell (hw.mono (by decide))  | apply keeps_ite | intro _ _ hk | split)
theorem keeps_fencePdie {ws : List FieldName} (hw : Among [.parts, .ports, .pdies, .link, .vectors, .pins, .power, .ripstop, .ethTx] ws) {z s : State} (hk : Keeps ws z s) (d : Nat) :
    Keeps ws z (fencePdie s d) := by
  unfold fencePdie; try dsimp only
  repeat' (with_reducible first | exact hk | apply keeps_setPdies (hw.mono (by decide)) | apply keeps_portDown (hw.mono (by decide)) | apply keeps_ripPersist (hw.mono (by decide)) | apply keeps_foldl  | apply keeps_ite | intro _ _ hk | split)

/-! ### Boot -/

theorem keeps_clearDevice {ws : List FieldName} (hw : Among [.now, .ctrs, .queues, .parts, .vcs, .mus, .pipes, .slices, .dies, .ports, .serge, .pdies, .link, .vectors, .mailboxes, .rolser, .trust, .boot, .pins, .power, .ripstop, .snoops] ws) {z s : State} (hk : Keeps ws z s) : Keeps ws z (clearDevice s) :=
  keeps_step hw hk ⟨rfl, id, ⟨id, le_rfl, id, le_rfl⟩, id, fun f hf => by cases f <;> first | rfl | exact absurd (by simp) hf⟩
theorem keeps_abortQueue {ws : List FieldName} (hw : Among [.mem, .queues, .parts, .vcs, .mus, .link, .vectors, .snoops] ws) {z s : State} (hk : Keeps ws z s) (k q : Nat) :
    Keeps ws z (abortQueue s k q) := by
  unfold abortQueue; try dsimp only
  repeat' (with_reducible first | exact hk | apply keeps_beginReset (hw.mono (by decide)) | apply keeps_abortRecord (hw.mono (by decide)) | apply keeps_foldl  | apply keeps_ite | intro _ _ hk | split)
theorem keeps_abortQueues {ws : List FieldName} (hw : Among [.mem, .queues, .parts, .vcs, .mus, .link, .vectors, .snoops] ws) {z s : State} (hk : Keeps ws z s) :
    Keeps ws z (abortQueues s) := by
  unfold abortQueues; try dsimp only
  repeat' (with_reducible first | exact hk | apply keeps_abortQueue (hw.mono (by decide)) | apply keeps_foldl  | apply keeps_ite | intro _ _ hk | split)
theorem keeps_deviceReset {ws : List FieldName} (hw : Among [.now, .mem, .ctrs, .queues, .parts, .vcs, .mus, .pipes, .slices, .dies, .ports, .serge, .pdies, .link, .vectors, .mailboxes, .rolser, .trust, .boot, .pins, .power, .ripstop, .snoops] ws) {z s : State} (hk : Keeps ws z s) : Keeps ws z (deviceReset s) := by
  unfold deviceReset; dsimp only
  exact keeps_setTrust (hw.mono (by decide)) ⟨id, le_rfl, id, le_rfl⟩ (keeps_clearDevice (hw.mono (by decide)) (keeps_abortQueues (hw.mono (by decide)) hk))
theorem keeps_powerOnReset {ws : List FieldName} (hw : Among [.now, .ctrs, .queues, .parts, .vcs, .mus, .pipes, .slices, .dies, .ports, .serge, .pdies, .link, .vectors, .mailboxes, .rolser, .trust, .boot, .pins, .power, .ripstop, .snoops] ws) {z s : State} (hk : Keeps ws z s) :
    Keeps ws z (powerOnReset s) := by
  unfold powerOnReset; try dsimp only
  repeat' (with_reducible first | exact hk | apply keeps_setBoot (hw.mono (by decide)) | apply keeps_setDies (hw.mono (by decide)) | apply keeps_setPins (hw.mono (by decide)) | apply keeps_clearDevice (hw.mono (by decide))  | apply keeps_ite | intro _ _ hk | split)
theorem keeps_enterState {ws : List FieldName} (hw : Among [.boot] ws) {z s : State} (hk : Keeps ws z s) (n : BitVec 8) :
    Keeps ws z (enterState s n) := by
  unfold enterState; try dsimp only
  repeat' (with_reducible first | exact hk | apply keeps_setBoot (hw.mono (by decide))  | apply keeps_ite | intro _ _ hk | split)
theorem keeps_becomeReady {ws : List FieldName} (hw : Among [.parts, .boot, .pins, .power, .ripstop] ws) {z s : State} (hk : Keeps ws z s) :
    Keeps ws z (becomeReady s) := by
  unfold becomeReady; try dsimp only
  repeat' (with_reducible first | exact hk | apply keeps_setBoot (hw.mono (by decide)) | apply keeps_setRipstop (hw.mono (by decide)) | apply keeps_updateRisk (hw.mono (by decide))  | apply keeps_ite | intro _ _ hk | split)
theorem keeps_advance {ws : List FieldName} (hw : Among [.parts, .boot, .pins, .power, .ripstop] ws) {z s : State} (hk : Keeps ws z s) :
    Keeps ws z (advance s) := by
  unfold advance; try dsimp only
  repeat' (with_reducible first | exact hk | apply keeps_enterState (hw.mono (by decide)) | apply keeps_becomeReady (hw.mono (by decide))  | apply keeps_ite | intro _ _ hk | split)
theorem keeps_bootFail {ws : List FieldName} (hw : Among [.boot, .pins, .power] ws) {z s : State} (hk : Keeps ws z s) (n : BitVec 8) :
    Keeps ws z (bootFail s n) := by
  unfold bootFail; try dsimp only
  repeat' (with_reducible first | exact hk | apply keeps_setPower (hw.mono (by decide)) | apply keeps_enterState (hw.mono (by decide)) | apply keeps_driveAlert (hw.mono (by decide))  | apply keeps_ite | intro _ _ hk | split)
theorem keeps_romPasses {ws : List FieldName} (hw : Among [.parts, .trust, .boot, .pins, .power, .ripstop] ws) {z s : State} (hk : Keeps ws z s) (l : List (BitVec 32 × Bytes × Bytes × Bytes)) (fwVersion : Bytes) :
    Keeps ws z (romPasses s l fwVersion) := by
  unfold romPasses; try dsimp only
  repeat' (with_reducible first | exact hk | apply keeps_setBoot (hw.mono (by decide)) | apply keeps_setTrust (hw.mono (by decide)) | apply keeps_advance (hw.mono (by decide)) | apply keeps_foldl  | apply keeps_ite | intro _ _ hk | split)
  all_goals exact ⟨id, le_rfl, id, le_rfl⟩
theorem keeps_bistFence {ws : List FieldName} (hw : Among [.parts, .serge, .link, .vectors, .pins, .power, .ripstop] ws) {z s : State} (hk : Keeps ws z s) (e : BitVec 8 × BitVec 4 × BitVec 12) :
    Keeps ws z (bistFence s e) := by
  unfold bistFence; try dsimp only
  repeat' (with_reducible first | exact hk | apply keeps_setRipstop (hw.mono (by decide)) | apply keeps_laneRepair (hw.mono (by decide)) | apply keeps_ripPersist (hw.mono (by decide))  | apply keeps_ite | intro _ _ hk | split)
theorem keeps_assignSpares {ws : List FieldName} (hw : Among [.mem, .queues, .parts, .vcs, .mus, .pipes, .link, .vectors, .pins, .power, .ripstop, .snoops] ws) {z s : State} (hk : Keeps ws z s) :
    Keeps ws z (assignSpares s) := by
  unfold assignSpares; try dsimp only
  repeat' (with_reducible first | exact hk | apply keeps_setRipstop (hw.mono (by decide)) | apply keeps_replaceBlock (hw.mono (by decide)) | apply keeps_putBlock (hw.mono (by decide)) | apply keeps_updateRisk (hw.mono (by decide)) | apply keeps_foldl  | apply keeps_ite | intro _ _ hk | split)
theorem keeps_releaseCprst {ws : List FieldName} (hw : Among [.link, .pins] ws) {z s : State} (hk : Keeps ws z s) :
    Keeps ws z (releaseCprst s) := by
  unfold releaseCprst; try dsimp only
  repeat' (with_reducible first | exact hk | apply keeps_setLink (hw.mono (by decide)) | apply keeps_setPins (hw.mono (by decide))  | apply keeps_ite | intro _ _ hk | split)
theorem keeps_pulseCprst {ws : List FieldName} (hw : Among [.mem, .ctrs, .queues, .parts, .link, .vectors, .pins, .power, .ripstop, .snoops] ws) {z s : State} (hk : Keeps ws z s) :
    Keeps ws z (pulseCprst s) := by
  unfold pulseCprst; try dsimp only
  repeat' (with_reducible first | exact hk | apply keeps_setPins (hw.mono (by decide)) | apply keeps_linkLoss (hw.mono (by decide))  | apply keeps_ite | intro _ _ hk | split)
theorem keeps_endPulse {ws : List FieldName} (hw : Among [.link, .pins] ws) {z s : State} (hk : Keeps ws z s) :
    Keeps ws z (endPulse s) := by
  unfold endPulse; try dsimp only
  repeat' (with_reducible first | exact hk | apply keeps_releaseCprst (hw.mono (by decide))  | apply keeps_ite | intro _ _ hk | split)
theorem keeps_leaveReset {ws : List FieldName} (hw : Among [.now, .boot, .pins, .power] ws) {z s : State} (hk : Keeps ws z s) :
    Keeps ws z (leaveReset s) := by
  unfold leaveReset; try dsimp only
  repeat' (with_reducible first | exact hk | apply keeps_setBoot (hw.mono (by decide)) | apply keeps_setNow (hw.mono (by decide)) | apply keeps_bootFail (hw.mono (by decide))  | apply keeps_ite | intro _ _ hk | split)
theorem keeps_setLands {ws : List FieldName} (hw : Among [.pins] ws) {z s : State} (hk : Keeps ws z s) :
    Keeps ws z (setLands s) := by
  unfold setLands; try dsimp only
  repeat' (with_reducible first | exact hk | apply keeps_setPins (hw.mono (by decide))  | apply keeps_ite | intro _ _ hk | split)
theorem keeps_sampleStraps {ws : List FieldName} (hw : Among [.rolser, .boot] ws) {z s : State} (hk : Keeps ws z s) (x : BitVec 14) :
    Keeps ws z (sampleStraps s x) := by
  unfold sampleStraps; try dsimp only
  repeat' (with_reducible first | exact hk | apply keeps_setBoot (hw.mono (by decide)) | apply keeps_setRolser (hw.mono (by decide))  | apply keeps_ite | intro _ _ hk | split)
theorem keeps_netLost {ws : List FieldName} (hw : Among [.parts, .ports, .link, .vectors, .pins, .power, .ripstop, .ethTx] ws) {z s : State} (hk : Keeps ws z s) (d : Nat) :
    Keeps ws z (netLost s d) := by
  unfold netLost; try dsimp only
  repeat' (with_reducible first | exact hk | apply keeps_portLoss (hw.mono (by decide)) | apply keeps_foldl  | apply keeps_ite | intro _ _ hk | split)
theorem keeps_alertClear {ws : List FieldName} (hw : Among [.pins, .power] ws) {z s : State} (hk : Keeps ws z s) :
    Keeps ws z (alertClear s) := by
  unfold alertClear; try dsimp only
  repeat' (with_reducible first | exact hk | apply keeps_setPower (hw.mono (by decide)) | apply keeps_driveAlert (hw.mono (by decide))  | apply keeps_ite | intro _ _ hk | split)
theorem keeps_lcSeal {ws : List FieldName} (hw : Among [.now, .mem, .ctrs, .queues, .parts, .vcs, .mus, .pipes, .slices, .dies, .ports, .serge, .pdies, .link, .vectors, .mailboxes, .rolser, .trust, .boot, .pins, .power, .ripstop, .snoops] ws) {z s : State} (hk : Keeps ws z s) (key : Bytes) (h : s.trust.lcs ≠ 4) : Keeps ws z (lcSeal s key) := by
  unfold lcSeal; dsimp only
  refine keeps_deviceReset (hw.mono (by decide)) (keeps_setTrust (hw.mono (by decide)) ?_ hk)
  split <;> exact ⟨id, le_rfl, fun e => absurd e h, le_rfl⟩
theorem keeps_lcRma {ws : List FieldName} (hw : Among [.now, .mem, .ctrs, .queues, .parts, .vcs, .mus, .pipes, .slices, .dies, .ports, .serge, .pdies, .link, .vectors, .mailboxes, .rolser, .trust, .boot, .pins, .power, .ripstop, .snoops] ws) {z s : State} (hk : Keeps ws z s) (h : s.trust.lcs ≠ 4) : Keeps ws z (lcRma s) := by
  unfold lcRma
  exact keeps_deviceReset (hw.mono (by decide)) (keeps_setTrust (hw.mono (by decide)) ⟨id, Nat.le_succ _, fun e => absurd e h, le_rfl⟩ hk)
theorem keeps_lcDecommission {ws : List FieldName} (hw : Among [.now, .mem, .ctrs, .queues, .parts, .vcs, .mus, .pipes, .slices, .dies, .ports, .serge, .pdies, .link, .vectors, .mailboxes, .rolser, .trust, .boot, .pins, .power, .ripstop, .snoops] ws) {z s : State} (hk : Keeps ws z s) : Keeps ws z (lcDecommission s) := by
  unfold lcDecommission
  exact keeps_deviceReset (hw.mono (by decide)) (keeps_setTrust (hw.mono (by decide)) ⟨fun _ => rfl, le_rfl, fun _ => rfl, le_rfl⟩ hk)
theorem keeps_tapLoad {ws : List FieldName} (hw : Among [.pins] ws) {z s : State} (hk : Keeps ws z s) (i : TapInstr) :
    Keeps ws z (tapLoad s i) := by
  unfold tapLoad; try dsimp only
  repeat' (with_reducible first | exact hk | apply keeps_setPins (hw.mono (by decide)) | apply keeps_setLands (hw.mono (by decide))  | apply keeps_ite | intro _ _ hk | split)

/-! ### Dictionary -/

theorem keeps_freshNonce {ws : List FieldName} (hw : Among [.draws, .trust] ws) {z s : State} (hk : Keeps ws z s) (g : Grp) (sub : Nat) :
    Keeps ws z (freshNonce s g sub) := by
  unfold freshNonce; try dsimp only
  repeat' (with_reducible first | exact hk | apply keeps_setTrust (hw.mono (by decide)) | apply keeps_draw (hw.mono (by decide))  | apply keeps_ite | intro _ _ hk | split)
  all_goals exact ⟨id, le_rfl, id, le_rfl⟩
theorem keeps_readItem {ws : List FieldName} (hw : Among [.draws, .trust] ws) {z : State} {a : State × Bytes} (hk : Keeps1 ws z a) (S : Session) (it : Nat × Nat) :
    Keeps1 ws z (readItem S a it) := by
  unfold readItem; dsimp only
  repeat' (with_reducible first | exact hk | exact keeps1_mk (keeps1_fst hk) | exact keeps1_mk (keeps_freshNonce (hw.mono (by decide)) (keeps1_fst hk) _ _) | split)
theorem keepsf_readItem {ws : List FieldName} (hw : Among [.draws, .trust] ws) {z : State} {a : State × Bytes} (hk : Keeps1 ws z a) (S : Session) (it : Nat × Nat) : Keeps ws z (readItem S a it).1 := keeps1_fst (by apply keeps_readItem (hw.mono (by decide)); exact hk)
theorem keeps_serveRead {ws : List FieldName} (hw : Among [.draws, .ports, .link, .vectors, .mailboxes, .rolser, .trust, .ethTx] ws) {z s : State} (hk : Keeps ws z s) (sid : Nat) (S : Session) (m : RolMsg) : Keeps ws z (serveRead s sid S m) := by
  unfold serveRead
  split
  · exact keeps_freeBusy (hw.mono (by decide)) hk _
  · dsimp only
    exact keeps_rolReply (hw.mono (by decide)) (keeps1_fst (keeps_foldl1 (fun a x h => keeps_readItem (hw.mono (by decide)) h _ _) (keeps1_mk hk))) _ _ _

/-! ### DictionaryWrite -/

/-- What writing an entry leaves is kept. -/
def WKeeps (ws : List FieldName) (z : State) (r : WRes) : Prop := ∀ s, r = .ok s → Keeps ws z s
theorem keeps_error {ws : List FieldName} {z : State} (n : Nat) : WKeeps ws z (.error n) := fun _ h => by cases h
theorem keeps_wok {ws : List FieldName} {z s : State} (hk : Keeps ws z s) : WKeeps ws z (.ok s) := fun _ h => by cases h; exact hk
theorem keeps_within {ws : List FieldName} {z s : State} (hk : Keeps ws z s) (ok : Bool) : WKeeps ws z (within ok s) := by
  unfold within
  split
  · exact keeps_wok hk
  · exact keeps_error _
theorem keeps_withinIf {ws : List FieldName} {z s : State} {ok : Bool} (hk : ok = true → Keeps ws z s) : WKeeps ws z (within ok s) := by
  unfold within
  split
  · exact keeps_wok (hk (by assumption))
  · exact keeps_error _
theorem keeps_noteI {ws : List FieldName} (hw : Among [.trust] ws) {z s : State} (hk : Keeps ws z s) (i sub : Nat) (old new : Bytes) :
    Keeps ws z (noteI i sub old new s) := by
  unfold noteI; try dsimp only
  repeat' (with_reducible first | exact hk | apply keeps_setTrust (hw.mono (by decide))  | apply keeps_ite | intro _ _ hk | split)
  all_goals exact ⟨id, le_rfl, id, le_rfl⟩
theorem keeps_noteMode {ws : List FieldName} (hw : Among [.parts, .trust] ws) {z s : State} (hk : Keeps ws z s) (k sub : Nat) (old new : BitVec 8) :
    Keeps ws z (noteMode k sub old new s) := by
  unfold noteMode; try dsimp only
  repeat' (with_reducible first | exact hk | apply keeps_noteI (hw.mono (by decide)) | apply keeps_modPart (hw.mono (by decide))  | apply keeps_ite | intro _ _ hk | split)
theorem keeps_modDict {ws : List FieldName} (hw : Among [.parts] ws) {z s : State} (hk : Keeps ws z s) (k : Nat) (f : PDict → PDict) :
    Keeps ws z (modDict s k f) := by
  unfold modDict; try dsimp only
  repeat' (with_reducible first | exact hk | apply keeps_modPart (hw.mono (by decide))  | apply keeps_ite | intro _ _ hk | split)
theorem keeps_writeConfig {ws : List FieldName} (hw : Among [.mem, .ctrs, .queues, .parts, .link, .vectors, .rolser, .trust, .pins, .power, .ripstop, .snoops] ws) {z s : State} (hk : Keeps ws z s) (sub : Nat) (v : Nat) :
    WKeeps ws z (writeConfig s sub v) := by
  unfold writeConfig; try dsimp only
  repeat' (with_reducible first | exact hk | exact keeps_error _ | apply keeps_wok | apply keeps_within | apply keeps_whenLive | apply keeps_setRolser (hw.mono (by decide)) | apply keeps_setTrust (hw.mono (by decide)) | apply keeps_within | apply keeps_pulseCprst (hw.mono (by decide))  | apply keeps_ite | intro _ _ hk | split)
  all_goals exact ⟨id, le_rfl, id, le_rfl⟩
theorem keeps_writeSecurity {ws : List FieldName} (hw : Among [.trust] ws) {z s : State} (hk : Keeps ws z s) (sub : Nat) (b : Bytes) :
    WKeeps ws z (writeSecurity s sub b) := by
  unfold writeSecurity; try dsimp only
  repeat' (with_reducible first | exact hk | exact keeps_error _ | apply keeps_wok | apply keeps_within | apply keeps_whenLive | apply keeps_setTrust (hw.mono (by decide)) | apply keeps_noteI (hw.mono (by decide)) | apply keeps_within  | apply keeps_ite | intro _ _ hk | split)
  all_goals exact ⟨id, le_rfl, id, le_rfl⟩
theorem keeps_writeCap {ws : List FieldName} (hw : Among [.pins, .power] ws) {z s : State} (hk : Keeps ws z s) (v : Nat) :
    Keeps ws z (writeCap s v) := by
  unfold writeCap; try dsimp only
  repeat' (with_reducible first | exact hk | apply keeps_setPower (hw.mono (by decide)) | apply keeps_driveAlert (hw.mono (by decide))  | apply keeps_ite | intro _ _ hk | split)
theorem keeps_writePower {ws : List FieldName} (hw : Among [.pins, .power] ws) {z s : State} (hk : Keeps ws z s) (sub v : Nat) :
    WKeeps ws z (writePower s sub v) := by
  unfold writePower; try dsimp only
  repeat' (with_reducible first | exact hk | exact keeps_error _ | apply keeps_wok | apply keeps_within | apply keeps_whenLive | apply keeps_setPower (hw.mono (by decide)) | apply keeps_within | apply keeps_writeCap (hw.mono (by decide)) | apply keeps_driveAlert (hw.mono (by decide)) | apply keeps_alertClear (hw.mono (by decide))  | apply keeps_ite | intro _ _ hk | split)
theorem keeps_writeReliability {ws : List FieldName} (hw : Among [.parts, .pins, .power, .ripstop] ws) {z s : State} (hk : Keeps ws z s) (sub v : Nat) :
    WKeeps ws z (writeReliability s sub v) := by
  unfold writeReliability; try dsimp only
  repeat' (with_reducible first | exact hk | exact keeps_error _ | apply keeps_wok | apply keeps_within | apply keeps_whenLive | apply keeps_setRipstop (hw.mono (by decide)) | apply keeps_within | apply keeps_updateRisk (hw.mono (by decide)) | apply keeps_clearFence (hw.mono (by decide))  | apply keeps_ite | intro _ _ hk | split)
theorem keeps_deferOr {ws : List FieldName} (hw : Among [.ports] ws) {z s : State} (hk : Keeps ws z s) (p sub v : Nat) (f : Port → Port) :
    Keeps ws z (deferOr s p sub v f) := by
  unfold deferOr; try dsimp only
  repeat' (with_reducible first | exact hk | apply keeps_modPort (hw.mono (by decide))  | apply keeps_ite | intro _ _ hk | split)
theorem keeps_writePort {ws : List FieldName} (hw : Among [.parts, .ports, .link, .vectors, .trust, .pins, .power, .ripstop, .ethTx] ws) {z s : State} (hk : Keeps ws z s) (p sub v : Nat) :
    WKeeps ws z (writePort s p sub v) := by
  unfold writePort; try dsimp only
  repeat' (with_reducible first | exact hk | exact keeps_error _ | apply keeps_wok | apply keeps_within | apply keeps_whenLive | apply keeps_within | apply keeps_deferOr (hw.mono (by decide)) | apply keeps_noteI (hw.mono (by decide)) | apply keeps_modPort (hw.mono (by decide)) | apply keeps_resetPort (hw.mono (by decide)) | apply keeps_releasePort (hw.mono (by decide))  | apply keeps_ite | intro _ _ hk | split)
theorem inRange_setXftParam {x : Xft} {i v : Nat} (h : xftRange x i v = true) (hx : x.inRange) :
    (setXftParam x i (BitVec.ofNat 32 v)).inRange := by
  unfold xftRange at h
  unfold Xft.inRange at hx ⊢
  unfold setXftParam
  obtain ⟨h1, h2, h3, h4, h5, h6, h7, h8, h9, h10, h11, h12, h13, h14⟩ := hx
  split at h <;> simp only [Bool.and_eq_true, decide_eq_true_eq] at h <;> simp only [BitVec.toNat_ofNat]
  all_goals refine ⟨?_, h2, h3, ?_, ?_, ?_, ?_, ?_, ?_, ?_, ?_, ?_, ?_, ?_⟩ <;> omega
theorem keeps_writeFabric {ws : List FieldName} (hw : Among [.xft] ws) {z s : State} (hk : Keeps ws z s) (sub v : Nat) : WKeeps ws z (writeFabric s sub v) := by
  unfold writeFabric
  split
  · refine keeps_withinIf fun h => keeps_setXft (hw.mono (by decide)) (fun hx => ?_) hk
    have h := of_decide_eq_true h
    unfold Xft.inRange at hx ⊢
    have h1 : (BitVec.ofNat 16 v).toNat = v := by simp only [BitVec.toNat_ofNat]; omega
    refine ⟨by simp only [h1]; omega, fun e => ?_, fun e => ?_, hx.2.2.2⟩
    · have := congrArg BitVec.toNat e; rw [h1] at this; simp at this; omega
    · have := congrArg BitVec.toNat e; rw [h1] at this; simp at this; omega
  · exact keeps_withinIf fun h => keeps_setXft (hw.mono (by decide)) (inRange_setXftParam h) hk
theorem keeps_writeCerral {ws : List FieldName} (hw : Among [.link] ws) {z s : State} (hk : Keeps ws z s) (sub v : Nat) :
    WKeeps ws z (writeCerral s sub v) := by
  unfold writeCerral; try dsimp only
  repeat' (with_reducible first | exact hk | exact keeps_error _ | apply keeps_wok | apply keeps_within | apply keeps_whenLive | apply keeps_setLink (hw.mono (by decide)) | apply keeps_within  | apply keeps_ite | intro _ _ hk | split)
theorem keeps_writeStaging {ws : List FieldName} (hw : Among [.parts] ws) {z s : State} (hk : Keeps ws z s) (k sub v : Nat) (b : Bytes) :
    WKeeps ws z (writeStaging s k sub v b) := by
  unfold writeStaging; try dsimp only
  repeat' (with_reducible first | exact hk | exact keeps_error _ | apply keeps_wok | apply keeps_within | apply keeps_whenLive | apply keeps_putPart (hw.mono (by decide)) | apply keeps_within  | apply keeps_ite | intro _ _ hk | split)
theorem keeps_setMode {ws : List FieldName} (hw : Among [.parts, .trust] ws) {z s : State} (hk : Keeps ws z s) (k : Nat) (v : BitVec 8) :
    Keeps ws z (setMode s k v) := by
  unfold setMode; try dsimp only
  repeat' (with_reducible first | exact hk | apply keeps_noteMode (hw.mono (by decide)) | apply keeps_modDict (hw.mono (by decide))  | apply keeps_ite | intro _ _ hk | split)
theorem keeps_setPooledPower {ws : List FieldName} (hw : Among [.parts, .trust] ws) {z s : State} (hk : Keeps ws z s) (k : Nat) (v : BitVec 8) :
    Keeps ws z (setPooledPower s k v) := by
  unfold setPooledPower; try dsimp only
  repeat' (with_reducible first | exact hk | apply keeps_noteMode (hw.mono (by decide)) | apply keeps_modDict (hw.mono (by decide))  | apply keeps_ite | intro _ _ hk | split)
theorem keeps_writeModes {ws : List FieldName} (hw : Among [.parts, .trust] ws) {z s : State} (hk : Keeps ws z s) (k sub v : Nat) :
    WKeeps ws z (writeModes s k sub v) := by
  unfold writeModes; try dsimp only
  repeat' (with_reducible first | exact hk | exact keeps_error _ | apply keeps_wok | apply keeps_within | apply keeps_whenLive | apply keeps_setMode (hw.mono (by decide)) | apply keeps_modDict (hw.mono (by decide)) | apply keeps_setPooledPower (hw.mono (by decide))  | apply keeps_ite | intro _ _ hk | split)
theorem keeps_partAction {ws : List FieldName} (hw : Among [.mem, .queues, .parts, .vcs, .mus, .slices, .dies, .link, .vectors, .snoops] ws) {z s : State} (hk : Keeps ws z s) (k sub : Nat) :
    WKeeps ws z (partAction s k sub) := by
  unfold partAction; try dsimp only
  repeat' (with_reducible first | exact hk | exact keeps_error _ | apply keeps_wok | apply keeps_within | apply keeps_whenLive | apply keeps_startCreate (hw.mono (by decide)) | apply keeps_startResize (hw.mono (by decide)) | apply keeps_startEnd (hw.mono (by decide))  | apply keeps_ite | intro _ _ hk | split)
theorem keeps_whenLive {ws : List FieldName} {z s : State} {k : Nat} {r : WRes} (hr : WKeeps ws z r) : WKeeps ws z (whenLive s k r) := by
  unfold whenLive
  split
  · exact hr
  · exact keeps_error _
theorem keeps_writeAlloc {ws : List FieldName} (hw : Among [.mem, .queues, .parts, .vcs, .mus, .slices, .dies, .link, .vectors, .trust, .snoops] ws) {z s : State} (hk : Keeps ws z s) (k sub v : Nat) (b : Bytes) :
    WKeeps ws z (writeAlloc s k sub v b) := by
  unfold writeAlloc; try dsimp only
  repeat' (with_reducible first | exact hk | exact keeps_error _ | apply keeps_wok | apply keeps_within | apply keeps_whenLive | apply keeps_writeStaging (hw.mono (by decide)) | apply keeps_partAction (hw.mono (by decide)) | apply keeps_whenLive | apply keeps_within | apply keeps_modDict (hw.mono (by decide)) | apply keeps_writeModes (hw.mono (by decide))  | apply keeps_ite | intro _ _ hk | split)
theorem keeps_writePowerOf {ws : List FieldName} (hw : Among [.parts, .slices, .dies] ws) {z s : State} (hk : Keeps ws z s) (k sub v : Nat) :
    WKeeps ws z (writePowerOf s k sub v) := by
  unfold writePowerOf; try dsimp only
  repeat' (with_reducible first | exact hk | exact keeps_error _ | apply keeps_wok | apply keeps_within | apply keeps_whenLive | apply keeps_within | apply keeps_modDict (hw.mono (by decide)) | apply keeps_retargetPart (hw.mono (by decide))  | apply keeps_ite | intro _ _ hk | split)
theorem keeps_writeSecuring {ws : List FieldName} (hw : Among [.parts] ws) {z s : State} (hk : Keeps ws z s) (k sub v : Nat) :
    WKeeps ws z (writeSecuring s k sub v) := by
  unfold writeSecuring; try dsimp only
  repeat' (with_reducible first | exact hk | exact keeps_error _ | apply keeps_wok | apply keeps_within | apply keeps_whenLive | apply keeps_modDict (hw.mono (by decide)) | apply keeps_within  | apply keeps_ite | intro _ _ hk | split)
theorem keeps_writeHealth {ws : List FieldName} (hw : Among [.parts] ws) {z s : State} (hk : Keeps ws z s) (k sub v : Nat) :
    WKeeps ws z (writeHealth s k sub v) := by
  unfold writeHealth; try dsimp only
  repeat' (with_reducible first | exact hk | exact keeps_error _ | apply keeps_wok | apply keeps_within | apply keeps_whenLive | apply keeps_modDict (hw.mono (by decide)) | apply keeps_within  | apply keeps_ite | intro _ _ hk | split)
theorem keeps_evictWindow {ws : List FieldName} (hw : Among [.parts, .order] ws) {z s : State} (hk : Keeps ws z s) (k fuel : Nat) : Keeps ws z (evictWindow s k fuel) := by
  induction fuel generalizing s with
  | zero => exact hk
  | succ n ih =>
    unfold evictWindow
    split
    · exact ih (keeps_acceptPage (hw.mono (by decide)) hk _ _ _ _ _)
    · exact hk
theorem keeps_writeIwin {ws : List FieldName} (hw : Among [.parts, .order] ws) {z s : State} (hk : Keeps ws z s) (k v : Nat) :
    WKeeps ws z (writeIwin s k v) := by
  unfold writeIwin; try dsimp only
  repeat' (with_reducible first | exact hk | exact keeps_error _ | apply keeps_wok | apply keeps_within | apply keeps_whenLive | apply keeps_evictWindow (hw.mono (by decide)) | apply keeps_modDict (hw.mono (by decide))  | apply keeps_ite | intro _ _ hk | split)
theorem keeps_writeAddress {ws : List FieldName} (hw : Among [.parts, .trust] ws) {z s : State} (hk : Keeps ws z s) (k sub v : Nat) (b : Bytes) :
    WKeeps ws z (writeAddress s k sub v b) := by
  unfold writeAddress; try dsimp only
  repeat' (with_reducible first | exact hk | exact keeps_error _ | apply keeps_wok | apply keeps_within | apply keeps_whenLive | apply keeps_noteI (hw.mono (by decide)) | apply keeps_modDict (hw.mono (by decide)) | apply keeps_within  | apply keeps_ite | intro _ _ hk | split)
theorem keeps_writeVlan {ws : List FieldName} (hw : Among [.parts, .trust] ws) {z s : State} (hk : Keeps ws z s) (k p v : Nat) (b : Bytes) :
    WKeeps ws z (writeVlan s k p v b) := by
  unfold writeVlan; try dsimp only
  repeat' (with_reducible first | exact hk | exact keeps_error _ | apply keeps_wok | apply keeps_within | apply keeps_whenLive | apply keeps_within | apply keeps_noteI (hw.mono (by decide)) | apply keeps_modDict (hw.mono (by decide))  | apply keeps_ite | intro _ _ hk | split)
theorem keeps_writeQp {ws : List FieldName} (hw : Among [.queues, .parts, .rolser] ws) {z s : State} (hk : Keeps ws z s) (sid k sub v : Nat) : WKeeps ws z (writeQp s sid k sub v) := by
  unfold writeQp; dsimp only
  repeat' split
  all_goals first
    | exact keeps_error _
    | exact keeps_wok (keeps_putSession (hw.mono (by decide)) hk _ _)
    | exact keeps_wok (keeps_modQp (hw.mono (by decide)) hk _ _ _)
    | exact keeps_wok (keeps_closeQp (hw.mono (by decide)) hk _ _)
    | exact keeps_wok (keeps_openQp (hw.mono (by decide)) hk _ _ (by assumption))
theorem keeps_writeSvn {ws : List FieldName} (hw : Among [.trust] ws) {z s : State} (hk : Keeps ws z s) (v : Nat) : WKeeps ws z (writeSvn s v) := by
  unfold writeSvn
  refine keeps_withinIf fun h => keeps_setTrust (hw.mono (by decide)) ⟨id, le_rfl, id, ?_⟩ hk
  have h := of_decide_eq_true h
  have := s.trust.svn.isLt
  simp only [BitVec.toNat_ofNat]
  omega
theorem keeps_writeEntry {ws : List FieldName} (hw : Among [.mem, .ctrs, .queues, .parts, .vcs, .mus, .slices, .dies, .ports, .link, .vectors, .rolser, .trust, .pins, .power, .ripstop, .xft, .ethTx, .order, .snoops] ws) {z s : State} (hk : Keeps ws z s) (sid : Nat) (g : Grp) (sub ty : Nat) (b : Bytes) :
    WKeeps ws z (writeEntry s sid g sub ty b) := by
  unfold writeEntry; try dsimp only
  repeat' (with_reducible first | exact hk | exact keeps_error _ | apply keeps_wok | apply keeps_within | apply keeps_whenLive | apply keeps_writeSvn (hw.mono (by decide)) | apply keeps_writeConfig (hw.mono (by decide)) | apply keeps_writeSecurity (hw.mono (by decide)) | apply keeps_writePower (hw.mono (by decide)) | apply keeps_writeReliability (hw.mono (by decide)) | apply keeps_writePort (hw.mono (by decide)) | apply keeps_writeFabric (hw.mono (by decide)) | apply keeps_writeCerral (hw.mono (by decide)) | apply keeps_writeAlloc (hw.mono (by decide)) | apply keeps_whenLive | apply keeps_writePowerOf (hw.mono (by decide)) | apply keeps_writeSecuring (hw.mono (by decide)) | apply keeps_writeHealth (hw.mono (by decide)) | apply keeps_writeIwin (hw.mono (by decide)) | apply keeps_writeAddress (hw.mono (by decide)) | apply keeps_writeVlan (hw.mono (by decide)) | apply keeps_writeQp (hw.mono (by decide))  | apply keeps_ite | intro _ _ hk | split)
theorem keeps_runEnding {ws : List FieldName} (hw : Among [.now, .mem, .ctrs, .queues, .parts, .vcs, .mus, .pipes, .slices, .dies, .ports, .serge, .pdies, .link, .vectors, .mailboxes, .rolser, .trust, .boot, .pins, .power, .ripstop, .snoops] ws) {z s : State} (hk : Keeps ws z s) (e : Option Ending) : Keeps ws z (runEnding s e) := by
  unfold runEnding
  split
  · exact hk
  · exact keeps_deviceReset (hw.mono (by decide)) hk
  · exact keeps_lcDecommission (hw.mono (by decide)) hk
  · split
    · exact hk
    · exact keeps_lcRma (hw.mono (by decide)) hk (by assumption)
  · split
    · exact hk
    · exact keeps_lcSeal (hw.mono (by decide)) hk _ (by assumption)
theorem keeps_writeItem {ws : List FieldName} (hw : Among [.mem, .ctrs, .queues, .parts, .vcs, .mus, .slices, .dies, .ports, .link, .vectors, .rolser, .trust, .pins, .power, .ripstop, .xft, .ethTx, .order, .snoops] ws) {z : State} {a : WAcc} (hk : Keeps ws z a.s) (sid : Nat) (it : WItem) : Keeps ws z (writeItem sid a it).s := by
  unfold writeItem; dsimp only
  split
  · exact hk
  · split
    · exact hk
    · split
      · exact hk
      · split
        · exact hk
        · split
          · split <;> exact hk
          · split
            · exact keeps_writeEntry (hw.mono (by decide)) hk _ _ _ _ _ _ (by assumption)
            · exact hk
theorem keeps_writeItems {ws : List FieldName} (hw : Among [.mem, .ctrs, .queues, .parts, .vcs, .mus, .slices, .dies, .ports, .link, .vectors, .rolser, .trust, .pins, .power, .ripstop, .xft, .ethTx, .order, .snoops] ws) {z : State} (sid : Nat) (l : List WItem) (a : WAcc) (hk : Keeps ws z a.s) :
    Keeps ws z (l.foldl (writeItem sid) a).s := by
  induction l generalizing a with
  | nil => exact hk
  | cons x r ih => exact ih _ (keeps_writeItem (hw.mono (by decide)) hk _ _)
theorem keeps_applyWrite {ws : List FieldName} (hw : Among [.now, .mem, .ctrs, .queues, .parts, .vcs, .mus, .pipes, .slices, .dies, .ports, .serge, .pdies, .link, .vectors, .mailboxes, .rolser, .trust, .boot, .pins, .power, .ripstop, .xft, .ethTx, .order, .snoops] ws) {z s : State} (hk : Keeps ws z s) (sid : Nat) (l : List WItem) : Keeps ws z (applyWrite s sid l) := by
  unfold applyWrite; dsimp only
  split
  · exact keeps_runEnding (hw.mono (by decide)) (keeps_closeSessions (hw.mono (by decide)) (keeps_rolReply (hw.mono (by decide)) (keeps_writeItems (hw.mono (by decide)) _ _ _ hk) _ _ _) _) _
  · exact keeps_rolReply (hw.mono (by decide)) hk _ _ _

/-! ### Tick -/

theorem keeps_newSecond {ws : List FieldName} (hw : Among [.ports, .rolser] ws) {z s : State} (hk : Keeps ws z s) :
    Keeps ws z (newSecond s) := by
  unfold newSecond; try dsimp only
  repeat' (with_reducible first | exact hk | apply keeps_setPorts (hw.mono (by decide)) | apply keeps_setRolser (hw.mono (by decide))  | apply keeps_ite | intro _ _ hk | split)
theorem keeps_tick {ws : List FieldName} (hw : Among [.now, .draws, .mem, .ctrs, .queues, .parts, .slices, .dies, .ports, .link, .vectors, .rolser, .pins, .power, .ripstop, .ethTx, .order, .snoops] ws) {z s : State} (hk : Keeps ws z s) :
    Keeps ws z (tick s) := by
  unfold tick; try dsimp only
  repeat' (with_reducible first | exact hk | apply keeps_setNow (hw.mono (by decide)) | apply keeps_startRelock (hw.mono (by decide)) | apply keeps_endLowerWait (hw.mono (by decide)) | apply keeps_issuePlanned (hw.mono (by decide)) | apply keeps_collStep (hw.mono (by decide)) | apply keeps_lateStep (hw.mono (by decide)) | apply keeps_copyStep (hw.mono (by decide)) | apply keeps_wakePort (hw.mono (by decide)) | apply keeps_endPulse (hw.mono (by decide)) | apply keeps_newSecond (hw.mono (by decide)) | apply keeps_foldl  | apply keeps_ite | intro _ _ hk | split)

/-! ### Step -/


end Sys2Proof.Machine
end

