-- ==== Sys2Proof/Tests/Slice0.lean ====
section
/-! SUPPORT. Tests: ill-formed commands, a witness of the hypotheses of every statement, and worked examples of the spec. -/

namespace Sys2Proof.Tests

open Sys2Proof Sys2Proof.Machine

set_option Elab.async false

/-! ### States the tests stand on -/

/-- A partition with slice 0, 1 GiB of far memory, queues 0 to 15 and counters 0 to 63. -/
def alloc0 : Alloc := { slices := 1, farGib := 1, qbase := 0, qcount := 16, cbase := 0, ccount := 64 }
def part0 : Part := { st := .active, alloc := alloc0 }

/-- Start of SRAM of a partition's first slice (05 Table 05.1). -/
def sram0 : Nat := 0xF00000000000

/-- A command word: CLASS, KIND and the bits from 128 on (06 Table 06.2). -/
def cmd (cls kind body : Nat) : Nat := body * 2 ^ 128 + kind * 8 + cls

/-- Queue 0, ACTIVE, of this class, holds this command at HEAD; partition 0 is P. -/
def atHead (P : Part) (cls c : Nat) : State :=
  (State.reset.putPart 0 P).putQueue 0 { st := .active, cls := BitVec.ofNat 3 cls, tail := 1, front := some (BitVec.ofNat 512 c) }

/-- Queue 0 has started these commands. -/
def withStarted (P : Part) (rs : List Started) : State :=
  (State.reset.putPart 0 P).putQueue 0 { st := .active, head := 1, tail := 1, started := rs }

/-- The state a command answers. -/
def after (o : Host.Outcome State Fault Refusal) : State := match o with | .next t => t | _ => State.reset

theorem goesOn_of {v : Vc} {pc : Nat} (h : (v.prog[pc]?).any (fun y => opcodeKnown (iOpc y.toNat)) = true) : v.goesOn pc := by
  unfold Vc.goesOn; cases e : v.prog[pc]? with
  | none => simp [e] at h
  | some y => exact ⟨y, rfl, by simpa [e] using h⟩

/-! ### Ill-formed commands are refused by the check, one for each clause -/

theorem test_wf_micro : ∀ i ∈ [Instr.microEnd 0 0x08000000, .microMov 0 0, .microAdd 0 0, .microSub 0 0, .microMul 0 0, .microMulh 0 0,
    .microAddh 0 0, .microDiv 0 0, .microSqrt 0 0, .microSign 0 0, .microNeg 0 0, .microMax 0 0, .enc 0 0], i.wf = false := by
  decide +kernel
theorem test_wf_micro_ok : (Instr.microMov 0 0x08000000).wf = true ∧ (Instr.enc 0 0x60000000).wf = true := by decide +kernel
theorem test_wf_polls : (Instr.avsbusPoll [0]).wf = false ∧ (Instr.pmbusPoll [0]).wf = false
    ∧ (Instr.avsbusPoll [0, 0, 0, 0, 0]).wf = true := by decide +kernel
theorem test_wf_temps : (Instr.thermalStep 0 []).wf = false ∧ (Instr.hotstop [1]).wf = false ∧ (Instr.thermtrip [1]).wf = false
    ∧ (Instr.hotstop (List.replicate 80 25)).wf = true := by decide +kernel
theorem test_wf_tiers : (Instr.patrolScrub 3).wf = false ∧ (Instr.correctableError 3 0 0).wf = false ∧ (Instr.patrolScrub 2).wf = true := by
  decide +kernel
theorem test_wf_images : (Instr.romSecureBoot [] []).wf = false ∧ (Instr.romSecureBoot [[]] []).wf = false := by decide +kernel
theorem test_wf_companion : (Instr.companionImage (List.replicate 3 0) 0 0 []).wf = true
    ∧ ∀ l : Bytes, l.length = 0x4000000 → (Instr.companionImage l 0 0 []).wf = false :=
  ⟨by decide +kernel, fun l h => by simp [Instr.wf, h]⟩
theorem test_wf_lifecycle : (Instr.blankToProvisioned [] 0 [] []).wf = false ∧ (Instr.lcSeal [0]).wf = false ∧ (Instr.lcRma [0]).wf = false
    ∧ (Instr.lcSeal []).wf = true ∧ ∀ l : Bytes, l.length = 6145 → (Instr.rmaToProvisioned l).wf = false :=
  ⟨by decide +kernel, by decide +kernel, by decide +kernel, by decide +kernel, fun l h => by simp [Instr.wf, h]⟩

/-! ### Witnesses: every hypothesis of the statements is met -/

theorem wit_StepRunsTheFrontCommand : ({ State.reset with pending := [.alertClear, .nop 0] } : State).pending = .alertClear :: [.nop 0] := rfl
theorem wit_EmptyQueueTicks : State.reset.pending = [] ∧ (State.reset.setBoot { State.reset.boot with clocksOff := true }).boot.clocksOff = true :=
  ⟨rfl, rfl⟩
theorem wit_StepKeepsMemoryForm : (State.reset.setMem [(5, 1)]).memOk ∧ ∃ t, step (State.reset.setMem [(5, 1)]) = .next t :=
  ⟨by unfold State.memOk; decide +kernel, _, rfl⟩
theorem wit_FusesStayBlown : ∃ t, step State.reset = .next t := ⟨_, rfl⟩
theorem wit_TransportParametersStayInRange : State.reset.xft.inRange ∧ ∃ t, step State.reset = .next t :=
  ⟨by unfold Xft.inRange; decide +kernel, _, rfl⟩
theorem wit_MemoryReadAfterWrite : memWf [(3, 7), (9, 1)] = true := by decide +kernel
theorem wit_EveryCommandsFrame : ∃ t, exec (.age 0) State.reset = .next t := ⟨_, rfl⟩

theorem wit_S48Arithmetic : -(2 ^ 53) ≤ (2 ^ 53 - 1 : Int) ∧ (2 ^ 53 - 1 : Int) < 2 ^ 53 ∧ -(2 ^ 32) ≤ (2 ^ 32 - 1 : Int)
    ∧ (2 ^ 32 - 1 : Int) < 2 ^ 32 ∧ (511 : Int) ≠ -512 ∧ -511 ≤ (511 : Int) ∧ (511 : Int) ≤ 511 := by decide +kernel
theorem wit_EncodingBounds : (exactNan.cls = .nan) ∧ (∀ v ∈ [exactOf 0 5], v.cls = .fin ∧ v.m = 0) ∧ (exactOf 3 0).cls ≠ .nan
    ∧ (encodeGroup 8 [exactNan]).1 = 0xFF ∧ (if (0 : Nat) = 0 then (-7 : Int) else 0) ≤ 7 ∧ (7 : Int) ≤ 2 ^ (fmtBits 0 - 1) - 1
    ∧ (2 ^ 31 - 1 : Int) ≤ 2 ^ (fmtBits 3 - 1) - 1 := by decide +kernel

/-- The last slot of partition 0's tensor range, and an unaligned one. -/
theorem wit_AdderOperations : (State.reset.putPart 0 part0).running ∧ (State.reset.putPart 0 part0).calm ∧ (0x3FFFFFF8 : Nat) % 8 = 0
    ∧ writable ((State.reset.putPart 0 part0).part 0) 0x3FFFFFF8 8 = true ∧ ¬((0x40000000 : Nat) % 8 = 0 ∧ writable part0 0x40000000 8 = true) :=
  ⟨rfl, ⟨rfl, rfl⟩, by decide +kernel, by decide +kernel, by decide +kernel⟩

/-! ### Matrix and vector commands -/

/-- A MATMUL body: M, N, K on MU 0, S8 operands and output, descriptor of zeros at address 0 (03 Table 03.9). -/
def mat (m n k : Nat) : Nat := 2 ^ 48 + m * 2 ^ 56 + n * 2 ^ 88 + k * 2 ^ 112 + 2 ^ 136 + 2 ^ 141 + 2 ^ 146
def matC (cls m n k : Nat) : Nat := cmd cls 0x10 (mat m n k)

theorem wit_TilesCoverTheOutput : 0 < mM (matC 0 1 2 1) ∧ 1 < mN (matC 0 1 2 1) := by decide +kernel
theorem wit_MatmulStarts : ∀ c ∈ [matC 0 1 1 1, matC 0 0 1 1, matC 6 1 1 1, matC 0 1 1 0],
    (atHead part0 (hdrClass c) c).ready 0 0 c ∧ hdrKind c = 0x10 ∧ (hdrClass c = 0 ∨ hdrClass c = 6)
      ∧ (matValidate (atHead part0 (hdrClass c) c) 0 (targetSlice part0 c) c).1 = stOK := by
  unfold State.ready State.calm; decide +kernel
theorem wit_MatmulStarts_bad : (atHead part0 0 (cmd 0 0x10 0)).ready 0 0 (cmd 0 0x10 0)
    ∧ (matValidate (atHead part0 0 (cmd 0 0x10 0)) 0 0 (cmd 0 0x10 0)).1 ≠ stOK := by unfold State.ready State.calm; decide +kernel
theorem wit_MatmulStarts_mode : (musReady (atHead part0 0 (matC 0 1 1 1)) 0 (matC 0 1 1 1)).isSome = true
    ∧ ((atHead part0 0 (matC 0 1 1 1)).putMu 0 { quad := true }).ready 0 0 (matC 0 1 1 1)
    ∧ musReady ((atHead part0 0 (matC 0 1 1 1)).putMu 0 { quad := true }) 0 (matC 0 1 1 1) = none := by unfold State.ready State.calm; decide +kernel

/-- A fill command with one tile left; MU 0 holds it, or lacks every drain buffer. -/
def filling : State := withStarted part0 [{ cmd := BitVec.ofNat 512 (matC 6 1 1 1), work := .tiles [0] }]
theorem wit_FillModeAndPlanes : filling.running ∧ filling.calm ∧ ownerOf filling 0 = some 0 ∧ (fillCmd (filling.queue 0)).map Started.work = some (.tiles [0])
    ∧ fillQuad (filling.mu 0) = some 0 ∧ fillQuad ((filling.putMu 0 { bufs := 0 }).mu 0) = none ∧ (fillCmd ((withStarted part0 []).queue 0)).isNone = true
    ∧ (fillCmd (filling.queue 0)).map (fun r => (fillFits filling 0 0 0 r, fillFits filling 0 0 1 r, fillOutranked filling 0 0 0 0 r)) = some (true, false, false) := by
  unfold State.running State.calm; decide +kernel
theorem wit_FillModeAndPlanes_drain : drainOut filling 0 = false ∧ drainOut (filling.putMu 0 { bufs := 0xFE }) 0 = true := by decide +kernel
/-- Tile 0 of a matrix command waits on MU 0; a row of its plane may be loaded, and one whose credit is out may not. -/
def waitingTile (m : Mu) : State :=
  (withStarted part0 [{ cmd := BitVec.ofNat 512 (matC 0 1 1 1), work := .queued [0] }]).putMu 0 { m with queue := [{}] }
theorem wit_FillModeAndPlanes_planes : let s := waitingTile {}
    let c := matC 0 1 1 1
    s.running ∧ s.calm ∧ (headTile s 0 0).map (fun x => (x.1, x.2.1.cmd.toNat, x.2.2)) = some (0, c, 0) ∧ headTile s 0 1 = none
      ∧ (nextLoad (s.mu 0) 0 0 c).isSome = true ∧ mQuad c = false ∧ (tget ({} : PlaneInfo) (s.mu 0).info 0).rows = 0 ∧ cubeRows c = 8
      ∧ (s.mu 0).credits &&& creditMask false 0 0 0 = creditMask false 0 0 0
      ∧ ((waitingTile { credits := 0 }).mu 0).credits &&& creditMask false 0 0 0 ≠ creditMask false 0 0 0 := by
  unfold State.running State.calm; decide +kernel

/-- The R form and the M form of a vector instruction (04 Tables 04.2, 04.4). -/
def rForm (op w td ta tb imm : Nat) : Nat := op * 2 ^ 56 + w * 2 ^ 54 + td * 2 ^ 43 + ta * 2 ^ 38 + tb * 2 ^ 33 + imm
def endI : Nat := 2 ^ 56
/-- Core 0 runs this program for a vector command of queue 0. -/
def core (prog : List Nat) (v : Vc := {}) : State :=
  (withStarted part0 [{ cmd := 1, work := .vector }]).putVc 0 { v with prog := prog.map (BitVec.ofNat 64), run := some (0, 0) }

theorem wit_VectorControlRows : ∀ x ∈ [0, 0x02 * 2 ^ 56 + 2 ^ 52 + 5, 0x03 * 2 ^ 56 + 15 * 2 ^ 52 + 2 ^ 48 - 1, 0x04 * 2 ^ 56],
    (core [x, endI]).atInstr 0 (iOpc x) 0 0 0 1 x ∧ ((x / 2 ^ 56 = 3) ∨ iAs x = 0) := by unfold State.atInstr; decide +kernel
theorem wit_VectorControlRows_goesOn : ∀ x ∈ [0, 0x04 * 2 ^ 56], ((core [x, endI]).vc 0).goesOn 1 :=
  fun x h => goesOn_of (by revert x; decide +kernel)
/-- A LOOP that jumps to instruction 0, and one that jumps to the last. -/
theorem wit_VectorControlRows_loop : ∀ o ∈ [(0x04 * 2 ^ 56 + 2 ^ 52 + (2 ^ 48 - 1), 0), (0x04 * 2 ^ 56 + 2 ^ 52 + 1, 2)],
    let s := core [0, o.1, endI] { pc := 1, aregs := [(1, 1)] }
    s.atInstr 0 0x04 0 0 0 1 o.1 ∧ (s.vc 0).areg (iAd o.1) ≠ 0 ∧ (((s.vc 0).pc : Int) + iImm48 o.1) = o.2 ∧ o.2 < (s.vc 0).prog.length := by
  unfold State.atInstr; decide +kernel

theorem wit_VectorIntegerRows : ∀ op ∈ [0x20, 0x21, 0x22, 0x23, 0x24, 0x25, 0x26, 0x27, 0x28, 0x29, 0x2A, 0x2B, 0x2C],
    (core [rForm op 2 31 1 2 0, endI]).atInstr 0 op 0 0 0 1 (rForm op 2 31 1 2 0) ∧ rOk { ta := true, tb := true } (rForm op 2 31 1 2 0) = true := by
  unfold State.atInstr; decide +kernel
theorem wit_rows_goOn : ((core [0, endI]).vc 0).goesOn 1 := goesOn_of (by decide +kernel)
theorem wit_VectorPredicateRows : ∀ op ∈ [0x2E, 0x2F, 0x30, 0x84, 0x85, 0x86, 0x87],
    let x := rForm op 1 7 7 (if op = 0x87 then 0 else 7) 0
    (core [x, endI]).atInstr 0 op 0 0 0 1 x ∧ iTd x < 8 ∧ iTa x < 8 ∧ iTb x < 8 ∧ iIb x = false
      ∧ rOk { ta := true, tb := decide (op ≠ 0x87) } x = true := by unfold State.atInstr; decide +kernel
theorem wit_VectorRowOperations : ∀ o ∈ [(0x31, rForm 0x31 0 3 0 0 2, 3), (0x32, rForm 0x32 1 3 2 0 0xFE, 0xFF), (0x83, rForm 0x83 2 3 0 0 0xFE, 0xFF),
    (0x40, rForm 0x40 2 3 2 0 0x3FE + 2 ^ 48, 1024), (0x41, rForm 0x41 2 3 2 0 0x3FE + 2 ^ 48, 1024), (0x42, rForm 0x42 2 3 2 0 0x3FE + 2 ^ 48, 1024),
    (0x43, rForm 0x43 2 3 2 0 0x3FE + 2 ^ 48, 1024), (0x44, rForm 0x44 2 3 2 0 0x3FE + 2 ^ 48, 1024)],
    (core [o.2.1, endI]).atInstr 0 o.1 0 0 0 1 o.2.1 ∧ iImm o.2.1 < o.2.2 ∧ rOk { ta := decide (o.1 ≠ 0x31 ∧ o.1 ≠ 0x83), imm := true } o.2.1 = true
      ∧ (o.1 < 0x40 ∨ o.1 = 0x83 ∨ (iW o.2.1 = 2 ∧ iSgn o.2.1 = true ∧ bitsOf (iImm o.2.1) 4 0 ≤ 30)) := by
  unfold State.atInstr; decide +kernel
theorem wit_VectorRowOperations_more : ∀ o ∈ [(0x2D, rForm 0x2D 0 3 1 2 0 + 7 * 2 ^ 28), (0x33, rForm 0x33 0 3 1 0 0 + 2 ^ 48), (0x80, rForm 0x80 0 3 1 0 0),
    (0x82, rForm 0x82 0 3 1 2 0)], (core [o.2, endI]).atInstr 0 o.1 0 0 0 1 o.2
      ∧ rOk { ta := true, tb := decide (o.1 = 0x2D ∨ o.1 = 0x82), sel := decide (o.1 = 0x2D) } o.2 = true ∧ (o.1 = 0x33 → iSgn o.2 = true) := by
  unfold State.atInstr; decide +kernel
theorem wit_VectorReductions : ∀ op ∈ [0x60, 0x61, 0x62, 0x63, 0x64, 0x65, 0x66, 0x67], ∀ ax ∈ [0, 2 ^ 26],
    let x := rForm op 1 3 1 0 0 + ax
    (core [x, endI]).atInstr 0 op 0 0 0 1 x ∧ rOk { ta := true, axis := true } x = true ∧ (iAxis x = decide (ax ≠ 0)) := by
  unfold State.atInstr; decide +kernel
theorem wit_VectorMoves : ∀ o ∈ [(0x81, rForm 0x81 2 3 1 0 0), (0xC0, rForm 0xC0 0 3 28 0 2), (0xC0, rForm 0xC0 2 28 1 0 0), (0xC0, rForm 0xC0 1 31 1 0 1),
    (0xC1, rForm 0xC1 2 3 0 15 0)], (core [o.2, endI]).atInstr 0 o.1 0 0 0 1 o.2
      ∧ (o.1 = 0xC0 → rOk { ta := true, imm := true } o.2 = true ∧ iImm o.2 < 3 ∧ iTa o.2 + viewW (iImm o.2) / iWidth o.2 ≤ 32
        ∧ iTd o.2 + iWidth o.2 / viewW (iImm o.2) ≤ 32) ∧ (o.1 = 0xC1 → viewOk o.2 = true ∧ iTb o.2 < 16) := by
  unfold State.atInstr; decide +kernel
/-- LD and ST of plain S8 rows; GATHER and SCATTER of S32 rows in SRAM; LDEXP and STTAG. -/
theorem wit_VectorMemory : let v : Vc := { aregs := [(1, 0xF00000000000), (2, 128)] }
    let ld := 0xA0 * 2 ^ 56 + 3 * 2 ^ 43 + 2 ^ 39 + 2 * 2 ^ 35 + 2 ^ 25
    let st := 0xA1 * 2 ^ 56 + 3 * 2 ^ 43 + 2 ^ 39 + 2 * 2 ^ 35 + 2 ^ 25
    let s := core [ld, endI] v
    s.atInstr 0 0xA0 0 0 0 1 ld ∧ (core [st, endI] v).atInstr 0 0xA1 0 0 0 1 st ∧ ldstOk ld = true ∧ ldstOk st = true ∧ iZm st = false ∧ iB0 st = false
      ∧ iPred st = 0 ∧ iWidth ld = 8 ∧ memBits (iFmt ld) = 8 ∧ iTexp ld ≠ -128 ∧ liveRows (s.vc 0) ld = List.range 32
      ∧ (liveRows (s.vc 0) ld).findSome? (fun r => spanFault part0 (rowAlign (iFmt ld)) false (ldSpans (s.vc 0) ld r)) = none
      ∧ (∀ r ∈ liveRows (s.vc 0) st, mRow (s.vc 0) st r % rowAlign (iFmt st) = 0 ∧ writable part0 (mRow (s.vc 0) st r) 128 = true) := by
  unfold State.atInstr; decide +kernel
theorem wit_VectorMemory_index : let v : Vc := { aregs := [(1, 0xF00000000000), (2, 128)] }
    ∀ o ∈ [0xA2, 0xA3], let x := o * 2 ^ 56 + 2 ^ 55 + 3 * 2 ^ 43 + 2 ^ 39 + 2 * 2 ^ 35 + 4 * 2 ^ 30 + 3 * 2 ^ 25
    let s := core [x, endI] v
    s.atInstr 0 o 0 0 0 1 x ∧ indexOk x = true ∧ iTexp x = 0 ∧ iZm x = false ∧ indexRows (s.vc 0) x ≠ [] ∧ ∀ r ∈ indexRows (s.vc 0) x, inSram part0 r.2 = true := by
  unfold State.atInstr; decide +kernel
theorem wit_VectorMemory_goesOn : ∀ o ∈ [0xA0, 0xA1, 0xA2, 0xA3, 0xA4, 0xA5], ((core [o * 2 ^ 56, endI] { aregs := [(1, 0xF00000000000), (2, 128)] }).vc 0).goesOn (0 + 1) :=
  fun o h => goesOn_of (by revert o; decide +kernel)
/-- S16 memory into an S8 view: the row is encoded, not copied. -/
theorem wit_VectorMemory_encoded : let x := 0xA0 * 2 ^ 56 + 3 * 2 ^ 43 + 2 ^ 39 + 2 * 2 ^ 35 + 2 * 2 ^ 25
    let s := core [x, endI] { aregs := [(1, 0xF00000000000), (2, 256)] }
    s.atInstr 0 0xA0 0 0 0 1 x ∧ ldstOk x = true ∧ memBits (iFmt x) ≠ 4 ∧ ldCopies x = false
      ∧ (liveRows (s.vc 0) x).findSome? (fun r => spanFault part0 (rowAlign (iFmt x)) false (ldSpans (s.vc 0) x r)) = none := by unfold State.atInstr; decide +kernel
theorem wit_VectorMemory_tags : ∀ o ∈ [0xA4, 0xA5], let x := o * 2 ^ 56 + 3 * 2 ^ 43 + 2 ^ 39
    let s := core [x, endI] { aregs := [(1, 0x3FFFFFC0)] }
    s.atInstr 0 o 0 0 0 1 x ∧ tagFieldsOk x = true ∧ iZm x = false ∧ iW x = 0 ∧ iPred x = 0 ∧ readable part0 (mBase (s.vc 0) x) 32 = true
      ∧ writable part0 (mBase (s.vc 0) x) 64 = true := by unfold State.atInstr; decide +kernel
theorem wit_VectorEndings : (core [endI]).atInstr 0 0x01 0 0 0 1 endI ∧ (∀ m ∈ (core [endI]).vcs, m.1 = 0)
    ∧ (∃ m ∈ ((core [endI]).putVc 3 { run := some (0, 0) }).vcs, m.1 ≠ 0 ∧ m.2.run = some (0, 0) ∧ m.2.ended = false)
    ∧ ((core [endI]).queue 0).started.find? (fun r => r.idx = 0) = some { cmd := 1, work := .vector } := by unfold State.atInstr; decide +kernel
/-- A reserved bit set, and a drain write at the last byte of the last row of the last tile. -/
theorem wit_VectorEndings_illegal : ∀ op ∈ [0x20, 0x2C, 0x2E, 0x30, 0x82], let x := rForm op 2 3 1 2 0 + 2 ^ 25
    (core [x, endI]).atInstr 0 op 0 0 0 1 x ∧ rOk { ta := true, tb := true } x = false := by unfold State.atInstr; decide +kernel
def drained : State := State.reset.putVc 5 { inbox := [{ tile := 31, row := 31, col := 127, bytes := [7] }] }
theorem wit_VectorEndings_inbox : drained.running ∧ drained.calm ∧ (drained.vc 5).inbox = [{ tile := 31, row := 31, col := 127, bytes := [7] }]
    ∧ (drained.vc 5).run = none ∧ (∀ j < 6, (drained.mu j).queue = []) ∧ ((drained.modVc 5 fun v => { v with run := some (0, 0) }).vc 5).run ≠ none := by unfold State.running State.calm; decide +kernel
/-- A VPROG of one instruction on core 0 of slice 0: valid, busy, and with a mask of none. -/
def vprogC (mask : Nat) : Nat := cmd 1 0x10 (mask * 2 ^ 136 + 1 * 2 ^ 112 + 64 * 2 ^ 48)
def vprogS (mask : Nat) : State := (atHead part0 1 (vprogC mask)).setMem [(7, 1)]
theorem wit_VprogStarts : ∀ m ∈ [1, 15], (vprogS m).ready 0 0 (vprogC m) ∧ isKind 1 0x10 (vprogC m) = true ∧ (vValidate (vprogS m) 0 0 (vprogC m)).1 = stOK
    ∧ vcsOf 0 (vprogC m) ≠ [] ∧ (∀ n ∈ vcsOf 0 (vprogC m), ((vprogS m).vc n).run = none) := by unfold State.ready State.calm; decide +kernel
theorem wit_VprogStarts_first : (((List.range (vPlen (vprogC 1))).map fun i => BitVec.ofNat 64 ((vprogS 1).loadNat 0 (vProgAddr (vprogC 1) + 8 * i) 8))[0]?).map
      (fun y => opcodeKnown (iOpc y.toNat)) = some true ∧ ownerOf (vprogS 1) 0 = some 0 ∧ ((vprogS 1).queue 0).front = some (BitVec.ofNat 512 (vprogC 1))
    ∧ (((vprogS 1).putBlock clsVc 0 0 { due := true }).block clsVc 0 0).due = true := by decide +kernel
theorem wit_VprogStarts_else : (vprogS 0).ready 0 0 (vprogC 0) ∧ (vValidate (vprogS 0) 0 0 (vprogC 0)).1 ≠ stOK
    ∧ (vValidate ((vprogS 1).putVc 0 { run := some (1, 0) }) 0 0 (vprogC 1)).1 = stOK
    ∧ (((vprogS 1).putVc 0 { run := some (1, 0) }).vc 0).run.isSome = true := by unfold State.ready State.calm; decide +kernel

/-! ### Queues -/

/-- Two queues of one class and slice: queue 0 may start, queue 1 with a higher PRIO waits for its counter. -/
def twoQueues : State := (atHead part0 5 (cmd 5 3 0)).putQueue 1
  { st := .active, cls := 5, prio := 3, tail := 1, front := some (BitVec.ofNat 512 (cmd 5 0 (2 ^ 16))) }
theorem wit_StartableIsEligible : startable twoQueues 0 = some (0, cmd 5 3 0) ∧ 1 ∈ queuesOf twoQueues 0
    ∧ (twoQueues.queue 1).cls = (twoQueues.queue 0).cls ∧ (twoQueues.queue 0).prio.toNat < (twoQueues.queue 1).prio.toNat := by decide +kernel
theorem wit_StartableIsEligible_more : ∀ c ∈ [cmd 5 0 0, cmd 5 3 (2 ^ 0) + 2 ^ 28, matC 0 1 1 1],
    startable (atHead part0 (hdrClass c) c) 0 = some (0, c) := by decide +kernel
theorem wit_FrontEndOrder : cmdAuth part0 {} 0 0 (cmd 5 3 0) = false ∧ cmdAuth { part0 with keys := { subkey := some [1] } } { seqSpent := true } 0 0 0 = false
    ∧ headerCheck part0 { cls := 5 } (cmd 5 3 0) = true ∧ headerCheck part0 { cls := 4 } (cmd 5 3 0) = false :=
  ⟨by decide +kernel, by simp [cmdAuth], by decide +kernel, by decide +kernel⟩
theorem wit_CommonKindsComplete : ∀ c ∈ [cmd 5 0 63, cmd 5 0 64, cmd 5 3 0, cmd 5 3 1, cmd 5 1 (63 + 2 ^ 16), cmd 5 1 63, cmd 5 1 (64 + 2 ^ 16)],
    (atHead part0 5 c).ready 0 0 c := by unfold State.ready State.calm; decide +kernel
theorem wit_CommonKindsComplete_ok : let ok c := ctrIn part0 (fld c 141 128) = true ∧ fld c 175 144 ≠ 0 ∧ bodyClear c [(141, 128), (175, 144)] = true
    waitValid part0 (cmd 5 0 63) = true ∧ waitValid part0 (cmd 5 0 64) = false ∧ ok (cmd 5 1 (63 + 2 ^ 16)) ∧ ¬ok (cmd 5 1 63) ∧ ¬ok (cmd 5 1 (64 + 2 ^ 16)) := by
  decide +kernel
/-- A watch on counter 63, one on a counter outside the range; a counter one below the value and one below its end. -/
theorem wit_ArmedWatch : let s : State := (State.reset.putPart 0 { part0 with qpage := { armId := 63, armedId := 63, armed := true, armVal := 3 } }).setCtrs [(5, 2 ^ 64 - 1), (63, 2)]
    s.running ∧ s.calm ∧ ctrIn (s.part 0) 63 = true ∧ ctrIn (s.part 0) 64 = false ∧ (s.ctr 63).toNat < 3 ∧ ¬(s.ctr 63).toNat < 2
      ∧ (s.part 0).qpage.armed = true ∧ 3 ≤ ((addCtr s 0 63 1).ctr 63).toNat ∧ ¬3 ≤ ((addCtr s 0 62 1).ctr 63).toNat ∧ 2 ^ 64 - 1 < (s.ctr 5).toNat + 1 := by
  unfold State.running State.calm; decide +kernel
theorem wit_ArmedWatch_link : (State.reset.setLink { State.reset.link with st := 2 }).link.st = 2
    ∧ (let s := State.reset.putPart 0 { part0 with st := .resetting }; (s.part 0).st = .resetting
      ∧ queuesStopped ((queuesOf s 0).foldl (fun s q => finishReset s 0 q) s) 0 = true) := by decide +kernel
theorem wit_PauseAndResume : ∀ c ∈ [cmd 5 0x11 16, cmd 5 0x11 0, cmd 5 0x11 15, cmd 5 0x11 1, cmd 5 0x12 16, cmd 5 0x12 15, cmd 5 0x12 1],
    (atHead part0 5 c).ready 0 0 c ∧ hdrClass c = 5 := by unfold State.ready State.calm; decide +kernel
theorem wit_PauseAndResume_target : (atHead part0 5 0).queue 1 = {} ∧ queueIn part0 15 = true ∧ queueIn part0 16 = false
    ∧ ∀ st ∈ [QState.active, .pausing, .paused, .faulted], ((twoQueues.putQueue 1 { st := st }).queue 1).st = st
      ∧ ((atHead part0 5 (cmd 5 0x11 1)).putQueue 1 { st := st }).ready 0 0 (cmd 5 0x11 1) := by unfold State.ready State.calm; decide +kernel
theorem wit_PauseAndResume_completes : ∀ x ∈ [(QState.pausing, Work.done), (.active, .selfPause)],
    let s := (withStarted part0 [{ work := x.2 }]).modQueue 0 fun Q => { Q with st := x.1 }
    ownerOf s 0 = some 0 ∧ (s.queue 0).started = [{ work := x.2 }] ∧ (s.queue 0).cplRec = false ∧ (s.queue 0).st = x.1 ∧ faulting 0 = false := by
  decide +kernel
theorem wit_QueueControl : ∀ c ∈ [cmd 5 0x10 (1 + 4 * 2 ^ 68 + 6 * 2 ^ 148), cmd 5 0x10 1, cmd 5 0x13 1, cmd 5 0x13 0, cmd 5 0x13 16, cmd 5 0x15 (63 + 2 ^ 14),
    cmd 5 0x15 (63 + 2 * 2 ^ 14), cmd 5 0x15 0, cmd 5 0x14 (1 + 128 * 2 ^ 48), cmd 5 0x14 (1 + 64 * 2 ^ 48), cmd 5 0x14 (1 + 0x40000000 * 2 ^ 48)],
    (atHead part0 5 c).ready 0 0 c ∧ hdrClass c = 5 := by unfold State.ready State.calm; decide +kernel
theorem wit_QueueControl_ok : configOk part0 (4 * 2 ^ 48) 6 = true ∧ configOk part0 0 0 = false ∧ ctrIn part0 63 = true ∧ ctrIn part0 64 = false
    ∧ writable part0 128 128 = true ∧ writable part0 0x40000000 128 = false := by decide +kernel
theorem wit_OldestCommandCompletes : ∀ r ∈ ([{}, { status := stLIMIT }, { status := stINVALID }, { work := .tiles [0] }] : List Started),
    let s := withStarted part0 [r]
    s.calm ∧ ownerOf s 0 = some 0 ∧ (s.queue 0).st = .active ∧ (s.queue 0).started = [r] ∧ (s.queue 0).cplRec = false ∧ r.recTag = none
      ∧ pageSig r.cmd.toNat = false := by unfold State.calm; decide +kernel
/-- A doorbell past the range, with the same TAIL, one command further, and past the ring. -/
theorem wit_Doorbells : let s := (State.reset.putPart 0 part0).putQueue 15 { st := .active, ringLog2 := 4, tail := 3, head := 3 }
    let Q := s.queue 15
    let fits (t : BitVec 24) := (t - Q.head).toNat ≤ 2 ^ Q.ringLog2.toNat ∧ (t - Q.tail).toNat < 2 ^ 23
    s.running ∧ s.calm ∧ (s.part 0).st = .active ∧ Q.st ≠ .disabled ∧ (s.queue 16).st = .disabled ∧ fits 19 ∧ ¬fits 20 := by
  unfold State.running State.calm; decide +kernel

/-! ### Migration, updates and the step -/

/-- A MIGRATE body: OP, PAGES, ADDR, DIE 4 (05 Table 05.5). -/
def mig (op pages addr : Nat) : Nat := cmd 3 0x10 (addr + pages * 2 ^ 48 + op * 2 ^ 75 + 4 * 2 ^ 79)
theorem wit_MigrationStarts : ∀ op ∈ [1, 2, 3, 4, 5, 6], let c := mig op 512 0
    (atHead part0 3 c).ready 0 0 c ∧ isKind 3 0x10 c = true ∧ mgOp c = op ∧ (mgValidate part0 c).1 = stOK
      ∧ (mgValidate part0 (mig op 513 0)).1 = stADDRESS ∧ (mgValidate part0 (mig 7 1 0)).1 = stINVALID := by
  unfold State.ready State.calm; decide +kernel
/-- One request of each operation, of a page that is FAR, NEAR, or FAR with no frame left. -/
def asked (op : Nat) (P : Part) : State := withStarted P [{ cmd := BitVec.ofNat 512 (mig op 1 0), work := .pages [0] [] none [] }]
theorem wit_PageRequests : ∀ op ∈ [1, 2, 3, 4, 5, 6], ∀ P ∈ [part0, { part0 with pages := [(0, { st := .near, frame := some 0 })] }],
    let s := asked op P
    s.running ∧ s.calm ∧ (firstReady s 0 [] (pageReqsInOrder s 0)).map (fun x => (x.1, x.2.work)) = some (0, .pages [0] [] none []) := by
  unfold State.running State.calm; decide +kernel
theorem wit_PageRequests_full : let P : Part := { part0 with dict := { iwinFrames := 1471 }, pages := [(5, { st := .near, frame := some 0 })] }
    let s := asked 1 P
    placeFrames P 0 = 1 ∧ framesUsed P 0 = 1 ∧ victimOf P 0 = some 5
      ∧ (firstReady s 0 [] (pageReqsInOrder s 0)).map (fun x => (x.1, x.2.work)) = some (0, .pages [0] [] none []) := by decide +kernel
theorem wit_CopiesComplete : ∀ st ∈ [PageSt.promoting, .cleaning, .evicting],
    let s := State.reset.putPart 0 { part0 with pages := [(511, { st := st, frame := some 0, dirty := 0x80000000, cursor := 31, moving := true })] }
    s.running ∧ s.calm ∧ s.memOk ∧ inFlight (s.part 0) 511 = true ∧ nextToComplete s 0 511 = true ∧ (pageRec (s.part 0) 511).st = st := by
  unfold State.running State.calm State.memOk; decide +kernel

/-- An UPDATE: recipe, MOMS, rows, 128 columns, working copy S8 grouped by 32 (07 Table 07.3); descriptor at 0, all its
ranges in the front range of a pair. -/
def updC (r m rows : Nat) : Nat := cmd 2 0x10 (rows * 2 ^ 72 + 128 * 2 ^ 48 + m * 2 ^ 98 + r * 2 ^ 100 + 2 ^ 106 + 0x10 * 2 ^ 116)
def pairP : Part := { part0 with regions := [(0, { kind := .pair, front := 0x200000, back := 0x400000, npages := 1 })] }
def descBytes : Bytes := (List.range 16).flatMap fun i =>
  toLe 8 (if i = 9 ∨ i = 8 then 0x8000 else if i = 10 then 0x10000 else if i = 11 then 0x18000 else if i < 14 then 0x200000 + 0x1000 * i else 0)
def updS (c : Nat) : State := (atHead pairP 2 c).setMem (cells 0 descBytes |>.map fun e => (e.1, e.2))
theorem wit_UpdateStarts : ∀ o ∈ [(0, 1), (1, 2), (2, 1), (3, 1), (4, 0), (5, 0)], let c := updC o.1 o.2 1
    (updS c).ready 0 0 c ∧ isUpdate o.1 c = true ∧ readyUpdate (updS c) 0 o.1 = none ∧ pipeOf (updS c) pairP c = some 0 := by
  unfold State.ready State.calm; decide +kernel

theorem wit_UpdateStarts_valid : ∀ o ∈ [(0, 1), (1, 2), (2, 1), (3, 1), (4, 0), (5, 0)], (uValidate (updS (updC o.1 o.2 1)) 0 (updC o.1 o.2 1)).1 = stOK
    ∧ uIwin (updC o.1 o.2 1) = false ∧ uRows (updC o.1 o.2 0) = 0 ∧ (uValidate (updS (updC o.1 3 1)) 0 (updC o.1 3 1)).1 ≠ stOK := by decide +kernel
theorem wit_UpdateStarts_waiting : let c := updC 0 1 1 + 2 ^ 232
    let s := withStarted pairP [{ cmd := BitVec.ofNat 512 c, work := .iwin }]
    s.running ∧ s.calm ∧ (readyUpdate s 0 0).map (fun w => w.cmd.toNat) = some c ∧ ownerOf s 0 = some 0 ∧ uCmdOk c = true ∧ pipeDue s 0 c = false ∧ pipeOf s pairP c = some 0 ∧ (s.queue 0).st ≠ .resetting ∧ uIwin c = true := by
  unfold State.running State.calm; decide +kernel
theorem wit_UpdateStarts_no_pipe : pipeOf ((updS (updC 0 1 1)).putBlock clsPipe 0 0 { absent := true }) pairP (updC 0 1 1) = none
    ∧ pipeDue (updS (updC 0 1 1)) 0 (updC 0 1 1) = false := by decide +kernel

/-- Pipe 0 holds one group of one element, of queue 0's UPDATE. -/
def onPipe0 (c : Nat) : State :=
  (withStarted pairP [{ cmd := BitVec.ofNat 512 c, ukind := 3 }]).putPipe 0
    { regs := [[(3, 0), (1, 0), (5, 1)]], nans := [false], cmd := BitVec.ofNat 512 c, desc := BitVec.ofNat 1024 (leNat descBytes) }
theorem wit_MicroOperations : (pipeGroup (onPipe0 (updC 0 1 1)) 0).isSome = true ∧ (∀ op ∈ [1, 2, 3, 4, 5, 6, 7, 8, 9, 10, 11],
    (mopOf (op * 2 ^ 27 + 2 ^ 21)).op = op ∧ bitsOf (op * 2 ^ 27 + 2 ^ 21) 14 0 = 0) ∧ (1 : Int) ≠ 0 ∧ (2 ^ 62 : Nat) ≤ (2 ^ 62 : Int).natAbs := by decide +kernel
theorem wit_UpdateStores : (onPipe0 (updC 1 2 1)).calm ∧ (pipeGroup (onPipe0 (updC 1 2 1)) 0).isSome = true ∧ uMoms (updC 1 2 1) = 2
    ∧ uMoms (updC 0 1 1) = 1 ∧ bitsOf 0x60000000 31 27 = 0x0C ∧ bitsOf 0x60000000 14 0 = 0 ∧ bitsOf 0 31 27 = 0 := by
  unfold State.calm; decide +kernel
theorem wit_UpdateStores_held : let ws : List (Nat × Bytes) := [(0x400000, [1]), (0x600000, [2])]
    let s := withStarted { pairP with drain := some { held := [3] } } [{ work := .held ws }]
    s.running ∧ s.calm ∧ ownerOf s 0 = some 0 ∧ (s.queue 0).started = [{ work := .held ws }]
      ∧ ws.filter (fun w => heldPage (s.part 0) w.1) = [(0x600000, [2])] := by unfold State.running State.calm; decide +kernel

/-- LOSS and LATCH at an address inside, unaligned, and past the end. -/
theorem wit_LossAndLatch : ∀ kind ∈ [0x11, 0x12], ∀ a ∈ [0x3FFFFFF8, 4, 0x40000000], let c := cmd 2 kind a
    (atHead part0 2 c).ready 0 0 c ∧ pipeOf (atHead part0 2 c) part0 c = some 0 ∧ pipeDue (atHead part0 2 c) 0 c = false ∧ isKind 2 kind c = true := by unfold State.ready State.calm; decide +kernel
theorem wit_LossAndLatch_clauses : readable part0 0x3FFFFFF8 8 = true ∧ readable part0 0x40000000 8 = false ∧ bodyClear (cmd 2 0x11 8) [(175, 128)] = true
    ∧ bitsOf (2 ^ 40 - 1) 39 32 = 0xFF ∧ bitsOf 5 39 32 ≠ 0xFF := by decide +kernel
/-- COMMIT of step 0, counters 1 and 2, on a word of zeros and on one with a cause; of another step; and REFUSE. -/
def commitC (step : Nat) : Nat := cmd 2 0x13 (step * 2 ^ 48 + 1 * 2 ^ 96 + 2 * 2 ^ 110)
theorem wit_CommitGate : ∀ m ∈ [[], [(0, 1)]], let s := (atHead part0 2 (commitC 0)).setMem m
    s.ready 0 0 (commitC 0) ∧ pipeOf s part0 (commitC 0) = some 0 ∧ pipeDue s 0 (commitC 0) = false ∧ part0.verify = none ∧ isKind 2 0x13 (commitC 0) = true ∧ commitOk part0 (commitC 0) = true
      ∧ pairsMigrating part0 = false ∧ readable part0 0 8 = true ∧ commitOk part0 (commitC 1) = false
      ∧ ((BitVec.ofNat 16 (s.loadNat 0 0 8) &&& judgeMask part0) = 0 ↔ m = []) := by unfold State.ready State.calm; decide +kernel
theorem wit_CommitGate_refuse : ∀ n ∈ [0, 1], let c := cmd 2 0x14 (n * 2 ^ 48)
    (atHead part0 2 c).ready 0 0 c ∧ pipeOf (atHead part0 2 c) part0 c = some 0 ∧ pipeDue (atHead part0 2 c) 0 c = false ∧ isKind 2 0x14 c = true ∧ (n = 0 ↔ fld c 223 176 = 0) := by unfold State.ready State.calm; decide +kernel
/-- DREGION bodies: FRONT, BACK, pages, INDEX, OP (07 Table 07.5). -/
def dreg (front back pages index op : Nat) : Nat := cmd 2 0x15 (front + back * 2 ^ 48 + pages * 2 ^ 96 + index * 2 ^ 120 + op * 2 ^ 126)
theorem wit_RegionsStepAndPhase : ∀ c ∈ [dreg 0x200000 0x400000 1 63 0, dreg 0x200000 0x200000 1 0 0, dreg 0 0 511 0 1, dreg 0 0 512 0 2, dreg 0 5 1 0 3,
    cmd 2 0x16 (2 ^ 48 - 1), cmd 2 0x17 (5 + 1 * 8), cmd 2 0x17 (6 + 1 * 8), cmd 2 0x17 (2 * 8)],
    (atHead part0 2 c).ready 0 0 c ∧ pipeOf (atHead part0 2 c) part0 c = some 0 ∧ pipeDue (atHead part0 2 c) 0 c = false := by unfold State.ready State.calm; decide +kernel
theorem wit_RegionsStepAndPhase_clauses : let r c k := regionOk part0 c (regionOf part0 c k)
    r (dreg 0x200000 0x400000 1 63 0) .pair = true ∧ r (dreg 0x200000 0x200000 1 0 0) .pair = false ∧ r (dreg 0 0 512 0 1) .scratch = true
      ∧ r (dreg 0 0 513 0 1) .scratch = false ∧ r (dreg 0 5 1 0 3) .buddy = true ∧ tfind pairP.regions 0 ≠ none ∧ tfind part0.regions 0 = none
      ∧ (∀ e ∈ part0.regions, e.2.kind ≠ .pair) ∧ ¬(∀ e ∈ pairP.regions, e.2.kind ≠ .pair) ∧ maskSlices part0 1 = [0] ∧ sliceCount part0 = 1 := by decide +kernel

/-! ### Collectives -/

/-- A job of two ranks along x; this member is rank 0. -/
def job0 : Job := { x := 2, table := [(0, { valid := true }), (1, { valid := true })] }
def partJ : Part := { part0 with job := some job0 }

/-- A JOIN descriptor of one rank at address 0, its rank table at 64 with a valid entry (08 Tables 08.1, 08.2). -/
def joinMem : List Host.Cell := [(8, 64), (80, 1)]
/-- 0 a job, 1 an invalid descriptor, 2 an address that may not be read. -/
def jobKind (r : Except Nat (Option Job)) : Nat := match r with | .ok (some _) => 0 | .ok none => 1 | .error _ => 2
theorem wit_CollectiveStarts_join : let c := cmd 4 0x10 0
    let s := (atHead part0 4 c).setMem joinMem
    s.ready 0 0 c ∧ isKind 4 0x10 c = true ∧ part0.job = none ∧ jobKind (readJob s 0 0 0) = 0 ∧ jobKind (readJob s 0 0x40000000 0) = 2
      ∧ jobKind (readJob (s.setMem []) 0 0 0) = 1 ∧ bodyClear c [(175, 128), (191, 176)] = true := by unfold State.ready State.calm; decide +kernel
theorem wit_CollectiveStarts : ∀ c ∈ [cmd 4 0x11 0, cmd 4 0x12 0, cmd 4 0x13 0, cmd 4 0x13 1, cmd 4 0x14 (64 * 2 ^ 96 + 2 ^ 128), cmd 4 0x14 (64 * 2 ^ 96 + 2 * 2 ^ 128),
    cmd 4 0x14 0, cmd 4 0x15 0, cmd 4 2 (63 + 1 * 2 ^ 16 + 1 * 2 ^ 32), cmd 4 2 (2 * 2 ^ 16 + 1 * 2 ^ 32), cmd 4 2 0],
    (atHead partJ 4 c).ready 0 0 c ∧ (((atHead partJ 4 c).queue 0).started.find? fun r => r.work = .iwin && isKind 4 0x11 r.cmd.toNat) = none
      ∧ (atHead { partJ with job := none } 4 c).ready 0 0 c := by
  unfold State.ready State.calm; decide +kernel
/-- SLOTOPEN of 64 elements at address 0x100000 whose only contribution is this member's, with and without IWIN; and an invalid one. -/
def soC (len iwin : Nat) : Nat := cmd 4 0x11 (0x100000 + len * 2 ^ 96 + iwin * 2 ^ 221)
theorem wit_CollectiveStarts_slot : ∀ i ∈ [0, 1], let s := atHead partJ 4 (soC 64 i)
    s.ready 0 0 (soC 64 i) ∧ (soValidate s 0 (soC 64 i)).1 = stOK ∧ bitOf (soC 64 i) 349 = decide (i = 1) ∧ soAddr (soC 64 i) < 0xF00000000000
      ∧ (soValidate s 0 (soC 63 i)).1 ≠ stOK ∧ (s.queue 0).started = [] := by unfold State.ready State.calm; decide +kernel
/-- A CONTRIB of 64 elements from 0x1000 with CBUF at 0x2000 to rank 1; a FGATHER of one row from rank 1. -/
def ctC (owner : Nat) : Nat := cmd 4 0x12 (0x1000 + 0x2000 * 2 ^ 48 + owner * 2 ^ 112 + 64 * 2 ^ 128)
def fgC (rank dst : Nat) : Nat := cmd 4 0x15 (dst + 0x2000 * 2 ^ 48 + 0x200000 * 2 ^ 96 + 0x201000 * 2 ^ 144 + rank * 2 ^ 240 + 1 * 2 ^ 256 + 128 * 2 ^ 280
  + 1 * 2 ^ 304 + 0x10 * 2 ^ 309)
theorem wit_CollectiveStarts_more : (ctValidate partJ (ctC 1)).1 = stOK ∧ (ctValidate partJ (ctC 2)).1 ≠ stOK ∧ rankValid job0 1 = true ∧ rankValid job0 2 = false
    ∧ readable partJ 0 64 = true ∧ readable partJ 0x40000000 64 = false ∧ fgCols (fgC 1 0) = 128 ∧ fgFmt (fgC 1 0) = 1 ∧ ccwOk 1 (fgCcw (fgC 1 0)) = true
    ∧ groupOf (ccwMode (fgCcw (fgC 1 0))) ≠ 0 ∧ writable partJ (fgDst (fgC 1 0x3FFFFF80)) (fgBytes (fgC 1 0)) = true
    ∧ writable partJ (fgDst (fgC 1 0x3FFFFFC0)) (fgBytes (fgC 1 0)) = false ∧ fgFace (fgC 1 0) = partJ.stepNo.toNat := by decide +kernel
theorem wit_JobCommandsStart : ∀ c ∈ [cmd 4 0x16 (64 * 2 ^ 48 + 1 * 2 ^ 96), cmd 4 0x16 0, cmd 4 0x19 (1 * 2 ^ 48), cmd 4 0x19 (2 * 2 ^ 48), cmd 4 0x19 (0x40000000 + 2 ^ 48),
    cmd 4 0x17 0, cmd 4 0x17 1, cmd 4 0x17 0x40000000, cmd 4 0x17 (0x40000000 * 2 ^ 48), cmd 4 0x18 (1 * 2 ^ 48), cmd 4 0x18 0],
    (atHead partJ 4 c).ready 0 0 c ∧ ((atHead partJ 4 c).queue 0).started = [] ∧ (partJ.vote = none) ∧ (partJ.nextJob = none) := by
  unfold State.ready State.calm; decide +kernel
theorem wit_JobCommandsStart_next : jobKind (readJob ((atHead partJ 4 0).setMem joinMem) 0 0 1) = 0 ∧ jobKind (readJob (atHead partJ 4 0) 0 0 1) = 1
    ∧ jobKind (readJob (atHead partJ 4 0) 0 0x40000000 1) = 2 ∧ (1 : BitVec 16) = job0.epoch + 1 ∧ jobSize job0 = 2 := by decide +kernel

/-- Partition 0 has this message delivered, and slot 0 open with one contribution of rank 1. -/
def slot0 : Slot := { addr := 0x100000, len := 64, cmap := [0x00010001], timer := true }
def delivered (m : Msg) (S : Slot := slot0) (rs : List Started := []) : State :=
  withStarted { partJ with rx := [m], slots := [(0, S)] } rs
def isTaken (s : State) (opk : Nat) : Bool := (takeMsg s 0 fun m => m.opk.toNat = opk && true).isSome
theorem wit_OwnerMessages : ∀ opk ∈ [0x01, 0x03, 0x05, 0x10, 0x11, 0x13, 0x16], let s := delivered { opk := BitVec.ofNat 8 opk, src := 1 }
    s.running ∧ s.calm ∧ isTaken s opk = true := by unfold State.running State.calm; decide +kernel
/-- A claim granted, one held, one answered with a code. -/
theorem wit_OwnerMessages_claim : let P : Part := { partJ with slots := [(0, slot0)] }
    claimAnswer P job0 { opk := 1, src := 1, off := 64 } = .code 0 ∧ claimAnswer P job0 { opk := 1, src := 1, off := 64, slotId := 1 } = .held
      ∧ claimAnswer P job0 { opk := 1, src := 0, off := 64 } = .code 6 := by decide +kernel
/-- A grant, DATA of its only packet, and the last byte of a landing. -/
theorem wit_OwnerMessages_data : let S : Slot := { slot0 with granted := [(0, { src := 1 })] }
    let P : Part := { partJ with slots := [(0, S)] }
    let m : Msg := { opk := 3, src := 1, count := 64, payload := List.replicate 256 0 }
    grantFor P m = some (S, { src := 1 }) ∧ m.count.toNat = min 2048 (S.len - 0) ∧ m.payload.length = 4 * m.count.toNat
      ∧ landable P m 0x3FFFFFC0 64 = true ∧ landable P m 0x40000000 64 = false ∧ grantFor P { src := 0 } = none ∧ ctrIn P 63 = true ∧ ctrIn P 64 = false := by
  decide +kernel
theorem wit_OwnerMessages_gather : let g (f : Nat) : Msg := { opk := 0x13, src := 1, payload := toLe 48 (fgC 1 0 / 2 ^ 128 + f * 2 ^ 192) }
    let P : Part := { partJ with stepNo := 1, regions := [(0, { kind := .pair, front := 0x200000, back := 0x400000, npages := 1 })], greqs := [g 2] }
    gatherServe P (leNat (g 0).payload * 2 ^ 128) = .serve true ∧ gatherServe P (leNat (g 1).payload * 2 ^ 128) = .serve false
      ∧ gatherServe P (leNat (g 2).payload * 2 ^ 128) = .hold ∧ P.greqs[0]? = some (g 2)
      ∧ ({ P with greqs := [g 1] } : Part).greqs.findIdx? (fun m => gatherServe P (leNat m.payload * 2 ^ 128) ≠ .hold) = some 0 := by decide +kernel
theorem wit_OwnerMessages_timers : let S : Slot := { slot0 with granted := [(0, { src := 1 })] }
    let P := (delivered {} S).part 0
    tfind P.slots (slotKey 0 0) = some S ∧ S.timer = true ∧ S.st = .opened ∧ tfind S.granted 0 ≠ none ∧ 0 ∉ S.sealed ∧ S.resets ≠ 3
      ∧ ({ S with timer := false } : Slot).timer = false ∧ tfind slot0.granted 0 = none := by decide +kernel

/-- A started CONTRIB to rank 1 in each phase, with the message that answers it. -/
def sender (ph : ContribPhase) (m : Msg) : State :=
  delivered { m with src := 1 } slot0 [{ cmd := BitVec.ofNat 512 (ctC 1), work := .contrib ph 1 0 }]
theorem wit_SenderMessages : ∀ o ∈ [(0x06, ContribPhase.sealSent), (0x0A, .sealSent), (0x09, .waitCall), (0x07, .sealSent), (0x08, .waitCall), (0x02, .claimed), (0x04, .sending)],
    let s := sender o.2 { opk := BitVec.ofNat 8 o.1 }
    s.running ∧ s.calm ∧ (takeMsg s 0 fun m => m.opk.toNat = o.1 && (contribOf s 0 m (· = o.2)).isSome).isSome = true := by
  unfold State.running State.calm; decide +kernel
theorem wit_SenderMessages_lack : ∀ n ∈ [0, 1], let s := delivered { opk := 0x12, role := true, src := 1, payload := [n] } slot0 [{ cmd := BitVec.ofNat 512 (cmd 4 0x14 (64 * 2 ^ 96 + 2 ^ 128)), work := .lacks [(1, 0)] }];
    ((s.part 0).rx.head?.bind fun m => lackOf s 0 m).map (fun x => (x.1, x.2.work)) = some (0, .lacks [(1, 0)])
      ∧ ((s.part 0).rx.head?.map fun m => decide (m.exp ≠ secMark)) = some true ∧ isTaken s 0x12 = true := by decide +kernel
theorem wit_SenderMessages_gather : ∀ o ∈ [0x14, 0x15], let s := delivered { opk := BitVec.ofNat 8 o, src := 1, dst := 0x1000, payload := [1, 2] } slot0 [{ cmd := BitVec.ofNat 512 (fgC 1 0x1000), work := .gather 0 }];
    (takeMsg s 0 fun m => m.opk.toNat = o && (gatherOf s 0 m).isSome).isSome = true ∧ fgBytes (fgC 1 0x1000) = 128 ∧ writable partJ 0x1000 2 = true := by decide +kernel
/-- A BCAST that awaits rank 1, whose slot stands and has gone; a securing PUT's answer; a record that lands aside. -/
theorem wit_SenderMessages_shard : let m : Msg := { opk := 0x12, src := 1, payload := [1] }
    let s := delivered m slot0 [{ cmd := BitVec.ofNat 512 (cmd 4 0x13 0), work := .lacks [(1, 0)] }]
    (lackOf s 0 m).map (fun x => (x.1, x.2.work)) = some (0, .lacks [(1, 0)]) ∧ securing m = false ∧ tfind (s.part 0).slots (slotKey 0 0) ≠ none
      ∧ (s.modPart 0 fun P => { P with slots := [] }).running ∧ (lackOf (s.modPart 0 fun P => { P with slots := [] }) 0 m).isSome = true
      ∧ securing { m with role := true, exp := secMark } = true := by unfold State.running; decide +kernel
theorem wit_OwnerMessages_aside : let m : Msg := { opk := 0x10, role := true, exp := secMark, slotId := 0xFFFF, mbid := 0xFFFF, src := 1, dst := 0x200000, count := 1, payload := List.replicate 64 0 }
    let P : Part := { partJ with regions := [(0, { kind := .buddy, rank := 1, front := 0x200000, npages := 1 })] }
    securing m = true ∧ secName m = secRecord ∧ landable P m 0x200000 64 = true ∧ landable P { m with exp := 0 } 0x200000 64 = false
      ∧ landable P { m with src := 0 } 0x200000 64 = false ∧ (64 * m.count.toNat ≠ 0 ∧ m.payload.length = 64 * m.count.toNat) := by decide +kernel
theorem wit_SenderMessages_rsig : let s := delivered { opk := 0x17, src := 1 } slot0 [{ work := .rsignal 1 }];
    ((s.part 0).rx.head?.bind fun m => findCmd s 0 fun _ r => r.work = .rsignal m.src && names m 0 r).isSome = true := by decide +kernel
theorem wit_SenderMessages_vote : ∀ o ∈ [(0x20, false), (0x21, true)], let s := (delivered { opk := BitVec.ofNat 8 o.1, src := 1 }).modPart 0 fun P =>
      { P with vote := some { sent := o.2 } }
    isTaken s o.1 = true ∧ (s.part 0).job = some job0 ∧ (s.part 0).vote = some { sent := o.2 }
      ∧ (o.2 = false → voteAwait (s.part 0) = [1]) := by decide +kernel
theorem wit_SenderMessages_busy : let s := withStarted partJ [{ cmd := BitVec.ofNat 512 (ctC 1), work := .contrib .busy 0 0 }]
    ownerOf s 0 = some 0 ∧ (s.queue 0).started.find? (fun r => r.work = .contrib .busy 0 0) ≠ none := by decide +kernel

/-! ### Transport, ports, storage -/

/-- An IPv6 packet with a UDP datagram to this port, without a checksum; a frame of this destination and type. -/
def ip6 (port : Nat) (p : Bytes) : Bytes :=
  [0x60, 0, 0, 0] ++ toBe 2 (8 + p.length) ++ [17, 64] ++ List.replicate 32 0 ++ [3, 232] ++ toBe 2 port ++ toBe 2 (8 + p.length) ++ [0, 0] ++ p
def eframe (dst etype : Nat) (b : Bytes) : Bytes := withFcs (toBe 6 dst ++ List.replicate 6 0 ++ toBe 2 etype ++ b)
/-- An XFT packet of this type, whose key slot is 4. -/
def xftFrame (t : Nat) : Bytes := eframe 0 0x86DD (ip6 48720 (xhdrBytes { type := t, keyslot := 4, src := 1 } ++ List.replicate 16 0))
def kept1 : Pkt := { payload := [1, 2] }
def partT : Part := { partJ with conns := [(1, { retained := [kept1], msgs := [(0, 0, 0)], rxNew := [(0, false, 0)] })], reasm := [{ src := 1, msn := 7, mlen := 100 }], xslots := [(2, { leaving := true })] }
theorem wit_TransportPackets : ∀ t ∈ [1, 2, 3, 4, 9], let s := State.reset.putPart 0 { partT with ethRx := [(0, xftFrame t)] }
    s.running ∧ s.calm ∧ ((takeXft s 0 (fun x => if t = 9 then x ≠ 2 ∧ x ≠ 3 ∧ x ≠ 4 else x = t)).map fun x => (openXft x.2 0 x.1).isLeft) = some true := by
  unfold State.running State.calm; decide +kernel
theorem wit_TransportPackets_timers : let s := State.reset.putPart 0 partT
    (connOf s partT 1).retained = [kept1] ∧ (connOf s partT 2).retained = [] ∧ (partT.reasm.any fun R => R.src = 1 && R.msn = 7) = true
      ∧ (tget ({} : XftSlot) partT.xslots 2).leaving = true ∧ (tget ({} : XftSlot) partT.xslots 3).leaving = false := by decide +kernel
/-- DATA: a duplicate, a whole message, the first of two parts, and the part that completes a record. -/
theorem wit_TransportPackets_data : ∀ c ∈ [{}, { delivered := [5] }], let P : Part := { partJ with conns := [(1, c)] }
    let h : XHdr := { src := 1, msn := 5, mlen := 128, plen := 128 }
    ((5 : BitVec 32) ∈ (connOf (State.reset.putPart 0 P) P 1).delivered ↔ c = { delivered := [5] }) ∧ (h.moff = 0 ∧ h.plen = h.mlen)
      ∧ ¬({ h with plen := 64 }.plen = h.mlen) ∧ P.reasm.length < 4096
      ∧ 128 ≤ reasmGot { parts := [(0, List.replicate 64 0), (64, List.replicate 64 0)] } ∧ reasmGot { parts := [(64, List.replicate 64 0)] } < 128 := by decide +kernel
theorem wit_TransportPackets_round : let x := State.reset.xft; let c : Conn := { cwnd := 16777216 }
    8280 ≤ x.cwndMax.toNat ∧ c.ce = 0 ∧ x.cwndMax.toNat ≤ c.cwnd + x.ai.toNat ∧ c.rttMin ≤ 100 * x.delayTgt.toNat := by decide +kernel

/-- Port p in this state. -/
def portIn (p : Nat) (x : Port) : State := State.reset.putPort p x
theorem wit_EthernetPorts : ∀ p ∈ [0, 16], (portIn p { st := 1 }).running ∧ portUp (portIn p { st := 1 }) p = true ∧ portUp (portIn p { st := 4 }) p = true
    ∧ portUp (portIn p {}) p = false ∧ portClock (portIn p {}) p = true := by unfold State.running; decide +kernel
theorem wit_EthernetPorts_frames : let s := (portIn 0 { st := 1 }).putPart 0 partJ
    let good (dst t : Nat) := eframe dst t (ip6 48720 [])
    let f := good 5 0x86DD
    64 ≤ f.length ∧ fcsOk f = true ∧ fcsOk (spoilFcs f) = false ∧ frameType (good 5 0x8808) = 0x8808 ∧ frameType f ≠ 0x8808 ∧ f.length ≤ (s.port 0).maxFrame.toNat
      ∧ filterPart s 0 (frameDst f) = none ∧ filterMgmt s 0 (frameDst f) = false ∧ filterSpare s 0 (frameDst f) = false ∧ frameDst f ≠ macBroadcast ∧ frameDst f ≠ macLldp
      ∧ filterPart s 0 (frameDst (good 0 0x86DD)) = some 0 ∧ frameVlan f = (tget (0 : BitVec 16) partJ.dict.vlan 0).toNat
      ∧ frameVlan f ≠ (tget (0 : BitVec 16) [(0, (7 : BitVec 16))] 0).toNat
      ∧ (ipIn (frameType f) (frameBody f)).map (fun u => (u.frag, u.sumOk, u.dport)) = some (false, true, s.xft.udp.toNat) := by decide +kernel
/-- An ARP request for address 0, an LLDP frame. -/
theorem wit_EthernetPorts_control : let arp := eframe macBroadcast 0x0806 ([0, 1, 8, 0, 6, 4, 0, 1] ++ List.replicate 38 0)
    let lldp := eframe macLldp 0x88CC (List.replicate 46 0)
    let s := (portIn 3 { st := 1, ctrlRx := [(false, arp), (false, lldp)] }).setEthTx [(3, lldp)]
    ((takeControl s 3 fun f => isArpRequest f || isSolicit f).map Prod.fst) = some arp ∧ ((takeControl s 3 fun f => frameType f = 0x88CC).map Prod.fst) = some lldp
      ∧ s.ethTx.reverse.findIdx? (fun e => e.1 = 3) = some 0 ∧ (s.port 3).startRung.toNat < 5 ∧ 5 ≤ (5 : BitVec 8).toNat := by decide +kernel
theorem wit_EthernetPorts_steps : let x : Port := { st := 1, stepEn := 1, partnerStep := true, partnerEee := true, axis := 5, floor := some 1 }
    let s := (portIn 2 x).setNow 6000000000
    mayStepDown s 2 = some 1 ∧ mayStepDown (portIn 2 x) 2 = none ∧ ((portIn 2 { x with st := 4 }).port 2).st = 4 ∧ (s.port 2).lpi ≠ true
      ∧ eeeAllowed (portIn 2 x) 2 5 = true ∧ eeeAllowed s 16 0 = true ∧ eeeAllowed s 2 0 = false ∧ ((portIn 2 { x with st := 3 }).port 2).st = 3 := by decide +kernel

/-- A partition that holds STORKEY and STAGEKEY, queue pair 4 in RTS. -/
def partS : Part := { part0 with st := .active, keys := { storKey := some [1], stageKey := some [2], sealId := 1 }, qps := [(4, { st := 1, peer := 1, unacked := [{}] })] }
/-- SXFER of 256 bytes at 0 on queue pair 4; CXFER of 256 bytes. -/
def sxC (op bytes : Nat) : Nat := cmd 3 0x12 (bytes * 2 ^ 48 + 4 * 2 ^ 80 + op * 2 ^ 88)
theorem wit_StorageCommands : ∀ op ∈ [0, 1, 2, 6], let s := atHead partS 3 (sxC op 256)
    s.ready 0 0 (sxC op 256) ∧ isKind 3 0x12 (sxC op 256) = true ∧ (sxValidate s 0 (sxC op 256)).1 = stOK ∧ (storSeal partS).isSome = true
      ∧ (sxValidate s 0 (sxC op 0)).1 ≠ stOK ∧ (sxValidate s 0 (sxC op (2 ^ 30 + 256))).1 ≠ stOK := by unfold State.ready State.calm; decide +kernel
theorem wit_StorageCommands_cxfer : ∀ o ∈ [0, 1, 2, 3], let c := cmd 3 0x11 (256 * 2 ^ 112 + o * 2 ^ 144)
    (atHead partS 3 c).ready 0 0 c ∧ isKind 3 0x11 c = true ∧ cxOut c = decide (o % 2 = 1) ∧ cxSealed c = decide (2 ≤ o)
      ∧ ((cxValidate partS c).1 = stOK ↔ 2 ≤ o) ∧ (cxValidate partS (cmd 3 0x11 0)).1 ≠ stOK ∧ (stageSeal partS).isSome = true := by
  unfold State.ready State.calm; decide +kernel
/-- A live view that the target reads, and one that it writes; queue pairs of each state. -/
def viewS (w : Bool) : State := withStarted { partS with qps := [(4, { st := 1, peer := 1, unacked := [{}], bufs := [{ rkey := 9, len := 512, plain := 256, write := w, token := 0 }] }), (5, { peer := 1 }), (6, { st := 1, unacked := [{}], retries := 7 })] } [{ work := .expose 4 }]
theorem wit_StorageCommands_target : ∀ w ∈ [true, false], let s := viewS w
    s.running ∧ s.calm ∧ (bufOf s 0 4 9).map (fun b => (b.write, b.len)) = some (w, 512) ∧ bufOf s 0 4 8 = none ∧ (s.qp 0 4).st = 1
      ∧ ((s.qp 0 4).bufs.find? fun b => b.token = 0 && (bufCmd s 4 b).isSome).isSome = true ∧ (s.qp 0 4).unacked ≠ [] ∧ (s.qp 0 4).retries < 7
      ∧ 7 ≤ (s.qp 0 6).retries ∧ entriesLive (s.part 0) = true ∧ (s.qp 0 5).peer ≠ 0 ∧ (s.qp 0 5).st = 0 ∧ (s.qp 0 7).peer = 0 := by
  unfold State.running State.calm; decide +kernel
/-- A READ of 256 bytes whose only chunk is under way. -/
theorem wit_StorageCommands_read : let r : Started := { cmd := BitVec.ofNat 512 (sxC 0 256), work := .sread 4 1 1 0 [] }
    let s := withStarted partS [r]
    (s.queue 0).started.find? (fun y => y.idx = r.idx) = some r ∧ r.work = .sread 4 1 1 0 [] ∧ (storSeal (s.part 0)).isSome = true
      ∧ (([] : Bytes) ++ [1]).length < sealedChunk 256 0 ∧ sealedChunk 256 0 ≤ (([] : Bytes) ++ List.replicate (sealedChunk 256 0) 0).length
      ∧ writable (s.part 0) (sxDaddr (sxC 0 256) + 65536 * 0) 256 = true ∧ 0 + 1 = chunksOf (sxBytes (sxC 0 256)) := by decide +kernel
theorem wit_EthernetPorts_idle : let x : Port := { st := 1, eeeEn := 1, partnerEee := true, cur := 5 }
    let s := (portIn 2 x).setEthTx [(2, withFcs (List.replicate 60 0))]
    portUp s 2 = true ∧ (s.port 2).lpi = false ∧ eeeAllowed s 2 (s.port 2).cur = true ∧ fcsOk (s.ethTx.getD (s.ethTx.length - 1 - 0) (2, [])).2 = true
      ∧ s.ethTx.reverse.findIdx? (fun e => e.1 = 2) = some 0 ∧ portUp (portIn 2 { x with lpi := true, lpiHeld := [[1]] }) 2 = true := by decide +kernel

/-! ### Cerral Link, window, Rolser -/

/-- The link in L0 with these link slots received and this replay buffer. -/
def linkS (l : Link) : State := State.reset.setLink { l with st := 2 }
theorem wit_CerralLinkLayer : ∀ lop ∈ [1, 2, 3, 4, 5, 6], let s := linkS { slots := [slotOf lop 7 0 0 9 0], replay := [(6, []), (7, []), (8, [])], pmAsked := some 0, nakSame := 3, nakFsn := 9 }
    s.running ∧ s.calm ∧ s.link.slots.find? (fun y => y.toNat / 2 ^ 124 = lop) = some (slotOf lop 7 0 0 9 0) ∧ slFsn (slotOf lop 7 0 0 9 0).toNat = 7
      ∧ (∀ y ∈ [(6, ([] : Bytes))], y.1 ≠ (7 : BitVec 10)) ∧ s.link.slots.find? (fun y => y.toNat / 2 ^ 124 = lop + 1) = none := by
  unfold State.running State.calm; decide +kernel
theorem flitCrcOk_of (b : Bytes) (h : b.length = 244) : flitCrcOk (b ++ toLe 8 (crc64 b).toNat) = true := by
  have e : slice (b ++ toLe 8 (crc64 b).toNat) 244 8 = toLe 8 (crc64 b).toNat := by
    have l : (toLe 8 (crc64 b).toNat).length = 8 := toLe_length _ _
    simp only [slice, ← h, List.drop_left, List.take_of_length_le (Nat.le_of_eq l), l]; simp
  have := (crc64 b).isLt
  rw [flitCrcOk, e, ← h, List.take_left, leNat_toLe]
  simp only [decide_eq_true_eq]; omega
theorem crc64_zeros (n : Nat) : crc64 (List.replicate n 0) = 0 := by
  unfold crc64
  induction n with
  | zero => rfl
  | succ n ih => rw [List.replicate_succ, List.foldl_cons]; rw [show crc64Byte 0 0 = 0 by decide +kernel]; exact ih
theorem wit_CerralLinkLayer_flits : ∀ t ∈ [0, 1, 2, 3], ∃ b : Bytes, b.length = 244 ∧ fld (leNat ((b ++ toLe 8 (crc64 b).toNat).take 4)) 31 30 = t
    ∧ flitCrcOk (b ++ toLe 8 (crc64 b).toNat) = true :=
  fun t h => ⟨toLe 4 (t * 2 ^ 30 + 1) ++ List.replicate 240 0, by decide +revert +kernel, by revert t; decide +kernel, flitCrcOk_of _ (by decide +revert +kernel)⟩
theorem wit_CerralLinkLayer_badCrc : flitCrcOk (List.replicate 244 0 ++ toLe 8 1) = false := by
  have e : slice (List.replicate 244 (0 : Byte) ++ toLe 8 1) 244 8 = toLe 8 1 := by decide +kernel
  have f : (List.replicate 244 (0 : Byte) ++ toLe 8 1).take 244 = List.replicate 244 0 := by decide +kernel
  rw [flitCrcOk, e, f, crc64_zeros, leNat_toLe]; decide
theorem wit_CerralLinkLayer_header : headerOk (msgHeader { opc := 0x03, len := 1 }) = true ∧ dataSlots { opc := 0x03, len := 1 } = 0
    ∧ BitVec.ofNat 10 (fld (5 * 2 ^ 20) 29 20) ≠ 0 := by decide +kernel
theorem wit_CerralLinkLayer_training : trainWidth 0xFFFFFFFF 7 = some (0, 0) ∧ trainWidth 0xFFFF0000 7 = some (1, 16) ∧ trainWidth 0x0000FF00 7 = some (2, 8)
    ∧ trainWidth 0x7FFE7FFE 7 = none ∧ trainWidth 0xFFFFFFFF 6 = some (1, 0) ∧ trainWidth 0xFFFFFFFF 0 = none
    ∧ State.reset.pins.refCl = true ∧ State.reset.pins.cprstN = false ∧ State.reset.link.st ≠ 2 ∧ State.reset.link.retraining = false := by decide +kernel

/-- This message is the first received; queue pages are mapped. -/
def clIn (m : ClMsg) (l : Link := {}) (P : Part := part0) : State := ((State.reset.setLink { l with st := 2, rx := [m] }).setPins { State.reset.pins with cprstN := true }).putPart 0 P
theorem wit_CoherenceAndTarget : ∀ opc ∈ [0x01, 0x02, 0x03, 0x04, 0x05, 0x06, 0x07, 0x20, 0x21, 0x22, 0x23, 0x24, 0x25, 0x26, 0x27, 0x30, 0x31],
    let m : ClMsg := { opc := BitVec.ofNat 6 opc }
    let s := clIn m
    s.running ∧ s.calm ∧ s.snoops = [] ∧ s.pins.cprstN = true ∧ pickMsg opc (fun _ => true) [] s.link.rx = some (m, []) ∧ (∀ x ∈ s.link.rx, x.opc.toNat ≠ opc + 8) := by
  unfold State.running State.calm; decide +kernel
/-- A request, a transaction, a line in each state; a read of a sub-window that is allowed. -/
theorem wit_CoherenceAndTarget_tables : let l : Link := { reqs := [(0, .irq 3), (1, .own 5 0 0 0)], home := [{ line := 9, tag := 2 }, { line := 8, tag := 3, req := some {} }], cache := [(0, { st := .shared }), (1, { st := .exclusive }), (2, { st := .modified })] }
    let P : Part := { part0 with dict := { subwinEn := 1, subwinLen := 4096 } }
    let s := clIn {} {} P
    tfind l.reqs 0 = some (.irq 3) ∧ tfind l.reqs 1 = some (.own 5 0 0 0) ∧ tfind l.reqs 7 = none ∧ homeBusy l 9 = true ∧ homeBusy l 7 = false ∧ l.dir.length < dirEntries
      ∧ (l.home.find? fun h => h.tag = 2 && !h.done) = some { line := 9, tag := 2 } ∧ (l.home.find? fun h => h.tag = 4 && !h.done) = none
      ∧ ((l.home.find? fun h => h.tag = 3 && !h.done).bind HomeTx.req) = some {} ∧ (subStatus s subBase 64 1).1 = csOK ∧ (subWriteStatus s subBase 64 1).1 = csOK
      ∧ (subStatus s subBase 64 0).1 ≠ csOK ∧ (∀ e ∈ [(0, LineSt.shared), (1, .exclusive), (2, .modified), (3, .invalid)], (tget ({} : CacheLine) l.cache e.1).st = e.2) := by
  decide +kernel
/-- A full directory. -/
theorem wit_CoherenceAndTarget_full : let l : Link := { dir := List.replicate dirEntries (1, false) }
    ¬((∃ y ∈ l.dir, y.1 = 0) ∨ l.dir.length < dirEntries) ∧ l.dir.find? (fun y => !homeBusy l y.1) = some (1, false) := by
  refine ⟨?_, ?_⟩
  · rintro (⟨y, hy, h⟩ | h)
    · rw [List.eq_of_mem_replicate hy] at h; simp at h
    · simp at h
  · rw [show dirEntries = (dirEntries - 1) + 1 by decide +kernel, List.replicate_succ]; simp [homeBusy]
theorem wit_RegisterWindow : let s := clIn {} {} { part0 with dict := { subwinEn := 1, subwinLen := 4096 } }
    s.running ∧ s.calm ∧ admits s 0x1008 1 = some false ∧ admits s 0x1008 0 ≠ some false ∧ (unitRead s 0x1008).isSome = true ∧ (unitRead s 0x7FF8).isSome = false
      ∧ (unitRead s 0).isSome = true ∧ (unitRead s 0x10010).isSome = true ∧ vecMapped 63 = false ∧ vecMapped 0 = true ∧ (s.vec 0).pend = false ∧ readable part0 0 64 = true
      ∧ writable part0 0 64 = true ∧ (s.part 0).st = .active ∧ (4032 + 64 ≤ (4096 : Nat)) ∧ (s.mailbox 0).busy = false ∧ (s.mailbox 0).ready = false := by
  unfold State.running State.calm; decide +kernel
theorem wit_RegisterWindow_more : (({} : Link).bootOpen = false) ∧ (let s := (State.reset.putVec 3 { pend := true }).putMailbox 2 { ready := true, frags := [[1]] };
    (s.vec 3).pend = true ∧ (s.mailbox 2).ready = true ∧ (s.mailbox 2).frags = [1] :: [] ∧ ((s.putMailbox 2 { ready := true }).mailbox 2).frags = []) := by decide +kernel

/-- Session 5 of a role is open, and a message of a kind with the next SEQ is first in line. -/
def rolS (kind : Nat) (payload : Bytes := []) (role : Nat := 1) (P : Part := part0) : State :=
  (State.reset.setRolser { sessions := [(5, { role := role, opened := true, keyOut := [1], events := [(1, [2], 0)] })], msgs := [{ sid := 5, seq := 1, kind := BitVec.ofNat 8 kind, payload := payload }] }).putPart 0 P
theorem wit_RolserEndpoint : ∀ k ∈ [rkClose, rkRead, rkWrite, rkSubscribe, rkEventAck, rkPoll, rkAttest, rkKeyreq, rkKeyset, rkKeyload, rkHello, rkAuth], let s := rolS k
    s.running ∧ s.calm ∧ s.rolser.msgs.map (fun m => (m.kind.toNat, m.seq)) = [(k, 1)] ∧ hasSession s 5 = true ∧ (s.session 5).opened = true
      ∧ (1 : BitVec 64) = (s.session 5).lastSeq + 1 ∧ hasSession s 6 = false ∧ (s.session 5).events = (1, [2], 0) :: [] := by unfold State.running State.calm; decide +kernel
/-- Well-formed and malformed payloads of READ and WRITE: one item 0x1018:01. -/
theorem wit_RolserEndpoint_items : (readItems ([1, 0] ++ [0x18, 0x10, 1, 0])).isSome = true ∧ readItems [1] = none
    ∧ (writeItems 1 (toLe 2 0x2000 ++ [1, 0] ++ toLe 2 1 ++ [7])).isSome = true ∧ writeItems 1 [] = none := by decide +kernel
theorem wit_RolserEndpoint_keys : let P (st : PState) (k : Keys) : Part := { part0 with st := st, keys := k }
    (P .reserved {}).keys.kem = none ∧ (P .reserved { kem := some ([], []) }).keys.kem = some ([], []) ∧ (P .active {}).st ≠ .reserved
      ∧ (P .active { prk := some [1], wrapKey := some [2] }).keys.wrapKey = some [2] ∧ ¬(1 ≤ 17 ∧ 17 ≤ (16 : Nat)) := by decide +kernel
theorem wit_RolserEndpoint_hello : let p : Bytes := 18 :: List.replicate 1219 0
    let s := (rolS rkHello p).setBoot { State.reset.boot with romDone := true }
    rolserUp s = true ∧ p.length = 1220 ∧ (p.getD 0 0).toNat ≤ 18 ∧ s.rolser.helloSec < 8 ∧ rolserUp State.reset = false := by decide +kernel
theorem wit_RolserEndpoint_timers : let S : Session := { role := 1, opened := true, subs := [{ index := 0x1000, sub := 1, periodic := true }] }
    let s := State.reset.setRolser { sessions := [(5, S), (6, {})] }
    (s.session 5).opened = true ∧ (s.session 5).mbox = none ∧ (s.session 6).opened = false ∧ hasSession s 6 = true
      ∧ (S.subs.find? fun x => x.index = 0x1000 && x.sub = 1).isSome = true ∧ ∀ x ∈ S.subs, ¬(x.index = 0x1000 ∧ x.sub = 2) := by decide +kernel

/-! ### Resets, start-up, partitions -/

/-- A device in this life-cycle state. -/
def inLcs (n : BitVec 8) : State := State.reset.setTrust { State.reset.trust with lcs := n, rmaNonce := [1] }
theorem wit_ResetsAndLifeCycle : let r := State.reset
    r.running ∧ r.calm ∧ rising r.ports = true ∧ rising r.dies = true ∧ r.pins.sysrstN = true ∧ r.pins.porstN = true ∧ r.pins.refSys = true ∧ r.pins.cprstN = false
      ∧ (inLcs 1).trust.lcs = 1 ∧ (inLcs 1).trust.rmaCount < 7 ∧ (inLcs 1).trust.rmaNonce ≠ [] ∧ (inLcs 4).trust.lcs = 4 ∧ r.trust.lcs = 0 ∧ (0 : BitVec 128) = r.trust.serial
      ∧ (List.replicate 32 (0 : Byte)).length = 32 ∧ ([] : Bytes).length ≤ 6144 ∧ (inLcs 3).trust.lcs = 3 := by unfold State.running State.calm; decide +kernel
theorem wit_ResetsAndLifeCycle_pins : ∀ b ∈ [true, false], let s := State.reset.setPins { State.reset.pins with porstN := b, sysrstN := !b, refSys := b, cprstN := true, thermtripN := b }
    s.pins.porstN = b ∧ s.pins.sysrstN = (!b) ∧ s.pins.refSys = b ∧ s.pins.cprstN = true ∧ ((s.setBoot { s.boot with clocksOff := true }).boot.clocksOff = true) := by decide +kernel

/-- One image of no parts: nothing to verify; a good copy needs the signature's free value. -/
theorem wit_StartUpPinsAndTap : let s := State.reset
    s.running ∧ s.calm ∧ s.boot.state.toNat < 0x80 ∧ s.boot.romDone = false ∧ stepsAgree s = true ∧ strapsAgree s = true ∧ chosen s.trust [] = none
      ∧ chosen s.trust [[]] = none ∧ stepsAgree (s.putDie 1 { step := 1 }) = false ∧ strapsAgree (s.putDie 1 { strap := 7 }) = false := by
  unfold State.running State.calm; decide +kernel
theorem wit_StartUpPinsAndTap_stages : ∀ b ∈ [({ romDone := true, nearTrained := true, farTrained := true } : Boot), { nearTrained := true, nearBist := true, bistDone := true }, { wiped := true }, { calibrated := true }],
    let s := State.reset.setBoot b
    s.running ∧ s.boot.state.toNat < 0x80 ∧ s.pins.cprstN = false ∧ s.boot.imageBad = false ∧ s.link.boot = [] ∧ (b.nearTrained = true → b.wiped = false) := by
  unfold State.running; decide +kernel
theorem wit_StartUpPinsAndTap_pins : let s := (State.reset.setPins { State.reset.pins with trstN := false, pmbAlertN := true }).putPort 8 { st := 1 }
    s.running ∧ s.pins.trstN = false ∧ s.pins.pmbAlertN = true ∧ portUp s (8 * 1 + 0) = true ∧ (linkS {}).link.st = 2 := by unfold State.running; decide +kernel

/-- A READY, provisioned device; partition 3 FREE with a tenant key and an allotment of slice 3. -/
def createS (st : PState) : State :=
  ((State.reset.setBoot { State.reset.boot with state := 0, romDone := true }).setTrust { State.reset.trust with lcs := 1 }).putPart 3
    { st := st, tenantKey := [1], alloc := { slices := 8, farGib := 1, qbase := 4096, qcount := 4096, cbase := 64, ccount := 64 }, staged := { slices := 8, farGib := 1, qbase := 4096, qcount := 4096, cbase := 64, ccount := 64 } }
theorem wit_PartitionLifecycle : ∀ st ∈ [PState.free, .creating, .active, .resizing, .resetting, .destroying, .reserved], let s := createS st
    s.running ∧ s.calm ∧ s.memOk ∧ (s.part 3).st = st ∧ s.boot.state = 0 ∧ s.trust.lcs = 1 ∧ (s.part 3).tenantKey ≠ [] ∧ allotOk s 3 (s.part 3).staged = true
      ∧ (st = .active → ∀ q ∈ queuesOf s 3, (s.queue q).st = .disabled) := by unfold State.running State.calm State.memOk; decide +kernel
theorem wit_PartitionLifecycle_stopped : let s := createS .resetting
    queuesStopped ((queuesOf s 3).foldl (fun s q => finishReset s 3 q) s) 3 = true
      ∧ (let s := s.putQueue 4096 { st := .resetting, started := [{ work := .vector }] };
        queuesStopped ((queuesOf s 3).foldl (fun s q => finishReset s 3 q) s) 3 = false) := by decide +kernel

/-! ### Ripstop and power -/

theorem wit_RipstopCommands : State.reset.running ∧ State.reset.boot.state ≠ 0x00 ∧ (createS .free).boot.state = 0x00 ∧ canFence State.reset clsPipe 0 0 = true
    ∧ canFence State.reset clsPipe 0 200 = false ∧ atOnce clsPipe = false ∧ (∃ c, atOnce c = true) ∧ freeSpares State.reset clsPipe 0 ≠ [] ∧ (State.reset.block clsPipe 0 0).site = none
    ∧ (State.reset.block clsPipe 0 0).due = false := ⟨rfl, by decide +kernel, by decide +kernel, by decide +kernel, by decide +kernel, by decide +kernel, ⟨clsBank, by decide +kernel⟩,
      by decide +kernel, by decide +kernel, by decide +kernel⟩
/-- Pipe 2 of C-die 1: due; failed with a spare free, with none, with the only one lent; under test; on a borrowed spare. -/
theorem wit_RipstopCommands_blocks : let s (b : Block) := State.reset.putBlock clsPipe 1 2 b
    let site := siteOf State.reset clsPipe 1 2
    let sp := spareSites clsPipe
    let failed (u : List Nat) (b : Block) : State := (s b).setRipstop { State.reset.ripstop with fenceList := [(1, clsPipe, site)], usedSpares := u.map fun x => (1, clsPipe, x) }
    (s { due := true }).block clsPipe 1 2 = { due := true } ∧ atPoint (s { due := true }) clsPipe 1 2 = true ∧ servingFenced (s { due := true }) clsPipe 1 2 = false
      ∧ servingFenced (failed [] { due := true }) clsPipe 1 2 = true ∧ loanOut (failed [] { due := true }) clsPipe 1 = none ∧ freeSpares (failed [] { due := true }) clsPipe 1 ≠ []
      ∧ freeSpares (failed sp { due := true }) clsPipe 1 = [] ∧ canFence (failed [] {}) clsPipe 1 2 = false
      ∧ (loanOut ((failed sp { due := true }).putBlock clsPipe 1 3 { site := some 4, loan := true, testing := true }) clsPipe 1).isSome = true
      ∧ failedWaiting (s { testing := true, due := true }) clsPipe 1 < (freeSpares (s {}) clsPipe 1).length
      ∧ (freeSpares (failed sp { testing := true }) clsPipe 1).length ≤ failedWaiting (failed sp { testing := true }) clsPipe 1
      ∧ ((List.range (blockCount clsPipe 1)).find? fun i => ((s { testing := true, site := some 4, loan := true }).block clsPipe 1 i).testing
        && ((s { testing := true, site := some 4, loan := true }).block clsPipe 1 i).loan) = some 2
      ∧ (nextTest State.reset clsPipe 1).isSome = true ∧ (nextTest State.reset clsLane 1).isSome = true ∧ nextTest State.reset clsPipe 9 = none := by decide +kernel
/-- A bank of C-die 0, whose takeovers happen at once: free, mirrored, and under test on a borrowed spare. -/
theorem wit_RipstopCommands_banks : let s := State.reset.putBlock clsBank 0 3 { testing := true, site := some 90, loan := true }
    atOnce clsBank = true ∧ canFence State.reset clsBank 0 3 = true ∧ loanOut State.reset clsBank 0 = none
      ∧ (freeSpares State.reset clsBank 0).filter (· ≠ servingSite State.reset clsBank 0 3) ≠ [] ∧ (State.reset.block clsBank 0 3).loan = false
      ∧ ((List.range (blockCount clsBank 0)).find? fun i => (s.block clsBank 0 i).testing && (s.block clsBank 0 i).loan) = some 3
      ∧ (nextTest State.reset clsBank 0).isSome = true ∧ ([128 * 0 + 3] : List Nat).contains (128 * 0 + 3) = true := by decide +kernel
/-- An event that raises the risk to the evacuate threshold of a partition with a job. -/
theorem wit_RipstopCommands_evacuate : let s := (State.reset.putPart 0 partJ).setRipstop { State.reset.ripstop with evacTh := 1 }
    s.power.evacuate = false ∧ (ripEvent s 0x05 0 0 0 0 0).power.evacuate = true ∧ (s.part 0).job = some job0 ∧ (0x05 : Nat) < 0x20 := by decide +kernel
theorem wit_RipstopCommands_lanes : let x : SergeMod := { lost := 36, swapped := [1], warned := [2] }
    (1 ∈ x.swapped) ∧ 3 ∉ x.swapped ∧ 2 ∈ x.warned ∧ 3 ∉ x.warned ∧ (67 : Nat) < 68 ∧ 37 ≤ x.lost + 1 ∧ sergeWidth 36 ≠ sergeWidth 37 ∧ (State.reset.serg 0 0).lost < 4 := by decide +kernel
/-- A started command of queue 0, and a near page with a clean sector. -/
theorem wit_RipstopCommands_errors : let P : Part := { part0 with pages := [(1, { st := .near })] }
    let s := withStarted P [{ idx := 5, work := .vector }]
    s.running ∧ s.memOk ∧ ownerOf s 0 = some 0 ∧ ownerOf s 99 = none ∧ ((s.queue 0).started.find? fun r => r.idx = 5).isSome = true ∧ (∀ r ∈ (s.queue 0).started, r.idx ≠ 6)
      ∧ cleanNear P 0x200000 = some (1, 0) ∧ cleanNear P 0x600000 = none := by unfold State.running State.memOk; decide +kernel
/-- A command read from queue 0's ring and not started, whose slot or whose data is bad; and one that its front end ended. -/
def readS (f : BitVec 512) (rs : List Started := []) (none_ : Bool := false) : State :=
  (State.reset.putPart 0 part0).putQueue 0 { st := .active, ringAddr := 0x200000, ringLog2 := 4, head := 5, tail := 6, expSeq := 3, front := if none_ then none else some f, started := rs }
theorem wit_RipstopCommands_slot : let s := readS 9
    s.running ∧ s.calm ∧ ownerOf s 0 = some 0 ∧ (s.queue 0).started = [] ∧ (s.queue 0).head = 5 ∧ slotAddr (s.queue 0) 5 = 0x200140
      ∧ cleanNear (s.part 0) 0x200140 = none ∧ (s.queue 0).ringLoc = false := by
  unfold State.running State.calm; decide +kernel
theorem wit_RipstopCommands_ended : ∀ st ∈ [stAUTH, stINVALID], let r : Started := { idx := 4, status := st, atHead := true }
    let s := readS 9 [r] true
    (s.queue 0).front = none ∧ (s.queue 0).started.getLast? = some r ∧ r.recTag = none ∧ slotAddr (s.queue 0) 4 = 0x200100
      ∧ recordNext s 0 0 4 0x200100 = none ∧ cleanNear (s.part 0) 0x200100 = none := by decide +kernel
theorem wit_RipstopCommands_head : let s := readS (BitVec.ofNat 512 (cmd 0 0x10 0))
    ((s.queue 0).front.any fun c => runsWhole c.toNat) = true ∧ (∀ r ∈ (s.queue 0).started, r.idx ≠ 5) ∧ cleanNear (s.part 0) 0x300000 = none
      ∧ cleanNear { part0 with pages := [(1, { st := .near })] } 0x300000 = some (1, 16) := by decide +kernel
theorem wit_RipstopCommands_firewall : let s := State.reset.setPdies [(1, { window := List.replicate 15 7 })]
    let recent (d : Nat) := (tget ({} : Pdie) s.pdies d).window.filter fun c => s.now.toNat < c + 100000000
    (tget ({} : Pdie) s.pdies 1).fenced = false ∧ s.trust.fwLimit.toNat ≤ (recent 1).length + 1 ∧ ¬ s.trust.fwLimit.toNat ≤ (recent 0).length + 1
      ∧ ∀ e ∈ [(0, true), (1, false), (3, true), (3, false)], ¬(((e.1 : BitVec 2) = 0 ∧ e.2 = false) ∨ (e.1 = 1 ∧ e.2 = true) ∨ e.1 = 2) := by decide +kernel
/-- Far unit 7 is held alone; it has had three retries of row 9. -/
theorem wit_RipstopCommands_far : let s := (State.reset.putPart 0 { part0 with farUnits := [7] }).setRipstop { State.reset.ripstop with farRetries := [(7, (9, 3))] }
    (∃ k < 16, 7 ∈ (s.part k).farUnits) ∧ tget 0 s.ripstop.patrol 2 < 7 ∧ (tget (0, 0) s.ripstop.farRetries 7).1 = (9 : BitVec 32).toNat
      ∧ 3 < (tget (0, 0) s.ripstop.farRetries 7).2 + 1 ∧ ¬3 < (tget (0, 0) s.ripstop.farRetries 8).2 + 1 := ⟨⟨0, by decide +kernel⟩, by decide +kernel⟩

def temps (x : Byte) : Bytes := List.replicate 80 x
theorem wit_PowerManager : State.reset.running ∧ (∃ i < 80, 115 ≤ ((temps 115).getD i 0xFF).toNat ∧ (temps 115).getD i 0xFF ≠ 0xFF)
    ∧ (∀ i < 80, ((temps 114).getD i 0xFF).toNat < 115) ∧ (sliceTemps (temps 95) 3 ≠ []) ∧ (∀ y ∈ sliceTemps (temps 92) 3, y ≤ 92) ∧ (∃ y ∈ sliceTemps (temps 95) 3, 95 ≤ y)
    ∧ (∀ y ∈ (readTemps (temps 95)).map Prod.snd, y ≤ 95) ∧ (∃ y ∈ (readTemps (temps 105)).map Prod.snd, 105 ≤ y) ∧ State.reset.power.hotstop = false
    ∧ State.reset.power.coolSince = none := by unfold State.running; decide +kernel
/-- Slice 0 belongs to partition 0, with a change waiting, with a droop, slowed by heat. -/
def sliceS (x : Slice) (P : Part := part0) : State := (State.reset.putPart 0 P).putSlice 0 { x with owner := some 0, phase := 5 }
theorem wit_PowerManager_heat : let s := (sliceS { throttle := 1, heating := true, op := 5 }).modSlice 0 fun x => { x with phase := 0 }
    (s.slice 0).heating = true ∧ effective s 0 < 6 ∧ 6 ≤ effective (sliceS { throttle := 6 }) 0 ∧ (∃ y ∈ sliceTemps (temps 93) 0, 92 < y) ∧ (∀ y ∈ sliceTemps (temps 93) 0, y < 95)
      ∧ (s.setPower { s.power with hotstop := true }).power.hotstop = true := by decide +kernel
theorem wit_PowerManager_slices : let s := sliceS { change := some 4, op := 6 }
    (s.slice 0).owner = some 0 ∧ (s.slice 0).change = some 4 ∧ (s.slice 0).droop = false ∧ changeFree s (s.slice 0) = true ∧ changeFree s { droopEnd := some 0 } = false
      ∧ (s.slice 0).op ≠ 7 ∧ ((sliceS { droop := true }).slice 0).droop = true ∧ 0 < ((sliceS { throttle := 1 }).slice 0).throttle := by decide +kernel
theorem wit_PowerManager_shares : let s := sliceS { op := 4 }
    shareGroup s 0 = [0] ∧ (shareGroup s 0).head? = some 0 ∧ (s.part 0).st ≠ .free ∧ groupShare s (shareGroup s 0) = 59000 ∧ ((priorityOrder 0).reverse.find? (reducible s [0])).isSome = true
      ∧ (priorityOrder 0).find? (reduced s [0]) = none ∧ ((priorityOrder 0).find? (reduced (sliceS {} { part0 with opCap := 1 }) [0])).isSome = true
      ∧ (priorityOrder 0).reverse.find? (reducible (sliceS {} { part0 with opCap := 6, memPace := 1, linkPace := 1 }) [0]) = none := by decide +kernel
theorem wit_PowerManager_age : (0xFFFF : BitVec 16).toInt < 0 ∧ 10 < (11 : BitVec 16).toInt ∧ 0 ≤ (10 : BitVec 16).toInt ∧ (State.reset.die 0).trim ≤ 25 ∧ -25 ≤ (State.reset.die 0).trim
    ∧ (State.reset.die 0).slack24 < 23 ∧ (25 < ({ trim := 30 } : Die).trim) ∧ 23 ≤ ({ slack24 := 24 } : Die).slack24 := by decide +kernel
/-- An evaluation with no work counted: the partition's average, the leakage apart, is below its share. -/
theorem wit_PowerManager_evaluation : let s := sliceS { op := 4 } { part0 with opCap := 1 }
    s.running ∧ (s.part 0).st ≠ .free ∧ s.power.hotstop = false ∧ (shareGroup s 0).head? = some 0 ∧ averageMw { part0 with estimates := [60000] } = 60000
      ∧ groupShare s (shareGroup s 0) = 59000 ∧ averageMw part0 = 0 ∧ ¬100 * (59000 + 0) ≤ 98 * 59000 ∧ 100 * (57820 + 0) ≤ 98 * 59000 := by unfold State.running; decide +kernel
/-- The operator's session writes the cap of a READY device. -/
def capS (w : Nat) : State := (rolS rkWrite ([1, 0] ++ toLe 2 0x4000 ++ [0x01, BitVec.ofNat 8 tyU16] ++ toLe 2 2 ++ toLe 2 w) 0).setBoot { State.reset.boot with state := 0 }
theorem wit_PowerCapRange : ∀ w ∈ [349, 350, 950, 951], let s := capS w
    s.running ∧ s.calm ∧ s.rolser.msgs.map (·.kind.toNat) = [rkWrite] ∧ hasSession s 5 = true ∧ (s.session 5).opened = true ∧ (s.session 5).role = 0 ∧ s.boot.state = 0x00
      ∧ (s.rolser.msgs.map fun m => writeItems (leNat (m.payload.take 2)) (m.payload.drop 2)) = [some [{ index := 0x4000, sub := 0x01, ty := tyU16, value := toLe 2 w }]]
      ∧ leNat (toLe 2 w) = w := by unfold State.running State.calm; decide +kernel
/-- The write itself, on the device. -/
theorem test_PowerCap : (after (exec .write (capS 700))).power.cap = 700 ∧ (after (exec .write (capS 951))).power.cap = 950 := by decide +kernel

/-! ### Securing -/

def secS (opk : Nat) (d : Option Drain := none) : State :=
  withStarted { partJ with rx := [{ opk := BitVec.ofNat 8 opk, src := 1, payload := toLe 8 3 }], drain := d, secOk := [5] } []
theorem wit_SecuringCommands : ∀ opk ∈ [0x30, 0x31, 0x32, 0x33], let s := secS opk
    s.running ∧ s.calm ∧ isTaken s opk = true ∧ (takeMsg s 0 fun m => m.opk.toNat = opk + 4 && true).isNone = true ∧ (s.part 0).job = some job0 ∧ part0.job = none
      ∧ (s.part 0).drain = none ∧ (s.part 0).st = .active ∧ (1 : Nat) < jobSize job0 ∧ jobSize job0 ≤ 2 ∧ restoreFrom (s.part 0) = some 5 ∧ restoreFrom part0 = none := by
  unfold State.running State.calm; decide +kernel
theorem wit_SecuringCommands_newest : 3 ∉ ((secS 0x30).part 0).secOk ∧ (((secS 0x30).part 0).secOk.all fun x => decide (x.toNat < 6)) = true ∧ (6 : BitVec 48).toNat = 6
    ∧ coordOf ((secS 0x30).part 0) job0 = 0 := by decide +kernel
/-- A drain in each of its stages, and the period's limit. -/
theorem wit_SecuringCommands_drain : let s (d : Drain) := (secS 0x30 (some d)).setNow 6000000000
    (s {}).running ∧ ((s {}).part 0).drain = some {} ∧ storeOpen (s {}) 0 = false ∧ nextPage (s {}) 0 { pages := [3] } = some 3 ∧ nextPage (s {}) 0 { pages := [3], sent := [3] } = none
      ∧ ({ snapSent := true, fp := some 1, snapAck := true } : Drain).held = [] ∧ ((s {}).part 0).dict.buddy = 0xFFFF ∧ ownFeed (s {}) ≠ 1
      ∧ buddyGone ((s {}).part 0) { checked := true, toBuddy := true } = { checked := true, toBuddy := true } ∧ storeAcked (s {}) 0 = true
      ∧ ((s {}).part 0).dict.securePeriod.toNat * 100000000 ≤ (s {}).now.toNat - ((s {}).part 0).boundaryTime := by unfold State.running; decide +kernel
/-- A buddy, rank 1; and storage over queue pair 4. -/
theorem wit_SecuringCommands_targets : let P : Part := { partJ with dict := { buddy := 1 }, drain := some {} }
    (P.dict.buddy ≠ 0xFFFF ∧ ∀ J, P.job = some J → J.rank ≠ P.dict.buddy) ∧ neighbour P job0 1 = true ∧ neighbour partJ job0 1 = false
      ∧ storeOpen (State.reset.putPart 0 { partS with dict := { storeQp := 4 } }) 0 = true ∧ 2 * drainSize { pages := [3] } ≤ (0x8000000000 : BitVec 48).toNat ∧ (0 : BitVec 48).toNat < 2 * drainSize { pages := [3] } :=
  ⟨⟨by decide +kernel, by intro J h; cases h; decide +kernel⟩, by decide +kernel⟩
/-- The parts of the copy of step 5: a snapshot with nothing in it, and its record. -/
def parts5 : List (Bytes × BitVec 64) :=
  let b := snapImage { step := 5 }
  let r := toLe 32 (secRecImage { step := 5, rank := 0, complete := true }) ++ List.replicate 32 0
  [(b, BitVec.ofNat 64 b.length), (r, 64)]
theorem wit_SecuringCommands_restore : let s := secS 0x30
    (s.part 0).job.isSome = true ∧ fetchesPages (s.part 0) = false ∧ queuesStopped (resetAll s 0) 0 = true
      ∧ ((pulledOf ((refuseStep (resetAll s 0) 0 0).part 0) false parts5).map fun y => (y.snap.step, y.fp)) = some (5, some 0)
      ∧ pulledOf ((refuseStep (resetAll s 0) 0 0).part 0) false [] = none ∧ fetchesPages { partJ with fetch := [0x200000] } = true := by decide +kernel
/-- A member that hands over one page record, then none. -/
theorem wit_SecuringCommands_hand : ∀ l ∈ [[3], []], let s := State.reset.putPart 0 { partJ with handing := some (0, l) }
    s.running ∧ (s.part 0).st = .active ∧ (s.part 0).handing = some (0, l) := by unfold State.running; decide +kernel

/-! ### Worked examples of the spec -/

/-- 02, importing one binary32 block into BX8: scale, elements, flushes. -/
theorem test_bx8_block : let r := encodeGroup 8 ([(16384000, -14), (3, -2), (5, -1), (12, 0), (20, 0), (4, 0), (-36, 0)].map fun x => exactOf x.1 x.2)
    (r.1, r.2.1, r.2.2.flush, r.2.2.sat) = (0x82, [125, 0, 0, 2, 2, 0, -4], 3, 0) := by decide +kernel
/-- 02, the retry. -/
theorem test_group_retry : let r := encodeGroup 8 [exactOf 511 (-2), exactOf 1 (-1), exactOf (-5) (-2)]
    (r.1, r.2.1, r.2.2.flush) = (0x80, [64, 0, -1], 1) := by decide +kernel
/-- 02, plain S8 with T = -4. -/
theorem test_plain_s8 : ([(9, 0), (-257, -5), (-17, -1), (1, -5)].map fun x => encodePlain 8 (-4) (exactOf x.1 x.2)).map (fun r => (r.1, r.2.sat, r.2.flush))
    = [(127, 1, 0), (-128, 0, 0), (-128, 1, 0), (0, 0, 1)] ∧ (encodePlain 8 (-4) exactNan).2.nanIn = 1 := by decide +kernel
/-- 03, three partials in one slot, narrowed to plain S8. -/
theorem test_s48_slot : let a := s48Add (s48Add (s48Add (0, 0) 5 (-10)) 3 (-2)) 63 (-9)
    a = (224, -2) ∧ s48Img a.1 a.2 = 0xFF800000000000E0 ∧ (encodePlain 8 (-2) (exactOf 224 (-2 - 6))).1 = 4 := by decide +kernel
/-- 04, the XCG vector of zeros. -/
theorem test_xcg : xcg [0, 0, 0, 0] ⟨0, 0, 0, 0⟩ = 0x897C6984 + 0xB9E90E15 * 2 ^ 32 + 0x0AF3EA17 * 2 ^ 64 + 0x9654DFA6 * 2 ^ 96 := by decide +kernel
/-- 04, softmax: EXP2 of the scores, RCP of their sum. -/
theorem test_softmax : ([0, -16777216, -50331648].map fun x => (fnExp2 x 24 30).val) = [some 1073741824, some 536870912, some 134217728]
    ∧ (fnRcp 1744830464 30 30).val = some 660764199 := by decide +kernel
/-- 07, a loss six deviations above the mean. -/
theorem test_spike : let c := cmd 2 0x11 0
    let P : Part := { part0 with health := { lsN := 200, lsMean := 163840, lsVar := 10737418 } }
    let t := after (exec (.loss 0) ((atHead P 2 c).setMem [(0, 0xCD), (1, 0xCC), (2, 0x2C), (4, 107)]))
    (t.part 0).health.loss = 183501 ∧ (t.part 0).health.spike = true ∧ (t.part 0).health.lsMean = 163840 := by decide +kernel
/-- 07 R207: a byte of a new back range is open until an UPDATE writes it; another unit's write leaves it open. -/
theorem test_open_back : let R : Region := { front := 0, back := 0x200000, npages := 1 }
    let P := openBacks 0 wasAtStart [R] { part0 with regions := [(0, R)] }
    recView P 1 5 [7, 8] = [Config.openByte 0 0 (2 ^ 21 + 5), Config.openByte 0 0 (2 ^ 21 + 6)] ∧
    recView (defineBytes P true 0x200005 1) 1 5 [7, 8] = [7, Config.openByte 0 0 (2 ^ 21 + 6)] ∧
    recView (defineBytes P false 0x200005 1) 1 5 [7, 8] = recView P 1 5 [7, 8] := ⟨rfl, rfl, rfl⟩

end Sys2Proof.Tests
end

section
/-! PROOFS. The power cap (01 R21): what a write of its dictionary entry does, and what a WRITE request does to it. -/

namespace Sys2Proof.Machine
open Sys2Proof

theorem Keeps.frame {ws : List FieldName} {s t : State} (h : Keeps ws s t) : Frame ws s t := ⟨h.pending, h.same⟩

/-! ### Requests that a session's turn admits (14 R417, R418) -/

/-- Message m waits first of all, its session is open, and its SEQ is the session's next. -/
structure NextRequest (s : State) (m : RolMsg) (r : List RolMsg) : Prop where
  front : s.rolser.msgs = m :: r
  session : hasSession s m.sid.toNat = true
  opened : (s.session m.sid.toNat).opened = true
  seq : m.seq = (s.session m.sid.toNat).lastSeq + 1

/-- The state in which request m is served: m taken from the waiting messages, its SEQ noted, the kept response dropped. -/
def admitted (s : State) (m : RolMsg) (r : List RolMsg) : State :=
  putSession (s.setRolser { s.rolser with msgs := r }) m.sid.toNat { s.session m.sid.toNat with lastSeq := m.seq, kept := [] }

@[simp] theorem admitted_power (s : State) (m : RolMsg) (r : List RolMsg) : (admitted s m r).power = s.power := rfl
@[simp] theorem admitted_boot (s : State) (m : RolMsg) (r : List RolMsg) : (admitted s m r).boot = s.boot := rfl
@[simp] theorem session_putSession_same (s : State) (sid : Nat) (S : Session) : (putSession s sid S).session sid = S :=
  tget_tset_same _ _ _ _
@[simp] theorem admitted_session_role (s : State) (m : RolMsg) (r : List RolMsg) :
    ((admitted s m r).session m.sid.toNat).role = (s.session m.sid.toNat).role := by
  rw [admitted, session_putSession_same]

/-- The session's next request, of the kind asked for, is served in the state that admits it. -/
theorem onRequest_of_nextRequest {s : State} {m : RolMsg} {r : List RolMsg} (hs : s.running) (h : NextRequest s m r)
    (f : State → Nat → Session → RolMsg → State) :
    onRequest s m.kind.toNat f
      = f (admitted s m r) m.sid.toNat { s.session m.sid.toNat with lastSeq := m.seq, kept := [] } m := by
  obtain ⟨hfront, hsession, hopened, hseq⟩ := h
  have hclk : s.boot.clocksOff = false := hs
  have hhas : hasSession (s.setRolser { s.rolser with msgs := r }) m.sid.toNat = true := hsession
  have hopen : ((s.setRolser { s.rolser with msgs := r }).session m.sid.toNat).opened = true := hopened
  have hnext : m.seq = ((s.setRolser { s.rolser with msgs := r }).session m.sid.toNat).lastSeq + 1 := hseq
  unfold onRequest
  rw [hfront]
  dsimp only
  rw [if_neg (by simp [hclk]), if_neg (by simp [hhas, hopen]), if_pos hnext]
  rfl

theorem outcome_of_calm {s : State} (h : s.calm) (t : State) : outcome s t = .next t := by
  obtain ⟨hdir, hhome⟩ := h
  simp [outcome, noneHeld, hdir, hhome]

/-! ### WRITE requests (14 R418) -/

/-- The accumulator with which a WRITE's items are taken in turn. -/
def startWrite (s : State) : WAcc := { s := s, sts := [], ending := none }

/-- A WRITE that its session's turn admits answers the state its items leave. -/
theorem exec_write_of_nextRequest {s : State} {m : RolMsg} {r : List RolMsg} {l : List WItem} (hs : s.running) (hc : s.calm)
    (h : NextRequest s m r) (hkind : m.kind.toNat = rkWrite)
    (hitems : writeItems (leNat (m.payload.take 2)) (m.payload.drop 2) = some l) :
    exec .write s = .next (applyWrite (admitted s m r) m.sid.toNat l) := by
  change execWrite s = _
  rw [execWrite, outcome_of_calm hc, ← hkind, onRequest_of_nextRequest hs h]
  simp only [hitems]

@[simp] theorem rolReply_power (s : State) (sid kind : Nat) (b : Bytes) : (rolReply s sid kind b).power = s.power :=
  (keeps_rolReply (among_refl _) (keeps_refl _ s) sid kind b).same .power (by decide)
@[simp] theorem closeSessions_power (s : State) (f : Session → Bool) : (closeSessions s f).power = s.power :=
  (keeps_closeSessions (among_refl _) (keeps_refl _ s) f).same .power (by decide)

/-- A WRITE with a refused item leaves the power state as it was. -/
theorem applyWrite_power_of_refused {s : State} {sid : Nat} {l : List WItem}
    (h : (l.foldl (writeItem sid) (startWrite s)).sts.any (· ≠ 0x00) = true) : (applyWrite s sid l).power = s.power := by
  have hall : ¬(l.foldl (writeItem sid) (startWrite s)).sts.all (· = 0x00) = true := by simpa using h
  unfold applyWrite
  dsimp only
  rw [startWrite] at hall
  rw [if_neg hall, rolReply_power]

/-- A WRITE with no refused item and no reset to follow leaves the power state its last item leaves. -/
theorem applyWrite_power_of_accepted {s : State} {sid : Nat} {l : List WItem}
    (h : (l.foldl (writeItem sid) (startWrite s)).sts.all (· = 0x00) = true)
    (he : (l.foldl (writeItem sid) (startWrite s)).ending = none) :
    (applyWrite s sid l).power = (l.foldl (writeItem sid) (startWrite s)).s.power := by
  unfold applyWrite
  dsimp only
  rw [startWrite] at h he
  rw [if_pos h, he, startWrite, runEnding, closeSessions_power, rolReply_power]

/-! ### The entry of the cap (14 Table 14.8) -/

theorem writeCap_cap (s : State) (v : Nat) : (writeCap s v).power.cap = BitVec.ofNat 16 v := by
  unfold writeCap
  dsimp only
  split <;> rfl

theorem writeCap_cap_toNat (s : State) {v : Nat} (h : v ≤ 950) : (writeCap s v).power.cap.toNat = v := by
  rw [writeCap_cap, BitVec.toNat_ofNat]
  exact Nat.mod_eq_of_lt (by omega)

theorem writeEntry_cap (s : State) (sid : Nat) (b : Bytes) :
    writeEntry s sid .power 0x01 tyU16 b = within (350 ≤ leNat b ∧ leNat b ≤ 950) (writeCap s (leNat b)) := rfl

theorem writeEntry_cap_of_inRange (s : State) (sid : Nat) {b : Bytes} (h : 350 ≤ leNat b ∧ leNat b ≤ 950) :
    writeEntry s sid .power 0x01 tyU16 b = .ok (writeCap s (leNat b)) := by
  rw [writeEntry_cap, within, if_pos (decide_eq_true h)]

theorem writeEntry_cap_of_outOfRange (s : State) (sid : Nat) {b : Bytes} (h : ¬(350 ≤ leNat b ∧ leNat b ≤ 950)) :
    writeEntry s sid .power 0x01 tyU16 b = .error 0x04 := by
  rw [writeEntry_cap, within, if_neg (by simpa using h)]

/-! ### The operator's item for the cap -/

/-- The row of the cap. -/
def capRow : DRow := row 0x01 0x01 tyU16 "brr-"

/-- The item of a WRITE that names the cap. -/
def capItem (b : Bytes) : WItem := { index := 0x4000, sub := 0x01, ty := tyU16, value := b }

/-- The operator may write the cap of a READY device (14 R422, R424). -/
theorem access_cap_of_operator {s : State} {S : Session} (hboot : s.boot.state = 0x00) (hrole : S.role = 0) :
    access s S 0x4000 0x01 mayWrite false = .ok (.power, capRow) := by
  have hgrp : grpOf 0x4000 = some .power := by decide
  have hrow : rowOf .power 0x01 = some capRow := by decide
  have hright : rightOf capRow 0 = 'b' := by decide
  have hreach : reaches S .power 'b' = true := by simp [reaches, tenantOf, hrole]
  simp [access, hboot, hrole, hgrp, hrow, hright, hreach, mayWrite]

theorem capRow_ty : capRow.ty = tyU16 := rfl
theorem capRow_lens : capRow.lens = [2] := by decide

section
variable {s : State} {sid : Nat} {b : Bytes} (hboot : s.boot.state = 0x00) (hrole : (s.session sid).role = 0)
  (hlen : b.length = 2)
include hboot hrole hlen

theorem writeItem_capItem_of_ok {t : State} (h : writeEntry s sid .power 0x01 tyU16 b = .ok t) :
    writeItem sid (startWrite s) (capItem b) = { s := t, sts := [0x00], ending := none } := by
  have hacc := access_cap_of_operator hboot hrole
  simp [writeItem, startWrite, capItem, hacc, capRow_ty, capRow_lens, hlen, endingOf, h]

theorem writeItem_capItem_of_error {st : Nat} (h : writeEntry s sid .power 0x01 tyU16 b = .error st) :
    writeItem sid (startWrite s) (capItem b) = { s := s, sts := [st], ending := none } := by
  have hacc := access_cap_of_operator hboot hrole
  simp [writeItem, startWrite, capItem, hacc, capRow_ty, capRow_lens, hlen, endingOf, h]

/-- The range is the only test the operator's WRITE of the cap alone meets (01 R21). -/
theorem applyWrite_capItem :
    (applyWrite s sid [capItem b]).power.cap.toNat
      = if 350 ≤ leNat b ∧ leNat b ≤ 950 then leNat b else s.power.cap.toNat := by
  split
  case isTrue h =>
    have hitem := writeItem_capItem_of_ok hboot hrole hlen (writeEntry_cap_of_inRange s sid h)
    rw [applyWrite_power_of_accepted (by simp [hitem]) (by simp [hitem]), List.foldl_cons, List.foldl_nil, hitem]
    exact writeCap_cap_toNat s h.2
  case isFalse h =>
    have hitem := writeItem_capItem_of_error hboot hrole hlen (writeEntry_cap_of_outOfRange s sid h)
    rw [applyWrite_power_of_refused (by simp [hitem])]

end

/-- Settles O58: the entry's write is `within` the cap's range; a WRITE keeps the power state of its items only where none is
refused, and the operator's access to the cap of a READY device leaves the range as the one test. -/
theorem powerCapRange : Obligations.PowerCapRange := by
  unfold Obligations.PowerCapRange
  refine ⟨fun s sid b => ⟨fun h => ?_, fun hlo hhi => ?_⟩, ?_⟩
  · exact writeEntry_cap_of_outOfRange s sid (by omega)
  · exact ⟨_, writeEntry_cap_of_inRange s sid ⟨hlo, hhi⟩, writeCap_cap_toNat s hhi,
      (keeps_writeCap (among_refl _) (keeps_refl _ s) _).frame⟩
  · intro s m r l hs hc hfront hkind hsession hopened hseq hitems
    have hexec := exec_write_of_nextRequest hs hc ⟨hfront, hsession, hopened, hseq⟩ hkind hitems
    refine ⟨fun hany => ⟨_, hexec, applyWrite_power_of_refused hany⟩, fun b hlen hl hrole hboot => ⟨_, hexec, ?_⟩⟩
    subst hl
    exact applyWrite_capItem (s := admitted s m r) hboot ((admitted_session_role s m r).trans hrole) hlen

end Sys2Proof.Machine
end

section
/-! PROOFS. Encodings (02 R42, R43): which results encode_group has, the limits of encode_plain, and integers that it keeps. -/

namespace Sys2Proof.Machine
open Sys2Proof

/-! ### Magnitudes and patterns -/

/-- The largest magnitude of n-bit elements, as an integer (R42). -/
theorem cast_emax (n : Nat) : ((2 ^ (n - 1) - 1 : Nat) : Int) = 2 ^ (n - 1) - 1 := by
  rw [Nat.cast_pred (Nat.two_pow_pos _)]
  norm_cast

theorem signed_bounds (s : Bool) {m b : Nat} (h : m ≤ b) : -(b : Int) ≤ signed s m ∧ signed s m ≤ b := by
  cases s <;> simp only [signed, Bool.false_eq_true, if_true, if_false] <;> omega

@[simp] theorem signed_natAbs (x : Int) : signed (decide (x < 0)) x.natAbs = x := by
  by_cases h : x < 0 <;> simp only [signed, h, decide_true, decide_false, Bool.false_eq_true, if_true, if_false] <;> omega

/-- A value in units of its own exponent is its magnitude. -/
@[simp] theorem scaleTo_self (m : Nat) (q : Int) : scaleTo m q q = m := by simp [scaleTo]

/-- Two's complement of w bits gives back an integer in its range (00 R7). -/
theorem sext_pat {w : Nat} {x : Int} (hw : 0 < w) (hlo : -2 ^ (w - 1) ≤ x) (hhi : x < 2 ^ (w - 1)) : sext w (pat w x) = x := by
  obtain ⟨k, rfl⟩ := Nat.exists_eq_add_of_lt hw
  simp only [Nat.zero_add, Nat.add_sub_cancel] at hlo hhi
  have hpow : (2 : Nat) ^ (k + 1) = 2 * 2 ^ k := by rw [pow_succ, mul_comm]
  have hcast : (2 : Int) ^ k = ((2 ^ k : Nat) : Int) := by norm_cast
  have hpow' : (2 : Int) ^ (k + 1) = ((2 ^ (k + 1) : Nat) : Int) := by norm_cast
  rw [hcast] at hlo hhi
  simp only [sext, pat, Nat.zero_add, Nat.add_sub_cancel, hpow', hpow]
  generalize 2 ^ k = p at hlo hhi ⊢
  have hmod : (x % ((2 * p : Nat) : Int)).toNat = if x < 0 then (x + 2 * p).toNat else x.toNat := by
    split
    · rw [← Int.add_emod_right, Int.emod_eq_of_lt (by omega) (by omega)]
      push_cast
      rfl
    · rw [Int.emod_eq_of_lt (by omega) (by omega)]
  have hlt : (x % ((2 * p : Nat) : Int)).toNat < 2 * p := by rw [hmod]; split <;> omega
  rw [Nat.mod_eq_of_lt hlt, hmod]
  split <;> split <;> omega

/-! ### encode_group (R42) -/

/-- A scale exponent lies within the codes 0x00 to 0xFE. -/
theorem clampE_bounds (e : Int) : -127 ≤ clampE e ∧ clampE e ≤ 127 := by
  unfold clampE
  split
  · omega
  · split <;> omega

theorem encodeElem_bounds (emax : Nat) (e : Int) (v : Exact) :
    -(emax : Int) ≤ (encodeElem emax e v).1 ∧ (encodeElem emax e v).1 ≤ emax := by
  unfold encodeElem
  split
  · exact signed_bounds v.s le_rfl
  · dsimp only
    split
    · exact signed_bounds v.s le_rfl
    · exact signed_bounds v.s (by omega)

/-- A group of finite zeros has no value that could set its scale. -/
theorem leadOf_of_zeros : ∀ {vs : List Exact}, (∀ v ∈ vs, v.cls = .fin ∧ v.m = 0) → leadOf vs none = none
  | [], _ => rfl
  | v :: r, h => by
    have hv : ¬(v.cls = .fin ∧ v.m > 0) := fun hpos => by have := (h v List.mem_cons_self).2; omega
    rw [leadOf, if_neg hv]
    exact leadOf_of_zeros fun u hu => h u (List.mem_cons_of_mem v hu)

/-- What encode_group stores for a group in which nothing sets a scale: zeros. -/
def zeroElems (vs : List Exact) : List Int := vs.map fun _ => 0

@[simp] theorem length_zeroElems (vs : List Exact) : (zeroElems vs).length = vs.length := List.length_map _

theorem eq_zero_of_mem_zeroElems {vs : List Exact} {x : Int} (h : x ∈ zeroElems vs) : x = 0 := by
  obtain ⟨_, _, rfl⟩ := List.mem_map.1 h
  rfl

theorem encodeGroup_of_nan (n : Nat) {vs : List Exact} (h : ∃ v ∈ vs, v.cls = .nan) :
    encodeGroup n vs = (0xFF, zeroElems vs, { nanIn := vs.countP fun v => v.cls = .nan }) := by
  have hpos : vs.countP (fun v => v.cls = .nan) > 0 := List.countP_pos_iff.2 (by simpa using h)
  unfold encodeGroup
  dsimp only
  rw [if_pos hpos]
  rfl

theorem encodeGroup_of_zeros (n : Nat) {vs : List Exact} (h : ∀ v ∈ vs, v.cls = .fin ∧ v.m = 0) :
    encodeGroup n vs = (0x00, zeroElems vs, {}) := by
  have hnan : ¬vs.countP (fun v => v.cls = .nan) > 0 := by
    rw [gt_iff_lt, List.countP_pos_iff]
    rintro ⟨v, hv, hc⟩
    simp [(h v hv).1] at hc
  have hinf : ¬vs.any (fun v => v.cls = .inf) = true := by
    rw [List.any_eq_true]
    rintro ⟨v, hv, hc⟩
    simp [(h v hv).1] at hc
  unfold encodeGroup
  dsimp only
  rw [if_neg hnan, if_neg hinf, leadOf_of_zeros h]
  rfl

/-- A group without a NaN is stored as zeros under code 0x00, or element by element under a scale exponent of -127 to 127. -/
theorem encodeGroup_cases (n : Nat) {vs : List Exact} (h : ¬∃ v ∈ vs, v.cls = .nan) :
    encodeGroup n vs = (0x00, zeroElems vs, {}) ∨
    ∃ (e : Int) (ev : Evt), -127 ≤ e ∧ e ≤ 127 ∧
      encodeGroup n vs = ((e + 127).toNat, vs.map fun v => (encodeElem (2 ^ (n - 1) - 1) e v).1, ev) := by
  have hnan : ¬vs.countP (fun v => v.cls = .nan) > 0 := by simpa [List.countP_pos_iff] using h
  unfold encodeGroup
  dsimp only
  rw [if_neg hnan]
  split
  case h_1 => exact .inl rfl
  case h_2 e he =>
    obtain ⟨hlo, hhi⟩ : -127 ≤ e ∧ e ≤ 127 := by
      split at he
      · cases he
        decide
      · obtain ⟨k, -, rfl⟩ := Option.map_eq_some_iff.1 he
        exact clampE_bounds _
    exact .inr ⟨e, _, hlo, hhi, by rw [List.map_map]; rfl⟩

theorem encodeGroup_length (n : Nat) (vs : List Exact) : (encodeGroup n vs).2.1.length = vs.length := by
  by_cases hnan : ∃ v ∈ vs, v.cls = .nan
  · simp [encodeGroup_of_nan n hnan]
  · obtain h | ⟨e, ev, -, -, h⟩ := encodeGroup_cases n hnan <;> simp [h]

theorem encodeGroup_bounds (n : Nat) (vs : List Exact) {x : Int} (hx : x ∈ (encodeGroup n vs).2.1) :
    -((2 ^ (n - 1) - 1 : Nat) : Int) ≤ x ∧ x ≤ ((2 ^ (n - 1) - 1 : Nat) : Int) := by
  have hzero : x ∈ zeroElems vs → -((2 ^ (n - 1) - 1 : Nat) : Int) ≤ x ∧ x ≤ ((2 ^ (n - 1) - 1 : Nat) : Int) := fun h => by
    rw [eq_zero_of_mem_zeroElems h]
    omega
  by_cases hnan : ∃ v ∈ vs, v.cls = .nan
  · rw [encodeGroup_of_nan n hnan] at hx
    exact hzero hx
  · obtain h | ⟨e, ev, -, -, h⟩ := encodeGroup_cases n hnan <;> rw [h] at hx
    · exact hzero hx
    · obtain ⟨v, -, rfl⟩ := List.mem_map.1 hx
      exact encodeElem_bounds _ e v

/-- The NaN code 0xFF marks the groups that hold a NaN and no other (R42, R44). -/
theorem encodeGroup_code_iff (n : Nat) (vs : List Exact) : (encodeGroup n vs).1 = 0xFF ↔ ∃ v ∈ vs, v.cls = .nan := by
  refine ⟨fun hcode => by_contra fun hnan => ?_, fun hnan => by rw [encodeGroup_of_nan n hnan]⟩
  obtain h | ⟨e, ev, hlo, hhi, h⟩ := encodeGroup_cases n hnan <;> rw [h] at hcode
  · cases hcode
  · dsimp only at hcode
    omega

/-! ### encode_plain (R43) -/

/-- The upper saturation limit of plain n-bit elements. -/
def plainHi (n : Nat) : Int := 2 ^ (n - 1) - 1

/-- The lower saturation limit of plain n-bit elements. -/
def plainLo (n : Nat) : Int := if n = 4 then -7 else -2 ^ (n - 1)

theorem plainLo_le_plainHi (n : Nat) : plainLo n ≤ plainHi n := by
  have hpow : (0 : Int) < 2 ^ (n - 1) := by positivity
  unfold plainLo plainHi
  split
  case isTrue h => subst h; decide
  case isFalse => omega

/-- The lower limit as encode_plain computes it. -/
theorem plainLo_eq (n : Nat) : (if n = 4 then -7 else -(2 ^ (n - 1) - 1 : Int) - 1) = plainLo n := by
  unfold plainLo
  split <;> omega

theorem encodePlain_of_nan (n : Nat) (t : Int) {v : Exact} (h : v.cls = .nan) :
    encodePlain n t v = (if n = 4 then 8 else 0, { nanIn := 1 }) := by
  simp only [encodePlain, h]

theorem encodePlain_of_inf (n : Nat) (t : Int) {v : Exact} (h : v.cls = .inf) :
    encodePlain n t v = (if v.s then plainLo n else plainHi n, { sat := 1 }) := by
  simp only [encodePlain, h, plainLo_eq, plainHi]

theorem encodePlain_of_fin (n : Nat) (t : Int) {v : Exact} (h : v.cls = .fin) :
    encodePlain n t v =
      if signed v.s (scaleTo v.m v.q t) > plainHi n then (plainHi n, { sat := 1 })
      else if signed v.s (scaleTo v.m v.q t) < plainLo n then (plainLo n, { sat := 1 })
      else (signed v.s (scaleTo v.m v.q t),
        { flush := if signed v.s (scaleTo v.m v.q t) = 0 ∧ v.m > 0 then 1 else 0 }) := by
  unfold encodePlain
  rw [h]
  dsimp only
  rw [plainLo_eq]
  rfl

theorem encodePlain_bounds (n : Nat) (t : Int) {v : Exact} (h : v.cls ≠ .nan) :
    plainLo n ≤ (encodePlain n t v).1 ∧ (encodePlain n t v).1 ≤ plainHi n := by
  have hle := plainLo_le_plainHi n
  cases hc : v.cls with
  | nan => exact absurd hc h
  | inf =>
    rw [encodePlain_of_inf n t hc]
    cases v.s
    · exact ⟨hle, le_rfl⟩
    · exact ⟨le_rfl, hle⟩
  | fin =>
    rw [encodePlain_of_fin n t hc]
    split
    · exact ⟨hle, le_rfl⟩
    · split
      · exact ⟨le_rfl, hle⟩
      · dsimp only
        omega

/-- An integer within the limits is stored as it is, without an event. -/
theorem encodePlain_exactOf {n : Nat} (t : Int) {x : Int} (hlo : plainLo n ≤ x) (hhi : x ≤ plainHi n) :
    encodePlain n t (exactOf x t) = (x, {}) := by
  have hval : signed (exactOf x t).s (scaleTo (exactOf x t).m (exactOf x t).q t) = x := by simp [exactOf]
  have hflush : ¬(x = 0 ∧ (exactOf x t).m > 0) := by
    rintro ⟨rfl, hm⟩
    simp [exactOf] at hm
  rw [encodePlain_of_fin n t rfl, hval, if_neg (by omega), if_neg (by omega), if_neg hflush]

/-- The pattern of an S4 value within the limits is never the NaN code 0b1000 (R43). -/
theorem pat_four_ne_nan {x : Int} (hlo : plainLo 4 ≤ x) (hhi : x ≤ plainHi 4) : pat 4 x ≠ 8 := by
  have hlo' : -7 ≤ x := hlo
  have hhi' : x ≤ 7 := hhi
  unfold pat
  omega

theorem decodePlain_pat {f : Nat} (t : Int) {x : Int} (hw : 0 < fmtBits f) (hlo : plainLo (fmtBits f) ≤ x)
    (hhi : x ≤ plainHi (fmtBits f)) : decodePlain f t (pat (fmtBits f) x) = exactOf x t := by
  have hnan : ¬(f = 0x00 ∧ pat (fmtBits f) x = 8) := by
    rintro ⟨rfl, hp⟩
    exact pat_four_ne_nan hlo hhi hp
  have hmin : -2 ^ (fmtBits f - 1) ≤ plainLo (fmtBits f) := by
    unfold plainLo
    split
    case isTrue h => rw [h]; decide
    case isFalse => exact le_rfl
  rw [decodePlain, if_neg hnan, sext_pat hw (hmin.trans hlo) (by unfold plainHi at hhi; omega)]

/-- S4 is the plain format of four bits (Table 02.1). -/
theorem fmtBits_plain {f : Nat} (h : f ≤ 3) : 0 < fmtBits f ∧ (fmtBits f = 4 ↔ f = 0) := by
  interval_cases f <;> decide

/-- Settles O10: encode_group stores zeros under 0xFF or 0x00, or clamped elements under a code of at most 0xFE; encode_plain
clamps, and what it keeps as an integer its two's complement pattern gives back. -/
theorem encodingBounds : Obligations.EncodingBounds := by
  unfold Obligations.EncodingBounds
  refine ⟨fun n vs _ => ⟨encodeGroup_length n vs, fun x hx => ?_, encodeGroup_code_iff n vs, fun hcode x hx => ?_, fun hz => ?_⟩,
    fun n t v _ => ⟨fun hv => encodePlain_bounds n t hv, fun hv => by rw [encodePlain_of_nan n t hv]⟩,
    fun f t x hf hlo hhi => ?_⟩
  · rw [← cast_emax]
    exact encodeGroup_bounds n vs hx
  · rw [encodeGroup_of_nan n ((encodeGroup_code_iff n vs).1 hcode)] at hx
    exact eq_zero_of_mem_zeroElems hx
  · rw [encodeGroup_of_zeros n hz]
    exact ⟨rfl, fun x hx => eq_zero_of_mem_zeroElems hx, rfl⟩
  · obtain ⟨hw, hfour⟩ := fmtBits_plain hf
    have hlo' : plainLo (fmtBits f) ≤ x := by simpa only [plainLo, hfour] using hlo
    exact ⟨encodePlain_exactOf t hlo' hhi, decodePlain_pat t hw hlo' hhi⟩

end Sys2Proof.Machine
end

section
/-! PROOFS. Accesses to memory (05 R125 to R127, R134): where the bytes of a partition address lie, what an access leaves
of the map, and which bytes a store or a zero-fill changes. -/

namespace Sys2Proof.Machine.TrainingStep
open Sys2Proof

/-! ### Partitions after a write -/

theorem part_putPart (s : State) (k j : Nat) (P : Part) : (s.putPart k P).part j = if j = k then P else s.part j :=
  tget_tset _ _ _ _ _
@[simp] theorem part_putPart_same (s : State) (k : Nat) (P : Part) : (s.putPart k P).part k = P := by simp [part_putPart]
@[simp] theorem part_modPart_same (s : State) (k : Nat) (f : Part → Part) : (s.modPart k f).part k = f (s.part k) :=
  part_putPart_same _ _ _
theorem part_modPart_ne (s : State) {k j : Nat} (h : j ≠ k) (f : Part → Part) : (s.modPart k f).part j = s.part j := by
  simp [State.modPart, part_putPart, h]

/-- An operation that does not write partitions leaves each as it was. -/
theorem part_of_keeps {ws : List FieldName} {s t : State} (h : Keeps ws s t) (hw : FieldName.parts ∉ ws) (j : Nat) :
    t.part j = s.part j := congrArg (fun m => tget ({} : Part) m j) (h.same .parts hw)

@[simp] theorem noteMet_part (s : State) (k a n : Nat) (w : Bool) (j : Nat) : (s.noteMet k a n w).part j = s.part j :=
  part_of_keeps (keeps_noteMet (among_refl _) (keeps_refl _ s) k a n w) (by decide) j
@[simp] theorem noteMet_mem (s : State) (k a n : Nat) (w : Bool) : (s.noteMet k a n w).mem = s.mem :=
  (keeps_noteMet (among_refl _) (keeps_refl _ s) k a n w).same .mem (by decide)

/-! ### Page records after an access (05 R135 to R137, R145) -/

theorem touch_eq (P : Part) (w : Bool) (a n : Nat) : touch P w a n = { P with pages := (touch P w a n).pages } := by
  unfold touch; split <;> rfl
theorem defineBytes_eq (P : Part) (u : Bool) (a n : Nat) :
    defineBytes P u a n = { P with openPages := (defineBytes P u a n).openPages } := by
  unfold defineBytes; split <;> rfl

theorem servedNear_touchRec (age : BitVec 48) (w : Bool) (x y : Nat) (g : PageRec) :
    servedNear (touchRec age w x g) y = servedNear g y := by
  obtain ⟨st⟩ := g; cases st <;> rfl

theorem servedNear_foldl_touchRec (age : BitVec 48) (w : Bool) (f g : Nat × Nat → Nat) (l : List (Nat × Nat))
    (m : List (Nat × PageRec)) (r x : Nat) :
    servedNear (tget {} (l.foldl (fun m e => tmod {} m (f e) (touchRec age w (g e))) m) r) x = servedNear (tget {} m r) x := by
  induction l generalizing m with
  | nil => rfl
  | cons e l ih =>
    rw [List.foldl_cons, ih, tget_tmod]
    split
    · next h => rw [h, servedNear_touchRec]
    · rfl

theorem servedNear_touch (P : Part) (w : Bool) (a n r x : Nat) :
    servedNear (pageRec (touch P w a n) r) x = servedNear (pageRec P r) x := by
  unfold touch
  split
  · exact servedNear_foldl_touchRec _ _ (fun e => recordOf P (pageNo e.1)) _ _ _ _ _
  · rfl

/-! ### The address map -/

/-- P' sends every address where P sends it (05 R125, R134; 07 R206). -/
structure MapsAs (P P' : Part) : Prop where
  alloc : P'.alloc = P.alloc
  record : ∀ pg, recordOf P' pg = recordOf P pg
  served : ∀ r x, servedNear (pageRec P' r) x = servedNear (pageRec P r) x

theorem MapsAs.refl (P : Part) : MapsAs P P := ⟨rfl, fun _ => rfl, fun _ _ => rfl⟩
theorem MapsAs.trans {P P' P'' : Part} (h : MapsAs P P') (g : MapsAs P' P'') : MapsAs P P'' :=
  ⟨g.alloc.trans h.alloc, fun x => (g.record x).trans (h.record x), fun r x => (g.served r x).trans (h.served r x)⟩

/-- A part with the same allotment, regions, step number, records left behind and page records maps as before. -/
theorem MapsAs.of_fields {P P' : Part} (ha : P'.alloc = P.alloc) (hr : P'.regions = P.regions) (hn : P'.stepNo = P.stepNo)
    (hm : P'.remap = P.remap) (hp : ∀ r x, servedNear (pageRec P' r) x = servedNear (pageRec P r) x) : MapsAs P P' :=
  ⟨ha, fun pg => by unfold recordOf flipped baseRec; rw [hr, hn, hm], hp⟩

theorem mapsAs_touch (P : Part) (w : Bool) (a n : Nat) : MapsAs P (touch P w a n) := by
  refine .of_fields ?_ ?_ ?_ ?_ fun r x => servedNear_touch P w a n r x <;> rw [touch_eq]
theorem mapsAs_defineBytes (P : Part) (u : Bool) (a n : Nat) : MapsAs P (defineBytes P u a n) := by
  rw [defineBytes_eq]; exact .of_fields rfl rfl rfl rfl fun _ _ => rfl

theorem MapsAs.place {P P' : Part} (h : MapsAs P P') (a : Nat) : place P' a = place P a := by
  unfold Machine.place tensorSize ordinal slicesOf; rw [h.alloc]
theorem MapsAs.keyOf {P P' : Part} (h : MapsAs P P') (k a : Nat) : keyOf P' k a = keyOf P k a := by
  simp only [Machine.keyOf, tensorKey, h.place, h.record, h.served]
theorem MapsAs.readable {P P' : Part} (h : MapsAs P P') (a n : Nat) : readable P' a n = readable P a n := by
  simp only [Machine.readable, h.place]

/-- The place i bytes further on. -/
def Place.shift (i : Nat) : Place → Place
  | .tensor a => .tensor (a + i)
  | .sram sl o => .sram sl (o + i)
  | .tile sl o => .tile sl (o + i)
  | .unmapped => .unmapped

theorem tensorSize_sector (P : Part) {a b : Nat} (h : a / 2 ^ 16 = b / 2 ^ 16) : a < tensorSize P ↔ b < tensorSize P := by
  unfold tensorSize; generalize P.alloc.farGib.toNat = g; omega

/-- Addresses of one sector lie side by side (05 R125). -/
theorem place_add (P : Part) {a i : Nat} (h : (a + i) / 2 ^ 16 = a / 2 ^ 16) : place P (a + i) = Place.shift i (place P a) := by
  have ht := tensorSize_sector P h
  have hlo : a + i < 0xF00000000000 ↔ a < 0xF00000000000 := by omega
  have hhi : a + i < 2 ^ 48 ↔ a < 2 ^ 48 := by omega
  unfold place
  by_cases h1 : a < tensorSize P ∧ a < 0xF00000000000
  · rw [if_pos h1, if_pos ⟨ht.2 h1.1, hlo.2 h1.2⟩]; rfl
  rw [if_neg h1, if_neg (fun h2 => h1 ⟨ht.1 h2.1, hlo.1 h2.2⟩)]
  by_cases h2 : 0xF00000000000 ≤ a ∧ a < 2 ^ 48
  · have hslot : (a + i - 0xF00000000000) / 0x10000000 = (a - 0xF00000000000) / 0x10000000 := by omega
    have hoff : (a + i) % 0x10000000 = a % 0x10000000 + i := by omega
    rw [if_pos h2, if_pos (by omega)]
    dsimp only
    rw [hslot, hoff]
    cases ordinal P ((a - 0xF00000000000) / 0x10000000) with
    | none => rfl
    | some sl =>
      dsimp only
      by_cases h3 : a % 0x10000000 < 0x8000000
      · rw [if_pos h3, if_pos (by omega)]; rfl
      · rw [if_neg h3, if_neg (by omega)]
        by_cases h4 : a % 0x10000000 < 0x8020000
        · rw [if_pos h4, if_pos (by omega), show a % 0x10000000 + i - 0x8000000 = a % 0x10000000 - 0x8000000 + i by omega]; rfl
        · rw [if_neg h4, if_neg (by omega)]; rfl
  · rw [if_neg h2, if_neg (by omega)]; rfl

theorem tensorKey_add (P : Part) (k : Nat) {a i : Nat} (h : (a + i) / 2 ^ 16 = a / 2 ^ 16) :
    tensorKey P k (a + i) = tensorKey P k a + i := by
  have hpage : pageNo (a + i) = pageNo a := by unfold pageNo; omega
  have hoff : (a + i) % 2 ^ 21 = a % 2 ^ 21 + i := by omega
  unfold tensorKey
  rw [hpage, hoff, h]
  dsimp only
  split
  · unfold nearKey; omega
  · unfold farKey; omega

theorem keyOf_add (P : Part) (k : Nat) {a i : Nat} (h : (a + i) / 2 ^ 16 = a / 2 ^ 16) :
    keyOf P k (a + i) = (keyOf P k a).map (· + i) := by
  have hsect : ∀ b, place P a = .tensor b → b = a := by
    intro b hb
    unfold place at hb
    split at hb
    · exact (Place.tensor.inj hb).symm
    · split at hb
      · dsimp only at hb
        split at hb
        · cases hb
        · split at hb
          · cases hb
          · split at hb <;> cases hb
      · cases hb
  unfold keyOf
  rw [place_add P h]
  cases hp : place P a with
  | tensor b => rw [hsect b hp]; exact congrArg some (tensorKey_add P k h)
  | sram sl o => simp [Place.shift, sramKey, Nat.add_assoc]
  | tile sl o => rfl
  | unmapped => rfl

/-! ### Sectors -/

theorem mem_sectors {a n : Nat} {w : Nat × Nat} (h : w ∈ sectors a n) :
    a ≤ w.1 ∧ w.1 + w.2 ≤ a + n ∧ ∀ i, i < w.2 → (w.1 + i) / 2 ^ 16 = w.1 / 2 ^ 16 := by
  unfold sectors at h
  split at h
  · simp at h
  · next hn =>
    obtain ⟨i, hi, rfl⟩ := List.mem_map.1 h
    have hi := List.mem_range.1 hi
    dsimp only
    refine ⟨by omega, by omega, fun j hj => by omega⟩

theorem exists_sector {a n x : Nat} (h1 : a ≤ x) (h2 : x < a + n) : ∃ w ∈ sectors a n, w.1 ≤ x ∧ x < w.1 + w.2 := by
  have hn : n ≠ 0 := by omega
  refine ⟨_, by rw [sectors, if_neg hn]; exact List.mem_map.2 ⟨x / 2 ^ 16 - a / 2 ^ 16, List.mem_range.2 (by omega), rfl⟩, ?_, ?_⟩ <;>
    dsimp only <;> omega

/-- Eight aligned bytes lie in one sector. -/
theorem sectors_aligned {a : Nat} (h : a % 8 = 0) : sectors a 8 = [(a, 8)] := by
  have h0 : (a + 8 - 1) / 2 ^ 16 - a / 2 ^ 16 + 1 = 1 := by omega
  rw [sectors, if_neg (by decide), h0]
  simp only [List.range_one, List.map_cons, List.map_nil, List.cons.injEq, and_true, Prod.mk.injEq]
  omega

/-! ### Which bytes of memory change -/

/-- Key of no address from a to a + n - 1. -/
def Outside (P : Part) (k a n key : Nat) : Prop := ∀ x, a ≤ x → x < a + n → keyOf P k x ≠ some key

/-- A key outside n bytes of one sector lies outside the keys of those bytes. -/
theorem Outside.key_lt {P : Part} {k a n key b : Nat} (h : Outside P k a n key) (hb : keyOf P k a = some b)
    (hs : ∀ i, i < n → (a + i) / 2 ^ 16 = a / 2 ^ 16) : ¬(b ≤ key ∧ key < b + n) := by
  rintro ⟨h1, h2⟩
  refine h (a + (key - b)) (by omega) (by omega) ?_
  rw [keyOf_add P k (hs _ (by omega)), hb]
  simp; omega

/-- A run over the sectors of a range that changes only bytes of its sectors changes only bytes of the range. -/
theorem cellAt_foldl_sectors {P : Part} {k a n key : Nat} (h : Outside P k a n key)
    {f : List Host.Cell → Nat × Nat → List Host.Cell}
    (hf : ∀ m w, w ∈ sectors a n → Outside P k w.1 w.2 key → cellAt (f m w) key = cellAt m key) (m : List Host.Cell) :
    cellAt ((sectors a n).foldl f m) key = cellAt m key := by
  have hin : ∀ w ∈ sectors a n, Outside P k w.1 w.2 key := fun w hw x h1 h2 => by
    obtain ⟨hlo, hhi, -⟩ := mem_sectors hw
    exact h x (by omega) (by omega)
  generalize hl : sectors a n = l at hf hin
  clear hl
  induction l generalizing m with
  | nil => rfl
  | cons w l ih =>
    rw [List.foldl_cons, ih _ (fun m w hw => hf m w (List.mem_cons_of_mem _ hw)) fun w hw => hin w (List.mem_cons_of_mem _ hw),
      hf m w List.mem_cons_self (hin w List.mem_cons_self)]

/-- What a store of bytes b from address a leaves of memory in one of its sectors. -/
def storeSector (P : Part) (k a : Nat) (b : Bytes) (m : List Host.Cell) (w : Nat × Nat) : List Host.Cell :=
  match keyOf P k w.1 with
  | some key => memWrite m key ((b.drop (w.1 - a)).take w.2)
  | none => m

/-- What a zero-fill leaves of memory in one of its sectors. -/
def wipeSector (P : Part) (k : Nat) (m : List Host.Cell) (w : Nat × Nat) : List Host.Cell :=
  match keyOf P k w.1 with
  | some key => memWipe m key w.2
  | none => m

theorem store_mem (s : State) (k a : Nat) (b : Bytes) :
    (s.store k a b).mem = (sectors a b.length).foldl (storeSector (s.part k) k a b) s.mem := by
  unfold State.store; dsimp only; rw [noteMet_mem]; rfl
theorem zeroFill_mem (s : State) (k a n : Nat) :
    (s.zeroFill k a n).mem = (sectors a n).foldl (wipeSector (s.part k) k) s.mem := by
  unfold State.zeroFill; dsimp only; rw [noteMet_mem]; rfl

theorem cellAt_wipeSector_of_key {P : Part} {k : Nat} {w : Nat × Nat} {b : Nat} (h : keyOf P k w.1 = some b)
    (m : List Host.Cell) (key : Nat) :
    cellAt (wipeSector P k m w) key = if b ≤ key ∧ key < b + w.2 then 0 else cellAt m key := by
  unfold wipeSector; rw [h]; exact cellAt_wipe _ _ _ _

theorem cellAt_store_of_outside {s : State} {k a key : Nat} {b : Bytes} (h : Outside (s.part k) k a b.length key) :
    cellAt (s.store k a b).mem key = cellAt s.mem key := by
  rw [store_mem]
  refine cellAt_foldl_sectors h (fun m w hw ho => ?_) _
  unfold storeSector
  split
  · next hkey =>
    have hno := ho.key_lt hkey (mem_sectors hw).2.2
    have hlen : ((b.drop (w.1 - a)).take w.2).length ≤ w.2 := List.length_take_le _ _
    rw [cellAt_write, if_neg (by omega)]
  · rfl

theorem cellAt_zeroFill_of_outside {s : State} {k a n key : Nat} (h : Outside (s.part k) k a n key) :
    cellAt (s.zeroFill k a n).mem key = cellAt s.mem key := by
  rw [zeroFill_mem]
  refine cellAt_foldl_sectors h (fun m w hw ho => ?_) _
  cases hkey : keyOf (s.part k) k w.1 with
  | some b => rw [cellAt_wipeSector_of_key hkey, if_neg (ho.key_lt hkey (mem_sectors hw).2.2)]
  | none => unfold wipeSector; rw [hkey]

/-- Wipes leave a zero byte zero. -/
theorem cellAt_foldl_wipeSector_of_zero (P : Part) (k key : Nat) (l : List (Nat × Nat)) {m : List Host.Cell}
    (h : cellAt m key = 0) : cellAt (l.foldl (wipeSector P k) m) key = 0 := by
  induction l generalizing m with
  | nil => exact h
  | cons w l ih =>
    refine ih ?_
    cases hkey : keyOf P k w.1 with
    | some b => rw [cellAt_wipeSector_of_key hkey, h, ite_self]
    | none => unfold wipeSector; rw [hkey]; exact h

theorem cellAt_zeroFill_of_zero {s : State} {k a n key : Nat} (h : cellAt s.mem key = 0) :
    cellAt (s.zeroFill k a n).mem key = 0 := by
  rw [zeroFill_mem]; exact cellAt_foldl_wipeSector_of_zero _ _ _ _ h

/-- A zero-filled byte reads zero. -/
theorem cellAt_zeroFill {s : State} {k a n x key : Nat} (h1 : a ≤ x) (h2 : x < a + n) (hkey : keyOf (s.part k) k x = some key) :
    cellAt (s.zeroFill k a n).mem key = 0 := by
  obtain ⟨w, hw, hlo, hhi⟩ := exists_sector h1 h2
  have hadd := keyOf_add (s.part k) k ((mem_sectors hw).2.2 (x - w.1) (by omega))
  rw [show w.1 + (x - w.1) = x by omega, hkey] at hadd
  obtain ⟨b, hb, hb'⟩ := Option.map_eq_some_iff.1 hadd.symm
  obtain ⟨l1, l2, hl⟩ := List.append_of_mem hw
  rw [zeroFill_mem, hl, List.foldl_append, List.foldl_cons]
  refine cellAt_foldl_wipeSector_of_zero _ _ _ _ ?_
  rw [cellAt_wipeSector_of_key hb, if_pos (by omega)]

/-- Bytes stored within one sector read back. -/
theorem memRead_store {s : State} {k a key : Nat} {b : Bytes} (hs : sectors a b.length = [(a, b.length)])
    (hkey : keyOf (s.part k) k a = some key) : memRead (s.store k a b).mem key b.length = b := by
  have hlen : (memRead (s.store k a b).mem key b.length).length = b.length := by simp [memRead]
  refine List.ext_getElem hlen fun i h1 h2 => ?_
  have h := memRead_getD (s.store k a b).mem key b.length i h2
  rw [List.getD_eq_getElem _ _ h1] at h
  rw [h, store_mem, hs]
  simp only [List.foldl_cons, List.foldl_nil, storeSector, hkey, Nat.sub_self, List.drop_zero, List.take_length]
  rw [cellAt_write, if_pos (by omega), show key + i - key = i by omega, List.getD_eq_getElem _ _ h2]

/-! ### What an access leaves of a partition -/

theorem store_part (s : State) (k a : Nat) (b : Bytes) :
    (s.store k a b).part k = defineBytes (touch (s.part k) true a b.length) false a b.length := by
  unfold State.store; dsimp only; rw [noteMet_part, part_putPart_same]
theorem zeroFill_part (s : State) (k a n : Nat) :
    (s.zeroFill k a n).part k = defineBytes (touch (s.part k) true a n) false a n := by
  unfold State.zeroFill; dsimp only; rw [noteMet_part, part_putPart_same]
theorem noteRead_part (s : State) (k a n : Nat) : (s.noteRead k a n).part k = touch (s.part k) false a n := by
  unfold State.noteRead; rw [noteMet_part, part_modPart_same]
@[simp] theorem noteRead_mem (s : State) (k a n : Nat) : (s.noteRead k a n).mem = s.mem :=
  (keeps_noteRead (among_refl _) (keeps_refl _ s) k a n).same .mem (by decide)

/-- What an access, a read or a write, leaves of a partition: all but its page records and its undefined bytes. -/
structure Accessed (P P' : Part) : Prop where
  maps : MapsAs P P'
  rest : P' = { P with pages := P'.pages, openPages := P'.openPages }

theorem Accessed.refl (P : Part) : Accessed P P := ⟨.refl P, rfl⟩
theorem Accessed.trans {P P' P'' : Part} (h : Accessed P P') (g : Accessed P' P'') : Accessed P P'' := by
  obtain ⟨hm, hr⟩ := h
  obtain ⟨gm, gr⟩ := g
  refine ⟨hm.trans gm, ?_⟩
  rw [hr] at gr
  exact gr

theorem Accessed.health {P P' : Part} (h : Accessed P P') : P'.health = P.health := by rw [h.rest]
theorem Accessed.stepNo {P P' : Part} (h : Accessed P P') : P'.stepNo = P.stepNo := by rw [h.rest]
theorem Accessed.regions {P P' : Part} (h : Accessed P P') : P'.regions = P.regions := by rw [h.rest]
theorem Accessed.dict {P P' : Part} (h : Accessed P P') : P'.dict = P.dict := by rw [h.rest]

theorem accessed_touch (P : Part) (w : Bool) (a n : Nat) : Accessed P (touch P w a n) :=
  ⟨mapsAs_touch P w a n, by rw [touch_eq]⟩
theorem accessed_defineBytes (P : Part) (u : Bool) (a n : Nat) : Accessed P (defineBytes P u a n) :=
  ⟨mapsAs_defineBytes P u a n, by rw [defineBytes_eq]⟩
theorem accessed_noteRead (s : State) (k a n : Nat) : Accessed (s.part k) ((s.noteRead k a n).part k) := by
  rw [noteRead_part]; exact accessed_touch _ _ _ _
theorem accessed_store (s : State) (k a : Nat) (b : Bytes) : Accessed (s.part k) ((s.store k a b).part k) := by
  rw [store_part]; exact (accessed_touch _ _ _ _).trans (accessed_defineBytes _ _ _ _)
theorem accessed_zeroFill (s : State) (k a n : Nat) : Accessed (s.part k) ((s.zeroFill k a n).part k) := by
  rw [zeroFill_part]; exact (accessed_touch _ _ _ _).trans (accessed_defineBytes _ _ _ _)

/-! ### Stores within spans -/

theorem storesWithin_of_mem_eq {P : Part} {k : Nat} {l : List (Nat × Nat)} {s t : State} (h : t.mem = s.mem) :
    StoresWithin P k l s t := fun _ _ => by rw [h]
theorem storesWithin_trans {P : Part} {k : Nat} {l : List (Nat × Nat)} {s t u : State} (h : StoresWithin P k l s t)
    (g : StoresWithin P k l t u) : StoresWithin P k l s u := fun key ho => (g key ho).trans (h key ho)
theorem storesWithin_of_outside {P : Part} {k : Nat} {l : List (Nat × Nat)} {s t : State}
    (h : ∀ key, (∀ p ∈ l, Outside P k p.1 p.2 key) → cellAt t.mem key = cellAt s.mem key) : StoresWithin P k l s t :=
  fun key ho => h key ho

theorem storesWithin_store {P : Part} {s : State} {k a c n : Nat} {b : Bytes} {l : List (Nat × Nat)} (hm : MapsAs P (s.part k))
    (hl : (c, n) ∈ l) (h1 : c ≤ a) (h2 : a + b.length ≤ c + n) : StoresWithin P k l s (s.store k a b) :=
  storesWithin_of_outside fun key ho => cellAt_store_of_outside fun x hx1 hx2 => by
    rw [hm.keyOf]; exact ho _ hl x (by dsimp only; omega) (by dsimp only; omega)

theorem storesWithin_zeroFill {P : Part} {s : State} {k a n : Nat} {l : List (Nat × Nat)} (hm : MapsAs P (s.part k))
    (hl : (a, n) ∈ l) : StoresWithin P k l s (s.zeroFill k a n) :=
  storesWithin_of_outside fun key ho => cellAt_zeroFill_of_outside fun x hx1 hx2 => by
    rw [hm.keyOf]; exact ho _ hl x hx1 hx2

end Sys2Proof.Machine.TrainingStep
end

section
/-! PROOFS. Starting update-class commands (06 R171; 07 R189, R190; 12 R355): what a row answers with and without a pipe, and
LOSS and LATCH (07 R212 to R215). -/

namespace Sys2Proof.Machine.TrainingStep
open Sys2Proof

/-! ### The command at HEAD starts -/

@[simp] theorem popFront_part (s : State) (q k : Nat) : (popFront s q).part k = s.part k := rfl
@[simp] theorem pipeOf_popFront (s : State) (q : Nat) (P : Part) (c : Nat) : pipeOf (popFront s q) P c = pipeOf s P c := rfl
@[simp] theorem loadNat_popFront (s : State) (q k a n : Nat) : (popFront s q).loadNat k a n = s.loadNat k a n := rfl

theorem keeps_pop {ws : List FieldName} (hw : Among [.queues] ws) (s : State) (q : Nat) : Keeps ws s (popFront s q) :=
  keeps_popFront hw (keeps_refl _ s) q

/-- These fields are among those, by inspection. -/
theorem among {a b : List FieldName} (h : ∀ f ∈ a, f ∈ b := by decide) : Among a b := h

theorem spoilt_of_good {s : State} {q : Nat} (h : (s.queue q).bad = none) (k c : Nat) (e : State × Started) :
    spoilt s k q c e = e := by unfold spoilt; rw [h]

section
variable {s : State} {q : Qid} {k c : Nat} {sel : State → Nat → Nat → Bool} {f : State → Nat → Nat → Nat → State × Started}

/-- A command of the update class that its row picks, its pipe not about to be replaced, starts as the row says on its pipe
(12 R352, R355). -/
theorem startsAs_onPipe_of_pipe {p : Nat} (hr : s.ready q k c) (hsel : sel s k c = true) (hp : pipeOf s (s.part k) c = some p)
    (hd : pipeDue s k c = false) {u : State} {r : Started} (he : f (popFront s q.toNat) k c p = (u, r)) :
    StartsAs (outcome s (onPipe s q sel f)) s q c u r := by
  obtain ⟨hcalm, hst, hgood⟩ := hr
  unfold StartsAs onPipe runFront
  rw [outcome_of_calm hcalm, hst]
  dsimp only
  rw [if_neg (by simp [hsel, hd]), if_pos rfl, spoilt_of_good hgood, pipeOf_popFront, popFront_part, hp]
  dsimp only
  rw [he]

theorem pipeDue_of_noPipe (hp : pipeOf s (s.part k) c = none) : pipeDue s k c = false := by unfold pipeDue; rw [hp]

/-- Without a pipe it ends INVALID (12 R355). -/
theorem startsAs_onPipe_of_noPipe (hr : s.ready q k c) (hsel : sel s k c = true) (hp : pipeOf s (s.part k) c = none) :
    StartsAs (outcome s (onPipe s q sel f)) s q c (popFront s q.toNat) (failed stINVALID 3) := by
  have hd := pipeDue_of_noPipe hp
  obtain ⟨hcalm, hst, hgood⟩ := hr
  unfold StartsAs onPipe runFront
  rw [outcome_of_calm hcalm, hst]
  dsimp only
  rw [if_neg (by simp [hsel, hd]), if_pos rfl, spoilt_of_good hgood, pipeOf_popFront, popFront_part, hp]
end

/-! ### LOSS (07 R212, R213) -/

theorem toInt_ofInt_lossOf (code value : Nat) : (BitVec.ofInt 64 (lossOf code value)).toInt = lossOf code value := by
  rw [BitVec.toInt_ofInt]
  unfold lossOf
  dsimp only
  exact Int.bmod_eq_of_le (by omega) (by omega)

/-- What a LOSS leaves alone in the health state. -/
structure LossFrame (h g : Health) : Prop where
  noLoss : g.noLoss = false
  spike : h.spike = true → g.spike = true
  lsMean : g.lsMean = h.lsMean
  lsVar : g.lsVar = h.lsVar
  lsN : g.lsN = h.lsN
  latch : g.latch = h.latch
  sat : g.sat = h.sat
  flush : g.flush = h.flush
  div0 : g.div0 = h.div0
  xsat : g.xsat = h.xsat
  ue : g.ue = h.ue
  qfault : g.qfault = h.qfault

theorem afterLoss_frame (d : PDict) (h : Health) (code value : Nat) : LossFrame h (afterLoss d h code value) := by
  unfold afterLoss
  dsimp only
  split
  · exact ⟨rfl, id, rfl, rfl, rfl, rfl, rfl, rfl, rfl, rfl, rfl, rfl⟩
  · split
    · exact ⟨rfl, fun _ => rfl, rfl, rfl, rfl, rfl, rfl, rfl, rfl, rfl, rfl, rfl⟩
    · exact ⟨rfl, id, rfl, rfl, rfl, rfl, rfl, rfl, rfl, rfl, rfl, rfl⟩

/-- A NaN record (R212). -/
theorem afterLoss_of_nan (d : PDict) (h : Health) (value : Nat) :
    (afterLoss d h 0xFF value).loss = h.loss ∧ (afterLoss d h 0xFF value).nanLoss = true
      ∧ (afterLoss d h 0xFF value).nan = satAdd 32 h.nan 1 ∧ (afterLoss d h 0xFF value).spike = h.spike := ⟨rfl, rfl, rfl, rfl⟩

/-- A record that is a number (R212). -/
theorem afterLoss_of_number (d : PDict) (h : Health) {code : Nat} (hc : code ≠ 0xFF) (value : Nat) :
    (afterLoss d h code value).loss.toInt = lossOf code value ∧ (afterLoss d h code value).nan = h.nan
      ∧ (afterLoss d h code value).nanLoss = h.nanLoss
      ∧ (h.spike = false → ((afterLoss d h code value).spike = true ↔ spikes d h (lossOf code value) = true)) := by
  have hsp : ∀ b, spikes d { h with noLoss := false, post := b } (lossOf code value) = spikes d h (lossOf code value) := fun _ => rfl
  unfold afterLoss
  dsimp only
  rw [if_neg hc, hsp]
  cases hs : spikes d h (lossOf code value) with
  | true => exact ⟨toInt_ofInt_lossOf _ _, rfl, rfl, fun _ => by simp⟩
  | false => exact ⟨toInt_ofInt_lossOf _ _, rfl, rfl, fun h0 => by simp [h0]⟩

theorem spikes_iff (d : PDict) (h : Health) (lq : Int) : spikes d h lq = true ↔
    lq < d.lsMin.toInt ∨ d.lsMax.toInt < lq ∨ 64 ≤ h.lsN.toNat ∧ 0 < lq - h.lsMean.toInt
      ∧ (d.lsK.toNat * d.lsK.toNat * h.lsVar.toNat : Int) < (lq - h.lsMean.toInt) * (lq - h.lsMean.toInt) * 2 ^ 16 := by
  simp [spikes, or_assoc]

/-! ### LATCH (07 R215) -/

/-- The operand address of LOSS and LATCH is aligned and no reserved bit is set. -/
theorem not_alignedClear_iff (c : Nat) : ¬(fld c 175 128 % 8 = 0 ∧ bodyClear c [(175, 128)] = true) ↔
    (fld c 175 128 % 8 ≠ 0 ∨ (!bodyClear c [(175, 128)]) = true) := by
  rw [Classical.not_and_iff_not_or_not, Bool.not_eq_true']; simp

/-- The state in which a LOSS of record w at address a leaves the state it starts in. -/
def lossDone (z : State) (k a w : Nat) : State :=
  (z.noteRead k a 8).modPart k fun P => { P with health := afterLoss P.dict P.health (bitsOf w 39 32) (bitsOf w 31 0) }

theorem lossDone_health (z : State) (k a w : Nat) : ((lossDone z k a w).part k).health =
    afterLoss (z.part k).dict (z.part k).health (bitsOf w 39 32) (bitsOf w 31 0) := by
  have h := accessed_noteRead z k a 8
  rw [lossDone, part_modPart_same]
  dsimp only
  rw [h.health, h.dict]

theorem keeps_lossDone {ws : List FieldName} (hw : Among [.parts, .snoops] ws) {s z : State} (h : Keeps ws s z) (k a w : Nat) :
    Keeps ws s (lossDone z k a w) :=
  keeps_modPart (hw.mono (by decide)) (keeps_noteRead hw h _ _ _) _ _

/-- The state in which a LATCH at address a leaves the state it starts in. -/
def latchDone (z : State) (k a : Nat) (w : BitVec 64) : State := (z.store k a (toLe 8 w.toNat)).modPart k fun P => latched P w

theorem keeps_latchDone {ws : List FieldName} (hw : Among [.mem, .parts, .snoops] ws) {s z : State} (h : Keeps ws s z) (k a : Nat)
    (w : BitVec 64) : Keeps ws s (latchDone z k a w) :=
  keeps_modPart (hw.mono (by decide)) (keeps_store hw h _ _ _) _ _

theorem latchDone_mem (z : State) (k a : Nat) (w : BitVec 64) : (latchDone z k a w).mem = (z.store k a (toLe 8 w.toNat)).mem := rfl

theorem latchDone_part (z : State) (k a : Nat) (w : BitVec 64) : (latchDone z k a w).part k
    = latched ((z.store k a (toLe 8 w.toNat)).part k) w := part_modPart_same _ _ _

theorem latched_accessed {P P' : Part} (h : Accessed P P') (w : BitVec 64) :
    (latched P' w).health = (latched P w).health ∧ (latched P' w).stepNo = P.stepNo := by
  unfold latched; dsimp only; rw [h.health, h.dict, h.stepNo]; exact ⟨rfl, rfl⟩

section
variable {s : State} {q : Qid} {k c p : Nat}

/-- LOSS (R212): refused if ill-formed or unreadable, else the health state takes the record. -/
theorem loss_startsAs (hr : s.ready q k c) (hp : pipeOf s (s.part k) c = some p) (hd : pipeDue s k c = false)
    (hk : isKind 2 0x11 c = true) {u : State} {r : Started}
    (he : (if fld c 175 128 % 8 ≠ 0 ∨ (!bodyClear c [(175, 128)]) = true then (popFront s q.toNat, failed stINVALID 3 0 p)
      else if (!readable (s.part k) (fld c 175 128) 8) = true then (popFront s q.toNat, failed stADDRESS 3 (fld c 175 128) p)
      else (lossDone (popFront s q.toNat) k (fld c 175 128) (s.loadNat k (fld c 175 128) 8), {})) = (u, r)) :
    StartsAs (exec (.loss q) s) s q c u r :=
  startsAs_onPipe_of_pipe (sel := isUpd 0x11) hr hk hp hd he

/-- LATCH (R215): refused if ill-formed or not writable, else the health word is stored and latched. -/
theorem latch_startsAs (hr : s.ready q k c) (hp : pipeOf s (s.part k) c = some p) (hd : pipeDue s k c = false)
    (hk : isKind 2 0x12 c = true) {u : State} {r : Started}
    (he : (if fld c 175 128 % 8 ≠ 0 ∨ (!bodyClear c [(175, 128)]) = true then (popFront s q.toNat, failed stINVALID 3 0 p)
      else if (!writable (s.part k) (fld c 175 128) 8) = true then (popFront s q.toNat, failed stADDRESS 3 (fld c 175 128) p)
      else (latchDone (popFront s q.toNat) k (fld c 175 128) (BitVec.ofNat 64 (healthWord (s.part k))), {})) = (u, r)) :
    StartsAs (exec (.latch q) s) s q c u r :=
  startsAs_onPipe_of_pipe (sel := isUpd 0x12) hr hk hp hd he
end

/-- Settles O39. -/
theorem lossAndLatch : Obligations.LossAndLatch := by
  unfold Obligations.LossAndLatch
  intro s q k c p hr hp hd P h a z legal
  have hno := not_alignedClear_iff c
  refine ⟨fun hk => ⟨fun hl => ?_, fun hl hb => ?_, fun hl hb => ?_⟩, fun hk => ⟨fun hl => ?_, fun hl hb => ?_, fun hl hb => ?_⟩⟩
  · exact loss_startsAs hr hp hd hk (if_pos (hno.1 hl))
  · exact loss_startsAs hr hp hd hk ((if_neg fun g => hno.2 g hl).trans (if_pos (by rw [hb]; rfl)))
  · refine ⟨_, loss_startsAs hr hp hd hk ((if_neg fun g => hno.2 g hl).trans (if_neg (by rw [hb]; decide))),
      (keeps_lossDone among (keeps_pop among _ _) _ _ _).frame, ?_⟩
    dsimp only
    rw [lossDone_health, popFront_part]
    obtain ⟨h1, h2, h3, h4, h5, h6, h7, h8, h9, h10, h11, h12⟩ :=
      afterLoss_frame P.dict h (bitsOf (s.loadNat k a 8) 39 32) (bitsOf (s.loadNat k a 8) 31 0)
    refine ⟨h1, h2, h3, h4, h5, h6, h7, h8, h9, h10, h11, h12, fun hn => ?_, fun hn => ?_⟩
    · rw [hn]; exact afterLoss_of_nan P.dict h _
    · obtain ⟨g1, g2, g3, g4⟩ := afterLoss_of_number P.dict h hn (bitsOf (s.loadNat k a 8) 31 0)
      exact ⟨g1, g2, g3, fun h0 => (g4 h0).trans (spikes_iff _ _ _)⟩
  · exact latch_startsAs hr hp hd hk (if_pos (hno.1 hl))
  · exact latch_startsAs hr hp hd hk ((if_neg fun g => hno.2 g hl).trans (if_pos (by rw [hb]; rfl)))
  · refine ⟨_, latch_startsAs hr hp hd hk ((if_neg fun g => hno.2 g hl).trans (if_neg (by rw [hb]; decide))),
      (keeps_latchDone among (keeps_pop among _ _) _ _ _).frame, ?_⟩
    have hacc := accessed_store z k a (toLe 8 (BitVec.ofNat 64 (healthWord P)).toNat)
    obtain ⟨hh, hn⟩ := latched_accessed hacc (BitVec.ofNat 64 (healthWord P))
    dsimp only
    rw [latchDone_part, latchDone_mem, hh, hn]
    refine ⟨rfl, rfl, rfl, rfl, rfl, rfl, rfl, rfl, rfl, rfl, rfl, rfl, rfl, fun key hkey => ?_, ?_⟩
    · have hread := memRead_store (s := z) (b := toLe 8 (BitVec.ofNat 64 (healthWord P)).toNat)
        (by rw [toLe_length]; exact sectors_aligned hl.1) hkey
      rwa [toLe_length] at hread
    · exact storesWithin_trans (t := z) (storesWithin_of_mem_eq rfl)
        (storesWithin_trans (storesWithin_store (.refl P) (List.mem_singleton.2 rfl) le_rfl (by rw [toLe_length]))
          (storesWithin_of_mem_eq rfl))

end Sys2Proof.Machine.TrainingStep
end

section
/-! PROOFS. DREGION, DSTEP and PHASE (07 R205 to R208, R222; 12 R377). -/

namespace Sys2Proof.Machine.TrainingStep
open Sys2Proof

/-! ### The table of regions -/

theorem find?_tins_of_not {α : Type} {k : Nat} {v : α} {p : Nat × α → Bool} (h : p (k, v) = false) (m : List (Nat × α)) :
    (tins k v m).find? p = m.find? p := by
  induction m with
  | nil => simp [tins, h]
  | cons e m ih => unfold tins; split <;> simp [List.find?_cons, h, ih]

theorem find?_tins_of_none {α : Type} {k : Nat} {v : α} {p : Nat × α → Bool} (h : p (k, v) = true) {m : List (Nat × α)}
    (hm : m.find? p = none) : (tins k v m).find? p = some (k, v) := by
  induction m with
  | nil => simp [tins, h]
  | cons e m ih =>
    have he : p e = false := by simpa using List.find?_eq_none.1 hm e (by simp)
    have hm' : m.find? p = none := by simpa [List.find?_cons, he] using hm
    unfold tins; split <;> simp [h, he, ih hm']

theorem tfind_tins_same {α : Type} {k : Nat} {m : List (Nat × α)} (v : α) (h : tfind m k = none) : tfind (tins k v m) k = some v := by
  unfold tfind at *
  rw [find?_tins_of_none (by simp) (Option.map_eq_none_iff.1 h)]; rfl

theorem tfind_tins_ne {α : Type} {k j : Nat} (v : α) (m : List (Nat × α)) (h : j ≠ k) : tfind (tins k v m) j = tfind m j := by
  unfold tfind; rw [find?_tins_of_not (by simpa using h.symm)]

theorem tfind_tdel {α : Type} (m : List (Nat × α)) (k j : Nat) : tfind (tdel m k) j = if j = k then none else tfind m j := by
  unfold tfind tdel
  rw [List.find?_filter]
  split
  · next h => subst h; simp
  · next h =>
    congr 2
    funext e
    by_cases he : e.1 = j <;> simp [he, h]

theorem tfind_of_regionOk {P : Part} {c : Nat} {r : Region} (h : regionOk P c r = true) : tfind P.regions (rgIndex c) = none := by
  simp only [regionOk, Bool.and_eq_true, Option.isNone_iff_eq_none] at h
  obtain ⟨⟨⟨⟨⟨-, h⟩, -⟩, -⟩, -⟩, -⟩ := h
  exact h

theorem fld_lt (c hi lo : Nat) : fld c hi lo < 2 ^ (hi + 1 - lo) := Nat.mod_lt _ (Nat.two_pow_pos _)

@[simp] theorem regionOf_front (P : Part) (c : Nat) (kind : RegionKind) : (regionOf P c kind).front.toNat = rgFront c :=
  Nat.mod_eq_of_lt (fld_lt c 175 128)

/-- The table holds the new entry under its index, every other entry as it was. -/
theorem tfind_addRegion {s : State} {k c : Nat} {r : Region} (h : regionOk (s.part k) c r = true) :
    tfind ((addRegion s k c r).part k).regions (rgIndex c) = some r ∧
      ∀ j, j ≠ rgIndex c → tfind ((addRegion s k c r).part k).regions j = tfind (s.part k).regions j := by
  unfold addRegion
  rw [part_modPart_same]
  exact ⟨tfind_tins_same r (tfind_of_regionOk h), fun j hj => tfind_tins_ne r _ hj⟩

@[simp] theorem addRegion_stepNo (s : State) (k c : Nat) (r : Region) : ((addRegion s k c r).part k).stepNo = (s.part k).stepNo := by
  unfold addRegion; rw [part_modPart_same]

/-- A new entry that is no pair moves no page. -/
theorem mapsAs_addRegion {s : State} {k c : Nat} {r : Region} (h : r.kind ≠ .pair) :
    MapsAs (s.part k) ((addRegion s k c r).part k) := by
  unfold addRegion
  rw [part_modPart_same]
  refine ⟨rfl, fun pg => ?_, fun _ _ => rfl⟩
  unfold recordOf
  dsimp only
  rw [find?_tins_of_not (by simp [h])]
  rfl

theorem openBacks_eq (d : Nat) (was : OpenMark → Option OpenPage → Option OpenMark) (rs : List Region) (P : Part) :
    openBacks d was rs P
      = { P with openGen := (openBacks d was rs P).openGen, openPages := (openBacks d was rs P).openPages } := by
  unfold openBacks; split <;> rfl

/-! ### Changes of operating point (13 R391) -/

theorem slice_putSlice (s : State) (i j : Nat) (x : Slice) : (s.putSlice i x).slice j = if j = i then x else s.slice j :=
  tget_tset _ _ _ _ _

/-- An operation that does not write slices leaves each as it was. -/
theorem slice_of_keeps {ws : List FieldName} {s t : State} (h : Keeps ws s t) (hw : FieldName.slices ∉ ws) (j : Nat) :
    t.slice j = s.slice j := congrArg (fun m => tget ({} : Slice) m j) (h.same .slices hw)

@[simp] theorem setRail_slice (s : State) (d j : Nat) : (setRail s d).slice j = s.slice j :=
  slice_of_keeps (keeps_setRail (among_refl _) (keeps_refl _ s) d) (by decide) j

theorem retarget_slice_ne (s : State) {i j : Nat} (h : j ≠ i) : (retarget s i).slice j = s.slice j := by
  unfold retarget
  dsimp only
  split
  · rfl
  · split
    · rw [setRail_slice, slice_putSlice, if_neg h]
    · rw [slice_putSlice, if_neg h]

theorem retarget_slice_phase (s : State) (i j : Nat) : ((retarget s i).slice j).phase = (s.slice j).phase := by
  by_cases h : j = i
  · subst h
    unfold retarget
    dsimp only
    split
    · rfl
    · split
      · rw [setRail_slice, slice_putSlice, if_pos rfl]
      · rw [slice_putSlice, if_pos rfl]
  · rw [retarget_slice_ne s h]

/-- A slice takes a phase and starts towards that phase's point (R222). -/
def takePhase (ph : BitVec 3) (s : State) (i : Nat) : State := retarget (s.modSlice i fun x => { x with phase := ph }) i

theorem takePhase_slice_ne (ph : BitVec 3) (s : State) {i j : Nat} (h : j ≠ i) : (takePhase ph s i).slice j = s.slice j := by
  rw [takePhase, retarget_slice_ne _ h, State.modSlice, slice_putSlice, if_neg h]
theorem takePhase_slice_phase (ph : BitVec 3) (s : State) (i j : Nat) :
    ((takePhase ph s i).slice j).phase = if j = i then ph else (s.slice j).phase := by
  rw [takePhase, retarget_slice_phase, State.modSlice, slice_putSlice]; split <;> rfl
theorem keeps_takePhase {ws : List FieldName} (hw : Among [.slices, .dies] ws) {z s : State} (h : Keeps ws z s) (ph : BitVec 3) (i : Nat) :
    Keeps ws z (takePhase ph s i) := keeps_retarget hw (keeps_modSlice (hw.mono (by decide)) h _ _) _

theorem foldl_takePhase_slice_of_not_mem (ph : BitVec 3) {l : List Nat} {j : Nat} (h : j ∉ l) (s : State) :
    (l.foldl (takePhase ph) s).slice j = s.slice j := by
  induction l generalizing s with
  | nil => rfl
  | cons i l ih =>
    rw [List.mem_cons, not_or] at h
    rw [List.foldl_cons, ih h.2, takePhase_slice_ne ph s h.1]

theorem foldl_takePhase_slice_phase (ph : BitVec 3) (l : List Nat) (j : Nat) (s : State) :
    ((l.foldl (takePhase ph) s).slice j).phase = if j ∈ l then ph else (s.slice j).phase := by
  induction l generalizing s with
  | nil => simp
  | cons i l ih =>
    rw [List.foldl_cons, ih, takePhase_slice_phase]
    by_cases hl : j ∈ l <;> by_cases hi : j = i <;> simp [hl, hi]

/-! ### What each row answers -/

section
variable {s : State} {q : Qid} {k c p : Nat} (hr : s.ready q k c) (hp : pipeOf s (s.part k) c = some p) (hd : pipeDue s k c = false)
include hr hp hd

theorem defineDamaskPair_startsAs (hk : isKind 2 0x15 c = true) (ho : rgOp c = 0) {u : State} {r : Started}
    (he : (if regionOk (s.part k) c (regionOf (s.part k) c .pair) = true then
        ((addRegion (popFront s q.toNat) k c (regionOf (s.part k) c .pair)).modPart k
          (openBacks (16 * s.draws + k) wasAtStart [regionOf (s.part k) c .pair]), {})
      else (popFront s q.toNat, failed stINVALID 3 0 p)) = (u, r)) :
    StartsAs (exec (.defineDamaskPair q) s) s q c u r :=
  startsAs_onPipe_of_pipe (sel := fun _ _ c => isKind 2 0x15 c && rgOp c = 0) hr (by simp [hk, ho]) hp hd he

theorem defineStepScratchRange_startsAs (hk : isKind 2 0x15 c = true) (ho : rgOp c = 1) {u : State} {r : Started}
    (he : (if regionOk (s.part k) c (regionOf (s.part k) c .scratch) = true ∧ rgBack c = 0 then
        ((addRegion (popFront s q.toNat) k c (regionOf (s.part k) c .scratch)).zeroFill k
          (regionOf (s.part k) c .scratch).front.toNat (2 ^ 21 * rgPages c), {})
      else (popFront s q.toNat, failed stINVALID 3 0 p)) = (u, r)) :
    StartsAs (exec (.defineStepScratchRange q) s) s q c u r :=
  startsAs_onPipe_of_pipe (sel := fun _ _ c => isKind 2 0x15 c && rgOp c = 1) hr (by simp [hk, ho]) hp hd he

theorem defineBuddyRange_startsAs (hk : isKind 2 0x15 c = true) (ho : rgOp c = 3) {u : State} {r : Started}
    (he : (if regionOk (s.part k) c (regionOf (s.part k) c .buddy) = true ∧ rgBack c < 2 ^ 16 then
        (addRegion (popFront s q.toNat) k c (regionOf (s.part k) c .buddy), {})
      else (popFront s q.toNat, failed stINVALID 3 0 p)) = (u, r)) :
    StartsAs (exec (.defineBuddyRange q) s) s q c u r :=
  startsAs_onPipe_of_pipe (sel := fun _ _ c => isKind 2 0x15 c && rgOp c = 3) hr (by simp [hk, ho]) hp hd he

theorem removeEntry_startsAs (hk : isKind 2 0x15 c = true) (ho : rgOp c = 2) {u : State} {r : Started}
    (he : removeEntry (popFront s q.toNat) k c p = (u, r)) : StartsAs (exec (.removeEntry q) s) s q c u r :=
  startsAs_onPipe_of_pipe (sel := fun _ _ c => isKind 2 0x15 c && rgOp c = 2) hr (by simp [hk, ho]) hp hd he

theorem dstep_startsAs (hk : isKind 2 0x16 c = true) {u : State} {r : Started}
    (he : (if ((s.part k).regions.any fun e => e.2.kind = .pair) = true ∨ (!bodyClear c [(175, 128)]) = true then
        (popFront s q.toNat, failed stINVALID 3 0 p)
      else ((popFront s q.toNat).modPart k fun P => { P with stepNo := BitVec.ofNat 48 (fld c 175 128) }, {})) = (u, r)) :
    StartsAs (exec (.dstep q) s) s q c u r :=
  startsAs_onPipe_of_pipe (sel := isUpd 0x16) hr hk hp hd he

theorem phase_startsAs (hk : isKind 2 0x17 c = true) {u : State} {r : Started}
    (he : (if 5 < fld c 130 128 ∨ 2 ^ sliceCount (s.part k) ≤ fld c 146 131 ∨ (!bodyClear c [(130, 128), (146, 131)]) = true then
        (popFront s q.toNat, failed stINVALID 3 0 p)
      else ((maskSlices (s.part k) (fld c 146 131)).foldl (takePhase (BitVec.ofNat 3 (fld c 130 128))) (popFront s q.toNat),
        { work := if (maskSlices (s.part k) (fld c 146 131)).isEmpty then .done
          else .phase (maskSlices (s.part k) (fld c 146 131)) })) = (u, r)) :
    StartsAs (exec (.phase q) s) s q c u r :=
  startsAs_onPipe_of_pipe (sel := isUpd 0x17) hr hk hp hd he
end

/-! ### What each row leaves -/

section
variable {s : State} {q k c : Nat} {r : Region}

theorem tfind_definePair (h : regionOk (s.part k) c r = true) (d : Nat) (rs : List Region) :
    let u := (addRegion s k c r).modPart k (openBacks d wasAtStart rs)
    tfind (u.part k).regions (rgIndex c) = some r ∧
      (∀ j, j ≠ rgIndex c → tfind (u.part k).regions j = tfind (s.part k).regions j) ∧ (u.part k).stepNo = (s.part k).stepNo := by
  dsimp only
  rw [part_modPart_same, openBacks_eq]
  obtain ⟨hi, hj⟩ := tfind_addRegion h
  exact ⟨hi, hj, addRegion_stepNo s k c r⟩

theorem tfind_defineScratch (h : regionOk (s.part k) c r = true) (a n : Nat) :
    let u := (addRegion s k c r).zeroFill k a n
    tfind (u.part k).regions (rgIndex c) = some r ∧
      (∀ j, j ≠ rgIndex c → tfind (u.part k).regions j = tfind (s.part k).regions j) ∧ (u.part k).stepNo = (s.part k).stepNo := by
  have hacc := accessed_zeroFill (addRegion s k c r) k a n
  dsimp only
  rw [hacc.regions, hacc.stepNo]
  obtain ⟨hi, hj⟩ := tfind_addRegion h
  exact ⟨hi, hj, addRegion_stepNo s k c r⟩
end

/-- The work of a PHASE on these slices. -/
theorem phaseWork_eq (l : List Nat) : (if l.isEmpty then Work.done else .phase l) = if l = [] then .done else .phase l := by
  cases l <;> rfl

theorem isPair_any_iff (l : List (Nat × Region)) : (l.any fun e => e.2.kind = .pair) = true ↔ ¬∀ e ∈ l, e.2.kind ≠ .pair := by
  simp

/-- Settles O41. -/
theorem regionsStepAndPhase : Obligations.RegionsStepAndPhase := by
  unfold Obligations.RegionsStepAndPhase
  intro s q k c hr P z i only scratch
  refine ⟨fun hp e he hk => ?_, fun p hp hd => ?_⟩
  · simp only [List.mem_cons, List.not_mem_nil, or_false] at he
    obtain rfl | rfl | rfl | rfl | rfl | rfl | rfl | rfl | rfl := he <;> exact startsAs_onPipe_of_noPipe hr hk hp
  refine ⟨fun hk ho => ⟨fun hb => ?_, fun hg => ?_⟩, fun hk ho => ⟨fun hb => ?_, fun hg hz => ?_⟩,
    fun hk ho => ⟨fun hb => ?_, fun hg hz => ?_⟩, fun hk ho => ⟨fun hb => ?_, fun hg hz => ?_⟩, fun hk => ?_, fun hk => ?_⟩
  · exact defineDamaskPair_startsAs hr hp hd hk ho (if_neg (by rw [hb]; decide))
  · exact ⟨_, defineDamaskPair_startsAs hr hp hd hk ho (if_pos hg),
      (keeps_modPart among (keeps_addRegion among (keeps_pop among _ _) _ _ _) _ _).frame, tfind_definePair (s := z) hg _ _⟩
  · exact defineStepScratchRange_startsAs hr hp hd hk ho (if_neg hb)
  · have hmaps : MapsAs P ((addRegion z k c scratch).part k) := mapsAs_addRegion (s := z) nofun
    refine ⟨_, defineStepScratchRange_startsAs hr hp hd hk ho (if_pos ⟨hg, hz⟩),
      (keeps_zeroFill among (keeps_addRegion among (keeps_pop among _ _) _ _ _) _ _ _).frame, tfind_defineScratch (s := z) hg _ _, ?_, ?_⟩
    · rw [regionOf_front]
      exact storesWithin_trans (t := addRegion z k c scratch) (storesWithin_of_mem_eq rfl)
        (storesWithin_zeroFill hmaps (List.mem_singleton.2 rfl))
    · rw [regionOf_front]
      exact fun x h1 h2 key hkey => cellAt_zeroFill h1 h2 ((hmaps.keyOf k x).trans hkey)
  · refine removeEntry_startsAs hr hp hd hk ho ?_
    unfold removeEntry
    rw [popFront_part]
    cases ht : tfind P.regions i with
    | none => rfl
    | some r =>
      have hclear : bodyClear c [(255, 128)] = false := hb.resolve_left (by simp [ht])
      dsimp only
      rw [hclear]; rfl
  · obtain ⟨r, ht⟩ := Option.ne_none_iff_exists'.1 hg
    refine ⟨_, removeEntry_startsAs (u := z.modPart k fun P => { P with regions := tdel P.regions i, remap := keepFront P r }) hr hp hd hk ho ?_,
      (keeps_modPart among (keeps_pop among _ _) _ _).frame, ?_⟩
    · unfold removeEntry
      rw [popFront_part, ht]
      dsimp only
      rw [hz]; rfl
    · rw [part_modPart_same]
      exact ⟨by rw [tfind_tdel, if_pos rfl], fun j hj => by rw [tfind_tdel, if_neg hj]; rfl, rfl⟩
  · exact defineBuddyRange_startsAs hr hp hd hk ho (if_neg hb)
  · obtain ⟨hi, hj⟩ := tfind_addRegion (s := z) hg
    exact ⟨_, defineBuddyRange_startsAs hr hp hd hk ho (if_pos ⟨hg, hz⟩),
      (keeps_addRegion among (keeps_pop among _ _) _ _ _).frame, hi, hj, addRegion_stepNo z k c _⟩
  · intro legal
    have hno : ((P.regions.any fun e => e.2.kind = .pair) = true ∨ (!bodyClear c [(175, 128)]) = true) ↔ ¬legal := by
      rw [isPair_any_iff, Classical.not_and_iff_not_or_not, Bool.not_eq_true', Bool.not_eq_true]
    refine ⟨fun hl => dstep_startsAs hr hp hd hk (if_pos (hno.2 hl)), fun hl =>
      ⟨_, dstep_startsAs hr hp hd hk (if_neg fun g => hno.1 g hl), (keeps_modPart among (keeps_pop among _ _) _ _).frame, ?_, ?_⟩⟩
    · exact part_modPart_same _ _ _
    · exact fun j hj => part_modPart_ne _ hj _
  · intro m legal
    have hno : (5 < fld c 130 128 ∨ 2 ^ sliceCount P ≤ m ∨ (!bodyClear c [(130, 128), (146, 131)]) = true) ↔ ¬legal := by
      rw [Classical.not_and_iff_not_or_not, Classical.not_and_iff_not_or_not, Bool.not_eq_true', Bool.not_eq_true, not_le, not_lt]
    refine ⟨fun hl => phase_startsAs hr hp hd hk (if_pos (hno.2 hl)), fun hl => ?_⟩
    have hs := phase_startsAs hr hp hd hk (if_neg fun g => hno.1 g hl)
    rw [phaseWork_eq] at hs
    refine ⟨_, hs, (keeps_foldl (fun s i h => keeps_takePhase among h _ _) (keeps_pop among _ _)).frame, fun j => ⟨fun hj => ?_, fun hj => ?_⟩⟩
    · exact (foldl_takePhase_slice_phase _ _ _ _).trans (if_pos hj)
    · exact foldl_takePhase_slice_of_not_mem _ hj _

end Sys2Proof.Machine.TrainingStep
end

section
/-! PROOFS. The commit gate (07 R214, R217 to R221): COMMIT and REFUSE. -/

namespace Sys2Proof.Machine.TrainingStep
open Sys2Proof

/-! ### The health state at the end of a step (07 R214, R219) -/

/-- g is h with what was latched taken away (R219); the loss register stands. -/
structure Closed (h g : Health) : Prop where
  nan : g.nan = (closeHealth h).nan
  sat : g.sat = (closeHealth h).sat
  flush : g.flush = (closeHealth h).flush
  div0 : g.div0 = (closeHealth h).div0
  xsat : g.xsat = (closeHealth h).xsat
  ue : g.ue = (closeHealth h).ue
  qfault : g.qfault = (closeHealth h).qfault
  spike : g.spike = (closeHealth h).spike
  noLoss : g.noLoss = (closeHealth h).noLoss
  latch : g.latch = none
  loss : g.loss = h.loss

/-- What a refusal leaves of the health state (R218, R219): closed, counted, the detector as it was. -/
structure RefusedHealth (h g : Health) : Prop where
  closed : Closed h g
  stepsRef : g.stepsRef = satAdd 64 h.stepsRef 1
  stepsOk : g.stepsOk = h.stepsOk
  lsMean : g.lsMean = h.lsMean
  lsVar : g.lsVar = h.lsVar
  lsN : g.lsN = h.lsN

/-- What a passing commit leaves of the health state (R214, R217, R219): closed, counted, the loss folded into the detector. -/
structure PassedHealth (h g : Health) (lsA : Nat) : Prop where
  closed : Closed h g
  stepsOk : g.stepsOk = satAdd 64 h.stepsOk 1
  stepsRef : g.stepsRef = h.stepsRef
  lsMean : g.lsMean = (foldLoss h lsA).lsMean
  lsVar : g.lsVar = (foldLoss h lsA).lsVar
  lsN : g.lsN = (foldLoss h lsA).lsN

/-- The policy after a refusal is noted beside what the step left (R221). -/
theorem refusalPolicy_eq (d : PDict) (h : Health) (v : Nat) : refusalPolicy d h v
    = { h with cause := (refusalPolicy d h v).cause, refusals := (refusalPolicy d h v).refusals,
               spikeRun := (refusalPolicy d h v).spikeRun, policy := (refusalPolicy d h v).policy,
               maskSpike := (refusalPolicy d h v).maskSpike } := by
  unfold refusalPolicy; dsimp only; split <;> rfl
theorem logRelax_eq (n : BitVec 48) (h : Health) : logRelax n h = { h with relaxLog := (logRelax n h).relaxLog } := by
  unfold logRelax; split <;> rfl
theorem foldLoss_eq (h : Health) (a : Nat) : foldLoss h a
    = { h with lsMean := (foldLoss h a).lsMean, lsVar := (foldLoss h a).lsVar, lsN := (foldLoss h a).lsN } := by
  unfold foldLoss; dsimp only; split <;> rfl

theorem foldLoss_stepsOk (h : Health) (n : BitVec 64) (a : Nat) :
    foldLoss { h with stepsOk := n } a = { foldLoss h a with stepsOk := n } := by
  unfold foldLoss; dsimp only; split <;> rfl

theorem refusedHealth_refusal (h : Health) (d : PDict) (n : BitVec 48) (v : Nat) :
    RefusedHealth h (logRelax n (refusalPolicy d (closeHealth { h with stepsRef := satAdd 64 h.stepsRef 1 }) v)) := by
  rw [logRelax_eq, refusalPolicy_eq]
  exact ⟨by constructor <;> rfl, rfl, rfl, rfl, rfl, rfl⟩

theorem RefusedHealth.withPolicy {h g : Health} (r : RefusedHealth h g) (p : Option (BitVec 3)) :
    RefusedHealth h { g with policy := p } := by
  obtain ⟨⟨h1, h2, h3, h4, h5, h6, h7, h8, h9, h10, h11⟩, h12, h13, h14, h15, h16⟩ := r
  exact ⟨⟨h1, h2, h3, h4, h5, h6, h7, h8, h9, h10, h11⟩, h12, h13, h14, h15, h16⟩

theorem passedHealth_pass (h : Health) (a : Nat) : PassedHealth h
    { closeHealth (foldLoss { h with stepsOk := satAdd 64 h.stepsOk 1 } a) with
      cause := 5, refusals := 0, spikeRun := 0, policy := none, maskSpike := false } a := by
  rw [foldLoss_stepsOk, foldLoss_eq]
  exact ⟨by constructor <;> rfl, rfl, rfl, rfl, rfl, rfl⟩

/-- The detector counts folded steps up to 2^32 - 1 (R213, R214). -/
theorem foldLoss_lsN (h : Health) (a : Nat) : (foldLoss h a).lsN.toNat = min (2 ^ 32 - 1) (h.lsN.toNat + 1) := by
  have hn : (foldLoss h a).lsN = if h.lsN = 0xFFFFFFFF then h.lsN else h.lsN + 1 := by
    unfold foldLoss; dsimp only; split <;> rfl
  rw [hn]
  split
  · next hmax => rw [hmax]; rfl
  · next hmax =>
    have hlt : h.lsN.toNat < 2 ^ 32 - 1 := by
      have := h.lsN.isLt
      have : h.lsN.toNat ≠ 2 ^ 32 - 1 := fun he => hmax (BitVec.eq_of_toNat_eq he)
      omega
    rw [BitVec.toNat_add, show (1 : BitVec 32).toNat = 1 from rfl]
    omega

theorem foldLoss_first {h : Health} (hn : h.lsN = 0) (a : Nat) :
    (foldLoss h a).lsMean = h.loss ∧ (foldLoss h a).lsVar = 0 := by
  unfold foldLoss; dsimp only; rw [if_pos hn]; exact ⟨rfl, rfl⟩

theorem foldLoss_later {h : Health} (hn : h.lsN ≠ 0) (a : Nat) :
    let d := h.loss.toInt - h.lsMean.toInt
    (foldLoss h a).lsMean = BitVec.ofInt 64 (h.lsMean.toInt + d / 2 ^ a) ∧
      (foldLoss h a).lsVar = BitVec.ofInt 128 ((h.lsVar.toNat : Int) + (d * d - h.lsVar.toNat) / 2 ^ a) := by
  unfold foldLoss
  dsimp only
  rw [if_neg hn]
  dsimp only
  rw [Int.shiftRight_eq_div_pow, Int.shiftRight_eq_div_pow]
  exact ⟨by norm_cast, by norm_cast⟩

/-! ### What counters, events and securing leave of a partition -/

/-- Partition k's health state and step number stand. -/
structure StepStands (k : Nat) (s t : State) : Prop where
  health : (t.part k).health = (s.part k).health
  stepNo : (t.part k).stepNo = (s.part k).stepNo

theorem StepStands.refl (k : Nat) (s : State) : StepStands k s s := ⟨rfl, rfl⟩

section
variable {k : Nat} {z s : State} (hz : StepStands k z s)
include hz

theorem stepStands_of_keeps {ws : List FieldName} {t : State} (h : Keeps ws s t) (hw : FieldName.parts ∉ ws) : StepStands k z t :=
  ⟨by rw [part_of_keeps h hw, hz.health], by rw [part_of_keeps h hw, hz.stepNo]⟩

theorem stepStands_of_parts_eq {t : State} (h : t.parts = s.parts) : StepStands k z t := by
  have hp : t.part k = s.part k := congrArg (fun m => tget ({} : Part) m k) h
  exact ⟨by rw [hp, hz.health], by rw [hp, hz.stepNo]⟩

theorem stepStands_modPart {f : Part → Part} (j : Nat) (hh : ∀ P, (f P).health = P.health := by intro _; dsimp only)
    (hn : ∀ P, (f P).stepNo = P.stepNo := by intro _; dsimp only) : StepStands k z (s.modPart j f) := by
  by_cases hk : k = j
  · subst hk
    exact ⟨by rw [part_modPart_same, hh, hz.health], by rw [part_modPart_same, hn, hz.stepNo]⟩
  · exact ⟨by rw [part_modPart_ne s hk, hz.health], by rw [part_modPart_ne s hk, hz.stepNo]⟩

theorem stepStands_raise (v : Nat) : StepStands k z (raise s v) :=
  stepStands_of_keeps hz (keeps_raise (among_refl _) (keeps_refl _ s) v) (by decide)

theorem stepStands_qEvent (j i : Nat) : StepStands k z (qEvent s j i) := by
  unfold qEvent
  dsimp only
  split
  · exact stepStands_raise (stepStands_modPart hz j) _
  · exact stepStands_modPart hz j

theorem stepStands_checkArm (j : Nat) : StepStands k z (checkArm s j) := by
  unfold checkArm
  dsimp only
  split
  · exact stepStands_qEvent (stepStands_modPart hz j) _ _
  · exact hz

theorem stepStands_addCtr (j c n : Nat) : StepStands k z (addCtr s j c n) := by
  have h : StepStands k z (s.setCtrs (tset 0 s.ctrs c (satAdd 64 (s.ctr c) n))) := stepStands_of_parts_eq hz rfl
  unfold addCtr
  dsimp only
  split
  · exact stepStands_checkArm (stepStands_qEvent h _ _) _
  · exact stepStands_checkArm h _

theorem stepStands_foldl {α : Type} {f : State → α → State} (h : ∀ s x, StepStands k z s → StepStands k z (f s x)) (l : List α) :
    StepStands k z (l.foldl f s) := by
  induction l generalizing s with
  | nil => exact hz
  | cons x l ih => exact ih (h s x hz)

theorem stepStands_askEvacuate : StepStands k z (askEvacuate s) := by
  refine stepStands_foldl hz (fun s j hs => ?_) _
  split
  · refine stepStands_modPart hs j (fun P => ?_) fun P => ?_ <;> unfold askSub <;> split <;> rfl
  · exact hs

theorem stepStands_updateRisk : StepStands k z (updateRisk s) := by
  have h (r : Ripstop) (p : Power) : StepStands k z (driveAlert ((s.setRipstop r).setPower p)) :=
    stepStands_of_keeps (ws := [.pins, .power, .ripstop]) hz
      (keeps_driveAlert among (keeps_setPower among (keeps_setRipstop among (keeps_refl _ s)))) (by decide)
  unfold updateRisk
  dsimp only
  split
  · exact stepStands_askEvacuate (h _ _)
  · exact h _ _

theorem stepStands_ripEvent (cls part die lidx psite detail : Nat) :
    StepStands k z (ripEvent s cls part die lidx psite detail) := by
  have h := stepStands_updateRisk (s := s.setRipstop (countEvent s.ripstop cls)) (stepStands_of_parts_eq hz (State.setRipstop_parts _ _))
  unfold ripEvent
  dsimp only
  split
  · exact stepStands_modPart h _
  · exact stepStands_raise (stepStands_of_parts_eq h (State.setRipstop_parts _ _)) _

theorem stepStands_secureAt (j : Nat) (n : BitVec 48) : StepStands k z (secureAt s j n) := by
  unfold secureAt
  extract_lets urgent again P
  have hu : StepStands k z urgent := stepStands_modPart hz j
  have ha : StepStands k z again := by
    unfold again; split
    · exact stepStands_modPart hu j
    · exact hu
  split
  · exact ha
  · split
    · exact stepStands_modPart ha j
    · split
      · exact ha
      · exact stepStands_ripEvent (stepStands_modPart ha j) _ _ _ _ _ _
end

theorem ctr_of_keeps {ws : List FieldName} {s t : State} (h : Keeps ws s t) (hw : FieldName.ctrs ∉ ws) (c : Nat) :
    t.ctr c = s.ctr c := congrArg (fun m => tget (0 : BitVec 64) m c) (h.same .ctrs hw)

/-- A counter that gains n; every other one stands (06 R182). -/
theorem addCtr_ctr (s : State) (k c n x : Nat) :
    (addCtr s k c n).ctr x = if x = c then satAdd 64 (s.ctr x) n else s.ctr x := by
  have h : (s.setCtrs (tset 0 s.ctrs c (satAdd 64 (s.ctr c) n))).ctr x = if x = c then satAdd 64 (s.ctr x) n else s.ctr x := by
    refine (tget_tset _ _ _ _ _).trans ?_
    split
    · next hx => rw [hx]
    · rfl
  have hq (t : State) : (qEvent t k 3).ctr x = t.ctr x :=
    ctr_of_keeps (keeps_qEvent (among_refl _) (keeps_refl _ t) k 3) (by decide) x
  have ha (t : State) : (checkArm t k).ctr x = t.ctr x :=
    ctr_of_keeps (keeps_checkArm (among_refl _) (keeps_refl _ t) k) (by decide) x
  unfold addCtr
  dsimp only
  rw [ha]
  split
  · rw [hq, h]
  · rw [h]

theorem switchAtCommit_step (P : Part) : (switchAtCommit P).health = P.health ∧ (switchAtCommit P).stepNo = P.stepNo := by
  unfold switchAtCommit; split <;> exact ⟨rfl, rfl⟩

/-! ### A passing commit (07 R217) -/

theorem judgeLsA_accessed {P P' : Part} (h : Accessed P P') : judgeLsA P' = judgeLsA P := by
  unfold judgeLsA; rw [h.health, h.dict]

theorem passStep_step (s : State) (k okCtr : Nat) :
    ((passStep s k okCtr).part k).stepNo = (s.part k).stepNo + 1 ∧
      PassedHealth (s.part k).health ((passStep s k okCtr).part k).health (judgeLsA (s.part k)) := by
  unfold passStep
  dsimp only
  generalize hu : State.modPart s k _ = u
  obtain ⟨hh, hn⟩ := stepStands_addCtr (stepStands_secureAt (.refl k u) k (s.part k).stepNo) k okCtr 1
  rw [hh, hn, ← hu, part_modPart_same, (switchAtCommit_step _).1, (switchAtCommit_step _).2, openBacks_eq]
  exact ⟨rfl, passedHealth_pass _ _⟩

theorem passStep_ctr (s : State) (k okCtr x : Nat) :
    (passStep s k okCtr).ctr x = if x = okCtr then satAdd 64 (s.ctr x) 1 else s.ctr x := by
  have hs (t : State) (n : BitVec 48) : (secureAt t k n).ctr x = t.ctr x :=
    ctr_of_keeps (keeps_secureAt (among_refl _) (keeps_refl _ t) k n) (by decide) x
  unfold passStep
  rw [addCtr_ctr, hs]
  rfl

/-! ### A refusal (07 R218) -/

/-- A scratch entry's range is zero-filled. -/
def clearScratch (k : Nat) (s : State) (e : Nat × Region) : State := s.zeroFill k e.2.front.toNat (2 ^ 21 * e.2.npages)

/-- The entries of the scratch ranges. -/
def scratchOf (P : Part) : List (Nat × Region) := P.regions.filter fun e => e.2.kind = .scratch

theorem accessed_clearScratch (k : Nat) (l : List (Nat × Region)) (s : State) :
    Accessed (s.part k) ((l.foldl (clearScratch k) s).part k) := by
  induction l generalizing s with
  | nil => exact .refl _
  | cons e l ih => exact (accessed_zeroFill s k _ _).trans (ih _)

theorem storesWithin_clearScratch {P : Part} {k : Nat} {spans : List (Nat × Nat)} (l : List (Nat × Region)) {s : State}
    (hm : MapsAs P (s.part k)) (hl : ∀ e ∈ l, (e.2.front.toNat, 2 ^ 21 * e.2.npages) ∈ spans) :
    StoresWithin P k spans s (l.foldl (clearScratch k) s) := by
  induction l generalizing s with
  | nil => exact storesWithin_of_mem_eq rfl
  | cons e l ih =>
    exact storesWithin_trans (storesWithin_zeroFill hm (hl e List.mem_cons_self))
      (ih (hm.trans (accessed_zeroFill s k _ _).maps) fun e he => hl e (List.mem_cons_of_mem _ he))

theorem cellAt_clearScratch_of_zero {k key : Nat} (l : List (Nat × Region)) {s : State} (h : cellAt s.mem key = 0) :
    cellAt (l.foldl (clearScratch k) s).mem key = 0 := by
  induction l generalizing s with
  | nil => exact h
  | cons e l ih => exact ih (cellAt_zeroFill_of_zero h)

theorem cellAt_clearScratch {P : Part} {k : Nat} {l : List (Nat × Region)} {s : State} (hm : MapsAs P (s.part k)) {e : Nat × Region}
    (he : e ∈ l) {x key : Nat} (h1 : e.2.front.toNat ≤ x) (h2 : x < e.2.front.toNat + 2 ^ 21 * e.2.npages)
    (hkey : keyOf P k x = some key) : cellAt (l.foldl (clearScratch k) s).mem key = 0 := by
  induction l generalizing s with
  | nil => cases he
  | cons a l ih =>
    obtain rfl | he := List.mem_cons.1 he
    · exact cellAt_clearScratch_of_zero l (cellAt_zeroFill h1 h2 ((hm.keyOf k x).trans hkey))
    · exact ih (hm.trans (accessed_zeroFill s k _ _).maps) he

/-- What a refusal of a step leaves: the step number, the detector and all memory but scratch stand, scratch reads zero. -/
structure Refused (P : Part) (k : Nat) (s u : State) : Prop where
  stepNo : (u.part k).stepNo = P.stepNo
  health : RefusedHealth P.health (u.part k).health
  within : StoresWithin P k ((scratchOf P).map fun e => (e.2.front.toNat, 2 ^ 21 * e.2.npages)) s u
  zero : ∀ e ∈ P.regions, e.2.kind = .scratch → ∀ x, e.2.front.toNat ≤ x → x < e.2.front.toNat + 2 ^ 21 * e.2.npages →
    ∀ key, keyOf P k x = some key → cellAt u.mem key = 0

theorem refused_refuseStep {P : Part} {s : State} {k : Nat} (h : Accessed P (s.part k)) (v : Nat) :
    Refused P k s (refuseStep s k v) := by
  have hz := accessed_clearScratch k (scratchOf (s.part k)) s
  have hscratch : scratchOf (s.part k) = scratchOf P := by unfold scratchOf; rw [h.regions]
  have hu : ∃ d, refuseStep s k v = ((scratchOf (s.part k)).foldl (clearScratch k) s).modPart k fun Q =>
      { openBacks d wasAtRefusal (Q.regions.map Prod.snd) Q with
        health := logRelax Q.stepNo (refusalPolicy Q.dict (closeHealth { Q.health with stepsRef := satAdd 64 Q.health.stepsRef 1 }) v) } :=
    ⟨16 * ((scratchOf (s.part k)).foldl (clearScratch k) s).draws + k, rfl⟩
  obtain ⟨d, hu⟩ := hu
  have hmem : (refuseStep s k v).mem = ((scratchOf P).foldl (clearScratch k) s).mem := by rw [hu, ← hscratch]; rfl
  refine ⟨?_, ?_, ?_, fun e he hk x h1 h2 key hkey => ?_⟩
  · rw [hu, part_modPart_same, openBacks_eq]
    exact hz.stepNo.trans h.stepNo
  · rw [hu, part_modPart_same]
    dsimp only
    rw [hz.health, h.health]
    exact refusedHealth_refusal _ _ _ _
  · exact storesWithin_trans (storesWithin_clearScratch (scratchOf P) h.maps fun e he => List.mem_map_of_mem he)
      (storesWithin_of_mem_eq hmem)
  · rw [hmem]
    exact cellAt_clearScratch h.maps (List.mem_filter.2 ⟨he, by simpa using hk⟩) h1 h2 hkey

theorem Refused.withPolicy {P : Part} {k : Nat} {s u : State} (h : Refused P k s u) {f : Part → Part}
    (hf : ∀ Q, (f Q).stepNo = Q.stepNo ∧ ∃ p, (f Q).health = { Q.health with policy := p }) : Refused P k s (u.modPart k f) := by
  obtain ⟨hn, hh, hw, hz⟩ := h
  obtain ⟨hfn, p, hfh⟩ := hf (u.part k)
  refine ⟨?_, ?_, hw, hz⟩
  · rw [part_modPart_same, hfn, hn]
  · rw [part_modPart_same, hfh]; exact hh.withPolicy p

theorem refused_refuseReplay {P : Part} {s : State} {k : Nat} (h : Accessed P (s.part k)) (v : Nat) :
    Refused P k s (refuseReplay s k v) :=
  (refused_refuseStep h v).withPolicy fun _ => ⟨rfl, _, rfl⟩

theorem Refused.addCtr {P : Part} {k : Nat} {s u : State} (h : Refused P k s u) (c : Nat) : Refused P k s (addCtr u k c 1) := by
  obtain ⟨hn, hh, hw, hz⟩ := h
  obtain ⟨sh, sn⟩ := stepStands_addCtr (.refl k u) k c 1
  have hmem : (Machine.addCtr u k c 1).mem = u.mem := (keeps_addCtr (among_refl _) (keeps_refl _ u) k c 1).same .mem (by decide)
  refine ⟨sn.trans hn, by rw [sh]; exact hh, storesWithin_trans hw (storesWithin_of_mem_eq hmem), ?_⟩
  rw [hmem]; exact hz

theorem Refused.of_mem_eq {P : Part} {k : Nat} {s t u : State} (h : Refused P k t u) (hm : t.mem = s.mem) : Refused P k s u :=
  ⟨h.stepNo, h.health, storesWithin_trans (storesWithin_of_mem_eq hm) h.within, h.zero⟩

/-! ### COMMIT and REFUSE (07 R190, R214, R217, R218) -/

theorem commitOk_stepNo {P : Part} {c : Nat} (h : commitOk P c = true) : fld c 223 176 = P.stepNo.toNat := by
  simp only [commitOk, Bool.and_eq_true, decide_eq_true_eq] at h
  obtain ⟨⟨-, h⟩, -⟩ := h
  exact h

/-- The voted word lets a COMMIT pass: no masked bit is set and its step agrees (R217). -/
abbrev votePasses (P : Part) (v : Nat) : Prop :=
  (BitVec.ofNat 16 v &&& judgeMask P) = 0 ∧ bitsOf v 63 48 = P.stepNo.toNat % 2 ^ 16

/-- The replay of a restored step does not show the fingerprint that was recorded (12 Table 12.8). -/
def replayFails (P : Part) : Bool := P.verify.any fun f => decide (f ≠ P.health.fp)

section
variable {s : State} {q : Qid} {k c p : Nat} (hr : s.ready q k c) (hp : pipeOf s (s.part k) c = some p) (hd : pipeDue s k c = false)
include hr hp hd

/-- The state in which the effect of a COMMIT begins: the voted word has been read. -/
def voteRead (s : State) (q : Qid) (k c : Nat) : State := (popFront s q.toNat).noteRead k (fld c 175 128) 8

theorem commit_startsAs_of_invalid (hk : isKind 2 0x13 c = true) (hb : commitOk (s.part k) c = false) :
    StartsAs (exec (.commit q) s) s q c (popFront s q.toNat) (failed stINVALID 3 0 p) := by
  refine startsAs_onPipe_of_pipe (sel := fun s k c => isKind 2 0x13 c && (!commitOk (s.part k) c || !pairsMigrating (s.part k)))
    hr (by simp [hk, hb]) hp hd ?_
  dsimp only
  rw [popFront_part, hb]; rfl

/-- A valid COMMIT, its pairs at rest: refused an unreadable word, else it passes, or refuses the step (R217, R218). -/
theorem commit_startsAs (hk : isKind 2 0x13 c = true) (hok : commitOk (s.part k) c = true) (hm : pairsMigrating (s.part k) = false)
    {u : State} {r : Started}
    (he : (if (!readable (s.part k) (fld c 175 128) 8) = true then (popFront s q.toNat, failed stADDRESS 3 (fld c 175 128) p)
      else if votePasses (s.part k) (s.loadNat k (fld c 175 128) 8) then
        if replayFails (s.part k) = true then
          (addCtr (refuseReplay (voteRead s q k c) k (s.loadNat k (fld c 175 128) 8)) k (fld c 251 238) 1, {})
        else (passStep (voteRead s q k c) k (fld c 237 224), {})
      else (addCtr (refuseStep (voteRead s q k c) k (s.loadNat k (fld c 175 128) 8)) k (fld c 251 238) 1, {})) = (u, r)) :
    StartsAs (exec (.commit q) s) s q c u r := by
  refine startsAs_onPipe_of_pipe (sel := fun s k c => isKind 2 0x13 c && (!commitOk (s.part k) c || !pairsMigrating (s.part k)))
    hr (by simp [hk, hm]) hp hd ?_
  dsimp only
  rw [popFront_part, hok, if_neg (by decide)]
  exact he

theorem refuse_startsAs (hk : isKind 2 0x14 c = true) {u : State} {r : Started}
    (he : (if fld c 223 176 ≠ (s.part k).stepNo.toNat ∨ (!bodyClear c [(223, 176)]) = true then
        (popFront s q.toNat, failed stINVALID 3 0 p)
      else (refuseStep (popFront s q.toNat) k (match (s.part k).health.latch with | some (w, _) => w.toNat | none => 0), {})) = (u, r)) :
    StartsAs (exec (.refuse q) s) s q c u r :=
  startsAs_onPipe_of_pipe (sel := isUpd 0x14) hr hk hp hd he
end

section
variable {s : State} {q : Qid} {k c : Nat}

theorem accessed_voteRead : Accessed (s.part k) ((voteRead s q k c).part k) :=
  accessed_noteRead (popFront s q.toNat) k _ _
theorem voteRead_ctr (x : Nat) : (voteRead s q k c).ctr x = s.ctr x :=
  ctr_of_keeps (keeps_noteRead among (keeps_pop among s q.toNat) _ _ _ : Keeps [.queues, .parts, .snoops] s _) (by decide) x
theorem keeps_voteRead {ws : List FieldName} (hw : Among [.queues, .parts, .snoops] ws) : Keeps ws s (voteRead s q k c) :=
  keeps_noteRead (hw.mono (by decide)) (keeps_pop (hw.mono (by decide)) _ _) _ _ _

/-- What a passing COMMIT leaves. -/
theorem passStep_voteRead (okCtr : Nat) : let u := passStep (voteRead s q k c) k okCtr
    u.mem = s.mem ∧ (u.part k).stepNo = (s.part k).stepNo + 1 ∧
      PassedHealth (s.part k).health (u.part k).health (judgeLsA (s.part k)) ∧
      ∀ x, u.ctr x = if x = okCtr then satAdd 64 (s.ctr x) 1 else s.ctr x := by
  have hacc : Accessed (s.part k) ((voteRead s q k c).part k) := accessed_voteRead
  obtain ⟨hn, hh⟩ := passStep_step (voteRead s q k c) k okCtr
  rw [hacc.stepNo] at hn
  rw [hacc.health, judgeLsA_accessed hacc] at hh
  refine ⟨?_, hn, hh, fun x => ?_⟩
  · exact ((keeps_passStep among (keeps_voteRead among) _ _ :
      Keeps [.ctrs, .parts, .link, .vectors, .pins, .power, .ripstop, .queues, .snoops] s _).same .mem (by decide))
  · rw [passStep_ctr, voteRead_ctr]

theorem refuseStep_ctr (v x : Nat) : (refuseStep (voteRead s q k c) k v).ctr x = s.ctr x :=
  (ctr_of_keeps (keeps_refuseStep (among_refl _) (keeps_refl _ _) k v) (by decide) x).trans (voteRead_ctr x)
theorem refuseReplay_ctr (v x : Nat) : (refuseReplay (voteRead s q k c) k v).ctr x = s.ctr x :=
  (ctr_of_keeps (keeps_refuseReplay (among_refl _) (keeps_refl _ _) k v) (by decide) x).trans (voteRead_ctr x)
end

/-- A COMMIT that does not pass refuses the step, and its refusal counter alone gains one. -/
theorem commit_refuses {s : State} {q : Qid} {k c p : Nat} (hr : s.ready q k c) (hp : pipeOf s (s.part k) c = some p)
    (hd : pipeDue s k c = false) (hk : isKind 2 0x13 c = true) (hok : commitOk (s.part k) c = true)
    (hm : pairsMigrating (s.part k) = false) (hread : readable (s.part k) (fld c 175 128) 8 = true)
    (hno : ¬(votePasses (s.part k) (s.loadNat k (fld c 175 128) 8) ∧ replayFails (s.part k) = false)) :
    ∃ u, StartsAs (exec (.commit q) s) s q c u {} ∧ Keeps [.mem, .queues, .ctrs, .parts, .link, .vectors, .snoops] s u ∧
      Refused (s.part k) k s u ∧ ∀ x, u.ctr x = if x = fld c 251 238 then satAdd 64 (s.ctr x) 1 else s.ctr x := by
  have hstart := @commit_startsAs s q k c p hr hp hd hk hok hm
  have hacc : Accessed (s.part k) ((voteRead s q k c).part k) := accessed_voteRead
  have hmem : (voteRead s q k c).mem = s.mem := noteRead_mem _ _ _ _
  have hkeep := keeps_voteRead (s := s) (q := q) (k := k) (c := c)
    (ws := [.mem, .queues, .ctrs, .parts, .link, .vectors, .snoops]) among
  generalize s.loadNat k (fld c 175 128) 8 = v at hstart hno
  by_cases hv : votePasses (s.part k) v
  · have hf : replayFails (s.part k) = true := by simpa [hv] using hno
    refine ⟨_, hstart ((if_neg (by rw [hread]; decide)).trans ((if_pos hv).trans (if_pos hf))),
      keeps_addCtr among (keeps_refuseReplay among hkeep _ _) _ _ _,
      ((refused_refuseReplay hacc v).addCtr _).of_mem_eq hmem, fun x => ?_⟩
    rw [addCtr_ctr, refuseReplay_ctr]
  · refine ⟨_, hstart ((if_neg (by rw [hread]; decide)).trans (if_neg hv)),
      keeps_addCtr among (keeps_refuseStep among hkeep _ _) _ _ _,
      ((refused_refuseStep hacc v).addCtr _).of_mem_eq hmem, fun x => ?_⟩
    rw [addCtr_ctr, refuseStep_ctr]

/-- Settles O40. -/
theorem commitGate : Obligations.CommitGate := by
  unfold Obligations.CommitGate
  intro s q k c p hr hp hd P h z a v passes sub closed refused
  have hclosed {g : Health} (hg : Closed h g) : closed g := by
    obtain ⟨h1, h2, h3, h4, h5, h6, h7, h8, h9, h10, h11⟩ := hg
    exact ⟨h1, h2, h3, h4, h5, h6, h7, h8, h9, h10, h11⟩
  have hrefused {u : State} (hu : Refused P k s u) : refused u := by
    obtain ⟨hn, ⟨hc, h1, h2, h3, h4, h5⟩, hw, hz⟩ := hu
    exact ⟨hn, hclosed hc, h1, h2, h3, h4, h5, hw, hz⟩
  have hpasses : passes ↔ votePasses P v ∧ replayFails P = false := and_assoc.symm
  refine ⟨commit_startsAs_of_invalid hr hp hd, fun hk hok hm => ⟨commitOk_stepNo hok, fun hb => ?_, fun hg => ?_⟩,
    fun hk => ?_⟩
  · exact commit_startsAs hr hp hd hk hok hm (if_pos (by rw [hb]; rfl))
  · by_cases hv : passes
    · obtain ⟨hvote, hreplay⟩ := hpasses.1 hv
      obtain ⟨hmem, hn, hh, hctr⟩ := passStep_voteRead (s := s) (q := q) (k := k) (c := c) (fld c 237 224)
      refine ⟨_, commit_startsAs hr hp hd hk hok hm ((if_neg (by rw [hg]; decide)).trans ((if_pos hvote).trans
        (if_neg (by rw [hreplay]; decide)))), (keeps_passStep among (keeps_voteRead among) _ _).frame, fun _ => ?_, (absurd hv ·)⟩
      obtain ⟨hc, hso, hsr, hmean, hvar, hln⟩ := hh
      refine ⟨hmem, hn, hclosed hc, hso, hsr, hctr, ?_, fun h0 => ?_, fun h0 => ?_⟩
      · rw [hln]; exact foldLoss_lsN _ _
      · rw [hmean, hvar]; exact foldLoss_first h0 _
      · rw [hmean, hvar]; exact foldLoss_later h0 _
    · obtain ⟨u, hs, hkeep, hu, hctr⟩ := commit_refuses hr hp hd hk hok hm hg (fun hw => hv (hpasses.2 hw))
      exact ⟨u, hs, (keeps_step among (keeps_refl _ s) hkeep).frame, (absurd · hv), fun _ => ⟨hrefused hu, hctr⟩⟩
  · intro legal
    have hno : (fld c 223 176 ≠ P.stepNo.toNat ∨ (!bodyClear c [(223, 176)]) = true) ↔ ¬legal := by
      rw [Classical.not_and_iff_not_or_not, Bool.not_eq_true', Bool.not_eq_true]
    refine ⟨fun hl => refuse_startsAs hr hp hd hk (if_pos (hno.2 hl)), fun hl =>
      ⟨_, refuse_startsAs hr hp hd hk (if_neg fun g => hno.1 g hl), ?_, ?_⟩⟩
    · exact (keeps_refuseStep among (keeps_pop among _ _) _ _).frame
    · exact hrefused ((refused_refuseStep (s := z) (.refl P) _).of_mem_eq rfl)

end Sys2Proof.Machine.TrainingStep
end

section
/-! PROOFS. The arithmetic of the update machine and its register operations (07 R196, R197, R199, Tables 07.6, 07.7; 02 R40). -/

namespace Sys2Proof.Machine.TrainingStep
open Sys2Proof

/-! ### Rounding to 62 bits (02 R40) -/

theorem natAbs_signed (b : Bool) (m : Nat) : (signed b m).natAbs = m := by cases b <;> simp [signed]

theorem signed_neg {b : Bool} {m : Nat} (h : signed b m < 0) : b = true := by
  cases b with
  | true => rfl
  | false => exact absurd h (by simp [signed])
theorem signed_pos {b : Bool} {m : Nat} (h : 0 < signed b m) : b = false ∧ 0 < m := by
  cases b with
  | true => exact absurd h (by simp [signed])
  | false => exact ⟨rfl, by simpa [signed] using h⟩

/-- Rounding by a shift is off by half a unit at most. -/
theorem rneShift_bounds (a : Nat) {d : Nat} (hd : 0 < d) :
    2 * (rneShift a d * 2 ^ d) ≤ 2 * a + 2 ^ d ∧ 2 * a ≤ 2 * (rneShift a d * 2 ^ d) + 2 ^ d := by
  have hhalf : 2 ^ d = 2 * 2 ^ (d - 1) := by rw [← pow_succ']; congr 1; omega
  have hdiv := Nat.div_add_mod a (2 ^ d)
  have hlt := Nat.mod_lt a (Nat.two_pow_pos d)
  have hrest : a - a / 2 ^ d * 2 ^ d = a % 2 ^ d := by rw [mul_comm]; omega
  unfold rneShift
  rw [if_neg (by omega)]
  dsimp only
  rw [Nat.shiftRight_eq_div_pow, Nat.shiftLeft_eq, Nat.shiftLeft_eq, one_mul, hrest]
  rw [mul_comm] at hdiv
  generalize a / 2 ^ d = t at *
  generalize a % 2 ^ d = r at *
  split
  · rw [add_mul, one_mul]; omega
  · omega

/-- A magnitude of 62 bits or more is rounded by a shift of at least one, to a positive one of fewer than 63 bits. -/
theorem fitQ_of_large {n : Int} (q : Int) (h : 2 ^ 62 ≤ n.natAbs) : ∃ e b : Nat, 0 < e ∧ 0 < b ∧ b < 2 ^ 62 ∧
    fitQ n q = (signed (decide (n < 0)) b, q + e) ∧ 2 * (b * 2 ^ e) ≤ 2 * n.natAbs + 2 ^ e ∧ 2 * n.natAbs ≤ 2 * (b * 2 ^ e) + 2 ^ e := by
  have hne : n.natAbs ≠ 0 := by omega
  have hlog : 62 ≤ n.natAbs.log2 := (Nat.le_log2 hne).2 h
  obtain ⟨d, hd⟩ : ∃ d, bitlen n.natAbs - 62 = d := ⟨_, rfl⟩
  have hbit : bitlen n.natAbs = n.natAbs.log2 + 1 := if_neg hne
  have hlo : 2 ^ 61 * 2 ^ d ≤ n.natAbs := by
    rw [← pow_add, show 61 + d = n.natAbs.log2 by omega]; exact Nat.log2_self_le hne
  have hhi : n.natAbs < 2 ^ 62 * 2 ^ d := by
    rw [← pow_add, show 62 + d = n.natAbs.log2 + 1 by omega]; exact Nat.lt_log2_self
  obtain ⟨h1, h2⟩ := rneShift_bounds n.natAbs (show 0 < d by omega)
  unfold fitQ
  dsimp only
  rw [if_neg (by omega), hd]
  generalize rneShift n.natAbs d = b at *
  have hpos := Nat.two_pow_pos d
  have hb1 : 0 < b := Nat.pos_of_ne_zero fun h0 => by subst h0; omega
  have hb2 : b ≤ 2 ^ 62 := by
    by_contra hgt
    have := Nat.mul_le_mul_right (2 ^ d) (show 2 ^ 62 + 1 ≤ b by omega)
    omega
  by_cases hb : b = 2 ^ 62
  · refine ⟨d + 1, 2 ^ 61, by omega, by norm_num, by norm_num, by rw [if_pos hb]; push_cast; ring_nf, ?_, ?_⟩ <;>
      · subst hb; rw [pow_succ]; omega
  · exact ⟨d, b, by omega, hb1, by omega, by rw [if_neg hb], h1, h2⟩

theorem fitQ_of_small {n : Int} (q : Int) (h : n.natAbs < 2 ^ 62) : fitQ n q = (n, q) := if_pos h

/-- Fitting keeps the sign and lies within half a unit. -/
theorem fitQ_bounds {n : Int} (q : Int) (h : 2 ^ 62 ≤ n.natAbs) : q < (fitQ n q).2 ∧ (fitQ n q).1.natAbs < 2 ^ 62 ∧
    (0 < (fitQ n q).1 ↔ 0 < n) ∧
    2 * ((fitQ n q).1 * 2 ^ ((fitQ n q).2 - q).toNat - n).natAbs ≤ 2 ^ ((fitQ n q).2 - q).toNat := by
  obtain ⟨e, b, he, hb, hb62, hfit, h1, h2⟩ := fitQ_of_large q h
  rw [hfit]
  dsimp only
  rw [natAbs_signed, show (q + (e : Int) - q).toNat = e by omega]
  refine ⟨by omega, hb62, ?_, ?_⟩
  · by_cases hn : n < 0 <;> simp [signed, hn] <;> omega
  · generalize hm : b * 2 ^ e = m at h1 h2
    have hcast : (b : Int) * 2 ^ e = m := by rw [← hm]; push_cast; rfl
    by_cases hn : n < 0
    · rw [signed, if_pos (by simpa using hn), neg_mul, hcast]; omega
    · rw [signed, if_neg (by simpa using hn), hcast]; omega

/-! ### Sums, quotients and square roots (07 Table 07.7) -/

/-- Sums are exact. -/
theorem xadd_exact (a b : Int × Int) : (xadd a b).2 ≤ a.2 ∧ (xadd a b).2 ≤ b.2 ∧
    (xadd a b).1 = a.1 * 2 ^ (a.2 - (xadd a b).2).toNat + b.1 * 2 ^ (b.2 - (xadd a b).2).toNat :=
  ⟨min_le_left _ _, min_le_right _ _, rfl⟩

/-- A quotient truncates the division of magnitudes and has the sign of the exact quotient. -/
theorem divQ_truncates (a b : Int × Int) (hb : b.1 ≠ 0) : ∃ n : Int, divQ a b = fitQ n (a.2 - b.2 - 64)
    ∧ n.natAbs * b.1.natAbs ≤ a.1.natAbs * 2 ^ 64 ∧ a.1.natAbs * 2 ^ 64 < (n.natAbs + 1) * b.1.natAbs
    ∧ (n < 0 → a.1 * b.1 < 0) ∧ (0 < n → 0 < a.1 * b.1) := by
  have hpos : 0 < b.1.natAbs := by omega
  refine ⟨_, rfl, ?_, ?_, fun hn => ?_, fun hn => ?_⟩
  · rw [natAbs_signed]; exact Nat.div_mul_le_self _ _
  · rw [natAbs_signed, mul_comm (_ + 1)]; exact Nat.lt_mul_div_succ _ hpos
  · obtain ⟨hs, ha⟩ : (a.1 < 0 ↔ ¬b.1 < 0) ∧ a.1 ≠ 0 := by simpa only [Bool.and_eq_true, decide_eq_true_eq] using signed_neg hn
    by_cases h : a.1 < 0
    · exact mul_neg_of_neg_of_pos h (by have := hs.1 h; omega)
    · exact mul_neg_of_pos_of_neg (by omega) (by by_contra hb'; exact h (hs.2 hb'))
  · obtain ⟨hsign, hm⟩ := signed_pos hn
    have ha : a.1 ≠ 0 := fun h0 => by simp [h0] at hm
    have hs : ¬(a.1 < 0 ↔ ¬b.1 < 0) := by
      simpa only [ha, ne_eq, not_false_eq_true, decide_true, Bool.and_true, decide_eq_false_iff_not] using hsign
    by_cases h : a.1 < 0
    · exact mul_pos_of_neg_of_neg h (by by_contra hb'; exact hs ⟨fun _ => hb', fun _ => h⟩)
    · refine mul_pos (by omega) ?_
      by_contra hb'
      exact hs ⟨fun h' => absurd h' h, fun h' => absurd (show b.1 < 0 by omega) h'⟩

theorem isqrtBits_spec (n : Nat) : ∀ b acc : Nat, acc * acc ≤ n → n < (acc + 2 ^ b) * (acc + 2 ^ b) →
    isqrtBits n b acc * isqrtBits n b acc ≤ n ∧ n < (isqrtBits n b acc + 1) * (isqrtBits n b acc + 1)
  | 0, acc, h1, h2 => ⟨h1, h2⟩
  | b + 1, acc, h1, h2 => by
    unfold isqrtBits
    refine isqrtBits_spec n b _ ?_ ?_
    · split
      · next h => rwa [← pow_two]
      · exact h1
    · split
      · rwa [add_assoc, ← two_mul, ← pow_succ']
      · next h => rw [← pow_two]; omega

/-- isqrt is the integer square root. -/
theorem isqrt_spec (n : Nat) : isqrt n * isqrt n ≤ n ∧ n < (isqrt n + 1) * (isqrt n + 1) := by
  refine isqrtBits_spec n _ 0 (Nat.zero_le _) ?_
  calc n < 2 ^ (n.log2 + 1) := Nat.lt_log2_self
    _ ≤ 2 ^ ((n.log2 / 2 + 1) + (n.log2 / 2 + 1)) := Nat.pow_le_pow_right (by decide) (by omega)
    _ = (0 + 2 ^ (n.log2 / 2 + 1)) * (0 + 2 ^ (n.log2 / 2 + 1)) := by rw [zero_add, pow_add]

theorem sqrtQ_of_nonpos {a : Int × Int} (h : a.1 ≤ 0) : sqrtQ a = (0, 0) := if_pos h

/-- A square root is the integer root of the mantissa at an even exponent with 64 more bits. -/
theorem sqrtQ_of_pos {a : Int × Int} (h : 0 < a.1) : ∃ (t : Nat) (e : Int) (n : Nat), e % 2 = 0 ∧
    ((t : Int) = a.1 ∧ e = a.2 ∨ (t : Int) = 2 * a.1 ∧ e = a.2 - 1) ∧ n * n ≤ t * 2 ^ 64 ∧ t * 2 ^ 64 < (n + 1) * (n + 1) ∧
    ∃ h : Int, 2 * h = e - 64 ∧ sqrtQ a = fitQ n h := by
  have hhalf (e : Int) (he : e % 2 = 0) : 2 * (e - 64).fdiv 2 = e - 64 := by
    rw [Int.fdiv_eq_ediv_of_nonneg _ (by decide)]; omega
  unfold sqrtQ
  rw [if_neg (by omega)]
  dsimp only
  by_cases he : a.2 % 2 = 0
  · rw [if_pos he]
    obtain ⟨h1, h2⟩ := isqrt_spec (a.1.toNat * 2 ^ 64)
    exact ⟨a.1.toNat, a.2, _, he, .inl ⟨by omega, rfl⟩, h1, h2, _, hhalf _ he, rfl⟩
  · rw [if_neg he]
    obtain ⟨h1, h2⟩ := isqrt_spec (2 * a.1.toNat * 2 ^ 64)
    exact ⟨2 * a.1.toNat, a.2 - 1, _, by omega, .inr ⟨by push_cast; omega, rfl⟩, h1, h2, _, hhalf _ (by omega), rfl⟩

/-- DIV by zero gives zero, and is counted (R199, Table 07.7). -/
theorem microResult_div (a b h : Int × Int) :
    microResult 7 a b h = (if b.1 = 0 then (0, 0) else divQ a b, if 7 = 7 ∧ b.1 = 0 then 1 else 0) := by
  by_cases hb : b.1 = 0 <;> simp [microResult, hb]

/-! ### One operation on a group (07 R197, R199) -/

theorem microGroup_fst (hp : List (Int × Int)) (m : MOp) (es : List UEl) :
    (microGroup hp m es).1 = es.map fun e => (microEl hp m e).1 := List.map_map

/-- A division of an element that is not NaN by zero. -/
def div0El (m : MOp) (v : UEl) : Bool := !v.nan && decide ((v.x.getD m.b (0, 0)).1 = 0)

section
variable {hp : List (Int × Int)} {m : MOp} (hz : ∀ a b h, (microResult m.op a b h).2 = if m.op = 7 ∧ b.1 = 0 then 1 else 0)
include hz

theorem microEl_div0 (v : UEl) : (microEl hp m v).2 = if m.op = 7 ∧ div0El m v = true then 1 else 0 := by
  unfold microEl div0El
  cases v.nan
  · simp [hz]
  · simp

/-- The divide-by-zero events of a group. -/
theorem microGroup_div0 (es : List UEl) : (microGroup hp m es).2 = if m.op = 7 then es.countP (div0El m) else 0 := by
  have hacc : ∀ (es : List UEl) (n : Nat), (es.map (microEl hp m)).foldl (fun n r => n + r.2) n
      = n + if m.op = 7 then es.countP (div0El m) else 0 := by
    intro es
    induction es with
    | nil => simp
    | cons v es ih =>
      intro n
      rw [List.map_cons, List.foldl_cons, ih, microEl_div0 hz, List.countP_cons]
      by_cases h7 : m.op = 7 <;> by_cases hv : div0El m v = true <;> simp [h7, hv]; omega
  exact (hacc es 0).trans (Nat.zero_add _)
end

/-- An element after an operation: a NaN element keeps its registers; any other takes the result, and is NaN from then on when its
exponent leaves the machine's range (R199). -/
theorem microEl_fst (hp : List (Int × Int)) (m : MOp) (v : UEl) :
    let y := (microResult m.op (v.x.getD m.a (0, 0)) (v.x.getD m.b (0, 0)) (hp.getD m.h (0, 0))).1
    (microEl hp m v).1.x = (if v.nan then v.x else v.x.set m.d y) ∧
      (microEl hp m v).1.nan = (v.nan || decide (y.2 < -16384 ∨ 16383 < y.2)) := by
  unfold microEl
  cases hn : v.nan with
  | true => exact ⟨rfl, hn⟩
  | false =>
    refine ⟨rfl, ?_⟩
    simp only [qOk, Bool.false_eq_true, if_false, Bool.false_or]
    rw [← decide_not]
    exact decide_eq_decide.2 (by omega)

/-! ### The pipe that holds the group -/

theorem pipe_putPipe (s : State) (p i : Nat) (g : Pipe) : (s.putPipe p g).pipe i = if i = p then g else s.pipe i := tget_tset _ _ _ _ _
theorem pipe_of_keeps {ws : List FieldName} {s t : State} (h : Keeps ws s t) (hw : FieldName.pipes ∉ ws) (i : Nat) :
    t.pipe i = s.pipe i := congrArg (fun m => tget ({} : Pipe) m i) (h.same .pipes hw)
@[simp] theorem countDiv0_pipe (s : State) (k n i : Nat) : (countDiv0 s k n).pipe i = s.pipe i :=
  pipe_of_keeps (keeps_countDiv0 (among_refl _) (keeps_refl _ s) k n) (by decide) i
@[simp] theorem putGroup_part (s : State) (p : Nat) (g : Pipe) (es : List UEl) (k : Nat) : (putGroup s p g es).part k = s.part k :=
  part_of_keeps (keeps_putGroup (among_refl _) (keeps_refl _ s) p g es) (by decide) k

/-- A register operation whose word names it, on the group of a pipe (R197). -/
theorem microStep_of_group {s : State} {p op : Nat} {w : BitVec 32} {g : Pipe} {x : UCtx} {es : List UEl}
    (hg : pipeGroup s p = some (g, x, es)) (hop : (mopOf w.toNat).op = op) (hw : bitsOf w.toNat 14 0 = 0) :
    microStep s p op w = countDiv0 (putGroup s p g (microGroup x.hp (mopOf w.toNat) es).1) x.k
      (microGroup x.hp (mopOf w.toNat) es).2 := by
  unfold microStep
  rw [hg]
  dsimp only
  rw [if_neg (by simp [hop, hw])]

/-- What a register operation leaves, its result being f of its sources and its hyperparameter. -/
theorem microStep_leaves {s : State} {p op : Nat} {w : BitVec 32} {g : Pipe} {x : UCtx} {es : List UEl}
    (hg : pipeGroup s p = some (g, x, es)) (hop : (mopOf w.toNat).op = op) (hw : bitsOf w.toNat 14 0 = 0)
    {f : Int × Int → Int × Int → Int × Int → Int × Int}
    (hf : ∀ a b h, microResult op a b h = (f a b h, if op = 7 ∧ b.1 = 0 then 1 else 0)) :
    let t := microStep s p op w
    let m := mopOf w.toNat
    Frame [.parts, .pipes] s t ∧ (∀ i, i ≠ p → t.pipe i = s.pipe i) ∧ (∀ i, i ≠ x.k → t.part i = s.part i) ∧
      t.part x.k = { s.part x.k with health := { (s.part x.k).health with
        div0 := satAdd 32 (s.part x.k).health.div0 (if op = 7 then es.countP (div0El m) else 0) } } ∧
      t.pipe p = { g with regs := (t.pipe p).regs, nans := (t.pipe p).nans } ∧
      (t.pipe p).regs.length = es.length ∧ (t.pipe p).nans.length = es.length ∧
      ∀ i v, es[i]? = some v →
        let y := f (v.x.getD m.a (0, 0)) (v.x.getD m.b (0, 0)) (x.hp.getD m.h (0, 0))
        (t.pipe p).regs.getD i [] = (if v.nan then v.x else v.x.set m.d y) ∧
        (t.pipe p).nans.getD i false = (v.nan || decide (y.2 < -16384 ∨ 16383 < y.2)) := by
  have hframe : Frame [.parts, .pipes] s (microStep s p op w) := (keeps_microStep among (keeps_refl _ s) p op w).frame
  have hstep := microStep_of_group hg hop hw
  have hdiv0 := microGroup_div0 (hp := x.hp) (m := mopOf w.toNat) (fun a b h => by rw [hop, hf]) es
  rw [hop] at hdiv0
  have hpipe : (microStep s p op w).pipe p = { g with
      regs := (es.map fun e => (microEl x.hp (mopOf w.toNat) e).1).map fun e => e.x,
      nans := (es.map fun e => (microEl x.hp (mopOf w.toNat) e).1).map fun e => e.nan } := by
    rw [hstep, countDiv0_pipe, putGroup, pipe_putPipe, if_pos rfl, microGroup_fst]
  dsimp only
  rw [hpipe]
  refine ⟨hframe, fun i hi => ?_, fun i hi => ?_, ?_, rfl, by simp, by simp, fun i v hv => ?_⟩
  · rw [hstep, countDiv0_pipe, putGroup, pipe_putPipe, if_neg hi]
  · rw [hstep, countDiv0, modHealth, part_modPart_ne _ hi, putGroup_part]
  · rw [hstep, hdiv0, countDiv0, modHealth, part_modPart_same, putGroup_part]
  · obtain ⟨hx, hn⟩ := microEl_fst x.hp (mopOf w.toNat) v
    rw [hop, hf] at hx hn
    simp only [List.getD_eq_getElem?_getD, List.getElem?_map, hv, Option.map_some, Option.getD_some]
    exact ⟨hx, hn⟩

/-- Settles O37. -/
theorem microOperations : Obligations.MicroOperations := by
  unfold Obligations.MicroOperations
  refine ⟨fun n q => ⟨fitQ_of_small q, fitQ_bounds q⟩, xadd_exact, divQ_truncates,
    fun a => ⟨sqrtQ_of_nonpos, sqrtQ_of_pos⟩, fun s p w g x es hg => ?_⟩
  intro m e he hop hw
  simp only [List.mem_cons, List.not_mem_nil, or_false] at he
  obtain rfl | rfl | rfl | rfl | rfl | rfl | rfl | rfl | rfl | rfl | rfl := he
  case inr.inr.inr.inr.inr.inr.inl => exact ⟨_, rfl, microStep_leaves hg hop hw microResult_div⟩
  all_goals exact ⟨_, rfl, microStep_leaves hg hop hw fun a b h => rfl⟩

end Sys2Proof.Machine.TrainingStep
end

section
/-! PROOFS. Where an UPDATE stores (07 R193, R198, R200, R201, R204): every write of its sweep lies within the ranges its
descriptor names, front ranges through their back range. -/

namespace Sys2Proof.Machine.TrainingStep
open Sys2Proof

/-! ### Lengths -/

@[simp] theorem packElems_length (n : Nat) (es : List Nat) : (packElems n es).length = (es.length * n + 7) / 8 := toLe_length _ _

@[simp] theorem pieces_length {α : Type} (n : Nat) (l : List α) : (pieces n l).length = (l.length + n - 1) / n := by simp [pieces]

theorem length_of_mem_pieces {α : Type} {n : Nat} {l p : List α} (h : p ∈ pieces n l) : p.length ≤ n := by
  obtain ⟨i, -, rfl⟩ := List.mem_map.1 h
  exact List.length_take_le _ _

@[simp] theorem microRun_length (hp : List (Int × Int)) (ms : List MOp) (es : List UEl) : (microRun hp ms es).1.length = es.length := by
  have hacc : ∀ (ms : List MOp) (a : List UEl × Nat),
      (ms.foldl (fun a m => let r := microGroup hp m a.1; (r.1, a.2 + r.2)) a).1.length = a.1.length := by
    intro ms
    induction ms with
    | nil => exact fun _ => rfl
    | cons m ms ih => exact fun a => (ih _).trans (by simp [microGroup_fst])
  exact hacc ms (es, 0)

theorem groupOf_cases {m : Nat} (h : groupOf m ≠ 0) : groupOf m = 32 ∨ groupOf m = 64 ∨ groupOf m = 128 := by
  revert h
  unfold groupOf
  split <;> simp

/-- A group of at most 128 elements, encoded by pieces: no more elements, and no more scales than 128 elements have. -/
theorem encodedLengths {g : Nat} (hg : g = 32 ∨ g = 64 ∨ g = 128) (n : Nat) {vs : List Exact} (hv : vs.length ≤ 128) :
    (((pieces g vs).map (encodeGroup n)).flatMap fun r => r.2.1.map (pat n)).length ≤ 128 ∧
      ((pieces g vs).map (encodeGroup n)).length ≤ 128 / g := by
  have hscales : (pieces g vs).length ≤ 128 / g := by
    rw [pieces_length]; obtain rfl | rfl | rfl := hg <;> omega
  have hsum : ∀ l : List (List Exact), (∀ p ∈ l, p.length ≤ g) →
      ((l.map (encodeGroup n)).flatMap fun r => r.2.1.map (pat n)).length ≤ l.length * g := by
    intro l hl
    induction l with
    | nil => simp
    | cons p l ih =>
      have h1 := hl p List.mem_cons_self
      have h2 := ih fun p hp => hl p (List.mem_cons_of_mem _ hp)
      rw [List.map_cons, List.flatMap_cons, List.length_append, List.length_map, encodeGroup_length, List.length_cons, add_mul]
      omega
  refine ⟨(hsum _ fun p hp => length_of_mem_pieces hp).trans ?_, by rw [List.length_map]; exact hscales⟩
  obtain rfl | rfl | rfl := hg <;> omega

/-! ### Writes within spans -/

/-- n bytes from a lie in one of the spans, or there are none. -/
def InSpans (spans : List (Nat × Nat)) (a n : Nat) : Prop := n = 0 ∨ ∃ e ∈ spans, e.1 ≤ a ∧ a + n ≤ e.1 + e.2

theorem InSpans.mono {spans : List (Nat × Nat)} {a n m : Nat} (h : InSpans spans a n) (hm : m ≤ n) : InSpans spans a m := by
  obtain h | ⟨e, he, h1, h2⟩ := h
  · exact .inl (by omega)
  · exact .inr ⟨e, he, h1, by omega⟩

/-- From z, partition k mapped as P, only bytes within the spans have been stored, and the map still stands. -/
structure Sweeps (P : Part) (k : Nat) (spans : List (Nat × Nat)) (z t : State) : Prop where
  maps : MapsAs P (t.part k)
  regions : (t.part k).regions = P.regions
  within : StoresWithin P k spans z t

section
variable {P : Part} {k : Nat} {spans : List (Nat × Nat)} {z t : State}

theorem Sweeps.of_accessed (h : Sweeps P k spans z t) {u : State} (ha : Accessed (t.part k) (u.part k))
    (hw : StoresWithin P k spans t u) : Sweeps P k spans z u :=
  ⟨h.maps.trans ha.maps, ha.regions.trans h.regions, storesWithin_trans h.within hw⟩

theorem Sweeps.noteRead (h : Sweeps P k spans z t) (a n : Nat) : Sweeps P k spans z (t.noteRead k a n) :=
  h.of_accessed (accessed_noteRead t k a n) (storesWithin_of_mem_eq (noteRead_mem t k a n))

theorem Sweeps.store (h : Sweeps P k spans z t) {a : Nat} {b : Bytes} (hin : InSpans spans a b.length) :
    Sweeps P k spans z (t.store k a b) := by
  refine h.of_accessed (accessed_store t k a b) (storesWithin_of_outside fun key ho => cellAt_store_of_outside fun x h1 h2 => ?_)
  obtain h0 | ⟨e, he, h3, h4⟩ := hin
  · omega
  · rw [h.maps.keyOf]; exact ho e he x (by omega) (by omega)

theorem Sweeps.backNote (h : Sweeps P k spans z t) (a n : Nat) : Sweeps P k spans z (backNote t k a n) := by
  unfold Machine.backNote
  dsimp only
  split
  · refine ⟨?_, ?_, storesWithin_trans h.within (storesWithin_of_mem_eq rfl)⟩
    · rw [part_modPart_same, defineBytes_eq]
      exact h.maps.trans (.of_fields rfl rfl rfl rfl fun _ _ => rfl)
    · rw [part_modPart_same, defineBytes_eq]
      exact h.regions
  · exact h

theorem Sweeps.backOf (h : Sweeps P k spans z t) (a : Nat) : backOf (t.part k) a = Machine.backOf P a := by
  unfold Machine.backOf; rw [h.regions]

/-- A fold keeps what each of its steps keeps. -/
theorem foldl_keeps {α β : Type} {p : β → Prop} {f : β → α → β} {l : List α} (hf : ∀ b, ∀ x ∈ l, p b → p (f b x)) {b : β} (hb : p b) :
    p (l.foldl f b) := by
  induction l generalizing b with
  | nil => exact hb
  | cons x l ih => exact ih (fun b y hy => hf b y (List.mem_cons_of_mem _ hy)) (hf b x List.mem_cons_self hb)

/-- A write of the sweep within the spans (R204). -/
theorem Sweeps.uWrite {a : UAcc} (h : Sweeps P k spans z a.s) {addr : Nat} {b : Bytes} (hin : InSpans spans addr b.length) :
    Sweeps P k spans z (uWrite k a addr b).s := by
  unfold Machine.uWrite
  split
  · exact h
  split
  · exact h
  refine foldl_keeps (p := fun a : UAcc => Sweeps P k spans z a.s) (fun a w hw ha => ?_) h
  obtain ⟨h1, h2, -⟩ := mem_sectors hw
  have hlen : ((b.drop (w.1 - addr)).take w.2).length ≤ w.2 := List.length_take_le _ _
  dsimp only
  split
  · exact ha
  · refine (ha.store ?_).backNote _ _
    obtain h0 | ⟨e, he, h3, h4⟩ := hin
    · exact .inl (by omega)
    · exact .inr ⟨e, he, by omega, by omega⟩

@[simp] theorem uEvents_s (a : UAcc) (serving : Bool) (e : Evt) (n : Nat) : (uEvents a serving e n).s = a.s := by
  unfold uEvents; dsimp only; split <;> rfl

/-- An encoded group of at most 128 elements (R198). -/
theorem Sweeps.uEncode {a : UAcc} (h : Sweeps P k spans z a.s) {g : Nat} (hg : g = 32 ∨ g = 64 ∨ g = 128) (n : Nat) (serving : Bool)
    {ea sa : Nat} {vs : List Exact} (hv : vs.length ≤ 128) (he : InSpans spans ea (16 * n)) (hs : InSpans spans sa (128 / g)) :
    Sweeps P k spans z (uEncode k n g serving a ea sa vs).s := by
  obtain ⟨h1, h2⟩ := encodedLengths hg n hv
  unfold Machine.uEncode
  dsimp only
  refine Sweeps.uWrite (Sweeps.uWrite (by rw [uEvents_s]; exact h) (he.mono ?_)) (hs.mono ?_)
  · rw [packElems_length]
    have := Nat.mul_le_mul_right n h1
    omega
  · rw [List.length_map]; exact h2
end

/-! ### The ranges an UPDATE names (07 R193, R194, Table 07.3) -/

/-- The spans an UPDATE may store to: the ranges it names, front ranges through their back range. -/
def updateSpans (P : Part) (c d : Nat) : List (Nat × Nat) :=
  (uUses c d).map fun x => (if x.2.2 then backOf P x.1 else x.1, x.2.1)

/-- What a valid UPDATE's ranges satisfy (R194): whole groups of 128 columns, groups of scales, and front ranges whose back
addresses lie side by side. -/
structure Layout (P : Part) (c d : Nat) : Prop where
  cols : uCols c % 128 = 0
  work : groupOf (ccwMode (uWccw c)) ≠ 0
  serve : uServe c = true → groupOf (ccwMode (uSccw c)) ≠ 0
  back : ∀ x ∈ uUses c d, x.2.2 = true → ∀ a, x.1 ≤ a → a < x.1 + x.2.1 → backOf P a = backOf P x.1 + (a - x.1)

theorem layout_of_uCmdOk {P : Part} {c d : Nat} (h : uCmdOk c = true)
    (hb : ∀ x ∈ uUses c d, x.2.2 = true → ∀ a, x.1 ≤ a → a < x.1 + x.2.1 → backOf P a = backOf P x.1 + (a - x.1)) : Layout P c d := by
  simp only [uCmdOk, Bool.and_eq_true, Bool.or_eq_true, Bool.not_eq_true', decide_eq_true_eq, ne_eq] at h
  obtain ⟨⟨⟨⟨⟨⟨⟨⟨-, hcols⟩, -⟩, -⟩, hwork⟩, hserve⟩, -⟩, -⟩, -⟩ := h
  exact ⟨hcols, hwork, fun hs => (hserve.resolve_left (by simp [hs])).2, hb⟩

section
variable {P : Part} {c d : Nat}

theorem inSpans_plain {a n b m : Nat} (hx : (a, n, false) ∈ uUses c d) (h1 : a ≤ b) (h2 : b + m ≤ a + n) :
    InSpans (updateSpans P c d) b m := .inr ⟨_, List.mem_map_of_mem hx, h1, h2⟩

theorem inSpans_back (hl : Layout P c d) {a n b m : Nat} (hx : (a, n, true) ∈ uUses c d) (h1 : a ≤ b) (h2 : b + m ≤ a + n) :
    InSpans (updateSpans P c d) (backOf P b) m := by
  by_cases hm : m = 0
  · exact .inl hm
  · have hb : backOf P b = backOf P a + (b - a) := hl.back _ hx rfl b h1 (by dsimp only; omega)
    refine .inr ⟨_, List.mem_map_of_mem hx, ?_, ?_⟩ <;> dsimp only <;> rw [if_pos rfl] <;> omega

theorem uses_master (c d : Nat) : (uAddr d uMaster, 4 * (uRows c * uCols c), true) ∈ uUses c d := by simp [uUses, uReads]
theorem uses_masterSc (c d : Nat) : (uAddr d uMasterSc, uRows c, true) ∈ uUses c d := by simp [uUses, uReads]
theorem uses_work (c d : Nat) : (uAddr d uWork, uRows c * uCols c, false) ∈ uUses c d := by simp [uUses]
theorem uses_workSc (c d : Nat) : (uAddr d uWorkSc, uRows c * uCols c / groupOf (ccwMode (uWccw c)), false) ∈ uUses c d := by
  simp [uUses]
theorem uses_serve (d : Nat) (h : uServe c = true) : (uAddr d uServeA, uRows c * uCols c / 2, true) ∈ uUses c d := by simp [uUses, h]
theorem uses_serveSc (d : Nat) (h : uServe c = true) :
    (uAddr d uServeSc, uRows c * uCols c / groupOf (ccwMode (uSccw c)), true) ∈ uUses c d := by simp [uUses, h]
/-- Moment j - 2 of an UPDATE that has it. -/
theorem uses_moment (d : Nat) {j : Nat} (h : j = 2 ∧ uMoms c ≠ 0 ∨ j = 3 ∧ uMoms c = 2) :
    (uAddr d (uM1 + 2 * (j - 2)), 2 * (uRows c * uCols c), true) ∈ uUses c d ∧
      (uAddr d (uM1Sc + 2 * (j - 2)), uRows c * uCols c / 128, true) ∈ uUses c d := by
  obtain ⟨rfl, h⟩ | ⟨rfl, h⟩ := h
  · simp [uUses, uReads, h]
  · simp [uUses, uReads, h, uM1, uM1Sc, uM2, uM2Sc]
theorem uses_factors (d : Nat) (h : uRecipe c = 3) :
    (uAddr d uM2, 2 * uRows c, true) ∈ uUses c d ∧ (uAddr d uM2Sc, (uRows c + 127) / 128, true) ∈ uUses c d ∧
      (uAddr d uCf, 2 * uCols c, true) ∈ uUses c d ∧ (uAddr d uCfSc, uCols c / 128, true) ∈ uUses c d ∧
      (uAddr d uCs, 16 * uCols c, false) ∈ uUses c d := by
  simp [uUses, uReads, h]

/-- A group of 128 columns of a row lies within the elements. -/
theorem group_le (hl : Layout P c d) {r c0 : Nat} (hr : r < uRows c) (h0 : c0 % 128 = 0) (hc : c0 < uCols c) :
    r * uCols c + c0 + 128 ≤ uRows c * uCols c ∧ (r * uCols c + c0) % 128 = 0 := by
  have hcols := hl.cols
  have hrow : (r + 1) * uCols c ≤ uRows c * uCols c := Nat.mul_le_mul_right _ hr
  obtain ⟨n, hn⟩ := Nat.dvd_of_mod_eq_zero hcols
  obtain ⟨i, hi⟩ := Nat.dvd_of_mod_eq_zero h0
  refine ⟨?_, ?_⟩
  · rw [add_mul, one_mul] at hrow; omega
  · rw [hn, hi, show r * (128 * n) + 128 * i = 128 * (r * n + i) by ring]; exact Nat.mul_mod_right _ _
end

end Sys2Proof.Machine.TrainingStep
end

section
/-! PROOFS. The sweep of an UPDATE, from its groups to the command (07 R192 to R204), and how an UPDATE starts (05 R138; 12
R355). -/

namespace Sys2Proof.Machine.TrainingStep
open Sys2Proof

/-! ### Groups and rows (07 R198, R199) -/

section
variable {P : Part} {x : UCtx} {z : State} (hl : Layout P x.c x.d)
include hl

/-- END of a group. -/
theorem Sweeps.endGroup {a : UAcc} (h : Sweeps P x.k (updateSpans P x.c x.d) z a.s) {r c0 : Nat} (hr : r < uRows x.c)
    (h0 : c0 % 128 = 0) (hc : c0 < uCols x.c) (cw rc : Nat) {es : List UEl} (hes : es.length ≤ 128) :
    Sweeps P x.k (updateSpans P x.c x.d) z (Machine.endGroup x cw rc r c0 a es).s := by
  obtain ⟨hg, hg0⟩ := group_le hl hr h0 hc
  have hscale {m : Nat} (hm : groupOf m ≠ 0) :
      (r * uCols x.c + c0) / groupOf m + 128 / groupOf m ≤ uRows x.c * uCols x.c / groupOf m := by
    obtain h' | h' | h' := groupOf_cases hm <;> rw [h'] <;> omega
  have hmaster : InSpans (updateSpans P x.c x.d) (Machine.backOf P (uAddr x.d uMaster + 4 * (r * uCols x.c + c0))) 512 :=
    inSpans_back hl (uses_master _ _) (by omega) (by omega)
  have hwork : InSpans (updateSpans P x.c x.d) (uAddr x.d uWork + (r * uCols x.c + c0)) (16 * 8) :=
    inSpans_plain (uses_work _ _) (by omega) (by omega)
  have hworkSc := inSpans_plain (P := P) (uses_workSc x.c x.d) (Nat.le_add_right _ ((r * uCols x.c + c0) / groupOf (ccwMode (uWccw x.c))))
    (by rw [add_assoc]; exact Nat.add_le_add_left (hscale hl.work) _)
  have hvs (f : Int × Evt → Exact) : ((es.map (endEl cw)).map f).length ≤ 128 := by simpa using hes
  have hbytes : (packElems 32 ((es.map (endEl cw)).map fun r => pat 32 r.1)).length ≤ 512 := by
    rw [packElems_length, List.length_map, List.length_map]; omega
  unfold Machine.endGroup
  dsimp only
  rw [h.backOf, h.backOf, h.backOf]
  have hmain : Sweeps P x.k (updateSpans P x.c x.d) z (if uRecipe x.c = 5 then
      uEvents a false ((es.map (endEl cw)).foldl (fun e r => evtAdd e r.2) {}) 0
      else Machine.uWrite x.k (uEvents a false ((es.map (endEl cw)).foldl (fun e r => evtAdd e r.2) {}) 0)
        (Machine.backOf P (uAddr x.d uMaster + 4 * (r * uCols x.c + c0))) (packElems 32 ((es.map (endEl cw)).map fun r => pat 32 r.1))).s := by
    split
    · rw [uEvents_s]; exact h
    · exact Sweeps.uWrite (by rw [uEvents_s]; exact h) (hmaster.mono hbytes)
  have hcopy := hmain.uEncode (groupOf_cases hl.work) 8 false (hvs fun r => if rc = 0xFF then exactNan else exactOf r.1 ((rc : Int) - 127))
    hwork hworkSc
  split
  · next hs =>
    exact hcopy.uEncode (groupOf_cases (hl.serve hs)) 4 true (hvs _)
      (inSpans_back hl (uses_serve _ hs) (by omega) (by omega))
      (inSpans_back hl (uses_serveSc _ hs) (Nat.le_add_right _ _) (by rw [add_assoc]; exact Nat.add_le_add_left (hscale (hl.serve hs)) _))
  · exact hcopy

/-- The row code of a row. -/
theorem Sweeps.endRowCode {a : UAcc} (h : Sweeps P x.k (updateSpans P x.c x.d) z a.s) {r : Nat} (hr : r < uRows x.c) (rc : Nat) :
    Sweeps P x.k (updateSpans P x.c x.d) z (Machine.endRowCode x rc r a).s := by
  have hs (n : Nat) : (if rc = 0xFF then { a with nans := n } else a).s = a.s := by split <;> rfl
  unfold Machine.endRowCode
  dsimp only
  split
  · exact h
  · refine Sweeps.uWrite (by rw [hs]; exact h) ?_
    rw [hs, h.backOf]
    exact inSpans_back hl (uses_masterSc _ _) (by omega) (by dsimp only [List.length_singleton]; omega)

/-- ENC of one moment of a group. -/
theorem Sweeps.encMoment {ae : UAcc × List UEl} (h : Sweeps P x.k (updateSpans P x.c x.d) z ae.1.s) {r c0 j : Nat} (hr : r < uRows x.c)
    (h0 : c0 % 128 = 0) (hc : c0 < uCols x.c) (hj : j = 2 ∧ uMoms x.c ≠ 0 ∨ j = 3 ∧ uMoms x.c = 2) (hes : ae.2.length ≤ 128) :
    Sweeps P x.k (updateSpans P x.c x.d) z (Machine.encMoment x r c0 j ae).1.s ∧ (Machine.encMoment x r c0 j ae).2.length ≤ 128 := by
  obtain ⟨hg, hg0⟩ := group_le hl hr h0 hc
  obtain ⟨hm, hmSc⟩ := uses_moment x.d hj
  constructor
  · unfold Machine.encMoment
    dsimp only
    rw [h.backOf, h.backOf]
    refine Sweeps.uWrite (Sweeps.uWrite (by rw [uEvents_s]; exact h) ?_) ?_
    · refine (inSpans_back hl hm (m := 256) (by omega) (by omega)).mono ?_
      rw [packElems_length, List.length_map, encodeGroup_length, List.length_map]; omega
    · exact inSpans_back hl hmSc (by omega) (by dsimp only [List.length_singleton]; omega)
  · unfold Machine.encMoment
    dsimp only
    rw [List.length_map, List.length_zip]
    exact (min_le_left _ _).trans hes

/-- ENC of a group of an UPDATE with moments. -/
theorem Sweeps.encGroup {ae : UAcc × List UEl} (h : Sweeps P x.k (updateSpans P x.c x.d) z ae.1.s) {r c0 : Nat} (hr : r < uRows x.c)
    (h0 : c0 % 128 = 0) (hc : c0 < uCols x.c) (hmoms : uMoms x.c ≠ 0) (hes : ae.2.length ≤ 128) :
    Sweeps P x.k (updateSpans P x.c x.d) z (Machine.encGroup x r c0 ae).1.s ∧ (Machine.encGroup x r c0 ae).2.length ≤ 128 := by
  obtain ⟨h2, hlen⟩ := h.encMoment hl hr h0 hc (.inl ⟨rfl, hmoms⟩) hes
  unfold Machine.encGroup
  dsimp only
  split
  · next hm => exact h2.encMoment hl hr h0 hc (.inr ⟨rfl, hm⟩) hlen
  · exact ⟨h2, hlen⟩

/-- A group up to its END. -/
theorem Sweeps.runGroup {a : UAcc} (h : Sweeps P x.k (updateSpans P x.c x.d) z a.s) (ops : List MOp) (cw : Nat) {r c0 : Nat}
    (hr : r < uRows x.c) (h0 : c0 % 128 = 0) (hc : c0 < uCols x.c) :
    Sweeps P x.k (updateSpans P x.c x.d) z (Machine.runGroup x ops cw r c0 a).1.s ∧ (Machine.runGroup x ops cw r c0 a).2.length ≤ 128 := by
  unfold Machine.runGroup
  dsimp only
  rw [microRun_length]
  split
  · exact ⟨h, by simp⟩
  · next hm => exact Sweeps.encGroup hl (by exact h) hr h0 hc hm (by simp)

/-- The groups of a row, with the elements each leaves. -/
theorem Sweeps.runGroups {a : UAcc} (h : Sweeps P x.k (updateSpans P x.c x.d) z a.s) (ops : List MOp) (cw : Nat) {r : Nat}
    (hr : r < uRows x.c) {cols : List Nat} (hcol : ∀ c0 ∈ cols, c0 % 128 = 0 ∧ c0 < uCols x.c) :
    let b := cols.foldl (fun b c0 => let g := Machine.runGroup x ops cw r c0 b.1; (g.1, b.2 ++ [g.2])) (a, ([] : List (List UEl)))
    Sweeps P x.k (updateSpans P x.c x.d) z b.1.s ∧ ∀ es ∈ b.2, es.length ≤ 128 := by
  refine foldl_keeps (p := fun b : UAcc × List (List UEl) => Sweeps P x.k (updateSpans P x.c x.d) z b.1.s ∧ ∀ es ∈ b.2, es.length ≤ 128)
    (fun b c0 hc0 hb => ?_) ⟨h, by simp⟩
  obtain ⟨h0, hc⟩ := hcol c0 hc0
  obtain ⟨hs, hlen⟩ := hb.1.runGroup hl ops cw hr h0 hc
  refine ⟨hs, fun es hes => ?_⟩
  obtain hes | hes := List.mem_append.1 hes
  · exact hb.2 es hes
  · rw [List.mem_singleton.1 hes]; exact hlen

/-- A row: its groups, its row code, then the END of each group. -/
theorem Sweeps.runRow {a : UAcc} (h : Sweeps P x.k (updateSpans P x.c x.d) z a.s) (ops : List MOp) {r : Nat} (hr : r < uRows x.c) :
    Sweeps P x.k (updateSpans P x.c x.d) z (Machine.runRow x ops a r).s := by
  have hcol : ∀ c0 ∈ (List.range (uCols x.c / 128)).map fun i => 128 * i, c0 % 128 = 0 ∧ c0 < uCols x.c := by
    intro c0 hc0
    obtain ⟨i, hi, rfl⟩ := List.mem_map.1 hc0
    have := List.mem_range.1 hi
    omega
  unfold Machine.runRow
  split
  · exact h
  dsimp only
  generalize (List.range (uCols x.c / 128)).map (fun i => 128 * i) = cols at hcol
  generalize a.s.loadNat x.k (uAddr x.d uMasterSc + r) 1 = cw
  have hgroups := h.runGroups hl ops cw hr hcol
  generalize cols.foldl _ _ = b at hgroups ⊢
  obtain ⟨hs, hlen⟩ := hgroups
  refine foldl_keeps (p := fun a : UAcc => Sweeps P x.k (updateSpans P x.c x.d) z a.s) (fun a e he ha => ?_)
    (hs.endRowCode hl hr _)
  obtain ⟨h1, h2⟩ := List.of_mem_zip he
  obtain ⟨h0, hc⟩ := hcol _ h1
  exact ha.endGroup hl hr h0 hc _ _ (hlen _ h2)

/-! ### The factored recipe's first sweep (07 R201) -/

/-- New factors of one array of count entries. -/
theorem Sweeps.factorArray {a : UAcc} (h : Sweeps P x.k (updateSpans P x.c x.d) z a.s) {ai si count : Nat} (sums : List Int)
    (hel : (uAddr x.d ai, 2 * count, true) ∈ uUses x.c x.d) (hsc : (uAddr x.d si, (count + 127) / 128, true) ∈ uUses x.c x.d) :
    Sweeps P x.k (updateSpans P x.c x.d) z (Machine.factorArray x ai si count sums a).1.s := by
  have hlen (l : List Int) : ((l.take count).length * 16 + 7) / 8 ≤ 2 * count := by
    have := List.length_take_le count l
    omega
  unfold Machine.factorArray
  dsimp only
  rw [h.backOf, h.backOf]
  refine Sweeps.uWrite (Sweeps.uWrite (by rw [uEvents_s]; exact h) ?_) ?_
  · refine (inSpans_back hl hel le_rfl le_rfl).mono ?_
    rw [packElems_length, List.length_map]
    exact hlen _
  · refine (inSpans_back hl hsc le_rfl le_rfl).mono ?_
    simp

/-- The first sweep of the factored recipe. -/
theorem Sweeps.factorSweep {a : UAcc} (h : Sweeps P x.k (updateSpans P x.c x.d) z a.s) (hrec : uRecipe x.c = 3) :
    Sweeps P x.k (updateSpans P x.c x.d) z (Machine.factorSweep x a).1.s := by
  obtain ⟨hr, hrSc, hc, hcSc, hcs⟩ := uses_factors x.d hrec
  have hcols := hl.cols
  rw [show uCols x.c / 128 = (uCols x.c + 127) / 128 by omega] at hcSc
  unfold Machine.factorSweep
  dsimp only
  refine Sweeps.factorArray hl (Sweeps.factorArray hl (h.uWrite ?_) _ hr hrSc) _ hc hcSc
  refine (inSpans_plain hcs le_rfl le_rfl).mono ?_
  simp [Function.comp_def, mul_comm]
end

/-! ### The command (07 R193, R201, R204) -/

section
variable {P : Part} {k c d : Nat} {z t : State}

theorem Sweeps.noteReads {spans : List (Nat × Nat)} (h : Sweeps P k spans z t) (l : List (Nat × Nat × Bool)) :
    Sweeps P k spans z (l.foldl (fun s u => s.noteRead k u.1 u.2.1) t) := by
  induction l generalizing t with
  | nil => exact h
  | cons u l ih => exact ih (h.noteRead u.1 u.2.1)

/-- The reads of an UPDATE noted, and the factored recipe's first sweep. -/
theorem Sweeps.updateStart (h : Sweeps P k (updateSpans P c d) z t) (hl : Layout P c d) (ops : List MOp) :
    let b := Machine.updateStart t k c d ops
    Sweeps P k (updateSpans P c d) z b.1.s ∧ b.2.k = k ∧ b.2.c = c ∧ b.2.d = d := by
  have hreads := h.noteReads (uReads c d)
  have hhp : Sweeps P k (updateSpans P c d) z (if readsHp c ops then
      ((uReads c d).foldl (fun s u => s.noteRead k u.1 u.2.1) t).noteRead k (uAddr d uHp) 64
      else (uReads c d).foldl (fun s u => s.noteRead k u.1 u.2.1) t) := by
    split
    · exact hreads.noteRead _ _
    · exact hreads
  unfold Machine.updateStart
  dsimp only
  split
  · next hrec => exact ⟨Sweeps.factorSweep (x := ⟨k, c, d, hpWords t k d, none⟩) hl hhp hrec, rfl, rfl, rfl⟩
  · exact ⟨hhp, rfl, rfl, rfl⟩

/-- The rows of an UPDATE. -/
theorem Sweeps.runRows {x : UCtx} {a : UAcc} (h : Sweeps P x.k (updateSpans P x.c x.d) z a.s) (hl : Layout P x.c x.d)
    (ops : List MOp) : Sweeps P x.k (updateSpans P x.c x.d) z ((List.range (uRows x.c)).foldl (Machine.runRow x ops) a).s :=
  foldl_keeps (p := fun a : UAcc => Sweeps P x.k (updateSpans P x.c x.d) z a.s)
    (fun _ _ hr ha => ha.runRow hl ops (List.mem_range.1 hr)) h

theorem updateEnd_mem (a : UAcc) (x : UCtx) (k q pipe : Nat) (idx : BitVec 24) (c : Nat) (ops : List MOp) :
    (updateEnd a x k q pipe idx c ops).1.mem = a.s.mem := by
  have hk := keeps_putPipe (ws := [.queues, .parts, .pipes]) among (keeps_countDiv0 among (keeps_countNan among
    (keeps_countEvt among (keeps_refl _ a.s) k q (evtAdd a.evt a.sevt)) k a.nans) k a.div0)
  exact (hk pipe _).same .mem (by decide)

/-- The sweep of a valid UPDATE stores only within the ranges its descriptor names (R193, R204). -/
theorem storesWithin_runUpdate (h : Sweeps P k (updateSpans P c d) z t) (hl : Layout P c d) (q pipe : Nat) (idx : BitVec 24)
    (ws : List Nat) : StoresWithin P k (updateSpans P c d) z (runUpdate t k q pipe idx c d ws).1 := by
  have hb := h.updateStart hl (uProgram c ws)
  have hmem : (runUpdate t k q pipe idx c d ws).1.mem = ((List.range (uRows c)).foldl
      (runRow (updateStart t k c d (uProgram c ws)).2 (uProgram c ws)) (updateStart t k c d (uProgram c ws)).1).s.mem :=
    updateEnd_mem _ _ _ _ _ _ _ _
  generalize Machine.updateStart t k c d (uProgram c ws) = b at hb hmem
  obtain ⟨hs, rfl, rfl, rfl⟩ := hb
  exact storesWithin_trans (hs.runRows hl _).within (storesWithin_of_mem_eq hmem)

/-! ### How an UPDATE ends (07 R191, R204) -/

theorem updateStatus_cases (c : Nat) (a : UAcc) :
    updateStatus c a = stOK ∨ updateStatus c a = stRANGE ∨ updateStatus c a = stADDRESS := by
  unfold updateStatus
  split
  · exact .inr (.inr rfl)
  split
  · exact .inr (.inl rfl)
  · exact .inl rfl

theorem updateEnd_work (a : UAcc) (x : UCtx) (k q pipe : Nat) (idx : BitVec 24) (c : Nat) (ops : List MOp) :
    (updateEnd a x k q pipe idx c ops).2.work = .done ∨ ∃ w, w ≠ [] ∧ (updateEnd a x k q pipe idx c ops).2.work = .held w := by
  unfold updateEnd
  dsimp only
  split
  · exact .inl rfl
  · next hh => exact .inr ⟨a.held, fun h => hh (by rw [h]; rfl), rfl⟩

/-- A sweep ends OK, RANGE or ADDRESS, or is held back by a securing drain. -/
theorem runUpdate_ends (t : State) (k q pipe : Nat) (idx : BitVec 24) (c d : Nat) (ws : List Nat) :
    let r := (runUpdate t k q pipe idx c d ws).2
    (r.status = stOK ∨ r.status = stRANGE ∨ r.status = stADDRESS) ∧ (r.work = .done ∨ ∃ w, w ≠ [] ∧ r.work = .held w) :=
  ⟨updateStatus_cases _ _, updateEnd_work _ _ _ _ _ _ _ _⟩
end

end Sys2Proof.Machine.TrainingStep
end

section
/-! PROOFS. How an UPDATE starts, and how it goes on once its pages have been promoted (05 R138; 07 R192, R193, R194, R202;
12 R355). -/

namespace Sys2Proof.Machine.TrainingStep
open Sys2Proof

/-! ### Reading leaves what is read (05 R125, R145) -/

/-- Partition k reads in t what it reads in s. -/
structure ReadsAs (k : Nat) (s t : State) : Prop where
  maps : MapsAs (s.part k) (t.part k)
  regions : (t.part k).regions = (s.part k).regions
  openPages : (t.part k).openPages = (s.part k).openPages
  mem : t.mem = s.mem

section
variable {k : Nat} {s t u : State}

theorem ReadsAs.refl (k : Nat) (s : State) : ReadsAs k s s := ⟨.refl _, rfl, rfl, rfl⟩
theorem ReadsAs.trans (h : ReadsAs k s t) (g : ReadsAs k t u) : ReadsAs k s u :=
  ⟨h.maps.trans g.maps, g.regions.trans h.regions, g.openPages.trans h.openPages, g.mem.trans h.mem⟩

theorem readsAs_noteRead (s : State) (k a n : Nat) : ReadsAs k s (s.noteRead k a n) :=
  ⟨(accessed_noteRead s k a n).maps, (accessed_noteRead s k a n).regions, by rw [noteRead_part, touch_eq], noteRead_mem s k a n⟩

theorem readsAs_noteIf (s : State) (k a n : Nat) : ReadsAs k s (s.noteIf k a n) := by
  unfold State.noteIf
  split
  · exact readsAs_noteRead s k a n
  · exact .refl k s

theorem readsAs_noteUpdate (s : State) (k c : Nat) : ReadsAs k s (noteUpdate s k c) := by
  unfold noteUpdate
  dsimp only
  split
  · exact (readsAs_noteIf s k _ _).trans (readsAs_noteIf _ k _ _)
  · exact readsAs_noteIf s k _ _

theorem ReadsAs.seen (h : ReadsAs k s t) (a : Nat) (b : Bytes) :
    seen recView (t.part k) a b = seen recView (s.part k) a b := by
  unfold Machine.seen recView
  rw [h.openPages, h.maps.place]
  simp only [h.maps.record]

theorem ReadsAs.loadNat (h : ReadsAs k s t) (a n : Nat) : t.loadNat k a n = s.loadNat k a n := by
  unfold State.loadNat State.load State.loadVia
  simp only [h.maps.keyOf, h.seen, h.mem]

theorem ReadsAs.uWords (h : ReadsAs k s t) (c d : Nat) : uWords t k c d = uWords s k c d := by
  simp only [Machine.uWords, customWords, h.loadNat]

theorem ReadsAs.sweeps (h : ReadsAs k s t) (spans : List (Nat × Nat)) : Sweeps (s.part k) k spans s t :=
  ⟨h.maps, h.regions, storesWithin_of_mem_eq h.mem⟩
end

/-! ### A command that starts, and goes on (06 R171) -/

/-- The command at HEAD, which its row picks, starts; where its work is not done it goes on. -/
theorem startThen_of_ready {s : State} {q : Qid} {k c : Nat} {sel : State → Nat → Nat → Bool} {f : State → Nat → Nat → State × Started}
    {g : State → Nat → Started → State} (hr : s.ready q k c) (hsel : sel s k c = true) {u : State} {r : Started}
    (he : f (popFront s q.toNat) k c = (u, r)) :
    startThen s q.toNat sel f g =
      if r.work = .done then pushStarted u q.toNat (s.queue q.toNat).head c r
      else g (pushStarted u q.toNat (s.queue q.toNat).head c r) k
        { r with idx := (s.queue q.toNat).head, cmd := BitVec.ofNat 512 c } := by
  obtain ⟨-, hst, hgood⟩ := hr
  unfold startThen
  rw [hst]
  dsimp only
  rw [if_neg (by simp [hsel]), spoilt_of_good hgood, he]

theorem startIdx_popFront (s : State) (q : Nat) : startIdx (popFront s q) q = (s.queue q).head := by
  have h : (popFront s q).queue q = { s.queue q with head := (s.queue q).head + 1, front := none, bad := none } := by
    simp [popFront, State.modQueue, State.putQueue, State.queue]
  unfold startIdx
  rw [h]
  exact BitVec.add_sub_cancel _ _

theorem startIdx_of_keeps {ws : List FieldName} {s t : State} (h : Keeps ws s t) (hw : FieldName.queues ∉ ws) (q : Nat) :
    startIdx t q = startIdx s q := congrArg (fun m => (tget ({} : QCtx) m q).head - 1) (h.same .queues hw)

theorem movePages_of_held {r : Started} {w : List (Nat × Bytes)} (h : r.work = .held w) (q : Nat) (s : State) (k : Nat) :
    movePages q s k r = s := by
  unfold movePages; rw [h]

/-! ### The rows (07 R192, R200) -/

/-- The rows of UPDATE, each with its RECIPE. -/
theorem exec_updateRow {s : State} (hcalm : s.calm) (q : Qid) {e : Instr × Nat}
    (he : e ∈ [(Instr.sgdWithMomentum q, 0), (.adamw q, 1), (.lion q, 2), (.factored q, 3), (.custom q, 4), (.copy q, 5)]) :
    exec e.1 s = .next (runUpdateRow q e.2 s) := by
  simp only [List.mem_cons, List.not_mem_nil, or_false] at he
  obtain rfl | rfl | rfl | rfl | rfl | rfl := he <;> exact outcome_of_calm hcalm _

theorem uCmdOk_of_valid {s : State} {k c : Nat} (h : (uValidate s k c).1 = stOK) : uCmdOk c = true := by
  by_contra hno
  unfold uValidate at h
  dsimp only at h
  rw [if_pos (by simpa using hno)] at h
  exact absurd h (by decide)

section
variable {s : State} {q : Qid} {k c row : Nat}

/-- An UPDATE starts as startUpdate says. -/
theorem runUpdateRow_of_ready (hr : s.ready q k c) (hno : readyUpdate s q.toNat row = none) (hrow : isUpdate row c = true)
    (hd : pipeDue s k c = false) {u : State} {r : Started} (he : startUpdate q.toNat (popFront s q.toNat) k c = (u, r)) :
    runUpdateRow q row s =
      if r.work = .done then pushStarted u q.toNat (s.queue q.toNat).head c r
      else movePages q.toNat (pushStarted u q.toNat (s.queue q.toNat).head c r) k
        { r with idx := (s.queue q.toNat).head, cmd := BitVec.ofNat 512 c } := by
  unfold runUpdateRow
  rw [hno]
  exact startThen_of_ready hr (by simp [hrow, hd]) he

/-- What an UPDATE with a pipe does when it starts. -/
theorem startUpdate_of_pipe {p : Nat} (hp : pipeOf s (s.part k) c = some p) :
    let v := uValidate s k c
    let z := noteUpdate (popFront s q.toNat) k c
    let d := s.loadNat k (uDesc c) 128
    let ws := uWords s k c d
    startUpdate q.toNat (popFront s q.toNat) k c =
      if v.1 ≠ stOK then (z, failed v.1 3 v.2 p)
      else if uRows c = 0 then (z, { degen := true })
      else keepRead d ws (if uIwin c then withPages z (uPages c d)
        else runUpdate z k q.toNat p (s.queue q.toNat).head c d ws) := by
  have hreads := readsAs_noteUpdate (popFront s q.toNat) k c
  have hidx : startIdx (noteUpdate (popFront s q.toNat) k c) q.toNat = (s.queue q.toNat).head :=
    (startIdx_of_keeps (keeps_noteUpdate (among_refl _) (keeps_refl _ (popFront s q.toNat)) k c) (by decide) _).trans
      (startIdx_popFront s q.toNat)
  have hv : uValidate (popFront s q.toNat) k c = uValidate s k c := rfl
  have hws (d : Nat) : uWords (popFront s q.toNat) k c d = uWords s k c d := rfl
  dsimp only
  unfold startUpdate
  rw [pipeOf_popFront, popFront_part, hp]
  dsimp only
  rw [hreads.loadNat, loadNat_popFront, hreads.uWords, hws, hidx, hv]

/-- Without a pipe an UPDATE ends INVALID (12 R355). -/
theorem startUpdate_of_noPipe (hp : pipeOf s (s.part k) c = none) :
    startUpdate q.toNat (popFront s q.toNat) k c = (popFront s q.toNat, failed stINVALID 3) := by
  unfold startUpdate
  rw [pipeOf_popFront, popFront_part, hp]
end

/-! ### The obligation -/

/-- What a sweep leaves, and how it ends, from a state z that only read (R193, R198, R204). -/
theorem runUpdate_swept {s z : State} {k c : Nat} (hz : ReadsAs k s z) (hk : Keeps [.mem, .queues, .parts, .pipes, .snoops] s z)
    (hok : uCmdOk c = true) (q p : Nat) (idx : BitVec 24) (d : Nat) (ws : List Nat) :
    let e := runUpdate z k q p idx c d ws
    let P := s.part k
    Frame [.mem, .queues, .parts, .pipes, .snoops] s e.1
      ∧ (e.2.status = stOK ∨ e.2.status = stRANGE ∨ e.2.status = stADDRESS) ∧ (e.2.work = .done ∨ ∃ w, w ≠ [] ∧ e.2.work = .held w)
      ∧ ((∀ x ∈ uUses c d, x.2.2 = true → ∀ a, x.1 ≤ a → a < x.1 + x.2.1 → backOf P a = backOf P x.1 + (a - x.1)) →
        StoresWithin P k (updateSpans P c d) s e.1) := by
  obtain ⟨hst, hw⟩ := runUpdate_ends z k q p idx c d ws
  exact ⟨(keepsf_runUpdate (among_refl _) hk k q p idx c d ws).frame, hst, hw,
    fun hb => storesWithin_runUpdate (hz.sweeps _) (layout_of_uCmdOk hok hb) q p idx ws⟩

section
variable {s : State} {q : Qid} {k c row : Nat}

/-- An UPDATE whose work is done or held back when it starts. -/
theorem updateRow_of_settled (hr : s.ready q k c) (hno : readyUpdate s q.toNat row = none) (hrow : isUpdate row c = true)
    (hd : pipeDue s k c = false) {u : State} {r : Started} (he : startUpdate q.toNat (popFront s q.toNat) k c = (u, r))
    (hw : r.work = .done ∨ ∃ w, w ≠ [] ∧ r.work = .held w) :
    runUpdateRow q row s = pushStarted u q.toNat (s.queue q.toNat).head c r := by
  rw [runUpdateRow_of_ready hr hno hrow hd he]
  obtain hw | ⟨w, -, hw⟩ := hw
  · exact if_pos hw
  · rw [if_neg (by rw [hw]; exact nofun)]
    exact movePages_of_held (r := { r with idx := (s.queue q.toNat).head, cmd := BitVec.ofNat 512 c }) hw _ _ _

/-- An UPDATE whose pages are promoted first (R138). -/
theorem updateRow_of_pages (hr : s.ready q k c) (hno : readyUpdate s q.toNat row = none) (hrow : isUpdate row c = true)
    (hd : pipeDue s k c = false) {u : State} {r : Started} (he : startUpdate q.toNat (popFront s q.toNat) k c = (u, r))
    {l : List Nat} (hw : r.work = .pages l [] none []) :
    runUpdateRow q row s =
      startPages (pushStarted u q.toNat (s.queue q.toNat).head c r) k q.toNat (s.queue q.toNat).head := by
  rw [runUpdateRow_of_ready hr hno hrow hd he, if_neg (by rw [hw]; exact nofun)]
  unfold movePages
  dsimp only
  rw [hw]

/-- An UPDATE whose pages have been promoted goes on. -/
theorem updateRow_of_promoted {w : Started} (hrun : s.running) (hw : readyUpdate s q.toNat row = some w)
    (hown : ownerOf s q.toNat = some k) (hst : (s.queue q.toNat).st ≠ .resetting) (hd : pipeDue s k w.cmd.toNat = false) :
    runUpdateRow q row s = resumeUpdate s k q.toNat w := by
  have hclk : s.boot.clocksOff = false := hrun
  unfold runUpdateRow
  rw [hw, hown]
  exact if_neg (by simp [hclk, hst, hd])
end

/-- Settles O36. -/
theorem updateStarts : Obligations.UpdateStarts := by
  unfold Obligations.UpdateStarts
  intro s q k c hcalm e he P v h swept d ws hrow
  rw [exec_updateRow hcalm q he]
  have hz := readsAs_noteUpdate (popFront s q.toNat) k c
  refine ⟨fun hr hno => ⟨fun hp => ?_, ?_⟩, fun w hrun hw hc hown hst hok => ⟨fun hp => ?_, fun p hp hd => ?_⟩⟩
  · exact congrArg _ (updateRow_of_settled hr hno hrow (pipeDue_of_noPipe hp) (startUpdate_of_noPipe hp) (.inl rfl))
  · intro z p hp hd
    have hstart := startUpdate_of_pipe (q := q) hp
    refine ⟨fun hv => ?_, fun hv h0 => ?_, fun hv h0 hi => ?_, fun hv h0 hi => ?_⟩
    · exact congrArg _ (updateRow_of_settled hr hno hrow hd (hstart.trans (if_pos hv)) (.inl rfl))
    · exact congrArg _ (updateRow_of_settled hr hno hrow hd (hstart.trans ((if_neg (not_not.2 hv)).trans (if_pos h0))) (.inl rfl))
    · have horder : z.order = s.order :=
        (keeps_noteUpdate (ws := [.queues, .parts, .snoops]) among (keeps_pop among s q.toNat) k c).same .order (by decide)
      have hgo := updateRow_of_pages hr hno hrow hd
        (hstart.trans ((if_neg (not_not.2 hv)).trans ((if_neg h0).trans (congrArg _ (if_pos hi))))) rfl
      rw [← horder]
      exact congrArg _ hgo
    · have hrest := runUpdate_swept (s := s) (z := z) ⟨hz.maps, hz.regions, hz.openPages, hz.mem⟩
        (keeps_noteUpdate among (keeps_pop among s q.toNat) k c) (uCmdOk_of_valid hv) q.toNat p h d ws
      refine ⟨_, _, congrArg _ (updateRow_of_settled hr hno hrow hd
        (hstart.trans ((if_neg (not_not.2 hv)).trans ((if_neg h0).trans (congrArg _ (if_neg (by simp [hi])))))) hrest.2.2.1),
        rfl, hrest⟩
  · subst hc
    rw [updateRow_of_promoted hrun hw hown hst (pipeDue_of_noPipe hp)]
    unfold resumeUpdate
    dsimp only
    rw [hp]
  · subst hc
    refine ⟨_, _, ⟨rfl, runUpdate_swept (.refl k s) (keeps_refl _ s) hok q.toNat p w.idx w.desc.toNat w.aux⟩, ?_⟩
    rw [updateRow_of_promoted hrun hw hown hst hd]
    unfold resumeUpdate
    dsimp only
    rw [hp]
    rfl

end Sys2Proof.Machine.TrainingStep
end

section
/-! PROOFS. Messages of the collective engine (08 R235; 06 R184): how a row takes one, what taking it leaves, and what ends a
started command. -/

namespace Sys2Proof.Machine.Collectives
open Sys2Proof TrainingStep

/-! ### Queues after a write -/

@[simp] theorem queue_putQueue_same (s : State) (q : Nat) (Q : QCtx) : (s.putQueue q Q).queue q = Q := tget_tset_same _ _ _ _
@[simp] theorem queue_modQueue_same (s : State) (q : Nat) (f : QCtx → QCtx) : (s.modQueue q f).queue q = f (s.queue q) :=
  queue_putQueue_same _ _ _
@[simp] theorem modStarted_started (s : State) (q : Nat) (idx : BitVec 24) (f : Started → Started) :
    ((modStarted s q idx f).queue q).started = (s.queue q).started.map fun r => if r.idx = idx then f r else r := by
  simp [modStarted]

/-! ### Ending a command (06 R172) -/

@[simp] theorem endColl_part (s : State) (q : Nat) (idx : BitVec 24) (st : BitVec 8) (k : Nat) :
    (endColl s q idx st).part k = s.part k := rfl

/-- A command ended is done, with the status given unless it faulted before. -/
theorem endColl_started {s : State} {q : Nat} {idx : BitVec 24} {st : BitVec 8} {r : Started}
    (hr : r ∈ ((endColl s q idx st).queue q).started) (hi : r.idx = idx) :
    r.work = .done ∧ (r.status = st ∨ faulting r.status = true) := by
  simp only [endColl, endAs, endWork, modStarted_started, List.map_map, List.mem_map, Function.comp_apply] at hr
  obtain ⟨x, -, rfl⟩ := hr
  by_cases hx : x.idx = idx <;> by_cases hf : faulting x.status = true <;> simp_all

/-! ### Taking a message -/

/-- Message i is taken from partition k's receive buffer. -/
def dropMsg (s : State) (k i : Nat) : State := s.modPart k fun P => { P with rx := P.rx.eraseIdx i }

section
variable (s : State) (k i : Nat)

@[simp] theorem dropMsg_part : (dropMsg s k i).part k = { s.part k with rx := (s.part k).rx.eraseIdx i } := part_modPart_same _ _ _
@[simp] theorem dropMsg_ctr (c : Nat) : (dropMsg s k i).ctr c = s.ctr c := rfl

theorem keeps_dropMsg {ws : List FieldName} (hw : Among [.parts] ws) : Keeps ws s (dropMsg s k i) :=
  keeps_modPart hw (keeps_refl _ s) _ _

@[simp] theorem findCmd_dropMsg (p : Nat → Started → Bool) : findCmd (dropMsg s k i) k p = findCmd s k p := by
  unfold findCmd queuesOf
  rw [dropMsg_part]
  rfl

theorem readsAs_dropMsg : ReadsAs k s (dropMsg s k i) :=
  ⟨by rw [dropMsg_part]; exact .of_fields rfl rfl rfl rfl fun _ _ => rfl, by rw [dropMsg_part], by rw [dropMsg_part], rfl⟩
end

section
variable {s z : State} {k opk : Nat} {m : Msg} {p : Msg → Bool}

theorem takeMsg_drops (h : takeMsg s k p = some (m, z)) : ∃ i, z = dropMsg s k i := by
  unfold takeMsg at h
  split at h
  · cases h
  · obtain ⟨-, rfl⟩ := Prod.mk.inj (Option.some.inj h)
    exact ⟨_, rfl⟩

/-- A message row runs on the first message of its kind that it picks. -/
theorem onMsg_of_taken (hrun : s.running) (h : takeMsg s k (fun m => m.opk.toNat = opk && p m) = some (m, z))
    (f : State → Msg → State) : onMsg s k opk p f = f z m := by
  have hclk : s.boot.clocksOff = false := hrun
  unfold onMsg
  rw [h, if_neg (by simp [hclk])]

/-- A message row of partition k answers what it makes of the message it takes. -/
theorem outcome_onMsg {k : Fin 16} (hrun : s.running) (hcalm : s.calm)
    (h : takeMsg s k.val (fun m => m.opk.toNat = opk && p m) = some (m, z)) {f : State → Msg → State} {t : State}
    (ht : f z m = t) : outcome s (onMsg s k.val opk p f) = .next t := by
  rw [outcome_of_calm hcalm, onMsg_of_taken hrun h, ht]
end

end Sys2Proof.Machine.Collectives
end

section
/-! PROOFS. What stands of a partition's reduction slots (08 R230) when messages are sent, commands are read and ended, and held
claims are answered: nothing but a claim's grant, and the end of an epoch, changes them. -/

namespace Sys2Proof.Machine.Collectives
open Sys2Proof TrainingStep

/-! ### Operations that leave every slot as it was -/

theorem modQueue_part (s : State) (q : Nat) (f : QCtx → QCtx) (j : Nat) : (s.modQueue q f).part j = s.part j := rfl
theorem modStarted_part (s : State) (q : Nat) (idx : BitVec 24) (f : Started → Started) (j : Nat) :
    (modStarted s q idx f).part j = s.part j := rfl

section
variable (s : State) (j : Nat)

theorem modPart_slots (k : Nat) {f : Part → Part} (hf : ∀ P, (f P).slots = P.slots := by exact fun _ => rfl) :
    ((s.modPart k f).part j).slots = (s.part j).slots := by
  by_cases h : j = k
  · rw [h, part_modPart_same, hf]
  · rw [part_modPart_ne s h]

theorem slots_of_keeps {s t : State} {ws : List FieldName} (h : Keeps ws s t) (hw : FieldName.parts ∉ ws) (j : Nat) :
    (t.part j).slots = (s.part j).slots := by rw [part_of_keeps h hw]

theorem ite_slots {s t u : State} {j : Nat} {c : Prop} [Decidable c] (ht : (t.part j).slots = (s.part j).slots)
    (hu : (u.part j).slots = (s.part j).slots) : ((if c then t else u).part j).slots = (s.part j).slots := by
  split
  · exact ht
  · exact hu

theorem foldl_slots {α : Type} {f : State → α → State} (hf : ∀ s x, ((f s x).part j).slots = (s.part j).slots) (l : List α) :
    ((l.foldl f s).part j).slots = (s.part j).slots := by
  induction l generalizing s with
  | nil => rfl
  | cons x l ih => rw [List.foldl_cons, ih, hf]

/-! ### Events, frames and packets (12 R383; 09 R263 to R281) -/

theorem askSub_eq (P : Part) (rank : BitVec 16) (planned : Bool) :
    askSub P rank planned = { P with subAsked := (askSub P rank planned).subAsked } := by
  unfold askSub; split <;> rfl

theorem askEvacuate_slots : ((askEvacuate s).part j).slots = (s.part j).slots := by
  refine foldl_slots s j (fun s k => ?_) _
  split
  · exact modPart_slots s j k fun P => by rw [askSub_eq]
  · rfl

theorem updateRisk_slots : ((updateRisk s).part j).slots = (s.part j).slots := by
  have h (r : Ripstop) (p : Power) : ((driveAlert ((s.setRipstop r).setPower p)).part j).slots = (s.part j).slots :=
    slots_of_keeps (ws := [.pins, .power, .ripstop])
      (keeps_driveAlert among (keeps_setPower among (keeps_setRipstop among (keeps_refl _ s)))) (by decide) j
  unfold updateRisk
  dsimp only
  split
  · rw [askEvacuate_slots, h]
  · exact h _ _

theorem raise_slots (v : Nat) : ((raise s v).part j).slots = (s.part j).slots :=
  slots_of_keeps (keeps_raise (among_refl _) (keeps_refl _ s) v) (by decide) j

theorem ripEvent_slots (cls part die lidx psite detail : Nat) :
    ((ripEvent s cls part die lidx psite detail).part j).slots = (s.part j).slots := by
  have h : ((updateRisk (s.setRipstop (countEvent s.ripstop cls))).part j).slots = (s.part j).slots := updateRisk_slots _ j
  unfold ripEvent
  dsimp only
  split
  · rw [modPart_slots, h]
  · rw [raise_slots]; exact h

theorem queueFrame_slots (p : Nat) (f : Bytes) : ((queueFrame s p f).part j).slots = (s.part j).slots :=
  slots_of_keeps (keeps_queueFrame (among_refl _) (keeps_refl _ s) p f) (by decide) j

theorem countFrame_slots (P : Part) (p d n : Nat) : (countFrame P p d n).slots = P.slots := rfl

theorem sendFrame_slots (k p etype : Nat) (b : Bytes) : ((sendFrame s k p etype b).part j).slots = (s.part j).slots := by
  unfold sendFrame
  dsimp only
  generalize frameOf _ _ _ _ _ = f
  rw [modPart_slots _ _ _ fun P => by rw [countFrame_slots, countFrame_slots], queueFrame_slots]

theorem setPers_part (i : Nat) (b : Bool) : (setPers s i b).part j = s.part j := rfl

theorem emitXft_slots (k p : Nat) (h : XHdr) (b : Bytes) : ((emitXft s k p h b).part j).slots = (s.part j).slots := by
  unfold emitXft
  dsimp only
  split
  · next i _ _ _ _ _ =>
    have hcount : ((s.modPart k fun P => { P with xslots := tmod {} P.xslots i fun x => { x with nctr := x.nctr + 1 } }).part j).slots =
        (s.part j).slots := modPart_slots s j k
    rw [sendFrame_slots]
    split
    · rw [ripEvent_slots, setPers_part, hcount]
    · exact hcount
  · rfl

theorem nextPath_slots {P P' : Part} {J : Job} {r n p : Nat} {c : Conn} {ent : BitVec 12}
    (h : nextPath s P J r n c = some (p, ent, P')) : P'.slots = P.slots := by
  obtain ⟨e, he, heq⟩ := Option.map_eq_some_iff.1 h
  have hP : e.2.slots = P.slots := by
    unfold nextPort at he
    dsimp only at he
    split at he
    · obtain ⟨x, -, rfl⟩ := Option.map_eq_some_iff.1 he; rfl
    · split at he
      · cases he
      · cases he; rfl
  obtain ⟨-, -, rfl⟩ := by simpa using heq
  exact hP

theorem sendData_slots {k r : Nat} {c c' : Conn} {p : Pkt} {t : State} (h : sendData s k r c p = some (t, c')) :
    (t.part j).slots = (s.part j).slots := by
  unfold sendData at h
  dsimp only at h
  split at h
  · split at h
    · cases h
    · next hpath =>
      obtain ⟨rfl, -⟩ := Prod.mk.inj (Option.some.inj h)
      rw [emitXft_slots, part_putPart]
      split
      · next hj => rw [nextPath_slots s hpath, hj]
      · rfl
  · cases h

theorem putConn_slots (k r : Nat) (c : Conn) : ((putConn s k r c).part j).slots = (s.part j).slots :=
  modPart_slots s j k

theorem pumpConn_slots (k r fuel : Nat) : ((pumpConn s k r fuel).part j).slots = (s.part j).slots := by
  induction fuel generalizing s with
  | zero => rfl
  | succ n ih =>
    unfold pumpConn
    dsimp only
    split
    · rfl
    · split
      · rfl
      · split
        · rfl
        · next hsend => rw [ih, putConn_slots, sendData_slots s j hsend]

@[simp] theorem sendMsg_slots (k r : Nat) (cmd : Option (BitVec 20 × BitVec 24)) (m : Msg) :
    ((sendMsg s k r cmd m).part j).slots = (s.part j).slots := by
  unfold sendMsg
  dsimp only
  split
  · rfl
  · split
    · exact modPart_slots s j k
    · split
      · rfl
      · unfold pumpTo; rw [pumpConn_slots, putConn_slots]

/-! ### Commands that are read, that go on and that end (06 R165, R171; 08 R245) -/

@[simp] theorem noteRead_slots (k a n : Nat) : ((s.noteRead k a n).part j).slots = (s.part j).slots := by
  unfold State.noteRead
  rw [noteMet_part]
  exact modPart_slots s j k fun P => by rw [touch_eq]

theorem claimHold_slots (k : Nat) : ((claimHold s k).part j).slots = (s.part j).slots := by
  unfold claimHold
  split
  · rfl
  · split
    · rfl
    · exact modPart_slots s j k

theorem acceptCmd_slots (k q c : Nat) : ((acceptCmd s k q c).part j).slots = (s.part j).slots := by
  unfold acceptCmd
  dsimp only
  split
  · rfl
  · split
    · rfl
    · rw [claimHold_slots]
      have hstamp (t : State) : ((stamp t k q).part j).slots = (t.part j).slots := by
        unfold stamp; dsimp only; rw [modQueue_part, modPart_slots]
      split
      · rw [slots_of_keeps (keeps_cacheSlice (among_refl _) (keeps_refl _ _) _ _) (by decide), hstamp]; rfl
      · rw [hstamp]; rfl

theorem fetchFront_slots (q : Nat) : ((fetchFront s q).part j).slots = (s.part j).slots := by
  unfold fetchFront
  dsimp only
  split
  · rfl
  · split
    · rfl
    · split
      · split
        · exact acceptCmd_slots _ _ _ _ _
        · split
          · rfl
          · exact slots_of_keeps (keeps_clRequest (ws := [.link]) among (keeps_refl _ (s.modQueue q _)) _ _ _ _ _ _ _) (by decide) j
      · split
        · rw [acceptCmd_slots, noteRead_slots]
        · rfl

/-- A command that starts leaves the slots as its own effect does. -/
@[simp] theorem pushStarted_slots (q : Nat) (idx : BitVec 24) (c : Nat) (r : Started) :
    ((pushStarted s q idx c r).part j).slots = (s.part j).slots := fetchFront_slots _ _ _

theorem sendFor_slots (k q : Nat) (r : Started) (rank : Nat) (m : Msg) : ((sendFor s k q r rank m).part j).slots = (s.part j).slots := by
  unfold sendFor
  split
  · rfl
  · split
    · exact sendMsg_slots _ _ _ _ _ _
    · rfl

theorem sendShard_slots (k q : Nat) (r : Started) (rank : Nat) (xs : List Int) :
    ((sendShard s k q r rank xs).part j).slots = (s.part j).slots := by
  unfold sendShard
  dsimp only
  rw [sendFor_slots]
  exact foldl_slots _ _ (fun s m => sendFor_slots s j k q r rank _) _

theorem modHealth_slots (k : Nat) (f : Health → Health) : ((modHealth s k f).part j).slots = (s.part j).slots :=
  modPart_slots s j k

theorem countNarrow_slots (k q : Nat) (e : Evt) : ((countNarrow s k q e).part j).slots = (s.part j).slots := by
  unfold countNarrow countNan countEvt
  rw [modHealth_slots, modHealth_slots, modQueue_part, modHealth_slots]

theorem runBcast_slots (k q : Nat) (r : Started) (S : Slot) : ((runBcast s k q r S).part j).slots = (s.part j).slots := by
  unfold runBcast
  dsimp only
  split
  · rw [endColl_part]
  · split
    · rfl
    · split
      · rw [endColl_part]
      · split
        · rw [endColl_part, modStarted_part]
        · refine (foldl_slots _ j (fun s m => sendShard_slots s j k q r m _) _).trans ?_
          rw [modStarted_part, countNarrow_slots, noteRead_slots]

theorem wakeBcasts_slots (k key : Nat) : ((wakeBcasts s k key).part j).slots = (s.part j).slots := by
  unfold wakeBcasts
  split
  · rfl
  · refine foldl_slots _ j (fun s e => ?_) _
    exact runBcast_slots s j k e.1 e.2 _

/-! ### Members told of a slot (08 R240) -/

@[simp] theorem tellGranted_slots (k key opk : Nat) (S : Slot) : ((tellGranted s k key opk S).part j).slots = (s.part j).slots :=
  foldl_slots _ _ (fun s _ => sendMsg_slots s j k _ _ _) _

@[simp] theorem tellBackups_slots (k key opk : Nat) (S : Slot) : ((tellBackups s k key opk S).part j).slots = (s.part j).slots := by
  unfold tellBackups
  exact foldl_slots _ _ (fun s i => ite_slots (sendMsg_slots s j k _ _ _) rfl) _

/-! ### Connections and keys at the end of an epoch (08 R252; 11 R335) -/

theorem failMsgs_slots (k r : Nat) : ((failMsgs s k r).part j).slots = (s.part j).slots := by
  unfold failMsgs
  exact (foldl_slots _ j (fun s m => slots_of_keeps (keeps_endAs (among_refl _) (keeps_refl _ s) _ _ _ _) (by decide) j) _).trans
    (putConn_slots s j k r _)

theorem clearConns_slots (k : Nat) : ((clearConns s k).part j).slots = (s.part j).slots := by
  unfold clearConns
  dsimp only
  rw [modPart_slots]
  exact foldl_slots _ j (fun s r => failMsgs_slots s j k r) _
end

theorem deriveNow_slots (P : Part) : (deriveNow P).slots = P.slots := by
  have hload (P : Part) (js : Bytes) (i g st : Nat) : (loadSlot P js i g st).slots = P.slots := by
    unfold loadSlot
    dsimp only
    split
    · rfl
    · split <;> rfl
  have hderive (step : Nat) : (deriveSlot P step).1.slots = P.slots := by
    unfold deriveSlot
    split
    · exact hload _ _ _ _ _
    · rfl
  rw [← hderive P.stepNo.toNat]
  unfold deriveNow
  split <;> next h => rw [h] <;> rfl

/-! ### Entries of the table of slots -/

/-- The entries under a key changed by f. -/
def modEntry (key : Nat) (f : Slot → Slot) (l : List (Nat × Slot)) : List (Nat × Slot) :=
  l.map fun e => if e.1 = key then (key, f e.2) else e

theorem modSlot_slots (s : State) (k key : Nat) (f : Slot → Slot) :
    ((modSlot s k key f).part k).slots = modEntry key f (s.part k).slots := by
  unfold modSlot; rw [part_modPart_same]; rfl

theorem tfind_modEntry (key : Nat) (f : Slot → Slot) (l : List (Nat × Slot)) (x : Nat) :
    tfind (modEntry key f l) x = if x = key then (tfind l key).map f else tfind l x := by
  have hfst (e : Nat × Slot) : (if e.1 = key then (key, f e.2) else e).1 = e.1 := by split <;> simp_all
  unfold tfind modEntry
  rw [List.find?_map]
  simp only [Function.comp_def, hfst]
  split
  · next h =>
    subst h
    cases hfind : l.find? fun e => decide (e.1 = x) with
    | none => rfl
    | some e =>
      have he : e.1 = x := by simpa using List.find?_some hfind
      simp [he]
  · next h =>
    cases hfind : l.find? fun e => decide (e.1 = x) with
    | none => rfl
    | some e =>
      have he : e.1 = x := by simpa using List.find?_some hfind
      simp [show ¬e.1 = key from fun hk => h (he.symm.trans hk)]

theorem mem_modEntry {key : Nat} {f : Slot → Slot} {l : List (Nat × Slot)} {e : Nat × Slot} (h : e ∈ modEntry key f l) :
    (∃ S, (key, S) ∈ l ∧ e = (key, f S)) ∨ e ∈ l ∧ e.1 ≠ key := by
  obtain ⟨x, hx, rfl⟩ := List.mem_map.1 h
  by_cases hk : x.1 = key
  · exact .inl ⟨x.2, hk ▸ hx, if_pos hk⟩
  · rw [if_neg hk]; exact .inr ⟨hx, hk⟩

/-! ### Claims that are answered (08 R236, R237), and the end of an epoch (08 R252) -/

/-- The slots once claim m has its grant. -/
def grantIn (m : Msg) (l : List (Nat × Slot)) : List (Nat × Slot) :=
  modEntry (slotKey m.epoch.toNat m.slotId.toNat)
    (fun S => { S with granted := tins m.mbid.toNat { src := m.src, role := m.role } S.granted }) l

/-- What grants leave true of the slots. -/
def GrantStable (p : List (Nat × Slot) → Prop) : Prop := ∀ m l, p l → p (grantIn m l)

section
variable {s : State} {k : Nat} {p : List (Nat × Slot) → Prop} (hp : GrantStable p)

@[simp] theorem countColl_slots (s : State) (k i j : Nat) : ((countColl s k i).part j).slots = (s.part j).slots :=
  modPart_slots s j k

theorem answer_slots (s : State) (k : Nat) (m : Msg) (n : Nat) :
    ((answer s k m n).part k).slots = if n = 0 then grantIn m (s.part k).slots else (s.part k).slots := by
  have hcount : ((match answerCounter n with | some i => countColl s k i | none => s).part k).slots = (s.part k).slots := by
    split
    · exact countColl_slots _ _ _ _
    · rfl
  unfold answer
  dsimp only
  rw [sendMsg_slots]
  split
  · split
    · rw [countColl_slots, modSlot_slots]; exact congrArg _ hcount
    · rw [modSlot_slots]; exact congrArg _ hcount
  · exact hcount

include hp

theorem takeClaim_slots (m : Msg) (h : p (s.part k).slots) : p ((takeClaim s k m).part k).slots := by
  have hanswer (n : Nat) : p ((answer s k m n).part k).slots := by
    rw [answer_slots]
    split
    · exact hp m _ h
    · exact h
  unfold takeClaim
  split
  · exact h
  · split
    · exact hanswer _
    · split
      · exact hanswer 7
      · rw [modPart_slots]; exact h

theorem answerHeld_slots (h : p (s.part k).slots) : p ((answerHeld s k).part k).slots := by
  have hfold : ∀ (l : List Msg) (t : State), p (t.part k).slots → p ((l.foldl (answerHeld.takeClaim' k) t).part k).slots := by
    intro l
    induction l with
    | nil => exact fun t ht => ht
    | cons m l ih => exact fun t ht => ih _ (takeClaim_slots hp m ht)
  refine hfold _ _ ?_
  rw [modPart_slots]
  exact h

theorem tryJersey_slots (hf : ∀ (l : List (Nat × Slot)) q, p l → p (l.filter q)) (h : p (s.part k).slots) :
    p ((tryJersey s k).part k).slots := by
  have hheld (f g : Part → Part) (hfs : ∀ P, (f P).slots = P.slots) (hg : ∀ P, p P.slots → p (g P).slots) :
      p ((answerHeld (((clearConns s k).modPart k f).modPart k g) k).part k).slots := by
    refine answerHeld_slots hp ?_
    rw [part_modPart_same]
    refine hg _ ?_
    rw [part_modPart_same, hfs, clearConns_slots]
    exact h
  unfold tryJersey
  split
  · split
    · exact h
    · dsimp only
      split
      · rw [endColl_part]
        exact hheld _ _ (fun P => by split; exacts [deriveNow_slots P, rfl]) fun P hP => hf _ _ hP
      · exact hheld _ _ (fun P => by split; exacts [deriveNow_slots P, rfl]) fun P hP => hf _ _ hP
  · exact h
end

end Sys2Proof.Machine.Collectives
end

section
/-! PROOFS. What a member does with the answers to its commands, and the commit vote (08 R234 to R251; 06 R184). -/

namespace Sys2Proof.Machine.Collectives
open Sys2Proof TrainingStep

/-- Step numbers agree where the top 16 bits of two health words do (07 Table 07.11). -/
theorem shiftRight_eq_iff_extract (v w : BitVec 64) : w >>> 48 = v >>> 48 ↔ w.extractLsb' 48 16 = v.extractLsb' 48 16 := by
  simp only [← BitVec.toNat_inj, BitVec.toNat_ushiftRight, BitVec.extractLsb'_toNat, Nat.shiftRight_eq_div_pow]
  have := v.isLt
  have := w.isLt
  omega

section
variable {s z : State} {k : Fin 16} {m : Msg} (hrun : s.running) (hcalm : s.calm)
include hrun hcalm

/-! ### Contributions (08 R234, R236 to R241) -/

/-- A row of the owner's answers runs on the CONTRIB that its message is for. -/
theorem outcome_onContrib {opk : Nat} {ph : ContribPhase → Bool} {q : Nat} {r : Started}
    (h : takeMsg s k.val (fun m => m.opk.toNat = opk && (contribOf s k.val m ph).isSome) = some (m, z))
    (hc : contribOf s k.val m ph = some (q, r)) {f : State → Nat → Started → Msg → State} {t : State} (ht : f z q r m = t) :
    outcome s (onContrib s k.val opk ph f) = .next t := by
  refine outcome_onMsg hrun hcalm h ?_
  obtain ⟨i, rfl⟩ := takeMsg_drops h
  have hz : contribOf (dropMsg s k.val i) k.val m ph = some (q, r) := by rw [← hc]; exact findCmd_dropMsg _ _ _ _
  simp only [hz, ht]

/-- ANSWER (Table 08.9). -/
theorem exec_answer {q : Nat} {r : Started}
    (h : takeMsg s k.val (fun m => m.opk.toNat = 0x02 && (contribOf s k.val m (· = .claimed)).isSome) = some (m, z))
    (hc : contribOf s k.val m (· = .claimed) = some (q, r)) :
    exec (.answer k) s = .next (
      let n := (m.payload.getD 0 0).toNat
      if n = 0 then pumpContribs (setWork z q r.idx (.contrib .sending 0 0)) k.val
      else if n ≤ 3 then endColl z q r.idx stOK
      else if n = 7 then setWork z q r.idx (.contrib .busy 0 0)
      else endColl z q r.idx stINVALID) := by
  refine outcome_onContrib hrun hcalm h hc ?_
  generalize (m.payload.getD 0 0).toNat = n
  dsimp only
  split
  · rfl
  · rfl
  · rfl
  · rfl
  · rfl
  · next h0 h1 h2 h3 h7 =>
    simp only [imp_false] at h0 h1 h2 h3
    rw [if_neg h0, if_neg (show ¬n ≤ 3 by omega), if_neg h7]

/-- PLACED (R238). -/
theorem exec_placed {q : Nat} {r : Started} {ph : ContribPhase} {sent placed : Nat}
    (h : takeMsg s k.val (fun m => m.opk.toNat = 0x04 && (contribOf s k.val m fun p => p = .sending ∨ p = .sealSent).isSome) = some (m, z))
    (hc : contribOf s k.val m (fun p => p = .sending ∨ p = .sealSent) = some (q, r)) (hw : r.work = .contrib ph sent placed) :
    exec (.placed k) s = .next (
      let w := pumpContribs (setWork z q r.idx (.contrib ph sent (placed + 1))) k.val
      if placed + 1 = contribPkts r.cmd.toNat ∧ ctSentEn r.cmd.toNat then addCtr w k.val (ctSentCtr r.cmd.toNat) 1 else w) := by
  refine outcome_onContrib hrun hcalm h hc ?_
  dsimp only
  rw [hw]

/-! ### Landing (08 R245, R246) -/

/-- LACK of a securing PUT. -/
theorem exec_lack_of_securing
    (h : takeMsg s k.val (fun m => m.opk.toNat = 0x12 && (securing m || (lackOf s k.val m).isSome)) = some (m, z))
    (hs : securing m = true) : exec (.lack k) s = .next (drainLack z k.val m) :=
  outcome_onMsg hrun hcalm h (if_pos hs)

/-- LACK of a BCAST or PUT. -/
theorem exec_lack {q : Nat} {r : Started} {l : List (Nat × Nat)}
    (h : takeMsg s k.val (fun m => m.opk.toNat = 0x12 && (securing m || (lackOf s k.val m).isSome)) = some (m, z))
    (hs : securing m = false) (hl : lackOf s k.val m = some (q, r)) (hw : r.work = .lacks l) {t : State}
    (ht : (let c := r.cmd.toNat
      let rest := l.filter (· ≠ (m.src.toNat, partOf m))
      let o := 2 ^ 30 * partOf m
      let again := countColl z k.val cLandRetry
      if m.payload.getD 0 0 = 0 then
        if rest.isEmpty then endColl z q r.idx stOK else setWork z q r.idx (.lacks rest)
      else if m.payload.getD 0 0 = 2 then endColl z q r.idx stADDRESS
      else if m.role = true then
        sendPart (again.noteRead k.val (ptSrc c + o) (min (2 ^ 30) (ptBytes c - o))) k.val q r (partOf m)
      else match tfind (again.part k.val).slots (slotKey (bcEpoch c) (bcSlot c)) with
        | some S => sendShard (again.noteRead k.val S.addr.toNat (8 * S.len)) k.val q r m.src.toNat (shardOf again k.val S c).1
        | none => endColl again q r.idx stDATA) = t) :
    exec (.lack k) s = .next t := by
  refine outcome_onMsg hrun hcalm h ?_
  obtain ⟨i, rfl⟩ := takeMsg_drops h
  have hz : lackOf (dropMsg s k.val i) k.val m = some (q, r) := by rw [← hl]; exact findCmd_dropMsg _ _ _ _
  dsimp only
  rw [if_neg (by simp [hs]), hz]
  dsimp only
  rw [hw]
  exact ht

/-! ### Gathers and remote signals (08 R249; 06 R184) -/

/-- GDATA (R249). -/
theorem exec_gdata {q : Nat} {r : Started} {got : Nat}
    (h : takeMsg s k.val (fun m => m.opk.toNat = 0x14 && (gatherOf s k.val m).isSome) = some (m, z))
    (hg : gatherOf s k.val m = some (q, r)) (hw : r.work = .gather got) {t : State}
    (ht : (let c := r.cmd.toNat
      let len := if m.dst.toNat = fgDst c then fgBytes c else if m.dst.toNat = fgDstSc c then fgScBytes c else 0
      let b := m.payload.take (len - 64 * m.off.toNat)
      let a := m.dst.toNat + 64 * m.off.toNat
      if b = [] then z
      else if writable (s.part k.val) a b.length = false then
        endColl (modStarted z q r.idx fun x => { x with faddr := BitVec.ofNat 48 (firstBad (s.part k.val) a b.length true) })
          q r.idx stADDRESS
      else setWork (z.store k.val a b) q r.idx (.gather (got + b.length))) = t) :
    exec (.gdata k) s = .next t := by
  refine outcome_onMsg hrun hcalm h ?_
  obtain ⟨i, rfl⟩ := takeMsg_drops h
  have hz : gatherOf (dropMsg s k.val i) k.val m = some (q, r) := by rw [← hg]; exact findCmd_dropMsg _ _ _ _
  dsimp only
  rw [hz, dropMsg_part]
  dsimp only
  rw [hw]
  simp only [List.isEmpty_iff, Bool.not_eq_true']
  exact ht

/-- GEND of a gather whose rows have come, or that failed, where it is the first message delivered (R249). -/
theorem exec_gend {q : Nat} {r : Started} {got : Nat} (hg : gatherOf s k.val m = some (q, r)) (hw : r.work = .gather got)
    (hend : (m.payload.getD 0 0 ≠ 0 ∧ m.payload.getD 0 0 ≠ stRANGE) ∨ fgBytes r.cmd.toNat + fgScBytes r.cmd.toNat ≤ got)
    {l : List Msg} (hrx : (s.part k.val).rx = m :: l) (hopk : m.opk = 0x15) :
    exec (.gend k) s = .next (endColl (dropMsg s k.val 0) q r.idx (m.payload.getD 0 0)) := by
  refine outcome_onMsg hrun hcalm (m := m) (z := dropMsg s k.val 0) ?_ ?_
  · have hpick : ((m.payload.getD 0 0 ≠ 0 && m.payload.getD 0 0 ≠ stRANGE) ||
        decide (fgBytes r.cmd.toNat + fgScBytes r.cmd.toNat ≤ got)) = true := by simpa using hend
    unfold takeMsg
    rw [hrx, List.findIdx?_cons, if_pos (by simp only [hg, hw, hopk]; exact hpick)]
    rfl
  · have hz : gatherOf (dropMsg s k.val 0) k.val m = some (q, r) := by rw [← hg]; exact findCmd_dropMsg _ _ _ _
    rw [hz]

/-- RSIG_ACK (06 R184). -/
theorem exec_rsigAck {q : Nat} {r : Started}
    (h : takeMsg s k.val (fun m => m.opk.toNat = 0x17 && (findCmd s k.val fun q r => r.work = .rsignal m.src && names m q r).isSome)
      = some (m, z)) (hf : findCmd s k.val (fun q r => r.work = .rsignal m.src && names m q r) = some (q, r)) :
    exec (.rsigAck k) s = .next (endWork z q r.idx (if m.payload.getD 0 0 = 0 then stOK else stADDRESS)) := by
  refine outcome_onMsg hrun hcalm h ?_
  obtain ⟨i, rfl⟩ := takeMsg_drops h
  dsimp only
  rw [findCmd_dropMsg, hf]

/-! ### The commit vote (08 R251) -/

/-- VOTE. -/
theorem exec_vote {J : Job} {v : Vote} (hJ : (s.part k.val).job = some J) (hv : (s.part k.val).vote = some v)
    (h : takeMsg s k.val (fun m => m.opk.toNat = 0x20 && ((voteAwait (s.part k.val)).contains m.src.toNat
      && (s.part k.val).vote.any fun v => !v.got.contains m.src.toNat)) = some (m, z)) :
    exec (.vote k) s = .next (
      let w : BitVec 64 := BitVec.ofNat 64 (leNat (slice m.payload 0 8))
      let agree := w.extractLsb' 48 16 = v.word.extractLsb' 48 16
      voteGo (if agree then z else z.modPart k.val fun P => askSub P m.src false) k.val J
        { v with word := if agree then v.word ||| (w &&& 0x7FF) else withMismatch (v.word ||| (w &&& 0x7FF)),
                 got := v.got ++ [m.src.toNat] } 5) := by
  refine outcome_onMsg hrun hcalm h ?_
  obtain ⟨i, rfl⟩ := takeMsg_drops h
  dsimp only
  rw [dropMsg_part]
  dsimp only
  rw [hJ, hv]
  simp only [decide_eq_true_eq, shiftRight_eq_iff_extract]

/-- VOTE_BC. -/
theorem exec_voteBc {v : Vote} (hv : (s.part k.val).vote = some v)
    (h : takeMsg s k.val (fun m => m.opk.toNat = 0x21 && (s.part k.val).vote.any fun v => v.sent) = some (m, z)) :
    exec (.voteBc k) s = .next (finishVote z k.val v (voteBits (BitVec.ofNat 64 (leNat (slice m.payload 0 8)))) true) := by
  refine outcome_onMsg hrun hcalm h ?_
  obtain ⟨i, rfl⟩ := takeMsg_drops h
  rw [dropMsg_part]
  dsimp only
  rw [hv]

/-- BUSY_RECLAIM (R237). -/
theorem exec_busyReclaim {q : Qid} {r : Started} (ho : ownerOf s q.toNat = some k.val)
    (hr : (s.queue q.toNat).started.find? (fun r => r.work = .contrib .busy 0 0) = some r) :
    exec (.busyReclaim q) s = .next (sendClaim s k.val q.toNat r) := by
  have hclk : s.boot.clocksOff = false := hrun
  refine (outcome_of_calm hcalm _).trans ?_
  rw [ho, hr]
  dsimp only
  rw [if_neg (by simp [hclk])]

/-- VOTE_DEADLINE. -/
theorem exec_voteDeadline {J : Job} {v : Vote} (hJ : (s.part k.val).job = some J) (hv : (s.part k.val).vote = some v)
    (hs : v.sent = false) : exec (.voteDeadline k) s = .next (voteGo (s.modPart k.val fun P => missing P (voteAwait P) v.got) k.val J
      { v with word := withAbsent v.word, stage := v.stage + 1, got := [] } 5) := by
  have hclk : s.boot.clocksOff = false := hrun
  refine (outcome_of_calm hcalm _).trans ?_
  rw [hJ, hv]
  dsimp only
  rw [if_neg (by simp [hclk, hs])]

/-- VOTE_BC_TIMEOUT. -/
theorem exec_voteBcTimeout {J : Job} {v : Vote} (hJ : (s.part k.val).job = some J) (hv : (s.part k.val).vote = some v)
    (hs : v.sent = true) : exec (.voteBcTimeout k) s
      = .next (finishVote (s.modPart k.val fun P => missing P (collectorOf J v) []) k.val v (withAbsent v.word) false) := by
  have hclk : s.boot.clocksOff = false := hrun
  refine (outcome_of_calm hcalm _).trans ?_
  rw [hJ, hv]
  dsimp only
  rw [if_neg (by simp [hclk, hs])]
end

/-! ### What a row leaves -/

/-- Ranks that do not answer are noted, and nothing else of the partition changes (12 R368, R381). -/
theorem missing_eq (P : Part) (ranks got : List Nat) :
    ∃ silent subAsked, missing P ranks got = { P with silent := silent, subAsked := subAsked } := by
  have hone (P : Part) (r : BitVec 16) : ∃ silent subAsked, unanswered P r = { P with silent := silent, subAsked := subAsked } :=
    ⟨_, _, askSub_eq _ _ _⟩
  unfold missing
  generalize ranks.filter _ = l
  induction l generalizing P with
  | nil => exact ⟨_, _, rfl⟩
  | cons r l ih =>
    obtain ⟨a, b, hr⟩ := hone P (BitVec.ofNat 16 r)
    rw [List.foldl_cons, hr]
    exact ih _

/-- The end of a vote that is not passed on: its word is written to OUT where it may be, and the HVOTE ends (R251). -/
theorem finishVote_of_noPass {s : State} {k : Nat} {J : Job} (hJ : (s.part k).job = some J) (v : Vote) (w : BitVec 64) :
    finishVote s k v w false =
      (let z := s.modPart k fun P => { P with vote := none }
      if writable (s.part k) v.out.toNat 8 = true then endColl (z.store k v.out.toNat (toLe 8 w.toNat)) v.qid.toNat v.idx stOK
      else endColl z v.qid.toNat v.idx stADDRESS) := by
  unfold finishVote
  rw [hJ]
  dsimp only
  rw [part_modPart_same]
  rfl

/-- What the end of a vote that is not passed on leaves: no vote, the word at OUT where it may be written, the HVOTE done. -/
structure VoteEnded (s t : State) (k : Nat) (v : Vote) (w : BitVec 64) : Prop where
  keeps : Keeps [.mem, .queues, .parts, .snoops] s t
  vote : (t.part k).vote = none
  within : StoresWithin (s.part k) k [(v.out.toNat, 8)] s t
  stored : writable (s.part k) v.out.toNat 8 = true → ∀ y, keyOf (s.part k) k v.out.toNat = some y → v.out.toNat % 8 = 0 →
    memRead t.mem y 8 = toLe 8 w.toNat
  done : ∀ r ∈ (t.queue v.qid.toNat).started, r.idx = v.idx → r.work = .done

theorem voteEnded_finishVote {s : State} {k : Nat} {J : Job} (hJ : (s.part k).job = some J) (v : Vote) (w : BitVec 64) :
    VoteEnded s (finishVote s k v w false) k v w := by
  rw [finishVote_of_noPass hJ]
  dsimp only
  generalize hz : (s.modPart k fun P => { P with vote := none }) = z
  have hpart : z.part k = { s.part k with vote := none } := by rw [← hz, part_modPart_same]
  have hkeep : Keeps [.mem, .queues, .parts, .snoops] s z := hz ▸ keeps_modPart among (keeps_refl _ s) _ _
  have hmem : z.mem = s.mem := hz ▸ rfl
  have hmaps : MapsAs (s.part k) (z.part k) := by rw [hpart]; exact .of_fields rfl rfl rfl rfl fun _ _ => rfl
  split
  · have hacc := accessed_store z k v.out.toNat (toLe 8 w.toNat)
    refine ⟨keeps_endColl among (keeps_store among hkeep _ _ _) _ _ _, ?_, ?_, fun _ y hy h8 => ?_, fun r hr hi => (endColl_started hr hi).1⟩
    · rw [endColl_part, hacc.rest, hpart]
    · exact storesWithin_trans (storesWithin_of_mem_eq hmem)
        (storesWithin_store hmaps (List.mem_singleton.2 rfl) le_rfl (by rw [toLe_length]))
    · have hread := memRead_store (s := z) (b := toLe 8 w.toNat) (by rw [toLe_length]; exact sectors_aligned h8)
        ((hmaps.keyOf _ _).trans hy)
      rwa [toLe_length] at hread
  · next hno =>
    refine ⟨keeps_endColl among hkeep _ _ _, ?_, storesWithin_of_mem_eq hmem, (absurd · hno), fun r hr hi => (endColl_started hr hi).1⟩
    rw [endColl_part, hpart]

/-- Settles O45. -/
theorem senderMessages : Obligations.SenderMessages := by
  unfold Obligations.SenderMessages
  intro s k hrun hcalm P kv
  refine ⟨fun q idx st r hr hi => endColl_started hr hi, fun m z => ?_, fun q r ho hr => exec_busyReclaim hrun hcalm ho hr,
    fun J v hJ hv => ⟨fun hs => exec_voteDeadline hrun hcalm hJ hv hs, fun hs => ?_⟩⟩
  · intro taken
    refine ⟨fun e he htaken q r hc => ?_, fun htaken q r ph sent placed hc hw => exec_placed hrun hcalm htaken hc hw,
      fun htaken => ⟨fun hs => exec_lack_of_securing hrun hcalm htaken hs, fun hs q r l hl hw => ?_⟩,
      fun htaken q r got hg hw => ?_, fun q r got hg hw hend hrx hz hopk => ?_,
      fun q r htaken hf => exec_rsigAck hrun hcalm htaken hf, fun J v hJ hv => ⟨fun htaken => ?_, fun htaken => ?_⟩⟩
    · simp only [List.mem_cons, List.not_mem_nil, or_false] at he
      obtain rfl | rfl | rfl | rfl | rfl | rfl := he
      · exact outcome_onContrib hrun hcalm htaken hc rfl
      · exact outcome_onContrib hrun hcalm htaken hc rfl
      · exact outcome_onContrib hrun hcalm htaken hc rfl
      · exact outcome_onContrib hrun hcalm htaken hc rfl
      · exact outcome_onContrib hrun hcalm htaken hc rfl
      · exact exec_answer hrun hcalm htaken hc
    · intro c rest o again
      have hslots : (again.part kv).slots = P.slots := by
        obtain ⟨i, rfl⟩ := takeMsg_drops htaken
        simp [again, P, kv]
      have hlack := fun t => exec_lack (t := t) hrun hcalm htaken hs hl hw
      refine ⟨fun h0 => hlack _ ?_, fun h2 => hlack _ ?_, fun h0 h2 => ⟨fun hrole => hlack _ ?_, fun hrole S hS => hlack _ ?_,
        fun hrole hS => hlack _ ?_⟩⟩
      · dsimp only
        rw [if_pos h0]
        simp only [List.isEmpty_iff]
        rfl
      · exact (if_neg (by rw [h2]; decide)).trans (if_pos h2)
      · exact (if_neg h0).trans ((if_neg h2).trans (if_pos hrole))
      · refine (if_neg h0).trans ((if_neg h2).trans ((if_neg (by simp [hrole])).trans ?_))
        rw [hslots, hS]
      · refine (if_neg h0).trans ((if_neg h2).trans ((if_neg (by simp [hrole])).trans ?_))
        rw [hslots, hS]
    · intro c len b a
      have hgdata := fun t => exec_gdata (t := t) hrun hcalm htaken hg hw
      obtain ⟨i, hz⟩ := takeMsg_drops htaken
      refine ⟨fun hb => hgdata _ (if_pos hb), fun hb hno => hgdata _ ((if_neg hb).trans (if_pos hno)),
        fun hb hok => ⟨_, hgdata _ ((if_neg hb).trans (if_neg (Bool.not_eq_false _ ▸ hok))), ?_, ?_, rfl⟩⟩
      · subst hz
        exact (keeps_setWork among (keeps_store among (keeps_dropMsg _ _ _ among) _ _ _) _ _ _).frame
      · subst hz
        exact storesWithin_trans (t := dropMsg s kv i) (storesWithin_of_mem_eq rfl)
          (storesWithin_store (readsAs_dropMsg s kv i).maps (List.mem_singleton.2 rfl) le_rfl le_rfl)
    · subst hz
      have hdrop : (s.modPart kv fun P => { P with rx := P.rx.tail }) = dropMsg s kv 0 := by
        unfold dropMsg; simp only [List.eraseIdx_zero]
      rw [hdrop]
      exact exec_gend hrun hcalm hg hw hend hrx hopk
    · exact exec_vote hrun hcalm hJ hv htaken
    · exact exec_voteBc hrun hcalm hv htaken
  · obtain ⟨silent, subAsked, hmiss⟩ := missing_eq P (collectorOf J v) []
    have hpart : (s.modPart kv fun P => missing P (collectorOf J v) []).part kv = { P with silent := silent, subAsked := subAsked } := by
      rw [part_modPart_same, ← hmiss]
    obtain ⟨hkeep, hvote, hwithin, hstored, hdone⟩ := voteEnded_finishVote (s := s.modPart kv fun P => missing P (collectorOf J v) [])
      (k := kv) (by rw [hpart]; exact hJ) v (withAbsent v.word)
    rw [hpart] at hwithin hstored
    exact ⟨_, exec_voteBcTimeout hrun hcalm hJ hv hs, (keeps_trans (keeps_modPart among (keeps_refl _ s) _ _) hkeep).frame, hvote,
      hwithin, hstored, hdone⟩

end Sys2Proof.Machine.Collectives
end

section
/-! PROOFS. What the owner of a slot does with each message and timer (08 R235 to R243, R246, R249; 06 R184; 12 R375, R377). -/

namespace Sys2Proof.Machine.Collectives
open Sys2Proof TrainingStep

/-! ### Claims (08 R236, Table 08.9) -/

theorem ite_code_eq {c : Prop} [Decidable c] {a b : ClaimAns} (h : a ≠ .code 0) :
    (if c then a else b) = .code 0 ↔ ¬c ∧ b = .code 0 := by
  by_cases hc : c <;> simp [hc, h]

/-- When a claim is granted. -/
theorem claimAnswer_granted_iff (P : Part) (J : Job) (m : Msg) : claimAnswer P J m = .code 0 ↔
    ∃ S, tfind P.slots (slotKey m.epoch.toNat m.slotId.toNat) = some S ∧ m.epoch = J.epoch ∧
      m.step16.toNat = S.step.toNat % 2 ^ 16 ∧ m.mbid.toNat < S.cmap.length ∧
      m.src.toNat = (if m.role then backupOf S m.mbid.toNat else primaryOf S m.mbid.toNat) ∧ m.exp = S.exp ∧
      m.off.toNat = S.len ∧ S.st = .opened ∧ tfind S.granted m.mbid.toNat = none ∧ m.mbid.toNat ∉ S.sealed ∧
      (m.role = true → m.mbid.toNat ∈ S.called) := by
  have hold : m.epoch = J.epoch → epochOlder m.epoch J.epoch = false := fun h => by simp [epochOlder, h]
  unfold claimAnswer
  dsimp only
  rw [ite_code_eq (by decide)]
  cases tfind P.slots (slotKey m.epoch.toNat m.slotId.toNat) with
  | none => simp
  | some S =>
    dsimp only
    rw [ite_code_eq (by decide), ite_code_eq (by decide), ite_code_eq (by decide), ite_code_eq (by decide),
      ite_code_eq (by decide), ite_code_eq (by decide), ite_code_eq (by decide)]
    simp only [Option.some.injEq, exists_eq_left', not_or, not_not, not_le, Bool.not_eq_true, Option.isSome_eq_false_iff,
      Option.isNone_iff_eq_none, List.contains_eq_mem, not_and, Bool.not_eq_false', decide_eq_true_eq, and_true]
    constructor
    · rintro ⟨-, hepoch, hstep, hsrc, hexp, hlen, hst, hrole⟩
      exact ⟨hepoch, hstep, hsrc.1, hsrc.2, hexp, hlen, hst.1, hst.2.1, hst.2.2, hrole⟩
    · rintro ⟨hepoch, hstep, hmbid, hsrc, hexp, hlen, hst, hgr, hsealed, hrole⟩
      exact ⟨hold hepoch, hepoch, hstep, ⟨hmbid, hsrc⟩, hexp, hlen, ⟨hst, hgr, hsealed⟩, hrole⟩

section
variable {s : State} {k : Nat} {J : Job} {m : Msg} (hJ : (s.part k).job = some J)
include hJ

theorem takeClaim_of_code {n : Nat} (ha : claimAnswer (s.part k) J m = .code n) : takeClaim s k m = answer s k m n := by
  unfold takeClaim
  rw [hJ]
  dsimp only
  rw [ha]

theorem takeClaim_of_held (ha : claimAnswer (s.part k) J m = .held) : takeClaim s k m =
    if 64 ≤ (s.part k).claims.length then answer s k m 7 else s.modPart k fun P => { P with claims := P.claims ++ [m] } := by
  unfold takeClaim
  rw [hJ]
  dsimp only
  rw [ha]
end

/-! ### DATA and SEAL of a grant (08 R238) -/

/-- Elements added within a range of slots change bytes of that range alone. -/
theorem storesWithin_addElems {P : Part} {k a o n : Nat} {e : Int} (l : List (Int × Nat)) {s : State} (hm : MapsAs P (s.part k))
    (hl : ∀ x ∈ l, x.2 < n) :
    StoresWithin P k [(a + 8 * o, 8 * n)] s (l.foldl (fun s x => addElem s k (a + 8 * (o + x.2)) x.1 e) s) := by
  induction l generalizing s with
  | nil => exact storesWithin_of_mem_eq rfl
  | cons x l ih =>
    have hx := hl x List.mem_cons_self
    have hrest := fun y hy => hl y (List.mem_cons_of_mem _ hy)
    rw [List.foldl_cons]
    unfold addElem
    split
    · refine storesWithin_trans (storesWithin_store hm (List.mem_singleton.2 rfl) (by omega) ?_) (ih (hm.trans (accessed_store s k _ _).maps) hrest)
      rw [toLe_length]; omega
    · exact ih hm hrest

theorem intsOf_length {b : Bytes} {n : Nat} (h : b.length = 4 * n) : (intsOf b).length = n := by
  unfold intsOf
  rw [List.length_map, pieces_length, h]
  omega

/-- The bytes a DATA packet adds lie in its grant's own units. -/
theorem storesWithin_data {P : Part} {k a o n : Nat} {e : Int} {s : State} {b : Bytes} (hm : MapsAs P (s.part k)) (hb : b.length = 4 * n) :
    StoresWithin P k [(a + 8 * o, 8 * n)] s ((intsOf b).zipIdx.foldl (fun s x => addElem s k (a + 8 * (o + x.2)) x.1 e) s) :=
  storesWithin_addElems _ hm fun x hx => by
    have := List.snd_lt_of_mem_zipIdx hx
    rwa [Nat.add_zero, intsOf_length hb] at this

/-! ### Landing (08 R245, R246; 12 R375, R377) -/

/-- What has landed from the sender of m at its base address. -/
def landOf (P : Part) (m : Msg) : Land :=
  (P.land.find? fun L => L.src = m.src && L.base = m.dst).getD { src := m.src, base := m.dst }

theorem landOf_names (P : Part) (m : Msg) : (landOf P m).src = m.src ∧ (landOf P m).base = m.dst := by
  unfold landOf
  cases h : P.land.find? fun L => L.src = m.src && L.base = m.dst with
  | none => exact ⟨rfl, rfl⟩
  | some L => simpa using List.find?_some h

/-- The record of what has landed from m's sender at its base, changed by f. -/
def noteLand (m : Msg) (f : Land → Land) (P : Part) : Part :=
  { P with land := P.land.filter (fun L => !(L.src = m.src && L.base = m.dst)) ++ [f (landOf P m)] }

theorem mem_land_noteLand (s : State) (k : Nat) (m : Msg) (f : Land → Land) :
    f (landOf (s.part k) m) ∈ ((s.modPart k (noteLand m f)).part k).land := by
  rw [part_modPart_same]
  exact List.mem_append_right _ (List.mem_singleton.2 rfl)

/-- The units of m among those that have landed. -/
def withUnits (m : Msg) (l : List (Nat × Nat)) : List (Nat × Nat) := tins m.off.toNat m.count.toNat (tdel l m.off.toNat)

theorem tfind_withUnits (m : Msg) (l : List (Nat × Nat)) : tfind (withUnits m l) m.off.toNat = some m.count.toNat :=
  tfind_tins_same _ (by rw [tfind_tdel, if_pos rfl])

/-- Bytes of one sector lie in one piece. -/
theorem sectors_of_oneSector {a n : Nat} (hn : n ≠ 0) (h : a / 2 ^ 16 = (a + n - 1) / 2 ^ 16) : sectors a n = [(a, n)] := by
  have h0 : (a + n - 1) / 2 ^ 16 - a / 2 ^ 16 + 1 = 1 := by omega
  rw [sectors, if_neg hn, h0]
  simp only [List.range_one, List.map_cons, List.map_nil, List.cons.injEq, and_true, Prod.mk.injEq]
  omega

/-! ### Sync counters that a message signals (06 R182, R184, R449) -/

theorem qEvent_part (s : State) (k i : Nat) : ∃ p, (qEvent s k i).part k = { s.part k with qpage := p } := by
  unfold qEvent
  dsimp only
  split
  · rw [part_of_keeps (keeps_raise (among_refl _) (keeps_refl _ _) _) (by decide), part_modPart_same]
    exact ⟨_, rfl⟩
  · rw [part_modPart_same]
    exact ⟨_, rfl⟩

theorem checkArm_part (s : State) (k : Nat) : ∃ p, (checkArm s k).part k = { s.part k with qpage := p } := by
  unfold checkArm
  dsimp only
  split
  · obtain ⟨p, hp⟩ := qEvent_part (s.modPart k fun P => { P with qpage := { P.qpage with armed := false } }) k 4
    rw [hp, part_modPart_same]
    exact ⟨p, rfl⟩
  · exact ⟨_, rfl⟩

/-- A counter of a partition changes its events and its watch alone. -/
theorem addCtr_part (s : State) (k c n : Nat) : ∃ p, (addCtr s k c n).part k = { s.part k with qpage := p } := by
  unfold addCtr
  dsimp only
  generalize hu : s.setCtrs _ = u
  have hpart : u.part k = s.part k := hu ▸ rfl
  have hevent (v : Prop) [Decidable v] : ∃ p, (if v then qEvent u k 3 else u).part k = { s.part k with qpage := p } := by
    split
    · rw [← hpart]; exact qEvent_part u k 3
    · exact ⟨_, hpart⟩
  obtain ⟨p, hp⟩ := hevent ((s.ctr c).toNat + n > 2 ^ 64 - 1)
  obtain ⟨p', hp'⟩ := checkArm_part _ k
  exact ⟨p', by rw [hp', hp]⟩

section
variable (s : State) (k c n : Nat)

theorem remoteSignal_snd : (remoteSignal s k c n).2 = ctrIn (s.part k) c := by
  unfold remoteSignal
  split
  · next h => exact h.symm
  · next h => exact (Bool.not_eq_true _ ▸ h).symm

theorem remoteSignal_ctr (y : Nat) :
    (remoteSignal s k c n).1.ctr y = if ctrIn (s.part k) c = true ∧ y = c then satAdd 64 (s.ctr y) n else s.ctr y := by
  unfold remoteSignal
  split
  · next h => simp only [addCtr_ctr, h, true_and]
  · next h => rw [if_neg (fun hc => h hc.1)]; rfl

theorem remoteSignal_part : ∃ p, (remoteSignal s k c n).1.part k =
    { s.part k with qpage := p, rsigDrop := if ctrIn (s.part k) c then (s.part k).rsigDrop else satAdd 64 (s.part k).rsigDrop 1 } := by
  unfold remoteSignal
  split
  · exact addCtr_part s k c n
  · exact ⟨_, part_modPart_same _ _ _⟩
end

/-! ### A slot that is reset (08 R240) -/

/-- A slot after its reset. -/
def afresh (n : Nat) (S : Slot) : Slot :=
  { S with st := if n = 4 then .failed else .opened, resets := n, timer := S.timer && n ≠ 4, granted := [], sealed := [], sum1 := 0, sum2 := 0 }

theorem zeroSlot_slots (s : State) (k : Nat) (S : Slot) : ((zeroSlot s k S).part k).slots = (s.part k).slots := by
  unfold zeroSlot
  split
  · rw [(accessed_zeroFill s k S.addr.toNat (8 * S.len)).rest]
  · rfl

theorem resetSlot_slots_of_lt {s : State} {k key : Nat} {S : Slot} (h : S.resets ≠ 3) :
    ((resetSlot s k key S).part k).slots = modEntry key (afresh (S.resets + 1)) (s.part k).slots := by
  unfold resetSlot
  dsimp only
  rw [if_neg (by omega), tellGranted_slots, modSlot_slots, zeroSlot_slots]
  rfl

/-- Each entry under the key has failed. -/
def FailedAt (key : Nat) (l : List (Nat × Slot)) : Prop := ∀ e ∈ l, e.1 = key → e.2.st = .failed

theorem grantStable_failedAt (key : Nat) : GrantStable (FailedAt key) := by
  intro m l h e he hk
  obtain ⟨S, hS, rfl⟩ | ⟨he, -⟩ := mem_modEntry he
  · exact h (_, S) hS hk
  · exact h e he hk

theorem failedAt_filter (key : Nat) (l : List (Nat × Slot)) (q : Nat × Slot → Bool) (h : FailedAt key l) : FailedAt key (l.filter q) :=
  fun e he => h e (List.mem_of_mem_filter he)

theorem FailedAt.tfind {key : Nat} {l : List (Nat × Slot)} (h : FailedAt key l) {S : Slot} (hS : tfind l key = some S) : S.st = .failed := by
  obtain ⟨e, he, rfl⟩ := Option.map_eq_some_iff.1 hS
  exact h e (List.mem_of_find?_eq_some he) (by simpa using List.find?_some he)

theorem failedAt_modEntry (key : Nat) (l : List (Nat × Slot)) : FailedAt key (modEntry key (afresh 4) l) := by
  intro e he hk
  obtain ⟨S, -, rfl⟩ | ⟨-, hne⟩ := mem_modEntry he
  · rfl
  · exact absurd hk hne

/-- After its fourth reset in a step a slot has failed. -/
theorem failedAt_resetSlot {s : State} {k key : Nat} {S : Slot} (h : S.resets = 3) :
    FailedAt key ((resetSlot s k key S).part k).slots := by
  unfold resetSlot
  dsimp only
  rw [if_pos (by omega)]
  refine tryJersey_slots (grantStable_failedAt key) (failedAt_filter key) ?_
  rw [wakeBcasts_slots, tellBackups_slots, tellGranted_slots, countColl_slots, modSlot_slots, h]
  exact failedAt_modEntry key _

/-- Of memory a reset writes the slot's zeros alone. -/
theorem resetSlot_mem (s : State) (k key : Nat) (S : Slot) : (resetSlot s k key S).mem = (zeroSlot s k S).mem := by
  have hmod (f : Slot → Slot) : Keeps [.queues, .parts, .ports, .link, .vectors, .pins, .power, .ripstop, .ethTx, .snoops]
      (zeroSlot s k S) (modSlot (zeroSlot s k S) k key f) := keeps_modSlot among (keeps_refl _ _) k key f
  refine Keeps.same ?_ .mem (by decide : FieldName.mem ∉
    [FieldName.queues, .parts, .ports, .link, .vectors, .pins, .power, .ripstop, .ethTx, .snoops])
  unfold resetSlot
  dsimp only
  split
  · exact keeps_tryJersey among (keeps_wakeBcasts among (keeps_tellBackups among (keeps_tellGranted among
      (keeps_countColl among (hmod _) _ _) _ _ _ _) _ _ _ _) _ _) _
  · exact keeps_tellGranted among (hmod _) _ _ _ _

/-! ### What each row answers -/

section
variable {s z : State} {k : Fin 16} {m : Msg} (hrun : s.running) (hcalm : s.calm)
include hrun hcalm

/-- CLAIM (R236, R237). -/
theorem exec_claim {J : Job} (hJ : (s.part k.val).job = some J)
    (h : takeMsg s k.val (fun m => m.opk.toNat = 0x01 && true) = some (m, z)) :
    (∀ n, claimAnswer (s.part k.val) J m = .code n → exec (.claim k) s = .next (answer z k.val m n)) ∧
    (claimAnswer (s.part k.val) J m = .held → exec (.claim k) s = .next (
      if 64 ≤ (s.part k.val).claims.length then answer z k.val m 7
      else z.modPart k.val fun P => { P with claims := P.claims ++ [m] })) := by
  obtain ⟨i, rfl⟩ := takeMsg_drops h
  have hz : ((dropMsg s k.val i).part k.val).job = some J := by rw [dropMsg_part]; exact hJ
  have hans : claimAnswer ((dropMsg s k.val i).part k.val) J m = claimAnswer (s.part k.val) J m := by rw [dropMsg_part]; rfl
  refine ⟨fun n ha => outcome_onMsg hrun hcalm h (takeClaim_of_code hz (hans.trans ha)), fun ha => outcome_onMsg hrun hcalm h ?_⟩
  rw [takeClaim_of_held hz (hans.trans ha), dropMsg_part]

/-- DATA that its grant does not await (R238). -/
theorem exec_data_of_misfit (h : takeMsg s k.val (fun m => m.opk.toNat = 0x03 && true) = some (m, z))
    (hno : ∀ S g, grantFor (s.part k.val) m = some (S, g) → ¬(m.off.toNat ∉ g.placed ∧ m.off.toNat % 2048 = 0 ∧ m.off.toNat < S.len ∧
      m.count.toNat = min 2048 (S.len - m.off.toNat) ∧ m.payload.length = 4 * m.count.toNat)) : exec (.data k) s = .next z := by
  refine outcome_onMsg hrun hcalm h ?_
  obtain ⟨i, rfl⟩ := takeMsg_drops h
  have hz : grantFor ((dropMsg s k.val i).part k.val) m = grantFor (s.part k.val) m := by rw [dropMsg_part]; rfl
  dsimp only
  rw [hz]
  split
  · rfl
  · next S g hg =>
    refine if_pos (Classical.byContradiction fun hc => hno S g hg ?_)
    simpa only [not_or, not_not, not_le, List.contains_iff_mem, ne_eq] using hc

/-- DATA of a grant (R238). -/
theorem exec_data {S : Slot} {g : MbRec} (h : takeMsg s k.val (fun m => m.opk.toNat = 0x03 && true) = some (m, z))
    (hg : grantFor (s.part k.val) m = some (S, g)) (hnew : m.off.toNat ∉ g.placed) (hunit : m.off.toNat % 2048 = 0)
    (hlt : m.off.toNat < S.len) (hcount : m.count.toNat = min 2048 (S.len - m.off.toNat)) (hlen : m.payload.length = 4 * m.count.toNat) :
    exec (.data k) s = .next (
      let key := slotKey m.epoch.toNat m.slotId.toNat
      let w := (intsOf m.payload).zipIdx.foldl
        (fun s e => addElem s k.val (S.addr.toNat + 8 * (m.off.toNat + e.2)) e.1 S.exp.toInt) z
      trySeal (sendMsg (modSlot w k.val key fun S => { S with granted := S.granted.map fun e =>
        if e.1 = m.mbid.toNat then (e.1, { e.2 with placed := e.2.placed ++ [m.off.toNat] }) else e }) k.val m.src.toNat none
        { slotMsg 0x04 key m.mbid.toNat m.role [] with off := m.off }) k.val key m.mbid.toNat) := by
  refine outcome_onMsg hrun hcalm h ?_
  obtain ⟨i, rfl⟩ := takeMsg_drops h
  have hz : grantFor ((dropMsg s k.val i).part k.val) m = some (S, g) := by rw [dropMsg_part]; exact hg
  dsimp only
  rw [hz]
  exact if_neg (by simp only [not_or, not_not, not_le, List.contains_iff_mem, ne_eq]; exact ⟨hnew, hunit, hlt, hcount, hlen⟩)

/-- SEAL (R238). -/
theorem exec_seal (h : takeMsg s k.val (fun m => m.opk.toNat = 0x05 && true) = some (m, z)) :
    exec (.seal k) s = .next (
      let key := slotKey m.epoch.toNat m.slotId.toNat
      let x : BitVec 64 × BitVec 64 := (BitVec.ofNat 64 (leNat (slice m.payload 0 8)), BitVec.ofNat 64 (leNat (slice m.payload 8 8) % 2 ^ 61))
      if grantFor (s.part k.val) m = none then z
      else trySeal (modSlot z k.val key fun S => { S with granted := S.granted.map fun e =>
        if e.1 = m.mbid.toNat then (e.1, { e.2 with sums := some x }) else e }) k.val key m.mbid.toNat) := by
  refine outcome_onMsg hrun hcalm h ?_
  obtain ⟨i, rfl⟩ := takeMsg_drops h
  have hz : grantFor ((dropMsg s k.val i).part k.val) m = grantFor (s.part k.val) m := by rw [dropMsg_part]; rfl
  dsimp only
  rw [hz]
  cases grantFor (s.part k.val) m with
  | none => rfl
  | some x => rfl

/-- LAND (R245, R246). -/
theorem exec_land (h : takeMsg s k.val (fun m => m.opk.toNat = 0x10 && true) = some (m, z)) :
    exec (.land k) s = .next (
      let a := m.dst.toNat + 64 * m.off.toNat
      let n := 64 * m.count.toNat
      if n = 0 ∨ m.payload.length ≠ n then z
      else if !landable (s.part k.val) m a n then z.modPart k.val (noteLand m fun L => { L with bad := true })
      else if securing m ∧ secName m = secRecord then
        z.modPart k.val (noteLand m fun L => { L with units := withUnits m L.units, aside := m.payload })
      else
        ((if securing m then z.modPart k.val fun P => dropGen P m.src (buddyHalf P m.src a) else z).store k.val a m.payload).modPart
          k.val (noteLand m fun L => { L with units := withUnits m L.units })) := by
  refine outcome_onMsg hrun hcalm h ?_
  obtain ⟨i, rfl⟩ := takeMsg_drops h
  have hz : landable ((dropMsg s k.val i).part k.val) m = landable (s.part k.val) m := by rw [dropMsg_part]; rfl
  dsimp only
  rw [hz]
  rfl

/-- LSEAL (R245, R246). -/
theorem exec_lseal (h : takeMsg s k.val (fun m => m.opk.toNat = 0x11 && true) = some (m, z)) :
    exec (.lseal k) s = .next (takeLseal k.val z m) := outcome_onMsg hrun hcalm h rfl

/-- RSIG (06 R184). -/
theorem exec_rsig (h : takeMsg s k.val (fun m => m.opk.toNat = 0x16 && true) = some (m, z)) :
    exec (.rsig k) s = .next (takeRsig k.val z m) := outcome_onMsg hrun hcalm h rfl

/-- GREQ of a held request whose face has come (R249). -/
theorem exec_greq_of_held {i : Nat}
    (hi : (s.part k.val).greqs.findIdx? (fun m => gatherServe (s.part k.val) (leNat m.payload * 2 ^ 128) ≠ .hold) = some i) :
    exec (.greq k) s = .next (
      let P := s.part k.val
      let m := P.greqs[i]?.getD {}
      answerGather (s.putPart k.val { P with greqs := P.greqs.eraseIdx i }) k.val m (gatherServe P (leNat m.payload * 2 ^ 128))) := by
  have hclk : s.boot.clocksOff = false := hrun
  refine (outcome_of_calm hcalm _).trans ?_
  dsimp only
  rw [if_neg (by simp [hclk]), hi]

/-- GREQ (R249). -/
theorem exec_greq (h : takeMsg s k.val (fun m => m.opk.toNat = 0x13 && true) = some (m, z))
    (hi : (s.part k.val).greqs.findIdx? (fun m => gatherServe (s.part k.val) (leNat m.payload * 2 ^ 128) ≠ .hold) = none) :
    exec (.greq k) s = .next (answerGather z k.val m (gatherServe (s.part k.val) (leNat m.payload * 2 ^ 128))) := by
  have hclk : s.boot.clocksOff = false := hrun
  refine (outcome_of_calm hcalm _).trans ?_
  dsimp only
  rw [if_neg (by simp [hclk]), hi]
  dsimp only
  rw [onMsg_of_taken hrun h]
  obtain ⟨i, rfl⟩ := takeMsg_drops h
  rw [dropMsg_part]
  rfl

/-- GHOLD_T (14 Table 14.13). -/
theorem exec_gholdT {n : Nat} (hm : (s.part k.val).greqs[n]? = some m) : exec (.gholdT k n) s = .next (
    answerGather (s.putPart k.val { s.part k.val with greqs := (s.part k.val).greqs.eraseIdx n }) k.val m (.refuse stDATA)) := by
  have hclk : s.boot.clocksOff = false := hrun
  refine (outcome_of_calm hcalm _).trans ?_
  dsimp only
  rw [hm]
  dsimp only
  rw [if_neg (by simp [hclk])]

section
variable {epoch slot : BitVec 16} {S : Slot} (hS : tfind (s.part k.val).slots (slotKey epoch.toNat slot.toNat) = some S)
include hS

/-- DEADLINE (R242). -/
theorem exec_deadline : exec (.deadline k epoch slot) s = .next (
    let key := slotKey epoch.toNat slot.toNat
    if S.timer = false ∨ S.st ≠ .opened then s
    else callBackups (modSlot s k.val key fun S => { S with timer := false }) k.val key S fun i => (tfind S.granted i).isNone) := by
  have hclk : s.boot.clocksOff = false := hrun
  refine (outcome_of_calm hcalm _).trans ?_
  dsimp only
  rw [hS]
  simp only [hclk, Bool.false_eq_true, false_or, Bool.not_eq_true']

/-- SEAL_TO (R243). -/
theorem exec_sealTo (mbid : BitVec 16) : exec (.sealTo k epoch slot mbid) s = .next (
    let key := slotKey epoch.toNat slot.toNat
    if S.st ≠ .opened ∨ tfind S.granted mbid.toNat = none ∨ mbid.toNat ∈ S.sealed then s
    else
      let w := resetSlot (countColl s k.val cSealTo) k.val key S
      match tfind (w.part k.val).slots key with
      | some S => if S.st = .opened then callBackups w k.val key S (· = mbid.toNat) else w
      | none => w) := by
  have hclk : s.boot.clocksOff = false := hrun
  refine (outcome_of_calm hcalm _).trans ?_
  dsimp only
  rw [hS]
  simp only [hclk, Bool.false_eq_true, false_or, Option.isNone_iff_eq_none, List.contains_iff_mem] <;> rfl
end
end

/-! ### What the rows leave -/

theorem mapsAs_dropGen (P : Part) (src : BitVec 16) (half : Bool) : MapsAs P (dropGen P src half) :=
  .of_fields rfl rfl rfl rfl fun _ _ => rfl

/-- A message taken; where it is a page of a securing PUT, the generation it writes over is COMPLETE no more. -/
def landing (s : State) (k i : Nat) (m : Msg) (a : Nat) : State :=
  if securing m then (dropMsg s k i).modPart k fun P => dropGen P m.src (buddyHalf P m.src a) else dropMsg s k i

section
variable (s : State) (k i : Nat) (m : Msg) (a : Nat)

theorem landing_mem : (landing s k i m a).mem = s.mem := by
  unfold landing
  split <;> rfl

theorem mapsAs_landing : MapsAs (s.part k) ((landing s k i m a).part k) := by
  have hdrop := (readsAs_dropMsg s k i).maps
  unfold landing
  split
  · rw [part_modPart_same]; exact hdrop.trans (mapsAs_dropGen _ _ _)
  · exact hdrop

theorem keeps_landing {ws : List FieldName} (hw : Among [.parts] ws) : Keeps ws s (landing s k i m a) :=
  keeps_ite (keeps_modPart hw (keeps_dropMsg s k i hw) _ _) (keeps_dropMsg s k i hw)
end

/-- What landed for an LSEAL is forgotten, and a secured-state record that came with it stored. -/
def landed (s : State) (k : Nat) (m : Msg) (L : Land) (ok : Bool) : State :=
  let s := s.modPart k fun P => { P with land := P.land.filter fun L => !(L.src = m.src && L.base = m.dst) }
  if ok ∧ securing m ∧ secName m = secRecord then
    s.modPart k fun P => storeSecRec P { secRecOf (leNat (slice L.aside 0 32)) with half := buddyHalf P m.src m.dst.toNat }
  else s

theorem landed_part (s : State) (k : Nat) (m : Msg) (L : Land) (ok : Bool) : ∃ r,
    (landed s k m L ok).part k = { s.part k with
      land := (s.part k).land.filter fun L => !(L.src = m.src && L.base = m.dst), secRecs := r } ∧
    (ok = true → securing m = true → secName m = secRecord →
      r.head? = some { secRecOf (leNat (slice L.aside 0 32)) with half := buddyHalf (s.part k) m.src m.dst.toNat }) := by
  unfold landed
  dsimp only
  split
  · next h =>
    rw [part_modPart_same, part_modPart_same]
    exact ⟨_, rfl, fun _ _ _ => rfl⟩
  · next h =>
    rw [part_modPart_same]
    exact ⟨_, rfl, fun h1 h2 h3 => absurd ⟨h1, h2, h3⟩ h⟩

theorem keeps_landed {ws : List FieldName} {z : State} (s : State) (k : Nat) (m : Msg) (L : Land) (ok : Bool) (hk : Keeps ws z s)
    (hw : Among [.parts] ws) : Keeps ws z (landed s k m L ok) :=
  keeps_ite (keeps_modPart hw (keeps_modPart hw hk _ _) _ _) (keeps_modPart hw hk _ _)

theorem landed_ctr (s : State) (k : Nat) (m : Msg) (L : Land) (ok : Bool) (y : Nat) : (landed s k m L ok).ctr y = s.ctr y := by
  unfold landed
  dsimp only
  split <;> rfl

theorem landedElems_of_readsAs {k : Nat} {s t : State} (h : ReadsAs k s t) (L : Land) : landedElems t k L = landedElems s k L := by
  unfold landedElems
  simp only [h.loadNat]

/-- A counter signalled where a message asks for it. -/
def signalled (s : State) (k c : Nat) (asks : Bool) : State := if asks then (remoteSignal s k c 1).1 else s

section
variable (s : State) (k c : Nat) (asks : Bool)

theorem keeps_signalled {ws : List FieldName} (hw : Among [.ctrs, .parts, .link, .vectors] ws) : Keeps ws s (signalled s k c asks) :=
  keeps_ite (keepsf_remoteSignal hw (keeps_refl _ s) k c 1) (keeps_refl _ s)

theorem signalled_ctr (y : Nat) : (signalled s k c asks).ctr y =
    if asks = true ∧ ctrIn (s.part k) c = true ∧ y = c then satAdd 64 (s.ctr y) 1 else s.ctr y := by
  unfold signalled
  cases asks with
  | false => simp
  | true => simp [remoteSignal_ctr]

theorem signalled_part : ∃ p, (signalled s k c asks).part k = { s.part k with
    qpage := p, rsigDrop := if asks && !ctrIn (s.part k) c then satAdd 64 (s.part k).rsigDrop 1 else (s.part k).rsigDrop } := by
  unfold signalled
  cases asks with
  | false => exact ⟨_, rfl⟩
  | true =>
    obtain ⟨p, hp⟩ := remoteSignal_part s k c 1
    refine ⟨p, hp.trans ?_⟩
    cases ctrIn (s.part k) c <;> rfl
end

/-- An LSEAL taken, in its parts: what landed verified and noted, the counter signalled, LACK returned. -/
theorem takeLseal_eq (k : Nat) (z : State) (m : Msg) : takeLseal k z m = (
    let L := landOf (z.part k) m
    let x := leNat (slice m.payload 0 8)
    let ok : Bool := !L.bad &&
      if m.role then landedBytes L = x else csum (landedElems z k L) = (x, leNat (slice m.payload 8 8) % 2 ^ 61)
    let c := leNat (slice m.payload 16 2)
    let asks : Bool := ok && bitOf (m.payload.getD 18 0).toNat 0
    let code : Byte := if L.bad || (m.role && asks && !ctrIn (z.part k) c) then 2 else if ok then 0 else 1
    sendMsg (signalled (landed z k m L ok) k c asks) k m.src.toNat none (echo m
      { opk := 0x12, slotId := m.slotId, epoch := m.epoch, role := m.role, exp := m.exp, payload := [code] })) := by
  unfold takeLseal
  lift_lets
  intro same L a b ok s1 src s2 e L' ok' c asks code
  have hL : L' = L := rfl
  have hok : ok' = ok := by
    unfold ok ok'
    cases m.role <;> rfl
  have hs2 : landed z k m L ok' = s2 := by rw [hok]; rfl
  obtain ⟨r, hpart, -⟩ := landed_part z k m L ok'
  have hctr : ctrIn (s2.part k) c = ctrIn (z.part k) c := by rw [← hs2, hpart]; rfl
  have he : e = (signalled s2 k c asks, !(asks && !ctrIn (z.part k) c)) := by
    unfold e signalled asks
    rw [hok, ← hctr, ← remoteSignal_snd s2 k c 1]
    cases ok <;> cases bitOf (m.payload.getD 18 0).toNat 0 <;> simp <;> rfl
  have hcode : (if L.bad || (m.role && !!(asks && !ctrIn (z.part k) c)) then (2 : Byte) else if ok then 0 else 1) = code := by
    unfold code
    rw [Bool.not_not, hok, ← Bool.and_assoc]
    rfl
  rw [he, hL, hs2, ← hcode]

/-- What an LSEAL leaves: its counter signalled where it asks for that, what landed forgotten, a record stored. -/
structure LandSealed (s w : State) (k : Nat) (m : Msg) (L : Land) (ok asks : Bool) (c : Nat) : Prop where
  keeps : Keeps [.ctrs, .parts, .link, .vectors] s w
  ctr : ∀ y, w.ctr y = if asks = true ∧ ctrIn (s.part k) c = true ∧ y = c then satAdd 64 (s.ctr y) 1 else s.ctr y
  drop : (w.part k).rsigDrop = if asks && !ctrIn (s.part k) c then satAdd 64 (s.part k).rsigDrop 1 else (s.part k).rsigDrop
  land : ∀ y ∈ (w.part k).land, ¬(y.src = m.src ∧ y.base = m.dst)
  record : ok = true → securing m = true → secName m = secRecord →
    (w.part k).secRecs.head? = some { secRecOf (leNat (slice L.aside 0 32)) with half := buddyHalf (s.part k) m.src m.dst.toNat }

theorem landSealed (s : State) (k i : Nat) (m : Msg) (L : Land) (ok asks : Bool) (c : Nat) :
    LandSealed s (signalled (landed (dropMsg s k i) k m L ok) k c asks) k m L ok asks c := by
  obtain ⟨r, hland, hrec⟩ := landed_part (dropMsg s k i) k m L ok
  obtain ⟨p, hsig⟩ := signalled_part (landed (dropMsg s k i) k m L ok) k c asks
  rw [dropMsg_part] at hland hrec
  have hctr : ctrIn ((landed (dropMsg s k i) k m L ok).part k) c = ctrIn (s.part k) c := by rw [hland]; rfl
  rw [hctr, hland] at hsig
  refine ⟨keeps_trans (keeps_landed _ _ _ _ _ (keeps_dropMsg s k i among) among) (keeps_signalled _ _ _ _ among), fun y => ?_, ?_,
    fun y hy => ?_, fun h1 h2 h3 => ?_⟩
  · rw [signalled_ctr, hctr, landed_ctr, dropMsg_ctr]
  · rw [hsig]
  · rw [hsig] at hy
    simpa [imp_iff_not_or] using (List.mem_filter.1 hy).2
  · rw [hsig]
    exact hrec h1 h2 h3

/-- An RSIG taken, with its answer. -/
theorem takeRsig_eq (k : Nat) (z : State) (m : Msg) : takeRsig k z m = (
    let c := leNat (slice m.payload 0 2)
    sendMsg (remoteSignal z k c (leNat (slice m.payload 4 4))).1 k m.src.toNat none
      (echo m { opk := 0x17, payload := [if ctrIn (z.part k) c then 0 else 1] })) := by
  unfold takeRsig
  dsimp only
  rw [remoteSignal_snd]

section
variable {s z : State} {k : Fin 16} {m : Msg} (hrun : s.running) (hcalm : s.calm)
include hrun hcalm

/-- An RSIG leaves its counter, or the count of dropped ones, and its answer (06 R184). -/
theorem rsig_answers (h : takeMsg s k.val (fun m => m.opk.toNat = 0x16 && true) = some (m, z)) :
    let c := leNat (slice m.payload 0 2)
    let ok := ctrIn (s.part k.val) c
    ∃ w, Frame [.ctrs, .parts, .link, .vectors] s w ∧
      (∀ y, w.ctr y = if ok = true ∧ y = c then satAdd 64 (s.ctr y) (leNat (slice m.payload 4 4)) else s.ctr y) ∧
      (w.part k.val).rsigDrop = (if ok then (s.part k.val).rsigDrop else satAdd 64 (s.part k.val).rsigDrop 1) ∧
      exec (.rsig k) s = .next (sendMsg w k.val m.src.toNat none (echo m { opk := 0x17, payload := [if ok then 0 else 1] })) := by
  intro c ok
  have hexec := exec_rsig hrun hcalm h
  obtain ⟨j, rfl⟩ := takeMsg_drops h
  obtain ⟨p, hp⟩ := remoteSignal_part (dropMsg s k.val j) k.val c (leNat (slice m.payload 4 4))
  have hctr : ctrIn ((dropMsg s k.val j).part k.val) c = ok := by rw [dropMsg_part]; rfl
  rw [hctr, dropMsg_part] at hp
  refine ⟨(remoteSignal (dropMsg s k.val j) k.val c (leNat (slice m.payload 4 4))).1, ?_, fun y => ?_, ?_, ?_⟩
  · exact (keepsf_remoteSignal among (keeps_dropMsg s k.val j among) _ _ _).frame
  · rw [remoteSignal_ctr, hctr, dropMsg_ctr]
  · rw [hp]
  · rw [hexec, takeRsig_eq, dropMsg_part]
    rfl

/-! ### A LAND of whole units (08 R245, R246) -/

section
variable (h : takeMsg s k.val (fun m => m.opk.toNat = 0x10 && true) = some (m, z)) (hn : 64 * m.count.toNat ≠ 0)
  (hlen : m.payload.length = 64 * m.count.toNat)
include h hn hlen

/-- One that may not be written is noted for its LSEAL. -/
theorem land_refused (hno : landable (s.part k.val) m (m.dst.toNat + 64 * m.off.toNat) (64 * m.count.toNat) = false) :
    Answers (exec (.land k) s) fun t => Frame [.parts] s t ∧
      ∃ L ∈ (t.part k.val).land, L.src = m.src ∧ L.base = m.dst ∧ L.bad = true := by
  have hexec := exec_land hrun hcalm h
  obtain ⟨j, rfl⟩ := takeMsg_drops h
  exact ⟨_, hexec.trans (congrArg _ ((if_neg (by simp [hn, hlen])).trans (if_pos (by rw [hno]; rfl)))),
    (keeps_modPart among (keeps_dropMsg s k.val j among) _ _).frame, _, mem_land_noteLand _ _ _ _,
    (landOf_names _ m).1, (landOf_names _ m).2, rfl⟩

variable (hok : landable (s.part k.val) m (m.dst.toNat + 64 * m.off.toNat) (64 * m.count.toNat) = true)
include hok

/-- A secured-state record is kept aside. -/
theorem land_aside (ha : securing m = true ∧ secName m = secRecord) :
    Answers (exec (.land k) s) fun t => Frame [.parts] s t ∧ ∃ L ∈ (t.part k.val).land, L.src = m.src ∧ L.base = m.dst ∧
      tfind L.units m.off.toNat = some m.count.toNat ∧ L.aside = m.payload := by
  have hexec := exec_land hrun hcalm h
  obtain ⟨j, rfl⟩ := takeMsg_drops h
  exact ⟨_, hexec.trans (congrArg _ ((if_neg (by simp [hn, hlen])).trans ((if_neg (by rw [hok]; decide)).trans (if_pos ha)))),
    (keeps_modPart among (keeps_dropMsg s k.val j among) _ _).frame, _, mem_land_noteLand _ _ _ _,
    (landOf_names _ m).1, (landOf_names _ m).2, tfind_withUnits m _, rfl⟩

/-- Any other is stored, its units noted. -/
theorem land_stored (ha : ¬(securing m = true ∧ secName m = secRecord)) :
    let a := m.dst.toNat + 64 * m.off.toNat
    let n := 64 * m.count.toNat
    Answers (exec (.land k) s) fun t => Frame [.mem, .parts, .snoops] s t ∧ StoresWithin (s.part k.val) k.val [(a, n)] s t ∧
      (∀ y, keyOf (s.part k.val) k.val a = some y → a / 2 ^ 16 = (a + n - 1) / 2 ^ 16 → memRead t.mem y n = m.payload) ∧
      ∃ L ∈ (t.part k.val).land, L.src = m.src ∧ L.base = m.dst ∧ tfind L.units m.off.toNat = some m.count.toNat := by
  intro a n
  have hexec := exec_land hrun hcalm h
  obtain ⟨j, rfl⟩ := takeMsg_drops h
  have hmaps := mapsAs_landing s k.val j m a
  refine ⟨_, hexec.trans (congrArg _ ((if_neg (by simp [hn, hlen])).trans ((if_neg (by rw [hok]; decide)).trans (if_neg ha)))),
    (keeps_modPart among (keeps_store among (keeps_landing s k.val j m a among) _ _ _) _ _).frame, ?_, fun y hy hsec => ?_,
    _, mem_land_noteLand _ _ _ _, (landOf_names _ m).1, (landOf_names _ m).2, tfind_withUnits m _⟩
  · exact storesWithin_trans (t := landing s k.val j m a) (storesWithin_of_mem_eq (landing_mem s k.val j m a))
      (storesWithin_store hmaps (List.mem_singleton.2 rfl) le_rfl (by rw [hlen]))
  · have hread := memRead_store (s := landing s k.val j m a) (b := m.payload)
      (by rw [hlen]; exact sectors_of_oneSector hn hsec) ((hmaps.keyOf k.val a).trans hy)
    rwa [hlen] at hread
end
end

/-- A reset slot, where the slot is below its fourth reset (R240). -/
theorem tfind_resetSlot {s : State} {k key : Nat} {S : Slot} (hS : tfind (s.part k).slots key = some S) (h : S.resets ≠ 3) :
    tfind ((resetSlot s k key S).part k).slots key = some (afresh (S.resets + 1) S) := by
  rw [resetSlot_slots_of_lt h, tfind_modEntry, if_pos rfl, hS]
  rfl

/-- A request for a face to come is held (R249). -/
theorem gatherServe_of_lt {P : Part} {c : Nat} (h : P.stepNo.toNat < fgFace c) : gatherServe P c = .hold := if_pos h

/-- A request that is served asks for a face of this step or, from the back, of the step before (R249). -/
theorem fgFace_of_gatherServe {P : Part} {c : Nat} :
    (gatherServe P c = .serve false → fgFace c = P.stepNo.toNat) ∧ (gatherServe P c = .serve true → fgFace c + 1 = P.stepNo.toNat) := by
  unfold gatherServe
  dsimp only
  split_ifs with h1 h2 h3 h4
  · exact ⟨nofun, nofun⟩
  · exact ⟨nofun, nofun⟩
  · exact ⟨fun _ => h3, nofun⟩
  · exact ⟨nofun, fun _ => h4.1⟩
  · exact ⟨nofun, nofun⟩

/-- Settles O44. -/
theorem ownerMessages : Obligations.OwnerMessages := by
  unfold Obligations.OwnerMessages
  intro s k hrun hcalm P kv
  refine ⟨fun m z => ?_, fun n m hm => exec_gholdT hrun hcalm hm, fun i hi => exec_greq_of_held hrun hcalm hi,
    fun epoch slot mbid S hS => ?_⟩
  · intro taken key i o
    refine ⟨fun h J hJ => ?_, fun h => ?_, fun h => ?_, fun h => ?_, fun h => ?_, fun h => ?_, fun h hi => ?_⟩
    · obtain ⟨hcode, hheld⟩ := exec_claim hrun hcalm hJ h
      exact ⟨hcode, hheld, claimAnswer_granted_iff P J m⟩
    · refine ⟨exec_data_of_misfit hrun hcalm h, fun S g hg ⟨hnew, hunit, hlt, hcount, hlen⟩ =>
        ⟨_, ?_, ?_, exec_data hrun hcalm h hg hnew hunit hlt hcount hlen⟩⟩
      · obtain ⟨j, rfl⟩ := takeMsg_drops h
        exact (keeps_foldl (fun _ _ hk => keeps_addElem among hk _ _ _ _) (keeps_dropMsg _ _ _ among)).frame
      · obtain ⟨j, rfl⟩ := takeMsg_drops h
        exact storesWithin_trans (t := dropMsg s kv j) (storesWithin_of_mem_eq rfl)
          (storesWithin_data (readsAs_dropMsg s kv j).maps hlen)
    · have hexec := exec_seal hrun hcalm h
      exact ⟨fun hg => hexec.trans (congrArg _ (if_pos hg)), fun hg => hexec.trans (congrArg _ (if_neg hg))⟩
    · intro a n whole aside
      refine ⟨fun hw => (exec_land hrun hcalm h).trans (congrArg _ (if_pos ?_)), fun ⟨hn, hlen⟩ hno => ?_, fun ⟨hn, hlen⟩ hok ha =>
        land_aside hrun hcalm h hn hlen hok ha, fun ⟨hn, hlen⟩ hok ha => land_stored hrun hcalm h hn hlen hok ha⟩
      · exact Classical.byContradiction fun hc => hw (by simpa only [not_or, not_not] using hc)
      · exact land_refused hrun hcalm h hn hlen hno
    · intro L x ok c asks code lack
      have hexec := exec_lseal hrun hcalm h
      rw [takeLseal_eq] at hexec
      obtain ⟨j, rfl⟩ := takeMsg_drops h
      have hL : landOf ((dropMsg s kv j).part kv) m = L := by rw [dropMsg_part]; rfl
      dsimp only at hexec
      rw [hL, landedElems_of_readsAs (readsAs_dropMsg s kv j)] at hexec
      obtain ⟨hkeeps, hctr, hdrop, hland, hrec⟩ := landSealed s kv j m L ok asks c
      refine ⟨_, hkeeps.frame, hctr, hdrop, hland, hrec, hexec.trans ?_⟩
      rw [dropMsg_part]
      rfl
    · intro c ok
      exact rsig_answers hrun hcalm h
    · intro c
      exact ⟨exec_greq hrun hcalm h hi, gatherServe_of_lt, fgFace_of_gatherServe⟩
  · intro key
    have hdl := exec_deadline hrun hcalm hS
    have hto := exec_sealTo hrun hcalm hS mbid
    refine ⟨fun htimer hst => hdl.trans (congrArg _ (if_neg (by simp [htimer, hst]))), fun hno => hdl.trans (congrArg _ (if_pos hno)),
      fun hst hgr hse => ?_, fun hno => hto.trans (congrArg _ (if_pos hno)), fun hr => ?_, fun hr S' hS' => (failedAt_resetSlot hr).tfind hS',
      fun hw x hx1 hx2 y hy => ?_⟩
    · exact hto.trans (congrArg _ (if_neg (by simp [hst, hgr, hse])))
    · refine ⟨_, tfind_resetSlot hS hr, ?_, rfl, rfl, rfl, rfl, rfl, rfl, rfl, rfl⟩
      exact if_neg (show S.resets + 1 ≠ 4 by omega)
    · rw [resetSlot_mem, zeroSlot, if_pos hw]
      exact cellAt_zeroFill hx1 hx2 hy

end Sys2Proof.Machine.Collectives
end

section
/-! PROOFS. How the collective commands start (08 R225 to R252; 06 R184; 05 R138; 11 R336). -/

namespace Sys2Proof.Machine.Collectives
open Sys2Proof TrainingStep

/-! ### The command at HEAD starts (06 R171; 08 R225) -/

section
variable {s : State} {q : Qid} {k c kind : Nat} (hr : s.ready q k c)
include hr

/-- The command at HEAD is one ring slot. -/
theorem toNat_cmd : (BitVec.ofNat 512 c).toNat = c := by
  obtain ⟨-, hst, -⟩ := hr
  unfold startable at hst
  split at hst
  · dsimp only at hst
    split at hst
    · obtain ⟨-, rfl⟩ := Prod.mk.inj (Option.some.inj hst)
      rw [BitVec.ofNat_toNat, BitVec.setWidth_eq]
    · cases hst
  · cases hst

/-- The command at HEAD, which its row picks, starts with its work done. -/
theorem startsAs_startThen {sel : State → Nat → Nat → Bool} {f : State → Nat → Nat → State × Started}
    {g : State → Nat → Started → State} (hsel : sel s k c = true) {u : State} {r : Started} (he : f (popFront s q.toNat) k c = (u, r))
    (hw : r.work = .done) : StartsAs (outcome s (startThen s q.toNat sel f g)) s q c u r := by
  unfold StartsAs
  rw [outcome_of_calm hr.1, startThen_of_ready hr hsel he, if_pos hw]

/-- The command at HEAD, which its row picks, starts and goes on with its work. -/
theorem outcome_startThen_of_work {sel : State → Nat → Nat → Bool} {f : State → Nat → Nat → State × Started}
    {g : State → Nat → Started → State} (hsel : sel s k c = true) {u : State} {r : Started} (he : f (popFront s q.toNat) k c = (u, r))
    (hw : r.work ≠ .done) : outcome s (startThen s q.toNat sel f g) = .next (g (pushStarted u q.toNat (s.queue q.toNat).head c r) k
      { r with idx := (s.queue q.toNat).head, cmd := BitVec.ofNat 512 c }) := by
  rw [outcome_of_calm hr.1, startThen_of_ready hr hsel he, if_neg hw]

section
variable (hk : isKind 4 kind c = true) {f : State → Nat → Nat → State × Started} {g : State → Nat → Started → State}
include hk

theorem startsAs_onColl {u : State} {r : Started}
    (he : (if (s.part k).job.isNone ∧ kind ≠ 0x10 ∧ kind ≠ 0x16 then (popFront s q.toNat, collFail stINVALID)
      else f (popFront s q.toNat) k c) = (u, r)) : StartsAs (outcome s (onColl s q kind always f)) s q c u r := by
  obtain ⟨hcalm, hst, hgood⟩ := hr
  unfold StartsAs onColl runFront
  rw [outcome_of_calm hcalm, hst]
  dsimp only
  rw [if_neg (by simp [hk, always]), if_pos rfl, spoilt_of_good hgood, popFront_part, he]

/-- Without a job a command that goes on ends INVALID. -/
theorem startsAs_onCollThen_of_noJob (hj : (s.part k).job = none) :
    StartsAs (outcome s (onCollThen s q kind always f g)) s q c (popFront s q.toNat) (failed stINVALID 6) :=
  startsAs_startThen hr (by simp [hk, always]) (if_pos (by rw [popFront_part, hj]; rfl)) rfl

variable (hj : (s.part k).job ≠ none)
include hj

theorem startsAs_onCollThen {u : State} {r : Started} (he : f (popFront s q.toNat) k c = (u, r)) (hw : r.work = .done) :
    StartsAs (outcome s (onCollThen s q kind always f g)) s q c u r :=
  startsAs_startThen hr (by simp [hk, always]) ((if_neg (by rw [popFront_part]; simpa using hj)).trans he) hw

theorem outcome_onCollThen_of_work {u : State} {r : Started} (he : f (popFront s q.toNat) k c = (u, r)) (hw : r.work ≠ .done) :
    outcome s (onCollThen s q kind always f g) = .next (g (pushStarted u q.toNat (s.queue q.toNat).head c r) k
      { r with idx := (s.queue q.toNat).head, cmd := BitVec.ofNat 512 c }) :=
  outcome_startThen_of_work hr (by simp [hk, always]) ((if_neg (by rw [popFront_part]; simpa using hj)).trans he) hw
end
end

/-- SLOTOPEN, where none of its queue waits for its pages. -/
theorem exec_slotopen {s : State} {q : Qid}
    (hno : (s.queue q.toNat).started.find? (fun r => r.work = .iwin && isKind 4 0x11 r.cmd.toNat) = none) :
    exec (.slotopen q) s = outcome s (onCollThen s q 0x11 always startSlot (movePages q.toNat)) := by
  show execSlotopen q s = _
  unfold execSlotopen
  dsimp only
  rw [hno]

/-! ### Structures that are read (10 R307) -/

section
variable {s : State} (k a n : Nat)

theorem noteMet_of_calm (h : s.calm) (w : Bool) : s.noteMet k a n w = s := by
  obtain ⟨hdir, hhome⟩ := h
  unfold State.noteMet
  rw [hdir, hhome]
  rfl

theorem noteIf_part_ne {j : Nat} (h : j ≠ k) : (s.noteIf k a n).part j = s.part j := by
  unfold State.noteIf
  split
  · unfold State.noteRead; rw [noteMet_part, part_modPart_ne s h]
  · rfl

theorem accessed_noteIf : Accessed (s.part k) ((s.noteIf k a n).part k) := by
  unfold State.noteIf
  split
  · exact accessed_noteRead s k a n
  · exact .refl _

/-- With no companion's line to meet, reading changes page records alone. -/
theorem keeps_noteIf_of_calm (h : s.calm) : Keeps [.parts] s (s.noteIf k a n) := by
  have hmod : Keeps [.parts] s (s.modPart k fun P => touch P false a n) := keeps_modPart among (keeps_refl _ s) _ _
  unfold State.noteIf
  split
  · unfold State.noteRead
    rw [noteMet_of_calm]
    · exact hmod
    · exact h
  · exact keeps_refl _ s

theorem calm_of_keeps {ws : List FieldName} {t : State} (h : Keeps ws s t) (hw : FieldName.link ∉ ws) (hc : s.calm) : t.calm := by
  have hlink : t.link = s.link := h.same .link hw
  unfold State.calm
  rw [hlink]
  exact hc
end

/-! ### JOIN (08 R225; 11 R336) -/

theorem joinJob_of_illegal {s : State} {k c : Nat}
    (h : ¬((s.part k).job = none ∧ fld c 175 128 % 64 = 0 ∧ bodyClear c [(175, 128), (191, 176)] = true)) :
    joinJob s k c = (s, collFail stINVALID) := by
  refine if_pos (Classical.byContradiction fun hc => h ?_)
  simpa [not_or] using hc

/-- Partition k with a job, and the newest key loaded before it in use. -/
def joined (s : State) (k : Nat) (J : Job) : State :=
  s.modPart k fun P => takeLoaded { P with job := some J, conns := [], silent := [], subAsked := [] }

theorem joinJob_of_legal {s : State} {k c : Nat}
    (h : (s.part k).job = none ∧ fld c 175 128 % 64 = 0 ∧ bodyClear c [(175, 128), (191, 176)] = true) :
    let a := fld c 175 128
    let d := readJob s k a (BitVec.ofNat 16 (fld c 191 176))
    (∀ f, d = .error f → joinJob s k c = (noteJob s k a, failed stADDRESS 6 f)) ∧
    (d = .ok none → joinJob s k c = (noteJob s k a, failed stINVALID 6)) ∧
    (∀ J, d = .ok (some J) → joinJob s k c = (joined (noteJob s k a) k J, {})) := by
  obtain ⟨hj, ha, hb⟩ := h
  intro a d
  unfold joinJob
  dsimp only
  rw [if_neg (by simp [hj, ha, hb])]
  refine ⟨fun f hd => ?_, fun hd => ?_, fun J hd => ?_⟩
  · rw [show readJob s k (fld c 175 128) _ = _ from hd]; rfl
  · rw [show readJob s k (fld c 175 128) _ = _ from hd]; rfl
  · rw [show readJob s k (fld c 175 128) _ = _ from hd]; rfl

theorem noteJob_part_ne {s : State} {k j : Nat} (h : j ≠ k) (a : Nat) : (noteJob s k a).part j = s.part j := by
  unfold noteJob
  dsimp only
  rw [noteIf_part_ne _ _ _ h, noteIf_part_ne _ _ _ h]

theorem keeps_noteJob_of_calm {s : State} (h : s.calm) (k a : Nat) : Keeps [.parts] s (noteJob s k a) := by
  unfold noteJob
  dsimp only
  have h1 := keeps_noteIf_of_calm k a 64 h
  exact keeps_trans h1 (keeps_noteIf_of_calm _ _ _ (calm_of_keeps h1 (by decide) h))

/-! ### SLOTOPEN (08 R230 to R232; 05 R138) -/

/-- A slot just opened, however many of its members have been granted since. -/
def OpenedAs (key : Nat) (S : Slot) (l : List (Nat × Slot)) : Prop := ∃ S', tfind l key = some S' ∧ { S' with granted := [] } = S

theorem grantStable_openedAs (key : Nat) (S : Slot) : GrantStable (OpenedAs key S) := by
  rintro m l ⟨S', hS', hS⟩
  unfold OpenedAs grantIn
  rw [tfind_modEntry]
  split
  · next hk => rw [← hk, hS']; exact ⟨_, rfl, hS⟩
  · exact ⟨S', hS', hS⟩

/-- A SLOTOPEN's slot as it opens it. -/
def slotOf (s : State) (k c : Nat) : Slot :=
  { addr := BitVec.ofNat 48 (soAddr c), len := soLen c, exp := BitVec.ofNat 8 (fld c 287 280), step := (s.part k).stepNo,
    cmap := (List.range (soNc c)).map fun i => BitVec.ofNat 32 (s.loadNat k (soMap c + 4 * i) 4),
    arrEn := bitOf c 334, arrCtr := BitVec.ofNat 14 (fld c 348 335), doneCtr := BitVec.ofNat 14 (fld c 333 320),
    timer := fld c 319 304 ≠ 0 }

section
variable (s : State) (k c : Nat)

theorem openSlot_slots : OpenedAs (slotKey (soEpoch c) (soSlot c)) (slotOf (s.zeroFill k (soAddr c) (8 * soLen c)) k c)
    ((openSlot s k c).part k).slots := by
  refine answerHeld_slots (grantStable_openedAs _ _) ?_
  rw [part_modPart_same]
  exact ⟨_, tfind_tins_same _ (by rw [tfind_tdel, if_pos rfl]), rfl⟩

/-- Of memory a SLOTOPEN writes its zeros alone. -/
theorem openSlot_mem : (openSlot s k c).mem = (s.zeroFill k (soAddr c) (8 * soLen c)).mem :=
  (keeps_answerHeld (ws := [.parts, .ports, .link, .vectors, .pins, .power, .ripstop, .ethTx]) among
    (keeps_modPart among (keeps_refl _ _) k _) k).same .mem (by decide)

theorem startSlot_of_valid (hv : (if epochClosed (s.part k) (soEpoch c) = true then (stINVALID, 0) else soValidate s k c).1 = stOK) :
    startSlot s k c =
      if bitOf c 349 ∧ soAddr c < 0xF00000000000 then
        withPages (s.noteIf k (soMap c) (4 * soNc c)) (pagesOf (soAddr c) (8 * soLen c))
      else (openSlot (s.noteIf k (soMap c) (4 * soNc c)) k c, {}) := by
  unfold startSlot
  dsimp only
  rw [if_neg (by simpa using hv)]

theorem startSlot_of_invalid (hv : (if epochClosed (s.part k) (soEpoch c) = true then (stINVALID, 0) else soValidate s k c).1 ≠ stOK) :
    startSlot s k c =
      let v := if epochClosed (s.part k) (soEpoch c) = true then (stINVALID, 0) else soValidate s k c
      (s.noteIf k (soMap c) (4 * soNc c), failed v.1 6 v.2) := if_pos hv
end

/-! ### CONTRIB (08 R232, R234) -/

theorem countNarrow_health (s : State) (k q : Nat) (e : Evt) :
    ((countNarrow s k q e).part k).health.xsat = satAdd 32 (s.part k).health.xsat e.sat ∧
      ((countNarrow s k q e).part k).health.nan = satAdd 32 (s.part k).health.nan e.nanIn := by
  unfold countNarrow countNan countEvt modHealth
  rw [part_modPart_same, part_modPart_same, modQueue_part, part_modPart_same]
  exact ⟨rfl, rfl⟩

/-- The elements of a contribution, and the events of narrowing them. -/
def ctNarrow (s : State) (k c : Nat) : List Int × Evt := narrowAll s k (ctSrc c) (ctLen c) (sext 8 (ctExp c))

/-- A contribution's source zero-filled, its elements in CBUF. -/
def narrowed (s : State) (k c : Nat) : State :=
  (s.zeroFill k (ctSrc c) (8 * ctLen c)).store k (ctBuf c) (packElems 32 ((ctNarrow s k c).1.map (pat 32)))

section
variable (s : State) (k c : Nat)

theorem startContrib_of_invalid (q : Qid) (h : (ctValidate (s.part k) c).1 ≠ stOK) :
    startContrib q s k c = (s, failed (ctValidate (s.part k) c).1 6 (ctValidate (s.part k) c).2) := if_pos h

theorem accessed_narrowed : Accessed (s.part k) ((narrowed s k c).part k) :=
  (accessed_zeroFill s k _ _).trans (accessed_store _ k _ _)

theorem startContrib_of_valid (q : Qid) (h : (ctValidate (s.part k) c).1 = stOK) :
    startContrib q s k c = (countNarrow (narrowed s k c) k q.toNat (ctNarrow s k c).2,
      { work := .contrib .waitCall 0 0, flush := (ctNarrow s k c).2.flush > 0,
        step16 := BitVec.ofNat 16 (s.part k).stepNo.toNat }) := by
  rw [← (accessed_narrowed s k c).stepNo]
  exact if_neg (by simpa using h)

theorem storesWithin_narrowed : StoresWithin (s.part k) k [(ctSrc c, 8 * ctLen c), (ctBuf c, 4 * ctLen c)] s (narrowed s k c) := by
  refine storesWithin_trans (storesWithin_zeroFill (.refl _) List.mem_cons_self)
    (storesWithin_store (accessed_zeroFill s k _ _).maps (List.mem_cons_of_mem _ List.mem_cons_self) le_rfl ?_)
  rw [packElems_length, List.length_map, ctNarrow, narrowAll]
  simp only [imagesAt, List.length_map, List.length_range]
  omega

theorem narrowed_popFront_mem (q : Nat) : (narrowed (popFront s q) k c).mem = (narrowed s k c).mem := by
  have hpart : ((popFront s q).zeroFill k (ctSrc c) (8 * ctLen c)).part k = (s.zeroFill k (ctSrc c) (8 * ctLen c)).part k := by
    rw [zeroFill_part, zeroFill_part, popFront_part]
  unfold narrowed
  rw [store_mem, store_mem, hpart, zeroFill_mem, zeroFill_mem]
  rfl

theorem countNarrow_mem (q : Nat) (e : Evt) : (countNarrow s k q e).mem = s.mem :=
  (keeps_countNarrow (among_refl _) (keeps_refl _ s) k q e).same .mem (by decide)
end

/-! ### BCAST, PUT, FGATHER and RSIGNAL (08 R245, R246, R249; 06 R184) -/

section
variable {s : State} {k c : Nat}

theorem startBcast_of_illegal (h : ¬(bcDst c % 64 = 0 ∧ ctrIn (s.part k) (bcCtr c) = true ∧ fld c 511 234 = 0)) :
    startBcast s k c = (s, failed stINVALID 6) := by
  refine if_pos (Classical.byContradiction fun hc => h ?_)
  simpa [not_or] using hc

theorem startBcast_of_legal (h : bcDst c % 64 = 0 ∧ ctrIn (s.part k) (bcCtr c) = true ∧ fld c 511 234 = 0) :
    startBcast s k c = (s, { work := .bcastWait }) := by
  obtain ⟨hdst, hctr, hclear⟩ := h
  exact if_neg (by simp [hdst, hctr, hclear])

/-- A BCAST whose slot has not closed nor failed waits. -/
theorem bcastNow_of_open {q : Qid} {r : Started}
    (h : ∀ S, tfind (s.part k).slots (slotKey (bcEpoch r.cmd.toNat) (bcSlot r.cmd.toNat)) = some S → S.st ≠ .closed ∧ S.st ≠ .failed) :
    bcastNow q s k r = s := by
  unfold bcastNow
  split
  · next S hS => exact if_neg (by simpa using h S hS)
  · rfl

/-- What PUT asks of its operands. -/
def putLegal (c : Nat) : Prop := ptSrc c % 64 = 0 ∧ ptDst c % 64 = 0 ∧ ptBytes c ≠ 0 ∧ ptBytes c % 64 = 0 ∧ fld c 511 287 = 0

theorem startPut_of_illegal (h : ¬putLegal c) : startPut s k c = (s, failed stINVALID 6) := by
  refine if_pos (Classical.byContradiction fun hc => h ?_)
  simpa [putLegal, not_or] using hc

theorem startPut_of_legal {J : Job} (hJ : (s.part k).job = some J) (h : putLegal c) : startPut s k c =
    if rankValid J (ptRank c) = false then (s, failed stADDRESS 6)
    else if readable (s.part k) (ptSrc c) (ptBytes c) = false then
      (s, failed stADDRESS 6 (firstBad (s.part k) (ptSrc c) (ptBytes c) false))
    else (s.noteRead k (ptSrc c) (ptBytes c), { work := .lacks ((List.range (putParts c)).map fun i => (ptRank c, i)) }) := by
  obtain ⟨hsrc, hdst, hn, hn64, hclear⟩ := h
  unfold startPut
  dsimp only
  rw [if_neg (by simp [hsrc, hdst, hn, hn64, hclear]), hJ]
  simp only [Option.any_some, Bool.not_eq_true']
  rfl

/-- What FGATHER asks of its operands. -/
def gatherLegal (P : Part) (c : Nat) : Prop := fgDst c % 64 = 0 ∧ fgDstSc c % 64 = 0 ∧ fgM c % 64 = 0 ∧ fgMSc c % 64 = 0 ∧
  fld c 511 454 = 0 ∧ fgCols c ≠ 0 ∧ fgCols c % 128 = 0 ∧ (fgFmt c = 0x01 ∨ fgFmt c = 0x06) ∧ ccwOk (fgFmt c) (fgCcw c) = true ∧
  groupOf (ccwMode (fgCcw c)) ≠ 0 ∧ (fgAsync c = true ∨ fgFace c = P.stepNo.toNat)

theorem startGather_of_illegal (h : ¬gatherLegal (s.part k) c) : startGather s k c = (s, failed stINVALID 6) := by
  refine if_pos (Classical.byContradiction fun hc => h ?_)
  simpa [gatherLegal, not_or, or_iff_not_imp_left] using hc

theorem startGather_of_legal {J : Job} (hJ : (s.part k).job = some J) (h : gatherLegal (s.part k) c) : startGather s k c =
    if rankValid J (fgRank c) = false then (s, failed stADDRESS 6)
    else if writable (s.part k) (fgDst c) (fgBytes c) = false then
      (s, failed stADDRESS 6 (firstBad (s.part k) (fgDst c) (fgBytes c) true))
    else if writable (s.part k) (fgDstSc c) (fgScBytes c) = false then
      (s, failed stADDRESS 6 (firstBad (s.part k) (fgDstSc c) (fgScBytes c) true))
    else (s, { work := .gather 0 }) := by
  obtain ⟨hdst, hdstSc, hm, hmSc, hclear, hcols, hcols128, hfmt, hccw, hgroup, hface⟩ := h
  unfold startGather
  dsimp only
  rw [if_neg, hJ]
  · simp only [Option.any_some, Bool.not_eq_true']
    rfl
  · simp only [not_or, not_and_or, not_not, Bool.not_eq_true', Bool.not_eq_false, decide_eq_false_iff_not]
    exact ⟨hdst, hdstSc, hm, hmSc, hclear, hcols, hcols128, hfmt, hccw, hgroup, hface⟩

/-- What RSIGNAL asks of its operands. -/
def rsignalLegal (c : Nat) : Prop := fld c 191 160 ≠ 0 ∧ bodyClear c [(141, 128), (159, 144), (191, 160)] = true

theorem startRsignal_of_illegal (h : ¬rsignalLegal c ∨ (s.part k).job = none) :
    startRsignal s k c = (s, failed stINVALID (unitOf (hdrClass c))) := by
  refine if_pos (Classical.byContradiction fun hc => ?_)
  simp only [not_or, Bool.not_eq_true', Bool.not_eq_false, Option.isNone_iff_eq_none] at hc
  obtain ⟨h1, h2, h3⟩ := hc
  exact h.elim (fun hno => hno ⟨h1, h2⟩) h3

theorem startRsignal_of_legal {J : Job} (hJ : (s.part k).job = some J) (h : rsignalLegal c) : startRsignal s k c =
    if rankValid J (fld c 159 144) = false then (s, failed stADDRESS (unitOf (hdrClass c)))
    else (s, { work := .rsignal (BitVec.ofNat 16 (fld c 159 144)), ukind := BitVec.ofNat 4 (unitOf (hdrClass c)) }) := by
  obtain ⟨hn, hclear⟩ := h
  unfold startRsignal
  dsimp only
  rw [if_neg (by simp [hn, hclear, hJ]), hJ]
  simp only [Option.any_some, Bool.not_eq_true']
end

/-! ### What a start leaves -/

/-- Frame, zeros and slot of a SLOTOPEN that opens. -/
structure SlotOpened (s u : State) (k c : Nat) : Prop where
  keeps : Keeps [.mem, .queues, .parts, .ports, .link, .vectors, .pins, .power, .ripstop, .ethTx, .snoops] s u
  within : StoresWithin (s.part k) k [(soAddr c, 8 * soLen c)] s u
  zero : ∀ x, soAddr c ≤ x → x < soAddr c + 8 * soLen c → ∀ key, keyOf (s.part k) k x = some key → cellAt u.mem key = 0
  slot : ∃ S, tfind (u.part k).slots (slotKey (soEpoch c) (soSlot c)) = some S ∧ S.st = .opened ∧ S.addr.toNat = soAddr c ∧
    S.len = soLen c ∧ S.step = (s.part k).stepNo ∧ S.sealed = [] ∧ S.sum1 = 0 ∧ S.sum2 = 0 ∧ S.resets = 0 ∧ S.cmap.length = soNc c

theorem readsAs_popFront (s : State) (q k : Nat) : ReadsAs k s (popFront s q) := ⟨.refl _, rfl, rfl, rfl⟩

theorem slotOpened_openSlot (s : State) (q : Qid) (k c : Nat) :
    SlotOpened s (openSlot ((popFront s q.toNat).noteIf k (soMap c) (4 * soNc c)) k c) k c := by
  have hreads : ReadsAs k s ((popFront s q.toNat).noteIf k (soMap c) (4 * soNc c)) :=
    (readsAs_popFront s q.toNat k).trans (readsAs_noteIf _ k _ _)
  have hacc := accessed_noteIf (s := popFront s q.toNat) k (soMap c) (4 * soNc c)
  refine ⟨keeps_openSlot among (keeps_noteIf among (keeps_pop among s _) _ _ _) _ _, ?_, fun x hx1 hx2 key hkey => ?_, ?_⟩
  · exact storesWithin_trans (storesWithin_of_mem_eq hreads.mem) (storesWithin_trans
      (storesWithin_zeroFill hreads.maps (List.mem_singleton.2 rfl)) (storesWithin_of_mem_eq (openSlot_mem _ k c)))
  · rw [openSlot_mem]
    exact cellAt_zeroFill hx1 hx2 ((hreads.maps.keyOf k x).trans hkey)
  · obtain ⟨S, hS, hopen⟩ := openSlot_slots ((popFront s q.toNat).noteIf k (soMap c) (4 * soNc c)) k c
    have haddr : soAddr c < 2 ^ 48 := fld_lt c 175 128
    have hstep := (accessed_zeroFill ((popFront s q.toNat).noteIf k (soMap c) (4 * soNc c)) k (soAddr c) (8 * soLen c)).stepNo
    rw [hacc.stepNo, popFront_part] at hstep
    refine ⟨S, hS, congrArg Slot.st hopen, ?_, congrArg Slot.len hopen, (congrArg Slot.step hopen).trans hstep,
      congrArg Slot.sealed hopen, congrArg Slot.sum1 hopen, congrArg Slot.sum2 hopen, congrArg Slot.resets hopen, ?_⟩
    · rw [show S.addr = BitVec.ofNat 48 (soAddr c) from congrArg Slot.addr hopen, BitVec.toNat_ofNat, Nat.mod_eq_of_lt haddr]
    · exact (congrArg (fun S : Slot => S.cmap.length) hopen).trans ((List.length_map _).trans List.length_range)

section
variable {s : State} {q : Qid} {k c : Nat} (hr : s.ready q k c)
include hr

/-- A collective command that needs a job ends INVALID without one (08 R225). -/
theorem startsAs_of_noJob (hj : (s.part k).job = none) {e : Instr × Nat}
    (he : e ∈ [(Instr.slotopen q, 0x11), (.contrib q, 0x12), (.bcast q, 0x13), (.put q, 0x14), (.fgather q, 0x15),
      (.hvote q, 0x17), (.jersey q, 0x18), (.rankset q, 0x19)]) (hk : isKind 4 e.2 c = true)
    (hno : e.2 = 0x11 → (s.queue q.toNat).started.find? (fun r => r.work = .iwin && isKind 4 0x11 r.cmd.toNat) = none) :
    StartsAs (exec e.1 s) s q c (popFront s q.toNat) (failed stINVALID 6) := by
  simp only [List.mem_cons, List.not_mem_nil, or_false] at he
  obtain rfl | rfl | rfl | rfl | rfl | rfl | rfl | rfl := he
  · rw [exec_slotopen (hno rfl)]; exact startsAs_onCollThen_of_noJob hr hk hj
  · exact startsAs_onCollThen_of_noJob hr hk hj
  · exact startsAs_onCollThen_of_noJob hr hk hj
  · exact startsAs_onCollThen_of_noJob hr hk hj
  · exact startsAs_onCollThen_of_noJob hr hk hj
  · exact startsAs_onCollThen_of_noJob hr hk hj
  · exact startsAs_onCollThen_of_noJob hr hk hj
  · exact startsAs_onColl hr hk (if_pos ⟨by rw [hj]; rfl, by simp⟩)

/-- JOIN starts as its descriptor says. -/
theorem startsAs_join (hk : isKind 4 0x10 c = true) {u : State} {r : Started} (he : joinJob (popFront s q.toNat) k c = (u, r)) :
    StartsAs (exec (.join q) s) s q c u r := startsAs_onColl hr hk ((if_neg (by simp)).trans he)
end

/-- Settles O42. -/
theorem collectiveStarts : Obligations.CollectiveStarts := by
  unfold Obligations.CollectiveStarts
  intro s q k c hr P z h bad goes
  have hcmd := toNat_cmd hr
  refine ⟨fun hj e he => startsAs_of_noJob hr hj he, fun hk => ?_, fun hk hj hno => ?_, fun hk hj => ?_, fun hk hj => ?_,
    fun hk J hJ => ?_, fun hk J hJ => ?_, fun hk => ?_⟩
  · intro a legal d
    have hjoin := fun u r => startsAs_join (u := u) (r := r) hr hk
    have hgo (hl : legal) := joinJob_of_legal (s := z) (k := k) (c := c) hl
    refine ⟨fun hl => hjoin _ _ (joinJob_of_illegal hl), fun hl f hd => hjoin _ _ ((hgo hl).1 f hd),
      fun hl hd => hjoin _ _ ((hgo hl).2.1 hd), fun hl J hd => ⟨_, hjoin _ _ ((hgo hl).2.2 J hd), ?_, part_modPart_same _ _ _, fun j hjk => ?_⟩⟩
    · have hcalm : z.calm := hr.1
      exact (keeps_modPart among (keeps_step among (keeps_pop among s _) (keeps_noteJob_of_calm hcalm k a)) _ _).frame
    · exact (part_modPart_ne _ hjk _).trans (noteJob_part_ne hjk a)
  · intro v
    rw [exec_slotopen hno]
    refine ⟨fun hv => startsAs_onCollThen hr hk hj (startSlot_of_invalid z k c hv) rfl, fun hv hwin => ?_, fun hv hwin hlo => ?_⟩
    · obtain ⟨hkeeps, hwithin, hzero, hslot⟩ := slotOpened_openSlot s q k c
      refine ⟨_, startsAs_onCollThen hr hk hj ((startSlot_of_valid z k c hv).trans (if_neg ?_)) rfl, hkeeps.frame, hwithin, hzero, hslot⟩
      rintro ⟨h1, h2⟩
      exact hwin.elim (fun h => absurd h (by simp [h1])) (fun h => absurd h2 (Nat.not_lt.2 h))
    · have horder : (z.noteIf k (soMap c) (4 * soNc c)).order = s.order :=
        (keeps_noteIf (ws := [.queues, .parts, .snoops]) among (keeps_pop among s _) _ _ _).same .order (by decide)
      have hgo := (startSlot_of_valid z k c hv).trans (if_pos ⟨hwin, hlo⟩)
      rw [withPages, horder] at hgo
      exact (exec_slotopen hno).trans (outcome_onCollThen_of_work hr hk hj hgo nofun)
  · intro v n
    refine ⟨fun hv => startsAs_onCollThen hr hk hj (startContrib_of_invalid z k c q hv) rfl,
      fun hv => ⟨countNarrow (narrowed z k c) k q.toNat (ctNarrow z k c).2,
        (outcome_onCollThen_of_work hr hk hj (startContrib_of_valid z k c q hv) nofun).trans ?_, ?_⟩⟩
    · unfold claimFirst
      dsimp only
      rw [hcmd]
      rfl
    · obtain ⟨hsat, hnan⟩ := countNarrow_health (narrowed z k c) k q.toNat (ctNarrow z k c).2
      rw [(accessed_narrowed z k c).health] at hsat hnan
      refine ⟨(keeps_countNarrow among (keeps_store among (keeps_zeroFill among (keeps_pop among s _) _ _ _) _ _ _) _ _ _).frame, ?_, ?_,
        hsat, hnan⟩
      · exact storesWithin_trans (storesWithin_trans (storesWithin_of_mem_eq rfl) (storesWithin_narrowed z k c))
          (storesWithin_of_mem_eq (countNarrow_mem _ _ _ _))
      · rw [countNarrow_mem]
        exact narrowed_popFront_mem s k c q.toNat
  · intro legal
    have hgo (hl : legal) : goes (.bcast q) z { work := .bcastWait } (bcastNow q) :=
      outcome_onCollThen_of_work hr hk hj (startBcast_of_legal (s := z) hl) nofun
    refine ⟨fun hl => startsAs_onCollThen hr hk hj (startBcast_of_illegal (s := z) hl) rfl, hgo, fun hl hS => (hgo hl).trans ?_⟩
    refine congrArg _ (bcastNow_of_open fun S h => hS S ?_)
    rwa [pushStarted_slots, hcmd] at h
  · have hj : P.job ≠ none := by rw [hJ]; nofun
    intro legal
    have hgo (hl : legal) := startPut_of_legal (s := z) hJ hl
    refine ⟨fun hl => startsAs_onCollThen hr hk hj (startPut_of_illegal (s := z) hl) rfl, fun hl hrank =>
      startsAs_onCollThen hr hk hj ((hgo hl).trans (if_pos hrank)) rfl, fun hl hrank hread =>
      startsAs_onCollThen hr hk hj ((hgo hl).trans ((if_neg (ne_false_of_eq_true hrank)).trans (if_pos hread))) rfl,
      fun hl hrank hread => ?_⟩
    refine (outcome_onCollThen_of_work hr hk hj
      ((hgo hl).trans ((if_neg (ne_false_of_eq_true hrank)).trans (if_neg (ne_false_of_eq_true hread)))) nofun).trans ?_
    unfold putNow
    dsimp only
    rw [hcmd]
  · have hj : P.job ≠ none := by rw [hJ]; nofun
    intro legal room
    have hgo (hl : legal) := startGather_of_legal (s := z) hJ hl
    refine ⟨fun hl => startsAs_onCollThen hr hk hj (startGather_of_illegal (s := z) hl) rfl, fun hl hrank hroom => ?_, fun hl hno => ?_⟩
    · obtain ⟨hel, hsc⟩ := hroom
      exact outcome_onCollThen_of_work hr hk hj ((hgo hl).trans ((if_neg (ne_false_of_eq_true hrank)).trans
        ((if_neg (ne_false_of_eq_true hel)).trans (if_neg (ne_false_of_eq_true hsc))))) nofun
    · by_cases hrank : rankValid J (fgRank c) = false
      · exact ⟨0, startsAs_onCollThen hr hk hj ((hgo hl).trans (if_pos hrank)) rfl⟩
      by_cases hel : writable P (fgDst c) (fgBytes c) = false
      · exact ⟨_, startsAs_onCollThen hr hk hj ((hgo hl).trans ((if_neg hrank).trans (if_pos hel))) rfl⟩
      by_cases hsc : writable P (fgDstSc c) (fgScBytes c) = false
      · exact ⟨_, startsAs_onCollThen hr hk hj ((hgo hl).trans ((if_neg hrank).trans ((if_neg hel).trans (if_pos hsc)))) rfl⟩
      · exact absurd ⟨by simpa using hrank, by simpa using hel, by simpa using hsc⟩ hno
  · have hsel : decide (hdrKind c = 2) = true := by simpa using hk
    intro u legal
    refine ⟨fun hl => ?_, fun hl J hJ hrank => ?_, fun hl J hJ hrank => ?_⟩
    · exact startsAs_startThen hr hsel (startRsignal_of_illegal (s := z) hl) rfl
    · exact startsAs_startThen hr hsel ((startRsignal_of_legal (s := z) hJ hl).trans (if_pos hrank)) rfl
    · exact outcome_startThen_of_work hr hsel ((startRsignal_of_legal (s := z) hJ hl).trans (if_neg (ne_false_of_eq_true hrank))) nofun

end Sys2Proof.Machine.Collectives
end
